-- ==== Sys2Proof/Word.lean ====
section
/-! DEFINITION. The word types of the W740 (R10, R47, R52): bytes, instruction words, register and
address widths. -/

namespace Sys2Proof

/-- A byte, the smallest addressable unit (R47). -/
abbrev Byte := BitVec 8
/-- An instruction word (R52) and a vector lane (11 preamble). -/
abbrev Word := BitVec 32
/-- A general or special register (R34, R37). -/
abbrev DWord := BitVec 64
/-- A 48-bit virtual address (R267). -/
abbrev VAddr := BitVec 48

end Sys2Proof
end

