-- ==== Sys2Proof/Syntax.lean ====
section
/-! DEFINITION. The instructions: one constructor for every row of the table of operations and
events. Words come first, in the table's order, then the events. A field whose every bit pattern
is legal has the exact type; a field with limits is wider than its limits and WellFormed checks it. -/

namespace Sys2Proof

/-- The five engines, in the order of their engine fields 001 to 101 (R52). -/
inductive Engine where
  | load | matrix | vector | copy | stream
  deriving DecidableEq, Repr, Inhabited

/-- The token bits of an engine word (R54). -/
structure Tok where
  wl : Bool
  wr : Bool
  gl : Bool
  gr : Bool
  deriving DecidableEq, Repr, Inhabited

/-- The null field of a branch (R59). -/
inductive NullMode where
  | none | nt | tk
  deriving DecidableEq, Repr

/-- The functions of AMOW and AMOD (R84). -/
inductive AtomFn where
  | add | swap | cas | and | or | xor | min | max | minu | maxu
  deriving DecidableEq, Repr

/-- The ord field of an atomic (R86). -/
inductive AtomOrd where
  | rlx | acq | rel | ar
  deriving DecidableEq, Repr

/-- A scope (R51). -/
inductive Scope where
  | core | die | dev | sys
  deriving DecidableEq, Repr

/-- The kind of a fence (R51). -/
inductive FenceKind where
  | acq | rel | full
  deriving DecidableEq, Repr

/-- The queues that QPUSH reaches (R91). -/
inductive PushQ where
  | xq | mbox
  deriving DecidableEq, Repr

/-- The queues that QPOP and QCNT reach (R91). -/
inductive PopQ where
  | rq0 | rq1 | cq | wsq | mbox
  deriving DecidableEq, Repr

/-- The event operand of SIGEV and WAITEV (R58, R97). -/
inductive EvOp where
  | imm (ev : BitVec 16)
  | reg (a : Fin 32)
  deriving DecidableEq, Repr

/-- The destination of LDX, LGATH and LLAND (R60). -/
inductive LDest where
  | tile (t : Fin 16)
  | vq (q : Fin 4)
  deriving DecidableEq, Repr

/-- The B source of a product (R61). -/
inductive BSrc where
  | tile (t : Fin 16)
  | wsf
  deriving DecidableEq, Repr

/-- The B scale of a product (R61). -/
inductive BScale where
  | none | bf | scf
  deriving DecidableEq, Repr

/-- The operands of one product step (R61): shared by MMA and the steps of MRUN. -/
structure MmaOps where
  a : Fin 4
  ta : Fin 16
  b : BSrc
  sa : Bool
  sb : BScale
  z : Bool
  ck : Bool
  deriving DecidableEq, Repr

/-- The continuation of MMA and MRUN (R61): profile, K/8 and .TB. -/
structure MmaCont where
  profile : BitVec 8
  k8 : BitVec 9
  tb : Bool
  deriving DecidableEq, Repr

/-- The destination of MDRAIN (R62). -/
inductive DrainDest where
  | vq (q : Fin 4)
  | wq
  | heap
  deriving DecidableEq, Repr

/-- The mode of APATCH (R188). -/
inductive PatchMode where
  | set | add | mset
  deriving DecidableEq, Repr

/-- A vector source operand (R65). -/
inductive VSrc where
  | v (k : Fin 24)
  | vq (q : Fin 4)
  | lane
  | vz
  deriving DecidableEq, Repr

/-- A vector destination operand (R65). -/
inductive VDst where
  | v (k : Fin 24)
  | wq
  | mq
  | discard
  deriving DecidableEq, Repr

/-- The condition of VCMP (R66). -/
inductive VCc where
  | eq | ne | lt | le | gt | ge | un | or
  deriving DecidableEq, Repr

/-- The type of VCMP (R66). -/
inductive VTy where
  | f | i | u
  deriving DecidableEq, Repr

/-- The functions of PLOG (R224). -/
inductive PFn where
  | and | or | xor | andn | not | mov | all | none
  deriving DecidableEq, Repr

/-- The conversions of VCVT (R134). -/
inductive Conv where
  | f2i | i2f | u2f | f2b | b2f | f2h | h2f | f2e4 | e42f | f2e5 | e52f | frac
  deriving DecidableEq, Repr

/-- The rounding modes (R131). -/
inductive Rnd where
  | rne | rtz | rdn | rup | rna | sr
  deriving DecidableEq, Repr

/-- The field widths of VPACK and VUNPK (R227). -/
inductive PackW where
  | w16 | w8 | w4
  deriving DecidableEq, Repr

/-- The formats of VQUANT and VDEQ (R229). -/
inductive QFmt where
  | e4 | e5 | q4x
  deriving DecidableEq, Repr

/-- The reduce field of RRECV (R318). -/
inductive Reduce where
  | none | addf | addb | addi | maxf
  deriving DecidableEq, Repr

/-- The functions of ATOMV (R67). -/
inductive AtomV where
  | addf | addi | maxf | minf | addfs
  deriving DecidableEq, Repr

/-- Which end of a remote transfer this core is (R320). -/
inductive RemoteOp where
  | send | recv
  deriving DecidableEq, Repr

/-- What the debug interface may write in bank 0 (R42). -/
inductive DbgReg where
  | g (r : Fin 32)
  | s (r : Fin 16)
  deriving DecidableEq, Repr

/-- The fields of a LAUNCH entry (R336). -/
structure LaunchFields where
  slot : BitVec 16
  arglen : BitVec 16
  event : BitVec 16
  argsrc : DWord
  start : DWord
  plumbmax : BitVec 32
  sliplim : BitVec 32
  strict : Bool
  lv : Bool
  peerbase : BitVec 16
  peern : BitVec 16
  save : DWord
  bufs : List DWord
  deriving DecidableEq, Repr

/-- A loaded program slot (R28, R30, R264, R339, R392): code image and entry point, bench, data and loft
sections, where in HBM firmware keeps code and data (`dataPa`), the index of the first window entry that maps them
(`dataWin`), epilogue images, gang shape, the registered weight-stream images with their sizes and rates, and the address ranges that its windows
must cover. -/
structure SlotImage where
  slot : Fin 256
  code : List Byte
  entry : Nat
  bench : List Byte
  data : List Byte
  dataPa : Nat
  dataWin : Fin 3072
  loftBase : VAddr
  loft : List Byte
  epi : List (List (BitVec 16))
  dieSet : BitVec 4
  indexSet : BitVec 32
  streams : List (VAddr × Nat × Nat)
  range : List (VAddr × Nat)
  deriving DecidableEq, Repr

/-- What firmware grants a tenant (R330, R285, R363, R388): cores, home die of its events, batch
buffers of each die, window-table entries and peer-table entries. -/
structure TenantGrant where
  cores : List (Fin 128)
  homeDie : Fin 4
  bufs : Vector Nat 4
  windows : List (Fin 4 × Fin 3072 × BitVec 128)
  peers : List (BitVec 13 × DWord)
  deriving DecidableEq, Repr

/-- Every operation and event of the part. -/
inductive Instr where
  -- control words: the ALU group (R74, R75)
  | add (d a b : Fin 32)
  | sub (d a b : Fin 32)
  | and (d a b : Fin 32)
  | or (d a b : Fin 32)
  | xor (d a b : Fin 32)
  | andn (d a b : Fin 32)
  | sll (d a b : Fin 32)
  | srl (d a b : Fin 32)
  | sra (d a b : Fin 32)
  | rotl (d a b : Fin 32)
  | mul (d a b : Fin 32)
  | mulh (d a b : Fin 32)
  | mulhu (d a b : Fin 32)
  | div (d a b : Fin 32)
  | divu (d a b : Fin 32)
  | rem (d a b : Fin 32)
  | remu (d a b : Fin 32)
  | min (d a b : Fin 32)
  | max (d a b : Fin 32)
  | minu (d a b : Fin 32)
  | maxu (d a b : Fin 32)
  | clz (d a : Fin 32)
  | ctz (d a : Fin 32)
  | popc (d a : Fin 32)
  -- immediate forms (R76)
  | addi (d a : Fin 32) (imm : BitVec 13)
  | andi (d a : Fin 32) (imm : BitVec 13)
  | ori (d a : Fin 32) (imm : BitVec 13)
  | xori (d a : Fin 32) (imm : BitVec 13)
  | slli (d a : Fin 32) (sh : Fin 64)
  | srli (d a : Fin 32) (sh : Fin 64)
  | srai (d a : Fin 32) (sh : Fin 64)
  | lui (d : Fin 32) (imm : BitVec 18)
  | adrp (d : Fin 32) (imm : BitVec 18)
  -- compares (R77)
  | ceq (s : Fin 16) (a b : Fin 32)
  | cne (s : Fin 16) (a b : Fin 32)
  | clt (s : Fin 16) (a b : Fin 32)
  | cge (s : Fin 16) (a b : Fin 32)
  | cltu (s : Fin 16) (a b : Fin 32)
  | cgeu (s : Fin 16) (a b : Fin 32)
  | cbs (s : Fin 16) (a b : Fin 32)
  | cbc (s : Fin 16) (a b : Fin 32)
  | ceqi (s : Fin 16) (a : Fin 32) (imm : BitVec 14)
  | cnei (s : Fin 16) (a : Fin 32) (imm : BitVec 14)
  | clti (s : Fin 16) (a : Fin 32) (imm : BitVec 14)
  | cgei (s : Fin 16) (a : Fin 32) (imm : BitVec 14)
  | cltui (s : Fin 16) (a : Fin 32) (imm : BitVec 14)
  -- steer logic (R78)
  | sand (sd sa sb : Fin 16)
  | sor (sd sa sb : Fin 16)
  | sxor (sd sa sb : Fin 16)
  | snot (sd sa : Fin 16)
  | smov (sd sa : Fin 16)
  | sset (sd : Fin 16)
  | sclr (sd : Fin 16)
  -- prepare and branch (R39, R40)
  | prep (s : Fin 16) (off : BitVec 19)
  | prepr (s : Fin 16) (a : Fin 32)
  | bt (s : Fin 16) (null : NullMode)
  | bf (s : Fin 16) (null : NullMode)
  | ba (s : Fin 16) (null : NullMode)
  | bl (s : Fin 16) (null : NullMode)
  -- loads and stores (R80)
  | ldb (d a : Fin 32) (cls : Fin 16) (imm : BitVec 9)
  | ldbu (d a : Fin 32) (cls : Fin 16) (imm : BitVec 9)
  | ldh (d a : Fin 32) (cls : Fin 16) (imm : BitVec 9)
  | ldhu (d a : Fin 32) (cls : Fin 16) (imm : BitVec 9)
  | ldw (d a : Fin 32) (cls : Fin 16) (imm : BitVec 9)
  | ldwu (d a : Fin 32) (cls : Fin 16) (imm : BitVec 9)
  | ldd (d a : Fin 32) (cls : Fin 16) (imm : BitVec 9)
  | stb (d a : Fin 32) (cls : Fin 16) (imm : BitVec 9)
  | sth (d a : Fin 32) (cls : Fin 16) (imm : BitVec 9)
  | stw (d a : Fin 32) (cls : Fin 16) (imm : BitVec 9)
  | std (d a : Fin 32) (cls : Fin 16) (imm : BitVec 9)
  | ldl (d : Fin 32) (imm : BitVec 18)
  | lpool (imm : BitVec 18)
  -- atomics and fences (R84, R51)
  | amow (d a b : Fin 32) (fn : AtomFn) (ord : AtomOrd) (scope : Scope)
  | amod (d a b : Fin 32) (fn : AtomFn) (ord : AtomOrd) (scope : Scope)
  | fence (scope : Scope) (kind : FenceKind) (mask : BitVec 16)
  -- special registers (R87, R90)
  | mfs (d : Fin 32) (sr : BitVec 12)
  | mts (a : Fin 32) (sr : BitVec 12)
  | mtsi (sr : BitVec 12) (imm : BitVec 11)
  | mtsr (k : Fin 16) (a : Fin 32) (sr : BitVec 12)
  -- queues (R92)
  | qpush (a : Fin 32) (q : PushQ)
  | qpop (d : Fin 32) (q : PopQ)
  | qcnt (d : Fin 32) (q : PopQ)
  -- synchronisation (R93 to R98)
  | bar (id : Fin 16)
  | plumb (mark : BitVec 16)
  | twait (a : Fin 32)
  | sigev (ev : EvOp)
  | waitev (ev : EvOp)
  | phsw (p : Fin 8)
  -- the jig (R99)
  | jigRec (j : Fin 4)
  | jigEnd (d : Fin 32)
  | jigPlay (d : Fin 32) (j : Fin 4)
  | jigStop (a b : Fin 32)
  | jigDrop (j : Fin 4)
  -- the priority queue (R102)
  | pqpush (a b : Fin 32)
  | pqpop (d b : Fin 32)
  | pqtop (d b : Fin 32)
  | pqclr
  | pqcnt (d : Fin 32)
  -- nests, waiting, traps (R104 to R114)
  | ngo (k : Fin 2) (n : BitVec 12)
  | nbrk (s : Fin 16) (k : Fin 2)
  | waitq (mask : BitVec 5)
  | trap (imm : BitVec 16)
  | rft
  | retire
  | nop (x : BitVec 23)
  | brk
  -- load-engine words (R60)
  | ldt (t : Tok) (d : Fin 16) (st : Fin 16) (z tr : Bool)
  | ldq (t : Tok) (q : Fin 4) (st : Fin 16)
  | ldsc (t : Tok) (target : Bool) (st : Fin 16)
  | ldx (t : Tok) (d : LDest) (st : Fin 16) (rq : Fin 2) (rows : BitVec 9)
  | lgath (t : Tok) (d : LDest) (st : Fin 16) (q : Fin 4)
  | lland (t : Tok) (d : LDest) (slot : Fin 64)
  | ladv (t : Tok) (st : Fin 16) (level : Fin 8)
  | lnop (t : Tok)
  -- matrix-engine words (R61, R62)
  | mma (t : Tok) (o : MmaOps) (c : MmaCont)
  | mrun (t : Tok) (k : Fin 2) (c : MmaCont)
  | mdrain (t : Tok) (a : Fin 4) (d : DrainDest) (slot : Fin 8) (ac : Bool)
  | azero (t : Tok) (a : Fin 4)
  | aread (t : Tok) (a : Fin 4) (row : Fin 64) (q : Fin 4)
  | apatch (t : Tok) (a : Fin 4) (row : Fin 64) (mode : PatchMode)
  | epset (t : Tok) (slot : Fin 8) (st : Fin 16)
  | epcon (t : Tok) (bank : Fin 8) (st : Fin 16)
  | heaprd (t : Tok) (q : Fin 4) (part : Bool)
  | heapclr (t : Tok) (k : Fin 64)
  | mchk (t : Tok) (q : Fin 4)
  | mnop (t : Tok)
  -- stream-engine words (R68)
  | sdopen (st : Fin 16)
  | sdrun (n : BitVec 12)
  | sdclose
  | sdstat
  -- vector-engine words (R66)
  | vadd (t : Tok) (d : VDst) (a b : VSrc) (p : Fin 16)
  | vsub (t : Tok) (d : VDst) (a b : VSrc) (p : Fin 16)
  | vmul (t : Tok) (d : VDst) (a b : VSrc) (p : Fin 16)
  | vfma (t : Tok) (d : VDst) (a b : VSrc) (p : Fin 16)
  | vmin (t : Tok) (d : VDst) (a b : VSrc) (p : Fin 16)
  | vmax (t : Tok) (d : VDst) (a b : VSrc) (p : Fin 16)
  | vabs (t : Tok) (d : VDst) (a : VSrc) (p : Fin 16)
  | vneg (t : Tok) (d : VDst) (a : VSrc) (p : Fin 16)
  | vrcp (t : Tok) (d : VDst) (a : VSrc) (p : Fin 16)
  | vrsq (t : Tok) (d : VDst) (a : VSrc) (p : Fin 16)
  | vexp2 (t : Tok) (d : VDst) (a : VSrc) (p : Fin 16)
  | vlog2 (t : Tok) (d : VDst) (a : VSrc) (p : Fin 16)
  | viadd (t : Tok) (d : VDst) (a b : VSrc) (p : Fin 16)
  | visub (t : Tok) (d : VDst) (a b : VSrc) (p : Fin 16)
  | vimul (t : Tok) (d : VDst) (a b : VSrc) (p : Fin 16)
  | vimin (t : Tok) (d : VDst) (a b : VSrc) (p : Fin 16)
  | vimax (t : Tok) (d : VDst) (a b : VSrc) (p : Fin 16)
  | viminu (t : Tok) (d : VDst) (a b : VSrc) (p : Fin 16)
  | vimaxu (t : Tok) (d : VDst) (a b : VSrc) (p : Fin 16)
  | vand (t : Tok) (d : VDst) (a b : VSrc) (p : Fin 16)
  | vor (t : Tok) (d : VDst) (a b : VSrc) (p : Fin 16)
  | vxor (t : Tok) (d : VDst) (a b : VSrc) (p : Fin 16)
  | vshl (t : Tok) (d : VDst) (a b : VSrc) (p : Fin 16)
  | vshr (t : Tok) (d : VDst) (a b : VSrc) (p : Fin 16)
  | vsra (t : Tok) (d : VDst) (a b : VSrc) (p : Fin 16)
  | vcmp (t : Tok) (cc : VCc) (ty : VTy) (pd : Fin 16) (a b : VSrc)
  | vsel (t : Tok) (d : VDst) (a b : VSrc) (p : Fin 16)
  | plog (t : Tok) (fn : PFn) (pd pa pb : Fin 16)
  | vcvt (t : Tok) (d : VDst) (a : VSrc) (conv : Conv) (rnd : Rnd) (sat : Bool)
  | vpack (t : Tok) (d : VDst) (a b : VSrc) (w : PackW)
  | vunpk (t : Tok) (d : VDst) (a b : VSrc) (w : PackW)
  | vquant (t : Tok) (d : VDst) (a : VSrc) (f : QFmt)
  | vdeq (t : Tok) (d : VDst) (a : VSrc) (f : QFmt)
  | vrsum (t : Tok) (d : VDst) (a : VSrc) (p : Fin 16)
  | vrmax (t : Tok) (d : VDst) (a : VSrc) (nn : Bool) (p : Fin 16)
  | vrmin (t : Tok) (d : VDst) (a : VSrc) (nn : Bool) (p : Fin 16)
  | vperm (t : Tok) (d : VDst) (a b : VSrc) (p : Fin 16)
  | vbcst (t : Tok) (d : VDst) (a : VSrc) (lane : Fin 64)
  | vmov (t : Tok) (d : VDst) (a : VSrc) (p : Fin 16)
  | vsplt (t : Tok) (d : VDst) (imm : BitVec 14)
  | vsplf (t : Tok) (d : VDst) (imm : BitVec 14)
  | vsplx (t : Tok) (d : VDst) (p : Fin 16)
  | vrand (t : Tok) (d : VDst) (p : Fin 16)
  | vrset (t : Tok) (a : VSrc)
  | vrskip (t : Tok) (a : VSrc)
  | vrget (t : Tok) (d : VDst)
  | vdefer (t : Tok) (a b : VSrc) (p : Fin 16)
  | vdrain (t : Tok) (d : Fin 32) (fl : Bool) (p : Fin 16)
  | vdqn (t : Tok) (d : VDst)
  | vloop (t : Tok)
  | vrply (t : Tok) (a : VSrc) (rq : Fin 2) (lane : Fin 64)
  | vflag (t : Tok) (d : VDst) (clr : Bool)
  | vnop (t : Tok)
  -- copy-engine words (R67)
  | copy (t : Tok) (d s : Fin 16)
  | sqst (t : Tok) (d : Fin 16)
  | xsend (t : Tok) (s : Fin 16) (nb : Bool) (slot : Fin 64) (off : BitVec 23)
  | rsend (t : Tok) (s : Fin 16) (peer : BitVec 13) (tag : BitVec 16)
  | rrecv (t : Tok) (d : Fin 16) (red : Reduce) (peer : BitVec 13) (tag : BitVec 16)
  | rfence (t : Tok)
  | atomv (t : Tok) (st : Fin 16) (iq : Fin 4) (fn : AtomV) (fin : Bool)
  | snop (t : Tok)
  -- events of the engines and the gang
  | engineRetire (e : Engine)
  | barrierRelease (id : Fin 16)
  | plumbRelease (mark : BitVec 16)
  | remoteMatch (peer : BitVec 13) (tag : BitVec 16) (len : Nat)
  | remoteEnd (op : RemoteOp) (peer : BitVec 13) (tag : BitVec 16) (len : Nat) (data : List Byte)
  | roundAbandon (peer : BitVec 13) (tag : BitVec 16)
  | dataFlit (port : Fin 32) (flit : List Byte)
  | idleFlit (port : Fin 32) (flit : List Byte)
  | retryRequest (port : Fin 32) (flit : List Byte)
  | portDown (port : Fin 32)
  | windowMigrated (die : Fin 4) (idx : Fin 3072) (pbase : BitVec 31)
  | driftExchange (die : Fin 4) (fwd back : BitVec 32)
  | eventWake (tn : Fin 16) (ev : BitVec 16)
  -- events of the host and of firmware
  | kick (tn : Fin 16) (q : Fin 8) (seq : BitVec 32)
  | entryReread (tn : Fin 16) (q : Fin 8)
  | ack (tn : Fin 16) (q : Fin 8)
  | qcfgWrite (tn : Fin 16) (q : Fin 8) (v : DWord)
  | ercfgWrite (tn : Fin 16) (v : DWord)
  | hostRegisterWrite (tn : Fin 16) (off : BitVec 16) (v : DWord)
  | mbout (tn : Fin 16) (c : Fin 128)
  | mbin (tn : Fin 16) (c : Fin 128) (v : DWord)
  | dropClear (tn : Fin 16) (c : Fin 128)
  | launch (tn : Fin 16) (q : Fin 8) (seq : BitVec 32) (w : Bool) (f : LaunchFields)
  | listWait (tn : Fin 16) (q : Fin 8) (w : Bool) (ev : BitVec 16) (clr : Bool)
  | listSignal (tn : Fin 16) (q : Fin 8) (w : Bool) (ev : BitVec 16) (addr addend : DWord)
  | listSkipif (tn : Fin 16) (q : Fin 8) (w : Bool) (n : BitVec 16) (addr : DWord)
  | listJump (tn : Fin 16) (q : Fin 8) (w : Bool) (target : DWord)
  | listCall (tn : Fin 16) (q : Fin 8) (w : Bool) (target : DWord)
  | listReturn (tn : Fin 16) (q : Fin 8) (w : Bool)
  | listFence (tn : Fin 16) (q : Fin 8) (w : Bool)
  | listEnd (tn : Fin 16) (q : Fin 8) (w : Bool)
  | gangStart (task : Nat)
  | taskComplete (task : Nat)
  | preemptRequest (task : Nat)
  | taskResume (task : Nat)
  | taskDiscard (task : Nat)
  | hostMemAccess (write : Bool) (pa : Nat) (n : Nat) (data : List Byte)
  | linkRateChange (rate : Nat) (lanes : Nat)
  | firmwareDownload (die : Fin 4) (image key signature : List Byte)
  | trimRecord (die : Fin 4) (record signature : List Byte)
  | attestationReport (die : Fin 4) (nonce : List Byte)
  | illegalWord (e : Option Engine) (w : Word) (reason : BitVec 8)
  | fetchFault (addr : VAddr)
  | debugResume (task : Nat)
  | debugInterfaceWrite (c : Fin 128) (r : DbgReg) (v : DWord)
  | taskAbort (task : Nat)
  | slotLoad (img : SlotImage)
  | tenantCreate (tn : Fin 16) (grant : TenantGrant)
  | tenantDestroy (tn : Fin 16)
  | placementRemoval (c : Fin 128)
  -- events without operands
  | phaseResume
  | gangStall
  | stallResume
  | slipLimit
  | deadStop
  | plumbOverdue
  | slotLanding
  | lateLanding
  | sdopenRetire
  | streamBeat
  | blockRemoval
  | blockRefetch
  | blockPush
  | remoteTimeout
  | cqRecord
  | batchClose
  | trapEntry
  | companionStop
  | breakRequest
  | jigEntryIssue
  | gangStop
  | powerUp
  | warningTemperature
  | criticalTemperature
  | valueLanded
  deriving DecidableEq, Repr

end Sys2Proof
end

