-- ==== Sys2Proof/WellFormed.lean ====
section
/-! DEFINITION. Well-formed instructions: the field limits of R58 to R68 and R335 to R337 that the
types of the fields do not already hold. -/

namespace Sys2Proof

/-- s0 to s11 exist (R34, R58). -/
def steerOk (s : Fin 16) : Bool := decide (s.val < 12)

/-- Profile and K limits of a product's continuation (R61). -/
def mmaContOk (c : MmaCont) : Bool :=
  decide (c.profile.toNat < 8) && decide (0 < c.k8.toNat) && decide (c.k8.toNat ≤ 32)

/-- The combinations of B source, B scale and .TB that R61 refuses. -/
def mmaOpsOk (o : MmaOps) (c : MmaCont) : Bool :=
  match o.b, o.sb with
  | .wsf, .bf => false
  | .wsf, _ => !c.tb
  | .tile _, .scf => false
  | .tile _, _ => true

/-- Field limits of every instruction; an event's operands carry the limits its rule gives. -/
def wellFormed : Instr → Bool
  | .ceq s _ _ | .cne s _ _ | .clt s _ _ | .cge s _ _ | .cltu s _ _ | .cgeu s _ _ | .cbs s _ _
  | .cbc s _ _ => steerOk s
  | .ceqi s _ _ | .cnei s _ _ | .clti s _ _ | .cgei s _ _ | .cltui s _ _ => steerOk s
  | .sand d a b | .sor d a b | .sxor d a b => steerOk d && steerOk a && steerOk b
  | .snot d a | .smov d a => steerOk d && steerOk a
  | .sset d | .sclr d => steerOk d
  | .prep s _ | .prepr s _ => steerOk s
  | .bt s _ | .bf s _ | .ba s _ | .bl s _ => steerOk s
  | .ngo _ n => decide (0 < n.toNat) && decide (n.toNat ≤ 64)
  | .nbrk s _ => steerOk s
  | .ldx _ _ _ _ n => decide (0 < n.toNat) && decide (n.toNat ≤ 64)
  | .ladv _ _ l => decide (l.val < 6)
  | .mma _ o c => mmaContOk c && mmaOpsOk o c
  | .mrun _ _ c => mmaContOk c
  | .sdrun n => decide (0 < n.toNat)
  | .vcmp _ cc ty _ _ _ =>
    match cc, ty with
    | .un, .f => true
    | .or, .f => true
    | .un, _ => false
    | .or, _ => false
    | _, _ => true
  | .plog _ fn _ pa pb =>
    match fn with
    | .not => decide (pb = 0)
    | .mov => decide (pb = 0)
    | .all => decide (pa = 0) && decide (pb = 0)
    | .none => decide (pa = 0) && decide (pb = 0)
    | _ => true
  | .vdrain _ d _ _ => decide (d.val < 22)
  | .listSkipif _ _ _ n _ => decide (0 < n.toNat) && decide (n.toNat < 256)
  | .listJump _ _ _ t => decide (t.toNat % 256 = 0)
  | .listCall _ _ _ t => decide (t.toNat % 256 = 0)
  | .launch _ _ _ _ f => decide (f.bufs.length = 16)
  | .hostMemAccess wr _ n data => !wr || decide (data.length = n)
  | .dataFlit _ f => decide (f.length = 256)
  | .idleFlit _ f => decide (f.length = 256)
  | .retryRequest _ f => decide (f.length = 256)
  | .debugInterfaceWrite _ (.s r) _ => steerOk r
  | .slotLoad img => decide (img.epi.length = 8) && img.epi.all (fun e => decide (e.length = 16))
      && decide (img.code.length % 4 = 0) && decide (img.loftBase.toNat % 4096 = 0)
  | .attestationReport _ nonce => decide (nonce.length = 32)
  | _ => true

end Sys2Proof
end

