-- ==== Sys2Proof/Decode.lean ====
section
/-! DEFINITION. Decoding of instruction words (R52 to R68): total on any word, rejecting with the
REASON code of R56, the lowest when a word fails several checks (R56). After it the encoder,
from the same tables. A word is a natural number below 2^32; field [hi:lo] is `fld w lo n`. -/

namespace Sys2Proof

/-- Field of n bits whose lowest bit is lo (R10). -/
def fld (w lo n : Nat) : Nat := w / 2 ^ lo % 2 ^ n

/-- A register number field. -/
def fin32 (w lo : Nat) : Fin 32 := ⟨w / 2 ^ lo % 32, Nat.mod_lt _ (by decide)⟩
/-- A four-bit number field. -/
def fin16 (w lo : Nat) : Fin 16 := ⟨w / 2 ^ lo % 16, Nat.mod_lt _ (by decide)⟩
/-- A three-bit number field. -/
def fin8 (w lo : Nat) : Fin 8 := ⟨w / 2 ^ lo % 8, Nat.mod_lt _ (by decide)⟩
/-- A two-bit number field. -/
def fin4 (w lo : Nat) : Fin 4 := ⟨w / 2 ^ lo % 4, Nat.mod_lt _ (by decide)⟩
/-- A one-bit number field. -/
def fin2 (w lo : Nat) : Fin 2 := ⟨w / 2 ^ lo % 2, Nat.mod_lt _ (by decide)⟩
/-- A six-bit number field. -/
def fin64 (w lo : Nat) : Fin 64 := ⟨w / 2 ^ lo % 64, Nat.mod_lt _ (by decide)⟩
/-- A one-bit flag field. -/
def bit (w lo : Nat) : Bool := w / 2 ^ lo % 2 == 1
/-- An immediate field of n bits. -/
def immf (w lo n : Nat) : BitVec n := BitVec.ofNat n (w / 2 ^ lo)

/-- The lowest failing REASON of a list of (REASON, failed) checks (R56). -/
def lowest : List (Nat × Bool) → Option Nat
  | [] => none
  | (r, f) :: t =>
    match f, lowest t with
    | true, some r' => some (min r r')
    | true, none => some r
    | false, x => x

/-- Accept an instruction unless a check fails. -/
def accept (checks : List (Nat × Bool)) (i : Instr) : Except Nat Instr :=
  match lowest checks with
  | some r => .error r
  | none => .ok i

/-- A steer field of 12 to 15 (R58). -/
def badS (w lo : Nat) : Nat × Bool := (0x09, decide (12 ≤ w / 2 ^ lo % 16))
/-- A field marked 0 that is not 0 (R55). -/
def nz (w lo n : Nat) : Nat × Bool := (0x04, decide (w / 2 ^ lo % 2 ^ n ≠ 0))

/-- The token bits (R54). -/
def tokOf (w : Nat) : Tok := ⟨bit w 28, bit w 27, bit w 26, bit w 25⟩

/-- Functions of the ALU group (R59). -/
def decodeAlu (w : Nat) : Except Nat Instr :=
  let d := fin32 w 18; let a := fin32 w 13; let b := fin32 w 8
  match fld w 0 8 with
  | 0 => .ok (.add d a b)
  | 1 => .ok (.sub d a b)
  | 2 => .ok (.and d a b)
  | 3 => .ok (.or d a b)
  | 4 => .ok (.xor d a b)
  | 5 => .ok (.andn d a b)
  | 6 => .ok (.sll d a b)
  | 7 => .ok (.srl d a b)
  | 8 => .ok (.sra d a b)
  | 9 => .ok (.rotl d a b)
  | 10 => .ok (.mul d a b)
  | 11 => .ok (.mulh d a b)
  | 12 => .ok (.mulhu d a b)
  | 13 => .ok (.div d a b)
  | 14 => .ok (.divu d a b)
  | 15 => .ok (.rem d a b)
  | 16 => .ok (.remu d a b)
  | 17 => .ok (.min d a b)
  | 18 => .ok (.max d a b)
  | 19 => .ok (.minu d a b)
  | 20 => .ok (.maxu d a b)
  | 21 => accept [nz w 8 5] (.clz d a)
  | 22 => accept [nz w 8 5] (.ctz d a)
  | 23 => accept [nz w 8 5] (.popc d a)
  | _ => .error 0x02

/-- The compare group (R59). -/
def decodeCmp (w : Nat) : Except Nat Instr :=
  let s := fin16 w 19; let a := fin32 w 13; let b := fin32 w 8
  let c := [nz w 18 1, badS w 19]
  match fld w 0 8 with
  | 0 => accept c (.ceq s a b)
  | 1 => accept c (.cne s a b)
  | 2 => accept c (.clt s a b)
  | 3 => accept c (.cge s a b)
  | 4 => accept c (.cltu s a b)
  | 5 => accept c (.cgeu s a b)
  | 6 => accept c (.cbs s a b)
  | 7 => accept c (.cbc s a b)
  | _ => .error 0x02

/-- Steer logic (R58, R59). An unused steer field must be 0. -/
def decodeSteer (w : Nat) : Except Nat Instr :=
  let d := fin16 w 19; let a := fin16 w 15; let b := fin16 w 11
  let c3 := [nz w 0 8, badS w 19, badS w 15, badS w 11]
  let c2 := [nz w 0 8, nz w 11 4, badS w 19, badS w 15]
  let c1 := [nz w 0 8, nz w 11 4, nz w 15 4, badS w 19]
  match fld w 8 3 with
  | 0 => accept c3 (.sand d a b)
  | 1 => accept c3 (.sor d a b)
  | 2 => accept c3 (.sxor d a b)
  | 3 => accept c2 (.snot d a)
  | 4 => accept c2 (.smov d a)
  | 5 => accept c1 (.sset d)
  | 6 => accept c1 (.sclr d)
  | _ => .error 0x02

/-- Branches (R40, R59). -/
def decodeBranch (w : Nat) : Except Nat Instr :=
  let s := fin16 w 19
  let c := [nz w 0 15, badS w 19]
  let k (n : NullMode) : Except Nat Instr :=
    match fld w 17 2 with
    | 0 => accept c (.bt s n)
    | 1 => accept c (.bf s n)
    | 2 => accept c (.ba s n)
    | _ => accept c (.bl s n)
  match fld w 15 2 with
  | 0 => k .none
  | 1 => k .nt
  | 2 => k .tk
  | _ => .error 0x02

/-- Function codes of the atomics (R59). -/
def atomFnOf : Nat → Option AtomFn
  | 0 => some .add | 1 => some .swap | 2 => some .cas | 3 => some .and | 4 => some .or
  | 5 => some .xor | 6 => some .min | 7 => some .max | 8 => some .minu | 9 => some .maxu
  | _ => none
/-- ord codes (R86). -/
def ordOf : Nat → AtomOrd
  | 0 => .rlx | 1 => .acq | 2 => .rel | _ => .ar
/-- scope codes (R51). -/
def scopeOf : Nat → Scope
  | 0 => .core | 1 => .die | 2 => .dev | _ => .sys

/-- Atomics (R59, R84): w picks the width. -/
def decodeAtomic (wide : Bool) (w : Nat) : Except Nat Instr :=
  match atomFnOf (fld w 4 4) with
  | none => .error 0x02
  | some f =>
    let d := fin32 w 18; let a := fin32 w 13; let b := fin32 w 8
    let o := ordOf (fld w 2 2); let sc := scopeOf (fld w 0 2)
    .ok (if wide then .amod d a b f o sc else .amow d a b f o sc)

/-- FENCE (R51). -/
def decodeFence (w : Nat) : Except Nat Instr :=
  let sc := scopeOf (fld w 18 2); let m := immf w 0 16
  let c := [nz w 20 3]
  match fld w 16 2 with
  | 0 => accept c (.fence sc .acq m)
  | 1 => accept c (.fence sc .rel m)
  | 2 => accept c (.fence sc .full m)
  | _ => .error 0x02

/-- Queue codes of QPOP and QCNT (R91). -/
def popQOf : Nat → Option PopQ
  | 0 => some .rq0 | 1 => some .rq1 | 2 => some .cq | 3 => some .wsq | 4 => some .mbox
  | _ => none

/-- Queue words (R59); an unassigned queue number is an operand value outside its limits. -/
def decodePop (cnt : Bool) (w : Nat) : Except Nat Instr :=
  match popQOf (fld w 0 4) with
  | none => .error 0x03
  | some q =>
    let d := fin32 w 18
    accept [nz w 13 5, nz w 4 9] (if cnt then .qcnt d q else .qpop d q)

/-- QPUSH (R59). -/
def decodePush (w : Nat) : Except Nat Instr :=
  let c := [nz w 18 5, nz w 4 9]
  match fld w 0 4 with
  | 0 => accept c (.qpush (fin32 w 13) .xq)
  | 1 => accept c (.qpush (fin32 w 13) .mbox)
  | _ => match lowest ((0x03, true) :: c) with
    | some r => .error r
    | none => .error 0x03

/-- The event words (R58): R selects the operand form. -/
def decodeEvent (sig : Bool) (w : Nat) : Except Nat Instr :=
  let mk (e : EvOp) : Instr := if sig then .sigev e else .waitev e
  if bit w 16 then accept [nz w 17 1, nz w 0 16] (mk (.reg (fin32 w 18)))
  else accept [nz w 17 1, nz w 18 5] (mk (.imm (immf w 0 16)))

/-- The jig group (R59). -/
def decodeJig (w : Nat) : Except Nat Instr :=
  let d := fin32 w 15; let a := fin32 w 10; let b := fin32 w 5; let j := fin4 w 0
  let z := nz w 2 3
  match fld w 20 3 with
  | 0 => accept [z, nz w 5 15] (.jigRec j)
  | 1 => accept [z, nz w 5 10, nz w 0 2] (.jigEnd d)
  | 2 => accept [z, nz w 5 10] (.jigPlay d j)
  | 3 => accept [z, nz w 15 5, nz w 0 2] (.jigStop a b)
  | 4 => accept [z, nz w 5 15] (.jigDrop j)
  | _ => .error 0x02

/-- The priority-queue group (R59). -/
def decodePq (w : Nat) : Except Nat Instr :=
  let d := fin32 w 15; let a := fin32 w 10; let b := fin32 w 5
  let z := nz w 0 5
  match fld w 20 3 with
  | 0 => accept [z, nz w 15 5] (.pqpush a b)
  | 1 => accept [z, nz w 10 5] (.pqpop d b)
  | 2 => accept [z, nz w 10 5] (.pqtop d b)
  | 3 => accept [z, nz w 5 15] .pqclr
  | 4 => accept [z, nz w 5 10] (.pqcnt d)
  | _ => .error 0x02

/-- The control opcode map (R59). -/
def decodeControl (w : Nat) : Except Nat Instr :=
  let d := fin32 w 18; let a := fin32 w 13
  let s := fin16 w 19; let a14 := fin32 w 14
  match fld w 23 6 with
  | 0x00 => decodeAlu w
  | 0x01 => .ok (.addi d a (immf w 0 13))
  | 0x02 => .ok (.andi d a (immf w 0 13))
  | 0x03 => .ok (.ori d a (immf w 0 13))
  | 0x04 => .ok (.xori d a (immf w 0 13))
  | 0x05 => accept [nz w 6 7] (.slli d a (fin64 w 0))
  | 0x06 => accept [nz w 6 7] (.srli d a (fin64 w 0))
  | 0x07 => accept [nz w 6 7] (.srai d a (fin64 w 0))
  | 0x08 => .ok (.lui d (immf w 0 18))
  | 0x09 => .ok (.adrp d (immf w 0 18))
  | 0x0A => decodeCmp w
  | 0x0B => accept [badS w 19] (.ceqi s a14 (immf w 0 14))
  | 0x0C => accept [badS w 19] (.cnei s a14 (immf w 0 14))
  | 0x0D => accept [badS w 19] (.clti s a14 (immf w 0 14))
  | 0x0E => accept [badS w 19] (.cgei s a14 (immf w 0 14))
  | 0x0F => accept [badS w 19] (.cltui s a14 (immf w 0 14))
  | 0x10 => decodeSteer w
  | 0x11 => accept [badS w 19] (.prep s (immf w 0 19))
  | 0x12 => accept [nz w 18 1, nz w 0 13, badS w 19] (.prepr s a)
  | 0x13 => decodeBranch w
  | 0x14 => .ok (.ldb d a (fin16 w 9) (immf w 0 9))
  | 0x15 => .ok (.ldbu d a (fin16 w 9) (immf w 0 9))
  | 0x16 => .ok (.ldh d a (fin16 w 9) (immf w 0 9))
  | 0x17 => .ok (.ldhu d a (fin16 w 9) (immf w 0 9))
  | 0x18 => .ok (.ldw d a (fin16 w 9) (immf w 0 9))
  | 0x19 => .ok (.ldwu d a (fin16 w 9) (immf w 0 9))
  | 0x1a => .ok (.ldd d a (fin16 w 9) (immf w 0 9))
  | 0x1b => .ok (.stb d a (fin16 w 9) (immf w 0 9))
  | 0x1c => .ok (.sth d a (fin16 w 9) (immf w 0 9))
  | 0x1d => .ok (.stw d a (fin16 w 9) (immf w 0 9))
  | 0x1e => .ok (.std d a (fin16 w 9) (immf w 0 9))
  | 0x1F => .ok (.ldl d (immf w 0 18))
  | 0x20 => accept [nz w 18 5] (.lpool (immf w 0 18))
  | 0x21 => decodeAtomic false w
  | 0x22 => decodeAtomic true w
  | 0x23 => decodeFence w
  | 0x24 => accept [nz w 12 6] (.mfs d (immf w 0 12))
  | 0x25 => accept [nz w 18 5, nz w 12 1] (.mts a (immf w 0 12))
  | 0x26 => .ok (.mtsi (immf w 11 12) (immf w 0 11))
  | 0x27 => decodePush w
  | 0x28 => decodePop false w
  | 0x29 => decodePop true w
  | 0x2A => accept [nz w 16 7, nz w 4 12] (.bar (fin16 w 0))
  | 0x2B => accept [nz w 16 7] (.plumb (immf w 0 16))
  | 0x2C => accept [nz w 18 5, nz w 0 13] (.twait a)
  | 0x2D => decodeEvent true w
  | 0x2E => decodeEvent false w
  | 0x2F => accept [nz w 16 7, nz w 3 13] (.phsw (fin8 w 0))
  | 0x30 => decodeJig w
  | 0x31 => accept [nz w 18 1, nz w 12 1] (.mtsr s a (immf w 0 12))
  | 0x32 => decodePq w
  | 0x33 => accept [nz w 13 10, (0x03, decide (fld w 1 12 = 0 ∨ 64 < fld w 1 12))]
      (.ngo (fin2 w 0) (immf w 1 12))
  | 0x34 => accept [nz w 1 18, badS w 19] (.nbrk s (fin2 w 0))
  | 0x35 => accept [nz w 16 7, nz w 5 11] (.waitq (immf w 0 5))
  | 0x36 => accept [nz w 16 7] (.trap (immf w 0 16))
  | 0x37 => accept [nz w 0 23] .rft
  | 0x38 => accept [nz w 0 23] .retire
  | 0x39 => .ok (.nop (immf w 0 23))
  | 0x3A => accept [nz w 0 23] .brk
  | _ => .error 0x01

/-- The destination code of LDX, LGATH and LLAND (R60). -/
def ldestOf (w : Nat) : LDest :=
  if fld w 14 5 < 16 then .tile (fin16 w 14) else .vq (fin4 w 14)
/-- Its limit (R60). -/
def badDest (w : Nat) : Nat × Bool := (0x03, decide (20 ≤ fld w 14 5))

/-- Load-engine words (R60). -/
def decodeLoad (w : Nat) : Except Nat Instr :=
  let t := tokOf w
  match fld w 19 6 with
  | 0 => accept [nz w 0 9] (.ldt t (fin16 w 15) (fin16 w 11) (bit w 10) (bit w 9))
  | 1 => accept [nz w 15 2, nz w 0 11] (.ldq t (fin4 w 17) (fin16 w 11))
  | 2 => accept [nz w 15 3, nz w 0 11] (.ldsc t (bit w 18) (fin16 w 11))
  | 3 => accept [badDest w, (0x03, decide (fld w 0 9 = 0 ∨ 64 < fld w 0 9))]
      (.ldx t (ldestOf w) (fin16 w 10) (fin2 w 9) (immf w 0 9))
  | 4 => accept [badDest w, nz w 0 8] (.lgath t (ldestOf w) (fin16 w 10) (fin4 w 8))
  | 5 => accept [badDest w, nz w 10 4, nz w 0 4] (.lland t (ldestOf w) (fin64 w 4))
  | 6 => accept [nz w 15 4, nz w 3 8, (0x03, decide (6 ≤ fld w 0 3))]
      (.ladv t (fin16 w 11) (fin8 w 0))
  | 7 => accept [nz w 0 19] (.lnop t)
  | _ => .error 0x01

/-- The continuation of MMA and MRUN (R61). -/
def mmaContOf (c : Nat) : MmaCont := ⟨immf c 21 8, immf c 12 9, bit c 11⟩
/-- Its limits (R61). -/
def mmaContChecks (c : Nat) : List (Nat × Bool) :=
  [nz c 0 11, (0x03, decide (8 ≤ fld c 21 8)), (0x03, decide (fld c 12 9 = 0 ∨ 32 < fld c 12 9))]
/-- The B source (R61). -/
def bsrcOf (w : Nat) : BSrc := if fld w 8 5 < 16 then .tile (fin16 w 8) else .wsf
/-- The B scale (R61). -/
def bscaleOf (w : Nat) : BScale :=
  match fld w 4 2 with
  | 0 => .none
  | 1 => .bf
  | _ => .scf
/-- The operand fields of MMA (R61). -/
def mmaOpsOf (w : Nat) : MmaOps :=
  ⟨fin4 w 17, fin16 w 13, bsrcOf w, bit w 6, bscaleOf w, bit w 3, bit w 2⟩
/-- The limits of MMA's first word and of its combinations (R61). -/
def mmaChecks (w c : Nat) : List (Nat × Bool) :=
  [nz w 0 2, (0x03, decide (17 ≤ fld w 8 5)), (0x03, decide (2 ≤ fld w 6 2)),
   (0x03, decide (fld w 4 2 = 3)),
   (0x03, decide (fld w 8 5 = 16 ∧ fld w 4 2 = 1)),
   (0x03, decide (fld w 8 5 < 16 ∧ fld w 4 2 = 2)),
   (0x03, decide (fld w 8 5 = 16 ∧ fld c 11 1 = 1))]

/-- The destination of MDRAIN (R62). -/
def drainDestOf (w : Nat) : DrainDest :=
  match fld w 12 5 with
  | 28 => .wq
  | 31 => .heap
  | _ => .vq (fin4 w 12)

/-- Matrix-engine words (R61, R62); c is the continuation. -/
def decodeMatrix (w c : Nat) : Except Nat Instr :=
  let t := tokOf w
  match fld w 19 6 with
  | 0 => accept (mmaChecks w c ++ mmaContChecks c) (.mma t (mmaOpsOf w) (mmaContOf c))
  | 1 => accept (nz w 0 18 :: mmaContChecks c) (.mrun t (fin2 w 18) (mmaContOf c))
  | 2 => accept [nz w 0 8, (0x03, decide (fld w 12 5 < 24 ∨ fld w 12 5 = 29 ∨ fld w 12 5 = 30))]
      (.mdrain t (fin4 w 17) (drainDestOf w) (fin8 w 9) (bit w 8))
  | 3 => accept [nz w 0 17] (.azero t (fin4 w 17))
  | 4 => accept [nz w 0 9] (.aread t (fin4 w 17) (fin64 w 11) (fin4 w 9))
  | 5 =>
    let k (m : PatchMode) := accept [nz w 0 9] (.apatch t (fin4 w 17) (fin64 w 11) m)
    match fld w 9 2 with
    | 0 => k .set
    | 1 => k .add
    | 2 => k .mset
    | _ => .error 0x02
  | 6 => accept [nz w 15 1, nz w 0 11] (.epset t (fin8 w 16) (fin16 w 11))
  | 7 => accept [nz w 15 1, nz w 0 11] (.epcon t (fin8 w 16) (fin16 w 11))
  | 8 => accept [nz w 0 16] (.heaprd t (fin4 w 17) (bit w 16))
  | 9 => accept [nz w 0 13] (.heapclr t (fin64 w 13))
  | 10 => accept [nz w 0 17] (.mchk t (fin4 w 17))
  | 11 => accept [nz w 0 19] (.mnop t)
  | _ => .error 0x01

/-- A vector source code (R65). -/
def vsrcOf (w lo : Nat) : VSrc :=
  let c := fld w lo 5
  if h : c < 24 then .v ⟨c, h⟩
  else if c < 28 then .vq (fin4 w lo)
  else if c = 30 then .lane else .vz
/-- Codes 28 and 29 are no sources (R65). -/
def badSrc (w lo : Nat) : Nat × Bool := (0x08, decide (fld w lo 5 = 28 ∨ fld w lo 5 = 29))
/-- A vector destination code (R65). -/
def vdstOf (w : Nat) : VDst :=
  let c := fld w 14 5
  if h : c < 24 then .v ⟨c, h⟩
  else if c = 28 then .wq else if c = 29 then .mq else .discard
/-- Codes 24 to 27 and 30 are no destinations (R65). -/
def badDst (w : Nat) : Nat × Bool :=
  (0x08, decide ((24 ≤ fld w 14 5 ∧ fld w 14 5 < 28) ∨ fld w 14 5 = 30))
/-- An unused operand field must hold 31 (R65). -/
def un31 (w lo : Nat) : Nat × Bool := (0x04, decide (fld w lo 5 ≠ 31))

/-- Three operands and a predicate. -/
def vr3 (w : Nat) (f : Tok → VDst → VSrc → VSrc → Fin 16 → Instr) : Except Nat Instr :=
  accept [badDst w, badSrc w 9, badSrc w 4] (f (tokOf w) (vdstOf w) (vsrcOf w 9) (vsrcOf w 4) (fin16 w 0))
/-- Destination, one source and a predicate. -/
def vr2 (w : Nat) (f : Tok → VDst → VSrc → Fin 16 → Instr) : Except Nat Instr :=
  accept [badDst w, badSrc w 9, un31 w 4] (f (tokOf w) (vdstOf w) (vsrcOf w 9) (fin16 w 0))
/-- Destination and a predicate. -/
def vr1 (w : Nat) (f : Tok → VDst → Fin 16 → Instr) : Except Nat Instr :=
  accept [badDst w, un31 w 9, un31 w 4] (f (tokOf w) (vdstOf w) (fin16 w 0))
/-- A maximum or minimum reduction: b selects .NN. -/
def vrN (w : Nat) (f : Tok → VDst → VSrc → Bool → Fin 16 → Instr) : Except Nat Instr :=
  accept [badDst w, badSrc w 9, (0x03, decide (2 ≤ fld w 4 5))]
    (f (tokOf w) (vdstOf w) (vsrcOf w 9) (bit w 4) (fin16 w 0))

/-- Pack widths (R66). -/
def packWOf : Nat → Option PackW
  | 1 => some .w16 | 2 => some .w8 | 3 => some .w4 | _ => none
/-- Quantisation formats (R66). -/
def qfmtOf : Nat → Option QFmt
  | 1 => some .e4 | 2 => some .e5 | 3 => some .q4x | _ => none
/-- Rounding codes (R131). -/
def rndOf : Nat → Option Rnd
  | 0 => some .rne | 1 => some .rtz | 2 => some .rdn | 3 => some .rup | 4 => some .rna
  | 5 => some .sr | _ => none
/-- Conversion codes (R134). -/
def convOf : Nat → Option Conv
  | 0 => some .f2i | 1 => some .i2f | 2 => some .u2f | 3 => some .f2b | 4 => some .b2f
  | 5 => some .f2h | 6 => some .h2f | 7 => some .f2e4 | 8 => some .e42f | 9 => some .f2e5
  | 10 => some .e52f | 11 => some .frac | _ => none
/-- Condition codes (R66). -/
def vccOf : Nat → VCc
  | 0 => .eq | 1 => .ne | 2 => .lt | 3 => .le | 4 => .gt | 5 => .ge | 6 => .un | _ => .or
/-- PLOG functions (R66). -/
def pfnOf : Nat → PFn
  | 0 => .and | 1 => .or | 2 => .xor | 3 => .andn | 4 => .not | 5 => .mov | 6 => .all | _ => .none

/-- VCMP (R66). -/
def decodeVcmp (w : Nat) : Except Nat Instr :=
  let cc := vccOf (fld w 16 3)
  let k (ty : VTy) : Except Nat Instr :=
    accept [badSrc w 7, badSrc w 2, (0x02, decide (ty ≠ .f ∧ 6 ≤ fld w 16 3))]
      (.vcmp (tokOf w) cc ty (fin16 w 12) (vsrcOf w 7) (vsrcOf w 2))
  match fld w 0 2 with
  | 0 => k .f
  | 1 => k .i
  | 2 => k .u
  | _ => .error 0x02

/-- PLOG (R66). -/
def decodePlog (w : Nat) : Except Nat Instr :=
  let fn := pfnOf (fld w 4 3)
  accept [nz w 0 4, (0x04, decide (4 ≤ fld w 4 3 ∧ fld w 7 4 ≠ 0)),
      (0x04, decide (6 ≤ fld w 4 3 ∧ fld w 11 4 ≠ 0))]
    (.plog (tokOf w) fn (fin16 w 15) (fin16 w 11) (fin16 w 7))

/-- VCVT (R66). -/
def decodeVcvt (w : Nat) : Except Nat Instr :=
  match convOf (fld w 5 4), rndOf (fld w 2 3) with
  | some cv, some r => accept [nz w 0 1, badDst w, badSrc w 9]
      (.vcvt (tokOf w) (vdstOf w) (vsrcOf w 9) cv r (bit w 1))
  | _, _ => .error 0x02

/-- VPACK and VUNPK (R66). -/
def decodePack (w : Nat) (f : Tok → VDst → VSrc → VSrc → PackW → Instr) : Except Nat Instr :=
  match packWOf (fld w 0 4) with
  | some k => accept [badDst w, badSrc w 9, badSrc w 4]
      (f (tokOf w) (vdstOf w) (vsrcOf w 9) (vsrcOf w 4) k)
  | none => .error 0x02

/-- VQUANT and VDEQ (R66). -/
def decodeQuant (w : Nat) (f : Tok → VDst → VSrc → QFmt → Instr) : Except Nat Instr :=
  match qfmtOf (fld w 0 4) with
  | some k => accept [badDst w, badSrc w 9, un31 w 4] (f (tokOf w) (vdstOf w) (vsrcOf w 9) k)
  | none => .error 0x02

/-- Vector-engine words (R64 to R66). -/
def decodeVector (w : Nat) : Except Nat Instr :=
  let t := tokOf w
  match fld w 19 6 with
  | 0x0 => vr3 w .vadd
  | 0x1 => vr3 w .vsub
  | 0x2 => vr3 w .vmul
  | 0x3 => vr3 w .vfma
  | 0x4 => vr3 w .vmin
  | 0x5 => vr3 w .vmax
  | 0x6 => vr2 w .vabs
  | 0x7 => vr2 w .vneg
  | 0x8 => vr2 w .vrcp
  | 0x9 => vr2 w .vrsq
  | 0xa => vr2 w .vexp2
  | 0xb => vr2 w .vlog2
  | 0xc => vr3 w .viadd
  | 0xd => vr3 w .visub
  | 0xe => vr3 w .vimul
  | 0xf => vr3 w .vimin
  | 0x10 => vr3 w .vimax
  | 0x11 => vr3 w .viminu
  | 0x12 => vr3 w .vimaxu
  | 0x13 => vr3 w .vand
  | 0x14 => vr3 w .vor
  | 0x15 => vr3 w .vxor
  | 0x16 => vr3 w .vshl
  | 0x17 => vr3 w .vshr
  | 0x18 => vr3 w .vsra
  | 0x19 => decodeVcmp w
  | 0x1a => vr3 w .vsel
  | 0x1b => decodePlog w
  | 0x1c => decodeVcvt w
  | 0x1d => decodePack w .vpack
  | 0x1e => decodePack w .vunpk
  | 0x1f => decodeQuant w .vquant
  | 0x20 => decodeQuant w .vdeq
  | 0x21 => vr2 w .vrsum
  | 0x22 => vrN w .vrmax
  | 0x23 => vrN w .vrmin
  | 0x24 => vr3 w .vperm
  | 0x25 => accept [badDst w, badSrc w 9, nz w 0 3] (.vbcst t (vdstOf w) (vsrcOf w 9) (fin64 w 3))
  | 0x26 => vr2 w .vmov
  | 0x27 => accept [badDst w] (.vsplt t (vdstOf w) (immf w 0 14))
  | 0x28 => accept [badDst w] (.vsplf t (vdstOf w) (immf w 0 14))
  | 0x29 => vr1 w .vsplx
  | 0x2a => vr1 w .vrand
  | 0x2b => accept [un31 w 14, badSrc w 9, un31 w 4, nz w 0 4] (.vrset t (vsrcOf w 9))
  | 0x2c => accept [un31 w 14, badSrc w 9, un31 w 4, nz w 0 4] (.vrskip t (vsrcOf w 9))
  | 0x2d => accept [badDst w, un31 w 9, un31 w 4, nz w 0 4] (.vrget t (vdstOf w))
  | 0x2e => accept [un31 w 14, badSrc w 9, badSrc w 4] (.vdefer t (vsrcOf w 9) (vsrcOf w 4) (fin16 w 0))
  | 0x2f => accept [un31 w 9, (0x03, decide (22 ≤ fld w 14 5)), (0x03, decide (2 ≤ fld w 4 5))]
      (.vdrain t (fin32 w 14) (bit w 4) (fin16 w 0))
  | 0x30 => accept [badDst w, un31 w 9, un31 w 4, nz w 0 4] (.vdqn t (vdstOf w))
  | 0x31 => accept [un31 w 14, un31 w 9, un31 w 4, nz w 0 4] (.vloop t)
  | 0x32 => accept [badSrc w 14, nz w 10 4, nz w 0 3] (.vrply t (vsrcOf w 14) (fin2 w 9) (fin64 w 3))
  | 0x33 => accept [badDst w, un31 w 9, (0x03, decide (2 ≤ fld w 4 5)), nz w 0 4]
      (.vflag t (vdstOf w) (bit w 4))
  | 0x34 => accept [un31 w 14, un31 w 9, un31 w 4, nz w 0 4] (.vnop t)
  | _ => .error 0x01

/-- Reduce codes (R67). -/
def reduceOf : Nat → Option Reduce
  | 0 => some .none | 1 => some .addf | 2 => some .addb | 3 => some .addi | 4 => some .maxf
  | _ => none
/-- ATOMV functions (R67). -/
def atomvOf : Nat → Option AtomV
  | 0 => some .addf | 1 => some .addi | 2 => some .maxf | 3 => some .minf | 4 => some .addfs
  | _ => none

/-- Copy-engine words (R67); c is the continuation. -/
def decodeCopy (w c : Nat) : Except Nat Instr :=
  let t := tokOf w
  match fld w 19 6 with
  | 0 => accept [nz w 0 11] (.copy t (fin16 w 15) (fin16 w 11))
  | 1 => accept [nz w 0 15] (.sqst t (fin16 w 15))
  | 2 => accept [nz w 15 4, nz w 0 10]
      (.xsend t (fin16 w 11) (bit w 10) (fin64 c 23) (immf c 0 23))
  | 3 => accept [nz w 15 4, nz w 0 11] (.rsend t (fin16 w 11) (immf c 16 13) (immf c 0 16))
  | 4 =>
    match reduceOf (fld w 8 3) with
    | some r => accept [nz w 11 4, nz w 0 8] (.rrecv t (fin16 w 15) r (immf c 16 13) (immf c 0 16))
    | none => .error 0x02
  | 5 => accept [nz w 0 19] (.rfence t)
  | 6 =>
    match atomvOf (fld w 5 4) with
    | some f => accept [nz w 11 4, nz w 0 4] (.atomv t (fin16 w 15) (fin4 w 9) f (bit w 4))
    | none => .error 0x02
  | 7 => accept [nz w 0 19] (.snop t)
  | _ => .error 0x01

/-- Stream-engine words (R68): token bits must be 0. -/
def decodeStream (w : Nat) : Except Nat Instr :=
  let tk : Nat × Bool := (0x0A, decide (fld w 25 4 ≠ 0))
  match fld w 19 6 with
  | 0 => accept [nz w 15 4, nz w 0 11, tk] (.sdopen (fin16 w 11))
  | 1 => accept [nz w 12 7, (0x03, decide (fld w 0 12 = 0)), tk] (.sdrun (immf w 0 12))
  | 2 => accept [nz w 0 19, tk] .sdclose
  | 3 => accept [nz w 0 19, tk] .sdstat
  | _ => .error 0x01

/-- The first word of a long form (R53). -/
def isLong (w : Nat) : Bool :=
  (fld w 29 3 == 2 && decide (fld w 19 6 < 2)) ||
  (fld w 29 3 == 4 && decide (2 ≤ fld w 19 6) && decide (fld w 19 6 < 5))

/-- A continuation word (R52). -/
def isCont (w : Nat) : Bool := fld w 29 3 == 7

/-- Decode a word; c is the word after it. The splitter's checks come first (R45, R53, R56). -/
def decode (w : Nat) (c : Option Nat) : Except Nat Instr :=
  if isLong w then
    match c with
    | some c =>
      if isCont c then
        (if fld w 29 3 = 2 then decodeMatrix w c else decodeCopy w c)
      else .error 0x07
    | none => .error 0x07
  else
    match fld w 29 3 with
    | 0 => decodeControl w
    | 1 => decodeLoad w
    | 2 => decodeMatrix w 0
    | 3 => decodeVector w
    | 4 => decodeCopy w 0
    | 5 => decodeStream w
    | 6 => .error 0x06
    | _ => .error 0x05

/-- A little-endian word from four bytes (R10). -/
def word32 (b0 b1 b2 b3 : Byte) : Nat :=
  b0.toNat + 256 * b1.toNat + 65536 * b2.toNat + 16777216 * b3.toNat

/-- Decode a list of bytes: the instruction and the rest of the list; fewer than four bytes hold no
word and answer none. -/
def decodeBytes : List Byte → Option (Except Nat Instr × List Byte)
  | b0 :: b1 :: b2 :: b3 :: rest =>
    let w := word32 b0 b1 b2 b3
    if isLong w then
      match rest with
      | c0 :: c1 :: c2 :: c3 :: rest' => some (decode w (some (word32 c0 c1 c2 c3)), rest')
      | _ => some (decode w none, rest)
    else some (decode w none, rest)
  | _ => none

/-- The four bytes of a word in memory order (R10, R52). -/
def bytes32 (w : Nat) : List Byte :=
  [BitVec.ofNat 8 w, BitVec.ofNat 8 (w / 256), BitVec.ofNat 8 (w / 65536), BitVec.ofNat 8 (w / 16777216)]

/-- The instruction read from a word numbered as the table numbers it: bit 0 is the lowest bit of
the first word. Bits above nbits are 0. -/
def decodeTableWord (nbits w : Nat) : Option Instr :=
  let v := w % 2 ^ nbits
  match decodeBytes (bytes32 v ++ bytes32 (v / 4294967296)) with
  | some (.ok i, _) => some i
  | _ => none

/-! The encoder, from the same tables. -/

/-- A Boolean as a bit. -/
def b2n (b : Bool) : Nat := if b then 1 else 0
/-- Token bits in place, with the engine field and the opcode (R52, R54). -/
def eword (e op : Nat) (t : Tok) : Nat :=
  e * 536870912 + b2n t.wl * 268435456 + b2n t.wr * 134217728 + b2n t.gl * 67108864
    + b2n t.gr * 33554432 + op * 524288
/-- CR layout (R57). -/
def encR (fn : Nat) (d a b : Fin 32) : Nat := d.val * 262144 + a.val * 8192 + b.val * 256 + fn
/-- CI layout (R57). -/
def encI (op : Nat) (d a : Fin 32) (imm : Nat) : Nat := op * 8388608 + d.val * 262144 + a.val * 8192 + imm
/-- CU layout (R57). -/
def encU (op : Nat) (d : Fin 32) (imm : BitVec 18) : Nat := op * 8388608 + d.val * 262144 + imm.toNat
/-- CS layout (R57). -/
def encC (fn : Nat) (s : Fin 16) (a b : Fin 32) : Nat :=
  0x0A * 8388608 + s.val * 524288 + a.val * 8192 + b.val * 256 + fn
/-- CSI layout (R57). -/
def encCI (op : Nat) (s : Fin 16) (a : Fin 32) (imm : BitVec 14) : Nat :=
  op * 8388608 + s.val * 524288 + a.val * 16384 + imm.toNat
/-- CL layout (R57). -/
def encL (fn : Nat) (d a b : Nat) : Nat :=
  0x10 * 8388608 + d * 524288 + a * 32768 + b * 2048 + fn * 256
/-- CB layout (R57). -/
def encB (kind : Nat) (s : Fin 16) (n : NullMode) : Nat :=
  0x13 * 8388608 + s.val * 524288 + kind * 131072
    + (match n with | .none => 0 | .nt => 1 | .tk => 2) * 32768
/-- CM layout (R57). -/
def encM (op : Nat) (d a : Fin 32) (c : Fin 16) (imm : BitVec 9) : Nat :=
  op * 8388608 + d.val * 262144 + a.val * 8192 + c.val * 512 + imm.toNat
/-- Atomic function codes (R59). -/
def atomFnNum : AtomFn → Nat
  | .add => 0 | .swap => 1 | .cas => 2 | .and => 3 | .or => 4 | .xor => 5 | .min => 6 | .max => 7
  | .minu => 8 | .maxu => 9
/-- ord codes (R86). -/
def ordNum : AtomOrd → Nat
  | .rlx => 0 | .acq => 1 | .rel => 2 | .ar => 3
/-- scope codes (R51). -/
def scopeNum : Scope → Nat
  | .core => 0 | .die => 1 | .dev => 2 | .sys => 3
/-- CA layout (R57). -/
def encA (op : Nat) (d a b : Fin 32) (f : AtomFn) (o : AtomOrd) (s : Scope) : Nat :=
  op * 8388608 + d.val * 262144 + a.val * 8192 + b.val * 256 + atomFnNum f * 16 + ordNum o * 4 + scopeNum s
/-- Queue codes (R91). -/
def popQNum : PopQ → Nat
  | .rq0 => 0 | .rq1 => 1 | .cq => 2 | .wsq => 3 | .mbox => 4
/-- CE layout (R57, R58). -/
def encE (op : Nat) : EvOp → Nat
  | .imm e => op * 8388608 + e.toNat
  | .reg a => op * 8388608 + a.val * 262144 + 65536
/-- CJ layout (R57). -/
def encJ (op fn d a b j : Nat) : Nat :=
  op * 8388608 + fn * 1048576 + d * 32768 + a * 1024 + b * 32 + j
/-- Destination code of gathers and landings (R60). -/
def ldestNum : LDest → Nat
  | .tile t => t.val
  | .vq q => 16 + q.val
/-- B source code (R61). -/
def bsrcNum : BSrc → Nat
  | .tile t => t.val
  | .wsf => 16
/-- B scale code (R61). -/
def bscaleNum : BScale → Nat
  | .none => 0 | .bf => 1 | .scf => 2
/-- Continuation of MMA and MRUN (R61). -/
def encMmaCont (c : MmaCont) : Nat :=
  7 * 536870912 + c.profile.toNat * 2097152 + c.k8.toNat * 4096 + b2n c.tb * 2048
/-- Destination code of MDRAIN (R62). -/
def drainNum : DrainDest → Nat
  | .vq q => 24 + q.val
  | .wq => 28
  | .heap => 31
/-- Vector source code (R65). -/
def vsrcNum : VSrc → Nat
  | .v k => k.val
  | .vq q => 24 + q.val
  | .lane => 30
  | .vz => 31
/-- Vector destination code (R65). -/
def vdstNum : VDst → Nat
  | .v k => k.val
  | .wq => 28
  | .mq => 29
  | .discard => 31
/-- VR layout (R64). -/
def encV (op : Nat) (t : Tok) (d a b p : Nat) : Nat :=
  eword 3 op t + d * 16384 + a * 512 + b * 16 + p
/-- Pack widths (R66). -/
def packNum : PackW → Nat
  | .w16 => 1 | .w8 => 2 | .w4 => 3
/-- Quantisation formats (R66). -/
def qfmtNum : QFmt → Nat
  | .e4 => 1 | .e5 => 2 | .q4x => 3
/-- Rounding codes (R131). -/
def rndNum : Rnd → Nat
  | .rne => 0 | .rtz => 1 | .rdn => 2 | .rup => 3 | .rna => 4 | .sr => 5
/-- Conversion codes (R134). -/
def convNum : Conv → Nat
  | .f2i => 0 | .i2f => 1 | .u2f => 2 | .f2b => 3 | .b2f => 4 | .f2h => 5 | .h2f => 6 | .f2e4 => 7
  | .e42f => 8 | .f2e5 => 9 | .e52f => 10 | .frac => 11
/-- Condition codes (R66). -/
def vccNum : VCc → Nat
  | .eq => 0 | .ne => 1 | .lt => 2 | .le => 3 | .gt => 4 | .ge => 5 | .un => 6 | .or => 7
/-- Compare types (R66). -/
def vtyNum : VTy → Nat
  | .f => 0 | .i => 1 | .u => 2
/-- PLOG functions (R66). -/
def pfnNum : PFn → Nat
  | .and => 0 | .or => 1 | .xor => 2 | .andn => 3 | .not => 4 | .mov => 5 | .all => 6 | .none => 7
/-- Reduce codes (R67). -/
def reduceNum : Reduce → Nat
  | .none => 0 | .addf => 1 | .addb => 2 | .addi => 3 | .maxf => 4
/-- ATOMV functions (R67). -/
def atomvNum : AtomV → Nat
  | .addf => 0 | .addi => 1 | .maxf => 2 | .minf => 3 | .addfs => 4

/-- The words of an instruction: the first word, and the continuation of a long form. An event has
no words. -/
def encode : Instr → Option (Nat × Option Nat)
  | .add d a b => some (encR 0 d a b, none)
  | .sub d a b => some (encR 1 d a b, none)
  | .and d a b => some (encR 2 d a b, none)
  | .or d a b => some (encR 3 d a b, none)
  | .xor d a b => some (encR 4 d a b, none)
  | .andn d a b => some (encR 5 d a b, none)
  | .sll d a b => some (encR 6 d a b, none)
  | .srl d a b => some (encR 7 d a b, none)
  | .sra d a b => some (encR 8 d a b, none)
  | .rotl d a b => some (encR 9 d a b, none)
  | .mul d a b => some (encR 10 d a b, none)
  | .mulh d a b => some (encR 11 d a b, none)
  | .mulhu d a b => some (encR 12 d a b, none)
  | .div d a b => some (encR 13 d a b, none)
  | .divu d a b => some (encR 14 d a b, none)
  | .rem d a b => some (encR 15 d a b, none)
  | .remu d a b => some (encR 16 d a b, none)
  | .min d a b => some (encR 17 d a b, none)
  | .max d a b => some (encR 18 d a b, none)
  | .minu d a b => some (encR 19 d a b, none)
  | .maxu d a b => some (encR 20 d a b, none)
  | .clz d a => some (encR 21 d a 0, none)
  | .ctz d a => some (encR 22 d a 0, none)
  | .popc d a => some (encR 23 d a 0, none)
  | .addi d a imm => some (encI 1 d a imm.toNat, none)
  | .andi d a imm => some (encI 2 d a imm.toNat, none)
  | .ori d a imm => some (encI 3 d a imm.toNat, none)
  | .xori d a imm => some (encI 4 d a imm.toNat, none)
  | .slli d a sh => some (encI 5 d a sh.val, none)
  | .srli d a sh => some (encI 6 d a sh.val, none)
  | .srai d a sh => some (encI 7 d a sh.val, none)
  | .lui d imm => some (encU 8 d imm, none)
  | .adrp d imm => some (encU 9 d imm, none)
  | .ceq s a b => some (encC 0 s a b, none)
  | .cne s a b => some (encC 1 s a b, none)
  | .clt s a b => some (encC 2 s a b, none)
  | .cge s a b => some (encC 3 s a b, none)
  | .cltu s a b => some (encC 4 s a b, none)
  | .cgeu s a b => some (encC 5 s a b, none)
  | .cbs s a b => some (encC 6 s a b, none)
  | .cbc s a b => some (encC 7 s a b, none)
  | .ceqi s a imm => some (encCI 11 s a imm, none)
  | .cnei s a imm => some (encCI 12 s a imm, none)
  | .clti s a imm => some (encCI 13 s a imm, none)
  | .cgei s a imm => some (encCI 14 s a imm, none)
  | .cltui s a imm => some (encCI 15 s a imm, none)
  | .sand d a b => some (encL 0 d.val a.val b.val, none)
  | .sor d a b => some (encL 1 d.val a.val b.val, none)
  | .sxor d a b => some (encL 2 d.val a.val b.val, none)
  | .snot d a => some (encL 3 d.val a.val 0, none)
  | .smov d a => some (encL 4 d.val a.val 0, none)
  | .sset d => some (encL 5 d.val 0 0, none)
  | .sclr d => some (encL 6 d.val 0 0, none)
  | .prep s off => some (0x11 * 8388608 + s.val * 524288 + off.toNat, none)
  | .prepr s a => some (0x12 * 8388608 + s.val * 524288 + a.val * 8192, none)
  | .bt s n => some (encB 0 s n, none)
  | .bf s n => some (encB 1 s n, none)
  | .ba s n => some (encB 2 s n, none)
  | .bl s n => some (encB 3 s n, none)
  | .ldb d a c imm => some (encM 0x14 d a c imm, none)
  | .ldbu d a c imm => some (encM 0x15 d a c imm, none)
  | .ldh d a c imm => some (encM 0x16 d a c imm, none)
  | .ldhu d a c imm => some (encM 0x17 d a c imm, none)
  | .ldw d a c imm => some (encM 0x18 d a c imm, none)
  | .ldwu d a c imm => some (encM 0x19 d a c imm, none)
  | .ldd d a c imm => some (encM 0x1a d a c imm, none)
  | .stb d a c imm => some (encM 0x1b d a c imm, none)
  | .sth d a c imm => some (encM 0x1c d a c imm, none)
  | .stw d a c imm => some (encM 0x1d d a c imm, none)
  | .std d a c imm => some (encM 0x1e d a c imm, none)
  | .ldl d imm => some (encU 0x1F d imm, none)
  | .lpool imm => some (encU 0x20 0 imm, none)
  | .amow d a b f o s => some (encA 0x21 d a b f o s, none)
  | .amod d a b f o s => some (encA 0x22 d a b f o s, none)
  | .fence s k m => some (0x23 * 8388608 + scopeNum s * 262144
      + (match k with | .acq => 0 | .rel => 1 | .full => 2) * 65536 + m.toNat, none)
  | .mfs d sr => some (0x24 * 8388608 + d.val * 262144 + sr.toNat, none)
  | .mts a sr => some (0x25 * 8388608 + a.val * 8192 + sr.toNat, none)
  | .mtsi sr imm => some (0x26 * 8388608 + sr.toNat * 2048 + imm.toNat, none)
  | .mtsr k a sr => some (0x31 * 8388608 + k.val * 524288 + a.val * 8192 + sr.toNat, none)
  | .qpush a q => some (0x27 * 8388608 + a.val * 8192 + (match q with | .xq => 0 | .mbox => 1), none)
  | .qpop d q => some (0x28 * 8388608 + d.val * 262144 + popQNum q, none)
  | .qcnt d q => some (0x29 * 8388608 + d.val * 262144 + popQNum q, none)
  | .bar id => some (0x2A * 8388608 + id.val, none)
  | .plumb m => some (0x2B * 8388608 + m.toNat, none)
  | .twait a => some (0x2C * 8388608 + a.val * 8192, none)
  | .sigev e => some (encE 0x2D e, none)
  | .waitev e => some (encE 0x2E e, none)
  | .phsw p => some (0x2F * 8388608 + p.val, none)
  | .jigRec j => some (encJ 0x30 0 0 0 0 j.val, none)
  | .jigEnd d => some (encJ 0x30 1 d.val 0 0 0, none)
  | .jigPlay d j => some (encJ 0x30 2 d.val 0 0 j.val, none)
  | .jigStop a b => some (encJ 0x30 3 0 a.val b.val 0, none)
  | .jigDrop j => some (encJ 0x30 4 0 0 0 j.val, none)
  | .pqpush a b => some (encJ 0x32 0 0 a.val b.val 0, none)
  | .pqpop d b => some (encJ 0x32 1 d.val 0 b.val 0, none)
  | .pqtop d b => some (encJ 0x32 2 d.val 0 b.val 0, none)
  | .pqclr => some (encJ 0x32 3 0 0 0 0, none)
  | .pqcnt d => some (encJ 0x32 4 d.val 0 0 0, none)
  | .ngo k n => some (0x33 * 8388608 + n.toNat * 2 + k.val, none)
  | .nbrk s k => some (0x34 * 8388608 + s.val * 524288 + k.val, none)
  | .waitq m => some (0x35 * 8388608 + m.toNat, none)
  | .trap imm => some (0x36 * 8388608 + imm.toNat, none)
  | .rft => some (0x37 * 8388608, none)
  | .retire => some (0x38 * 8388608, none)
  | .nop x => some (0x39 * 8388608 + x.toNat, none)
  | .brk => some (0x3A * 8388608, none)
  | .ldt t d st z tr => some (eword 1 0 t + d.val * 32768 + st.val * 2048 + b2n z * 1024 + b2n tr * 512, none)
  | .ldq t q st => some (eword 1 1 t + q.val * 131072 + st.val * 2048, none)
  | .ldsc t g st => some (eword 1 2 t + b2n g * 262144 + st.val * 2048, none)
  | .ldx t d st rq n => some (eword 1 3 t + ldestNum d * 16384 + st.val * 1024 + rq.val * 512 + n.toNat, none)
  | .lgath t d st q => some (eword 1 4 t + ldestNum d * 16384 + st.val * 1024 + q.val * 256, none)
  | .lland t d n => some (eword 1 5 t + ldestNum d * 16384 + n.val * 16, none)
  | .ladv t st l => some (eword 1 6 t + st.val * 2048 + l.val, none)
  | .lnop t => some (eword 1 7 t, none)
  | .mma t o c => some (eword 2 0 t + o.a.val * 131072 + o.ta.val * 8192 + bsrcNum o.b * 256
      + b2n o.sa * 64 + bscaleNum o.sb * 16 + b2n o.z * 8 + b2n o.ck * 4, some (encMmaCont c))
  | .mrun t k c => some (eword 2 1 t + k.val * 262144, some (encMmaCont c))
  | .mdrain t a d s ac => some (eword 2 2 t + a.val * 131072 + drainNum d * 4096 + s.val * 512 + b2n ac * 256, none)
  | .azero t a => some (eword 2 3 t + a.val * 131072, none)
  | .aread t a r q => some (eword 2 4 t + a.val * 131072 + r.val * 2048 + q.val * 512, none)
  | .apatch t a r m => some (eword 2 5 t + a.val * 131072 + r.val * 2048
      + (match m with | .set => 0 | .add => 1 | .mset => 2) * 512, none)
  | .epset t n st => some (eword 2 6 t + n.val * 65536 + st.val * 2048, none)
  | .epcon t n st => some (eword 2 7 t + n.val * 65536 + st.val * 2048, none)
  | .heaprd t q p => some (eword 2 8 t + q.val * 131072 + b2n p * 65536, none)
  | .heapclr t k => some (eword 2 9 t + k.val * 8192, none)
  | .mchk t q => some (eword 2 10 t + q.val * 131072, none)
  | .mnop t => some (eword 2 11 t, none)
  | .sdopen st => some (5 * 536870912 + st.val * 2048, none)
  | .sdrun n => some (5 * 536870912 + 524288 + n.toNat, none)
  | .sdclose => some (5 * 536870912 + 2 * 524288, none)
  | .sdstat => some (5 * 536870912 + 3 * 524288, none)
  | .vadd t d a b p => some (encV 0x0 t (vdstNum d) (vsrcNum a) (vsrcNum b) p.val, none)
  | .vsub t d a b p => some (encV 0x1 t (vdstNum d) (vsrcNum a) (vsrcNum b) p.val, none)
  | .vmul t d a b p => some (encV 0x2 t (vdstNum d) (vsrcNum a) (vsrcNum b) p.val, none)
  | .vfma t d a b p => some (encV 0x3 t (vdstNum d) (vsrcNum a) (vsrcNum b) p.val, none)
  | .vmin t d a b p => some (encV 0x4 t (vdstNum d) (vsrcNum a) (vsrcNum b) p.val, none)
  | .vmax t d a b p => some (encV 0x5 t (vdstNum d) (vsrcNum a) (vsrcNum b) p.val, none)
  | .vabs t d a p => some (encV 0x6 t (vdstNum d) (vsrcNum a) 31 p.val, none)
  | .vneg t d a p => some (encV 0x7 t (vdstNum d) (vsrcNum a) 31 p.val, none)
  | .vrcp t d a p => some (encV 0x8 t (vdstNum d) (vsrcNum a) 31 p.val, none)
  | .vrsq t d a p => some (encV 0x9 t (vdstNum d) (vsrcNum a) 31 p.val, none)
  | .vexp2 t d a p => some (encV 0xa t (vdstNum d) (vsrcNum a) 31 p.val, none)
  | .vlog2 t d a p => some (encV 0xb t (vdstNum d) (vsrcNum a) 31 p.val, none)
  | .viadd t d a b p => some (encV 0xc t (vdstNum d) (vsrcNum a) (vsrcNum b) p.val, none)
  | .visub t d a b p => some (encV 0xd t (vdstNum d) (vsrcNum a) (vsrcNum b) p.val, none)
  | .vimul t d a b p => some (encV 0xe t (vdstNum d) (vsrcNum a) (vsrcNum b) p.val, none)
  | .vimin t d a b p => some (encV 0xf t (vdstNum d) (vsrcNum a) (vsrcNum b) p.val, none)
  | .vimax t d a b p => some (encV 0x10 t (vdstNum d) (vsrcNum a) (vsrcNum b) p.val, none)
  | .viminu t d a b p => some (encV 0x11 t (vdstNum d) (vsrcNum a) (vsrcNum b) p.val, none)
  | .vimaxu t d a b p => some (encV 0x12 t (vdstNum d) (vsrcNum a) (vsrcNum b) p.val, none)
  | .vand t d a b p => some (encV 0x13 t (vdstNum d) (vsrcNum a) (vsrcNum b) p.val, none)
  | .vor t d a b p => some (encV 0x14 t (vdstNum d) (vsrcNum a) (vsrcNum b) p.val, none)
  | .vxor t d a b p => some (encV 0x15 t (vdstNum d) (vsrcNum a) (vsrcNum b) p.val, none)
  | .vshl t d a b p => some (encV 0x16 t (vdstNum d) (vsrcNum a) (vsrcNum b) p.val, none)
  | .vshr t d a b p => some (encV 0x17 t (vdstNum d) (vsrcNum a) (vsrcNum b) p.val, none)
  | .vsra t d a b p => some (encV 0x18 t (vdstNum d) (vsrcNum a) (vsrcNum b) p.val, none)
  | .vcmp t cc ty pd a b => some (eword 3 0x19 t + vccNum cc * 65536 + pd.val * 4096 + vsrcNum a * 128
      + vsrcNum b * 4 + vtyNum ty, none)
  | .vsel t d a b p => some (encV 0x1a t (vdstNum d) (vsrcNum a) (vsrcNum b) p.val, none)
  | .plog t fn pd pa pb => some (eword 3 0x1b t + pd.val * 32768 + pa.val * 2048 + pb.val * 128 + pfnNum fn * 16, none)
  | .vcvt t d a cv r sat => some (eword 3 0x1c t + vdstNum d * 16384 + vsrcNum a * 512 + convNum cv * 32
      + rndNum r * 4 + b2n sat * 2, none)
  | .vpack t d a b k => some (encV 0x1d t (vdstNum d) (vsrcNum a) (vsrcNum b) (packNum k), none)
  | .vunpk t d a b k => some (encV 0x1e t (vdstNum d) (vsrcNum a) (vsrcNum b) (packNum k), none)
  | .vquant t d a f => some (encV 0x1f t (vdstNum d) (vsrcNum a) 31 (qfmtNum f), none)
  | .vdeq t d a f => some (encV 0x20 t (vdstNum d) (vsrcNum a) 31 (qfmtNum f), none)
  | .vrsum t d a p => some (encV 0x21 t (vdstNum d) (vsrcNum a) 31 p.val, none)
  | .vrmax t d a nn p => some (encV 0x22 t (vdstNum d) (vsrcNum a) (b2n nn) p.val, none)
  | .vrmin t d a nn p => some (encV 0x23 t (vdstNum d) (vsrcNum a) (b2n nn) p.val, none)
  | .vperm t d a b p => some (encV 0x24 t (vdstNum d) (vsrcNum a) (vsrcNum b) p.val, none)
  | .vbcst t d a l => some (eword 3 0x25 t + vdstNum d * 16384 + vsrcNum a * 512 + l.val * 8, none)
  | .vmov t d a p => some (encV 0x26 t (vdstNum d) (vsrcNum a) 31 p.val, none)
  | .vsplt t d imm => some (eword 3 0x27 t + vdstNum d * 16384 + imm.toNat, none)
  | .vsplf t d imm => some (eword 3 0x28 t + vdstNum d * 16384 + imm.toNat, none)
  | .vsplx t d p => some (encV 0x29 t (vdstNum d) 31 31 p.val, none)
  | .vrand t d p => some (encV 0x2a t (vdstNum d) 31 31 p.val, none)
  | .vrset t a => some (encV 0x2b t 31 (vsrcNum a) 31 0, none)
  | .vrskip t a => some (encV 0x2c t 31 (vsrcNum a) 31 0, none)
  | .vrget t d => some (encV 0x2d t (vdstNum d) 31 31 0, none)
  | .vdefer t a b p => some (encV 0x2e t 31 (vsrcNum a) (vsrcNum b) p.val, none)
  | .vdrain t d fl p => some (encV 0x2f t d.val 31 (b2n fl) p.val, none)
  | .vdqn t d => some (encV 0x30 t (vdstNum d) 31 31 0, none)
  | .vloop t => some (encV 0x31 t 31 31 31 0, none)
  | .vrply t a rq l => some (eword 3 0x32 t + vsrcNum a * 16384 + rq.val * 512 + l.val * 8, none)
  | .vflag t d c => some (encV 0x33 t (vdstNum d) 31 (b2n c) 0, none)
  | .vnop t => some (encV 0x34 t 31 31 31 0, none)
  | .copy t d s => some (eword 4 0 t + d.val * 32768 + s.val * 2048, none)
  | .sqst t d => some (eword 4 1 t + d.val * 32768, none)
  | .xsend t s nb sl off => some (eword 4 2 t + s.val * 2048 + b2n nb * 1024,
      some (7 * 536870912 + sl.val * 8388608 + off.toNat))
  | .rsend t s p g => some (eword 4 3 t + s.val * 2048, some (7 * 536870912 + p.toNat * 65536 + g.toNat))
  | .rrecv t d r p g => some (eword 4 4 t + d.val * 32768 + reduceNum r * 256,
      some (7 * 536870912 + p.toNat * 65536 + g.toNat))
  | .rfence t => some (eword 4 5 t, none)
  | .atomv t st iq f e => some (eword 4 6 t + st.val * 32768 + iq.val * 512 + atomvNum f * 32 + b2n e * 16, none)
  | .snop t => some (eword 4 7 t, none)
  | .engineRetire _ => none
  | .phaseResume => none
  | .gangStall => none
  | .stallResume => none
  | .slipLimit => none
  | .deadStop => none
  | .barrierRelease _ => none
  | .plumbRelease _ => none
  | .plumbOverdue => none
  | .slotLanding => none
  | .lateLanding => none
  | .sdopenRetire => none
  | .streamBeat => none
  | .blockRemoval => none
  | .blockRefetch => none
  | .blockPush => none
  | .remoteMatch _ _ _ => none
  | .remoteEnd _ _ _ _ _ => none
  | .remoteTimeout => none
  | .roundAbandon _ _ => none
  | .cqRecord => none
  | .batchClose => none
  | .dataFlit _ _ => none
  | .idleFlit _ _ => none
  | .retryRequest _ _ => none
  | .portDown _ => none
  | .trapEntry => none
  | .companionStop => none
  | .breakRequest => none
  | .windowMigrated _ _ _ => none
  | .jigEntryIssue => none
  | .driftExchange _ _ _ => none
  | .eventWake _ _ => none
  | .kick _ _ _ => none
  | .entryReread _ _ => none
  | .ack _ _ => none
  | .qcfgWrite _ _ _ => none
  | .ercfgWrite _ _ => none
  | .hostRegisterWrite _ _ _ => none
  | .mbout _ _ => none
  | .mbin _ _ _ => none
  | .dropClear _ _ => none
  | .launch _ _ _ _ _ => none
  | .listWait _ _ _ _ _ => none
  | .listSignal _ _ _ _ _ _ => none
  | .listSkipif _ _ _ _ _ => none
  | .listJump _ _ _ _ => none
  | .listCall _ _ _ _ => none
  | .listReturn _ _ _ => none
  | .listFence _ _ _ => none
  | .listEnd _ _ _ => none
  | .gangStart _ => none
  | .taskComplete _ => none
  | .preemptRequest _ => none
  | .gangStop => none
  | .taskResume _ => none
  | .taskDiscard _ => none
  | .hostMemAccess _ _ _ _ => none
  | .linkRateChange _ _ => none
  | .powerUp => none
  | .firmwareDownload _ _ _ _ => none
  | .trimRecord _ _ _ => none
  | .attestationReport _ _ => none
  | .warningTemperature => none
  | .criticalTemperature => none
  | .illegalWord _ _ _ => none
  | .fetchFault _ => none
  | .valueLanded => none
  | .debugResume _ => none
  | .debugInterfaceWrite _ _ _ => none
  | .taskAbort _ => none
  | .slotLoad _ => none
  | .tenantCreate _ _ => none
  | .tenantDestroy _ => none
  | .placementRemoval _ => none

end Sys2Proof
end

