-- ==== Sys2Proof/Config.lean ====
section
/-! DEFINITION. What the spec leaves open or leaves to an implementation. Every constant here is
opaque: it has no body a proof could see, so a statement holds whatever its value (log 1, 8, 12). -/

namespace Sys2Proof.Config

/-- Free values, one for each number of the machine's own counter `State.free` (log 1, 8): which
agent acts next, which candidate a read in a shadow returns, a jitter, firmware's free choices. -/
opaque freeNat : Nat → Nat

/-- The device seed that the system store derives its keys from (R389, R390; log 12). -/
opaque deviceSeed : Fin 4 → List Byte

/-- Whether a signature of the standard that R4 names verifies (R389; log 12). -/
opaque sigOk : (key msg sig : List Byte) → Bool

/-- The signature of a report under the device key (R390; log 12). -/
opaque sign : (seed msg : List Byte) → List Byte

/-- The digest of the vendor key that a boot ROM holds (R389; log 12). -/
opaque romDigest : List Byte

/-- The device public key that a seed gives (R389; log 12). -/
opaque pubKey : (seed : List Byte) → List Byte

/-- Whether a trim record names a device identity (R389; log 12). -/
opaque trimNames : (record identity : List Byte) → Bool

/-- The contents that the boot firmware gives the system store of a core (R361, R389; log 12). -/
opaque sysStoreByte : (image : List Byte) → (off : Nat) → Byte

end Sys2Proof.Config
end

