-- ==== Sys2Proof/Machine/State.lean ====
section
/-! DEFINITION. The state of the package: everything the spec gives the machine, as plain data.
A core is `Core`; the core that acts is `State.core`, the other 127 are `State.others`, and what
dies and the package share is `State.sys`. A field's default is its value at reset. -/

namespace Sys2Proof.Machine

/-- A memory: (address, byte) pairs, addresses rising, no pair holding the byte 0 that an unlisted
address reads as (log 6). -/
abbrev Mem := List Host.Cell

/-- Where an element can lie (R48): a core's bench, a die's loft, HBM, host memory; and the copy
hold, the landing slots, the jig store and the system store, which no data access reaches but which carry
check bits (R379, R299). -/
inductive Space where
  | bench (c : Nat)
  | loft (d : Fin 4)
  | hbm
  | host
  | hold (c : Nat)
  | slot (c : Nat)
  | jig (c : Nat)
  | store (c : Nat)
  deriving DecidableEq, Repr

/-- The canonical form of a memory: addresses strictly rising, no zero byte listed. -/
def Mem.wf : Mem → Bool
  | [] => true
  | (a, v) :: t => (v != 0) && t.all (fun c => decide (a < c.1)) && Mem.wf t

/-- A queue entry or vector register: 64 lanes of 32 bits (R160, R217). -/
abbrev Lanes := Vector Word 64

/-- A core's place: die and index on the die (R2). -/
structure CoreId where
  die : Fin 4
  idx : Fin 32
  deriving DecidableEq, Repr

/-- A steer register (R36) with its held fetch fault (R39) and the tick its target was last set
(R40). -/
structure Steer where
  cond : Bool := false
  valid : Bool := false
  target : BitVec 46 := 0
  held : Bool := false
  setAt : Option Nat := none
  deriving DecidableEq, Repr

/-- One bank of control registers (R34). -/
structure Bank where
  g : Vector DWord 32 := .replicate 32 0
  s : Vector Steer 12 := .replicate 12 {}
  deriving DecidableEq, Repr

/-- An entry of the PC queue (R41). -/
structure PcEntry where
  addr : VAddr := 0
  nul : Bool := false
  deriving DecidableEq, Repr

/-- The PC queue (R41). -/
structure PcQueue where
  q0 : PcEntry := {}
  q1 : PcEntry := { addr := 4 }
  q2 : PcEntry := { addr := 8 }
  deriving DecidableEq, Repr

/-- A register write whose bound has not passed: a read before tick `due` may return `old`
(R12, R43, R219). -/
structure Pend (α : Type) where
  reg : Nat
  old : α
  due : Nat
  deriving DecidableEq, Repr

/-- A cause to be taken, with what it writes into the trap-state registers (R358, R361). -/
structure TrapRec where
  cause : BitVec 6
  info : DWord := 0
  addr : VAddr := 0
  origin : BitVec 3 := 0
  wpskip : Bool := false
  prog : Bool := false
  deriving DecidableEq, Repr

/-- Where a waiting control word has arrived (R93, R94, R112), with the gang tick it leaves on once
the gang is released, or the event it waits for and whether a signalling has met the wait (R97, R343,
R344). -/
inductive Arrival where
  | bar (id : Fin 16) (leave : Option Nat)
  | plumb (mark : BitVec 16) (held : Nat) (leave : Option Nat)
  | rft (held : Nat) (leave : Option Nat)
  | waitev (ev : Nat) (met : Bool)
  deriving DecidableEq, Repr

/-- What a core is doing (R113, R266, R35). -/
inductive RunState where
  | idle     -- holds no task
  | running  -- runs its task, bank 0 or bank 1
  | retired  -- has left its gang (R113)
  | dead     -- stopped by a double fault (R35)
  deriving DecidableEq, Repr

/-- A stream register (R151). -/
structure StReg where
  base : BitVec 48 := 0
  rsel : BitVec 5 := 0
  fmt : BitVec 4 := 0
  rows : BitVec 16 := 0
  rbytes : BitVec 24 := 0
  pitch : BitVec 32 := 0
  sbase : BitVec 48 := 0
  sstride : BitVec 32 := 0
  cls : BitVec 4 := 0
  step : Vector (BitVec 32) 6 := .replicate 6 0
  live : BitVec 48 := 0
  deriving DecidableEq, Repr

/-- One level of a nest table (R154). -/
structure Level where
  trips : BitVec 16 := 0
  smask : BitVec 16 := 0
  da : BitVec 4 := 0
  dacc : BitVec 2 := 0
  dk : BitVec 8 := 0
  cur : BitVec 16 := 0
  deriving DecidableEq, Repr

/-- A nest table (R154). -/
structure NestTab where
  lead : BitVec 3 := 0
  rot : Bool := false
  level : Vector Level 6 := .replicate 6 {}
  next : BitVec 6 := 0
  saved : Bool := false
  body : Vector (BitVec 2 × BitVec 3) 64 := .replicate 64 (0, 0)
  deriving DecidableEq, Repr

/-- A phase pair (R374). -/
structure PhPair where
  base : BitVec 17 := 0
  len : BitVec 17 := 0
  src : BitVec 48 := 0
  cur : Bool := false
  irrev : Bool := false
  deriving DecidableEq, Repr

/-- The engine-visible special registers that no engine writes (R88): what a queue entry's
snapshot holds (R142). -/
structure Vis where
  st : Vector StReg 16 := .replicate 16 {}
  nest : Vector NestTab 2 := .replicate 2 {}
  cktol : Vector (BitVec 6) 8 := .replicate 8 20
  mrctl : BitVec 26 := 0
  tbase : DWord := 0
  plumbmax : BitVec 32 := 65536
  guardW : BitVec 16 := 32
  sliplim : BitVec 32 := 4096
  strict : Bool := false
  rto : BitVec 32 := 0
  peerbase : BitVec 13 := 0
  peern : BitVec 14 := 0
  ascale : Vector (BitVec 8) 16 := .replicate 16 0
  wpl : Vector (BitVec 48) 16 := .replicate 16 0
  wph : Vector (BitVec 55) 16 := .replicate 16 0
  wpen : BitVec 16 := 0
  ph : Vector PhPair 8 := .replicate 8 {}
  deriving DecidableEq, Repr

/-- The special registers of one core that are not engine-visible (R37, R90, R361, R372), but for
TICK, GTICK and DRIFT, which `Core` and `Sys` hold. -/
structure CtlRegs where
  gang : BitVec 16 := 0
  grank : DWord := 0
  gsize : DWord := 1
  tenant : Fin 16 := 0
  task : BitVec 32 := 0
  tvec : BitVec 14 := 0
  ecause : BitVec 6 := 0
  einfo : DWord := 0
  eaddr : BitVec 48 := 0
  epc0 : BitVec 48 := 0
  epc1 : BitVec 48 := 0
  epc2 : BitVec 48 := 0
  enul : BitVec 3 := 0
  origin : BitVec 3 := 0
  wpskip : Bool := false
  hook : Bool := false
  prog : Bool := false
  retried : Bool := false
  uhen : Bool := false
  uhaddr : BitVec 46 := 0
  rel : Vector DWord 16 := .replicate 16 0
  wphit : BitVec 16 := 0
  shadow : Bool := false
  sstep : Bool := false
  deriving DecidableEq, Repr

/-- A place in a nest's order (R104, R105): iteration, its counters, body word. -/
structure NestPlace where
  iter : Nat
  cur : List Nat
  next : Nat
  deriving DecidableEq, Repr

/-- The place of a running or saved nest (R104, R108, R157): its table, NGO address, body length,
the tag and counters of the iteration of the next control word, that word, and the NGO's snapshot.
`ahead` is the place of the next engine word once words have been pushed ahead (R105). -/
structure NestRun where
  table : Fin 2
  addr : VAddr
  n : Nat
  iter : Nat
  cur : List Nat
  next : Nat
  snap : NestTab
  steps : Vector (Vector (BitVec 32) 6) 16
  broken : Bool := false
  ahead : Option NestPlace := none
  deriving DecidableEq, Repr

/-- The control core of a core (R34, R41, R43, R44, R94, R102, R392); `nest` is the nest that runs,
`nestSaved` the saved position of each table (R108), `settling` the engines whose issued words run on
before a handler's first word (R215), `liveSet` for each table's running or saved nest the place up to which words
had been pushed as LIVE of a stream register was last written (R157), `held16` and `held17` the causes held in bank 1 (R35), of 0x17 each in
the order in which it arose. -/
structure Ctl where
  run : RunState := .idle
  bank1 : Bool := false
  b0 : Bank := {}
  b1 : Bank := {}
  taintG : Vector Bool 32 := .replicate 32 false
  taintC : Vector Bool 12 := .replicate 12 false
  taintT : Vector Bool 12 := .replicate 12 false
  pcq : PcQueue := {}
  pend : List (Pend DWord) := []
  awaiting : Bool := false
  settling : List Engine := []
  held16 : Option TrapRec := none
  held17 : List TrapRec := []
  posted : Option TrapRec := none
  breakReq : Bool := false
  lastMark : Option (BitVec 16) := none
  arrival : Option Arrival := none
  relTick : Option Nat := none
  plumbed : Bool := false
  skipEpc : Bool := false
  nest : Option NestRun := none
  nestSaved : Vector (Option NestRun) 2 := .replicate 2 none
  liveSet : Vector (Vector (Option NestPlace) 16) 2 := .replicate 2 (.replicate 16 none)
  codeBase : BitVec 48 := 0
  code : List Byte := []
  regs : CtlRegs := {}
  deriving DecidableEq, Repr

/-- An entry of `vq0` to `vq3`, `wq` or `mq` (R160): lanes, mask, delivered format (R182, 8 for
F32), residue (R186), and the mark of R376. -/
structure LaneEntry where
  lanes : Lanes
  mask : BitVec 64
  fmt : BitVec 4 := 8
  residue : Option Nat := none
  carried : Bool := false
  deriving DecidableEq, Repr

/-- A completion record of `cq` or `wsq` (R259, R320). -/
abbrev Record := DWord

/-- An entry of `xq` (R116) with the tick of its push and the checker's copy (R145); an entry that
was saved counts as matched (R162). -/
structure XEntry where
  value : DWord
  pushed : Nat := 0
  copy : DWord := value
  matched : Bool := false
  deriving DecidableEq, Repr

/-- The queues of R91, R102, R160 and R161. -/
structure Queues where
  xq : List XEntry := []
  mboxOut : List DWord := []
  mboxIn : List DWord := []
  mboxDrop : Bool := false
  rq0 : List Word := []
  rq1 : List Word := []
  cq : List Record := []
  cqPend : List Record := []
  wsq : List Record := []
  vq : Vector (List LaneEntry) 4 := .replicate 4 []
  wq : List LaneEntry := []
  mq : List LaneEntry := []
  pq : List (DWord × DWord) := []
  dq : List (Word × Word × BitVec 6) := []
  deriving DecidableEq, Repr

/-- A flag register (R136): IV, DZ, OF, UF, NX in bits 0 to 4, and NANC. -/
structure FlagReg where
  bits : BitVec 5 := 0
  nanc : BitVec 32 := 0
  deriving DecidableEq, Repr

/-- A tile's shape (R168). -/
structure Shape where
  fmt : BitVec 4 := 0
  rows : BitVec 7 := 0
  elems : BitVec 10 := 0
  deriving DecidableEq, Repr

/-- An operand element (R172): a NaN (signalling or not), an infinity, or n × 2^e. -/
inductive EVal where
  | nan (sig : Bool)
  | inf (neg : Bool)
  | fin (n : Int) (e : Int)
  deriving DecidableEq, Repr, Inhabited

/-- A decoded weight block with its scales (R177, R257): element codes row-major, 32 by 64, the 64
X8 bytes, and the column-sum vector formed with them. -/
structure WBlock where
  fmt : BitVec 4
  elems : List Byte
  x8 : List Byte
  scnt : Nat
  sums : List EVal := []
  deriving DecidableEq, Repr

/-- The sums that the load engine records for a tile it fills (R194): one for each tile row, one for
each element position. -/
structure TileSums where
  rows : List EVal := []
  cols : List EVal := []
  deriving DecidableEq, Repr

/-- What a tile held before a load word filled it (R191): its bytes, its shape, its recorded sums. -/
structure OldTile where
  bytes : Mem := []
  shape : Shape := {}
  sums : TileSums := {}
  deriving DecidableEq, Repr

/-- A product step that has issued and has still to compute (R191, R202): the scales it has taken, the shapes it has
checked of A and of a tile B with the sums recorded for B, and what its tiles could be read to hold as it issued. -/
structure HeldStep where
  sa : Option (List Byte) := none
  sb : Option (List Byte) := none
  a : Shape := {}
  b : Shape := {}
  sums : TileSums := {}
  tiles : List (Fin 16 × OldTile) := []
  deriving DecidableEq, Repr

/-- What the control core pushes into an engine queue, and what its checker forms a copy of (R145):
the word, its continuation, its iteration tag and its snapshot. -/
structure Pushed where
  word : Word
  cont : Option Word := none
  tag : Option (Fin 2 × Nat) := none
  snap : Vis := {}
  deriving DecidableEq, Repr

/-- An engine word waiting in a queue (R142): `copy` is the checker's copy (R145), `due` an SDOPEN's
retirement tick (R211), `since` the gang tick from which an LLAND counts its wait (R294), `prog`,
`rows` and `index` the progress of a word that works in parts with the rows and indices it holds
(R143, R199), `blocks` and `batches` what a step has popped of the weight FIFO and SCF, `held` a step that has issued
(R202), `first` the
die tick of its issue (R293), `lines` the bench lines it writes (R373), `drain` the slot and EPCOLBASE of
an MDRAIN's first issue (R216), `wpskip` the exemption of R368. -/
structure Entry extends Pushed where
  copy : Pushed := { word, cont, tag, snap }
  addr : VAddr := 0
  pushed : Nat := 0
  matched : Bool := false
  started : Bool := false
  prog : Nat := 0
  due : Nat := 0
  since : Option Nat := none
  wpskip : Bool := false
  rows : List (Nat × List Byte) := []
  index : Option LaneEntry := none
  first : Nat := 0
  blocks : List WBlock := []
  batches : List (Nat × List Byte) := []
  held : Option HeldStep := none
  lines : List Nat := []
  drain : Option (Vector (BitVec 16) 16 × BitVec 32) := none
  deriving DecidableEq, Repr

/-- An item of an engine queue: a word, or a write of an engine-written register that takes its
place in the queue's order (R88, R89, R117). -/
inductive QItem where
  | word (e : Entry)
  | reg (sr : BitVec 12) (v : DWord)
  deriving DecidableEq, Repr

/-- An issued word that has not retired (R144): its tokens, the bench lines it writes (R373), the
landing slot it frees and the die tick of its retirement (R293), the phase pair whose release its
retirement waits for (R312), the number of blocks that must have been pushed (R212), whether an ATOMV
batch must close (R323), the tile it fills with what the tile held before (R191), and whether a user
debug hook pushed it (R371). -/
structure Issued where
  gl : Bool := false
  gr : Bool := false
  lines : List Nat := []
  frees : Option (Fin 64 × Nat) := none
  hold : Option (Fin 8) := none
  upto : Option Nat := none
  batch : Bool := false
  fills : Option (Fin 16 × OldTile) := none
  hooked : Bool := false
  deriving DecidableEq, Repr

/-- One engine: its queue (R142) and its issued words, oldest first (R144); `last` is the die tick
of its last issue, `late` that the next beat of its head is late (R149). -/
structure Eng where
  queue : List QItem := []
  issued : List Issued := []
  last : Option Nat := none
  late : Bool := false
  deriving DecidableEq, Repr

/-- The matrix path (R167 to R188): tiles and accumulators as memories of 256 KiB and 64 KiB. -/
structure Matrix where
  tiles : Mem := []
  shape : Vector Shape 16 := .replicate 16 {}
  sums : Vector TileSums 16 := .replicate 16 {}
  acc : Mem := []
  accI : Vector Bool 4 := .replicate 4 false
  epi : Vector (Vector (BitVec 16) 16) 8 := .replicate 8 (.replicate 16 0)
  bank : Vector Lanes 8 := .replicate 8 (.replicate 64 0)
  heap : List (Word × Word) := []
  heapk : BitVec 7 := 64
  ascale : List (List Byte) := []
  bscale : List (List Byte) := []
  scf : List (Nat × List Byte) := []
  wfifo : List WBlock := []
  ck : List (BitVec 3) := []
  epcolbase : BitVec 32 := 0
  mflags : FlagReg := {}
  deriving DecidableEq, Repr

/-- The vector engine (R217, R219, R233, R158, R136). -/
structure Vec where
  v : Vector Lanes 24 := .replicate 24 (.replicate 64 0)
  p : Vector (BitVec 64) 16 := .replicate 16 0
  pendV : List (Pend Lanes) := []
  pendP : List (Pend (BitVec 64)) := []
  vrk : BitVec 128 := 0
  vrc : BitVec 128 := 0
  vb : BitVec 4 := 0
  pb : BitVec 3 := 0
  vflags : FlagReg := {}
  deriving DecidableEq, Repr

/-- An entry of a removal table (R248): removal tick, padded size, resume delay. -/
structure RmEntry where
  t : Nat
  s : Nat
  rd : Nat
  deriving DecidableEq, Repr

/-- An open weight stream (R242 to R261). `first` is the block its arrivals start at (R261), `beats`
counts the 64-byte beats that have arrived, `buf` holds the bytes in the stream buffer, oldest first,
`next` is the next block to remove, `out` the decoded blocks that wait for their push, `refetch` the
blocks that are refetched with the die tick before which none finishes, `late` says that the
next beat has fallen due without its data (R252), `reopen` that stream time starts at the gang's
next RFT (R261). -/
structure Stream where
  header : VAddr
  fmt : BitVec 4
  rate : Nat
  bufB : Nat
  delay : Nat
  table : List RmEntry
  first : Nat := 0
  g0 : Nat
  beats : Nat := 0
  buf : List Byte := []
  next : Nat := 0
  granted : Nat := 0
  slip : Nat := 0
  out : List (Nat × WBlock) := []
  refetch : List (Nat × Nat) := []
  slow : Bool := false
  late : Bool := false
  reopen : Bool := false
  deriving DecidableEq, Repr

/-- A row of a held copy (R312): destination, bytes, and the residue that travels with it (R186). -/
structure HeldRow where
  addr : VAddr
  bytes : List Byte
  residue : Option Nat := none
  deriving DecidableEq, Repr

/-- A held outbound copy (R312): the pair that holds it, its rows, the pieces of the hold that its bytes fill (offset
and length, in their order), the word, and
whether a commit has passed since it issued. -/
structure HeldCopy where
  pair : Fin 8
  writes : List HeldRow
  pieces : List (Nat × Nat) := []
  entry : Entry
  carried : Bool := false
  deriving DecidableEq, Repr

/-- A remote word posted and not ended (R317 to R320): `st` and `ph` are of its snapshot, `port` is
the port that carries it (R387), `sent` the bytes an RSEND has sent. -/
structure Remote where
  op : RemoteOp
  peer : BitVec 13
  tag : BitVec 16
  len : Nat
  reduce : Reduce := .none
  st : StReg := {}
  ph : Vector PhPair 8 := .replicate 8 {}
  rto : BitVec 32 := 0
  posted : Nat
  matched : Bool := false
  port : Option (Fin 32) := none
  sent : Nat := 0
  deriving DecidableEq, Repr

/-- One request of an ATOMV sequence (R282, R283, R322). -/
structure AtomReq where
  fn : AtomV
  addr : VAddr
  value : Word
  deriving DecidableEq, Repr

/-- A timed transfer in flight to a landing slot (R292): the gang tick it lands at, and the channel it
uses. -/
structure Flight where
  slot : Fin 64
  fmt : BitVec 4
  data : List Byte
  due : Nat
  back : Bool
  deriving DecidableEq, Repr

/-- The copy engine (R292, R312, R317, R323): last send on each bridge channel, hold, remote words,
words of other modules that wait for their RRECV (R317, R356), matched words that timed out and whose
end is still to come over the port (R356), the rank's open part of an ATOMV batch, its closed parts that
wait for the gang, the batched words of the open part. -/
structure CopyEng where
  lastSend : Vector (Option Nat) 2 := .replicate 2 none
  hold : List HeldCopy := []
  remote : List Remote := []
  arrived : List (BitVec 13 × BitVec 16 × Nat) := []
  gone : List Remote := []
  batch : List (Nat × AtomReq) := []
  closed : List (List (Nat × AtomReq)) := []
  seq : Nat := 0
  deriving DecidableEq, Repr

/-- The states of a jig (R299). -/
inductive JigState where
  | empty | recording | valid | invalid
  deriving DecidableEq, Repr

/-- A jig's directory and entries (R299, R300). -/
structure Jig where
  state : JigState := .empty
  entries : List (BitVec 128) := []
  key : DWord := 0
  deriving DecidableEq, Repr

/-- A recording in progress (R100, R300): its jig, the gang tick its next DELTA counts from,
the gang tick at which a waiting word reached issue, whether it is unreplayable, whether the store
has run out, whether the checker's copy of the next entry differs (R309). -/
structure Recording where
  jig : Fin 4
  since : Nat
  reach : Option Nat := none
  unrep : Bool := false
  full : Bool := false
  differs : Bool := false
  deriving DecidableEq, Repr

/-- A replay in progress (R99, R307): its jig, JIG.PLAY's address and destination, the next entry,
the gang tick the next DELTA counts from. -/
structure Replay where
  jig : Fin 4
  addr : VAddr
  d : Fin 32
  next : Nat
  since : Nat
  live : Bool := true
  deriving DecidableEq, Repr

/-- The jig store (R299); `diverged` is an entry whose two copies disagreed (R309). -/
structure JigStore where
  jig : Vector Jig 4 := .replicate 4 {}
  recording : Option Recording := none
  play : Option Replay := none
  diverged : Option (BitVec 128) := none
  deriving DecidableEq, Repr

/-- The landing slots (R293) and the transfers in flight to this core (R292). -/
structure Landing where
  slot : Vector (Option (BitVec 4 × List Byte)) 64 := .replicate 64 none
  flights : List Flight := []
  deriving DecidableEq, Repr

/-- What a commit snapshots (R375). -/
structure PhSnap where
  b0 : Bank
  taintG : Vector Bool 32
  taintC : Vector Bool 12
  taintT : Vector Bool 12
  pcq : PcQueue
  vis : Vis
  regs : CtlRegs
  epcolbase : BitVec 32
  mflags : FlagReg
  vflags : FlagReg
  pq : List (DWord × DWord)
  tok : Vector Nat 8
  nest : Option NestRun
  nestSaved : Vector (Option NestRun) 2
  liveSet : Vector (Vector (Option NestPlace) 16) 2
  play : Option Replay
  srcs : List (BitVec 48)
  deriving DecidableEq, Repr

/-- The carried marks of R376: one bit per unit, and of each queue how many of its oldest entries
are carried. -/
structure Carried where
  tile : BitVec 16 := 0
  acc : BitVec 4 := 0
  v : BitVec 24 := 0
  p : BitVec 16 := 0
  heap : Bool := false
  gen : Bool := false
  dq : Bool := false
  epi : BitVec 8 := 0
  bank : BitVec 8 := 0
  asc : Nat := 0
  bsc : Nat := 0
  xq : Nat := 0
  rq0 : Nat := 0
  rq1 : Nat := 0
  wsq : Nat := 0
  deriving DecidableEq, Repr

/-- Phases and rollback (R374 to R377): snapshot, carried marks, weight blocks and SCF batches
popped since the commit, whether a rollback is under way, the number of `.CK` steps since the commit,
the number and rows of the step whose failure caused the rollback (R187), and the error that caused it
(R377) with TICK at its detection (R380). The phase is irreversible when IRREV of a pair is set. -/
structure Phase where
  snap : Option PhSnap := none
  carried : Carried := {}
  popped : List WBlock := []
  poppedScf : List (Nat × List Byte) := []
  rollback : Bool := false
  ckSteps : Nat := 0
  ckFailed : Option (Nat × List Nat) := none
  error : Option (TrapRec × Nat) := none
  deriving DecidableEq, Repr

/-- What the handler saves on entering the user debug hook (R369), and what the hook leaves as the trap
found it (R371). -/
structure HookSave where
  b0 : Bank
  taintG : Vector Bool 32
  taintC : Vector Bool 12
  taintT : Vector Bool 12
  vis : Vis
  regs : CtlRegs
  queues : Vector (List QItem) 5
  q : Queues
  tok : Vector Nat 8
  vflags : FlagReg
  mx : Matrix
  vb : BitVec 4
  pb : BitVec 3
  slot : Vector (Option (BitVec 4 × List Byte)) 64
  phase : Phase
  jig : JigStore
  nestSaved : Vector (Option NestRun) 2
  liveSet : Vector (Vector (Option NestPlace) 16) 2
  sd : Option Stream
  hold : List HeldCopy
  deriving DecidableEq, Repr

/-- Why a gang stalls (R149). -/
inductive Delay where
  | beat | underrun | landing | refetch | rollback
  deriving DecidableEq, Repr

/-- The stall and stop of one core (R149, R254, R296, R326, R347): its own delays since the gang last
ran, the gang tick at which it stops for a stall, whether it stands stopped and since which die tick, the die
tick at which the resumption signal arrives, a stop requested by a trap elsewhere, or by firmware (its
gang tick, and the die tick by which a core whose gang tick stands takes it), the die
tick at which a plumb release reaches the core; `lateSlot` is the slot that a late LLAND has waited for since its delay
began (R294). -/
structure Stall where
  delays : List Delay := []
  stopAt : Option Nat := none
  stopped : Bool := false
  since : Nat := 0
  resumeAt : Option Nat := none
  companion : Option (BitVec 16 × Nat) := none
  preempt : Option (Nat × Nat) := none
  deferred : Option Nat := none
  pulse : Option Nat := none
  slip : BitVec 32 := 0
  lastPlumb : Option Nat := none
  lateSlot : Option (Fin 64) := none
  progress : Nat := 0
  deriving DecidableEq, Repr

/-- One core (R2, R5). -/
structure Core where
  id : CoreId
  tick : Nat := 0
  gtick : Nat := 0
  ctl : Ctl := {}
  vis : Vis := {}
  q : Queues := {}
  load : Eng := {}
  matrix : Eng := {}
  vector : Eng := {}
  copy : Eng := {}
  stream : Eng := {}
  tok : Vector Nat 8 := .replicate 8 0
  mx : Matrix := {}
  vec : Vec := {}
  sd : Option Stream := none
  land : Landing := {}
  cp : CopyEng := {}
  jig : JigStore := {}
  phase : Phase := {}
  hook : Option HookSave := none
  stall : Stall := {}
  bench : Mem := []
  store : Mem := []
  deriving DecidableEq, Repr

/-- An event of a queue that firmware has still to handle (R345): the completion, the fault or the debug event of a task, a kick, a
request to pre-empt a task, the timer of a reread (R332). -/
inductive QEvent where
  | complete (task : Nat)
  | abort (task : Nat)
  | debug (task : Nat)
  | kick (seq : BitVec 32)
  | preempt (task : Nat)
  | timer
  deriving DecidableEq, Repr

/-- A host queue of a tenant (R331 to R334, R337). -/
inductive QState where
  | idle | running | waiting | parked | error
  deriving DecidableEq, Repr

/-- A command queue of a tenant (R331). `pos` is its place in a fixed list, none at ring level, `calls`
the return positions (R337), `waitEv` the event its WAIT waits for, `launched` its tasks that have not
completed, `hold` the task whose start, or with W whose completion, the next entry waits for,
`dispatched` the ticks of the dies as its last LAUNCH was dispatched (R342), `events` the events that
wait for firmware, in the order in which they arrived (R345), `timer` the die tick at which the next reread falls
due (R332). -/
structure HostQueue where
  qbase : DWord := 0
  en : Bool := false
  order : Bool := false
  prio : BitVec 2 := 0
  log2n : BitVec 4 := 4
  kicked : BitVec 32 := 0
  next : BitVec 32 := 0
  state : QState := .idle
  err : BitVec 4 := 0
  cause : BitVec 6 := 0
  ovf : Bool := false
  qsave : DWord := 0
  pos : Option DWord := none
  calls : List (Option DWord) := []
  rereads : Nat := 0
  waitEv : Option (BitVec 16 × Bool) := none
  launched : List Nat := []
  hold : Option (Nat × Bool) := none
  dispatched : List Nat := []
  events : List QEvent := []
  timer : Option Nat := none
  deriving DecidableEq, Repr

/-- A tenant (R330, R383, R385, R343, R305): `bufs` are the batch buffers granted on each die (R285),
`served` the queue whose LAUNCH was served last (R346), `msix` the vectors of the messages sent, `reports`
what the host has been told of aborted tasks: SEQ, ECAUSE, EINFO, EADDR (R243, log 79), `debugs` of debug events, in the
same form (R358). -/
structure Tenant where
  live : Bool := false
  cores : List (Fin 128) := []
  home : Fin 4 := 0
  bufs : Vector Nat 4 := .replicate 4 0
  queues : Vector HostQueue 8 := .replicate 8 {}
  erbase : DWord := 0
  served : Fin 8 := 7
  eren : Bool := false
  erlog2n : BitVec 5 := 7
  erhead : BitVec 32 := 0
  ertail : BitVec 32 := 0
  erlost : BitVec 32 := 0
  msix : List Nat := []
  events : List Nat := []
  wingen : Nat := 0
  reports : List (BitVec 32 × BitVec 6 × DWord × VAddr) := []
  debugs : List (BitVec 32 × BitVec 6 × DWord × VAddr) := []
  deriving DecidableEq, Repr

/-- A loaded program slot (R28, R305, R392). -/
structure Slot where
  gen : Nat := 0
  image : Option SlotImage := none
  deriving DecidableEq, Repr

/-- The states of a task (R326, R327, R340, R341). -/
inductive TaskState where
  | waiting | running | stopping | saved | done | aborted | discarded
  deriving DecidableEq, Repr

/-- A task and its gang (R264 to R266, R336, R340 to R342, R348). `saved` holds the record of each
core of a pre-empted task, `img` the slot as it was loaded at launch (R305), `nosort` whether its queue
showed NOSORT at launch or its buffers were withheld at its start (R285, log 98), `debugged` whether the host has been told of the debug event that it stands stopped for
(R358), `late` what its START tick found (R342), `after` the interpreter's place after its LAUNCH: NEXT, place
in a fixed list, return positions (R334). -/
structure Task where
  id : Nat
  tn : Fin 16
  q : Fin 8
  seq : BitVec 32
  w : Bool
  f : LaunchFields
  gen : Nat
  gang : BitVec 16 := 0
  cores : List (Fin 128) := []
  state : TaskState := .waiting
  err : BitVec 4 := 0
  cause : BitVec 6 := 0
  einfo : DWord := 0
  eaddr : VAddr := 0
  saved : List Core := []
  img : Option SlotImage := none
  nosort : Bool := false
  debugged : Bool := false
  late : Option Bool := none
  after : BitVec 32 × Option DWord × List (Option DWord) := (1, none, [])
  deriving DecidableEq, Repr

/-- A module port (R387): next sequence number to send and to accept, unacknowledged flits, payloads
taken in order, retries of the oldest flit asked for and whether the last has gone out, failed retries of the next flit
to come and whether one is asked for, or is to be asked for, flits to send again, the flit put on the wire last, up or
down. -/
structure Port where
  txSeq : Nat := 0
  rxSeq : Nat := 0
  unacked : List (List Byte) := []
  got : List (List Byte) := []
  retries : Nat := 0
  resent : Bool := false
  failed : Nat := 0
  asked : Bool := false
  retryWanted : Bool := false
  resend : List (List Byte) := []
  wire : List Byte := []
  up : Bool := true
  deriving DecidableEq, Repr

/-- The stages of a die's boot (R389): powered down; in its ROM; in its ROM with an image accepted and
its keys derived, waiting for the trim record; trimmed, with firmware running. -/
inductive BootStage where
  | off | rom | firmware | trimmed
  deriving DecidableEq, Repr

/-- A die's own state: boot with the image window and its status word (R389), loft, window table (R363, listed entries), drift monitor
(R287). -/
structure Die where
  boot : BootStage := .rom
  failed : Nat := 0
  window : List Byte := []
  image : List Byte := []
  key : List Byte := []
  measured : List (List Byte) := []
  trim : List Byte := []
  loft : Mem := []
  win : List (Nat × BitVec 128) := []
  driftFwd : BitVec 32 := 0
  driftBack : BitVec 32 := 0
  exchanges : Nat := 0
  deriving DecidableEq, Repr

/-- Temperature states (R391). -/
inductive Thermal where
  | normal | warning | critical
  deriving DecidableEq, Repr

/-- An entry of the MSI-X table (R382), in the layout that MSI-X gives it (log 70). -/
structure MsixEntry where
  addr : DWord := 0
  data : Word := 0
  masked : Bool := true
  deriving DecidableEq, Repr

/-- A batch buffer in use (R285): its die, the tenant, the gang, the number of the gang's batch. -/
structure SortBuf where
  die : Fin 4
  tn : Fin 16
  gang : BitVec 16
  batch : Nat
  deriving DecidableEq, Repr

/-- The window entries that map a loaded slot of a tenant (R28, R392): the slot as it was loaded, the dies of its
shape, the entries' indices and contents. -/
structure SlotMap where
  tn : Fin 16
  slot : Fin 256
  dies : BitVec 4
  wins : List (Nat × BitVec 128)
  deriving DecidableEq, Repr

/-- What the package shares (R2, R388, R387, R389, R391, R330, R379, R285, R382): `hostRead` is the
value that the host's last register read returned (R331, R386). -/
structure Sys where
  die : Vector Die 4 := .replicate 4 {}
  hbm : Mem := []
  host : Mem := []
  peers : List (Fin 16 × BitVec 13 × DWord) := []
  ports : Vector Port 32 := .replicate 32 {}
  tenants : Vector Tenant 16 := .replicate 16 {}
  slots : List (Fin 256 × Slot) := []
  maps : List SlotMap := []
  tasks : List Task := []
  nextTask : Nat := 0
  nextGang : Nat := 1
  removed : List (Fin 128) := []
  bad : List (Space × Nat) := []
  linkRate : Nat := 128
  linkLanes : Nat := 16
  thermal : Thermal := .normal
  mlog : List (List Byte) := []
  report : List Byte := []
  poison : Bool := false
  hostRead : DWord := 0
  msix : Vector MsixEntry 64 := .replicate 64 {}
  pba : BitVec 64 := 0
  nosort : Bool := false
  sort : List SortBuf := []
  deriving DecidableEq, Repr

/-- Which agent acts next (log 1): the model's own field. -/
inductive Turn where
  | control
  | engine (e : Engine)
  | retire (e : Engine)
  | input
  | list (tn : Fin 16) (q : Fin 8)
  | swap (k : Nat)
  | timed
  deriving DecidableEq, Repr

/-- What befalls the machine from outside and is no row of the table (log 68): errors of memories
(R379), an error of an instruction cache, a checker's copy that comes out different (R145, R309), a byte
of the copy hold or of a tile that changes unseen (R184, R186), a memory beat that is late and its
coming (R149), a memory error that holds up a stream's next beat (R253), the host's writes of its own memory (R280), its accesses to the pages and the MSI-X
table (R331, R382, R386), reads through the debug interface (R36), and what firmware decides: a failed migration (R365), withheld batch buffers (R285),
a temperature below the warning (R391); and an RSEND of another module that times out before it is matched
(R356). -/
inductive Outside where
  | badBits (sp : Space) (a : Nat)
  | corrected (sp : Space) (a : Nat)
  | icache (c : Fin 128)
  | copyWord (c : Fin 128) (e : Engine) (k : Nat) (w : Word)
  | copyValue (c : Fin 128) (k : Nat) (v : DWord)
  | copyEntry (c : Fin 128)
  | holdByte (c : Fin 128) (k : Nat) (b : Byte)
  | tileByte (c : Fin 128) (k : Nat) (b : Byte)
  | lateBeat (c : Fin 128) (e : Engine)
  | slowBeat (c : Fin 128)
  | beatCame (c : Fin 128) (e : Engine)
  | hostWrite (a : Nat) (bs : List Byte)
  | pageRead (tn : Fin 16) (off : BitVec 16)
  | debugRead (c : Fin 128) (r : DbgReg)
  | msixWrite (v : Fin 64) (e : MsixEntry)
  | migrationFailed (die : Fin 4) (idx : Fin 3072)
  | withhold (b : Bool)
  | cooled
  | withdrawn (c : Fin 128) (peer : BitVec 13) (tag : BitVec 16) (k : Nat)
  deriving DecidableEq, Repr

/-- An act of the world outside: a row of the table, or what `Outside` lists. -/
inductive Input where
  | act (i : Instr)
  | other (x : Outside)
  deriving DecidableEq, Repr

/-- The machine. `turn`, `free` and `inputs` are the model's own (log 1): whose turn it is, the
counter that indexes the free values, and the acts of the world outside, oldest first. -/
structure State where
  core : Core
  others : List Core
  sys : Sys
  turn : Turn
  free : Nat
  inputs : List Input
  deriving DecidableEq, Repr

/-- The one fault. `noSuchHbm`: an access whose translation names HBM at an offset of 48 GiB or
more, which R363 says does not exist; raised by translation; safe, since the machine stops. -/
inductive Fault where
  | noSuchHbm (pa : Nat)
  deriving DecidableEq, Repr

/-- Refusals. `notModelled`: an instruction without a meaning, raised only by an arm of `exec`;
safe, since the machine stops. -/
inductive Refusal where
  | notModelled (mnemonic : String)
  deriving DecidableEq, Repr

/-- Answer of a meaning. -/
abbrev Out := Host.Outcome State Fault Refusal

/-- The k-th core of the package. -/
def CoreId.ofNat (k : Nat) : CoreId :=
  ⟨⟨k / 32 % 4, Nat.mod_lt _ (by decide)⟩, ⟨k % 32, Nat.mod_lt _ (by decide)⟩⟩

/-- A core at reset (R2, R8). -/
def Core.reset (k : Nat) : Core := { id := CoreId.ofNat k }

/-- The machine right after reset: every die in its boot ROM (R8, R389), no task. -/
def State.reset : State where
  core := Core.reset 0
  others := (List.range 127).map (fun k => Core.reset (k + 1))
  sys := {}
  turn := .control
  free := 0
  inputs := []

end Sys2Proof.Machine
end

