-- ==== Sys2Proof/Machine/Mem.lean ====
section
/-! DEFINITION. Memories, byte order and the four homes (R10, R47, R48, R267): reading and writing
bytes, and which memory of the state a home is. -/

namespace Sys2Proof.Machine

/-- The byte at an address; an unlisted address reads 0 (log 6). -/
def Mem.read (m : Mem) (a : Nat) : Byte :=
  match m.find? (fun c => c.1 == a) with
  | some c => c.2
  | none => 0

/-- The pairs that bytes from an address list: zero bytes are not listed. -/
def Mem.listed : Nat → List Byte → Mem
  | _, [] => []
  | a, b :: bs => if b = 0 then Mem.listed (a + 1) bs else (a, b) :: Mem.listed (a + 1) bs

/-- Bytes written at an address: everything below and above stays. -/
def Mem.write (m : Mem) (a : Nat) (bs : List Byte) : Mem :=
  m.filter (fun c => decide (c.1 < a)) ++ Mem.listed a bs
    ++ m.filter (fun c => decide (a + bs.length ≤ c.1))

/-- n bytes of a memory copied to an address of another. -/
def Mem.blit (m src : Mem) (a n dst : Nat) : Mem :=
  m.filter (fun c => decide (c.1 < dst))
    ++ (src.filter (fun c => decide (a ≤ c.1) && decide (c.1 < a + n))).map (fun c => (c.1 - a + dst, c.2))
    ++ m.filter (fun c => decide (dst + n ≤ c.1))

/-- The bytes of n addresses from a, read off a list that holds only addresses from a on. -/
def Mem.scan : Nat → Nat → Mem → List Byte
  | 0, _, _ => []
  | n + 1, a, [] => 0 :: Mem.scan n (a + 1) []
  | n + 1, a, (b, v) :: t =>
    if b = a then v :: Mem.scan n (a + 1) t else 0 :: Mem.scan n (a + 1) ((b, v) :: t)

/-- n bytes from an address. -/
def Mem.readN (m : Mem) (a n : Nat) : List Byte :=
  Mem.scan n a (m.filter (fun c => decide (a ≤ c.1) && decide (c.1 < a + n)))

/-- Little-endian value of bytes (R10). -/
def leNat : List Byte → Nat
  | [] => 0
  | b :: bs => b.toNat + 256 * leNat bs

/-- The n little-endian bytes of a value (R10). -/
def leBytes : Nat → Nat → List Byte
  | 0, _ => []
  | n + 1, v => BitVec.ofNat 8 v :: leBytes n (v / 256)

/-- Number of a core in the package. -/
def CoreId.num (c : CoreId) : Nat := c.die.val * 32 + c.idx.val

/-- The core with a number, the acting one or another. -/
def State.coreAt (s : State) (k : Nat) : Option Core :=
  if s.core.id.num = k then some s.core else s.others.find? (fun c => c.id.num == k)

/-- Change the core with a number. -/
def State.modCore (s : State) (k : Nat) (f : Core → Core) : State :=
  if s.core.id.num = k then { s with core := f s.core }
  else { s with others := s.others.map (fun c => if c.id.num = k then f c else c) }

/-- The memory of a home. -/
def State.mem (s : State) : Space → Mem
  | .bench k => match s.coreAt k with
    | some c => c.bench
    | none => []
  | .loft d => s.sys.die[d].loft
  | .hbm => s.sys.hbm
  | .host => s.sys.host
  | .hold _ => []
  | .slot _ => []
  | .jig _ => []
  | .store _ => []

/-- Change a die. -/
def State.modDie (s : State) (d : Fin 4) (f : Die → Die) : State :=
  { s with sys := { s.sys with die := s.sys.die.set d.val (f s.sys.die[d]) d.isLt } }

/-- Change the memory of a home. -/
def State.setMem (s : State) (sp : Space) (m : Mem) : State :=
  match sp with
  | .bench k => s.modCore k (fun c => { c with bench := m })
  | .loft d => s.modDie d (fun x => { x with loft := m })
  | .hbm => { s with sys := { s.sys with hbm := m } }
  | .host => { s with sys := { s.sys with host := m } }
  | .hold _ => s
  | .slot _ => s
  | .jig _ => s
  | .store _ => s

/-- Bytes at a home. -/
def State.readAt (s : State) (sp : Space) (off n : Nat) : List Byte := (s.mem sp).readN off n

/-- Locations that a write leaves correct again (R379). -/
def State.mend (s : State) (sp : Space) (off n : Nat) : State :=
  if s.sys.bad.isEmpty then s
  else { s with sys := { s.sys with bad := s.sys.bad.filter (fun b =>
    !(decide (b.1 = sp) && decide (off ≤ b.2) && decide (b.2 < off + n))) } }

/-- The locations of some pieces of a space are correct again. -/
def State.mendAll (s : State) (sp : Space) (l : List (Nat × Nat)) : State :=
  l.foldl (fun s p => s.mend sp p.1 p.2) s

/-- Write bytes at a home; a write leaves a location correct again (R379). -/
def State.writeAt (s : State) (sp : Space) (off : Nat) (bs : List Byte) : State :=
  (s.setMem sp ((s.mem sp).write off bs)).mend sp off bs.length

/-- n bytes of a home copied to another. -/
def State.blitAt (s : State) (src : Space) (a n : Nat) (dst : Space) (b : Nat) : State :=
  (s.setMem dst ((s.mem dst).blit (s.mem src) a n b)).mend dst b n

/-- Whether bytes hold an uncorrectable error (R379). -/
def State.badAt (s : State) (sp : Space) (off n : Nat) : Bool :=
  s.sys.bad.any (fun b => decide (b.1 = sp) && decide (off ≤ b.2) && decide (b.2 < off + n))

/-- Whether what bank 1 fetches at an address holds an uncorrectable error (R379). -/
def State.storeBad (s : State) (a : VAddr) (n : Nat) : Bool :=
  s.core.ctl.bank1 && s.badAt (.store s.core.id.num) a.toNat n

/-- WHERE of R378. -/
def Space.whereNum : Space → Nat
  | .bench _ => 0 | .loft _ => 1 | .hbm => 2 | .host => 3 | .hold _ => 4 | .slot _ => 5 | .jig _ => 0 | .store _ => 0

/-- Size of a bench (R5). -/
def benchSize : Nat := 0x600000
/-- Size of a loft (R2). -/
def loftSize : Nat := 0x7E00000

/-- The kinds of access (R359, R364). -/
inductive Acc where
  | read | write | atomic | fetch
  deriving DecidableEq, Repr

/-- ACC of R359. -/
def Acc.num : Acc → Nat
  | .read => 0 | .write => 1 | .atomic => 2 | .fetch => 3

/-- Who accesses (R267). -/
inductive Agent where
  | control | eng (e : Engine)
  deriving DecidableEq, Repr

/-- Engine field of an engine (R52). -/
def engNum : Engine → Nat
  | .load => 1 | .matrix => 2 | .vector => 3 | .copy => 4 | .stream => 5

/-- Engine field of an agent. -/
def Agent.num : Agent → Nat
  | .control => 0
  | .eng e => engNum e

/-- Why an access does not reach a home: a cause of R358, or HBM that does not exist. -/
inductive Bad where
  | trap (cause : Nat)
  | gone (pa : Nat)
  deriving DecidableEq, Repr

/-- Bits of a window-table entry (R363). -/
def winBits (e : BitVec 128) (lo n : Nat) : Nat := e.toNat / 2 ^ lo % 2 ^ n

/-- Whether an entry covers an address for a tenant (R364); a window is 2 MiB to 128 MiB (R363). -/
def winCovers (t : Fin 16) (v : Nat) (e : BitVec 128) : Bool :=
  let st := winBits e 0 2
  let b := winBits e 21 27 * 2 ^ 21
  (st == 1 || st == 2) && winBits e 6 4 == t.val && decide (b ≤ v)
    && decide (v < b + 2 ^ winBits e 11 5) && decide (21 ≤ winBits e 11 5) && decide (winBits e 11 5 ≤ 27)

/-- The PERM bit of a kind (R363, R364). -/
def permBit : Acc → Nat
  | .read => 2 | .write => 3 | .fetch => 4 | .atomic => 5

/-- The window table's look-up (R364); listed entries are in rising order of index. -/
def translate (s : State) (d : Fin 4) (t : Fin 16) (k : Acc) (v : Nat) : Except Bad (Space × Nat) :=
  match s.sys.die[d].win.find? (fun e => winCovers t v e.2) with
  | none => .error (.trap 0x04)
  | some e =>
    if winBits e.2 (permBit k) 1 = 0 then .error (.trap 0x06)
    else if winBits e.2 0 2 = 2 then .error (.trap 0x05)
    else
      let pa := winBits e.2 85 31 * 2 ^ 21 + v % 2 ^ winBits e.2 11 5
      if winBits e.2 64 1 = 1 then .ok (.host, pa)
      else if 48 * 2 ^ 30 ≤ pa % 2 ^ 36 ∨ 8 * 2 ^ 36 ≤ pa then .error (.gone pa)
      else .ok (.hbm, pa)

/-- Whether an agent may reach peer benches for a kind of access (R267, R268). -/
def peerOk : Agent → Acc → Bool
  | .control, .atomic => true
  | .eng .copy, _ => true
  | _, _ => false

/-- Where a bench offset lies when phase pairs exchange their halves (R374): CUR set means that
the lower addresses reach the upper half. -/
def phaseMap (v : Vis) (off : Nat) : Nat :=
  v.ph.toList.foldl (fun o p =>
    let b := p.base.toNat * 64
    let n := p.len.toNat * 64
    if p.cur && decide (b ≤ off) && decide (off < b + 2 * n) then
      (if off < b + n then off + n else off - n)
    else o) off

/-- Bench k at an offset, through the phase pairs of its core. -/
def State.benchAt (s : State) (k off : Nat) : Space × Nat :=
  match s.coreAt k with
  | some c => (.bench k, phaseMap c.vis off)
  | none => (.bench k, off)

/-- The home of an address for an agent of the acting core (R81, R85, R267, R268, R364). -/
def locate (s : State) (ag : Agent) (k : Acc) (v : Nat) : Except Bad (Space × Nat) :=
  let c := s.core
  if v < 0xFD0000000000 then translate s c.id.die c.ctl.regs.tenant k v
  else if v < 0xFD0020000000 then
    if !peerOk ag k then .error (.trap 0x02)
    else
      let off := v % 2 ^ 24
      if benchSize ≤ off then .error (.trap 0x04)
      else .ok (s.benchAt (c.id.die.val * 32 + (v - 0xFD0000000000) / 2 ^ 24) off)
  else if ag = .eng .stream then
    if (0xFE0000000000 ≤ v ∧ v < 0xFE0000000000 + loftSize)
      ∨ (0xFF0000000000 ≤ v ∧ v < 0xFF0000000000 + benchSize) then .error (.trap 0x02)
    else .error (.trap 0x04)
  else if 0xFE0000000000 ≤ v ∧ v < 0xFE0000000000 + loftSize then
    .ok (.loft c.id.die, v - 0xFE0000000000)
  else if 0xFF0000000000 ≤ v ∧ v < 0xFF0000000000 + benchSize then
    .ok (s.benchAt c.id.num (v - 0xFF0000000000))
  else .error (.trap 0x04)

/-- The watchpoints that an access of n bytes hits (R366, R367), lowest number first; one whose LOW lies above its HIGH
watches no byte. -/
def wpHits (v : Vis) (kind engBit : Nat) (a n : Nat) : List Nat :=
  if v.wpen = 0 then []
  else ((List.finRange 16).filter fun i =>
    let h := v.wph[i].toNat
    v.wpen.getLsbD i.val && decide (v.wpl[i].toNat ≤ h % 2 ^ 48) && decide (a ≤ h % 2 ^ 48) && decide (v.wpl[i].toNat < a + n)
      && h.testBit (48 + kind) && h.testBit (51 + engBit)).map (·.val)

/-- The engine bit of an engine in a watchpoint (R366): the control core has bit 0. EPSET and EPCON
reach memory as the load engine does and take its bit (R207; log 22). -/
def wpBit : Engine → Nat
  | .load => 1 | .matrix => 1 | .vector => 1 | .copy => 2 | .stream => 3

end Sys2Proof.Machine
end

