-- ==== Sys2Proof/Machine/Ops.lean ====
section
/-! DEFINITION. The shared operations of a core: register access with shadows (R12, R43), fetch
and the PC queue (R41, R392), ticks and turns, taking a trap (R14, R15, R35, R362), the shell every
control word issues through (R72, R73), and the memory accesses of the control core (R80, R85). -/

namespace Sys2Proof.Machine

/-! ### Updating a core -/

/-- Change the acting core. -/
def State.upd (s : State) (f : Core → Core) : State := { s with core := f s.core }
/-- Change its control core. -/
def State.updCtl (s : State) (f : Ctl → Ctl) : State :=
  { s with core := { s.core with ctl := f s.core.ctl } }
/-- Change its special registers. -/
def State.updRegs (s : State) (f : CtlRegs → CtlRegs) : State :=
  { s with core := { s.core with ctl := { s.core.ctl with regs := f s.core.ctl.regs } } }
/-- Change its queues. -/
def State.updQ (s : State) (f : Queues → Queues) : State :=
  { s with core := { s.core with q := f s.core.q } }
/-- Change its engine-visible registers. -/
def State.updVis (s : State) (f : Vis → Vis) : State :=
  { s with core := { s.core with vis := f s.core.vis } }
/-- Change its stall record. -/
def State.updStall (s : State) (f : Stall → Stall) : State :=
  { s with core := { s.core with stall := f s.core.stall } }

/-- The next free value below n (log 1, 8). -/
def State.pick (s : State) (n : Nat) : Nat × State :=
  (Config.freeNat s.free % n, { s with free := s.free + 1 })

/-! ### Turns and ticks -/

/-- The turn that a free value names (log 1). -/
def turnOf (k : Nat) : Turn :=
  let e : Nat → Engine := fun
    | 0 => .load | 1 => .matrix | 2 => .vector | 3 => .copy | _ => .stream
  match k % 8 with
  | 0 => .control
  | 1 => .control
  | 2 => .engine (e (k / 8 % 5))
  | 3 => .retire (e (k / 8 % 5))
  | 4 => .input
  | 5 => .list ⟨k / 8 % 16, Nat.mod_lt _ (by decide)⟩ ⟨k / 128 % 8, Nat.mod_lt _ (by decide)⟩
  | 6 => .swap (k / 8 % 127)
  | _ => .timed

/-- The act is over: a free value names the next turn (log 1). -/
def State.pass (s : State) : State :=
  { s with turn := turnOf (Config.freeNat s.free), free := s.free + 1 }

/-- Whether GTICK stands (R286): held at PLUMB or for an RFT, in bank 1 or a hook (R369), or with the gang stopped. -/
def Core.gheld (c : Core) : Bool :=
  c.stall.stopped || c.ctl.bank1 || c.ctl.regs.hook || (match c.ctl.arrival with
    | some (.plumb _ _ _) => true
    | some (.rft _ _) => true
    | _ => false)

/-- Whether a gang stop of firmware has reached the core (R326): its gang tick has come, or, where the gang tick
stands, as many die ticks have passed. -/
def Core.stopReached (c : Core) : Bool :=
  match c.stall.preempt with
  | some (t, k) => decide (t ≤ c.gtick) || (c.gheld && decide (k ≤ c.tick))
  | none => false

/-- Whether the core stands stopped for a stall: its die ticks are slip (R149, R296). A gang stop that has taken effect
adds none (R350). -/
def Core.slips (c : Core) : Bool := c.stall.stopped && !c.ctl.bank1 && !c.stopReached

/-- The removal tick of a block in stream ticks (R248, R261): after a resumption, counted from the
resume delay of the first block. -/
def Stream.tick (d : Stream) (i : Nat) : Nat :=
  let e (j : Nat) : RmEntry := d.table.getD j ⟨0, 0, 0⟩
  if d.first = 0 then (e i).t else (e d.first).rd + (e i).t - (e d.first).t

/-- A removal that has fallen due goes before a later beat (R252). -/
def Stream.removeDue (d : Stream) (c : Core) : Bool :=
  !d.reopen && decide (d.next < d.table.length) && decide (d.g0 + d.tick d.next ≤ c.gtick)

/-- Whether the block that the stream waits for is still incomplete (R254). -/
def Stream.starved (d : Stream) (c : Core) : Bool :=
  d.removeDue c && decide (d.next < d.granted)
    && decide (d.buf.length < (d.table.getD d.next ⟨0, 0, 0⟩).s)

/-- Whether the stream's own underrun or refetch goes on (R254, R256). -/
def Stream.ownDelay (d : Stream) (c : Core) : Bool :=
  (c.stall.delays.contains .underrun && d.starved c) || !d.refetch.isEmpty

/-- A die tick for which the stream's own underrun or refetch holds stream time (R259): it goes on, or it is over and
the resumption of the gang has been signalled (log 91). -/
def Stream.slipOn (c : Core) (d : Stream) : Stream :=
  if d.ownDelay c || (c.stall.resumeAt.isSome
      && (c.stall.delays.contains .underrun || c.stall.delays.contains .refetch)) then
    { d with slip := d.slip + 1 }
  else d

/-- One tick of the core (R286): TICK, GTICK unless it stands, slip while the gang stalls (R149, R259),
pending writes whose bound has passed (R12). -/
def Core.tickOn (c : Core) : Core :=
  { c with
    tick := c.tick + 1
    gtick := if c.gheld then c.gtick else c.gtick + 1
    stall := if c.slips then { c.stall with slip := c.stall.slip + 1 } else c.stall
    sd := if c.slips then c.sd.map (Stream.slipOn c) else c.sd
    ctl := { c.ctl with pend := c.ctl.pend.filter (fun p => decide (c.tick + 1 < p.due)) } }


/-- TICK of a die (R286): its cores count its clock together, so the least of their counts. -/
def State.dieTick (s : State) (d : Fin 4) : Nat :=
  let l := (s.core :: s.others).filter fun c => decide (c.id.die = d)
  match l with
  | [] => 0
  | c :: t => t.foldl (fun m x => min m x.tick) c.tick

/-- Whether the acting core may take the next tick of its die's clock: no other core of the die is
behind it (R9, R286). -/
def State.mayTick (s : State) : Bool :=
  s.others.all fun c => !decide (c.id.die = s.core.id.die) || decide (s.core.tick ≤ c.tick)

/-! ### General and steer registers -/

/-- The bank a word runs in (R72). -/
def Ctl.bank (c : Ctl) : Bank := if c.bank1 then c.b1 else c.b0
/-- Change the bank a word runs in. -/
def Ctl.setBank (c : Ctl) (f : Bank → Bank) : Ctl :=
  if c.bank1 then { c with b1 := f c.b1 } else { c with b0 := f c.b0 }

/-- The value that stands in a g register (R34): g0 reads zero. -/
def Core.g (c : Core) (r : Fin 32) : DWord := if r = 0 then 0 else c.ctl.bank.g[r]

/-- The older values that a read of a g register may still return (R12, R43). -/
def Core.olds (c : Core) (r : Fin 32) : List DWord :=
  (c.ctl.pend.filter (fun p => p.reg == r.val && decide (c.tick < p.due))).map (·.old)

/-- A read of a g register (R12, R43): inside a shadow, a free choice among the values that may
be returned (log 8). -/
def State.readG (s : State) (r : Fin 32) : DWord × State :=
  match s.core.olds r with
  | [] => (s.core.g r, s)
  | o :: os =>
    let (k, s') := s.pick (os.length + 2)
    ((o :: os)[k]?.getD (s.core.g r), s')

/-- Write a register of a vector of 32, or discard the write of g0 (R34). -/
def Bank.setG (b : Bank) (r : Fin 32) (v : DWord) : Bank :=
  if r = 0 then b else { b with g := b.g.set r.val v r.isLt }

/-- A write of a g register with its bound and taint (R12, R43, R69, R304). While an earlier write
of the register is in its shadow, both stay pending to the later of the two bounds. -/
def State.writeG (s : State) (r : Fin 32) (v : DWord) (bound : Nat) (taint : Bool) : State :=
  s.upd fun c =>
    let live := c.ctl.pend.filter (fun p => p.reg == r.val && decide (c.tick + 1 < p.due))
    let rest := c.ctl.pend.filter (fun p => !(p.reg == r.val))
    let due := live.foldl (fun m p => max m p.due) (c.tick + bound)
    let pend := if r = 0 then c.ctl.pend
      else if live.isEmpty && decide (bound ≤ 1) then rest
      else rest ++ live.map (fun p => { p with due := due }) ++ [⟨r.val, c.g r, due⟩]
    let ctl := c.ctl.setBank (fun b => b.setG r v)
    { c with ctl := { ctl with
        pend := pend
        taintG := if c.ctl.bank1 || r = 0 then ctl.taintG else ctl.taintG.set r.val taint r.isLt } }

/-- A write that an interlock makes the next word wait for (R44): the value stands at once and the
core awaits its landing. -/
def State.writeGLocked (s : State) (r : Fin 32) (v : DWord) (taint : Bool) : State :=
  (s.writeG r v 1 taint).updCtl fun c => { c with awaiting := true }

/-- The taint bit of a g register (R304); g0 is never tainted. -/
def State.taint (s : State) (r : Fin 32) : Bool := if r = 0 then false else s.core.ctl.taintG[r]

/-- A steer register (R36); numbers 12 to 15 name none and read as reset. -/
def Core.steer (c : Core) (r : Fin 16) : Steer :=
  if h : r.val < 12 then c.ctl.bank.s[r.val] else {}

/-- Write a steer register. -/
def State.setSteer (s : State) (r : Fin 16) (f : Steer → Steer) : State :=
  if h : r.val < 12 then
    s.updCtl fun c => c.setBank fun b => { b with s := b.s.set r.val (f b.s[r.val]) h }
  else s

/-- The taint bits of a steer register: condition and target (R304). -/
def State.taintS (s : State) (r : Fin 16) : Bool × Bool :=
  if h : r.val < 12 then (s.core.ctl.taintC[r.val], s.core.ctl.taintT[r.val]) else (false, false)

/-- Set the condition's taint bit; bank-1 words leave the bits (R304). -/
def State.setTaintC (s : State) (r : Fin 16) (t : Bool) : State :=
  if h : r.val < 12 then s.updCtl fun c =>
    if c.bank1 then c else { c with taintC := c.taintC.set r.val t h }
  else s
/-- Set the target's taint bit. -/
def State.setTaintT (s : State) (r : Fin 16) (t : Bool) : State :=
  if h : r.val < 12 then s.updCtl fun c =>
    if c.bank1 then c else { c with taintT := c.taintT.set r.val t h }
  else s

/-- A compare or steer-logic result: COND alone (R77, R78). -/
def State.writeCond (s : State) (r : Fin 16) (v taint : Bool) : State :=
  (s.setSteer r fun x => { x with cond := v }).setTaintC r taint

/-! ### Fetch and the PC queue -/

/-- The instruction word that fetch reads at an address (R361, R392): bank 0 from the slot's code
image, bank 1 from the system store. -/
def Core.fetch (c : Core) (a : VAddr) : Option Word :=
  if a.toNat % 4 ≠ 0 then none
  else if c.ctl.bank1 then
    if a.toNat + 4 ≤ 0x10000 then some (BitVec.ofNat 32 (leNat (c.store.readN a.toNat 4))) else none
  else
    let off := a.toNat - c.ctl.codeBase.toNat
    if c.ctl.codeBase.toNat ≤ a.toNat ∧ off + 4 ≤ c.ctl.code.length then
      some (BitVec.ofNat 32 (leNat ((c.ctl.code.drop off).take 4)))
    else none

/-- The 8 bytes that LDL reads (R46, R83). -/
def Core.literal (c : Core) (a : VAddr) : Option DWord :=
  match c.fetch a, c.fetch (a + 4) with
  | some lo, some hi => some (BitVec.ofNat 64 (lo.toNat + 2 ^ 32 * hi.toNat))
  | _, _ => none

/-- The step of the word at an address (R41, R104): 8 for a long form, past the skipped words for
LPOOL, past the body for NGO (log 20), otherwise 4. -/
def Core.stepOf (c : Core) (a : VAddr) : BitVec 48 :=
  match c.fetch a with
  | none => 4
  | some w =>
    let n := w.toNat
    if n / 2 ^ 29 = 0 then
      if fld n 23 6 = 0x20 then BitVec.ofNat 48 (4 + 4 * fld n 0 18)
      else if fld n 23 6 = 0x33 then BitVec.ofNat 48 (4 + 4 * fld n 1 12)
      else 4
    else if isLong n then 8 else 4

/-- One step of the PC queue (R41). -/
def Core.rotate (c : Core) : PcQueue :=
  let q := c.ctl.pcq
  { q0 := q.q1, q1 := q.q2, q2 := { addr := q.q2.addr + c.stepOf q.q2.addr } }

/-- The PC queue of a stream that starts at an address (R41). -/
def Core.queueAt (c : Core) (a : VAddr) : PcQueue :=
  let b := a + c.stepOf a
  { q0 := { addr := a }, q1 := { addr := b }, q2 := { addr := b + c.stepOf b } }

/-- The address of the word that issues (R56): a body word of a running nest, the JIG.PLAY of a
replay, otherwise the head of the PC queue. -/
def Core.nowAddr (c : Core) : VAddr :=
  match c.ctl.nest with
  | some r => r.addr + 4 + 4 * BitVec.ofNat 48 r.next
  | none => c.ctl.pcq.q0.addr

/-! ### Tokens (R54, R146) -/

/-- The FIFO an engine pushes into on its left or right: ring order load, matrix, vector, copy. -/
def fifoOut : Engine → Bool → Option (Fin 8)
  | .load, l => some (if l then 0 else 1)
  | .matrix, l => some (if l then 2 else 3)
  | .vector, l => some (if l then 4 else 5)
  | .copy, l => some (if l then 6 else 7)
  | .stream, _ => none

/-- The FIFO an engine pops from its left or right neighbour. -/
def fifoIn : Engine → Bool → Option (Fin 8)
  | .load, l => some (if l then 7 else 2)
  | .matrix, l => some (if l then 1 else 4)
  | .vector, l => some (if l then 3 else 6)
  | .copy, l => some (if l then 5 else 0)
  | .stream, _ => none

/-- Add one token to a FIFO. -/
def pushTok (t : Vector Nat 8) : Option (Fin 8) → Vector Nat 8
  | some i => t.set i.val (t[i] + 1) i.isLt
  | none => t

/-- Take one token from a FIFO. -/
def popTok (t : Vector Nat 8) : Option (Fin 8) → Vector Nat 8
  | some i => t.set i.val (t[i] - 1) i.isLt
  | none => t

/-- An engine of a core. -/
def Core.eng (c : Core) : Engine → Eng
  | .load => c.load | .matrix => c.matrix | .vector => c.vector | .copy => c.copy
  | .stream => c.stream

/-- Change an engine of a core. -/
def Core.setEng (c : Core) (e : Engine) (f : Eng → Eng) : Core :=
  match e with
  | .load => { c with load := f c.load }
  | .matrix => { c with matrix := f c.matrix }
  | .vector => { c with vector := f c.vector }
  | .copy => { c with copy := f c.copy }
  | .stream => { c with stream := f c.stream }

/-- The effects of one retirement (R144, R293): tokens, and the landing slot that empties. -/
def Core.retireOne (c : Core) (e : Engine) (w : Issued) : Core :=
  let t := if w.gl then pushTok c.tok (fifoOut e true) else c.tok
  let t := if w.gr then pushTok t (fifoOut e false) else t
  match w.frees with
  | none => { c with tok := t }
  | some (k, _) => { c with tok := t, land := { c.land with slot := c.land.slot.set k.val none k.isLt } }

/-- Whether an issued word waits for something besides its own work: a phase's release (R312), the
close of its batch (R323). -/
def Issued.waits (w : Issued) : Bool := w.hold.isSome || w.batch

/-- Whether an LLAND has not reached the tick of its retirement (R293). -/
def Issued.early (w : Issued) (tick : Nat) : Bool := w.frees.any fun x => decide (tick < x.2)

/-- Retire the issued words of an engine in queue order, up to one that waits (R144) or an LLAND whose
tick has not come (R293). -/
def Core.retireAll (c : Core) (e : Engine) : Core :=
  let go (w : Issued) : Bool := !w.waits && !w.early c.tick
  let d := ((c.eng e).issued.takeWhile go).foldl (fun c w => c.retireOne e w) c
  d.setEng e fun x => { x with issued := x.issued.dropWhile go }

/-- Issued words complete before a handler's first word (R14, R362); an SDOPEN that has not
retired is withdrawn, and a grant stays as it is (R215). -/
def Core.settle (c : Core) : Core :=
  let c := [Engine.load, .matrix, .vector, .copy].foldl Core.retireAll c
  let c := { c with vec := { c.vec with pendV := [], pendP := [] } }
  { c with stream := { c.stream with
      queue := match c.stream.queue with
        | .word e :: t => .word { e with started := false, due := 0 } :: t
        | q => q
      issued := c.stream.issued.filter (·.upto.isSome) } }

/-! ### Taking a trap -/

/-- The word a trap record reports in bits [63:32]. -/
def wordBits (i : Instr) : Nat :=
  match encode i with
  | some (w, _) => w * 2 ^ 32
  | none => 0

/-- The engine field of an instruction. -/
def engField (i : Instr) : Nat :=
  match encode i with
  | some (w, _) => w / 2 ^ 29
  | none => 0

/-- EINFO of cause 0x01 (R56). -/
def illegalInfo (i : Instr) (reason : Nat) : DWord :=
  BitVec.ofNat 64 (reason + engField i * 2 ^ 8 + wordBits i)

/-- EINFO of a word that decodes to no instruction (R56). -/
def badWordInfo (w : Word) (reason : BitVec 8) : DWord :=
  BitVec.ofNat 64 (reason.toNat + w.toNat / 2 ^ 29 * 2 ^ 8 + w.toNat * 2 ^ 32)

/-- EINFO of causes 0x02 to 0x06 (R359). -/
def accessInfo (i : Instr) (acc : Nat) : DWord :=
  BitVec.ofNat 64 (acc + engField i * 2 ^ 8 + wordBits i)

/-- Cause 0x01 at an address. -/
def illegal (i : Instr) (reason : Nat) (a : VAddr) (origin : Nat) : TrapRec :=
  { cause := 0x01, info := illegalInfo i reason, addr := a, origin := BitVec.ofNat 3 origin }

/-- Causes 0x02 to 0x06 (R359). -/
def access (cause : Nat) (i : Instr) (acc : Nat) (a : VAddr) (origin : Nat) : TrapRec :=
  { cause := BitVec.ofNat 6 cause, info := accessInfo i acc, addr := a
    origin := BitVec.ofNat 3 origin }

/-- Save the position of a running nest with its table (R108, R154). -/
def Core.saveNest (c : Core) : Core :=
  match c.ctl.nest with
  | none => c
  | some r =>
    let t := c.vis.nest[r.table]
    let lv := Vector.ofFn (n := 6) fun i =>
      { t.level[i] with cur := BitVec.ofNat 16 (r.cur.getD i.val 0) }
    let t := { t with level := lv, next := BitVec.ofNat 6 r.next, saved := true }
    { c with
      vis := { c.vis with nest := c.vis.nest.set r.table.val t r.table.isLt }
      ctl := { c.ctl with
        nest := none
        nestSaved := c.ctl.nestSaved.set r.table.val (some r) r.table.isLt } }

/-- Whether two cores belong to one gang (R266). -/
def sameGang (c d : Core) : Bool :=
  decide (d.ctl.regs.gang = c.ctl.regs.gang) && !decide (d.ctl.run = .idle)

/-- Whether the release of a re-plumb has reached a core that has still to leave its RFT (R112). -/
def Core.released (c : Core) : Bool :=
  match c.ctl.arrival with
  | some (.rft _ (some _)) => true
  | _ => false

/-- Ask every other core of the gang that runs, or has been released to run, to stop as a companion (R149, R362),
at the gang tick 8 after this one's. -/
def State.stopGang (s : State) : State :=
  let c := s.core
  let rank := BitVec.ofNat 16 c.ctl.regs.grank.toNat
  { s with others := s.others.map fun d =>
      if sameGang c d && decide (d.ctl.run = .running) && d.stall.companion.isNone
        && (!d.ctl.bank1 || d.released) then
        { d with stall := { d.stall with companion := some (rank, c.gtick + 8) } }
      else d }

/-- The task a core works for. -/
def State.taskOf (s : State) (c : Core) : Option Task :=
  s.sys.tasks.find? fun t => t.cores.any (fun k => k.val == c.id.num)
    && (decide (t.state = .running) || decide (t.state = .stopping))

/-- Change a task. -/
def State.modTask (s : State) (id : Nat) (f : Task → Task) : State :=
  { s with sys := { s.sys with tasks := s.sys.tasks.map fun t => if t.id = id then f t else t } }

/-- A double fault that a bank-1 word raises (R35): the core stops without changing either bank, the gang stops
with it and the abort is reported with cause 0x3F. Where several cores do so before firmware handles the abort, the last
one's EINFO is reported (log 102). -/
def doubleFault (cause : Nat) (w : Word) (s : State) : State :=
  let c := s.core
  let info := BitVec.ofNat 64 (cause + c.ctl.regs.ecause.toNat * 2 ^ 8 + w.toNat * 2 ^ 32)
  let s := (s.updCtl fun x => { x with run := .dead }).stopGang
  match s.taskOf c with
  | none => s
  | some t => s.modTask t.id fun t => { t with cause := 0x3F, einfo := info, eaddr := 0 }

/-- Whether a word goes on before a handler's first word once it has issued (R203, R215): LDQ, LLAND and MDRAIN, which
stop only for want of room (R216), and a product step. -/
def Entry.goesOn (x : Entry) : Bool :=
  x.held.isSome || match decode x.word.toNat (x.cont.map (·.toNat)) with
  | .ok (.ldq ..) => true
  | .ok (.lland ..) => true
  | .ok (.mdrain ..) => true
  | _ => false

/-- Whether an issued word that stands at a progress point of an engine goes on before a handler's first word
(R215). -/
def Core.settles (c : Core) (e : Engine) : Bool :=
  match (c.eng e).queue with
  | .word x :: _ => x.started && x.goesOn
  | _ => false

/-- Whether a word stands at the head of an engine's queue with progress saved and goes no further before the
handler's first word (R143, R361). -/
def Core.inParts (c : Core) : Bool :=
  [Engine.load, .matrix, .copy].any fun e => !c.settles e && (match (c.eng e).queue with
    | .word x :: _ => x.started
    | _ => false)

/-- An LGATH that a full queue stops reads its lanes again after RFT, by the indices it holds (R216). -/
def gathAgain (q : Queues) (x : Entry) : Entry :=
  match decode x.word.toNat (x.cont.map (·.toNat)) with
  | .ok (.lgath _ (.vq k) _ _) =>
    if x.prog = 63 ∧ 8 ≤ q.vq[k].length then { x with prog := 0, rows := [] } else x
  | _ => x

/-- The head of the load queue as a trap stops it. -/
def Eng.stopGath (q : Queues) (g : Eng) : Eng :=
  match g.queue with
  | .word x :: t => { g with queue := .word (gathAgain q x) :: t }
  | _ => g

/-- Enter bank 1 (R14, R15, R362): issued words complete, those that work in parts going on in their
engines before the handler's first word (`settling`, R215), the arrival is withdrawn, a companion's stop is no
longer due, the trap-state registers are written, fetch goes to TVEC. -/
def enterHandler (t : TrapRec) (s : State) : State :=
  s.upd fun c =>
    let c := c.saveNest.settle
    let c : Core := { c with load := c.load.stopGath c.q }
    let q := c.ctl.pcq
    let v : VAddr := BitVec.ofNat 48 (4 * c.ctl.regs.tvec.toNat)
    let h : Core := { c with ctl := { c.ctl with bank1 := true } }
    let b (x : Bool) : Nat := if x then 1 else 0
    { c with
      ctl := { c.ctl with
        bank1 := true
        settling := [Engine.load, .matrix].filter c.settles
        pend := []
        awaiting := false
        arrival := none
        posted := none
        pcq := h.queueAt v
        regs := { c.ctl.regs with
          ecause := t.cause
          einfo := t.info
          eaddr := t.addr
          epc0 := q.q0.addr, epc1 := q.q1.addr, epc2 := q.q2.addr
          enul := BitVec.ofNat 3 (b q.q0.nul + 2 * b q.q1.nul + 4 * b q.q2.nul)
          origin := t.origin
          wpskip := t.wpskip || c.ctl.regs.wpskip
          prog := t.prog || c.inParts } }
      stall := { c.stall with companion := none }
      jig := { c.jig with play := c.jig.play.map fun p => { p with live := false } } }

/-- Hold a cause 0x16 or 0x17 until bank 0 resumes (R35, R370): a second 0x16 is the same request (R350), each
0x17 is held (log 66). -/
def Ctl.hold (t : TrapRec) (c : Ctl) : Ctl :=
  if t.cause = 0x16 then { c with held16 := c.held16.or (some t) }
  else { c with held17 := c.held17 ++ [t] }

/-- The engine that an origin names (R361). -/
def originEng (o : Nat) : Option Engine :=
  match o with
  | 1 => some .load | 2 => some .matrix | 3 => some .vector | 4 => some .copy | 5 => some .stream
  | _ => none

/-- The word that a cause arises at: the head of the queue of its engine, or the control word (R359). -/
def Core.wordAt (c : Core) (o : Nat) : Word :=
  match originEng o with
  | some e => (match (c.eng e).queue with
    | .word x :: _ => x.word
    | _ => 0)
  | none => (c.fetch c.nowAddr).getD 0

/-- The word that a cause inside a hook arises at (R359): an illegal word names itself. -/
def Core.hookWord (c : Core) (t : TrapRec) : Nat :=
  if t.cause = 0x01 then t.info.toNat / 2 ^ 32 else (c.wordAt t.origin.toNat).toNat

/-- Cause 0x02 that another cause becomes inside a hook (R359, R370): WORD and ENG of the word. -/
def hookCause (c : Core) (t : TrapRec) : TrapRec :=
  let o := t.origin.toNat
  let w := c.hookWord t
  { t with
    cause := 0x02, addr := 0, wpskip := false
    info := BitVec.ofNat 64 (w * 2 ^ 32 + (if o = 0 then w / 2 ^ 29 else o) * 2 ^ 8) }

/-- Take a cause (R35, R362, R370). In bank 1, 0x16 and 0x17 are held and any other cause is a
double fault; where no word of the handler has raised it, EINFO[63:32] holds the word at the handler's place (log 102).
Inside a hook, 0x16 is held and any cause but 0x15 and 0x17 becomes 0x02. A cause
other than 0x16 stops the gang's other cores. -/
def takeTrap (t : TrapRec) (s : State) : State :=
  if s.core.ctl.bank1 then
    if t.cause = 0x16 ∨ t.cause = 0x17 then s.updCtl (Ctl.hold t)
    else doubleFault t.cause.toNat ((s.core.fetch s.core.nowAddr).getD 0) s
  else if s.core.ctl.regs.hook then
    if t.cause = 0x16 then s.updCtl (Ctl.hold t)
    else if t.cause = 0x15 ∨ t.cause = 0x17 then enterHandler t s
    else enterHandler (hookCause s.core t) s
  else
    let s := enterHandler t s
    if t.cause = 0x16 then s else s.stopGang

/-! ### Waiting ticks -/

/-- KIND of an entry (R300). -/
def entKind (e : BitVec 128) : Nat := e.toNat % 16
/-- A field of an entry. -/
def entBits (e : BitVec 128) (lo n : Nat) : Nat := e.toNat / 2 ^ lo % 2 ^ n
/-- Whether an entry is a stop (R300). -/
def isStop (e : BitVec 128) : Bool := entKind e == 4 || entKind e == 5

/-- The entry a replay stands at, past the stops (R303): the number of entries passed, and the
entry. -/
def nextEntry (es : List (BitVec 128)) (k : Nat) : Nat × Option (BitVec 128) :=
  let st := (es.drop k).takeWhile isStop
  (k + st.length, es[k + st.length]?)

/-- The gang tick at which the replay's next entry falls due (R263, R300). -/
def Core.playDue (c : Core) : Option Nat :=
  match c.jig.play with
  | none => none
  | some p =>
    if !p.live then none
    else match (nextEntry c.jig.jig[p.jig].entries p.next).2 with
      | none => some 0
      | some e => some (p.since + entBits e 4 16)

/-- Whether the control core waits at a word that something outside the core can end (R150). -/
def Core.waitsOutside (c : Core) : Bool :=
  c.ctl.arrival.isSome || (match c.fetch c.nowAddr with
    | none => false
    | some w => match decode w.toNat none with
      | .ok (.twait _) => true
      | .ok (.qpop _ .mbox) => true
      | .ok (.qpop _ .cq) => !c.cp.remote.isEmpty
      | _ => false)

/-- Whether the head of the load queue waits for a landing slot (R150, R294): an LLAND whose slot is empty. -/
def Core.waitsLanding (c : Core) : Bool :=
  match c.load.queue with
  | .word x :: _ => x.since.isSome && !x.started && (match decode x.word.toNat none with
    | .ok (.lland _ _ k) => c.land.slot[k].isNone
    | _ => false)
  | _ => false

/-- Whether issued words of an engine have work outstanding (R150): the oldest, unless it is a held
copy, behind which only a batch or a grant can be. -/
def Eng.outstanding (g : Eng) : Bool :=
  (match g.issued with
    | [] => false
    | w :: _ => w.hold.isNone)
  || g.issued.any (fun w => w.batch || w.upto.isSome)

/-- Whether the dead-stop count is held at 0 (R150). -/
def Core.deadHold (c : Core) : Bool :=
  c.stall.stopped || c.ctl.bank1 || c.waitsOutside || c.waitsLanding || !c.cp.remote.isEmpty
    || [Engine.load, .matrix, .vector, .copy, .stream].any fun e => (c.eng e).outstanding

/-- A tick in which no word issues, and the dead-stop count that goes with it (R150). -/
def Core.waitTick (c : Core) : Core :=
  let d := c.tickOn
  if c.deadHold then { d with stall := { d.stall with progress := d.tick } } else d

/-- A tick passes and the turn goes on. -/
def State.ticked (s : State) : State := (s.upd Core.waitTick).pass

/-! ### The shell of a control word -/

/-- What the body of a control word answers: issued with its effect,
issued with a change of the moved PC queue (a branch, R41), waiting, a trap before issue,
a next state of its own, a word that has met a silent error and stays (R377): its tick passes unless the
core has trapped, a trap after issue, or an access to HBM that does not exist. -/
inductive Res where
  | issue (s : State)
  | branch (s : State) (post : PcQueue → PcQueue)
  | wait (s : State)
  | trap (t : TrapRec)
  | raw (s : State)
  | stuck (s : State)
  | trapAfter (s : State) (t : TrapRec)
  | fault (f : Fault)

/-- The number of the first body word after position i whose entry fires is found by the nest's
own step (Nest.lean); here a finished body word moves one position on. -/
def NestRun.bump (r : NestRun) (k : Nat) : NestRun := { r with next := r.next + k }

/-- The live replay (R99, R307). -/
def Core.livePlay (c : Core) : Option Replay := c.jig.play.filter (·.live)

/-- The word that issued is passed (R41, R104, R301): a live replay goes to its next entry, a running
nest to its next position, otherwise the PC queue moves. -/
def State.advance (s : State) : State :=
  match s.core.livePlay with
  | some p => s.upd fun c => { c with jig := { c.jig with
      play := some { p with next := p.next + 1, since := c.gtick } } }
  | none =>
    match s.core.ctl.nest with
    | some r => s.updCtl fun c => { c with nest := some (r.bump 1) }
    | none => s.updCtl fun c => { c with pcq := s.core.rotate }

/-- The tick of a word that has issued (R41, R150); with SSTEP set a bank-0 word is followed by cause
0x17 (R372). -/
def ctlTick (s : State) : State :=
  let b1 := s.core.ctl.bank1
  let s := s.upd fun c => { (Core.tickOn c) with stall := { (Core.tickOn c).stall with
    progress := c.tick + 1 } }
  if s.core.ctl.regs.sstep && !b1 then
    (takeTrap { cause := 0x17, info := 1 } s).pass
  else s.pass

/-- The word has issued: the stream moves on and the tick passes (R41). `post` changes the moved PC
queue. -/
def ctlDoneWith (post : PcQueue → PcQueue) (s : State) : State :=
  ctlTick (s.advance.updCtl fun c => { c with pcq := post c.pcq })

/-- The word has issued and the stream moves on (R41). -/
def ctlDone (s : State) : State := ctlDoneWith id s

/-- A waiting word's first tick at issue, for a recording's DELTA (R300). -/
def State.noteReach (s : State) : State :=
  match s.core.jig.recording with
  | none => s
  | some r => match r.reach with
    | some _ => s
    | none => s.upd fun c => { c with jig := { c.jig with
        recording := some { r with reach := some c.gtick } } }

/-- A word has issued: the next waiting word starts afresh (R300). -/
def State.clearReach (s : State) : State :=
  match s.core.jig.recording with
  | none => s
  | some r => s.upd fun c => { c with jig := { c.jig with
      recording := some { r with reach := none } } }

/-- The control core's own exemption from watchpoint checks ends as the bank-0 word issues (R368); a handler's words
leave it. -/
def State.endSkip (s : State) : State :=
  if s.core.ctl.skipEpc && !s.core.ctl.bank1 then s.updCtl fun c => { c with skipEpc := false } else s

/-- Turn a body's answer into an outcome (R72, R73). -/
def finish (s0 : State) : Res → Out
  | .issue s => .next (ctlDone s.endSkip.clearReach)
  | .branch s post => .next (ctlDoneWith post s.endSkip.clearReach)
  | .wait s => .next s.noteReach.ticked
  | .trap t => .next (takeTrap t s0).pass
  | .raw s => .next s.pass
  | .stuck s => .next (if s.core.ctl.bank1 then s.pass else s.ticked)
  | .trapAfter s t => .next (takeTrap t (s.endSkip.clearReach.advance.upd Core.tickOn)).pass
  | .fault f => .fault f

/-- Cause 0x08 when SHADOW is set and a word reads a g register inside its shadow (R373). -/
def shadowTrap (s : State) (reads : List (Fin 32)) : Option TrapRec :=
  if s.core.ctl.regs.shadow then
    match reads.find? (fun r => !(s.core.olds r).isEmpty) with
    | some r => some { cause := 0x08, info := BitVec.ofNat 64 (r.val * 2 ^ 16) }
    | none => none
  else none

/-- A word that would issue with a register in its shadow takes 0x08 instead; a cause of a lower code, or
one of 0x11 to 0x13, is taken before it (R360). -/
def Res.shadowed (t : TrapRec) : Res → Res
  | .issue _ => .trap t
  | .branch _ _ => .trap t
  | .trapAfter _ _ => .trap t
  | .trap u => .trap (if 0x08 < u.cause.toNat && !(0x11 ≤ u.cause.toNat && u.cause.toNat ≤ 0x13) then t else u)
  | r => r

/-- Issue a control word: its body, and the shadow check of the registers it reads (R72, R373). -/
def ctlWord (reads : List (Fin 32)) (s : State) (body : State → Res) : Out :=
  match shadowTrap s reads with
  | some t => finish s ((body s).shadowed t)
  | none => finish s (body s)

/-- Issue a control word that a user debug hook refuses (R370). -/
def ctlNoHook (i : Instr) (reads : List (Fin 32)) (s : State) (body : State → Res) : Out :=
  if s.core.ctl.regs.hook && !s.core.ctl.bank1 then
    .next (takeTrap (access 0x02 i 0 0 0) s).pass
  else ctlWord reads s body

end Sys2Proof.Machine
end

