-- ==== Sys2Proof/Machine/Record.lean ====
section
/-! DEFINITION. Recording into a jig (R115, R299, R300, R304): entries, their DELTA, the room of the
store, and the causes that make a recording unreplayable. -/

namespace Sys2Proof.Machine

/-- Entries in use over the four jigs (R299). -/
def JigStore.used (j : JigStore) : Nat := (j.jig.toList.map fun x => x.entries.length).sum

/-- The recording in progress, if entries can still be made; a handler's words make none (R304). -/
def State.recordingOn (s : State) : Option Recording :=
  match s.core.jig.recording with
  | some r => if r.full || s.core.ctl.bank1 then none else some r
  | none => none

/-- The recording becomes unreplayable (R100, R304). -/
def State.unreplayable (s : State) : State :=
  match s.recordingOn with
  | none => s
  | some r => s.upd fun c => { c with jig := { c.jig with recording := some { r with unrep := true } } }

/-- Make the recording unreplayable when a condition holds. -/
def State.unreplayableIf (s : State) (b : Bool) : State := if b then s.unreplayable else s

/-- WAIT entries for a long gap (R300): a gap that is a multiple of 65,535 leaves a remainder of 65,535 (log 86). -/
def waitEntries (gap : Nat) : List (BitVec 128) :=
  List.replicate (gap / 65535 - (if gap % 65535 = 0 ∧ 0 < gap then 1 else 0))
    (BitVec.ofNat 128 (8 + 65535 * 16))

/-- The DELTA that is left after the WAIT entries. -/
def restDelta (gap : Nat) : Nat :=
  gap - 65535 * (gap / 65535 - (if gap % 65535 = 0 ∧ 0 < gap then 1 else 0))

/-- Where entry k of a jig stands in the core's jig store, for the errors of R379. -/
def jigPlace (j : Fin 4) (k : Nat) : Nat := j.val * 16384 + k

/-- Append entries to the recording jig, or end the recording when the store runs out (R299). An entry
whose checker's copy disagrees is not written (R309). -/
def State.appendEntries (s : State) (r : Recording) (es : List (BitVec 128)) : State :=
  (s.mend (.jig s.core.id.num) (jigPlace r.jig s.core.jig.jig[r.jig].entries.length) es.length).upd fun c =>
    if r.differs then { c with jig := { c.jig with
      recording := some { r with differs := false, since := c.gtick }, diverged := es.getLast? } }
    else if 16384 < c.jig.used + es.length then
      { c with jig := { c.jig with recording := some { r with full := true } } }
    else
      let j := c.jig.jig[r.jig]
      { c with jig := { c.jig with
          jig := c.jig.jig.set r.jig.val { j with entries := j.entries ++ es } r.jig.isLt
          recording := some { r with since := c.gtick } } }

/-- Record an entry at a gang tick, its bits without DELTA given (R300). -/
def State.recordAt (s : State) (at_ : Recording → Nat) (bits : Nat) : State :=
  match s.recordingOn with
  | none => s
  | some r =>
    let gap := at_ r - r.since
    s.appendEntries r (waitEntries gap ++ [BitVec.ofNat 128 (bits + restDelta gap * 16)])

/-- Record an entry whose word issues now (R300). -/
def State.record (s : State) (bits : Nat) : State := s.recordAt (fun _ => s.core.gtick) bits

/-- Record a stop, which has no DELTA (R300, R302). -/
def State.recordStop (s : State) (bits : Nat) : State :=
  match s.recordingOn with
  | none => s
  | some r =>
    let s' := s.appendEntries r [BitVec.ofNat 128 bits]
    match s'.core.jig.recording with
    | none => s'
    | some r' => s'.upd fun c => { c with jig := { c.jig with
        recording := some { r' with since := r.since } } }

/-- A VALUE entry (R300). -/
def State.recordValue (s : State) (sr : BitVec 12) (v : DWord) : State :=
  s.record (2 + sr.toNat * 2 ^ 20 + v.toNat * 2 ^ 64)

/-- A SHIM entry (R90, R300). -/
def State.recordShim (s : State) (sr : BitVec 12) (k : Fin 16) (off : DWord) : State :=
  s.record (3 + sr.toNat * 2 ^ 20 + k.val * 2 ^ 32 + off.toNat * 2 ^ 64)

/-- A SYNC entry (R300): OP and the control word; its DELTA runs to the tick at which the word reached
issue. -/
def State.recordSync (s : State) (op word : Nat) : State :=
  s.recordAt (fun r => r.reach.getD s.core.gtick) (6 + op * 2 ^ 20 + word * 2 ^ 32)

/-- An XQ entry (R300). -/
def State.recordXq (s : State) (v : DWord) : State := s.record (7 + v.toNat * 2 ^ 64)

/-- An ENGINE entry (R300). -/
def State.recordEngine (s : State) (w : Word) (c : Option Word) : State :=
  match c with
  | none => s.record (1 + w.toNat * 2 ^ 32)
  | some x => s.record (1 + 2 ^ 20 + w.toNat * 2 ^ 32 + x.toNat * 2 ^ 64)

/-- The engine-visible special registers (R88). -/
def engVisible (sr : BitVec 12) : Bool :=
  let n := sr.toNat
  (0x60 ≤ n && n ≤ 0x80) || (0x100 ≤ n && n ≤ 0x1FF) || (0x210 ≤ n && n ≤ 0x2A7)
    || (0x300 ≤ n && n ≤ 0x37F) || (0x3A0 ≤ n && n ≤ 0x3BF)

end Sys2Proof.Machine
end

