-- ==== Sys2Proof/Machine/Regs.lean ====
section
/-! DEFINITION. The special registers (R37, R38): assigned numbers, access rights by bank, and what
each reads and writes, from the tables of R37, R90, R136, R151, R154, R158, R161, R168, R178, R183,
R284, R288, R316, R361, R366, R372 and R374. -/

namespace Sys2Proof.Machine

/-- The assigned numbers (R38). -/
def srAssigned (n : Nat) : Bool :=
  n ≤ 0x006 || (0x008 ≤ n && n ≤ 0x00A) || (0x020 ≤ n && n ≤ 0x029) || (0x040 ≤ n && n ≤ 0x04F)
    || (0x060 ≤ n && n ≤ 0x080) || (0x100 ≤ n && n ≤ 0x20F) || (0x210 ≤ n && n ≤ 0x257)
    || (0x260 ≤ n && n ≤ 0x2A7) || (0x300 ≤ n && n ≤ 0x304) || (0x310 ≤ n && n ≤ 0x312)
    || (0x320 ≤ n && n ≤ 0x324) || (0x340 ≤ n && n ≤ 0x342) || (0x360 ≤ n && n ≤ 0x36F)
    || n == 0x380 || (0x3A0 ≤ n && n ≤ 0x3BF)

/-- The numbers bank 0 may not read (R37). -/
def srBank1Only (n : Nat) : Bool := 0x020 ≤ n && n ≤ 0x028

/-- The numbers that are read-only in bank 0 but writable in bank 1 (R90, R154, R158, R161, R168,
R183, R288, R316, R372, R374). -/
def srReadOnly0 (n : Nat) : Bool :=
  (0x040 ≤ n && n ≤ 0x04F) || (0x200 ≤ n && n ≤ 0x20F) || n == 0x217 || n == 0x267
    || n == 0x301 || n == 0x311 || n == 0x312 || n == 0x321 || n == 0x323 || n == 0x324
    || n == 0x341 || n == 0x342 || n == 0x380
    || (0x3A0 ≤ n && n ≤ 0x3BF && n % 4 == 3)

/-- The 64-bit image of a steer register (R36). -/
def Steer.image (x : Steer) : DWord :=
  BitVec.ofNat 64 ((if x.cond then 2 ^ 63 else 0) + (if x.valid then 2 ^ 62 else 0) + x.target.toNat * 4)

/-- Whether a read is allowed in a bank (R37). -/
def srMayRead (bank1 : Bool) (n : Nat) : Bool := bank1 || !srBank1Only n

/-- Whether a write is allowed in a bank (R37): 0x000 to 0x01F never. -/
def srMayWrite (bank1 : Bool) (n : Nat) : Bool :=
  if n < 0x020 then false else bank1 || !(srBank1Only n || srReadOnly0 n)

/-- Bits of a value. -/
def bitsOf (v : DWord) (lo n : Nat) : Nat := v.toNat / 2 ^ lo % 2 ^ n

/-- A flag register's image (R136). -/
def FlagReg.image (f : FlagReg) : DWord := BitVec.ofNat 64 (f.bits.toNat + f.nanc.toNat * 2 ^ 16)
/-- A flag register from an image (R87, R136). -/
def FlagReg.ofImage (v : DWord) : FlagReg :=
  { bits := BitVec.ofNat 5 v.toNat, nanc := BitVec.ofNat 32 (bitsOf v 16 32) }

/-- A field of a stream register (R151). -/
def StReg.field (s : StReg) (o : Nat) : DWord :=
  match o with
  | 0 => s.base.zeroExtend 64
  | 1 => s.rsel.zeroExtend 64
  | 2 => s.fmt.zeroExtend 64
  | 3 => s.rows.zeroExtend 64
  | 4 => s.rbytes.zeroExtend 64
  | 5 => s.pitch.zeroExtend 64
  | 6 => s.sbase.zeroExtend 64
  | 7 => s.sstride.zeroExtend 64
  | 8 => s.cls.zeroExtend 64
  | 15 => s.live.zeroExtend 64
  | k => (s.step.toList.getD (k - 9) 0).zeroExtend 64

/-- Write a field of a stream register (R151). -/
def StReg.setField (s : StReg) (o : Nat) (v : DWord) : StReg :=
  match o with
  | 0 => { s with base := v.truncate 48 }
  | 1 => { s with rsel := v.truncate 5 }
  | 2 => { s with fmt := v.truncate 4 }
  | 3 => { s with rows := v.truncate 16 }
  | 4 => { s with rbytes := v.truncate 24 }
  | 5 => { s with pitch := v.truncate 32 }
  | 6 => { s with sbase := v.truncate 48 }
  | 7 => { s with sstride := v.truncate 32 }
  | 8 => { s with cls := v.truncate 4 }
  | 15 => { s with live := v.truncate 48 }
  | k => if h : k - 9 < 6 then { s with step := s.step.set (k - 9) (v.truncate 32) h } else s

/-- A register of a nest table, by its offset from the table's first number (R154). -/
def NestTab.field (t : NestTab) (o : Nat) : DWord :=
  let b (x : Bool) : Nat := if x then 1 else 0
  if o = 0 then BitVec.ofNat 64 (t.lead.toNat + 8 * b t.rot)
  else if h : o - 1 < 6 then
    let l := t.level[o - 1]
    BitVec.ofNat 64 (l.trips.toNat + l.smask.toNat * 2 ^ 16 + l.da.toNat * 2 ^ 32
      + l.dacc.toNat * 2 ^ 36 + l.dk.toNat * 2 ^ 40 + l.cur.toNat * 2 ^ 48)
  else if o = 7 then BitVec.ofNat 64 (t.next.toNat + 64 * b t.saved)
  else if h : o - 8 < 64 then
    BitVec.ofNat 64 (t.body[o - 8].1.toNat + 4 * t.body[o - 8].2.toNat)
  else 0

/-- Write a register of a nest table (R154); CUR and NPOS are written in bank 1 only. -/
def NestTab.setField (t : NestTab) (bank1 : Bool) (o : Nat) (v : DWord) : NestTab :=
  if o = 0 then { t with lead := v.truncate 3, rot := bitsOf v 3 1 == 1 }
  else if h : o - 1 < 6 then
    let l : Level := {
      trips := v.truncate 16, smask := BitVec.ofNat 16 (bitsOf v 16 16)
      da := BitVec.ofNat 4 (bitsOf v 32 4), dacc := BitVec.ofNat 2 (bitsOf v 36 2)
      dk := BitVec.ofNat 8 (bitsOf v 40 8)
      cur := if bank1 then BitVec.ofNat 16 (bitsOf v 48 16) else t.level[o - 1].cur }
    { t with level := t.level.set (o - 1) l h }
  else if o = 7 then
    if bank1 then { t with next := v.truncate 6, saved := bitsOf v 6 1 == 1 } else t
  else if h : o - 8 < 64 then
    { t with body := t.body.set (o - 8) (v.truncate 2, BitVec.ofNat 3 (bitsOf v 2 3)) h }
  else t

/-- CKTOL's image (R183). -/
def cktolImage (t : Vector (BitVec 6) 8) : DWord :=
  BitVec.ofNat 64 ((List.finRange 8).foldl (fun a i => a + t[i].toNat * 2 ^ (8 * i.val)) 0)

/-- A register of a phase pair (R374). -/
def PhPair.field (p : PhPair) (o : Nat) : DWord :=
  let b (x : Bool) : Nat := if x then 1 else 0
  match o with
  | 0 => BitVec.ofNat 64 (p.base.toNat * 64)
  | 1 => BitVec.ofNat 64 (p.len.toNat * 64)
  | 2 => p.src.zeroExtend 64
  | _ => BitVec.ofNat 64 (b p.cur + 2 * b p.irrev)

/-- Write a register of a phase pair (R374). -/
def PhPair.setField (p : PhPair) (o : Nat) (v : DWord) : PhPair :=
  match o with
  | 0 => { p with base := BitVec.ofNat 17 (bitsOf v 6 17) }
  | 1 => { p with len := BitVec.ofNat 17 (bitsOf v 6 17) }
  | 2 => { p with src := v.truncate 48 }
  | _ => { p with cur := bitsOf v 0 1 == 1, irrev := bitsOf v 1 1 == 1 }

/-- A tile shape's image (R168). -/
def Shape.image (x : Shape) : DWord :=
  BitVec.ofNat 64 (x.fmt.toNat + x.rows.toNat * 16 + x.elems.toNat * 2 ^ 12)

/-- ESTAT's image (R361). -/
def CtlRegs.estat (r : CtlRegs) : DWord :=
  let b (x : Bool) : Nat := if x then 1 else 0
  BitVec.ofNat 64 (r.origin.toNat + 8 * b r.wpskip + 16 * b r.hook + 32 * b r.prog
    + 64 * b r.retried)

/-- Element i of a vector whose bound the reader checks. -/
def vget {α : Type} {n : Nat} (v : Vector α n) (i : Nat) (d : α) : α := v.toList.getD i d
/-- Set element i of a vector, if there is one. -/
def vset {α : Type} {n : Nat} (v : Vector α n) (i : Nat) (x : α) : Vector α n :=
  if h : i < n then v.set i x h else v

/-- Trap-state registers and UHVEC (R361). -/
def readTrapReg (r : CtlRegs) (n : Nat) : DWord :=
  match n with
  | 0x020 => BitVec.ofNat 64 (4 * r.tvec.toNat)
  | 0x021 => r.ecause.zeroExtend 64
  | 0x022 => r.einfo
  | 0x023 => r.eaddr.zeroExtend 64
  | 0x024 => r.epc0.zeroExtend 64
  | 0x025 => r.epc1.zeroExtend 64
  | 0x026 => r.epc2.zeroExtend 64
  | 0x027 => r.enul.zeroExtend 64
  | 0x028 => r.estat
  | _ => BitVec.ofNat 64 ((if r.uhen then 1 else 0) + 4 * r.uhaddr.toNat)

/-- Write a trap-state register or UHVEC (R361); ORIGIN, PROG and RETRIED are read-only. -/
def writeTrapReg (r : CtlRegs) (n : Nat) (v : DWord) : CtlRegs :=
  match n with
  | 0x020 => { r with tvec := BitVec.ofNat 14 (bitsOf v 2 14) }
  | 0x021 => { r with ecause := v.truncate 6 }
  | 0x022 => { r with einfo := v }
  | 0x023 => { r with eaddr := v.truncate 48 }
  | 0x024 => { r with epc0 := v.truncate 48 }
  | 0x025 => { r with epc1 := v.truncate 48 }
  | 0x026 => { r with epc2 := v.truncate 48 }
  | 0x027 => { r with enul := v.truncate 3 }
  | 0x028 => { r with wpskip := bitsOf v 3 1 == 1, hook := bitsOf v 4 1 == 1 }
  | _ => { r with uhen := bitsOf v 0 1 == 1, uhaddr := BitVec.ofNat 46 (bitsOf v 2 46) }

/-- The registers from 0x300 on (R136, R158, R161, R178, R183, R284, R288, R316, R372, R374). -/
def Core.readHigh (c : Core) (n : Nat) : DWord :=
  match n with
  | 0x300 => c.mx.epcolbase.zeroExtend 64
  | 0x301 => c.mx.heapk.zeroExtend 64
  | 0x302 => c.mx.mflags.image
  | 0x303 => cktolImage c.vis.cktol
  | 0x304 => c.vis.mrctl.zeroExtend 64
  | 0x310 => c.vec.vflags.image
  | 0x311 => BitVec.ofNat 64 (c.vec.vb.toNat + 16 * c.vec.pb.toNat)
  | 0x312 => BitVec.ofNat 64 c.q.dq.length
  | 0x320 => c.vis.tbase
  | 0x321 => c.vis.plumbmax.zeroExtend 64
  | 0x322 => c.vis.guardW.zeroExtend 64
  | 0x323 => BitVec.ofNat 64 (c.vis.sliplim.toNat + c.stall.slip.toNat * 2 ^ 32)
  | 0x324 => BitVec.ofNat 64 (if c.vis.strict then 1 else 0)
  | 0x340 => c.vis.rto.zeroExtend 64
  | 0x341 => c.vis.peerbase.zeroExtend 64
  | 0x342 => c.vis.peern.zeroExtend 64
  | 0x380 => BitVec.ofNat 64 ((if c.ctl.regs.shadow then 1 else 0)
      + 2 * (if c.ctl.regs.sstep then 1 else 0))
  | _ =>
    if n < 0x380 then (vget c.vis.ascale (n - 0x360) 0).zeroExtend 64
    else (vget c.vis.ph ((n - 0x3A0) / 4) {}).field (n % 4)

/-- What a special register reads (R37, R38); DRIFT is the die's (R287). -/
def State.readSR (s : State) (n : Nat) : DWord :=
  let c := s.core
  let r := c.ctl.regs
  if n < 0x020 then
    match n with
    | 0x000 => BitVec.ofNat 64 c.id.idx.val
    | 0x001 => BitVec.ofNat 64 c.id.die.val
    | 0x002 => r.gang.zeroExtend 64
    | 0x003 => r.grank
    | 0x004 => r.gsize
    | 0x005 => BitVec.ofNat 64 r.tenant.val
    | 0x006 => r.task.zeroExtend 64
    | 0x008 => BitVec.ofNat 64 c.tick
    | 0x009 => BitVec.ofNat 64 c.gtick
    | _ =>
      let d := s.sys.die[c.id.die]
      BitVec.ofNat 64 (d.driftFwd.toNat + d.driftBack.toNat * 2 ^ 32)
  else if n < 0x040 then readTrapReg r n
  else if n < 0x060 then vget r.rel (n - 0x040) 0
  else if n < 0x070 then (vget c.vis.wpl (n - 0x060) 0).zeroExtend 64
  else if n < 0x080 then (vget c.vis.wph (n - 0x070) 0).zeroExtend 64
  else if n < 0x100 then BitVec.ofNat 64 (c.vis.wpen.toNat + r.wphit.toNat * 2 ^ 16)
  else if n < 0x200 then (vget c.vis.st ((n - 0x100) / 16) {}).field (n % 16)
  else if n < 0x210 then (vget c.mx.shape (n - 0x200) {}).image
  else if n < 0x260 then c.vis.nest[0].field (n - 0x210)
  else if n < 0x300 then c.vis.nest[1].field (n - 0x260)
  else c.readHigh n

/-- Write one of the registers from 0x300 on. A bank-1 write of HEAPK below the entries held, or of a value outside 1 to
64, keeps the entries (log 69). -/
def Core.writeHigh (c : Core) (n : Nat) (v : DWord) : Core :=
  match n with
  | 0x300 => { c with mx := { c.mx with epcolbase := v.truncate 32 } }
  | 0x301 => { c with mx := { c.mx with heapk := v.truncate 7 } }
  | 0x302 => { c with mx := { c.mx with mflags := FlagReg.ofImage v } }
  | 0x303 => { c with vis := { c.vis with
      cktol := Vector.ofFn fun i => BitVec.ofNat 6 (bitsOf v (8 * i.val) 6) } }
  | 0x304 => { c with vis := { c.vis with mrctl := v.truncate 26 } }
  | 0x310 => { c with vec := { c.vec with vflags := FlagReg.ofImage v } }
  | 0x311 => { c with vec := { c.vec with vb := v.truncate 4, pb := BitVec.ofNat 3 (bitsOf v 4 3) } }
  | 0x312 => -- the entries that a bank-1 write of COUNT leaves are the model's choice (log 69)
    let k := min (bitsOf v 0 13) 4096
    { c with q := { c.q with dq := (c.q.dq ++ List.replicate k (0, 0, 0)).take k } }
  | 0x320 => { c with vis := { c.vis with tbase := v } }
  | 0x321 => { c with vis := { c.vis with plumbmax := v.truncate 32 } }
  | 0x322 => { c with vis := { c.vis with guardW := v.truncate 16 } }
  | 0x323 => { c with vis := { c.vis with sliplim := v.truncate 32 } }
  | 0x324 => { c with vis := { c.vis with strict := bitsOf v 0 1 == 1 } }
  | 0x340 => { c with vis := { c.vis with rto := v.truncate 32 } }
  | 0x341 => { c with vis := { c.vis with peerbase := v.truncate 13 } }
  | 0x342 => { c with vis := { c.vis with peern := v.truncate 14 } }
  | 0x380 => { c with ctl := { c.ctl with regs := { c.ctl.regs with
      shadow := bitsOf v 0 1 == 1, sstep := bitsOf v 1 1 == 1 } } }
  | _ =>
    if n < 0x380 then { c with vis := { c.vis with
      ascale := vset c.vis.ascale (n - 0x360) (v.truncate 8) } }
    else
      let i := (n - 0x3A0) / 4
      { c with vis := { c.vis with
        ph := vset c.vis.ph i ((vget c.vis.ph i {}).setField (n % 4) v) } }

/-- What writing a special register does (R87): each defined field from the same bits. -/
def Core.writeSR (c : Core) (bank1 : Bool) (n : Nat) (v : DWord) : Core :=
  let regs (f : CtlRegs → CtlRegs) : Core := { c with ctl := { c.ctl with regs := f c.ctl.regs } }
  if n < 0x020 then c
  else if n < 0x040 then regs fun r => writeTrapReg r n v
  else if n < 0x060 then regs fun r => { r with rel := vset r.rel (n - 0x040) v }
  else if n < 0x070 then { c with vis := { c.vis with
    wpl := vset c.vis.wpl (n - 0x060) (v.truncate 48) } }
  else if n < 0x080 then { c with vis := { c.vis with
    wph := vset c.vis.wph (n - 0x070) (v.truncate 55) } }
  else if n < 0x100 then
    { (regs fun r => { r with wphit := BitVec.ofNat 16 (bitsOf v 16 16) }) with
      vis := { c.vis with wpen := v.truncate 16 } }
  else if n < 0x200 then
    let i := (n - 0x100) / 16
    { c with vis := { c.vis with
      st := vset c.vis.st i ((vget c.vis.st i {}).setField (n % 16) v) } }
  else if n < 0x210 then { c with mx := { c.mx with
    shape := vset c.mx.shape (n - 0x200)
      { fmt := v.truncate 4, rows := BitVec.ofNat 7 (bitsOf v 4 7)
        elems := BitVec.ofNat 10 (bitsOf v 12 10) } } }
  else if n < 0x260 then { c with vis := { c.vis with
    nest := c.vis.nest.set 0 (c.vis.nest[0].setField bank1 (n - 0x210) v) } }
  else if n < 0x300 then { c with vis := { c.vis with
    nest := c.vis.nest.set 1 (c.vis.nest[1].setField bank1 (n - 0x260) v) } }
  else c.writeHigh n v

/-- The engine that writes a register in its queue order (R89): a write takes its place there. -/
def srQueue (n : Nat) : Option Engine :=
  match n with
  | 0x300 => some .matrix
  | 0x301 => some .matrix
  | 0x302 => some .matrix
  | 0x310 => some .vector
  | 0x311 => some .vector
  | 0x312 => some .vector
  | _ => none

/-! ### Places of a nest (R104, R105) -/

/-- The place of the next control word. -/
def NestRun.place (r : NestRun) : NestPlace := ⟨r.iter, r.cur, r.next⟩

/-- Whether a place comes before another in body order, iteration by iteration. -/
def NestPlace.before (p q : NestPlace) : Bool :=
  decide (p.iter < q.iter) || (decide (p.iter = q.iter) && decide (p.next < q.next))

/-- The place from which engine words are still to be pushed (R105). -/
def NestRun.pushPlace (r : NestRun) : NestPlace :=
  match r.ahead with
  | some p => if p.before r.place then r.place else p
  | none => r.place

/-- A write of LIVE of a stream register is noted with each table's running or saved nest: the place up to which words
have been pushed (R153, R157). -/
def Ctl.noteLive (n : Nat) (c : Ctl) : Ctl :=
  if 0x100 ≤ n ∧ n < 0x200 ∧ n % 16 = 15 then
    let at_ (k : Fin 2) : Option NestPlace :=
      ((c.nest.filter fun r => decide (r.table = k)).or c.nestSaved[k]).map NestRun.pushPlace
    { c with liveSet := Vector.ofFn fun k => vset c.liveSet[k] ((n - 0x100) / 16) (at_ k) }
  else c

/-- A write in program order: a register kept in an engine's queue order takes its place in that
queue, unless every earlier word of the engine has issued (R88, R117, R138). -/
def State.writeSR (s : State) (n : Nat) (v : DWord) : State :=
  let b1 := s.core.ctl.bank1
  match srQueue n with
  | none => (s.upd fun c => c.writeSR b1 n v).updCtl (Ctl.noteLive n)
  | some e =>
    if (s.core.eng e).queue.isEmpty then s.upd fun c => c.writeSR b1 n v
    else s.upd fun c => c.setEng e fun x => { x with queue := x.queue ++ [.reg (BitVec.ofNat 12 n) v] }

/-- The engines whose words an MFS waits for (R89, R167). -/
def srWaits (n : Nat) : List Engine :=
  if n == 0x300 || n == 0x301 || n == 0x302 then [.matrix]
  else if 0x310 ≤ n && n ≤ 0x312 then [.vector]
  else if 0x200 ≤ n && n ≤ 0x20F then [.load, .matrix]
  else []

/-- Whether every word pushed to an engine has completed (R109, R89). -/
def Core.engIdle (c : Core) (e : Engine) : Bool :=
  (c.eng e).queue.isEmpty && (c.eng e).issued.isEmpty

/-- Apply the register writes that stand at the head of an engine's queue (R88): those of the registers that the engine
writes in its queue order (R89). -/
def Core.flushRegs (c : Core) (e : Engine) : Core :=
  let go : List QItem → Core → Core := fun l c => l.foldl (fun c i =>
    match i with
    | .reg sr v => if srQueue sr.toNat = some e then c.writeSR true sr.toNat v else c
    | .word _ => c) c
  let isReg : QItem → Bool := fun
    | .reg _ _ => true
    | .word _ => false
  let c := go ((c.eng e).queue.takeWhile isReg) c
  c.setEng e fun x => { x with queue := x.queue.dropWhile isReg }

end Sys2Proof.Machine
end

