-- ==== Sys2Proof/Machine/Alu.lean ====
section
/-! DEFINITION. Register arithmetic, immediate forms, compares and steer logic (R74 to R78). -/

namespace Sys2Proof.Machine

/-! ### The functions -/

/-- Shift amount (R74): taken mod 64. -/
def shamt (y : DWord) : Nat := y.toNat % 64
/-- Signed division (R74, R75). -/
def divS (x y : DWord) : DWord := if y = 0 then BitVec.allOnes 64 else x.sdiv y
/-- Unsigned division (R74, R75). -/
def divU (x y : DWord) : DWord := if y = 0 then BitVec.allOnes 64 else x / y
/-- Signed remainder (R74, R75). -/
def remS (x y : DWord) : DWord := if y = 0 then x else x.srem y
/-- Unsigned remainder (R74, R75). -/
def remU (x y : DWord) : DWord := if y = 0 then x else x % y
/-- Upper half of the signed product (R74). -/
def mulHS (x y : DWord) : DWord := BitVec.ofInt 64 (x.toInt * y.toInt / 2 ^ 64)
/-- Upper half of the unsigned product (R74). -/
def mulHU (x y : DWord) : DWord := BitVec.ofNat 64 (x.toNat * y.toNat / 2 ^ 64)
/-- Zero bits above the highest 1 (R74). -/
def clz64 (x : DWord) : DWord :=
  BitVec.ofNat 64 ((List.range 64).takeWhile (fun i => !x.getLsbD (63 - i))).length
/-- Zero bits below the lowest 1 (R74). -/
def ctz64 (x : DWord) : DWord :=
  BitVec.ofNat 64 ((List.range 64).takeWhile (fun i => !x.getLsbD i)).length
/-- Number of 1 bits (R74). -/
def popc64 (x : DWord) : DWord :=
  BitVec.ofNat 64 ((List.range 64).filter (fun i => x.getLsbD i)).length

/-! ### The shapes -/

/-- A word that reads two registers and writes one (R74). -/
def alu3 (f : DWord → DWord → DWord) (bound : Nat) (d a b : Fin 32) (s : State) : Out :=
  ctlWord [a, b] s fun s0 =>
    let (x, s1) := s0.readG a
    let (y, s2) := s1.readG b
    .issue (s2.writeG d (f x y) bound (s0.taint a || s0.taint b))

/-- A word that reads one register and writes one (R74, R76). -/
def alu2 (f : DWord → DWord) (d a : Fin 32) (s : State) : Out :=
  ctlWord [a] s fun s0 =>
    let (x, s1) := s0.readG a
    .issue (s1.writeG d (f x) 1 (s0.taint a))

/-- A word that writes a constant (R76). -/
def aluConst (v : DWord) (d : Fin 32) (s : State) : Out :=
  ctlWord [] s fun s0 => .issue (s0.writeG d v 1 false)

/-- A register compare (R77). -/
def cmp3 (f : DWord → DWord → Bool) (sd : Fin 16) (a b : Fin 32) (s : State) : Out :=
  ctlWord [a, b] s fun s0 =>
    let (x, s1) := s0.readG a
    let (y, s2) := s1.readG b
    .issue (s2.writeCond sd (f x y) (s0.taint a || s0.taint b))

/-- An immediate compare (R77). -/
def cmpI (f : DWord → DWord → Bool) (sd : Fin 16) (a : Fin 32) (imm : BitVec 14) (s : State) : Out :=
  ctlWord [a] s fun s0 =>
    let (x, s1) := s0.readG a
    .issue (s1.writeCond sd (f x (imm.signExtend 64)) (s0.taint a))

/-- Steer logic on two conditions (R78). -/
def steer3 (f : Bool → Bool → Bool) (sd sa sb : Fin 16) (s : State) : Out :=
  ctlWord [] s fun s0 =>
    .issue (s0.writeCond sd (f (s0.core.steer sa).cond (s0.core.steer sb).cond)
      ((s0.taintS sa).1 || (s0.taintS sb).1))

/-! ### The meanings -/

/-- ADD (R74). -/
def execAdd (d a b : Fin 32) (s : State) : Out :=
  alu3 (fun x y => x + y) 1 d a b s

/-- SUB (R74). -/
def execSub (d a b : Fin 32) (s : State) : Out :=
  alu3 (fun x y => x - y) 1 d a b s

/-- AND (R74). -/
def execAnd (d a b : Fin 32) (s : State) : Out :=
  alu3 (fun x y => x &&& y) 1 d a b s

/-- OR (R74). -/
def execOr (d a b : Fin 32) (s : State) : Out :=
  alu3 (fun x y => x ||| y) 1 d a b s

/-- XOR (R74). -/
def execXor (d a b : Fin 32) (s : State) : Out :=
  alu3 (fun x y => x ^^^ y) 1 d a b s

/-- ANDN (R74). -/
def execAndn (d a b : Fin 32) (s : State) : Out :=
  alu3 (fun x y => x &&& ~~~y) 1 d a b s

/-- SLL (R74). -/
def execSll (d a b : Fin 32) (s : State) : Out :=
  alu3 (fun x y => x <<< shamt y) 1 d a b s

/-- SRL (R74). -/
def execSrl (d a b : Fin 32) (s : State) : Out :=
  alu3 (fun x y => x >>> shamt y) 1 d a b s

/-- SRA (R74). -/
def execSra (d a b : Fin 32) (s : State) : Out :=
  alu3 (fun x y => x.sshiftRight (shamt y)) 1 d a b s

/-- ROTL (R74). -/
def execRotl (d a b : Fin 32) (s : State) : Out :=
  alu3 (fun x y => x.rotateLeft (shamt y)) 1 d a b s

/-- MUL (R74). -/
def execMul (d a b : Fin 32) (s : State) : Out :=
  alu3 (fun x y => x * y) 3 d a b s

/-- MULH (R74). -/
def execMulh (d a b : Fin 32) (s : State) : Out :=
  alu3 (fun x y => mulHS x y) 3 d a b s

/-- MULHU (R74). -/
def execMulhu (d a b : Fin 32) (s : State) : Out :=
  alu3 (fun x y => mulHU x y) 3 d a b s

/-- DIV (R75). -/
def execDiv (d a b : Fin 32) (s : State) : Out :=
  alu3 (fun x y => divS x y) 34 d a b s

/-- DIVU (R75). -/
def execDivu (d a b : Fin 32) (s : State) : Out :=
  alu3 (fun x y => divU x y) 34 d a b s

/-- REM (R75). -/
def execRem (d a b : Fin 32) (s : State) : Out :=
  alu3 (fun x y => remS x y) 34 d a b s

/-- REMU (R75). -/
def execRemu (d a b : Fin 32) (s : State) : Out :=
  alu3 (fun x y => remU x y) 34 d a b s

/-- MIN (R74). -/
def execMin (d a b : Fin 32) (s : State) : Out :=
  alu3 (fun x y => if x.sle y then x else y) 1 d a b s

/-- MAX (R74). -/
def execMax (d a b : Fin 32) (s : State) : Out :=
  alu3 (fun x y => if x.sle y then y else x) 1 d a b s

/-- MINU (R74). -/
def execMinu (d a b : Fin 32) (s : State) : Out :=
  alu3 (fun x y => if x ≤ y then x else y) 1 d a b s

/-- MAXU (R74). -/
def execMaxu (d a b : Fin 32) (s : State) : Out :=
  alu3 (fun x y => if x ≤ y then y else x) 1 d a b s

/-- CLZ (R74). -/
def execClz (d a : Fin 32) (s : State) : Out :=
  alu2 clz64 d a s

/-- CTZ (R74). -/
def execCtz (d a : Fin 32) (s : State) : Out :=
  alu2 ctz64 d a s

/-- POPC (R74). -/
def execPopc (d a : Fin 32) (s : State) : Out :=
  alu2 popc64 d a s

/-- ADDI (R76). -/
def execAddi (d a : Fin 32) (imm : BitVec 13) (s : State) : Out :=
  alu2 (fun x => x + imm.signExtend 64) d a s

/-- ANDI (R76). -/
def execAndi (d a : Fin 32) (imm : BitVec 13) (s : State) : Out :=
  alu2 (fun x => x &&& imm.signExtend 64) d a s

/-- ORI (R76). -/
def execOri (d a : Fin 32) (imm : BitVec 13) (s : State) : Out :=
  alu2 (fun x => x ||| imm.signExtend 64) d a s

/-- XORI (R76). -/
def execXori (d a : Fin 32) (imm : BitVec 13) (s : State) : Out :=
  alu2 (fun x => x ^^^ imm.signExtend 64) d a s

/-- SLLI (R76). -/
def execSlli (d a : Fin 32) (sh : Fin 64) (s : State) : Out :=
  alu2 (fun x => x <<< sh.val) d a s

/-- SRLI (R76). -/
def execSrli (d a : Fin 32) (sh : Fin 64) (s : State) : Out :=
  alu2 (fun x => x >>> sh.val) d a s

/-- SRAI (R76). -/
def execSrai (d a : Fin 32) (sh : Fin 64) (s : State) : Out :=
  alu2 (fun x => x.sshiftRight sh.val) d a s

/-- LUI (R76). -/
def execLui (d : Fin 32) (imm : BitVec 18) (s : State) : Out :=
  aluConst (imm.signExtend 64 <<< 13) d s

/-- ADRP (R76): A is the address of the word itself, modulo 2^48. -/
def execAdrp (d : Fin 32) (imm : BitVec 18) (s : State) : Out :=
  aluConst ((s.core.nowAddr + imm.signExtend 48 * 4).zeroExtend 64) d s

/-- CEQ (R77). -/
def execCeq (sd : Fin 16) (a b : Fin 32) (s : State) : Out :=
  cmp3 (fun x y => x == y) sd a b s

/-- CNE (R77). -/
def execCne (sd : Fin 16) (a b : Fin 32) (s : State) : Out :=
  cmp3 (fun x y => x != y) sd a b s

/-- CLT (R77). -/
def execClt (sd : Fin 16) (a b : Fin 32) (s : State) : Out :=
  cmp3 (fun x y => x.slt y) sd a b s

/-- CGE (R77). -/
def execCge (sd : Fin 16) (a b : Fin 32) (s : State) : Out :=
  cmp3 (fun x y => y.sle x) sd a b s

/-- CLTU (R77). -/
def execCltu (sd : Fin 16) (a b : Fin 32) (s : State) : Out :=
  cmp3 (fun x y => x.ult y) sd a b s

/-- CGEU (R77). -/
def execCgeu (sd : Fin 16) (a b : Fin 32) (s : State) : Out :=
  cmp3 (fun x y => y.ule x) sd a b s

/-- CBS (R77). -/
def execCbs (sd : Fin 16) (a b : Fin 32) (s : State) : Out :=
  cmp3 (fun x y => x.getLsbD (shamt y)) sd a b s

/-- CBC (R77). -/
def execCbc (sd : Fin 16) (a b : Fin 32) (s : State) : Out :=
  cmp3 (fun x y => !x.getLsbD (shamt y)) sd a b s

/-- CEQI (R77). -/
def execCeqi (sd : Fin 16) (a : Fin 32) (imm : BitVec 14) (s : State) : Out :=
  cmpI (fun x y => x == y) sd a imm s

/-- CNEI (R77). -/
def execCnei (sd : Fin 16) (a : Fin 32) (imm : BitVec 14) (s : State) : Out :=
  cmpI (fun x y => x != y) sd a imm s

/-- CLTI (R77). -/
def execClti (sd : Fin 16) (a : Fin 32) (imm : BitVec 14) (s : State) : Out :=
  cmpI (fun x y => x.slt y) sd a imm s

/-- CGEI (R77). -/
def execCgei (sd : Fin 16) (a : Fin 32) (imm : BitVec 14) (s : State) : Out :=
  cmpI (fun x y => y.sle x) sd a imm s

/-- CLTUI (R77). -/
def execCltui (sd : Fin 16) (a : Fin 32) (imm : BitVec 14) (s : State) : Out :=
  cmpI (fun x y => x.ult y) sd a imm s

/-- SAND (R78). -/
def execSand (sd sa sb : Fin 16) (s : State) : Out :=
  steer3 (fun x y => x && y) sd sa sb s

/-- SOR (R78). -/
def execSor (sd sa sb : Fin 16) (s : State) : Out :=
  steer3 (fun x y => x || y) sd sa sb s

/-- SXOR (R78). -/
def execSxor (sd sa sb : Fin 16) (s : State) : Out :=
  steer3 (fun x y => x != y) sd sa sb s

/-- SNOT (R78). -/
def execSnot (sd sa : Fin 16) (s : State) : Out :=
  ctlWord [] s fun s0 =>
    .issue (s0.writeCond sd (!(s0.core.steer sa).cond) (s0.taintS sa).1)

/-- SMOV (R78): the whole register, and it counts as a PREP of sd for the rule of R40. -/
def execSmov (sd sa : Fin 16) (s : State) : Out :=
  ctlWord [] s fun s0 =>
    let x := s0.core.steer sa
    let t := s0.taintS sa
    .issue (((s0.setSteer sd fun _ => { x with setAt := some s0.core.tick }).setTaintC sd t.1).setTaintT
      sd t.2)

/-- SSET (R78). -/
def execSset (sd : Fin 16) (s : State) : Out :=
  ctlWord [] s fun s0 => .issue (s0.writeCond sd true false)

/-- SCLR (R78). -/
def execSclr (sd : Fin 16) (s : State) : Out :=
  ctlWord [] s fun s0 => .issue (s0.writeCond sd false false)

end Sys2Proof.Machine
end

