-- ==== Sys2Proof/Machine/Flags.lean ====
section
/-! DEFINITION. The arithmetic flags (R136 to R138): the five flag bits, merging a word's
contribution into a flag register, and the flags of a rounding. -/

namespace Sys2Proof.Machine

/-- Flag bits IV, DZ, OF, UF, NX (R136). -/
abbrev FlagBits := BitVec 5

/-- Invalid operation. -/
def fIV : FlagBits := 0b00001
/-- Division by zero. -/
def fDZ : FlagBits := 0b00010
/-- Overflow. -/
def fOF : FlagBits := 0b00100
/-- Underflow. -/
def fUF : FlagBits := 0b01000
/-- Inexact. -/
def fNX : FlagBits := 0b10000

/-- A flag when a condition holds. -/
def flagIf (b : Bool) (f : FlagBits) : FlagBits := if b then f else 0

/-- Saturating addition of NANC (R136). -/
def addNanc (x : BitVec 32) (n : Nat) : BitVec 32 :=
  BitVec.ofNat 32 (min (x.toNat + n) 0xFFFFFFFF)

/-- A word's contribution (R138): flags OR, NaN count adds. -/
def FlagReg.merge (r : FlagReg) (f : FlagBits) (n : Nat) : FlagReg :=
  { bits := r.bits ||| f, nanc := addNanc r.nanc n }

end Sys2Proof.Machine
end

