-- ==== Sys2Proof/Machine/Float.lean ====
section
/-! DEFINITION. Number formats and arithmetic (R121 to R135): exact values, rounding under the six
modes, F32 arithmetic, the correctly rounded functions (log 10), conversions, Q4X, the keyed
generator (R140, R141). -/

namespace Sys2Proof.Machine

/-! ### Exact values and rounding -/

/-- A finite magnitude num × 2^e, plus something positive below 2^e when `sticky`. -/
structure Mag where
  num : Nat
  e : Int
  sticky : Bool := false

/-- A floating format (R122): mantissa bits, exponent of the smallest normal, largest finite
magnitude maxK × 2^maxQ. -/
structure FFmt where
  mant : Nat
  emin : Int
  maxK : Nat
  maxQ : Int

/-- F32. -/
def fF32 : FFmt := ⟨23, -126, 2 ^ 24 - 1, 104⟩
/-- F16. -/
def fF16 : FFmt := ⟨10, -14, 2 ^ 11 - 1, 5⟩
/-- B16. -/
def fB16 : FFmt := ⟨7, -126, 2 ^ 8 - 1, 120⟩
/-- E4. -/
def fE4 : FFmt := ⟨3, -7, 15, 4⟩
/-- E5. -/
def fE5 : FFmt := ⟨2, -15, 7, 13⟩

/-- num × 2^e compared as magnitudes: x ≤ y. -/
def magLe (xn : Nat) (xe : Int) (yn : Nat) (ye : Int) : Bool :=
  let m := min xe ye
  decide (xn * 2 ^ (xe - m).toNat ≤ yn * 2 ^ (ye - m).toNat)

/-- Rounding a magnitude to a multiple of 2^q (R131, R132): the multiple and whether it is inexact.
`draw` is SR's. -/
def roundTo (rnd : Rnd) (neg : Bool) (draw : Nat) (x : Mag) (q : Int) : Nat × Bool :=
  if q ≤ x.e then (x.num * 2 ^ (x.e - q).toNat, false)
  else
    let d := (q - x.e).toNat
    let k := x.num / 2 ^ d
    let r := x.num % 2 ^ d
    let inex := r != 0 || x.sticky
    let above := decide (2 ^ d < 2 * r) || (decide (2 ^ d = 2 * r) && x.sticky)
    let tie := decide (2 ^ d = 2 * r) && !x.sticky
    let up := match rnd with
      | .rne => above || (tie && k % 2 == 1)
      | .rtz => false
      | .rdn => neg && inex
      | .rup => !neg && inex
      | .rna => above || tie
      | .sr =>
        if !inex then false
        else if neg then !decide (2 ^ 32 ≤ draw + (2 ^ d - r) * 2 ^ 32 / 2 ^ d)
        else decide (2 ^ 32 ≤ draw + r * 2 ^ 32 / 2 ^ d)
    (if up then k + 1 else k, inex)

/-- Exponent of the leading bit of a magnitude. -/
def Mag.lead (x : Mag) : Int := (Nat.log2 x.num : Int) + x.e

/-- A magnitude rounded onto a format's grid (R131): multiple, exponent, inexact, tiny after
rounding (R125). -/
structure Rounded where
  k : Nat
  q : Int
  inex : Bool
  tiny : Bool

/-- Round onto a format's grid, with no bound above. -/
def roundGrid (f : FFmt) (rnd : Rnd) (neg : Bool) (draw : Nat) (x : Mag) : Rounded :=
  let q := max (x.lead - f.mant) (f.emin - f.mant)
  let (k, inex) := roundTo rnd neg draw x q
  let qu := x.lead - f.mant
  let (ku, _) := roundTo rnd neg draw x qu
  { k := k, q := q, inex := inex, tiny := !magLe 1 f.emin ku qu }

/-- Whether a rounded magnitude passes the largest finite (R131). -/
def Rounded.over (r : Rounded) (f : FFmt) : Bool := !magLe r.k r.q f.maxK f.maxQ

/-- Exponent and mantissa fields of a magnitude on the grid (R122). -/
def packMag (f : FFmt) (k : Nat) (q : Int) : Nat :=
  if k < 2 ^ f.mant then k
  else
    let (k, q) := if 2 ^ (f.mant + 1) ≤ k then (k / 2, q + 1) else (k, q)
    ((q + f.mant - f.emin).toNat + 1) * 2 ^ f.mant + (k - 2 ^ f.mant)

/-- Whether a mode rounds toward zero for a sign (R131). -/
def towardZero (rnd : Rnd) (neg : Bool) : Bool :=
  match rnd with
  | .rtz => true
  | .rdn => !neg
  | .rup => neg
  | _ => false

/-! ### F32 -/

/-- What an F32 word is. -/
inductive Fl where
  | nan (sig : Bool)
  | inf (neg : Bool)
  | fin (neg : Bool) (num : Nat) (e : Int)

/-- Classify a word of a floating format with infinities and NaNs (R122). -/
def unpack (mant ebits : Nat) (emin : Int) (x : Nat) : Fl :=
  let neg := decide (x / 2 ^ (mant + ebits) % 2 = 1)
  let e := x / 2 ^ mant % 2 ^ ebits
  let m := x % 2 ^ mant
  if e = 2 ^ ebits - 1 then
    if m = 0 then .inf neg else .nan (decide (m < 2 ^ (mant - 1)))
  else if e = 0 then .fin neg m (emin - mant)
  else .fin neg (2 ^ mant + m) (emin - mant + (e - 1 : Nat))

/-- An F32 word. -/
def f32 (x : Word) : Fl := unpack 23 8 (-126) x.toNat
/-- The canonical NaN (R126). -/
def cNaN : Word := 0x7FC00000
/-- Whether an F32 word is a NaN. -/
def isNaN (x : Word) : Bool := match f32 x with
  | .nan _ => true
  | _ => false
/-- Whether an F32 word is a signalling NaN. -/
def isSNaN (x : Word) : Bool := match f32 x with
  | .nan s => s
  | _ => false
/-- Quieting a NaN (R126). -/
def quiet (x : Word) : Word := x ||| 0x00400000
/-- A signed infinity. -/
def infW (neg : Bool) : Word := if neg then 0xFF800000 else 0x7F800000
/-- A signed zero. -/
def zeroW (neg : Bool) : Word := if neg then 0x80000000 else 0

/-- Deliver a magnitude as F32 under RNE with its flags (R125, R131). -/
def toF32 (neg : Bool) (x : Mag) : Word × FlagBits :=
  if x.num = 0 && !x.sticky then (zeroW neg, 0)
  else
    let r := roundGrid fF32 .rne neg 0 x
    if r.over fF32 then (infW neg, fOF ||| fNX)
    else (zeroW neg ||| BitVec.ofNat 32 (packMag fF32 r.k r.q),
      flagIf r.inex fNX ||| flagIf (r.inex && r.tiny) fUF)

/-- A signed exact value n × 2^e as F32; zero takes the given sign. -/
def intToF32 (n : Int) (e : Int) (zneg : Bool) : Word × FlagBits :=
  if n = 0 then (zeroW zneg, 0) else toF32 (decide (n < 0)) { num := n.natAbs, e := e }

/-- Signed integer of a finite value on the grid 2^m. -/
def onGrid (neg : Bool) (num : Nat) (e m : Int) : Int :=
  let v : Int := num * 2 ^ (e - m).toNat
  if neg then -v else v

/-- The NaN result of operands, if one is NaN (R126): the first, quieted; IV for a signalling one. -/
def nanOf (xs : List Word) : Option (Word × FlagBits) :=
  match xs.find? isNaN with
  | some x => some (quiet x, flagIf (xs.any isSNaN) fIV)
  | none => none

/-- F32 addition (R125 to R127). -/
def fAdd (x y : Word) : Word × FlagBits :=
  match nanOf [x, y] with
  | some r => r
  | none =>
    match f32 x, f32 y with
    | .inf a, .inf b => if a = b then (infW a, 0) else (cNaN, fIV)
    | .inf a, _ => (infW a, 0)
    | _, .inf b => (infW b, 0)
    | .fin a n e, .fin b m g =>
      let q := min e g
      intToF32 (onGrid a n e q + onGrid b m g q) q (a && b)
    | _, _ => (cNaN, 0)

/-- F32 negation of the sign bit. -/
def fNeg (x : Word) : Word := x ^^^ 0x80000000

/-- F32 subtraction; a NaN operand keeps its sign (R126). -/
def fSub (x y : Word) : Word × FlagBits :=
  match nanOf [x, y] with
  | some r => r
  | none => fAdd x (fNeg y)

/-- F32 multiplication. -/
def fMul (x y : Word) : Word × FlagBits :=
  match nanOf [x, y] with
  | some r => r
  | none =>
    match f32 x, f32 y with
    | .inf a, .inf b => (infW (a != b), 0)
    | .inf a, .fin b m _ => if m = 0 then (cNaN, fIV) else (infW (a != b), 0)
    | .fin a n _, .inf b => if n = 0 then (cNaN, fIV) else (infW (a != b), 0)
    | .fin a n e, .fin b m g => toF32 (a != b) { num := n * m, e := e + g }
    | _, _ => (cNaN, 0)

/-- F32 fused x × y + d, one rounding; NaN operands in the order x, y, d (R126, R220). -/
def fFma (x y d : Word) : Word × FlagBits :=
  match nanOf [x, y, d] with
  | some r => r
  | none =>
    match f32 x, f32 y, f32 d with
    | .fin a n e, .fin b m g, .inf c => let _ := (a, n, e, b, m, g); (infW c, 0)
    | .fin a n e, .fin b m g, .fin c k h =>
      let q := min (e + g) h
      let p := onGrid (a != b) (n * m) (e + g) q
      intToF32 (p + onGrid c k h q) q ((a != b) && c)
    | _, _, w =>
      let p := fMul x y
      if isNaN p.1 then p
      else match f32 p.1, w with
        | .inf a, .inf c => if a = c then (infW a, 0) else (cNaN, fIV)
        | _, _ => (p.1, 0)

/-- Total order key of non-NaN values with −0 below +0 (R127). -/
def fKey (x : Word) : Int :=
  let m : Int := (x.toNat % 2 ^ 31 : Nat)
  if x.getLsbD 31 then -m - 1 else m

/-- VMIN and VMAX (R127, R220): a on equality. -/
def fMinMax (mx : Bool) (x y : Word) : Word × FlagBits :=
  match nanOf [x, y] with
  | some r => r
  | none =>
    if mx then (if fKey x < fKey y then y else x, 0)
    else (if fKey y < fKey x then y else x, 0)

/-- Numeric comparison of non-NaN values, −0 equal to +0: x < y, and x = y (R223). -/
def fLt (x y : Word) : Bool :=
  if x.toNat % 2 ^ 31 = 0 ∧ y.toNat % 2 ^ 31 = 0 then false else decide (fKey x < fKey y)
/-- Equality of non-NaN values. -/
def fEq (x y : Word) : Bool :=
  x == y || (x.toNat % 2 ^ 31 == 0 && y.toNat % 2 ^ 31 == 0)

/-! ### Correctly rounded functions (R221) -/

/-- Integer square root, by bits from bit n − 1 down. -/
def isqrtGo (v : Nat) : Nat → Nat → Nat
  | 0, r => r
  | n + 1, r => isqrtGo v n (if (r + 2 ^ n) * (r + 2 ^ n) ≤ v then r + 2 ^ n else r)
/-- Integer square root. -/
def isqrt (v : Nat) : Nat := isqrtGo v (Nat.log2 v / 2 + 1) 0

/-- 1 ÷ x. -/
def fRcp (x : Word) : Word × FlagBits :=
  match f32 x with
  | .nan s => (quiet x, flagIf s fIV)
  | .inf a => (zeroW a, 0)
  | .fin a n e =>
    if n = 0 then (infW a, fDZ)
    else toF32 a { num := 2 ^ 120 / n, e := -e - 120, sticky := 2 ^ 120 % n != 0 }

/-- 1 ÷ √x. -/
def fRsq (x : Word) : Word × FlagBits :=
  match f32 x with
  | .nan s => (quiet x, flagIf s fIV)
  | .inf a => if a then (cNaN, fIV) else (0, 0)
  | .fin a n e =>
    if n = 0 then (infW a, fDZ)
    else if a then (cNaN, fIV)
    else
      let (n, e) := if e % 2 = 0 then (n, e) else (2 * n, e - 1)
      let r := isqrt (2 ^ 200 / n)
      toF32 false { num := r, e := -(e / 2) - 100, sticky := r * r * n != 2 ^ 200 }

/-- Fixed-point places of the exponential. -/
def expP : Nat := 256

/-- 2^f as a fixed-point number, f given by its bits after the point, most significant first; `c`
is 2^(2^−i) for the bit in hand. -/
def expGo : List Bool → Nat → Nat → Nat
  | [], _, acc => acc
  | b :: t, c, acc =>
    expGo t (isqrt (c * 2 ^ expP)) (if b then acc * c / 2 ^ expP else acc)

/-- 2^x (log 10). -/
def fExp2 (x : Word) : Word × FlagBits :=
  match f32 x with
  | .nan s => (quiet x, flagIf s fIV)
  | .inf a => if a then (0, 0) else (infW false, 0)
  | .fin a n e =>
    if n = 0 then (0x3F800000, 0)
    else if (Nat.log2 n : Int) + e < -26 then (0x3F800000, fNX)
    else if 8 ≤ (Nat.log2 n : Int) + e then
      if a then (0, fUF ||| fNX) else (infW false, fOF ||| fNX)
    else
      let g : Int := min e 0
      let v := onGrid a n e g
      let u : Int := 2 ^ (-g).toNat
      let i := v / u
      let f := (v % u).toNat
      if f = 0 then toF32 false { num := 1, e := i }
      else
        let w := (-g).toNat
        let bits := (List.range w).map fun k => decide (f / 2 ^ (w - 1 - k) % 2 = 1)
        toF32 false { num := expGo bits (isqrt (2 * 2 ^ (2 * expP))) (2 ^ expP)
                      e := i - expP, sticky := true }

/-- Fixed-point places of the logarithm's argument. -/
def logP : Nat := 320

/-- n more bits of log2 y, y in [1, 2) with logP places. -/
def logGo : Nat → Nat → Nat → Nat
  | 0, _, acc => acc
  | n + 1, y, acc =>
    let z := y * y / 2 ^ logP
    if 2 ^ (logP + 1) ≤ z then logGo n (z / 2) (2 * acc + 1) else logGo n z (2 * acc)

/-- log2 x (log 10). -/
def fLog2 (x : Word) : Word × FlagBits :=
  match f32 x with
  | .nan s => (quiet x, flagIf s fIV)
  | .inf a => if a then (cNaN, fIV) else (infW false, 0)
  | .fin a n e =>
    if n = 0 then (infW true, fDZ)
    else if a then (cNaN, fIV)
    else
      let k := Nat.log2 n
      let i : Int := k + e
      if n = 2 ^ k then intToF32 i 0 false
      else
        let l := logGo 128 (n * 2 ^ (logP - k)) 0
        let v : Int := i * 2 ^ 128 + l
        if 0 ≤ v then toF32 false { num := v.natAbs, e := -128, sticky := true }
        else toF32 true { num := (-v - 1).natAbs, e := -128, sticky := true }

/-! ### Narrow formats and conversions -/

/-- An E4 or E5 code decoded (R123): none for the NaN. -/
def decodeE (e4 : Bool) (c : Nat) : Option (Bool × Nat × Int) :=
  let c := c % 256
  if c = 0x80 then none
  else
    let mant : Nat := if e4 then 3 else 2
    let emin : Int := if e4 then -7 else -15
    let e := c % 128 / 2 ^ mant
    let m := c % 2 ^ mant
    let neg := decide (128 ≤ c)
    if e = 0 then some (neg, m, emin - mant) else some (neg, 2 ^ mant + m, emin - mant + (e - 1 : Nat))

/-- F32 to an integer of n bits (R134, row 0). -/
def f2i (rnd : Rnd) (draw n : Nat) (x : Word) : Word × FlagBits :=
  let lim (neg : Bool) : Word := if neg then BitVec.ofInt 32 (-(2 ^ (n - 1) : Int))
    else BitVec.ofNat 32 (2 ^ (n - 1) - 1)
  match f32 x with
  | .nan _ => (0, fIV)
  | .inf a => (lim a, fIV)
  | .fin a m e =>
    if m = 0 then (0, 0)
    else
      let (k, inex) := roundTo rnd a draw { num := m, e := e } 0
      if (a && decide (2 ^ (n - 1) < k)) || (!a && decide (2 ^ (n - 1) ≤ k)) then (lim a, fIV)
      else (BitVec.ofInt 32 (if a then -(k : Int) else k), flagIf inex fNX)

/-- An integer to F32 (R134, rows 1 and 2). -/
def i2f (rnd : Rnd) (draw : Nat) (v : Int) : Word × FlagBits :=
  if v = 0 then (0, 0)
  else
    let neg := decide (v < 0)
    let r := roundGrid fF32 rnd neg draw { num := v.natAbs, e := 0 }
    (zeroW neg ||| BitVec.ofNat 32 (packMag fF32 r.k r.q), flagIf r.inex fNX)

/-- F32 to B16 or F16 (R134, rows 3 and 5): a 16-bit code. -/
def f2h (f : FFmt) (rnd : Rnd) (sat : Bool) (draw : Nat) (x : Word) : Word × FlagBits :=
  let sg (neg : Bool) : Word := if neg then 0x8000 else 0
  let top := packMag f f.maxK f.maxQ
  match f32 x with
  | .nan s =>
    let p := x.toNat % 2 ^ 23 / 2 ^ (23 - f.mant)
    (sg (x.getLsbD 31) ||| BitVec.ofNat 32 (top + 1) ||| BitVec.ofNat 32 (2 ^ (f.mant - 1))
      ||| BitVec.ofNat 32 p, flagIf s fIV)
  | .inf a => (sg a ||| BitVec.ofNat 32 (top + 1), 0)
  | .fin a m e =>
    if m = 0 then (sg a, 0)
    else
      let r := roundGrid f rnd a draw { num := m, e := e }
      if r.over f then
        (sg a ||| BitVec.ofNat 32 (if sat || towardZero rnd a then top else top + 1), fOF ||| fNX)
      else (sg a ||| BitVec.ofNat 32 (packMag f r.k r.q),
        flagIf r.inex fNX ||| flagIf (r.inex && r.tiny) fUF)

/-- B16 or F16 to F32 (R134, rows 4 and 6). -/
def h2f (bf : Bool) (c : Nat) : Word × FlagBits :=
  let c := c % 2 ^ 16
  if bf then
    let x := BitVec.ofNat 32 (c * 2 ^ 16)
    if isNaN x then (quiet x, flagIf (isSNaN x) fIV) else (x, 0)
  else
    match unpack 10 5 (-14) c with
    | .nan s => (quiet (zeroW (decide (2 ^ 15 ≤ c)) ||| 0x7F800000 |||
        BitVec.ofNat 32 (c % 2 ^ 10 * 2 ^ 13)), flagIf s fIV)
    | .inf a => (infW a, 0)
    | .fin a n e => toF32 a { num := n, e := e }

/-- F32 to E4 or E5 (R134, rows 7 and 9): an 8-bit code; a zero result is 0x00 (R127). -/
def f2e (f : FFmt) (rnd : Rnd) (sat : Bool) (draw : Nat) (x : Word) : Word × FlagBits :=
  let sg (neg : Bool) : Word := if neg then 0x80 else 0
  match f32 x with
  | .nan s => (0x80, flagIf s fIV)
  | .inf a => if sat then (sg a ||| 0x7F, fIV) else (0x80, fIV)
  | .fin a m e =>
    if m = 0 then (0, 0)
    else
      let r := roundGrid f rnd a draw { num := m, e := e }
      if r.over f then
        (if sat || towardZero rnd a then sg a ||| 0x7F else 0x80, fOF ||| fNX)
      else
        let p := packMag f r.k r.q
        (if p = 0 then 0 else sg a ||| BitVec.ofNat 32 p,
          flagIf r.inex fNX ||| flagIf (r.inex && r.tiny) fUF)

/-- E4 or E5 to F32 (R134, rows 8 and 10). -/
def e2f (e4 : Bool) (c : Nat) : Word × FlagBits :=
  match decodeE e4 c with
  | none => (cNaN, 0)
  | some (a, n, e) => if n = 0 then (0, 0) else toF32 a { num := n, e := e }

/-- FRAC (R135). -/
def frac (x : Word) : Word :=
  let m := x.toNat / 256
  let r := roundGrid fF32 .rtz false 0 { num := 2 * m + 1, e := -25 }
  BitVec.ofNat 32 (packMag fF32 r.k r.q)

/-- Whether a lane of a conversion's source is a NaN that R137 counts. -/
def convNaN : Conv → Word → Bool
  | .f2i, x => isNaN x
  | .f2b, x => isNaN x
  | .f2h, x => isNaN x
  | .f2e4, x => isNaN x
  | .f2e5, x => isNaN x
  | .b2f, x => isNaN (BitVec.ofNat 32 (x.toNat % 2 ^ 16 * 2 ^ 16))
  | .h2f, x => (match unpack 10 5 (-14) (x.toNat % 2 ^ 16) with
    | .nan _ => true
    | _ => false)
  | .e42f, x => decide (x.toNat % 256 = 0x80)
  | .e52f, x => decide (x.toNat % 256 = 0x80)
  | _, _ => false

/-- One lane of VCVT (R134, R135). -/
def convert (c : Conv) (rnd : Rnd) (sat : Bool) (draw : Nat) (x : Word) : Word × FlagBits :=
  match c with
  | .f2i => f2i rnd draw 32 x
  | .i2f => i2f rnd draw x.toInt
  | .u2f => i2f rnd draw x.toNat
  | .f2b => f2h fB16 rnd sat draw x
  | .b2f => h2f true x.toNat
  | .f2h => f2h fF16 rnd sat draw x
  | .h2f => h2f false x.toNat
  | .f2e4 => f2e fE4 rnd sat draw x
  | .e42f => e2f true x.toNat
  | .f2e5 => f2e fE5 rnd sat draw x
  | .e52f => e2f false x.toNat
  | .frac => (frac x, 0)

/-! ### Q4X (R129) -/

/-- A two's complement nibble. -/
def int4 (x : Nat) : Int := if x ≤ 7 then x else (x : Int) - 16
/-- An outlier's value: 8 × 2^x[2:1] × (1 + x[0]/2), signed. -/
def out4 (x : Nat) : Int :=
  let m : Int := 4 * 2 ^ (x / 2 % 4) * (2 + x % 2)
  if 8 ≤ x then -m else m
/-- A pair of nibbles: none when both are the marker. -/
def q4xPair (lo hi : Nat) : Option (Int × Int) :=
  if lo = 8 ∧ hi = 8 then none
  else if lo = 8 then some (out4 hi, 0)
  else if hi = 8 then some (0, out4 lo)
  else some (int4 lo, int4 hi)

/-! ### The keyed generator (R140, R141) -/

/-- One round on the four words. -/
def rand4 (x : Word × Word × Word × Word) : Word × Word × Word × Word :=
  let (x0, x1, x2, x3) := x
  let x0 := x0 + x1
  let x3 := (x3 ^^^ x0).rotateLeft 16
  let x2 := x2 + x3
  let x1 := (x1 ^^^ x2).rotateLeft 12
  let x0 := x0 + x1
  let x3 := (x3 ^^^ x0).rotateLeft 8
  let x2 := x2 + x3
  let x1 := (x1 ^^^ x2).rotateLeft 7
  (x0, x2, x3, x1)

/-- Word i of a 128-bit value. -/
def word128 (x : BitVec 128) (i : Nat) : Word := BitVec.ofNat 32 (x.toNat / 2 ^ (32 * i))

/-- RAND32 (R140). -/
def rand32 (k c : BitVec 128) : Word :=
  let x := (word128 c 0 ^^^ word128 k 0, word128 c 1 ^^^ word128 k 1, word128 c 2 ^^^ word128 k 2,
    word128 c 3 ^^^ word128 k 3)
  (rand4 (rand4 (rand4 (rand4 x)))).1 + word128 k 0

/-- Four lanes as a 128-bit value, word 0 lowest (R133, R233). -/
def words128 (a b c d : Word) : BitVec 128 :=
  BitVec.ofNat 128 (a.toNat + b.toNat * 2 ^ 32 + c.toNat * 2 ^ 64 + d.toNat * 2 ^ 96)

end Sys2Proof.Machine
end

