-- ==== Sys2Proof/Machine/Ring.lean ====
section
/-! DEFINITION. Records for the host: the event ring (R383 to R385), error records (R380), and the
event table (R343, R344). -/

namespace Sys2Proof.Machine

/-- The package accepts tasks, and firmware runs, once every die has finished its boot (R8, R389). -/
def State.booted (s : State) : Bool := s.sys.die.toList.all fun d => decide (d.boot = .trimmed)

/-- Change a tenant. -/
def State.modTenant (s : State) (t : Fin 16) (f : Tenant → Tenant) : State :=
  { s with sys := { s.sys with tenants := s.sys.tenants.set t.val (f s.sys.tenants[t]) t.isLt } }

/-- Change a queue of a tenant. -/
def Tenant.modQueue (t : Tenant) (q : Fin 8) (f : HostQueue → HostQueue) : Tenant :=
  { t with queues := t.queues.set q.val (f t.queues[q]) q.isLt }

/-- Vector v of a tenant is raised (R382, R385): its message is sent, or, with the vector masked, its
pending bit is set (log 70). -/
def State.raise (s : State) (tn : Fin 16) (v : Fin 4) : State :=
  let k := 4 * tn.val + v.val
  if (vget s.sys.msix k {}).masked then
    { s with sys := { s.sys with pba := s.sys.pba ||| BitVec.ofNat 64 (2 ^ k) } }
  else s.modTenant tn fun t => { t with msix := t.msix ++ [k] }

/-- A write of the MSI-X table (R382): a pending vector that is unmasked is sent (log 70). -/
def State.msixWrite (s : State) (v : Fin 64) (e : MsixEntry) : State :=
  let s := { s with sys := { s.sys with msix := s.sys.msix.set v.val e v.isLt } }
  if !e.masked && s.sys.pba.getLsbD v.val then
    let s := { s with sys := { s.sys with pba := s.sys.pba &&& ~~~(BitVec.ofNat 64 (2 ^ v.val)) } }
    let tn : Fin 16 := ⟨v.val / 4 % 16, Nat.mod_lt _ (by decide)⟩
    s.modTenant tn fun t => { t with msix := t.msix ++ [v.val] }
  else s

/-- A queue error (R334): latched until ACK, so a later one changes nothing; the WAIT it cuts short is
not met. -/
def HostQueue.fail (x : HostQueue) (err : BitVec 4) (cause : BitVec 6) : HostQueue :=
  if x.state = .error then x
  else { x with state := .error, err := err, cause := cause, waitEv := none }

/-- The interpreter at the entry after the LAUNCH of a task (R334). -/
def HostQueue.goAfter (x : HostQueue) (t : Task) : HostQueue :=
  { x with next := t.after.1, pos := t.after.2.1, calls := t.after.2.2, rereads := 0 }

/-- The event ring has lost a record that names a queue (R334, R385): ERR 5 and OVF. -/
def HostQueue.overflow (x : HostQueue) : HostQueue :=
  if x.state = .error then { x with ovf := true } else { x.fail 5 0 with ovf := true }

/-- Write a 32-byte record into a tenant's event ring (R385): a full ring loses it and stops the
queue it names. -/
def State.writeRecord (s : State) (tn : Fin 16) (q : Option (Fin 8)) (vec : Fin 4) (bs : List Byte) :
    State :=
  let t := s.sys.tenants[tn]
  if !t.eren then s
  else if (t.erhead - t.ertail).toNat = 2 ^ t.erlog2n.toNat then
    s.modTenant tn fun t =>
      let t := { t with erlost := if t.erlost = BitVec.allOnes 32 then t.erlost else t.erlost + 1 }
      match q with
      | some q => t.modQueue q HostQueue.overflow
      | none => t
  else
    let a := t.erbase.toNat + 32 * (t.erhead.toNat % 2 ^ t.erlog2n.toNat)
    ((s.writeAt .host a bs).modTenant tn fun t => { t with erhead := t.erhead + 1 }).raise tn vec

/-- The bytes of an error record (R380). -/
def errorBytes (kind die core cause wh pa : Nat) (info : DWord) (tick : Nat) : List Byte :=
  leBytes 2 kind ++ leBytes 1 die ++ leBytes 1 core ++ leBytes 1 cause ++ leBytes 1 wh
    ++ leBytes 2 0 ++ leBytes 8 pa ++ leBytes 8 info.toNat ++ leBytes 8 tick

/-- The tenant that owns a core (R330, R380). -/
def State.owner (s : State) (k : Nat) : Option (Fin 16) :=
  (List.finRange 16).find? fun t => s.sys.tenants[t].cores.any (·.val == k)

/-- A record in the management log, which firmware keeps (R380): before every die has booted there is none (R8). -/
def State.note (s : State) (bs : List Byte) : State :=
  if s.booted then { s with sys := { s.sys with mlog := s.sys.mlog ++ [bs] } } else s

/-- Send an error record to the ring of the tenant that owns a core, or to the management log (R380): firmware does it,
once every die has booted (R8). -/
def State.sendError (s : State) (k : Nat) (bs : List Byte) : State :=
  match s.owner k with
  | some t => if s.booted then s.writeRecord t none 1 bs else s
  | none => s.note bs

/-- Log an error of a core that was detected at a tick of its die (R380). -/
def State.logErrorAt (s : State) (c : CoreId) (kind cause wh pa : Nat) (info : DWord) (tick : Nat) : State :=
  s.sendError c.num (errorBytes kind c.die.val c.idx.val cause wh pa info tick)

/-- Log an error of a core that is detected now (R380). -/
def State.logErrorOf (s : State) (c : CoreId) (kind cause wh pa : Nat) (info : DWord) : State :=
  s.logErrorAt c kind cause wh pa info (s.dieTick c.die)

/-- Log an error of the acting core (R380). -/
def State.logError (s : State) (kind cause wh pa : Nat) (info : DWord) : State :=
  s.logErrorOf s.core.id kind cause wh pa info

/-- WHERE of an error cause (R378, R380). -/
def TrapRec.whereOf (t : TrapRec) : Nat := if t.cause = 0x13 then t.info.toNat % 8 else 0

/-- Whether an event of a tenant is signalled (R343). -/
def Tenant.signalled (t : Tenant) (ev : Nat) : Bool := t.events.contains ev

/-- A waiting core whose wait a signalling meets (R343, R344). -/
def Core.wake (c : Core) (tn : Fin 16) (ev : Nat) : Core :=
  if c.ctl.regs.tenant = tn ∧ c.ctl.arrival = some (.waitev ev false) then
    { c with ctl := { c.ctl with arrival := some (.waitev ev true) } }
  else c

/-- A waiting queue whose WAIT a signalling meets (R344): with CLR it clears the event. -/
def HostQueue.wake (q : HostQueue) (ev : Nat) : HostQueue :=
  match q.waitEv with
  | some (e, clr) => if e.toNat = ev ∧ q.state = .waiting then
      { q with state := .running, waitEv := some (e, clr) } else q
  | none => q

/-- Signal an event (R97, R343, R344): every waiter is woken. -/
def State.signal (s : State) (tn : Fin 16) (ev : Nat) : State :=
  let s := s.modTenant tn fun t => { t with
    events := if t.events.contains ev then t.events else ev :: t.events
    queues := t.queues.map fun q => q.wake ev }
  { s with core := s.core.wake tn ev, others := s.others.map fun c => c.wake tn ev }

end Sys2Proof.Machine
end

