-- ==== Sys2Proof/Machine/Phase.lean ====
section
/-! DEFINITION. Unscheduled delays and gang stalls (R149), silent errors and irreversible phases
(R375 to R377). -/

namespace Sys2Proof.Machine

/-- A delay is detected: the gang stops 8 gang ticks on (R149). -/
def State.beginDelay (s : State) (d : Delay) : State :=
  let g := s.core.gtick + 8
  let mark (x : Core) : Core := if x.stall.stopped then x
    else { x with stall := { x.stall with stopAt := x.stall.stopAt.or (some g) } }
  let step (x : Core) : Core :=
    if sameGang s.core x && decide (x.ctl.run = .running) then mark x else x
  let s := { s with others := s.others.map step }
  s.upd fun x => { mark x with stall := { (mark x).stall with
    delays := if x.stall.delays.contains d then x.stall.delays else d :: x.stall.delays } }

/-- Whether the running phase is irreversible (R374, R376). -/
def Vis.irreversible (v : Vis) : Bool := v.ph.toList.any (·.irrev)

/-- The running phase becomes irreversible (R376). -/
def State.setIrrev (s : State) : State :=
  if s.core.phase.snap.isNone then s
  else s.updVis fun v => { v with ph := v.ph.map fun p => { p with irrev := true } }

/-- Whether an error rolls the phase back (R377): it is reversible and no retry. -/
def Core.canRetry (c : Core) : Bool :=
  !c.ctl.bank1 && !c.ctl.regs.retried && !c.vis.irreversible && c.phase.snap.isSome

/-- A silent error (R377), in a user debug hook too (log 107): a reversible phase that is no retry stalls the gang to roll back; otherwise
the error is lasting, which is logged (R7, R380), and the core traps with its cause. -/
def silentError (t : TrapRec) (s : State) : State :=
  if s.core.canRetry then
    (s.upd fun c => { c with phase := { c.phase with
      rollback := true, error := c.phase.error.or (some (t, s.dieTick c.id.die)) } }).beginDelay .rollback
  else takeTrap t (s.logError 3 t.cause.toNat t.whereOf 0 t.info)

/-- An uncorrectable error in what bank 1 reads of the system store (R35, R379): it is logged as lasting (R7,
R380), and is a double fault. -/
def storeError (s : State) : State := doubleFault 0x13 0 (s.logError 3 0x13 0 0 0)

end Sys2Proof.Machine
end

