-- ==== Sys2Proof/Machine/Operands.lean ====
section
/-! DEFINITION. Operands of engine words: formats (R121), rows of a stream register (R152), ranges of
bytes checked for translation, permission and watchpoints (R143, R364, R367), reading and writing
them, and rows as lanes and element codes. -/

namespace Sys2Proof.Machine

/-! ### Formats -/

/-- Bits per element of a format code (R121). -/
def fmtBits (f : BitVec 4) : Option Nat :=
  match f.toNat with
  | 0 => some 8 | 1 => some 4 | 2 => some 8 | 3 => some 8 | 4 => some 16 | 5 => some 16
  | 6 => some 8 | 8 => some 32 | 9 => some 32
  | _ => none

/-- Bits per element, 8 where the code is unassigned. -/
def bitsOr8 (f : BitVec 4) : Nat := (fmtBits f).getD 8

/-- The quantised formats (R121). -/
def quantised (f : BitVec 4) : Bool := decide (f = 1) || decide (f = 2) || decide (f = 3)

/-! ### Rows of a stream register (R152) -/

/-- The base that RSEL adds (R151, R152). -/
def Core.relOf (c : Core) (x : StReg) : BitVec 48 :=
  if x.rsel.getLsbD 4 then (vget c.ctl.regs.rel (x.rsel.toNat % 16) 0).truncate 48 else 0

/-- Address of a row (R152). -/
def Core.rowAddr (c : Core) (x : StReg) (r : Nat) : Nat :=
  (x.base + c.relOf x + x.live + BitVec.ofNat 48 r * x.pitch.signExtend 48).toNat

/-- Address of the scale bytes of a row (R152). -/
def Core.scaleAddr (c : Core) (x : StReg) (r : Nat) : Nat :=
  (x.sbase + c.relOf x + BitVec.ofInt 48 (x.live.toInt / (4 * bitsOr8 x.fmt : Nat))
    + BitVec.ofNat 48 r * x.sstride.signExtend 48).toNat

/-- A stream register whose ROWS or RBYTES is 0 (R152). -/
def StReg.emptyGeo (x : StReg) : Bool := decide (x.rows = 0) || decide (x.rbytes = 0)

/-- A stream register whose format a word cannot use: unassigned, or quantised with LIVE not at a
block of 32 elements (R152). -/
def StReg.badFmt (x : StReg) : Bool :=
  match fmtBits x.fmt with
  | none => true
  | some b => quantised x.fmt && decide (x.live.toInt % (4 * b : Nat) ≠ 0)

/-- Byte ranges of the rows of a stream register, from row r on. -/
def Core.rowRanges (c : Core) (x : StReg) (r n : Nat) : List (Nat × Nat) :=
  (List.range n).map fun j => (c.rowAddr x (r + j), x.rbytes.toNat)

/-! ### Ranges of bytes -/

/-- How an agent's access of a kind finds a home. -/
abbrev Loc := Nat → Except Bad (Space × Nat)

/-- The homes that a word of an engine reaches, with the phase pairs of its snapshot (R142, R374). -/
def locOf (s : State) (v : Vis) (e : Engine) (k : Acc) : Loc :=
  locate (s.updVis fun w => { w with ph := v.ph }) (.eng e) k

/-- The parts of n bytes from a that lie between multiples of g, addresses modulo 2^48. -/
def pieces (g a n : Nat) : List (Nat × Nat) :=
  (List.range ((a % g + n + (g - 1)) / g)).map fun i =>
    let lo := max a ((a / g + i) * g)
    let hi := min (a + n) ((a / g + i + 1) * g)
    (lo % 2 ^ 48, hi - lo)

/-- What a window covers, and every home's size, is a multiple of this (R363, R267). -/
def block : Nat := 2 ^ 21

/-- The failures of accesses of a kind: cause, address, ACC of R359. -/
def failures (l : Loc) (acc : Nat) (rs : List (Nat × Nat)) : List (Nat × Nat × Nat) :=
  rs.flatMap fun r => (pieces block r.1 r.2).filterMap fun p =>
    match l p.1 with
    | .error (.trap c) => some (c, p.1, acc)
    | _ => none

/-- HBM that does not exist among the ranges. -/
def goneAt (l : Loc) (rs : List (Nat × Nat)) : Option Nat :=
  rs.findSome? fun r => (pieces block r.1 r.2).findSome? fun p =>
    match l p.1 with
    | .error (.gone pa) => some pa
    | _ => none

/-- The failure taken: lowest cause, then lowest address (R360). -/
def lowest : List (Nat × Nat × Nat) → Option (Nat × Nat × Nat)
  | [] => none
  | x :: xs => match lowest xs with
    | none => some x
    | some y => if y.1 < x.1 ∨ (y.1 = x.1 ∧ y.2.1 < x.2.1) then some y else some x

/-- Bytes of a range; the pieces of 64 bytes follow the phase pairs (R374). -/
def readRange (s : State) (l : Loc) (a n : Nat) : List Byte :=
  (pieces 64 a n).flatMap fun p =>
    match l p.1 with
    | .ok (sp, off) => s.readAt sp off p.2
    | .error _ => List.replicate p.2 0

/-- Write one piece and drop its bytes. -/
def writePiece (l : Loc) (st : State × List Byte) (p : Nat × Nat) : State × List Byte :=
  match l p.1 with
  | .ok (sp, off) => (st.1.writeAt sp off (st.2.take p.2), st.2.drop p.2)
  | .error _ => (st.1, st.2.drop p.2)

/-- Write a range. -/
def writeRange (s : State) (l : Loc) (a : Nat) (bs : List Byte) : State :=
  ((pieces 64 a bs.length).foldl (writePiece l) (s, bs)).1

/-- The first bytes of a range that hold an uncorrectable error (R379): home and address. -/
def firstBad (s : State) (l : Loc) (rs : List (Nat × Nat)) : Option (Space × Nat) :=
  rs.findSome? fun r => (pieces 64 r.1 r.2).findSome? fun p =>
    match l p.1 with
    | .ok (sp, off) => if s.badAt sp off p.2 then some (sp, p.1) else none
    | .error _ => none

/-- Bench lines of the acting core that a write of ranges reaches (R373). -/
def benchLines (s : State) (l : Loc) (rs : List (Nat × Nat)) : List Nat :=
  (rs.flatMap fun r => (pieces 64 r.1 r.2).filterMap fun p =>
    match l p.1 with
    | .ok (.bench k, off) => if k = s.core.id.num then some (off / 64) else none
    | _ => none).eraseDups

/-! ### Watchpoints of engine words (R367) -/

/-- The element of a range that holds a byte: the widest of 8, 4, 2 and 1 bytes that address and
remaining length allow, from the start of the 8-byte block on (R47, R310; log 21). -/
def elemGo (hi b : Nat) : Nat → Nat → Nat
  | 0, x => x
  | n + 1, x =>
    let w := if x % 8 = 0 ∧ x + 8 ≤ hi then 8 else if x % 4 = 0 ∧ x + 4 ≤ hi then 4
      else if x % 2 = 0 ∧ x + 2 ≤ hi then 2 else 1
    if b < x + w then x else elemGo hi b n (x + w)

/-- Address of the element that holds byte b of the range from a. -/
def elemAt (a n b : Nat) : Nat := elemGo (a + n) b 8 (max a (b / 8 * 8))

/-- The hits of accesses of one kind: watchpoint, kind, element address. -/
def wpRange (v : Vis) (kind bit : Nat) (rs : List (Nat × Nat)) : List (Nat × Nat × Nat) :=
  rs.flatMap fun r => (pieces block r.1 r.2).flatMap fun p =>
    (wpHits v kind bit p.1 p.2).map fun w =>
      (w, kind, elemAt p.1 p.2 (max p.1 (vget v.wpl w 0).toNat))

/-- The report of hits (R367): lowest watchpoint, its kind, lowest hit address. -/
def wpTrap (i : Instr) (e : Engine) (hits : List (Nat × Nat × Nat)) : Option (TrapRec × BitVec 16) :=
  match lowest (hits.map fun h => (h.1, h.2.1, h.2.2)) with
  | none => none
  | some (w, k, a) =>
    let a := hits.foldl (fun m h => min m h.2.2) a
    let bits := hits.foldl (fun m h => m ||| BitVec.ofNat 16 (2 ^ h.1)) (0 : BitVec 16)
    some ({ cause := 0x07, addr := BitVec.ofNat 48 a, wpskip := true
            info := BitVec.ofNat 64 (w + k * 16 + engNum e * 2 ^ 8 + wordBits i) }, bits)

/-! ### Rows as lanes and element codes -/

/-- Bytes as the lanes of a queue entry, lane 0 at the lowest address, the rest 0 (R195). -/
def lanesOf (bs : List Byte) : Lanes :=
  Vector.ofFn fun i => BitVec.ofNat 32 (leNat ((bs.drop (4 * i.val)).take 4))

/-- A queue entry with every lane active (R160). -/
def fullEntry (l : Lanes) : LaneEntry := { lanes := l, mask := BitVec.allOnes 64 }

/-- Element n of a row, b bits each, the lowest bits first (R129, R10). -/
def elemOf (b : Nat) (bs : List Byte) (n : Nat) : Nat :=
  if b = 4 then (bs.getD (n / 2) 0).toNat / 16 ^ (n % 2) % 16
  else leNat ((bs.drop (b / 8 * n)).take (b / 8))

/-- The bytes of element codes of b bits each, packed (R129, R10). -/
def packElems (b : Nat) : List Nat → List Byte
  | [] => []
  | x :: y :: t => if b = 4 then BitVec.ofNat 8 (x % 16 + 16 * (y % 16)) :: packElems b t
    else leBytes (b / 8) x ++ packElems b (y :: t)
  | [x] => if b = 4 then [BitVec.ofNat 8 (x % 16)] else leBytes (b / 8) x

/-- The first Q4X pair of a row whose nibbles are both the marker (R129): its first element. -/
def q4xBad (bs : List Byte) : Option Nat :=
  (List.range bs.length).findSome? fun i => if bs.getD i 0 = 0x88 then some (2 * i) else none

/-- EINFO of a Q4X pair fault (R193). -/
def q4xInfo (row elem : Nat) : DWord := BitVec.ofNat 64 (3 + row * 2 ^ 16 + elem * 2 ^ 32)

/-! ### Element values -/

/-- A classified floating word as an operand element. -/
def EVal.ofFl : Fl → EVal
  | .nan s => .nan s
  | .inf a => .inf a
  | .fin a n e => .fin (if a then -(n : Int) else n) e

/-- An element code of a format other than Q4X (R121 to R124, R128). A zero byte of X8 is 2^-127 (log 103). -/
def elemVal (f : BitVec 4) (c : Nat) : EVal :=
  match f.toNat with
  | 0 => .fin (BitVec.ofNat 8 c).toInt 0
  | 4 => .ofFl (unpack 7 8 (-126) c)
  | 5 => .ofFl (unpack 10 5 (-14) c)
  | 6 => if c = 255 then .nan false else .fin 1 ((c : Int) - 127)
  | 8 => .ofFl (unpack 23 8 (-126) c)
  | 9 => .fin (BitVec.ofNat 32 c).toInt 0
  | _ =>
    match decodeE (decide (f = 2)) c with
    | none => .nan false
    | some (a, n, e) => .fin (if a then -(n : Int) else n) e

/-- Two nibbles of a Q4X pair as elements; a faulty pair never reaches the engine (R129, R193). -/
def q4xVals (lo hi : Nat) : List EVal :=
  match q4xPair lo hi with
  | some (x, y) => [.fin x 0, .fin y 0]
  | none => [.fin 0 0, .fin 0 0]

/-- The elements of a row of bytes (R129, R167). -/
def rowVals (f : BitVec 4) (bs : List Byte) : List EVal :=
  if f = 1 then bs.flatMap fun b => q4xVals (b.toNat % 16) (b.toNat / 16)
  else
    let b := bitsOr8 f
    (List.range (8 * bs.length / b)).map fun k => elemVal f (elemOf b bs k)

/-- An exact value n × 2^e. -/
abbrev Dy := Int × Int

/-- Exact addition. -/
def Dy.add (x y : Dy) : Dy :=
  let q := min x.2 y.2
  (x.1 * 2 ^ (x.2 - q).toNat + y.1 * 2 ^ (y.2 - q).toNat, q)

/-- Exact sum. -/
def dySum (l : List Dy) : Dy := l.foldl Dy.add (0, 0)

/-- Exact addition of element values; a sum that meets a NaN or an infinity holds no value, and every row
that reads it is exempt (R184). -/
def EVal.add : EVal → EVal → EVal
  | .fin n e, .fin m g => let d := Dy.add (n, e) (m, g); .fin d.1 d.2
  | _, _ => .nan false

/-- Exact sum of element values. -/
def evSum (l : List EVal) : EVal := l.foldl EVal.add (.fin 0 0)

/-- An element value scaled by an X8 byte (R128): the NaN scale leaves no value. -/
def EVal.scaled (b : Byte) : EVal → EVal
  | .fin n e => if b = 255 then .nan false else .fin n (e + (b.toNat : Int) - 127)
  | x => x

/-- The elements of a decoded block, column by column, along K (R177, R193). -/
def blockCols (b : WBlock) : List (List EVal) :=
  (List.range 64).map fun c =>
    let code (k : Nat) : Nat := (b.elems.getD (64 * k + c) 0).toNat
    if b.fmt = 1 then (List.range 16).flatMap fun p => q4xVals (code (2 * p)) (code (2 * p + 1))
    else (List.range 32).map fun k => elemVal b.fmt (code k)

end Sys2Proof.Machine
end

