-- ==== Sys2Proof/Machine/Queue.lean ====
section
/-! DEFINITION. Pushing engine words (R45, R142, R153, R164), the queue words of the control core
(R91, R92), the priority queue (R102, R103) and the host's mailbox vector (R386). -/

namespace Sys2Proof.Machine

/-! ### Engine queues -/

/-- Words waiting in an engine's queue; register writes in it take no entry (R142). -/
def Eng.words (e : Eng) : Nat := (e.queue.filter fun
  | .word _ => true
  | .reg _ _ => false).length

/-- The engine an engine field names (R45). -/
def engineOf : Nat → Option Engine
  | 1 => some .load | 2 => some .matrix | 3 => some .vector | 4 => some .copy | 5 => some .stream
  | _ => none

/-- LADV advances LIVE as it is pushed (R153, R201). -/
def advLive (v : Vis) (st : Fin 16) (l : Nat) : Vis :=
  let x := v.st[st]
  let y := { x with live := x.live + (x.step.toList.getD l 0).signExtend 48 }
  { v with st := v.st.set st.val y st.isLt }

/-- The change of LIVE that pushing a word makes (R153). -/
def pushLive (w : Word) (v : Vis) : Vis :=
  match decode w.toNat none with
  | .ok (.ladv _ st l) => advLive v st l.val
  | _ => v

/-- The entry of a word pushed now (R142). -/
def Core.entryOf (c : Core) (w : Word) (cont : Option Word) (tag : Option (Fin 2 × Nat))
    (a : VAddr) : Entry :=
  { word := w, cont := cont, tag := tag, addr := a, snap := c.vis, pushed := c.tick }

/-- Push an engine word at its queue's tail (R45), if the queue has room. -/
def State.push (s : State) (e : Engine) (w : Word) (cont : Option Word)
    (tag : Option (Fin 2 × Nat)) (a : VAddr) : Option State :=
  if 64 ≤ (s.core.eng e).words then none
  else some (s.upd fun c =>
    let c := c.setEng e fun x => { x with queue := x.queue ++ [.word (c.entryOf w cont tag a)] }
    { c with vis := pushLive w c.vis })

/-! ### The control core's queues -/

/-- An entry of xq pushed now (R145). -/
def State.pushXq (s : State) (x : DWord) : State :=
  s.upd fun c => { c with q := { c.q with xq := c.q.xq ++ [{ value := x, pushed := c.tick }] } }

/-- QPUSH xq waits while 16 entries are held; recording adds an entry (R91, R92, R115, R304). -/
def pushXq (a : Fin 32) (s : State) : Out :=
  ctlWord [a] s fun s0 =>
    let (x, s1) := s0.readG a
    if 16 ≤ s1.core.q.xq.length then .wait s0
    else
      let s2 := (s1.unreplayableIf (s0.taint a)).recordXq x
      .issue (s2.pushXq x)

/-- The first push into an empty outbound mailbox raises the tenant's vector 4t + 3 (R386). -/
def State.mboxVector (s : State) : State :=
  if s.core.q.mboxOut.isEmpty then s.raise s.core.ctl.regs.tenant 3 else s

/-- QPUSH to the host mailbox (R91, R115, R376, R386). -/
def pushMbox (a : Fin 32) (s : State) : Out :=
  ctlWord [a] s fun s0 =>
    let (x, s1) := s0.readG a
    if 16 ≤ s1.core.q.mboxOut.length then .wait s0
    else .issue ((s1.unreplayable.setIrrev.mboxVector).updQ fun q =>
      { q with mboxOut := q.mboxOut ++ [x] })

/-- QPUSH (R92). -/
def execQpush (a : Fin 32) (q : PushQ) (s : State) : Out :=
  match q with
  | .xq => pushXq a s
  | .mbox => pushMbox a s

/-- The entries of a queue that QPOP and QCNT name, zero-extended (R91). -/
def Queues.entries (q : Queues) : PopQ → List DWord
  | .rq0 => q.rq0.map (·.zeroExtend 64)
  | .rq1 => q.rq1.map (·.zeroExtend 64)
  | .cq => q.cq
  | .wsq => q.wsq
  | .mbox => q.mboxIn

/-- Remove the oldest entry. -/
def Queues.drop (q : Queues) : PopQ → Queues
  | .rq0 => { q with rq0 := q.rq0.tail }
  | .rq1 => { q with rq1 := q.rq1.tail }
  | .cq => { q with cq := q.cq.tail }
  | .wsq => { q with wsq := q.wsq.tail }
  | .mbox => { q with mboxIn := q.mboxIn.tail }

/-- Popping cq, wsq or the mailbox makes a phase irreversible (R376). -/
def popIrrev : PopQ → Bool
  | .cq => true | .wsq => true | .mbox => true | _ => false

/-- The carried mark of the entry that a pop of rq0 or rq1 takes (R376): reading it makes the phase
irreversible, and one entry fewer is carried. -/
def State.popCarried (s : State) (q : PopQ) : State :=
  let k := s.core.phase.carried
  let s := if (match q with
    | .rq0 => decide (0 < k.rq0)
    | .rq1 => decide (0 < k.rq1)
    | _ => false) then s.setIrrev else s
  s.upd fun c => { c with phase := { c.phase with carried := match q with
    | .rq0 => { k with rq0 := k.rq0 - 1 }
    | .rq1 => { k with rq1 := k.rq1 - 1 }
    | _ => k } }

/-- QPOP (R92): waits on an empty queue, interlocked. -/
def execQpop (d : Fin 32) (q : PopQ) (s : State) : Out :=
  ctlWord [] s fun s0 =>
    match s0.core.q.entries q with
    | [] => .wait s0
    | x :: _ =>
      let s1 := (if popIrrev q then s0.setIrrev else s0.popCarried q).unreplayable
      .issue ((s1.updQ fun y => y.drop q).writeGLocked d x true)

/-- QCNT (R92). -/
def execQcnt (d : Fin 32) (q : PopQ) (s : State) : Out :=
  ctlWord [] s fun s0 => .issue (s0.unreplayable.writeGLocked d
    (BitVec.ofNat 64 (s0.core.q.entries q).length) true)

/-! ### The priority queue -/

/-- Whether one entry comes before another (R102): the larger key, signed; then the smaller
payload, unsigned. -/
def pqBefore (x y : DWord × DWord) : Bool :=
  y.1.slt x.1 || (x.1 == y.1 && decide (x.2 ≤ y.2))

/-- Insert, keeping the top entry first (R102, R103). -/
def pqInsert (x : DWord × DWord) : List (DWord × DWord) → List (DWord × DWord)
  | [] => [x]
  | y :: t => if pqBefore x y then x :: y :: t else y :: pqInsert x t

/-- The top entry, or the pair that an empty queue gives (R102). -/
def pqTop : List (DWord × DWord) → DWord × DWord
  | [] => (0x8000000000000000, 0xFFFFFFFFFFFFFFFF)
  | x :: _ => x

/-- PQPUSH (R102): with 256 entries present it traps with 0x19. -/
def execPqpush (a b : Fin 32) (s : State) : Out :=
  ctlWord [a, b] s fun s0 =>
    let (x, s1) := s0.readG a
    let (y, s2) := s1.readG b
    if 256 ≤ s2.core.q.pq.length then .trap { cause := 0x19, addr := s0.core.nowAddr }
    else .issue (s2.updQ fun q => { q with pq := pqInsert (x, y) q.pq })

/-- PQPOP (R102): payload written last. -/
def execPqpop (d b : Fin 32) (s : State) : Out :=
  ctlWord [] s fun s0 =>
    let t := pqTop s0.core.q.pq
    let s1 := s0.unreplayable.updQ fun q => { q with pq := q.pq.tail }
    .issue ((s1.writeGLocked d t.1 true).writeGLocked b t.2 true)

/-- PQTOP (R102). -/
def execPqtop (d b : Fin 32) (s : State) : Out :=
  ctlWord [] s fun s0 =>
    let t := pqTop s0.core.q.pq
    .issue ((s0.unreplayable.writeGLocked d t.1 true).writeGLocked b t.2 true)

/-- PQCLR (R102). -/
def execPqclr (s : State) : Out :=
  ctlWord [] s fun s0 => .issue (s0.updQ fun q => { q with pq := [] })

/-- PQCNT (R102). -/
def execPqcnt (d : Fin 32) (s : State) : Out :=
  ctlWord [] s fun s0 => .issue (s0.unreplayable.writeGLocked d
    (BitVec.ofNat 64 s0.core.q.pq.length) true)

end Sys2Proof.Machine
end

