-- ==== Sys2Proof/Machine/Hook.lean ====
section
/-! DEFINITION. The user debug hook (R369 to R371): what entering it saves and empties, what ending
it restores. The handler's acts are tied to its writes of HOOK in ESTAT (log 14). -/

namespace Sys2Proof.Machine

/-- Entering the hook (R369, steps 1 to 3): save, empty the queues and FIFOs, set HOOK. -/
def Core.enterHook (c : Core) : Core :=
  let save : HookSave := {
    b0 := c.ctl.b0, taintG := c.ctl.taintG, taintC := c.ctl.taintC, taintT := c.ctl.taintT
    vis := c.vis, regs := c.ctl.regs
    queues := #v[c.load.queue, c.matrix.queue, c.vector.queue, c.copy.queue, c.stream.queue]
    q := c.q, tok := c.tok, vflags := c.vec.vflags, mx := c.mx, vb := c.vec.vb, pb := c.vec.pb
    slot := c.land.slot, nestSaved := c.ctl.nestSaved, liveSet := c.ctl.liveSet, sd := c.sd, hold := c.cp.hold, phase := c.phase, jig := c.jig }
  let c := [Engine.load, .matrix, .vector, .copy, .stream].foldl
    (fun c e => c.setEng e fun x => { x with queue := [] }) c
  { c with
    hook := some save
    tok := .replicate 8 0
    q := { c.q with vq := .replicate 4 [], wq := [], mq := [], xq := [], rq0 := [], rq1 := [] }
    ctl := { c.ctl with regs := { c.ctl.regs with hook := true } } }

/-- The matrix path after a hook (R371): tiles with their shapes and sums, accumulators with their type
bits, and the heap keep what the hook left; the rest is as the trap found it. -/
def Matrix.afterHook (now was : Matrix) : Matrix :=
  { was with
    tiles := now.tiles, shape := now.shape, sums := now.sums, acc := now.acc, accI := now.accI
    heap := now.heap, heapk := now.heapk }

/-- An engine after a hook: its queue as the trap found it, without issued words of the hook. -/
def Eng.afterHook (g : Eng) (q : List QItem) : Eng :=
  { g with queue := q, issued := g.issued.filter fun w => !w.hooked }

/-- The phase after a hook (R371): carried marks and popped blocks are as the trap found them, as their queues are; a
rollback that is to come still comes. -/
def Phase.afterHook (now was : Phase) : Phase := { was with rollback := now.rollback, error := now.error }

/-- The copies held after a hook (R371): those that the trap found and that have not been released since. -/
def heldAfterHook (now was : List HeldCopy) : List HeldCopy :=
  was.filterMap fun h => (now.find? fun x => decide (x.pieces = h.pieces) && decide (x.entry = h.entry)).map
    fun x => { x with carried := h.carried }

/-- Ending the hook (R371, steps 2 and 3): everything but what R371 names is as the trap found it, a recording
included; the mailbox is the host's too, and a slot that was empty keeps what has landed in it since. -/
def Core.leaveHook (c : Core) : Core :=
  match c.hook with
  | none => { c with ctl := { c.ctl with regs := { c.ctl.regs with hook := false } } }
  | some h =>
    { c with
      hook := none
      load := c.load.afterHook h.queues[0]
      matrix := c.matrix.afterHook h.queues[1]
      vector := c.vector.afterHook h.queues[2]
      copy := c.copy.afterHook h.queues[3]
      stream := c.stream.afterHook h.queues[4]
      tok := h.tok
      q := { h.q with mboxOut := c.q.mboxOut, mboxIn := c.q.mboxIn, mboxDrop := c.q.mboxDrop }
      vis := h.vis
      phase := c.phase.afterHook h.phase
      jig := h.jig
      sd := h.sd
      cp := { c.cp with hold := heldAfterHook c.cp.hold h.hold }
      mx := c.mx.afterHook h.mx
      vec := { c.vec with vflags := h.vflags, vb := h.vb, pb := h.pb }
      land := { c.land with slot := Vector.ofFn fun i => h.slot[i].or c.land.slot[i] }
      ctl := { c.ctl with
        b0 := h.b0, taintG := h.taintG, taintC := h.taintC, taintT := h.taintT
        nestSaved := h.nestSaved, liveSet := h.liveSet
        regs := { c.ctl.regs with
          hook := false, uhen := h.regs.uhen, uhaddr := h.regs.uhaddr, wphit := h.regs.wphit
          ecause := h.regs.ecause, einfo := h.regs.einfo, eaddr := h.regs.eaddr
          epc0 := h.regs.epc0, epc1 := h.regs.epc1, epc2 := h.regs.epc2, enul := h.regs.enul
          origin := h.regs.origin, wpskip := h.regs.wpskip, prog := h.regs.prog
          retried := h.regs.retried } } }

/-- Whether every engine has completed what was pushed to it (R371, R109, R113). -/
def Core.allIdle (c : Core) : Bool :=
  [Engine.load, .matrix, .vector, .copy, .stream].all c.engIdle

/-- Whether every word that the hook pushed has completed (R371): every queue is empty, and what has
not retired waits for something older than the hook, or behind it. -/
def Core.hookDone (c : Core) : Bool :=
  [Engine.load, .matrix, .vector, .copy, .stream].all fun e =>
    (c.eng e).queue.isEmpty && (match (c.eng e).issued with
      | [] => true
      | w :: _ => w.waits || w.upto.isSome)

/-- A write of ESTAT (R361): HOOK rising enters the hook, HOOK falling ends it. -/
def Core.writeEstat (c : Core) (v : DWord) : Core :=
  let was := c.ctl.regs.hook
  let now := bitsOf v 4 1 == 1
  if now && !was then
    { c.enterHook with ctl := { c.enterHook.ctl with
        regs := { c.enterHook.ctl.regs with wpskip := bitsOf v 3 1 == 1 } } }
  else if was && !now then c.leaveHook
  else { c with ctl := { c.ctl with regs := writeTrapReg c.ctl.regs 0x028 v } }

end Sys2Proof.Machine
end

