-- ==== Sys2Proof/Machine/Special.lean ====
section
/-! DEFINITION. Words that read and write special registers (R87 to R90). -/

namespace Sys2Proof.Machine

/-- MFS (R87, R89, R167): bound 2, or interlocked when engines write the register. -/
def execMfs (d : Fin 32) (sr : BitVec 12) (s : State) : Out :=
  ctlWord [] s fun s0 =>
    let n := sr.toNat
    let t := decide (6 < n)
    if !srAssigned n then .trap (illegal (.mfs d sr) 0x0C s0.core.nowAddr 0)
    else if !srMayRead s0.core.ctl.bank1 n then .trap (access 0x02 (.mfs d sr) 0 0 0)
    else if (srWaits n).isEmpty then .issue (s0.writeG d (s0.readSR n) 2 t)
    else if (srWaits n).all s0.core.engIdle then .issue (s0.writeGLocked d (s0.readSR n) t)
    else .wait s0

/-- A write of a special register by a control word (R37, R87): the checks, the wait for a hook's
words (R371), the write. -/
def mtsBody (i : Instr) (sr : BitVec 12) (v : DWord) (s0 : State) (note : State → State) : Res :=
  let n := sr.toNat
  if !srAssigned n then .trap (illegal i 0x0C s0.core.nowAddr 0)
  else if !srMayWrite s0.core.ctl.bank1 n then .trap (access 0x02 i 1 0 0)
  else if n = 0x028 then
    if s0.core.ctl.regs.hook && !(bitsOf v 4 1 == 1) && !s0.core.hookDone then .wait s0
    else .issue (s0.upd fun c => c.writeEstat v)
  else .issue ((note s0).writeSR n v)

/-- MTS (R87, R115, R304). -/
def execMts (a : Fin 32) (sr : BitVec 12) (s : State) : Out :=
  ctlWord [a] s fun s0 =>
    let (x, s1) := s0.readG a
    mtsBody (.mts a sr) sr x s1 fun z =>
      if engVisible sr then (z.unreplayableIf (s0.taint a)).recordValue sr x else z

/-- MTSI (R87, R115). -/
def execMtsi (sr : BitVec 12) (imm : BitVec 11) (s : State) : Out :=
  ctlWord [] s fun s0 =>
    mtsBody (.mtsi sr imm) sr (imm.signExtend 64) s0 fun z =>
      if engVisible sr then z.recordValue sr (imm.signExtend 64) else z

/-- MTSR (R87, R90): while a jig records, a shim entry of RELk. -/
def execMtsr (k : Fin 16) (a : Fin 32) (sr : BitVec 12) (s : State) : Out :=
  ctlWord [a] s fun s0 =>
    let (x, s1) := s0.readG a
    mtsBody (.mtsr k a sr) sr x s1 fun z =>
      if engVisible sr then
        (z.unreplayableIf (s0.taint a)).recordShim sr k (x - s0.core.ctl.regs.rel[k])
      else z

end Sys2Proof.Machine
end

