-- ==== Sys2Proof/Machine/Sync.lean ====
section
/-! DEFINITION. Barriers, plumb marks, tick waits, events, waiting for engines and phase commit
(R93 to R98, R109, R275, R289, R290, R374 to R376), with the events that end the waits. -/

namespace Sys2Proof.Machine

/-- Run a change of the acting core on another core. -/
def State.via (s : State) (f : State → State) (c : Core) : Core := (f { s with core := c }).core

/-- The other cores of the gang. -/
def State.gangOthers (s : State) : List Core := s.others.filter (sameGang s.core)

/-- Apply a change to every core of the acting core's gang that meets a test. -/
def State.onGang (s : State) (test : Core → Bool) (f : State → State) : State :=
  let step (c : Core) : Core := if sameGang s.core c && test c then s.via f c else c
  let others := s.others.map step
  let s := if test s.core then f s else s
  { s with others := others }

/-- The word of a BAR for a recording (R300). -/
def encWord (i : Instr) : Nat :=
  match encode i with
  | some (w, _) => w
  | none => 0

/-- What BAR does as the core leaves barrier id (R93, R115, R376). -/
def barDone (id : Fin 16) (s : State) : State :=
  ((s.setIrrev).recordSync 0 (encWord (.bar id))).updCtl fun c => { c with arrival := none }

/-- Whether a core waits at barrier id. -/
def Core.atBar (c : Core) (id : Fin 16) : Bool := decide (c.ctl.arrival = some (.bar id none))

/-- Whether a core waits at a plumb mark. -/
def Core.atPlumb (c : Core) (m : BitVec 16) : Bool :=
  match c.ctl.arrival with
  | some (.plumb m' _ none) => decide (m' = m)
  | _ => false

/-- Whether a core waits at a BAR or PLUMB (R95). -/
def Core.atSync (c : Core) : Bool :=
  match c.ctl.arrival with
  | some (.bar _ none) => true
  | some (.plumb _ _ none) => true
  | _ => false

/-- ID and KIND of R95. -/
def Core.syncInfo (c : Core) : Nat :=
  match c.ctl.arrival with
  | some (.bar id _) => id.val
  | some (.plumb m _ _) => m.toNat + 2 ^ 16
  | _ => 0

/-- Whether two cores wait at the same kind of word with the same id or mark (R95). -/
def sameSync (c d : Core) : Bool := c.syncInfo == d.syncInfo

/-- Whether the handler runs for a pre-emption (R362). -/
def Core.preempted (c : Core) : Bool :=
  c.ctl.bank1 && decide (c.ctl.regs.ecause = 0x16) && c.ctl.regs.einfo.getLsbD 33

/-- No release can follow (R95): every core that has not retired waits, not all at one point or
one core has retired. While a gang is being saved a core of it only stands in its stop, and its arrival is
withdrawn (R350). -/
def mismatched (s : State) : Bool :=
  let gang := s.core :: s.gangOthers
  let live := gang.filter fun c => !decide (c.ctl.run = .retired)
  match live with
  | [] => false
  | c :: _ => live.all Core.atSync && !gang.any Core.preempted
    && (decide (live.length < gang.length) || !live.all (sameSync c))

/-- Every waiting core traps with 0x0F, MISMATCH (R95). -/
def checkMismatch (s : State) : State :=
  if mismatched s then
    s.onGang Core.atSync fun s => s.updCtl fun c => { c with
      posted := some { cause := 0x0F, info := BitVec.ofNat 64 (s.core.syncInfo + 2 ^ 63) } }
  else s

/-- Whether a core stands on the gang tick of a release, or its gang tick stands (R93). -/
def Core.reached (c : Core) (g : Nat) : Bool := decide (g ≤ c.gtick) || c.gheld

/-- BAR (R93): a gang of one completes at once; otherwise the core arrives and waits, and once the
barrier is released it leaves on the gang tick of the release. -/
def execBar (id : Fin 16) (s : State) : Out :=
  ctlNoHook (.bar id) [] s fun s0 =>
    match s0.core.ctl.arrival with
    | some (.bar _ (some g)) => if s0.core.reached g then .issue (barDone id s0) else .wait s0
    | _ =>
      if s0.gangOthers.isEmpty then .issue (barDone id s0)
      else .wait (checkMismatch (s0.updCtl fun c => { c with arrival := some (.bar id none) }))

/-- Whether every core of the gang has arrived at barrier id (R93). -/
def barReady (s : State) (id : Fin 16) : Bool :=
  s.core.atBar id && s.gangOthers.all (·.atBar id)

/-- The common gang tick on which a released gang leaves a barrier (R93). -/
def leaveTick (s : State) : Nat := s.gangOthers.foldl (fun m c => max m c.gtick) s.core.gtick + 1

/-- BARRIER_RELEASE (R93, R275): every core is to leave on one gang tick; the id is free again. A core that traps
before that tick withdraws its arrival while the others leave (log 82). -/
def execBarrierRelease (id : Fin 16) (s : State) : Out :=
  if barReady s id then
    let g := leaveTick s
    .next (s.onGang (·.atBar id) fun s => s.updCtl fun c => { c with
      arrival := some (.bar id (some g)) }).pass
  else .next s.pass

/-- The GTICK a core holds at a plumb mark. -/
def Core.heldTick (c : Core) : Nat :=
  match c.ctl.arrival with
  | some (.plumb _ h _) => h
  | some (.rft h _) => h
  | _ => c.gtick

/-- A core leaves a plumb mark (R94, R286, R290, R296): its tick passes, GTICK is the release value, on
which its next word may issue, and SLIP is cleared. -/
def leavePlumb (m : BitVec 16) (v : Nat) (s : State) : State :=
  let s := s.noteReach
  let s := s.upd fun c => { c with
    gtick := v
    ctl := { c.ctl with arrival := none, lastMark := some m, plumbed := true
                        relTick := some (c.tick + 1) }
    stall := { c.stall with slip := 0, deferred := none, pulse := none, progress := c.tick + 1 } }
  let s := ((s.setIrrev).recordSync 1 (encWord (.plumb m))).advance.clearReach
  let b1 := s.core.ctl.bank1
  let s := s.upd fun c => { c.tickOn with gtick := v }
  if s.core.ctl.regs.sstep && !b1 then
    s.updCtl fun c => { c with posted := some { cause := 0x17, info := 1 } }
  else s

/-- Whether a mark is refused (R94). -/
def markRefused (c : Core) (m : BitVec 16) : Bool :=
  match c.ctl.lastMark with
  | none => false
  | some l => decide (m ≤ l)

/-- Whether every core of the gang has arrived at a mark (R94). -/
def plumbReady (s : State) (m : BitVec 16) : Bool :=
  s.core.atPlumb m && s.gangOthers.all (·.atPlumb m)

/-- The last arrival at a mark: the release reaches every core 16 to 25 die ticks on (R289). -/
def sendPulse (m : BitVec 16) (s : State) : State :=
  let (k, s1) := s.pick 10
  s1.onGang (·.atPlumb m) fun s => s.updStall fun x => { x with pulse := some (s.core.tick + 16 + k) }

/-- The core arrives at a mark, or waits at it on. -/
def arriveAt (m : BitVec 16) (s : State) : State :=
  let s1 := checkMismatch (s.updCtl fun c => { c with arrival := some (.plumb m s.core.heldTick none) })
  if !s.core.atPlumb m && plumbReady s1 m then sendPulse m s1 else s1

/-- PLUMB (R94): a gang of one releases at once with GTICK raised by 64; otherwise the core arrives, and
once the mark is released it leaves with the release value. -/
def execPlumb (m : BitVec 16) (s : State) : Out :=
  ctlNoHook (.plumb m) [] s fun s0 =>
    match s0.core.ctl.arrival with
    | some (.plumb _ _ (some v)) => .raw (leavePlumb m v s0)
    | _ =>
      if markRefused s0.core m then .trap (illegal (.plumb m) 0x03 s0.core.nowAddr 0)
      else if s0.gangOthers.isEmpty then .raw (leavePlumb m (s0.core.heldTick + 64) s0)
      else .wait (arriveAt m s0)

/-- Whether a core holds its GTICK for a plumb or a re-plumb. -/
def Core.holdsTick (c : Core) : Bool :=
  match c.ctl.arrival with
  | some (.plumb _ _ none) => true
  | some (.rft _ none) => true
  | _ => false

/-- The release value of a plumb or re-plumb (R94, R112): the largest held GTICK plus 64. -/
def releaseTick (s : State) : Nat :=
  (s.gangOthers.filter Core.holdsTick).foldl (fun m c => max m c.heldTick) s.core.heldTick + 64

/-- A mark is released: its value is on its way to the core (R94, R289). -/
def Core.release (v : Nat) (c : Core) : Core :=
  match c.ctl.arrival with
  | some (.plumb m h _) => { c with ctl := { c.ctl with arrival := some (.plumb m h (some v)) } }
  | _ => c

/-- PLUMB_RELEASE (R94, R289): deferred while the gang stands stopped for a stall (R149). -/
def execPlumbRelease (m : BitVec 16) (s : State) : Out :=
  if plumbReady s m then
    let v := releaseTick s
    if s.core.stall.stopped then
      .next (s.onGang (·.atPlumb m) fun s => s.updStall fun x => { x with deferred := some v }).pass
    else .next (s.onGang (·.atPlumb m) (fun s => s.upd (Core.release v))).pass
  else .next s.pass

/-- Whether the overdue count has run out (R290). -/
def overdue (c : Core) : Bool :=
  match c.ctl.relTick with
  | none => false
  | some t => c.ctl.plumbed && decide (c.vis.plumbmax ≠ 0) && !c.ctl.bank1 && !c.ctl.regs.hook
      && decide (t + c.vis.plumbmax.toNat ≤ c.tick)

/-- The mark that an overdue plumb reports (R290). -/
def Core.overdueId (c : Core) : Nat :=
  match c.ctl.arrival, c.ctl.lastMark with
  | some (.plumb m _ _), _ => m.toNat
  | _, some m => m.toNat
  | _, none => 0

/-- PLUMB_OVERDUE (R290): every core of the gang traps with 0x0F, KIND 1, but for one that a trap has put into its
handler, where the count stands (log 99). -/
def execPlumbOverdue (s : State) : Out :=
  .next (s.onGang (fun c => decide (c.ctl.run = .running) && !c.ctl.bank1) fun s => s.updCtl fun c => { c with
    relTick := none
    posted := some { cause := 0x0F, info := BitVec.ofNat 64 (s.core.overdueId + 2 ^ 16) } }).pass

/-- TWAIT (R96). -/
def execTwait (a : Fin 32) (s : State) : Out :=
  ctlNoHook (.twait a) [a] s fun s0 =>
    let (x, s1) := s0.readG a
    if x.toNat ≤ s1.core.gtick then .issue s1 else .wait s0

/-- The event an operand names (R97). -/
def evOf (s : State) (e : EvOp) : Nat × State :=
  match e with
  | .imm v => (v.toNat, s)
  | .reg a => let (x, s1) := s.readG a; (x.toNat % 2 ^ 16, s1)

/-- The register an event operand reads. -/
def evReads : EvOp → List (Fin 32)
  | .imm _ => []
  | .reg a => [a]

/-- SIGEV (R97): marks the event signalled and wakes its waiters. -/
def execSigev (e : EvOp) (s : State) : Out :=
  ctlWord (evReads e) s fun s0 =>
    let (ev, s1) := evOf s0 e
    .issue (((s1.setIrrev).recordSync 2 (encWord (.sigev (.imm (BitVec.ofNat 16 ev))))).signal
      s1.core.ctl.regs.tenant ev)

/-- WAITEV (R97, R344): completes when the event is signalled, or when a signalling has met the
wait. It clears nothing. -/
def execWaitev (e : EvOp) (s : State) : Out :=
  ctlWord (evReads e) s fun s0 =>
    let (ev, s1) := evOf s0 e
    if s1.sys.tenants[s1.core.ctl.regs.tenant].signalled ev
        || decide (s1.core.ctl.arrival = some (.waitev ev true)) then
      .issue (((s1.setIrrev).recordSync 3 (encWord (.waitev (.imm (BitVec.ofNat 16 ev))))).updCtl
        fun c => { c with arrival := none })
    else .wait (s0.updCtl fun c => { c with arrival := some (.waitev ev false) })

/-- EVENT_WAKE (R343): an event is signalled from outside the core, and every waiter is woken. -/
def execEventWake (tn : Fin 16) (ev : BitVec 16) (s : State) : Out :=
  .next (s.signal tn ev.toNat).pass

/-- WAITQ (R109): bits load, matrix, vector, copy, stream. -/
def execWaitq (mask : BitVec 5) (s : State) : Out :=
  ctlWord [] s fun s0 =>
    if [Engine.load, .matrix, .vector, .copy, .stream].all (fun e =>
        !mask.getLsbD (engNum e - 1) || s0.core.engIdle e) then .issue s0
    else .wait s0

/-! ### Phase commit (R98, R374 to R376) -/

/-- Whether an issued word counts as complete while a held copy before it keeps it from retiring (R144, R312): its
own work is done. -/
def Issued.done (w : Issued) (tick : Nat) : Bool := !w.batch && w.upto.isNone && !w.early tick

/-- Whether an engine has nothing left but held copies, with complete words behind them (R98, R109, R312). -/
def Core.engHeldOnly (c : Core) (e : Engine) : Bool :=
  (c.eng e).queue.isEmpty && (match (c.eng e).issued with
    | [] => true
    | w :: t => w.hold.isSome && t.all (·.done c.tick))

/-- Whether every engine word pushed has completed but for held copies (R98). -/
def Core.commitReady (c : Core) : Bool :=
  [Engine.load, .matrix, .vector, .copy, .stream].all c.engHeldOnly

/-- Sum of bytes mod 255 (R186). -/
def residueOf (bs : List Byte) : Nat := (bs.foldl (fun a b => a + b.toNat) 0) % 255

/-- Perform the writes of a released copy (R312). -/
def releaseCopy (s : State) (h : HeldCopy) : State :=
  h.writes.foldl (fun s w => writeRange s (locate s (.eng .copy) .write) w.addr.toNat w.bytes) s

/-- Release the copies a pair holds (R98, R312): their writes perform and their words may retire. -/
def State.releaseHeld (s : State) (p : Fin 8) : State :=
  let hs := s.core.cp.hold.filter (fun h => decide (h.pair = p))
  let s := hs.foldl releaseCopy s
  let free (w : Issued) : Issued := if w.hold = some p then { w with hold := none } else w
  s.upd fun c => { c with
    cp := { c.cp with hold := c.cp.hold.filter (fun h => !decide (h.pair = p)) }
    copy := { c.copy with issued := c.copy.issued.map free } }

/-- Bytes of a held copy. -/
def HeldCopy.size (h : HeldCopy) : Nat := (h.writes.map fun r => r.bytes.length).sum

/-- The first row held for a pair whose residue no longer matches its bytes (R98, R186): its address
and number. -/
def badResidue (c : Core) (p : Fin 8) : Option (VAddr × Nat) :=
  (c.cp.hold.filter fun h => decide (h.pair = p)).findSome? fun h =>
    (List.range h.writes.length).findSome? fun k => match h.writes[k]? with
      | some w => (match w.residue with
        | some r => if residueOf w.bytes ≠ r then some (w.addr, k) else none
        | none => none)
      | none => none

/-- Whether a copy held for a pair holds an uncorrectable error, which its release consumes (R379). -/
def badHold (s : State) (p : Fin 8) : Bool :=
  s.core.cp.hold.any fun h => decide (h.pair = p)
    && h.pieces.any fun x => s.badAt (.hold s.core.id.num) x.1 x.2

/-- The error that releasing the copies of some pairs meets (R98, R378, R379): an uncorrectable error, or
a residue that does not match at the memory write. -/
def holdError (s : State) (l : List (Fin 8)) : Option TrapRec :=
  match l.findSome? (badResidue s.core) with
  | some (a, k) => some { cause := 0x12, addr := a, origin := 4
                          info := BitVec.ofNat 64 (1 + 4 * 2 ^ 8 + k * 2 ^ 16) }
  | none =>
    if l.any (badHold s) then some { cause := 0x13, info := 4 + 4 * 2 ^ 8, origin := 4 } else none

/-- Mark everything carried (R376). -/
def Core.carryAll (c : Core) : Carried :=
  { tile := BitVec.allOnes 16, acc := BitVec.allOnes 4, v := BitVec.allOnes 24
    p := BitVec.allOnes 16, heap := true, gen := true, dq := true
    epi := BitVec.allOnes 8, bank := BitVec.allOnes 8
    asc := (c.mx.ascale.map (·.length)).sum, bsc := (c.mx.bscale.map (·.length)).sum
    xq := c.q.xq.length, rq0 := c.q.rq0.length, rq1 := c.q.rq1.length, wsq := c.q.wsq.length }

/-- A commit point (R375, R376): IRREV and RETRIED clear, the snapshot is taken with the place of the
word after the commit, each pair's SRC becomes its refetch source, everything becomes carried. -/
def Core.commit (c : Core) (pcq : PcQueue) (play : Option Replay) : Core :=
  let vis := { c.vis with ph := c.vis.ph.map fun x => { x with irrev := false } }
  let regs := { c.ctl.regs with retried := false }
  let c := { c with vis := vis, ctl := { c.ctl with regs := regs } }
  let mark (e : LaneEntry) : LaneEntry := { e with carried := true }
  { c with
    q := { c.q with vq := c.q.vq.map (fun l => l.map mark), wq := c.q.wq.map mark
                    mq := c.q.mq.map mark }
    phase := {
      snap := some { b0 := c.ctl.b0, taintG := c.ctl.taintG, taintC := c.ctl.taintC
                     taintT := c.ctl.taintT, pcq := pcq, vis := vis, regs := regs
                     epcolbase := c.mx.epcolbase, mflags := c.mx.mflags, vflags := c.vec.vflags
                     pq := c.q.pq, tok := c.tok, nest := c.ctl.nest, nestSaved := c.ctl.nestSaved
                     liveSet := c.ctl.liveSet, play := play, srcs := c.vis.ph.toList.map (·.src) }
      carried := c.carryAll }
    cp := { c.cp with hold := c.cp.hold.map fun h => { h with carried := true } } }

/-- The PC queue of the word after the word that issues. -/
def Core.pcqAfter (c : Core) : PcQueue :=
  match c.livePlay with
  | some _ => c.ctl.pcq
  | none => c.rotate

/-- The replay past the entry that issues (R98, R301). -/
def Core.playAfter (c : Core) : Option Replay :=
  match c.livePlay with
  | some p => some { p with next := p.next + 1, since := c.gtick }
  | none => c.jig.play

/-- A retried phase has reached its commit: the error that it was retried for is logged as transient
(R377, R380). -/
def State.logRetried (s : State) : State :=
  if s.core.ctl.regs.retried then
    let (t, k) := s.core.phase.error.getD ({ cause := 0 }, s.dieTick s.core.id.die)
    s.logErrorAt s.core.id 2 t.cause.toNat t.whereOf 0 t.info k
  else s

/-- PHSW (R98): refused for a pair of zero length or one that passes the bench (R374); waits for
the engines; a residue mismatch rolls back; then release, exchange, snapshot. -/
def execPhsw (p : Fin 8) (s : State) : Out :=
  ctlWord [] s fun s0 =>
    let x := s0.core.vis.ph[p]
    if x.len = 0 ∨ benchSize < x.base.toNat * 64 + 128 * x.len.toNat then
      .trap (illegal (.phsw p) 0x03 s0.core.nowAddr 0)
    else if !s0.core.commitReady then .wait s0
    else match holdError s0 [p] with
    | some t => .stuck (silentError t s0)
    | none =>
      let s1 := ((s0.releaseHeld p).recordSync 4 (encWord (.phsw p))).logRetried
      let y := { x with cur := !x.cur }
      let s2 := s1.updVis fun v => { v with ph := v.ph.set p.val y p.isLt }
      .issue (s2.upd fun c => c.commit c.pcqAfter c.playAfter)

end Sys2Proof.Machine
end

