-- ==== Sys2Proof/Machine/Nest.lean ====
section
/-! DEFINITION. Nests (R104 to R108, R154 to R159): the check of a table, the odometer, the places of
the sequencer, NGO and NBRK. The sequencer pushes ahead as far as the lead limit allows (log 9). -/

namespace Sys2Proof.Machine

/-- First special-register number of a nest table (R154). -/
def nestBase (k : Fin 2) : Nat := if k = 0 then 0x210 else 0x260

/-- The control words that may stand in a body (R105). -/
def bodyAllowed : Instr → Bool
  | .add .. | .sub .. | .and .. | .or .. | .xor .. | .andn .. | .sll .. | .srl .. | .sra ..
  | .rotl .. | .mul .. | .mulh .. | .mulhu .. | .div .. | .divu .. | .rem .. | .remu .. | .min ..
  | .max .. | .minu .. | .maxu .. | .clz .. | .ctz .. | .popc .. => true
  | .addi .. | .andi .. | .ori .. | .xori .. | .slli .. | .srli .. | .srai .. | .lui ..
  | .adrp .. => true
  | .ceq .. | .cne .. | .clt .. | .cge .. | .cltu .. | .cgeu .. | .cbs .. | .cbc .. | .ceqi ..
  | .cnei .. | .clti .. | .cgei .. | .cltui .. => true
  | .sand .. | .sor .. | .sxor .. | .snot .. | .smov .. | .sset .. | .sclr .. => true
  | .ldb .. | .ldbu .. | .ldh .. | .ldhu .. | .ldw .. | .ldwu .. | .ldd .. | .stb .. | .sth ..
  | .stw .. | .std .. => true
  | .mfs .. | .mts .. | .mtsi .. | .mtsr .. => true
  | .qpush .. | .qpop .. | .qcnt .. => true
  | .sigev .. | .waitev .. | .nbrk .. => true
  | .nop .. => true
  | _ => false

/-- Body word i of an NGO at an address. -/
def Core.bodyWord (c : Core) (a : VAddr) (i : Nat) : Option Word :=
  c.fetch (a + 4 + 4 * BitVec.ofNat 48 i)

/-- Whether body word i is the continuation of the word before it (R104). -/
def Core.bodyCont (c : Core) (a : VAddr) (i : Nat) : Bool :=
  match i with
  | 0 => false
  | j + 1 =>
    (match c.bodyWord a j, c.bodyWord a (j + 1) with
    | some w, some x => isLong w.toNat && decide (x.toNat / 2 ^ 29 = 7)
    | _, _ => false)

/-- Whether body word i may not stand in a body (R104, R105). -/
def Core.bodyBad (c : Core) (a : VAddr) (n i : Nat) : Bool :=
  match c.bodyWord a i with
  | none => false
  | some w =>
    if w.toNat / 2 ^ 29 = 0 then
      (match decode w.toNat none with
      | .ok x => !bodyAllowed x
      | .error _ => true)
    else isLong w.toNat && decide (n ≤ i + 1)

/-- The first failing register of a table's trip counts (R155): a level of 0, or, where the product of the
six counts is 2^48 or more, the level at which the running product reaches it. -/
def tripsBad (t : NestTab) : Option Nat :=
  let ts := t.level.toList.map (·.trips.toNat)
  let big := decide (2 ^ 48 ≤ ts.foldl (· * ·) 1)
  (List.range 6).findSome? fun l =>
    if ts.getD l 0 = 0 ∨ (big ∧ 2 ^ 48 ≤ (ts.take (l + 1)).foldl (· * ·) 1) then some (1 + l) else none

/-- The first failing body word (R155). -/
def bodyFail (c : Core) (t : NestTab) (a : VAddr) (n : Nat) : Option Nat :=
  (List.range n).findSome? fun i =>
    let e := vget t.body i (0, 0)
    if !c.bodyCont a i && (decide (e.1 = 3) || decide (6 ≤ e.2.toNat) || c.bodyBad a n i) then
      some (8 + i) else none

/-- The register a nest table's check charges (R155). -/
def nestInvalid (c : Core) (k : Fin 2) (a : VAddr) (n : Nat) : Option Nat :=
  match tripsBad c.vis.nest[k] with
  | some o => some (nestBase k + o)
  | none => (bodyFail c c.vis.nest[k] a n).map (nestBase k + ·)

/-- Counters and trip counts, level 0 first, to those of the next iteration; none after the last
(R156). -/
def odometer : List Nat → List Nat → Option (List Nat)
  | c :: cs, t :: ts =>
    if c + 1 < t then some ((c + 1) :: cs)
    else (odometer cs ts).map (0 :: ·)
  | _, _ => none

/-- The counters of the iteration after the last (R157). -/
def afterLast (ts : List Nat) : List Nat :=
  let o := (List.range 6).foldl (fun o l => if 1 < ts.getD l 0 then l else o) 0
  (List.range 6).map fun l => if l = o then ts.getD l 0 else 0

/-- The tag of an iteration (R156). -/
def tagOf : List Nat → List Nat → Nat
  | c :: cs, t :: ts => c + t * tagOf cs ts
  | _, _ => 0

/-- Trip counts of a table. -/
def NestTab.trips (t : NestTab) : List Nat := t.level.toList.map (·.trips.toNat)

/-- Whether body word i fires in an iteration with these counters (R106, R156). -/
def NestRun.fires (r : NestRun) (cur : List Nat) (i : Nat) : Bool :=
  let e := vget r.snap.body i (0, 0)
  let ts := r.snap.trips
  let lv := List.range (e.2.toNat + 1)
  match e.1.toNat with
  | 0 => true
  | 1 => lv.all fun l => cur.getD l 0 == 0
  | 2 => r.broken || lv.all fun l => cur.getD l 0 + 1 == ts.getD l 0
  | _ => false

/-- Whether body word i is a word of its own that fires (R104). -/
def Core.bodyFires (c : Core) (r : NestRun) (cur : List Nat) (i : Nat) : Bool :=
  !c.bodyCont r.addr i && r.fires cur i

/-- The engine that body word i goes to; none for a control word. -/
def Core.bodyEng (c : Core) (r : NestRun) (i : Nat) : Option Engine :=
  (c.bodyWord r.addr i).bind fun w => engineOf (w.toNat / 2 ^ 29)

/-- The first engine word from body word i on that fires; the VLOOP of rotation stands at place n
(R159). -/
def Core.engFrom (c : Core) (r : NestRun) (cur : List Nat) (i : Nat) : Option Nat :=
  (((List.range r.n).drop i).find? fun k => c.bodyFires r cur k && (c.bodyEng r k).isSome).or
    (if r.snap.rot && decide (i ≤ r.n) then some r.n else none)

/-- The first control word from body word i on that fires. -/
def Core.ctlFrom (c : Core) (r : NestRun) (cur : List Nat) (i : Nat) : Option Nat :=
  ((List.range r.n).drop i).find? fun k => c.bodyFires r cur k && (c.bodyEng r k).isNone

/-- The engine word to push next (R105): in an iteration no control word that fires may stand before
it, and its iteration is at most the lead limit ahead of the control words'. -/
def Core.leadFind (c : Core) (r : NestRun) : Nat → NestPlace → Option NestPlace
  | 0, _ => none
  | k + 1, p =>
    match c.engFrom r p.cur p.next with
    | some e => (match c.ctlFrom r p.cur p.next with
      | some x => if x < e then none else some { p with next := e }
      | none => some { p with next := e })
    | none =>
      if r.iter + r.snap.lead.toNat < p.iter + 1 ∨ r.broken then none
      else match odometer p.cur r.snap.trips with
        | some cur => leadFind c r k { iter := p.iter + 1, cur := cur, next := 0 }
        | none => none

/-- The word that rotation pushes (R159). -/
def vloopWord : Word := BitVec.ofNat 32 (encWord (.vloop ⟨false, false, false, false⟩))

/-- What stands at the sequencer's places: a control word, an engine word to push (its continuation
follows it), nothing to issue, a word outside the code image, a full queue, a long form whose next body word is
no continuation (R53). -/
inductive NestItem where
  | word (w : Word)
  | bad (p : NestPlace) (w : Word)
  | push (p : NestPlace) (e : Engine) (w : Word) (cont : Option Word)
  | move
  | outside
  | full
  deriving DecidableEq, Repr

/-- The engine word at a place with its engine and continuation, as the splitter finds it (R53). -/
def Core.pushItem (c : Core) (r : NestRun) (p : NestPlace) : Option NestItem :=
  if r.n ≤ p.next then some (.push p .vector vloopWord none)
  else match c.bodyWord r.addr p.next, c.bodyEng r p.next with
    | some w, some e =>
      if !isLong w.toNat then some (.push p e w none)
      else if c.bodyCont r.addr (p.next + 1) then some (.push p e w (c.bodyWord r.addr (p.next + 1)))
      else some (.bad p w)
    | _, _ => none

/-- What stands at the control words' place. -/
def Core.placeItem (c : Core) (r : NestRun) : NestItem :=
  let todo := !r.place.before r.pushPlace
  if r.n ≤ r.next then (if todo && (c.engFrom r r.cur r.next).isSome then .full else .move)
  else if !c.bodyFires r r.cur r.next then .move
  else match c.bodyWord r.addr r.next with
    | none => .outside
    | some w => if (engineOf (w.toNat / 2 ^ 29)).isNone then .word w else if todo then .full else .move

/-- What the sequencer does next (R104, R105, R156): it pushes the next engine word if its queue has
room; otherwise the control words' place decides. -/
def Core.nestItem (c : Core) (r : NestRun) : NestItem :=
  match (c.leadFind r (r.snap.lead.toNat + 1) r.pushPlace).bind (c.pushItem r) with
  | some (.push p e w x) => if (c.eng e).words < 64 then .push p e w x else c.placeItem r
  | some (.bad p w) => .bad p w
  | _ => c.placeItem r

/-- What LIVE of a stream register gains as the counters move (R157). -/
def liveStep (r : NestRun) (cur cur' : List Nat) (i : Fin 16) : Int :=
  (List.range 6).foldl (fun (a : Int) l =>
    if (vget r.snap.level l {}).smask.getLsbD i.val then
      a + ((cur'.getD l 0 : Int) - (cur.getD l 0 : Int)) * (vget r.steps[i] l 0).toInt
    else a) 0

/-- LIVE of every stream register moves by a step of its own. -/
def moveLive (f : Fin 16 → Int) (v : Vis) : Vis :=
  { v with st := Vector.ofFn fun i => { v.st[i] with live := v.st[i].live + BitVec.ofInt 48 (f i) } }

/-- LIVE of every stream register as the counters move (R157). -/
def nestLive (r : NestRun) (cur cur' : List Nat) (v : Vis) : Vis := moveLive (liveStep r cur cur') v

/-- The place of the push that a write of LIVE, made as words of later iterations had been pushed, has gone with
(log 97). -/
def Core.keptLive (c : Core) (r : NestRun) (i : Fin 16) : Option NestPlace :=
  c.ctl.liveSet[r.table][i].filter fun p => decide (r.iter < p.iter)

/-- What LIVE of a stream register gains as a break takes words of later iterations back (R106, R157): it is again that
of the broken iteration, but for a value written as the push stood past it, which keeps what it was (log 97). -/
def Core.breakStep (c : Core) (r : NestRun) (i : Fin 16) : Int :=
  liveStep r r.pushPlace.cur (match c.keptLive r i with
    | some p => p.cur
    | none => r.cur) i

/-- What LIVE of a stream register gains at the end of a nest (R106, R157). -/
def Core.endStep (c : Core) (r : NestRun) (cur' : List Nat) (i : Fin 16) : Int :=
  if r.broken && (c.keptLive r i).isSome then 0 else liveStep r r.cur cur' i

/-- The CUR fields of a table take the counters' values (R154, R157). -/
def nestCur (k : Fin 2) (cur' : List Nat) (v : Vis) : Vis :=
  let t := v.nest[k]
  let lv := Vector.ofFn (n := 6) fun i => { t.level[i] with cur := BitVec.ofNat 16 (cur'.getD i.val 0) }
  let t := { t with level := lv, next := 0, saved := false }
  { v with nest := v.nest.set k.val t k.isLt }

/-- The running nest. -/
def State.putNest (s : State) (r : NestRun) : State := s.updCtl fun c => { c with nest := some r }

/-- The sequencer pushes an engine word with its iteration's tag and LIVE (R104, R105, R157). -/
def nestPush (r : NestRun) (p : NestPlace) (e : Engine) (w : Word) (cont : Option Word) (s : State) :
    Out :=
  let s1 := s.updVis (nestLive r r.pushPlace.cur p.cur)
  let a := if p.next < r.n then r.addr + 4 + 4 * BitVec.ofNat 48 p.next else r.addr
  match s1.push e w cont (some (r.table, p.iter)) a with
  | none => .next s.noteReach.ticked
  | some t => .next (ctlTick ((t.recordEngine w cont).clearReach.putNest
      { r with ahead := some { p with next := p.next + 1 } }))

/-- The end of an iteration (R157): the counters move; LIVE has moved already if words were pushed ahead.
After the last iteration, or a break, the nest ends and the NGO is passed. -/
def nestNext (r : NestRun) (s : State) : Out :=
  let nx := odometer r.cur r.snap.trips
  let cur' := nx.getD (afterLast r.snap.trips)
  let lead := decide (r.iter < r.pushPlace.iter)
  if r.broken ∨ nx.isNone then
    let s1 := s.updVis fun v => nestCur r.table cur' (moveLive (s.core.endStep r cur') v)
    .next (ctlDone (s1.updCtl fun c => { c with nest := none }))
  else
    let s1 := s.updVis fun v => nestCur r.table cur' (if lead then v else nestLive r r.cur cur' v)
    .next (s1.putNest { r with cur := cur', iter := r.iter + 1, next := 0 }).pass

/-- The address of the body word at a place. -/
def NestRun.addrOf (r : NestRun) (p : NestPlace) : VAddr := r.addr + 4 + 4 * BitVec.ofNat 48 p.next

/-- The sequencer's own move (R104, R157): a push, a wait for room, past a word that does not fire or has
been pushed, or to the next iteration. A long form without its continuation traps before it is pushed (R53). -/
def nestMove (r : NestRun) (s : State) : Out :=
  match s.core.nestItem r with
  | .push p e w x => nestPush r p e w x s
  | .bad p w => .next (takeTrap { cause := 0x01, info := badWordInfo w 0x07, addr := r.addrOf p } s).pass
  | .full => .next s.noteReach.ticked
  | _ =>
    if r.next < r.n then .next (s.putNest (r.bump 1)).pass
    else nestNext r s

/-- Start a nest (R104): the first iteration has counters 0. -/
def nestStart (k : Fin 2) (n : Nat) (a : VAddr) (s : State) : State :=
  let run : NestRun := {
    table := k, addr := a, n := n, iter := 0, cur := List.replicate 6 0, next := 0
    snap := s.core.vis.nest[k], steps := s.core.vis.st.map (·.step) }
  (s.updVis fun v => nestCur k (List.replicate 6 0) v).updCtl fun c => { c with
    nest := some run, nestSaved := c.nestSaved.set k.val none k.isLt
    liveSet := c.liveSet.set k.val (.replicate 16 none) k.isLt }

/-- The body word at which a saved nest goes on: NPOS, whose field does not hold a place past body word
63; one that the handler left alone is the place itself. -/
def NestRun.resumeAt (r : NestRun) (t : NestTab) : Nat :=
  if t.next = BitVec.ofNat 6 r.next then r.next else t.next.toNat

/-- A saved nest at its position, read from the table (R108, R154); words pushed ahead stay pushed while the
handler has left the position alone. -/
def NestRun.resumed (r : NestRun) (t : NestTab) : NestRun :=
  let cur := t.level.toList.map (·.cur.toNat)
  let at_ := r.resumeAt t
  { r with
    cur := cur, next := at_, iter := tagOf cur r.snap.trips
    ahead := if cur = r.cur ∧ at_ = r.next then r.ahead else none }

/-- Resume a nest at its saved position (R108, R154). -/
def nestResume (r : NestRun) (s : State) : State :=
  let put := r.resumed s.core.vis.nest[r.table]
  let there := decide (put.cur = r.cur) && decide (put.next = r.next)
  let r := put
  let v (x : Vis) : Vis :=
    let t := { x.nest[r.table] with saved := false }
    { x with nest := x.nest.set r.table.val t r.table.isLt }
  (s.updVis v).updCtl fun c => { c with
    nest := some r, nestSaved := c.nestSaved.set r.table.val none r.table.isLt
    liveSet := if there then c.liveSet else c.liveSet.set r.table.val (.replicate 16 none) r.table.isLt }

/-- The saved position that an NGO at an address goes on from (R108). -/
def Core.savedAt (c : Core) (k : Fin 2) (a : VAddr) : Option NestRun :=
  c.ctl.nestSaved[k].filter fun r => decide (r.addr = a) && c.vis.nest[k].saved

/-- NGO (R104): the table is checked against the body, whose words in the system store may hold an uncorrectable error
(R35, R379), the nest starts or resumes, and while it runs NGO is the sequencer's move. -/
def execNgo (k : Fin 2) (n : BitVec 12) (s : State) : Out :=
  match s.core.ctl.nest with
  | some r => nestMove r s
  | none => ctlWord [] s fun s0 =>
    let a := s0.core.ctl.pcq.q0.addr
    match s0.core.savedAt k a with
    | some r => .raw ((nestResume r s0).upd Core.tickOn)
    | none =>
      if s0.storeBad (a + 4) (4 * n.toNat) then .raw (storeError s0)
      else match nestInvalid s0.core k a n.toNat with
      | some e => .trap { cause := 0x1A, info := BitVec.ofNat 64 e, addr := a }
      | none => .raw ((nestStart k n.toNat a s0).upd Core.tickOn)

/-- Whether a queued word belongs to an iteration after a break (R106). -/
def afterBreak (k : Fin 2) (b : Nat) : QItem → Bool
  | .word e => match e.tag with
    | some (t, j) => decide (t = k) && decide (b < j)
    | none => false
  | .reg _ _ => false

/-- Whether LIVE of a stream register was written after an engine word of the body had been pushed (R153, R157). -/
def Core.writtenSince (c : Core) (r : NestRun) (e : Entry) (st : Fin 16) : Bool :=
  match c.ctl.liveSet[r.table][st], e.tag with
  | some p, some (_, j) => (⟨j, [], (e.addr - r.addr).toNat / 4 - 1⟩ : NestPlace).before p
  | _, _ => false

/-- LIVE without the advances of LADV words that a break removes (R106, R153, R157): a value written after the push
of such a word does not hold its advance. -/
def Core.unAdv (c : Core) (r : NestRun) (q : List QItem) (v : Vis) : Vis :=
  q.foldl (fun v i => match i with
    | .word e => (match decode e.word.toNat none with
      | .ok (.ladv _ st l) =>
        if c.writtenSince r e st then v else
        let x := v.st[st]
        let y := { x with live := x.live - (e.snap.st[st].step.toList.getD l.val 0).signExtend 48 }
        { v with st := v.st.set st.val y st.isLt }
      | _ => v)
    | .reg _ _ => v) v

/-- The words of an engine's queue that belong to iterations after a break leave it (R106); a register write that
then stands first is made (R88, R89). -/
def breakQueue (r : NestRun) (s : State) (e : Engine) : State :=
  let gone := afterBreak r.table r.iter
  (s.updVis (s.core.unAdv r ((s.core.eng e).queue.filter gone))).upd fun c => (c.setEng e fun x =>
    { x with queue := x.queue.filter fun q => !gone q }).flushRegs e

/-- NBRK (R106): with no running nest of the table, or COND 0, nothing; otherwise the current
iteration breaks, queued words of later ones are removed, and LIVE is that of the current one. -/
def execNbrk (sd : Fin 16) (k : Fin 2) (s : State) : Out :=
  ctlWord [] s fun s0 =>
    let s1 := s0.unreplayableIf (s0.taintS sd).1
    match s1.core.ctl.nest with
    | some r =>
      if r.table = k ∧ (s1.core.steer sd).cond then
        let s2 := [Engine.load, .matrix, .vector, .copy, .stream].foldl (breakQueue r) s1
        let s3 := s2.updVis (moveLive (s2.core.breakStep r))
        .issue (s3.putNest { r with broken := true, ahead := none })
      else .issue s1
    | none => .issue s1

end Sys2Proof.Machine
end

