-- ==== Sys2Proof/Machine/Engine.lean ====
section
/-! DEFINITION. The shell of an engine word: leaving the queue's head by the steps of R143, tokens
(R146, R147), progress points (R143), issue and retirement (R144), the marks of carried units
(R376), the comparison of a head with the checker's copy (R145), and the checks its accesses meet. -/

namespace Sys2Proof.Machine

/-! ### The head of a queue -/

/-- The words of an instruction. -/
def wordsOf (i : Instr) : Word × Option Word :=
  match encode i with
  | some (w, c) => (BitVec.ofNat 32 w, c.map (BitVec.ofNat 32 ·))
  | none => (0, none)

/-- The entry at a queue's head; with an empty queue, an entry pushed and matched now. -/
def Core.headOf (c : Core) (e : Engine) (i : Instr) : Entry :=
  match (c.eng e).queue with
  | .word x :: _ => x
  | _ => { word := (wordsOf i).1, cont := (wordsOf i).2, addr := c.nowAddr, snap := c.vis
           pushed := c.tick, matched := true }

/-- Whether a body word of a nest is an NBRK of a table. -/
def Core.bodyBreaks (c : Core) (r : NestRun) (i : Nat) : Bool :=
  !c.bodyCont r.addr i && (match c.bodyWord r.addr i with
    | some w => (match decode w.toNat none with
      | .ok (.nbrk _ k) => decide (k = r.table)
      | _ => false)
    | none => false)

/-- The nest of a table: the one that runs, or the one whose saved position an NGO goes on from (R108). -/
def Core.nestOf (c : Core) (t : Fin 2) : Option NestRun :=
  match c.ctl.nest with
  | some r => if r.table = t then some r else none
  | none => if c.vis.nest[t].saved then c.ctl.nestSaved[t].map (·.resumed c.vis.nest[t]) else none

/-- Whether an NBRK has still to issue in k iterations of a nest, from a body word of the first on. -/
def Core.breakAhead (c : Core) (r : NestRun) : Nat → List Nat → Nat → Bool
  | 0, _, _ => false
  | k + 1, cur, i =>
    ((List.range r.n).drop i).any (fun m => c.bodyBreaks r m && r.fires cur m)
      || (match odometer cur r.snap.trips with
        | some x => breakAhead c r k x 0
        | none => false)

/-- A tagged word waits until every NBRK of the iterations before its own has issued (R107). -/
def Core.heldByBreak (c : Core) (x : Entry) : Bool :=
  match x.tag with
  | none => false
  | some (t, j) => match c.nestOf t with
    | some r => c.breakAhead r (j - r.iter) r.cur r.next
    | none => false

/-- The copy of the checker core has arrived (R145): it is 6 ticks behind. -/
def Core.lagMet (c : Core) (x : Entry) : Bool := x.matched || decide (x.pushed + 6 ≤ c.tick)

/-- Whether the checker's copy equals the entry (R145). -/
def Entry.agrees (x : Entry) : Bool := x.matched || decide (x.copy = x.toPushed)

/-- Cause 0x11 at the head of an engine's queue (R145, R378). -/
def divergence (e : Engine) (x : Entry) : TrapRec :=
  { cause := 0x11, info := BitVec.ofNat 64 (engNum e + x.word.toNat * 2 ^ 32), addr := x.addr
    origin := BitVec.ofNat 3 (engNum e) }

/-- Whether a handler's first word still waits for issued words (R14, R215, R293): those that go on at their
engines, and load and matrix words that have still to retire. -/
def Core.settling (c : Core) : Bool :=
  c.ctl.bank1 && (!c.load.issued.isEmpty || !c.matrix.issued.isEmpty || c.ctl.settling.any c.settles)

/-! ### Tokens -/

/-- Tokens that issued words of an engine have still to push on a side (R147). -/
def Eng.pendingTok (g : Eng) (left : Bool) : Nat :=
  (g.issued.filter fun w => if left then w.gl else w.gr).length

/-- Tokens in a FIFO. -/
def Core.tokens (c : Core) : Option (Fin 8) → Nat
  | some k => c.tok[k]
  | none => 0

/-- Whether pushing one more token on a side would be the sixteenth (R147). -/
def Core.tokFull (c : Core) (e : Engine) (left : Bool) : Bool :=
  decide (15 ≤ c.tokens (fifoOut e left) + (c.eng e).pendingTok left)

/-- The overflow check (R147): 0 for GL, 1 for GR. -/
def Core.tokOver (c : Core) (e : Engine) (t : Tok) : Option Nat :=
  if t.gl && c.tokFull e true then some 0
  else if t.gr && c.tokFull e false then some 1
  else none

/-- Whether the FIFOs of WL and WR hold a token (R54, R148). -/
def Core.tokReady (c : Core) (e : Engine) (t : Tok) : Bool :=
  (!t.wl || decide (0 < c.tokens (fifoIn e true))) && (!t.wr || decide (0 < c.tokens (fifoIn e false)))

/-- Pop the tokens a word names (R54). -/
def Core.popToks (c : Core) (e : Engine) (t : Tok) : Vector Nat 8 :=
  let k := if t.wl then popTok c.tok (fifoIn e true) else c.tok
  if t.wr then popTok k (fifoIn e false) else k

/-! ### What a word's body answers -/

/-- The answer of an engine word's body: it waits; it waits with a change (a delay noted); it traps
before it issues; it traps after its tokens have popped, with no other effect; a state of its own; it issues; it has issued and stands at a progress point; it
traps there; or its access names HBM that does not exist. -/
inductive ERes where
  | wait
  | waitWith (s : State)
  | trap (t : TrapRec) (s : State)
  | trapIn (t : TrapRec) (s : State)
  | raw (s : State)
  | issue (s : State) (w : Issued)
  | part (s : State) (x : Entry)
  | trapAt (t : TrapRec) (s : State) (x : Entry)
  | fault (f : Fault)

/-- The head of the queue leaves. -/
def Eng.dropHead (g : Eng) : Eng := { g with queue := g.queue.tail }

/-- The word issues (R143): tokens pop unless it had issued before, the entry leaves, and the word
waits for its retirement. -/
def issueWord (e : Engine) (t : Tok) (x : Entry) (w : Issued) (s : State) : State :=
  s.upd fun c =>
    let tok := if x.started then c.tok else c.popToks e t
    let c := c.setEng e fun g =>
      { g.dropHead with
        issued := g.issued ++ [{ w with gl := t.gl, gr := t.gr, hooked := c.ctl.regs.hook }]
        last := some c.tick }
    ({ c with tok := tok, stall := { c.stall with progress := c.tick } } : Core).flushRegs e

/-- The word has issued and stands at a progress point (R143): it stays at the head. -/
def stayWord (e : Engine) (t : Tok) (x y : Entry) (s : State) : State :=
  s.upd fun c =>
    let tok := if x.started then c.tok else c.popToks e t
    let c := c.setEng e fun g =>
      { g with
        queue := .word { y with started := true, first := if x.started then y.first else c.tick }
          :: g.queue.tail
        last := if x.started then g.last else some c.tick }
    { c with tok := tok, stall := { c.stall with progress := c.tick } }

/-- Keep a changed entry at the head, its issue unchanged. -/
def putHead (e : Engine) (y : Entry) (s : State) : State :=
  s.upd fun c => c.setEng e fun g => { g with queue := .word y :: g.queue.tail }

/-- In bank 1 a word that cannot go on stays at its progress point, and PROG says so (R216, R361). -/
def stopSettling (e : Engine) (s : State) : State :=
  s.updCtl fun c => { c with
    settling := c.settling.filter fun g => !decide (g = e)
    regs := { c.regs with prog := true } }

/-- The answer of an issued word that goes on before a handler's first word (R215, R216): it takes no
trap and no error before it is resumed; an MRUN stops between its steps (R203). -/
def ERes.settle (e : Engine) (s0 : State) : ERes → ERes
  | .issue s w => .issue s w
  | .part s y => .part (if y.goesOn then s else stopSettling e s) y
  | .fault f => .fault f
  | _ => .raw (stopSettling e s0)

/-- Turn a body's answer into an outcome. -/
def engFinish (e : Engine) (t : Tok) (x : Entry) (s0 : State) : ERes → Out
  | .wait => .next s0.pass
  | .waitWith s => .next s.pass
  | .trap r s => .next (takeTrap { r with origin := BitVec.ofNat 3 (engNum e) } s).pass
  | .trapIn r s => .next (takeTrap { r with origin := BitVec.ofNat 3 (engNum e) }
      (s.upd fun c => { c with tok := if x.started then c.tok else c.popToks e t })).pass
  | .raw s => .next s.pass
  | .issue s w => .next (issueWord e t x w s).pass
  | .part s y => .next (stayWord e t x y s).pass
  | .trapAt r s y => .next (takeTrap { r with origin := BitVec.ofNat 3 (engNum e), prog := true }
      (if x.started then putHead e y s else stayWord e t x y s)).pass
  | .fault f => .fault f

/-- Whether an engine only finishes its issued word before a handler's first word (R215): in a handler that
ends no hook it issues nothing else. -/
def Core.settlesNow (c : Core) (e : Engine) : Bool :=
  c.ctl.bank1 && (!c.ctl.regs.hook || c.ctl.settling.contains e)

/-- An engine word at its queue's head (R143). The register writes that stand before it are applied
first (R88). A word that has issued goes on from its progress. A late beat makes the engine wait (R149). -/
def engWord (e : Engine) (t : Tok) (i : Instr) (s : State) (body : Entry → State → ERes) : Out :=
  let s := s.upd fun c => c.flushRegs e
  let c := s.core
  let x := c.headOf e i
  if (c.eng e).late then .next s.pass
  else if x.started then
    engFinish e t x s (if c.settlesNow e then (body x s).settle e s else body x s)
  else if c.phase.rollback || decide ((c.eng e).last = some c.tick) || !c.lagMet x then .next s.pass
  else if !x.agrees then engFinish e t x s (.raw (silentError (divergence e x) s))
  else if c.heldByBreak x then .next s.pass
  else
    match c.tokOver e t with
    | some k => engFinish e t x s (.trap { cause := 0x09, info := BitVec.ofNat 64 k, addr := x.addr } s)
    | none => if c.tokReady e t then engFinish e t x s (body x s) else .next s.pass

/-- Whether an unissued head meets everything before its own waits and checks (R143, R145, R147). -/
def Core.headMet (c : Core) (e : Engine) (t : Tok) (x : Entry) : Bool :=
  !(c.eng e).late && !x.started && !c.phase.rollback && !decide ((c.eng e).last = some c.tick) && c.lagMet x
    && x.agrees && !c.heldByBreak x && (c.tokOver e t).isNone && c.tokReady e t

/-- A word that a user debug hook refuses (R370). -/
def hookTrap (i : Instr) (e : Engine) (s : State) : Option ERes :=
  if s.core.ctl.regs.hook then some (.trap (access 0x02 i 0 0 (engNum e)) s)
  else none

/-! ### Checks of accesses (R143) -/

/-- What a failed check answers, otherwise the rest. -/
def orElse (r : Option ERes) (k : ERes) : ERes :=
  match r with
  | some x => x
  | none => k

/-- A check that fails with cause 0x01 and a REASON when a condition holds. -/
def illegalIf (b : Bool) (i : Instr) (e : Engine) (reason : Nat) (x : Entry) (s : State) :
    Option ERes :=
  if b then some (.trap (illegal i reason x.addr (engNum e)) s) else none

/-- The translation and permission checks of accesses: what they answer when one fails. -/
def accessFail (i : Instr) (e : Engine) (fs : List (Nat × Nat × Nat)) (gone : Option Nat) (s : State) :
    Option ERes :=
  match lowest fs with
  | some (c, a, k) => some (.trap (access c i k (BitVec.ofNat 48 a) (engNum e)) s)
  | none => gone.map fun pa => .fault (.noSuchHbm pa)

/-- Whether a word's accesses meet the watchpoints (R368, R370). -/
def Core.watched (c : Core) (x : Entry) : Bool :=
  !x.wpskip && !c.ctl.regs.hook && !c.ctl.bank1

/-- Set the HIT bits of watchpoints (R366). -/
def State.setHits (s : State) (m : BitVec 16) : State :=
  s.updRegs fun r => { r with wphit := r.wphit ||| m }

/-- The watchpoint check of accesses of a word before it issues (R367). -/
def watchFail (i : Instr) (e : Engine) (x : Entry) (hits : List (Nat × Nat × Nat)) (s : State) :
    Option ERes :=
  if s.core.watched x then (wpTrap i e hits).map fun r => .trap r.1 (s.setHits r.2) else none

/-- An uncorrectable error that a read consumes (R377 to R379). -/
def consumeError (e : Engine) (b : Option (Space × Nat)) (s : State) : Option ERes :=
  b.map fun r => .raw (silentError
    { cause := 0x13, info := BitVec.ofNat 64 (r.1.whereNum + engNum e * 2 ^ 8)
      addr := BitVec.ofNat 48 r.2, origin := BitVec.ofNat 3 (engNum e) } s)

/-- The checks of one row of a word that works row by row (R199, R367): a failure leaves the row
and those after it to be done, at a progress point if the word has issued. -/
def atProgress (x : Entry) : ERes → ERes
  | .trap t s => if x.started then .trapAt t s x else .trap t s
  | r => r

/-- The checks of the reads of a word: translation, watchpoints, then uncorrectable errors. -/
def readChecks (i : Instr) (e : Engine) (x : Entry) (rs : List (Nat × Nat)) (s : State) :
    Option ERes :=
  let l := locOf s x.snap e .read
  (accessFail i e (failures l 0 rs) (goneAt l rs) s).or
    ((watchFail i e x (wpRange x.snap 0 (wpBit e) rs) s).or
      (consumeError e (firstBad s l rs) s))

/-! ### Carried units (R376) -/

/-- Change the carried marks. -/
def State.updCarried (s : State) (f : Carried → Carried) : State :=
  s.upd fun c => { c with phase := { c.phase with carried := f c.phase.carried } }

/-- Reading a carried unit makes the phase irreversible. -/
def State.readsIf (s : State) (b : Bool) : State := if b then s.setIrrev else s

/-- A word reads a tile. -/
def State.readsTile (s : State) (t : Fin 16) : State := s.readsIf (s.core.phase.carried.tile.getLsbD t.val)
/-- A word writes a tile whole. -/
def State.wholeTile (s : State) (t : Fin 16) : State :=
  s.updCarried fun c => { c with tile := c.tile &&& ~~~(BitVec.ofNat 16 (2 ^ t.val)) }
/-- A word reads an accumulator. -/
def State.readsAcc (s : State) (a : Fin 4) : State := s.readsIf (s.core.phase.carried.acc.getLsbD a.val)
/-- A word writes an accumulator whole. -/
def State.wholeAcc (s : State) (a : Fin 4) : State :=
  s.updCarried fun c => { c with acc := c.acc &&& ~~~(BitVec.ofNat 4 (2 ^ a.val)) }

/-! ### Operand queues -/

/-- Change a vq queue. -/
def Queues.setVq (q : Queues) (k : Fin 4) (l : List LaneEntry) : Queues :=
  { q with vq := q.vq.set k.val l k.isLt }

/-- Push an entry into a vq queue (R160). -/
def State.pushVq (s : State) (k : Fin 4) (x : LaneEntry) : State :=
  s.updQ fun q => q.setVq k (q.vq[k] ++ [x])

/-- Pop an entry of a vq queue. -/
def State.popVq (s : State) (k : Fin 4) : State :=
  (s.readsIf ((s.core.q.vq[k].head?.map (·.carried)).getD false)).updQ fun q => q.setVq k q.vq[k].tail

/-- Room in a vq queue (R160). -/
def Core.vqRoom (c : Core) (k : Fin 4) : Bool := decide (c.q.vq[k].length < 8)

/-! ### Retirement -/

/-- Whether an issued word may retire (R144): its held writes are released, its batch has closed
(R323), its landing slot's tick has come (R293), and the blocks of its grant are pushed (R212). -/
def Core.mayRetire (c : Core) (w : Issued) : Bool :=
  !w.waits && !w.early c.tick && (match w.upto, c.sd with
    | some n, some d => decide (n ≤ d.next) && d.out.all (fun b => decide (n ≤ b.1))
      && d.refetch.all (fun b => decide (n ≤ b.1))
    | _, _ => true)

/-- ENGINE_RETIRE (R144, R293): the oldest issued word of an engine retires, pushing its tokens. -/
def execEngineRetire (e : Engine) (s : State) : Out :=
  match (s.core.eng e).issued with
  | [] => .next s.pass
  | w :: t =>
    if s.core.mayRetire w then
      .next (s.upd fun c =>
        let c := (c.retireOne e w).setEng e fun g => { g with issued := t }
        { c with stall := { c.stall with progress := c.tick } }).pass
    else .next s.pass

end Sys2Proof.Machine
end

