-- ==== Sys2Proof/Machine/Load.lean ====
section
/-! DEFINITION. Load-engine words (R189 to R201, R215, R216, R294): tiles, operand queues, scales,
gathers, landing slots. A word that fills a queue or gathers works row by row, one row an act. -/

namespace Sys2Proof.Machine

/-- The bytes of a tile (R167). -/
def tileSize : Nat := 16384

/-- Write rows into a tile, 256 bytes apart (R167). -/
def tileRows (m : Mem) (t : Fin 16) : Nat → List (List Byte) → Mem
  | _, [] => m
  | r, row :: rows => tileRows (m.write (t.val * tileSize + 256 * r) row) t (r + 1) rows

/-- The bytes of a tile. -/
def tilePart (m : Mem) (t : Fin 16) : Mem :=
  m.filter fun c => decide (t.val * tileSize ≤ c.1) && decide (c.1 < (t.val + 1) * tileSize)

/-- The sums of a tile of r rows of e elements (R194): of each row, and of each element position. -/
def tileSums (m : Mem) (t : Fin 16) (f : BitVec 4) (r e : Nat) : TileSums :=
  let vs := (List.range r).map fun k => (rowVals f (m.readN (t.val * tileSize + 256 * k) 256)).take e
  { rows := vs.map evSum
    cols := (List.range e).map fun k => evSum (vs.map fun v => v.getD k (.fin 0 0)) }

/-- Fill a tile, set its shape and record its sums (R167, R192, R194, R376). -/
def State.fillTile (s : State) (t : Fin 16) (clear : Bool) (rows : List (List Byte)) (f : BitVec 4)
    (r e : Nat) : State :=
  (s.upd fun c =>
    let m := if clear then c.mx.tiles.write (t.val * tileSize) (List.replicate tileSize 0) else c.mx.tiles
    let sh : Shape := { fmt := f, rows := BitVec.ofNat 7 r, elems := BitVec.ofNat 10 e }
    { c with mx := { c.mx with
        tiles := tileRows m t 0 rows
        shape := c.mx.shape.set t.val sh t.isLt
        sums := c.mx.sums.set t.val (tileSums (tileRows m t 0 rows) t f r e) t.isLt } }).wholeTile t

/-- What a tile holds: its bytes, shape and sums. -/
def Matrix.tileView (m : Matrix) (t : Fin 16) : OldTile :=
  { bytes := tilePart m.tiles t, shape := m.shape[t], sums := m.sums[t] }

/-- An issued word that fills a tile, with what the tile held before (R191). -/
def fillsOf (s : State) (t : Fin 16) : Issued := { fills := some (t, s.core.mx.tileView t) }

/-- A Q4X pair fault among rows with their source numbers (R193). -/
def q4xFault (f : BitVec 4) (rows : List (Nat × List Byte)) : Option DWord :=
  if f = 1 then rows.findSome? fun r => (q4xBad r.2).map (q4xInfo r.1) else none

/-- The trap of a Q4X pair fault. -/
def q4xTrap (x : Entry) (info : DWord) (s : State) : ERes :=
  .trapIn { cause := 0x0A, info := info, addr := x.addr } s

/-- The rows of a stream register as its reads find them. -/
def readRows (s : State) (l : Loc) (st : StReg) (r n : Nat) : List (List Byte) :=
  (List.range n).map fun j => readRange s l (s.core.rowAddr st (r + j)) st.rbytes.toNat

/-! ### LDT -/

/-- Rows turned on their side (R192): row e holds element e of every source row. -/
def transposeRows (b e : Nat) (rows : List (List Byte)) : List (List Byte) :=
  (List.range e).map fun k => packElems b (rows.map fun row => elemOf b row k)

/-- The geometry that LDT refuses with REASON 0x03 (R152, R192). -/
def ldtBadGeo (st : StReg) (tr : Bool) : Bool :=
  let b := bitsOr8 st.fmt
  let n := st.rbytes.toNat
  st.emptyGeo || st.badFmt || decide (8 * n % b ≠ 0)
    || (if tr then decide (64 < 8 * n / b) || decide (2048 < st.rows.toNat * b)
      else decide (64 < st.rows.toNat) || decide (256 < n))

/-- LDT's effect once its rows are read (R192). -/
def ldtFill (t : Fin 16) (st : StReg) (z tr : Bool) (rows : List (List Byte)) (s : State) : State :=
  let b := bitsOr8 st.fmt
  let e := 8 * st.rbytes.toNat / b
  let out := if tr then transposeRows b e rows else rows
  let nr := if tr then e else st.rows.toNat
  let ne := if tr then st.rows.toNat else e
  s.fillTile t z out st.fmt (if z then 64 else nr) (if z then 2048 / b else ne)

/-- LDT (R192). -/
def execLdt (tk : Tok) (d st : Fin 16) (z tr : Bool) (s : State) : Out :=
  let i : Instr := .ldt tk d st z tr
  engWord .load tk i s fun x s0 =>
    let r := x.snap.st[st]
    orElse (illegalIf (ldtBadGeo r tr) i .load 0x03 x s0) <|
    orElse (illegalIf (tr && quantised r.fmt) i .load 0x0D x s0) <|
    orElse (readChecks i .load x (s0.core.rowRanges r 0 r.rows.toNat) s0) <|
      let rows := readRows s0 (locOf s0 x.snap .load .read) r 0 r.rows.toNat
      match q4xFault r.fmt ((List.range rows.length).zip rows) with
      | some info => q4xTrap x info s0
      | none => .issue (ldtFill d r z tr rows s0) (fillsOf s0 d)

/-! ### LDQ -/

/-- The checks of a row that a word meets again after its issue: translation and what reading
finds. -/
def rowAgain (i : Instr) (e : Engine) (x : Entry) (rs : List (Nat × Nat)) (s : State) :
    Option ERes :=
  (readChecks i e { x with wpskip := true } rs s).map (atProgress x)

/-- LDQ (R195, R216): one row an act; every row is checked before the word issues. -/
def execLdq (tk : Tok) (q : Fin 4) (st : Fin 16) (s : State) : Out :=
  let i : Instr := .ldq tk q st
  engWord .load tk i s fun x s0 =>
    let r := x.snap.st[st]
    let n := r.rows.toNat
    if !s0.core.vqRoom q then .wait
    else
      orElse (illegalIf (r.emptyGeo || decide (256 < r.rbytes.toNat)) i .load 0x03 x s0) <|
      orElse (if x.started then rowAgain i .load x (s0.core.rowRanges r x.prog 1) s0
        else readChecks i .load x (s0.core.rowRanges r 0 n) s0) <|
        let bs := readRange s0 (locOf s0 x.snap .load .read) (s0.core.rowAddr r x.prog) r.rbytes.toNat
        let s1 := s0.pushVq q (fullEntry (lanesOf bs))
        if x.prog + 1 < n then .part s1 { x with prog := x.prog + 1, wpskip := false }
        else .issue s1 {}

/-! ### LDSC -/

/-- Scales held by a scale FIFO (R175). -/
def scalesHeld (f : List (List Byte)) : Nat := (f.map (·.length)).sum

/-- LDSC (R196): waits for room for the whole batch. -/
def execLdsc (tk : Tok) (target : Bool) (st : Fin 16) (s : State) : Out :=
  let i : Instr := .ldsc tk target st
  engWord .load tk i s fun x s0 =>
    let r := x.snap.st[st]
    let n := r.rows.toNat
    let fifo := if target then s0.core.mx.bscale else s0.core.mx.ascale
    if n ≤ 32 ∧ 2048 < scalesHeld fifo + 64 * n then .wait
    else
      orElse (illegalIf (r.emptyGeo || r.badFmt || decide (32 < n)) i .load 0x03 x s0) <|
      orElse (illegalIf (decide (r.fmt ≠ 6) || decide (r.rbytes ≠ 64)) i .load 0x0D x s0) <|
      orElse (readChecks i .load x (s0.core.rowRanges r 0 n) s0) <|
        let batch := (readRows s0 (locOf s0 x.snap .load .read) r 0 n).flatten
        .issue (s0.upd fun c => { c with mx :=
          if target then { c.mx with bscale := c.mx.bscale ++ [batch] }
          else { c.mx with ascale := c.mx.ascale ++ [batch] } }) {}

/-! ### LDX and LGATH -/

/-- An index queue. -/
def Queues.rq (q : Queues) (k : Fin 2) : List Word := if k = 0 then q.rq0 else q.rq1

/-- Pop an index queue (R376). -/
def State.popRq (s : State) (k : Fin 2) : State :=
  let q : PopQ := if k = 0 then .rq0 else .rq1
  (s.popCarried q).updQ fun y => y.drop q

/-- Whether a destination has room for one entry. -/
def Core.destRoom (c : Core) : LDest → Bool
  | .tile _ => true
  | .vq q => c.vqRoom q

/-- LDX's row for an index (R197): a row of zeros past the last. -/
def ldxRow (s : State) (x : Entry) (r : StReg) (u : Nat) : List Byte :=
  if u < r.rows.toNat then
    readRange s (locOf s x.snap .load .read) (s.core.rowAddr r u) r.rbytes.toNat
  else List.replicate r.rbytes.toNat 0

/-- The last row of LDX into a tile (R197). -/
def ldxTile (t : Fin 16) (x : Entry) (r : StReg) (rows : List (Nat × List Byte)) (s : State) : ERes :=
  match q4xFault r.fmt rows with
  | some info => q4xTrap x info s
  | none => .issue (s.fillTile t false (rows.map (·.2)) r.fmt rows.length
      (8 * r.rbytes.toNat / bitsOr8 r.fmt)) (fillsOf s t)

/-- LDX (R197, R199): one index and row an act; a fault at row j leaves progress j. -/
def execLdx (tk : Tok) (d : LDest) (st : Fin 16) (rq : Fin 2) (rows : BitVec 9) (s : State) : Out :=
  let i : Instr := .ldx tk d st rq rows
  engWord .load tk i s fun x s0 =>
    let r := x.snap.st[st]
    let toTile := match d with
      | .tile _ => true
      | .vq _ => false
    match s0.core.q.rq rq with
    | [] => .wait
    | u :: _ =>
      if !s0.core.destRoom d then .wait
      else
        orElse (illegalIf (decide (rows = 0) || decide (64 < rows.toNat) || r.emptyGeo
          || decide (256 < r.rbytes.toNat) || (toTile && r.badFmt)) i .load 0x03 x s0) <|
        orElse (if u.toNat < r.rows.toNat then
            (readChecks i .load x (s0.core.rowRanges r u.toNat 1) s0).map (atProgress x)
          else none) <|
          let row := ldxRow s0 x r u.toNat
          let s1 := s0.popRq rq
          let last := decide (rows.toNat ≤ x.prog + 1)
          let y := { x with prog := x.prog + 1, wpskip := false }
          match d with
          | .tile t =>
            let all := x.rows ++ [(u.toNat, row)]
            if last then ldxTile t x r all s1 else .part s1 { y with rows := all }
          | .vq q =>
            let s2 := s1.pushVq q (fullEntry (lanesOf row))
            if last then .issue s2 {} else .part s2 y

/-- The formats LGATH gathers (R198). -/
def gathFmt (f : BitVec 4) : Bool :=
  match f.toNat with
  | 0 => true | 6 => true | 4 => true | 5 => true | 8 => true | 9 => true | _ => false

/-- The bytes of LGATH's lane (R198): none where the lane is masked off or its index too large. -/
def gathRange (c : Core) (r : StReg) (ix : LaneEntry) (lane : Nat) : Option (Nat × Nat) :=
  let b := bitsOr8 r.fmt
  let e := 8 * r.rbytes.toNat / b
  let n := (vget ix.lanes lane 0).toNat
  if ix.mask.getLsbD lane ∧ n < r.rows.toNat * e then
    some ((c.rowAddr r (n / e) + n % e * (b / 8)) % 2 ^ 48, b / 8)
  else none

/-- LGATH's effect once all 64 lanes are gathered (R198). -/
def gathDone (d : LDest) (r : StReg) (ix : LaneEntry) (xs : List (Nat × List Byte)) (s : State) :
    State :=
  match d with
  | .tile t =>
    let b := bitsOr8 r.fmt
    s.fillTile t false [xs.flatMap fun v => leBytes (b / 8) (leNat v.2)] r.fmt 1 64
  | .vq q =>
    let lanes : Lanes := Vector.ofFn fun k => BitVec.ofNat 32 (leNat ((xs.getD k.val (0, [])).2))
    s.pushVq q { lanes := lanes, mask := ix.mask }

/-- LGATH (R198, R199, R216): one lane an act; the entry of indices pops as the word issues, and a full queue makes it
wait at its push. -/
def execLgath (tk : Tok) (d : LDest) (st : Fin 16) (q : Fin 4) (s : State) : Out :=
  let i : Instr := .lgath tk d st q
  engWord .load tk i s fun x s0 =>
    let r := x.snap.st[st]
    match x.index.or s0.core.q.vq[q].head? with
    | none => .wait
    | some ix =>
      orElse (illegalIf (r.emptyGeo || r.badFmt) i .load 0x03 x s0) <|
      orElse (illegalIf (!gathFmt r.fmt) i .load 0x0D x s0) <|
        let rg := gathRange s0.core r ix x.prog
        orElse ((readChecks i .load x rg.toList s0).map (atProgress x)) <|
          let bs := match rg with
            | some a => readRange s0 (locOf s0 x.snap .load .read) a.1 a.2
            | none => []
          let s1 := if x.started then s0 else s0.popVq q
          let all := x.rows ++ [(x.prog, bs)]
          if x.prog < 63 then .part s1 { x with
            prog := x.prog + 1, wpskip := false, rows := all, index := some ix }
          else if !s1.core.destRoom d then .wait
          else .issue (gathDone d r ix all s1) (match d with
            | .tile t => fillsOf s1 t
            | .vq _ => {})

/-! ### LLAND -/

/-- Rows of 256 bytes. -/
def rows256 (n : Nat) (bs : List Byte) : List (List Byte) :=
  (List.range n).map fun j => (bs.drop (256 * j)).take 256

/-- What LLAND meets before its slot can be read: a wait that starts its count (R294), an earlier
LLAND of the slot that has not retired (R70), an uncorrectable error (R379). -/
def llandReady (slot : Fin 64) (x : Entry) (s : State) : Except ERes (BitVec 4 × List Byte) :=
  if (s.core.load.issued.any fun w => w.frees.any fun f => decide (f.1 = slot)) then .error .wait
  else
    match s.core.land.slot[slot] with
    | none =>
      if x.since.isSome then .error .wait
      else .error (.waitWith (putHead .load { x with since := some s.core.gtick } s))
    | some d =>
      if s.badAt (.slot s.core.id.num) (slot.val * 4096) 4096 then
        .error (.raw (silentError { cause := 0x13, info := BitVec.ofNat 64 (5 + 1 * 2 ^ 8)
                                    origin := 1 } s))
      else .ok d

/-- LLAND (R200, R293): the slot empties as the word retires, 16 ticks after its issue. -/
def execLland (tk : Tok) (d : LDest) (slot : Fin 64) (s : State) : Out :=
  let i : Instr := .lland tk d slot
  engWord .load tk i s fun x s0 =>
    if !s0.core.destRoom d then .wait
    else
      match llandReady slot x s0 with
      | .error r => r
      | .ok (f, bs) =>
        let rows := rows256 16 bs
        let frees := some (slot, (if x.started then x.first else s0.core.tick) + 16)
        match d with
        | .tile t =>
          (match q4xFault f ((List.range 16).zip rows) with
          | some info => q4xTrap x info s0
          | none => .issue (s0.fillTile t false rows f 16 (2048 / bitsOr8 f))
              { fillsOf s0 t with frees := frees })
        | .vq q =>
          let s1 := s0.pushVq q (fullEntry (lanesOf (rows.getD x.prog [])))
          if x.prog < 15 then .part s1 { x with prog := x.prog + 1 }
          else .issue s1 { frees := frees }

/-! ### LADV and LNOP -/

/-- LADV at the load engine (R201): its advance was applied at the push. -/
def execLadv (tk : Tok) (st : Fin 16) (level : Fin 8) (s : State) : Out :=
  let i : Instr := .ladv tk st level
  engWord .load tk i s fun x s0 =>
    orElse (illegalIf (decide (6 ≤ level.val)) i .load 0x03 x s0) (.issue s0 {})

/-- LNOP (R201). -/
def execLnop (tk : Tok) (s : State) : Out :=
  engWord .load tk (.lnop tk) s fun _ s0 => .issue s0 {}

end Sys2Proof.Machine
end

