-- ==== Sys2Proof/Machine/Product.lean ====
section
/-! DEFINITION. Products of the matrix engine (R167 to R179, R184, R185, R202, R203): profiles,
operands, group sums, scale batches, the prediction check, MMA and MRUN. -/

namespace Sys2Proof.Machine

/-! ### Values -/

/-- The product of two elements, and whether it raises IV (R172). -/
def EVal.mul : EVal → EVal → EVal × Bool
  | .nan a, .nan b => (.nan false, a || b)
  | .nan a, _ => (.nan false, a)
  | _, .nan b => (.nan false, b)
  | .inf a, .inf b => (.inf (a != b), false)
  | .inf a, .fin n _ => if n = 0 then (.nan false, true) else (.inf (a != decide (n < 0)), false)
  | .fin n _, .inf b => if n = 0 then (.nan false, true) else (.inf (b != decide (n < 0)), false)
  | .fin n e, .fin m g => (.fin (n * m) (e + g), false)

/-- An element's magnitude (R184). -/
def EVal.abs : EVal → EVal
  | .fin n e => .fin n.natAbs e
  | x => x

/-! ### Exact comparison and truncation -/

/-- Comparison of exact values. -/
def Dy.le (x y : Dy) : Bool :=
  let q := min x.2 y.2
  decide (x.1 * 2 ^ (x.2 - q).toNat ≤ y.1 * 2 ^ (y.2 - q).toNat)

/-- Truncation toward zero to a multiple of 2^q (R172). -/
def truncTo (q : Int) (x : Dy) : Dy :=
  if q ≤ x.2 then x else (x.1.tdiv (2 ^ (q - x.2).toNat), q)

/-- Exponent of the leading bit of a nonzero value. -/
def Dy.lead (x : Dy) : Int := (Nat.log2 x.1.natAbs : Int) + x.2

/-- The sum of a group's products under a window (R172), unscaled: a NaN, an infinity or a value. -/
def groupSum (w : Option Nat) (ps : List EVal) : EVal × FlagBits :=
  if ps.any fun p => match p with | .nan _ => true | _ => false then (.nan false, 0)
  else
    let infs := ps.filterMap fun p => match p with | .inf a => some a | _ => none
    match infs with
    | a :: t => if t.all (· == a) then (.inf a, 0) else (.nan false, fIV)
    | [] =>
      let fs : List Dy := ps.filterMap fun p => match p with
        | .fin n e => if n = 0 then none else some (n, e)
        | _ => none
      match fs with
      | [] => (.fin 0 0, 0)
      | f :: t =>
        let e := t.foldl (fun m x => max m x.lead) f.lead
        let qs := match w with
          | some w => fs.map (truncTo (e - w))
          | none => fs
        let s := dySum qs
        (.fin s.1 s.2, 0)

/-- acc := RNE_F32(acc + s), with s scaled by 2^sc (R172, R137). A NaN in the accumulator raises no IV
here: it is no operand element of the product (log 73). -/
def accAdd (acc : Word) (s : EVal) (sc : Int) : Word × FlagBits :=
  if isNaN acc then (cNaN, 0)
  else
    match s, f32 acc with
    | .nan _, _ => (cNaN, 0)
    | .inf a, .inf b => if a = b then (acc, 0) else (cNaN, fIV)
    | .inf a, _ => (infW a, 0)
    | .fin _ _, .inf _ => (acc, 0)
    | .fin n e, .fin b m g =>
      let t := Dy.add (n, e + sc) (onGrid b m g g, g)
      let r := intToF32 t.1 t.2 false
      (r.1, r.2 &&& (fNX ||| fOF))
    | .fin _ _, .nan _ => (cNaN, 0)

/-! ### Profiles (R171) -/

/-- A profile: formats of A and B, group (none: all of K), window (none: exact), K step, whether it
accumulates integers, whether scales are allowed. -/
structure Prof where
  a : List (BitVec 4)
  b : List (BitVec 4)
  g : Option Nat
  w : Option Nat
  step : Nat
  int : Bool
  scales : Bool

/-- The table of R171. -/
def prof (p : BitVec 8) : Prof :=
  match p.toNat with
  | 2 => ⟨[2, 3], [2, 3], some 8, some 24, 8, false, true⟩
  | 3 => ⟨[2], [1], some 32, some 32, 32, false, true⟩
  | 4 => ⟨[4], [4], some 4, some 32, 8, false, false⟩
  | 5 => ⟨[5], [5], some 4, some 32, 8, false, false⟩
  | 6 => ⟨[0], [0], none, none, 8, true, false⟩
  | 7 => ⟨[1], [1], some 32, none, 32, false, true⟩
  | _ => ⟨[2, 3], [2, 3], some 32, some 32, 32, false, true⟩

/-! ### A step's operands -/

/-- One step (R170, R179). -/
structure MStep where
  o : MmaOps
  c : MmaCont
  koff : Int

/-- K of a step. -/
def MStep.k (m : MStep) : Nat := 8 * m.c.k8.toNat
/-- 32-element blocks that K touches (R175). -/
def MStep.blocks (m : MStep) : Nat := (m.k + 31) / 32
/-- Whether a scale is in use. -/
def MStep.scaled (m : MStep) : Bool := m.o.sa || decide (m.o.sb ≠ .none)

/-- A row of a tile. -/
def tileRow (c : Core) (t : Fin 16) (r : Nat) : List Byte := c.mx.tiles.readN (t.val * tileSize + 256 * r) 256

/-- What a tile may be read to hold (R191): what it held before each load word that fills it and has not
retired, and what it holds. -/
def Core.tileViews (c : Core) (t : Fin 16) : List OldTile :=
  (c.load.issued.filterMap fun w => w.fills.bind fun f => if f.1 = t then some f.2 else none)
    ++ [c.mx.tileView t]

/-- Whether a load word that fills a tile has not retired (R191). -/
def Core.tileRaces (c : Core) (t : Fin 16) : Bool := decide (1 < (c.tileViews t).length)

/-- The core with the shape and sums of a tile that a step has checked (R191): while a load word that fills the tile
has not retired, those before it or those after it, which one is a free choice (log 3, 8). -/
def Core.racedTile (c : Core) (t : Fin 16) (n : Nat) : Core :=
  if c.tileRaces t then
    let vs := c.tileViews t
    let v := vs.getD (Config.freeNat n % vs.length) {}
    { c with mx := { c.mx with
        shape := c.mx.shape.set t.val v.shape t.isLt, sums := c.mx.sums.set t.val v.sums t.isLt } }
  else c

/-- The elements of a tile's row as a step reads them, by the format it has checked: each is a free choice among what the
tile could hold as the step issued, and can as it computes (R191, log 3, 8); n is the index of the first free value. -/
def HeldStep.vals (h : HeldStep) (f : BitVec 4) (c : Core) (t : Fin 16) (r n : Nat) : List EVal :=
  let was := h.tiles.filterMap fun x => if x.1 = t then some x.2 else none
  let vs := ((was ++ c.tileViews t).eraseDups.map fun m =>
    rowVals f (m.bytes.readN (t.val * tileSize + 256 * r) 256)).eraseDups
  match vs with
  | [v] => v
  | _ => (List.range 512).map fun e =>
      (vs.getD (Config.freeNat (n + 512 * r + e) % vs.length) []).getD e (.fin 0 0)

/-- The blocks and batches that a step holds or the FIFOs hold for it (R177). -/
def MStep.wblocks (m : MStep) (x : Entry) (c : Core) : List WBlock := (x.blocks ++ c.mx.wfifo).take m.blocks

/-- The shape of B as a step reads it: rows and elements required (R170). -/
def MStep.badB (m : MStep) (x : Entry) (c : Core) : Bool :=
  match m.o.b with
  | .wsf => decide (m.k % 32 ≠ 0)
      || (m.wblocks x c).any fun b => !(prof m.c.profile).b.contains b.fmt
  | .tile t =>
    let s := c.mx.shape[t]
    let k := m.koff + m.k
    !(prof m.c.profile).b.contains s.fmt || (m.c.tb && quantised s.fmt)
      || (if m.c.tb then decide (s.rows ≠ 64) || decide ((s.elems.toNat : Int) < k)
        else decide ((s.rows.toNat : Int) < k) || decide (s.elems ≠ 64))

/-- The step's refusal (R170, R121): an unassigned format 0x03, otherwise 0x0D. -/
def MStep.refused (m : MStep) (x : Entry) (c : Core) : Option Nat :=
  let p := prof m.c.profile
  let s := c.mx.shape[m.o.ta]
  let badCode := (fmtBits s.fmt).isNone || (match m.o.b with
    | .tile t => (fmtBits c.mx.shape[t].fmt).isNone
    | .wsf => false)
  if badCode then some 0x03
  else if decide (m.koff < 0) || decide (s.rows ≠ 64) || decide ((s.elems.toNat : Int) < m.koff + m.k)
      || !p.a.contains s.fmt || m.badB x c || decide (m.k % p.step ≠ 0)
      || (m.scaled && decide (m.koff % 32 ≠ 0)) || (m.scaled && !p.scales) then some 0x0D
  else none

/-- Whether the LDSC FIFOs hold what a step takes (R175). -/
def MStep.scalesReady (m : MStep) (c : Core) : Bool :=
  let n := 64 * m.blocks
  (!m.o.sa || decide (n ≤ scalesHeld c.mx.ascale))
    && (!decide (m.o.sb = .bf) || decide (n ≤ scalesHeld c.mx.bscale))

/-- Blocks that a step has still to pop (R177). -/
def MStep.need (m : MStep) (x : Entry) : Nat :=
  match m.o.b with
  | .wsf => m.blocks - x.blocks.length
  | .tile _ => 0

/-- Whether the FIFOs hold what a step takes (R175, R177). -/
def MStep.ready (m : MStep) (x : Entry) (c : Core) : Bool :=
  m.scalesReady c && decide (m.need x ≤ c.mx.wfifo.length) && decide (m.need x ≤ c.mx.scf.length)

/-- Whether a step that takes more blocks than the weight FIFO can hold pops one now (R177, R202). -/
def MStep.more (m : MStep) (x : Entry) (c : Core) : Bool :=
  m.scalesReady c && decide (4 < m.need x) && !c.mx.wfifo.isEmpty && !c.mx.scf.isEmpty

/-- Rows of A: 64 rows of K elements. -/
def MStep.aRows (m : MStep) (h : HeldStep) (c : Core) (n : Nat) : List (List EVal) :=
  (List.range 64).map fun r => ((h.vals h.a.fmt c m.o.ta r n).drop m.koff.toNat).take m.k

/-- Columns of B: 64 columns of K elements (R170). -/
def MStep.bCols (m : MStep) (x : Entry) (h : HeldStep) (c : Core) (n : Nat) : List (List EVal) :=
  match m.o.b with
  | .wsf =>
    let bs := x.blocks.map blockCols
    (List.range 64).map fun j => bs.flatMap fun b => b.getD j []
  | .tile t =>
    if m.c.tb then
      (List.range 64).map fun j => ((h.vals h.b.fmt c t j n).drop m.koff.toNat).take m.k
    else
      let rows := (List.range m.k).map fun k => h.vals h.b.fmt c t (m.koff.toNat + k) n
      (List.range 64).map fun j => rows.map fun r => r.getD j (.fin 0 0)

/-- Whether the shape that a step checks is a free choice (R191). -/
def MStep.races (m : MStep) (c : Core) : Bool :=
  c.tileRaces m.o.ta || (match m.o.b with
    | .tile t => c.tileRaces t
    | .wsf => false)

/-- The core with the tiles' shapes as a step has checked them (R191); n is the index of the first free value. -/
def MStep.sees (m : MStep) (c : Core) (n : Nat) : Core :=
  match m.o.b with
  | .tile t => if t = m.o.ta then c.racedTile t n else (c.racedTile m.o.ta n).racedTile t (n + 1)
  | .wsf => c.racedTile m.o.ta n

/-- The free values that a racing step has used are gone (log 8). -/
def MStep.spend (m : MStep) (s : State) : State :=
  if m.races s.core then { s with free := s.free + 2 } else s

/-! ### Scale batches (R175, R176) -/

/-- Taking n scales from a FIFO of batches: the scales, the FIFO left, the batches touched, and the
scales left in the last of them. -/
def takeScales : Nat → List (List Byte) → List Byte × List (List Byte) × Nat × Nat
  | _, [] => ([], [], 0, 0)
  | n, b :: t =>
    if n < b.length then (b.take n, b.drop n :: t, 1, b.length - n)
    else if n = b.length then (b, t, 1, 0)
    else
      let (l, f, k, r) := takeScales (n - b.length) t
      (b ++ l, f, k + 1, r)

/-- EINFO of a failed scale check (R176). -/
def scaleInfo (fifo taken left : Nat) : DWord :=
  BitVec.ofNat 64 (fifo + taken % 2 ^ 16 * 2 ^ 16 + left % 2 ^ 16 * 2 ^ 32)

/-- The check of an LDSC FIFO (R176). -/
def batchFail (use : Bool) (fifo n : Nat) (t : List Byte × List (List Byte) × Nat × Nat) :
    Option DWord :=
  if use ∧ (t.2.2.1 ≠ 1 ∨ t.2.2.2 % 64 ≠ 0) then some (scaleInfo fifo n t.2.2.2) else none

/-- The check of the SCF batches taken (R176). -/
def scfFail (n : Nat) (bs : List (Nat × List Byte)) : Option DWord :=
  (bs.find? fun b => b.1 != 64).map fun b => scaleInfo 2 n b.1

/-- What a step takes from the FIFOs: the A and B scales it uses, the check that failed, the core
with the FIFOs popped (R175 to R177, R116). -/
structure Taken where
  sa : Option (List Byte)
  sb : Option (List Byte)
  fail : Option DWord
  core : Core

/-- Take a step's scales and blocks. -/
def MStep.take (m : MStep) (x : Entry) (c : Core) : Taken :=
  let n := 64 * m.blocks
  let k := m.need x
  let useB := decide (m.o.sb = .bf)
  let wsf := decide (m.o.b = .wsf)
  let ta := takeScales n c.mx.ascale
  let tb := takeScales n c.mx.bscale
  let scf := (x.batches ++ c.mx.scf).take m.blocks
  let sb := match m.o.sb with
    | .none => none
    | .bf => some tb.1
    | .scf => some (scf.flatMap (·.2))
  let core : Core :=
    { c with
      mx := { c.mx with
        ascale := if m.o.sa then ta.2.1 else c.mx.ascale
        bscale := if useB then tb.2.1 else c.mx.bscale
        wfifo := c.mx.wfifo.drop k
        scf := c.mx.scf.drop k }
      phase := { c.phase with
        popped := c.phase.popped ++ c.mx.wfifo.take k
        poppedScf := c.phase.poppedScf ++ c.mx.scf.take k } }
  { sa := if m.o.sa then some ta.1 else none
    sb := sb
    fail := (batchFail m.o.sa 0 n ta).or ((batchFail useB 1 n tb).or
      (if wsf then scfFail n scf else none))
    core := core }

/-- A step pops one block and its batch and holds them (R177, R202, log 74). -/
def MStep.popOne (x : Entry) (s : State) : State × Entry :=
  let c := s.core
  let s1 := s.upd fun c => { c with
    mx := { c.mx with wfifo := c.mx.wfifo.drop 1, scf := c.mx.scf.drop 1 }
    phase := { c.phase with popped := c.phase.popped ++ c.mx.wfifo.take 1
                            poppedScf := c.phase.poppedScf ++ c.mx.scf.take 1 } }
  (s1.readsIf (decide (4 < s1.core.phase.popped.length)),
    { x with blocks := x.blocks ++ c.mx.wfifo.take 1, batches := x.batches ++ c.mx.scf.take 1 })

/-- A step as it issues (R175, R177, R191, R202). -/
def MStep.hold (m : MStep) (x : Entry) (s : State) : HeldStep :=
  let c := m.sees s.core s.free
  let t := m.take x s.core
  let view (t : Fin 16) : List (Fin 16 × OldTile) := (s.core.tileViews t).map fun v => (t, v)
  let h : HeldStep := { sa := t.sa, sb := t.sb, a := c.mx.shape[m.o.ta], tiles := view m.o.ta }
  match m.o.b with
  | .wsf => h
  | .tile b => { h with
      b := c.mx.shape[b], sums := c.mx.sums[b], tiles := if b = m.o.ta then h.tiles else h.tiles ++ view b }

/-- The blocks and batches that a step has taken as it issues (R177). -/
def MStep.filled (m : MStep) (x : Entry) (c : Core) : Entry :=
  match m.o.b with
  | .wsf => { x with blocks := m.wblocks x c, batches := (x.batches ++ c.mx.scf).take m.blocks }
  | .tile _ => x

/-- The marks of R376 as a step takes scales and blocks: carried scales are read, a fifth block. -/
def takeMarks (m : MStep) (s : State) : State :=
  let n := 64 * m.blocks
  let c := s.core.phase.carried
  let a := m.o.sa && decide (0 < c.asc)
  let b := decide (m.o.sb = .bf) && decide (0 < c.bsc)
  (s.readsIf (a || b || decide (4 < s.core.phase.popped.length))).updCarried fun c =>
    { c with asc := if m.o.sa then c.asc - n else c.asc
             bsc := if decide (m.o.sb = .bf) then c.bsc - n else c.bsc }

/-- The marks of R376 as a step issues: the tiles it reads, the accumulator that it reads or writes whole. -/
def stepMarks (m : MStep) (s : State) : State :=
  let s := s.readsTile m.o.ta
  let s := match m.o.b with
    | .tile b => s.readsTile b
    | .wsf => s
  if m.o.z then s.wholeAcc m.o.a else s.readsAcc m.o.a

/-- The exponent of a scale minus 127 (R128): none for the NaN scale, 0 where there is none. -/
def scaleExp (l : Option (List Byte)) (i : Nat) : Option Int :=
  match l with
  | none => some 0
  | some l =>
    let b := (l.getD i 0).toNat
    if b = 255 then none else some ((b : Int) - 127)

/-! ### The elements (R172) -/

/-- The groups of a row and a column: block of the group and its products. -/
def groups (g : Nat) (a b : List EVal) : List (Nat × List (EVal × Bool)) :=
  (List.range (a.length / g)).map fun j =>
    (g * j / 32, ((a.drop (g * j)).take g).zipWith EVal.mul ((b.drop (g * j)).take g))

/-- One element under a floating profile. -/
def dotElem (p : Prof) (a b : List EVal) (sa sb : Nat → Option Int) (acc : Word) : Word × FlagBits :=
  (groups (p.g.getD 32) a b).foldl (fun st g =>
    let iv := flagIf (g.2.any (·.2)) fIV
    match sa g.1, sb g.1 with
    | some x, some y =>
      let (s, f) := groupSum p.w (g.2.map (·.1))
      let (w, h) := accAdd st.1 s (x + y)
      (w, st.2 ||| iv ||| f ||| h)
    | _, _ => (cNaN, st.2 ||| iv)) (acc, 0)

/-- The integer of an element. -/
def EVal.int : EVal → Int
  | .fin n e => n * 2 ^ e.toNat
  | _ => 0

/-- One element under profile 6. -/
def intElem (a b : List EVal) (acc : Word) : Word :=
  acc + BitVec.ofInt 32 ((a.zipWith (fun x y => x.int * y.int) b).foldl (· + ·) 0)

/-- Row r of an accumulator (R167). -/
def accRow (m : Mem) (a : Fin 4) (r : Nat) : List Word := (lanesOf (m.readN (a.val * tileSize + 256 * r) 256)).toList

/-- A row of a step's result. -/
def rowResult (m : MStep) (p : Prof) (t : HeldStep) (bc : List (List EVal)) (r : Nat) (ar : List EVal)
    (old : List Word) : List (Word × FlagBits) :=
  (List.range 64).map fun c =>
    let acc := if m.o.z then 0 else old.getD c 0
    if p.int then (intElem ar (bc.getD c []) acc, 0)
    else dotElem p ar (bc.getD c []) (fun kb => scaleExp t.sa (64 * kb + r))
      (fun kb => scaleExp t.sb (64 * kb + c)) acc

/-- Bytes of a row of words. -/
def wordBytes (l : List Word) : List Byte := l.flatMap fun w => leBytes 4 w.toNat

/-! ### The prediction check (R184, R185) -/

/-- An F32 or I32 accumulator element as an exact value. -/
def accVal (int : Bool) (w : Word) : Dy :=
  if int then (w.toInt, 0)
  else match f32 w with
    | .fin a n e => (if a then -(n : Int) else n, e)
    | _ => (0, 0)

/-- The sum over columns of B's row k, with each column's scale (R184, R185). -/
def colSum (abs : Bool) (t : HeldStep) (bc : List (List EVal)) (k : Nat) : Dy :=
  dySum ((List.range 64).map fun c =>
    match (bc.getD c []).getD k (.fin 0 0), scaleExp t.sb (64 * (k / 32) + c) with
    | .fin n e, some x => (if abs then (n.natAbs : Int) else n, e + x)
    | _, _ => (0, 0))

/-- An element value as an exact value; a sum that holds none is exempt. -/
def EVal.dy : EVal → Dy
  | .fin n e => (n, e)
  | _ => (0, 0)

/-- v[k] (R184, R185, R194): the vector that came with the block when its scales are in use; the sums
recorded with the tile when no B scale is in use; otherwise the sum of B's row with each column's scale. A
block used with B scale 0 gives its sums without the block's scales (log 45). -/
def MStep.vSum (m : MStep) (x : Entry) (h : HeldStep) (bc : List (List EVal)) (k : Nat) : Dy :=
  match m.o.b, m.o.sb with
  | .wsf, .scf => ((x.blocks[k / 32]?.map (·.sums)).getD [] |>.getD (k % 32) (.fin 0 0)).dy
  | .tile _, .none =>
    ((if m.c.tb then h.sums.cols else h.sums.rows).getD (m.koff.toNat + k) (.fin 0 0)).dy
  | _, _ => colSum false h bc k

/-- P or M of a row (R184). -/
def rowPred (abs : Bool) (t : HeldStep) (v : List Dy) (r : Nat) (ar : List EVal) : Dy :=
  dySum ((List.range ar.length).map fun k =>
    match ar.getD k (.fin 0 0), scaleExp t.sa (64 * (k / 32) + r) with
    | .fin n e, some x =>
      let w := v.getD k (0, 0)
      ((if abs then (n.natAbs : Int) else n) * w.1, e + x + w.2)
    | _, _ => (0, 0))

/-- Whether a row after the step holds a NaN or an infinity. -/
def rowExempt (int : Bool) (new : List Word) : Bool :=
  !int && new.any fun w => match f32 w with
    | .fin _ _ _ => false
    | _ => true

/-- Whether a compared row passes (R184). -/
def rowPasses (int : Bool) (tol : Nat) (p m : Dy) (old new : List Word) : Bool :=
  let d := Dy.add (dySum (new.map (accVal int))) (let x := dySum (old.map (accVal int)); (-x.1, x.2))
  if int then
    let x := Dy.add d (-p.1, p.2)
    decide (x.1 * 2 ^ x.2.toNat % 2 ^ 32 = 0)
  else
    let x := Dy.add d (-p.1, p.2)
    let s := Dy.add m (dySum (old.map fun w => let v := accVal int w; ((v.1.natAbs : Int), v.2)))
    Dy.le ((x.1.natAbs : Int), x.2) (s.1, s.2 - tol)

/-! ### A step -/

/-- How a step ends: done; a row of the prediction check failed. -/
inductive StepOut where
  | done (s : State)
  | check (row : Nat) (s : State)

/-- The rows that this `.CK` step, by its number in the phase, failed before the retry that runs now
(R187). -/
def Core.retriedRows (c : Core) : List Nat :=
  match c.phase.ckFailed with
  | some (k, rs) => if c.ctl.regs.retried ∧ k = c.phase.ckSteps then rs else []
  | none => []

/-- Compute one step that has issued (R172, R202): every element, the type bit (R169); the rows are compared under
`.CK`, and where several fail the lowest is named (log 101). What MCHK reads is that of the last step that passed
(log 85). -/
def runStep (x : Entry) (m : MStep) (t : HeldStep) (s : State) : StepOut :=
    let c := s.core
    let p := prof m.c.profile
    let bc := m.bCols x t c (s.free + 32768)
    let ar := m.aRows t c s.free
    let zero := List.replicate 64 (0 : Word)
    let old := (List.range 64).map fun r => if m.o.z then zero else accRow c.mx.acc m.o.a r
    let res := (List.range 64).map fun r =>
      rowResult m p t bc r (ar.getD r []) (old.getD r zero)
    let fl := res.foldl (fun f row => row.foldl (fun f e => f ||| e.2) f) (0 : FlagBits)
    let new := res.map fun row => row.map (·.1)
    let s3 := ({ s with free := s.free + 65536 } : State).upd fun c => { c with mx := { c.mx with
      acc := c.mx.acc.write (m.o.a.val * tileSize) (wordBytes new.flatten)
      accI := c.mx.accI.set m.o.a.val p.int m.o.a.isLt
      mflags := c.mx.mflags.merge fl 0 } }
    if !m.o.ck then .done s3
    else
      let v := (List.range m.k).map (m.vSum x t bc)
      let va := (List.range m.k).map (colSum true t bc)
      let tol := (vget x.snap.cktol m.c.profile.toNat 0).toNat
      let bad := (List.range 64).filter fun r =>
        !rowExempt p.int (new.getD r []) && !rowPasses p.int tol (rowPred false t v r (ar.getD r []))
          (rowPred true t va r (ar.getD r [])) (old.getD r []) (new.getD r [])
      match bad with
      | r :: _ => .check r (s3.upd fun c => { c with phase := { c.phase with
          ckFailed := some (c.phase.ckSteps, bad) } })
      | [] =>
        let again := c.retriedRows
        .done (s3.upd fun c => { c with
          phase := { c.phase with ckSteps := c.phase.ckSteps + 1 }
          mx := { c.mx with
            ck := (List.range 64).map fun r =>
              let ex := rowExempt p.int (new.getD r [])
              BitVec.ofNat 3 ((if ex then 2 else 1) + (if again.contains r && !ex then 4 else 0)) } })

/-- A step issues (R143, R175 to R177, R202): scales and blocks are taken and checked, a failed check trapping with
0x0A; it computes later, in an act of its own (R191, log 3). -/
def takeStep (x : Entry) (m : MStep) (s : State) : ERes :=
  let t := m.take x s.core
  let s1 := takeMarks m { m.spend s with core := t.core }
  match t.fail with
  | some info =>
    let t : TrapRec := { cause := 0x0A, info := info, addr := x.addr }
    if x.started then .trapAt t s1 x else .trapIn t s1
  | none => .part (stepMarks m s1) { m.filled x s.core with held := some (m.hold x s) }

/-- A computed step as a word's answer: a failed row traps with 0x12 (R184). -/
def stepAnswer (x : Entry) (go : State → ERes) : StepOut → ERes
  | .done s => go s
  | .check r s => .raw (silentError
      { cause := 0x12, info := BitVec.ofNat 64 (2 * 2 ^ 8 + r * 2 ^ 16), origin := 2 }
      (putHead .matrix { x with held := none } s))

/-- A step at the head of the matrix queue (R143, R202): it waits for its scales and blocks, its checks
are made, it issues, and then it computes; one that takes more blocks than the weight FIFO holds pops them as they come
(log 74). `chk` are the word's own checks. -/
def headStep (i : Instr) (x : Entry) (m : MStep) (chk : State → Option ERes) (go : State → ERes)
    (s : State) : ERes :=
  if s.core.phase.rollback then .wait
  else match x.held with
  | some h => stepAnswer x go (runStep x m h s)
  | none =>
  if !m.ready x s.core && !m.more x s.core then .wait
  else
    orElse (chk s) <|
    match m.refused x (m.sees s.core s.free) with
    | some r => atProgress x (.trap (illegal i r x.addr 2) (m.spend s))
    | none =>
      if m.ready x s.core then takeStep x m s
      else
        let r := MStep.popOne x s
        .part r.1 r.2

/-- MMA (R202). -/
def execMma (tk : Tok) (o : MmaOps) (c : MmaCont) (s : State) : Out :=
  let i : Instr := .mma tk o c
  engWord .matrix tk i s fun x s0 =>
    headStep i x ⟨o, c, 0⟩ (fun _ => none) (fun s => .issue s {}) s0

/-! ### MRUN (R178, R179, R203) -/

/-- Fields of MRCTL (R178). -/
def mrctl (v : BitVec 26) (lo n : Nat) : Nat := v.toNat / 2 ^ lo % 2 ^ n

/-- The B source that MRCTL names. -/
def mrSrc (v : BitVec 26) : BSrc :=
  if mrctl v 6 5 = 16 then .wsf else .tile ⟨mrctl v 6 4, Nat.mod_lt _ (by decide)⟩

/-- The B scale that MRCTL names. -/
def mrScale (v : BitVec 26) : BScale :=
  match mrctl v 13 2 with
  | 0 => .none | 1 => .bf | _ => .scf

/-- The fields and combinations that R61 and R178 refuse. -/
def mrBad (v : BitVec 26) (tb : Bool) : Bool :=
  decide (16 < mrctl v 6 5) || decide (1 < mrctl v 11 2) || decide (2 < mrctl v 13 2)
    || decide (2 < mrctl v 16 2) || (match mrSrc v with
      | .wsf => decide (mrScale v = .bf) || tb
      | .tile _ => decide (mrScale v = .scf))

/-- Counters of iteration j (R156). -/
def counters (j : Nat) : List Nat → List Nat
  | [] => []
  | t :: ts => j % t :: counters (j / t) ts

/-- Step j of an MRUN (R179). -/
def mrStep (v : BitVec 26) (n : NestTab) (c : MmaCont) (j : Nat) : MStep :=
  let cur := counters j n.trips
  let sum (f : Level → Int) : Int := (List.range 6).foldl (fun (a : Int) l =>
    a + (cur.getD l 0 : Int) * f (vget n.level l {})) 0
  let ta := (mrctl v 0 4 + (sum fun l => (l.da.toNat : Int)).toNat) % 16
  let ac := (mrctl v 4 2 + (sum fun l => (l.dacc.toNat : Int)).toNat) % 4
  let z := decide (mrctl v 16 2 = 2) || (decide (mrctl v 16 2 = 1) && decide (cur.getD 0 0 = 0))
  { o := { a := ⟨ac, Nat.mod_lt _ (by decide)⟩, ta := ⟨ta, Nat.mod_lt _ (by decide)⟩, b := mrSrc v
           sa := decide (mrctl v 11 2 = 1), sb := mrScale v, z := z, ck := decide (mrctl v 15 1 = 1) }
    c := c
    koff := 8 * ((mrctl v 18 8 : Int) + sum fun l => l.dk.toInt) }

/-- The checks of an MRUN's fields and table (R179). -/
def mrunChecks (i : Instr) (x : Entry) (k : Fin 2) (c : MmaCont) (s : State) : Option ERes :=
  (illegalIf (mrBad x.snap.mrctl c.tb) i .matrix 0x03 x s).or <|
    (tripsBad x.snap.nest[k]).map fun o =>
      .trap { cause := 0x1A, info := BitVec.ofNat 64 (nestBase k + o), addr := x.addr } s

/-- MRUN (R179, R203): step by step; a fault at step j leaves the steps before it. The checks of its
fields and table come once the waits of its first step are met (R143, log 35). -/
def execMrun (tk : Tok) (k : Fin 2) (c : MmaCont) (s : State) : Out :=
  let i : Instr := .mrun tk k c
  engWord .matrix tk i s fun x s0 =>
    let n := x.snap.nest[k]
    headStep i x (mrStep x.snap.mrctl n c x.prog) (mrunChecks i x k c) (fun s1 =>
      if x.prog + 1 < n.trips.foldl (· * ·) 1 then
        .part s1 { x with prog := x.prog + 1, blocks := [], batches := [], held := none }
      else .issue s1 {}) s0

end Sys2Proof.Machine
end

