-- ==== Sys2Proof/Machine/Epilogue.lean ====
section
/-! DEFINITION. Drains and the other matrix words (R63, R117 to R120, R180 to R188, R204 to R208): the
epilogue's micro-operations, the heap, reading and patching accumulators. -/

namespace Sys2Proof.Machine

/-! ### Micro-operations (R63, R181) -/

/-- op of a micro-operation. -/
def microOp (w : BitVec 16) : Nat := w.toNat / 2 ^ 12
/-- A field of a micro-operation. -/
def microFld (w : BitVec 16) (lo n : Nat) : Nat := w.toNat / 2 ^ lo % 2 ^ n

/-- Whether a micro-operation fails the check of an image (R63). -/
def microBad (w : BitVec 16) : Bool :=
  match microOp w with
  | 0 => decide (microFld w 0 12 ≠ 0)
  | 1 => decide (microFld w 3 9 ≠ 0)
  | 2 => decide (microFld w 3 9 ≠ 0)
  | 3 => decide (microFld w 3 9 ≠ 0)
  | 4 => decide (microFld w 3 9 ≠ 0)
  | 5 => decide (microFld w 8 4 ≠ 0)
  | 6 => decide (microFld w 0 12 ≠ 0)
  | 7 => decide (4 < microFld w 8 4) || decide (microFld w 4 4 ≠ 0) || decide (5 < microFld w 0 3)
  | 8 => decide (microFld w 0 12 ≠ 0)
  | _ => true

/-- The first failing micro-operation of an image; those after the first END are not checked (R63). -/
def epiFail (img : List (BitVec 16)) : Option Nat :=
  let n := (img.takeWhile fun w => microOp w != 0 || microBad w).length
  (List.range (n + 1)).find? fun k => match img[k]? with
    | some w => microBad w
    | none => false

/-- The program of a slot: the micro-operations before END. -/
def program (slot : Vector (BitVec 16) 16) : List (BitVec 16) := slot.toList.takeWhile fun w => microOp w != 0

/-- An element on its way through a program: value, delivered format, flags, heap insertions, NaNs
that HEAP skips. -/
structure Micro where
  x : Word
  fmt : BitVec 4 := 8
  fl : FlagBits := 0
  ins : List (Word × Word) := []
  nans : Nat := 0

/-- A lane of a constant bank. -/
def bankLane (c : Core) (b : Nat) (k : Nat) : Word := vget (vget c.mx.bank b (.replicate 64 0)) k 0

/-- The segment of ACT (R181): clamp(⌊(x + 8) × 4⌋, 0, 63), exactly. -/
def actSegment (x : Word) : Nat :=
  match f32 x with
  | .inf a => if a then 0 else 63
  | .fin a n e =>
    let v := Dy.add (if a then -(n : Int) else n, e) (8, 0)
    let y : Int := if 0 ≤ v.2 + 2 then v.1 * 2 ^ (v.2 + 2).toNat else v.1 / 2 ^ (-(v.2 + 2)).toNat
    if y < 0 then 0 else min y.toNat 63
  | .nan _ => 0

/-- ACT f (R181): a NaN is left unchanged, whether signalling or not, and raises nothing (log 73). -/
def act (c : Core) (f : Nat) (x : Word) : Word × FlagBits :=
  if isNaN x then (x, 0)
  else if f = 0 then (if x.getLsbD 31 then 0 else x, 0)
  else
    let l := bankLane c f (actSegment x)
    fFma (l &&& 0xFFFF0000) x (l <<< 16)

/-- The global column (R181). -/
def globalCol (c : Core) (k : Nat) : Nat := (c.mx.epcolbase.toNat + k) % 2 ^ 32

/-- The draw of the epilogue's SR (R133). -/
def epiDraw (c : Core) (r k : Nat) : Nat :=
  let l (j : Nat) : Word := bankLane c 7 j
  let key := words128 (l 0) (l 1) (l 2) (l 3)
  let ctr := words128 (l 4) (l 5) (l 6) (l 7)
  (rand32 key (ctr + BitVec.ofNat 128 (r * 2 ^ 32 + globalCol c k))).toNat

/-- The rounding mode of a code (R131). -/
def rndOf : Nat → Rnd
  | 0 => .rne | 1 => .rtz | 2 => .rdn | 3 => .rup | 4 => .rna | _ => .sr

/-- CVT: the code zero-extended, its flags, and its element format (R181, R134). -/
def epiCvt (f : Nat) (rnd : Rnd) (sat : Bool) (draw : Nat) (x : Word) : Word × FlagBits × BitVec 4 :=
  let z (n : Nat) (v : Word × FlagBits) (g : BitVec 4) : Word × FlagBits × BitVec 4 :=
    (BitVec.ofNat 32 (v.1.toNat % 2 ^ n), v.2, g)
  match f with
  | 0 => z 16 (f2h fB16 rnd sat draw x) 4
  | 1 => z 16 (f2h fF16 rnd sat draw x) 5
  | 2 => z 8 (f2e fE4 rnd sat draw x) 2
  | 3 => z 8 (f2e fE5 rnd sat draw x) 3
  | _ => z 8 (f2i rnd draw 8 x) 0

/-- One micro-operation on the element in row r and column k (R181). -/
def microStep (c : Core) (r k : Nat) (m : Micro) (w : BitVec 16) : Micro :=
  let arg := microFld w 0 3
  let put (v : Word × FlagBits) : Micro := { m with x := v.1, fl := m.fl ||| v.2 }
  match microOp w with
  | 1 => put (fMul m.x (bankLane c arg k))
  | 2 => put (fAdd m.x (bankLane c arg k))
  | 3 => put (fMul m.x (bankLane c arg 0))
  | 4 => put (act c arg m.x)
  | 5 => if (r : Int) + (w.truncate 8).toInt < globalCol c k then { m with x := 0xFF800000 } else m
  | 6 => if isNaN m.x then { m with nans := m.nans + 1 }
      else { m with ins := m.ins ++ [(m.x, BitVec.ofNat 32 (globalCol c k))] }
  | 7 =>
    let v := epiCvt (microFld w 8 4) (rndOf arg) (microFld w 3 1 == 1) (epiDraw c r k) m.x
    { m with x := v.1, fl := m.fl ||| v.2.1, fmt := v.2.2 }
  | _ => m

/-- An accumulator element read as F32 (R181). -/
def accF32 (int : Bool) (w : Word) : Word × FlagBits := if int then i2f .rne 0 w.toInt else (w, 0)

/-- A row of a drain (R181). -/
def drainRow (c : Core) (a : Fin 4) (slot : Fin 8) (r : Nat) : List Micro :=
  let ops := program c.mx.epi[slot]
  let row := accRow c.mx.acc a r
  (List.range 64).map fun k =>
    let v := accF32 c.mx.accI[a] (row.getD k 0)
    ops.foldl (microStep c r k) { x := v.1, fl := v.2 }

/-- The bytes of a row in its delivered format (R186, R314). -/
def deliveredBytes (f : BitVec 4) (l : List Word) : List Byte := l.flatMap fun w => leBytes (bitsOr8 f / 8) w.toNat

/-! ### The heap (R119) -/

/-- Whether one pair comes before another: larger value, then smaller index. -/
def heapBefore (x y : Word × Word) : Bool :=
  decide (fKey y.1 < fKey x.1) || (decide (fKey x.1 = fKey y.1) && decide (x.2.toNat ≤ y.2.toNat))

/-- Insert a pair in order. -/
def heapPut (x : Word × Word) : List (Word × Word) → List (Word × Word)
  | [] => [x]
  | y :: t => if heapBefore x y then x :: y :: t else y :: heapPut x t

/-- Insert, keeping the first k. -/
def heapInsert (k : Nat) (h : List (Word × Word)) (x : Word × Word) : List (Word × Word) :=
  (heapPut x h).take k

/-! ### MDRAIN (R181, R182, R204) -/

/-- The entry that a row of a drain pushes (R182, R186). -/
def drainEntry (c : Core) (slot : Fin 8) (row : List Micro) : LaneEntry :=
  let words := row.map (·.x)
  let f := (row.getD 0 { x := 0 }).fmt
  let lanes : Lanes := Vector.ofFn fun k => words.getD k.val 0
  let sum := (program c.mx.epi[slot]).any fun w => microOp w == 8
  { lanes := lanes, mask := BitVec.allOnes 64, fmt := f
    residue := if sum then some (residueOf (deliveredBytes f words)) else none }

/-- The core as a drain reads it: with the slot and the EPCOLBASE of its first issue (R117, R216). -/
def Core.drainCore (c : Core) (x : Entry) (slot : Fin 8) : Core :=
  match x.drain with
  | none => c
  | some (p, b) => { c with mx := { c.mx with
      epi := c.mx.epi.set slot.val p slot.isLt, epcolbase := b } }

/-- Units that a drain of some micro-operations reads (R376): accumulator, slot, banks, heap. -/
def drainMarks (a : Fin 4) (slot : Fin 8) (ops : List (BitVec 16)) (s : State) : State :=
  let c := s.core.phase.carried
  let usesBank (w : BitVec 16) : Bool :=
    let b := if microOp w = 7 then 7 else microFld w 0 3
    c.bank.getLsbD b && (match microOp w with
      | 1 => true | 2 => true | 3 => true
      | 4 => microFld w 0 3 != 0
      | 7 => microFld w 0 3 == 5
      | _ => false)
  (s.readsAcc a).readsIf (c.epi.getLsbD slot.val || ops.any usesBank
    || (c.heap && ops.any fun w => microOp w == 6))

/-- Room for a drain's row in its destination. -/
def Core.drainRoom (c : Core) : DrainDest → Bool
  | .vq q => c.vqRoom q
  | .wq => decide (c.q.wq.length < 8)
  | .heap => true

/-- A row's entry goes to its destination. -/
def State.pushDrain (s : State) (x : LaneEntry) : DrainDest → State
  | .vq q => s.pushVq q x
  | .wq => s.updQ fun q => { q with wq := q.wq ++ [x] }
  | .heap => s

/-- MDRAIN (R204): one row an act; `.AC` advances EPCOLBASE after the last (R117). -/
def execMdrain (tk : Tok) (a : Fin 4) (d : DrainDest) (slot : Fin 8) (ac : Bool) (s : State) : Out :=
  let i : Instr := .mdrain tk a d slot ac
  engWord .matrix tk i s fun x s0 =>
    if !s0.core.drainRoom d then .wait
    else
      let dc := s0.core.drainCore x slot
      let row := drainRow dc a slot x.prog
      let fl := row.foldl (fun f m => f ||| m.fl) (0 : FlagBits)
      let nans := (row.map (·.nans)).sum
      let ins := row.flatMap (·.ins)
      let last := decide (63 ≤ x.prog)
      let s1 := (drainMarks a slot (program dc.mx.epi[slot]) s0).upd fun c => { c with mx := { c.mx with
        mflags := c.mx.mflags.merge fl nans
        heap := ins.foldl (heapInsert c.mx.heapk.toNat) c.mx.heap
        epcolbase := if ac && last then c.mx.epcolbase + 64 else c.mx.epcolbase } }
      let s2 := s1.pushDrain (drainEntry dc slot row) d
      if last then .issue s2 {}
      else .part s2 { x with prog := x.prog + 1, drain := some (dc.mx.epi[slot], dc.mx.epcolbase) }

/-! ### Accumulator words (R206, R188) -/

/-- AZERO (R206). -/
def execAzero (tk : Tok) (a : Fin 4) (s : State) : Out :=
  engWord .matrix tk (.azero tk a) s fun _ s0 =>
    .issue ((s0.wholeAcc a).upd fun c => { c with mx := { c.mx with
      acc := c.mx.acc.write (a.val * tileSize) (List.replicate tileSize 0)
      accI := c.mx.accI.set a.val false a.isLt } }) {}

/-- AREAD (R206): waits for room before it issues. -/
def execAread (tk : Tok) (a : Fin 4) (row : Fin 64) (q : Fin 4) (s : State) : Out :=
  engWord .matrix tk (.aread tk a row q) s fun _ s0 =>
    if !s0.core.vqRoom q then .wait
    else
      let l := lanesOf (s0.core.mx.acc.readN (a.val * tileSize + 256 * row.val) 256)
      .issue ((s0.readsAcc a).pushVq q (fullEntry l)) {}

/-- One column of APATCH (R188). -/
def patchLane (mode : PatchMode) (int : Bool) (a v : Word) (m : Bool) : Word × FlagBits :=
  match mode with
  | .set => (v, 0)
  | .add => if int then (a + v, 0) else fAdd a v
  | .mset => (if m then v else a, 0)

/-- APATCH (R206): waits while mq is empty. -/
def execApatch (tk : Tok) (a : Fin 4) (row : Fin 64) (mode : PatchMode) (s : State) : Out :=
  engWord .matrix tk (.apatch tk a row mode) s fun _ s0 =>
    match s0.core.q.mq with
    | [] => .wait
    | v :: t =>
      let c := s0.core
      let old := accRow c.mx.acc a row.val
      let res := (List.range 64).map fun k =>
        patchLane mode c.mx.accI[a] (old.getD k 0) (vget v.lanes k 0) (v.mask.getLsbD k)
      let fl := res.foldl (fun f e => f ||| e.2) (0 : FlagBits)
      let s1 := s0.readsIf v.carried
      let s1 := match mode with
        | .add => s1.readsAcc a
        | _ => s1
      .issue ((s1.updQ fun q => { q with mq := t }).upd fun c => { c with mx := { c.mx with
        acc := c.mx.acc.write (a.val * tileSize + 256 * row.val) (wordBytes (res.map (·.1)))
        mflags := c.mx.mflags.merge fl 0 } }) {}

/-! ### Slots and banks (R207) -/

/-- The 16 micro-operations of 32 bytes. -/
def epiWords (bs : List Byte) : List (BitVec 16) :=
  (List.range 16).map fun k => BitVec.ofNat 16 (leNat ((bs.drop (2 * k)).take 2))

/-- EPSET (R207): an image that fails leaves the slot unchanged and traps with 0x1A. -/
def execEpset (tk : Tok) (slot : Fin 8) (st : Fin 16) (s : State) : Out :=
  let i : Instr := .epset tk slot st
  engWord .matrix tk i s fun x s0 =>
    let a := s0.core.rowAddr x.snap.st[st] 0
    orElse (readChecks i .matrix x [(a, 32)] s0) <|
      let img := epiWords (readRange s0 (locOf s0 x.snap .matrix .read) a 32)
      match epiFail img with
      | some k => .trapIn { cause := 0x1A, info := BitVec.ofNat 64 (k + slot.val * 16 + 2 ^ 16)
                            addr := x.addr } s0
      | none =>
        let v : Vector (BitVec 16) 16 := Vector.ofFn fun k => img.getD k.val 0
        .issue ((s0.updCarried fun c => { c with
            epi := c.epi &&& ~~~(BitVec.ofNat 8 (2 ^ slot.val)) }).upd fun c =>
          { c with mx := { c.mx with epi := c.mx.epi.set slot.val v slot.isLt } }) {}

/-- EPCON (R207). -/
def execEpcon (tk : Tok) (bank : Fin 8) (st : Fin 16) (s : State) : Out :=
  let i : Instr := .epcon tk bank st
  engWord .matrix tk i s fun x s0 =>
    let a := s0.core.rowAddr x.snap.st[st] 0
    orElse (readChecks i .matrix x [(a, 256)] s0) <|
      let l := lanesOf (readRange s0 (locOf s0 x.snap .matrix .read) a 256)
      .issue ((s0.updCarried fun c => { c with
          bank := c.bank &&& ~~~(BitVec.ofNat 8 (2 ^ bank.val)) }).upd fun c =>
        { c with mx := { c.mx with bank := c.mx.bank.set bank.val l bank.isLt } }) {}

/-! ### Heap, check status, MNOP (R208, R120, R187) -/

/-- HEAPCLR (R208): a field of 0 is 64. -/
def execHeapclr (tk : Tok) (k : Fin 64) (s : State) : Out :=
  engWord .matrix tk (.heapclr tk k) s fun _ s0 =>
    .issue ((s0.updCarried fun c => { c with heap := false }).upd fun c => { c with mx := { c.mx with
      heap := [], heapk := BitVec.ofNat 7 (if k = 0 then 64 else k.val) } }) {}

/-- The entry of HEAPRD (R120). -/
def heapEntry (h : List (Word × Word)) (k : Nat) (part : Bool) : LaneEntry :=
  let empty : Word := if part then 0xFFFFFFFF else 0xFF800000
  fullEntry (Vector.ofFn fun r =>
    match (h.take k)[r.val]? with
    | some x => if part then x.2 else x.1
    | none => empty)

/-- HEAPRD (R208, R120). -/
def execHeaprd (tk : Tok) (q : Fin 4) (part : Bool) (s : State) : Out :=
  engWord .matrix tk (.heaprd tk q part) s fun _ s0 =>
    if !s0.core.vqRoom q then .wait
    else .issue ((s0.readsIf s0.core.phase.carried.heap).pushVq q
      (heapEntry s0.core.mx.heap s0.core.mx.heapk.toNat part)) {}

/-- MCHK (R187): the status of the most recent `.CK` step. -/
def execMchk (tk : Tok) (q : Fin 4) (s : State) : Out :=
  engWord .matrix tk (.mchk tk q) s fun _ s0 =>
    if !s0.core.vqRoom q then .wait
    else
      let l : Lanes := Vector.ofFn fun r => (s0.core.mx.ck.getD r.val 0).zeroExtend 32
      .issue (s0.pushVq q (fullEntry l)) {}

/-- MNOP (R208). -/
def execMnop (tk : Tok) (s : State) : Out :=
  engWord .matrix tk (.mnop tk) s fun _ s0 => .issue s0 {}

end Sys2Proof.Machine
end

