-- ==== Sys2Proof/Machine/Host.lean ====
section
/-! DEFINITION. What the host does to the part (R280, R331 to R334, R381 to R386): register pages, kicks,
mailboxes, memory accesses, the link. Firmware's reading of command entries (R332, R333, R335). -/

namespace Sys2Proof.Machine

/-! ### Tenant memory -/

/-- The home of an address for firmware acting for a tenant: its windows on its home die (log 17). -/
def tenantLoc (s : State) (tn : Fin 16) (k : Acc) : Loc := fun a =>
  if 0xFD0000000000 ≤ a then .error (.trap 0x04)
  else translate s s.sys.tenants[tn].home tn k a

/-- n bytes of tenant memory, where every byte of them is reached. -/
def readTenant (s : State) (tn : Fin 16) (a n : Nat) : Option (List Byte) :=
  let l := tenantLoc s tn .read
  if (pieces block a n).all (fun p => match l p.1 with
    | .ok _ => true
    | .error _ => false) then some (readRange s l a n) else none

/-! ### Queues -/

/-- Change a queue. -/
def State.modQueue (s : State) (tn : Fin 16) (q : Fin 8) (f : HostQueue → HostQueue) : State :=
  s.modTenant tn fun t => { t with queues := t.queues.set q.val (f t.queues[q]) q.isLt }

/-- A queue of a tenant. -/
def State.queue (s : State) (tn : Fin 16) (q : Fin 8) : HostQueue := s.sys.tenants[tn].queues[q]

/-- Bytes of a record of kinds 16 to 18 (R384). -/
def hostRecord (kind q err cause seq : Nat) (info : DWord) (tick : Nat) : List Byte :=
  leBytes 2 kind ++ leBytes 1 q ++ leBytes 1 err ++ leBytes 1 cause ++ leBytes 3 0 ++ leBytes 4 seq
    ++ leBytes 4 0 ++ leBytes 8 info.toNat ++ leBytes 8 tick

/-- A record of kind 18 says that a queue has stopped (R384). -/
def State.stopRecord (s : State) (tn : Fin 16) (q : Fin 8) (err : BitVec 4) (cause : BitVec 6)
    (seq : BitVec 32) (info : DWord) (tick : Nat) : State :=
  s.writeRecord tn (some q) 2 (hostRecord 18 q.val err.toNat cause.toNat seq.toNat info tick)

/-- An entry that the interpreter cannot go on from stops the queue (R334): no task has the fault, so the
record names NEXT and the tick of the home die (log 57). -/
def State.queueError (s : State) (tn : Fin 16) (q : Fin 8) (err : BitVec 4) : State :=
  (s.modQueue tn q fun x => x.fail err 0).stopRecord tn q err 0 (s.queue tn q).next 0
    (s.dieTick s.sys.tenants[tn].home)

/-- The die whose image window page 0 shows (R389): the first that still runs its ROM (log 92). -/
def State.romDie (s : State) : Option (Fin 4) :=
  (List.finRange 4).find? fun d => decide (s.sys.die[d].boot = .rom) || decide (s.sys.die[d].boot = .firmware)

/-- Whether a tenant's page shows an image window and no registers (R389). -/
def State.inRom (s : State) (tn : Fin 16) : Bool := decide (tn = 0) && s.romDie.isSome

/-- Bytes put over a window's, at an offset. -/
def overlay (w : List Byte) (off : Nat) (bs : List Byte) : List Byte :=
  (w ++ List.replicate (off - w.length) 0).take off ++ bs ++ w.drop (off + bs.length)

/-- Where the image window holds its status word (R389; log 92). -/
def statusAt : Nat := 0xFFF8

/-- A write of 64 bits to a page that shows an image window: the window holds them (R389). -/
def State.windowWrite (s : State) (off : Nat) (v : DWord) : State :=
  match s.romDie with
  | none => s
  | some d => if statusAt < off + 8 then s
    else s.modDie d fun x => { x with window := overlay x.window off (leBytes 8 v.toNat) }

/-- What a read of 64 bits of an image window returns; the status word names the step that failed (R389). -/
def State.windowRead (s : State) (off : Nat) : DWord :=
  match s.romDie with
  | none => 0
  | some d => if off = statusAt then BitVec.ofNat 64 s.sys.die[d].failed
    else BitVec.ofNat 64 (leNat ((s.sys.die[d].window.drop off).take 8))

/-- A write of a register of a tenant's page: a page that shows an image window has none (R389). -/
def State.pageWrite (s : State) (tn : Fin 16) (off : Nat) (v : DWord) (f : State → State) : State :=
  if s.inRom tn then s.windowWrite off v else f s

/-- Firmware handles a kick (R332): a stale value is ignored; a stopped queue takes the value and waits for ACK. -/
def HostQueue.kick (x : HostQueue) (seq : BitVec 32) : HostQueue :=
  if !x.en || decide (2 ^ 31 ≤ (seq - x.kicked).toNat) then x
  else { x with
    kicked := seq
    rereads := if x.state = .running then x.rereads else 0
    state := match x.state with
      | .error => .error
      | .waiting => .waiting
      | _ => .running }

/-- Whether a queue's timer has fallen due and its event has not been put into the list (R332, R345). -/
def HostQueue.timerDue (x : HostQueue) (now : Nat) : Bool :=
  !x.events.contains .timer && x.timer.any fun t => decide (t ≤ now)

/-- An event arrives behind the events of its queue that have arrived before it (R345). -/
def HostQueue.arrive (x : HostQueue) (now : Nat) (e : QEvent) : HostQueue :=
  { x with events := x.events ++ (if x.timerDue now then [.timer] else []) ++ [e] }

/-- TICK of a tenant's home die. -/
def State.homeTick (s : State) (tn : Fin 16) : Nat := s.dieTick s.sys.tenants[tn].home

/-- Whether an event that arrives now is the next one of its queue (R345). -/
def State.noEvents (s : State) (tn : Fin 16) (q : Fin 8) : Bool :=
  (s.queue tn q).events.isEmpty && !(s.queue tn q).timerDue (s.homeTick tn)

/-- KICK (R8, R332, R345): firmware handles it at once, or after the events of its queue that arrived before it; before
every die has booted the event waits. -/
def execKick (tn : Fin 16) (q : Fin 8) (seq : BitVec 32) (s : State) : Out :=
  .next (s.pageWrite tn (64 * q.val + 0x10) (seq.zeroExtend 64) fun s => s.modQueue tn q fun x =>
    if s.booted && s.noEvents tn q then x.kick seq else x.arrive (s.homeTick tn) (.kick seq)).pass

/-- Whether the interpreter has an entry of the ring to read (R332). -/
def HostQueue.ready (x : HostQueue) : Bool := decide ((x.kicked - x.next).toNat < 2 ^ 31)

/-- Address of the entry that the interpreter stands at (R332, R337). -/
def HostQueue.entryAt (x : HostQueue) : Nat :=
  match x.pos with
  | some a => a.toNat
  | none => (x.qbase.toNat + 256 * (x.next.toNat % 2 ^ x.log2n.toNat)) % 2 ^ 48

/-- The entry that the interpreter stands at: unread bytes read as an entry of zeros. -/
def readEntry (s : State) (tn : Fin 16) (q : Fin 8) : List Byte :=
  (readTenant s tn (s.queue tn q).entryAt 256).getD (List.replicate 256 0)

/-- A little-endian field of an entry. -/
def entField (bs : List Byte) (o n : Nat) : Nat := leNat ((bs.drop o).take n)

/-- Whether the bytes from o to e − 1 are zero. -/
def zeroFrom (bs : List Byte) (o e : Nat) : Bool := ((bs.drop o).take (e - o)).all (· == 0)

/-- The fields of a LAUNCH entry (R336). -/
def launchFields (b : List Byte) : LaunchFields where
  slot := BitVec.ofNat 16 (entField b 8 2)
  arglen := BitVec.ofNat 16 (entField b 12 2)
  event := BitVec.ofNat 16 (entField b 14 2)
  argsrc := BitVec.ofNat 64 (entField b 16 8)
  start := BitVec.ofNat 64 (entField b 24 8)
  plumbmax := BitVec.ofNat 32 (entField b 32 4)
  sliplim := BitVec.ofNat 32 (entField b 36 4)
  strict := entField b 40 1 % 2 == 1
  lv := entField b 40 1 / 2 % 2 == 1
  peerbase := BitVec.ofNat 16 (entField b 42 2)
  peern := BitVec.ofNat 16 (entField b 44 2)
  save := BitVec.ofNat 64 (entField b 48 8)
  bufs := (List.range 16).map fun i => BitVec.ofNat 64 (entField b (64 + 8 * i) 8)

/-- The instruction that an entry's bytes name (R335, R336): none for a type that is not assigned, a
flag or a reserved byte that is not zero, a field outside its values. -/
def entryInstr (tn : Fin 16) (q : Fin 8) (b : List Byte) : Option Instr :=
  let w := entField b 5 1 == 1
  let ev := BitVec.ofNat 16 (entField b 8 2)
  let a := BitVec.ofNat 64 (entField b 16 8)
  let ok (z : Bool) (i : Instr) : Option Instr := if z then some i else none
  if 1 < entField b 5 1 ∨ !zeroFrom b 6 8 then none
  else match entField b 4 1 with
    | 1 => ok (decide (entField b 8 2 ≤ 255) && zeroFrom b 10 12 && decide (entField b 40 1 < 4)
        && zeroFrom b 41 42 && zeroFrom b 46 48 && zeroFrom b 56 64 && zeroFrom b 192 256)
        (.launch tn q (BitVec.ofNat 32 (entField b 0 4)) w (launchFields b))
    | 2 => ok (decide (entField b 10 1 < 2) && zeroFrom b 11 256)
        (.listWait tn q w ev (entField b 10 1 == 1))
    | 3 => ok (zeroFrom b 10 16 && zeroFrom b 32 256)
        (.listSignal tn q w ev a (BitVec.ofNat 64 (entField b 24 8)))
    | 4 => ok (decide (1 ≤ entField b 8 2) && decide (entField b 8 2 ≤ 255) && zeroFrom b 10 16
        && zeroFrom b 24 256) (.listSkipif tn q w ev a)
    | 5 => ok (zeroFrom b 8 16 && zeroFrom b 24 256 && decide (entField b 16 8 % 256 = 0))
        (.listJump tn q w a)
    | 6 => ok (zeroFrom b 8 16 && zeroFrom b 24 256 && decide (entField b 16 8 % 256 = 0))
        (.listCall tn q w a)
    | 7 => ok (zeroFrom b 8 256) (.listReturn tn q w)
    | 8 => ok (zeroFrom b 8 256) (.listFence tn q w)
    | 9 => ok (zeroFrom b 8 256) (.listEnd tn q w)
    | _ => none

/-- Whether an entry's SEQ field is the one the interpreter expects (R332); a fixed list has none. -/
def seqOk (x : HostQueue) (b : List Byte) : Bool :=
  x.pos.isSome || decide (entField b 0 4 = x.next.toNat)

/-- An entry whose SEQ differs is read again 256 ticks of the home die later; after the 16th time the queue is parked
(R332). -/
def HostQueue.reread (x : HostQueue) (now : Nat) : HostQueue :=
  if 16 ≤ x.rereads then { x with state := .parked, rereads := 0, timer := none }
  else { x with rereads := x.rereads + 1, timer := some (now + 256) }

/-- ENTRY_REREAD (R332, R334): a SEQ that still differs counts, and the entry is read again when the timer's event is
handled (R345); an entry whose SEQ matches and whose bytes are not an entry stops the queue with ERR 1. -/
def execEntryReread (tn : Fin 16) (q : Fin 8) (s : State) : Out :=
  let x := s.queue tn q
  let b := readEntry s tn q
  if x.state ≠ .running ∨ x.timer.isSome then .next s.pass
  else if !seqOk x b then
    .next (s.modQueue tn q fun x => x.reread (s.homeTick tn)).pass
  else if (entryInstr tn q b).isNone then .next (s.queueError tn q 1).pass
  else .next (s.modQueue tn q fun x => { x with rereads := 0 }).pass

/-- ACK (R334): a latched error clears and the queue is idle. After an error in a fixed list the next kick goes on inside
the list (log 104). -/
def execAck (tn : Fin 16) (q : Fin 8) (s : State) : Out :=
  .next (s.pageWrite tn (64 * q.val + 0x18) (BitVec.ofNat 64 (2 ^ 24)) fun s => s.modQueue tn q fun x =>
    if x.state = .error then { x with
      state := .idle, err := 0, cause := 0, ovf := false, rereads := 0, timer := none, waitEv := none }
    else x).pass

/-- QCFG (R331, R332): a write while STATE or EN is not 0 is ignored; EN becoming 1 starts NEXT at 1 and
the kicked value at 0. A LOG2N below 4 is kept and used as it is written (log 93). -/
def execQcfgWrite (tn : Fin 16) (q : Fin 8) (v : DWord) (s : State) : Out :=
  .next (s.pageWrite tn (64 * q.val + 0x08) v fun s => s.modQueue tn q fun x =>
    if x.state ≠ .idle ∨ x.en then x
    else
      let en := v.getLsbD 7
      { x with
        log2n := v.truncate 4, order := v.getLsbD 4, prio := BitVec.ofNat 2 (v.toNat / 32 % 4), en := en
        next := if en then 1 else x.next
        kicked := if en then 0 else x.kicked
        pos := none, calls := [], rereads := 0, timer := none }).pass

/-- ERCFG (R383): a write while EN is 1 is ignored; EN becoming 1 clears HEAD, TAIL and LOST. A LOG2N outside 7 to 20 is
kept and used as it is written (log 93). -/
def execErcfgWrite (tn : Fin 16) (v : DWord) (s : State) : Out :=
  .next (s.pageWrite tn 0x208 v fun s => s.modTenant tn fun t =>
    if t.eren then t
    else
      let en := v.getLsbD 5
      { t with
        erlog2n := v.truncate 5, eren := en
        erhead := if en then 0 else t.erhead
        ertail := if en then 0 else t.ertail
        erlost := if en then 0 else t.erlost }).pass

/-- QBASE as it is kept (R331). -/
def qbaseOf (v : DWord) : DWord := BitVec.ofNat 64 (v.toNat % 2 ^ 48 / 256 * 256)
/-- QSAVE as it is kept (R331). -/
def qsaveOf (v : DWord) : DWord := BitVec.ofNat 64 (v.toNat % 2 ^ 48 / 2 ^ 21 * 2 ^ 21)
/-- ERBASE as it is kept (R383). -/
def erbaseOf (v : DWord) : DWord := BitVec.ofNat 64 (v.toNat % 2 ^ 48 / 4096 * 4096)

/-- A write of QBASE, QSAVE, ERBASE or ERTAIL (R331, R382, R383); the other offsets that name a register have acts of
their own, and a write of an offset that names none is ignored. -/
def regWrite (tn : Fin 16) (o : Nat) (v : DWord) (s : State) : State :=
  if o < 0x200 then
    let q : Fin 8 := ⟨o / 64 % 8, Nat.mod_lt _ (by decide)⟩
    if o % 64 = 0 then
      s.modQueue tn q fun x => if x.state = .idle ∧ !x.en then { x with qbase := qbaseOf v } else x
    else if o % 64 = 0x20 then s.modQueue tn q fun x => { x with qsave := qsaveOf v }
    else s
  else if o = 0x200 then s.modTenant tn fun t => if t.eren then t else { t with erbase := erbaseOf v }
  else if o = 0x218 then s.modTenant tn fun t => { t with ertail := v.truncate 32 }
  else s

/-- HOST_REGISTER_WRITE (R331, R382, R383, R389). -/
def execHostRegisterWrite (tn : Fin 16) (off : BitVec 16) (v : DWord) (s : State) : Out :=
  .next (s.pageWrite tn off.toNat v (regWrite tn off.toNat v)).pass

/-! ### Mailboxes (R386) -/

/-- Change a core that a tenant owns; another core's mailbox ignores the access. -/
def State.ownedCore (s : State) (tn : Fin 16) (c : Fin 128) (f : Queues → Queues) : State :=
  if s.sys.tenants[tn].cores.contains c then s.modCore c.val fun x => { x with q := f x.q } else s

/-- The mailbox queues of a core that a tenant owns; those of another core read as empty. -/
def State.mailbox (s : State) (tn : Fin 16) (c : Fin 128) : Queues :=
  if s.sys.tenants[tn].cores.contains c then ((s.coreAt c.val).map (·.q)).getD {} else {}

/-- What the host's read of a register returns. -/
def State.hostReads (s : State) (v : DWord) : State := { s with sys := { s.sys with hostRead := v } }

/-- A read of MBOUT pops the oldest outbound entry; it reads 0 when empty. -/
def readMbout (tn : Fin 16) (c : Fin 128) (s : State) : State :=
  (s.ownedCore tn c fun q => { q with mboxOut := q.mboxOut.tail }).hostReads
    ((s.mailbox tn c).mboxOut.headD 0)

/-- The offset of a core's mailbox in a page (R382). -/
def mailAt (c : Fin 128) : Nat := 0x400 + 16 * c.val

/-- MBOUT (R386). -/
def execMbout (tn : Fin 16) (c : Fin 128) (s : State) : Out :=
  .next (if s.inRom tn then s.hostReads (s.windowRead (mailAt c)) else readMbout tn c s).pass

/-- MBIN (R386): a 64-bit write pushes; with 16 entries it is dropped and DROP is set. -/
def execMbin (tn : Fin 16) (c : Fin 128) (v : DWord) (s : State) : Out :=
  .next (s.pageWrite tn (mailAt c + 8) v fun s => s.ownedCore tn c fun q =>
    if 16 ≤ q.mboxIn.length then { q with mboxDrop := true }
    else { q with mboxIn := q.mboxIn ++ [v] }).pass

/-- DROP_CLEAR (R386). -/
def execDropClear (tn : Fin 16) (c : Fin 128) (s : State) : Out :=
  .next (s.pageWrite tn (mailAt c + 8) (BitVec.ofNat 64 (2 ^ 16)) fun s =>
    s.ownedCore tn c fun q => { q with mboxDrop := false }).pass

/-! ### Reads of a tenant's page (R331, R382, R383, R386) -/

/-- STATE of QSTAT. -/
def QState.num : QState → Nat
  | .idle => 0 | .running => 1 | .waiting => 1 | .parked => 2 | .error => 3

/-- QCFG's image (R331). -/
def HostQueue.qcfg (x : HostQueue) : DWord :=
  let b (y : Bool) : Nat := if y then 1 else 0
  BitVec.ofNat 64 (x.log2n.toNat + 16 * b x.order + 32 * x.prio.toNat + 128 * b x.en)

/-- QSTAT's image (R331); NOSORT is the package's (R285). -/
def HostQueue.qstat (x : HostQueue) (nosort : Bool) : DWord :=
  let b (y : Bool) : Nat := if y then 1 else 0
  BitVec.ofNat 64 (x.state.num + 4 * x.err.toNat + 2 ^ 8 * x.cause.toNat + 2 ^ 16 * b x.ovf
    + 2 ^ 17 * b nosort + 2 ^ 32 * x.next.toNat)

/-- A register of a queue: KICK is write-only and reads as zero. -/
def HostQueue.reg (x : HostQueue) (nosort : Bool) (o : Nat) : DWord :=
  match o with
  | 0x00 => x.qbase
  | 0x08 => x.qcfg
  | 0x18 => x.qstat nosort
  | 0x20 => x.qsave
  | _ => 0

/-- A register of the event ring (R383). -/
def Tenant.erReg (t : Tenant) (o : Nat) : DWord :=
  match o with
  | 0x200 => t.erbase
  | 0x208 => BitVec.ofNat 64 (t.erlog2n.toNat + (if t.eren then 32 else 0))
  | 0x210 => BitVec.ofNat 64 (t.erhead.toNat + 2 ^ 32 * t.erlost.toNat)
  | 0x218 => t.ertail.zeroExtend 64
  | _ => 0

/-- MBCTL's image (R386). -/
def Queues.mbctl (q : Queues) : DWord :=
  BitVec.ofNat 64 (q.mboxOut.length + 2 ^ 8 * q.mboxIn.length + (if q.mboxDrop then 2 ^ 16 else 0))

/-- The host reads 64 bits of a tenant's page (R382) at a register's own offset (log 93): reading MBOUT pops; anything else
reads as zero. While a die
runs its ROM page 0 shows its image window (R389). -/
def pageRead (tn : Fin 16) (off : BitVec 16) (s : State) : State :=
  let o := off.toNat
  let t := s.sys.tenants[tn]
  if s.inRom tn then s.hostReads (s.windowRead o)
  else if o < 0x200 then
    s.hostReads ((t.queues[o / 64 % 8]'(Nat.mod_lt _ (by decide))).reg s.sys.nosort (o % 64))
  else if o < 0x400 then s.hostReads (t.erReg o)
  else if o < 0xC00 then
    let c : Fin 128 := ⟨(o - 0x400) / 16 % 128, Nat.mod_lt _ (by decide)⟩
    if o % 16 = 0 then readMbout tn c s
    else if o % 16 = 8 then s.hostReads (s.mailbox tn c).mbctl
    else s.hostReads 0
  else s.hostReads 0

/-! ### Host memory accesses and the link -/

/-- HOST_MEM_ACCESS (R280, R381): a CXL.mem write performs at its home, one of stacks 0 to 7 below
48 GiB; a read of bytes with an uncorrectable error is returned poisoned and logged (R380). -/
def execHostMemAccess (write : Bool) (pa : Nat) (n : Nat) (data : List Byte) (s : State) : Out :=
  if 8 * 2 ^ 36 ≤ pa ∨ 48 * 2 ^ 30 < pa % 2 ^ 36 + n then .next s.pass
  else if write then .next (s.writeAt .hbm pa data).pass
  else
    let bad := s.badAt .hbm pa n
    let s1 := { s with sys := { s.sys with poison := bad } }
    let d : Fin 4 := ⟨pa / 2 ^ 37 % 4, Nat.mod_lt _ (by decide)⟩
    let bs := errorBytes 3 d.val 0 0 2 pa 0 (s.dieTick d)
    .next (if bad then s1.note bs else s1).pass

/-- LINK_RATE_CHANGE (R381): the link trains at 16, 8 or 4 lanes and at up to 128 GT/s; nothing but
timing changes. -/
def execLinkRateChange (rate : Nat) (lanes : Nat) (s : State) : Out :=
  if 128 < rate ∨ !([16, 8, 4].contains lanes) then .next s.pass
  else .next ({ s with sys := { s.sys with linkRate := rate, linkLanes := lanes } }).pass

end Sys2Proof.Machine
end

