-- ==== Sys2Proof/Machine/CtlMem.lean ====
section
/-! DEFINITION. Loads, stores, literals, atomics and fences of the control core (R44 to R51, R80 to
R86, R392), and the pages a write may reach. -/

namespace Sys2Proof.Machine

/-- Bench lines that issued engine words have still to finish writing (R373): those of the words that
have not retired, and of one that stands at a progress point. -/
def Core.pendingLine (c : Core) (line : Nat) : Bool :=
  [Engine.load, .matrix, .vector, .copy].any fun e =>
    ((c.eng e).issued.any fun w => w.lines.contains line)
      || (match (c.eng e).queue with
        | .word x :: _ => x.started && x.lines.contains line
        | _ => false)

/-- Whether a control load with SHADOW set reads a pending line of its own bench (R373). -/
def State.readsPending (s : State) (sp : Space) (off : Nat) : Bool :=
  s.core.ctl.regs.shadow && decide (sp = .bench s.core.id.num) && s.core.pendingLine (off / 64)

/-- Cause 0x08 of a control load from an address whose line is pending (R373). -/
def pendingTrap (a : Nat) : TrapRec := { cause := 0x08, info := 4, addr := BitVec.ofNat 48 (a / 64 * 64) }

/-- The watchpoint check of a control access (R367, R368, R370): a hit sets HIT and traps. -/
def ctlWatch (i : Instr) (k : Acc) (a n : Nat) (s : State) : Option Res :=
  let c := s.core
  if c.ctl.bank1 || c.ctl.regs.hook || c.ctl.skipEpc then none
  else
    let kind := match k with
      | .write => 1
      | .atomic => 2
      | _ => 0
    match wpHits c.vis kind 0 a n with
    | [] => none
    | w :: ws =>
      let hit := (w :: ws).foldl (fun m j => m ||| BitVec.ofNat 16 (2 ^ j)) (0 : BitVec 16)
      some (.raw (takeTrap
        { cause := 0x07, addr := BitVec.ofNat 48 a, wpskip := true
          info := BitVec.ofNat 64 (w + kind * 16 + wordBits i) }
        (s.updRegs fun r => { r with wphit := r.wphit ||| hit })))

/-- The checks of a control access, in the order of R80: the bits above 47, alignment, the space
and its window, the watchpoints; then what reading finds: an uncorrectable error, a pending line (R360). Where
several of the others fail, R80's order decides before the lowest code of R360 (log 72). -/
def ctlAccess (i : Instr) (k : Acc) (ea : DWord) (n : Nat) (s : State) :
    Except Res (Space × Nat) :=
  let a := ea.toNat
  let t (cause : Nat) : Res := .trap (access cause i k.num (ea.truncate 48) 0)
  if 2 ^ 48 ≤ a then .error (t 0x04)
  else if a % n ≠ 0 then .error (t 0x03)
  else
    match locate s .control k a with
    | .error (.trap c) => .error (t c)
    | .error (.gone pa) => .error (.fault (.noSuchHbm pa))
    | .ok (sp, off) =>
      match ctlWatch i k a n s with
      | some r => .error r
      | none =>
        if k ≠ .write ∧ s.badAt sp off n then
          .error (.stuck (silentError { cause := 0x13, info := BitVec.ofNat 64 sp.whereNum
                                        addr := BitVec.ofNat 48 a } s))
        else if k = .read ∧ s.readsPending sp off then .error (.trap (pendingTrap a))
        else .ok (sp, off)

/-- Whether an address lies in the argument block (R11). -/
def inArgs (a : Nat) : Bool := decide (0xFF0000000000 ≤ a) && decide (a < 0xFF0000001000)

/-- A control load (R80): bench loads have a bound of 4 ticks, every other load is interlocked
(R44). A load from the argument block made while recording adds an automatic stop (R302) and is
not tainted (R304). -/
def load (i : Instr) (d a : Fin 32) (imm : BitVec 9) (n logn : Nat) (ext : Nat → DWord) (s : State) :
    Out :=
  ctlWord [a] s fun s0 =>
    let (x, s1) := s0.readG a
    let ea := x + imm.signExtend 64 * BitVec.ofNat 64 n
    match ctlAccess i .read ea n s1 with
    | .error r => r
    | .ok (sp, off) =>
      let raw := leNat (s1.readAt sp off n)
      let arg := inArgs ea.toNat && s1.recordingOn.isSome
      let s2 := if arg then s1.recordStop (5 + logn * 16 + ea.toNat % 4096 * 2 ^ 16 + raw * 2 ^ 64) else s1
      if sp = .bench s.core.id.num then .issue (s2.writeG d (ext raw) 4 (!arg))
      else .issue (s2.writeGLocked d (ext raw) (!arg))

/-- Sign extension of an n-byte value. -/
def sext (n : Nat) (v : Nat) : DWord := (BitVec.ofNat (8 * n) v).signExtend 64
/-- Zero extension. -/
def zext (v : Nat) : DWord := BitVec.ofNat 64 v

/-- A home outside the own bench makes a phase irreversible (R376). -/
def State.touch (s : State) (sp : Space) : State :=
  if sp = .bench s.core.id.num then s else s.setIrrev

/-- A control store (R80). -/
def store (i : Instr) (d a : Fin 32) (imm : BitVec 9) (n : Nat) (s : State) : Out :=
  ctlWord [a, d] s fun s0 =>
    let (x, s1) := s0.readG a
    let (v, s2) := s1.readG d
    match ctlAccess i .write (x + imm.signExtend 64 * BitVec.ofNat 64 n) n s2 with
    | .error r => r
    | .ok (sp, off) => .issue ((s2.writeAt sp off (leBytes n v.toNat)).touch sp)

/-- LDB (R80). -/
def execLdb (d a : Fin 32) (cls : Fin 16) (imm : BitVec 9) (s : State) : Out :=
  load (.ldb d a cls imm) d a imm 1 0 (sext 1) s
/-- LDBU (R80). -/
def execLdbu (d a : Fin 32) (cls : Fin 16) (imm : BitVec 9) (s : State) : Out :=
  load (.ldbu d a cls imm) d a imm 1 0 zext s
/-- LDH (R80). -/
def execLdh (d a : Fin 32) (cls : Fin 16) (imm : BitVec 9) (s : State) : Out :=
  load (.ldh d a cls imm) d a imm 2 1 (sext 2) s
/-- LDHU (R80). -/
def execLdhu (d a : Fin 32) (cls : Fin 16) (imm : BitVec 9) (s : State) : Out :=
  load (.ldhu d a cls imm) d a imm 2 1 zext s
/-- LDW (R80). -/
def execLdw (d a : Fin 32) (cls : Fin 16) (imm : BitVec 9) (s : State) : Out :=
  load (.ldw d a cls imm) d a imm 4 2 (sext 4) s
/-- LDWU (R80). -/
def execLdwu (d a : Fin 32) (cls : Fin 16) (imm : BitVec 9) (s : State) : Out :=
  load (.ldwu d a cls imm) d a imm 4 2 zext s
/-- LDD (R80). -/
def execLdd (d a : Fin 32) (cls : Fin 16) (imm : BitVec 9) (s : State) : Out :=
  load (.ldd d a cls imm) d a imm 8 3 zext s
/-- STB (R80). -/
def execStb (d a : Fin 32) (cls : Fin 16) (imm : BitVec 9) (s : State) : Out :=
  store (.stb d a cls imm) d a imm 1 s
/-- STH (R80). -/
def execSth (d a : Fin 32) (cls : Fin 16) (imm : BitVec 9) (s : State) : Out :=
  store (.sth d a cls imm) d a imm 2 s
/-- STW (R80). -/
def execStw (d a : Fin 32) (cls : Fin 16) (imm : BitVec 9) (s : State) : Out :=
  store (.stw d a cls imm) d a imm 4 s
/-- STD (R80). -/
def execStd (d a : Fin 32) (cls : Fin 16) (imm : BitVec 9) (s : State) : Out :=
  store (.std d a cls imm) d a imm 8 s

/-- LDL (R46, R83, R392): bound 3, never tainted; an uncorrectable error in the system store is a double
fault (R35, R379). -/
def execLdl (d : Fin 32) (imm : BitVec 18) (s : State) : Out :=
  ctlWord [] s fun s0 =>
    let a := s0.core.nowAddr + imm.signExtend 48 * 4
    if a.toNat % 8 ≠ 0 then .trap (access 0x03 (.ldl d imm) 3 a 0)
    else
      if s0.storeBad a 8 then .raw (storeError s0)
      else match s0.core.literal a with
      | none => .trap (access 0x04 (.ldl d imm) 3 a 0)
      | some v => .issue (s0.writeG d v 3 false)

/-- LPOOL (R41, R83): issues as a NOP; the PC queue's step passes the pool. -/
def execLpool (_imm : BitVec 18) (s : State) : Out := ctlWord [] s fun s0 => .issue s0

/-- The new value of an atomic, or none where a CAS does not match (R84). -/
def atomNew (n : Nat) (fn : AtomFn) (old v cmp : Nat) : Option Nat :=
  let m := 2 ^ (8 * n)
  let sg (x : Nat) : Int := (BitVec.ofNat (8 * n) x).toInt
  match fn with
  | .add => some ((old + v) % m)
  | .swap => some v
  | .cas => if old = cmp then some v else none
  | .and => some (old &&& v)
  | .or => some (old ||| v)
  | .xor => some (old ^^^ v)
  | .min => some (if sg old ≤ sg v then old else v)
  | .max => some (if sg old ≤ sg v then v else old)
  | .minu => some (if old ≤ v then old else v)
  | .maxu => some (if old ≤ v then v else old)

/-- An atomic (R84, R85): one indivisible step at the element's home. -/
def atomic (i : Instr) (n : Nat) (fn : AtomFn) (d a b : Fin 32) (s : State) : Out :=
  ctlWord ([a, b] ++ (if fn = .cas then [d] else [])) s fun s0 =>
    let (x, s1) := s0.readG a
    let (vb, s2) := s1.readG b
    let (vd, s3) := s2.readG d
    match ctlAccess i .atomic x n s3 with
    | .error r => r
    | .ok (sp, off) =>
      let old := leNat (s3.readAt sp off n)
      let m := 2 ^ (8 * n)
      let s4 := match atomNew n fn old (vb.toNat % m) (vd.toNat % m) with
        | some w => s3.writeAt sp off (leBytes n w)
        | none => s3
      .issue ((s4.touch sp).writeGLocked d (sext n old) true)

/-- AMOW (R84). -/
def execAmow (d a b : Fin 32) (fn : AtomFn) (ord : AtomOrd) (scope : Scope) (s : State) : Out :=
  atomic (.amow d a b fn ord scope) 4 fn d a b s
/-- AMOD (R84). -/
def execAmod (d a b : Fin 32) (fn : AtomFn) (ord : AtomOrd) (scope : Scope) (s : State) : Out :=
  atomic (.amod d a b fn ord scope) 8 fn d a b s

/-- FENCE (R51): accesses perform in program order in this model (log 2), so it only issues. -/
def execFence (_scope : Scope) (_kind : FenceKind) (_mask : BitVec 16) (s : State) : Out :=
  ctlWord [] s fun s0 => .issue s0

end Sys2Proof.Machine
end

