-- ==== Sys2Proof/Machine/Hash.lean ====
section
/-! DEFINITION. The digest and the check codes the spec names: SHA-256 (R305, R389, R390), CRC-32
and CRC-16 (R246 to R249, R387), computed as their published standards say (log 11). -/

namespace Sys2Proof.Machine

/-- The round constants, first half. -/
def shaK1 : List Word :=
  [0x428A2F98, 0x71374491, 0xB5C0FBCF, 0xE9B5DBA5, 0x3956C25B, 0x59F111F1,
   0x923F82A4, 0xAB1C5ED5, 0xD807AA98, 0x12835B01, 0x243185BE, 0x550C7DC3,
   0x72BE5D74, 0x80DEB1FE, 0x9BDC06A7, 0xC19BF174, 0xE49B69C1, 0xEFBE4786,
   0x0FC19DC6, 0x240CA1CC, 0x2DE92C6F, 0x4A7484AA, 0x5CB0A9DC, 0x76F988DA,
   0x983E5152, 0xA831C66D, 0xB00327C8, 0xBF597FC7, 0xC6E00BF3, 0xD5A79147,
   0x06CA6351, 0x14292967]
/-- The round constants, second half. -/
def shaK2 : List Word :=
  [0x27B70A85, 0x2E1B2138, 0x4D2C6DFC, 0x53380D13, 0x650A7354, 0x766A0ABB,
   0x81C2C92E, 0x92722C85, 0xA2BFE8A1, 0xA81A664B, 0xC24B8B70, 0xC76C51A3,
   0xD192E819, 0xD6990624, 0xF40E3585, 0x106AA070, 0x19A4C116, 0x1E376C08,
   0x2748774C, 0x34B0BCB5, 0x391C0CB3, 0x4ED8AA4A, 0x5B9CCA4F, 0x682E6FF3,
   0x748F82EE, 0x78A5636F, 0x84C87814, 0x8CC70208, 0x90BEFFFA, 0xA4506CEB,
   0xBEF9A3F7, 0xC67178F2]
/-- The initial chaining value. -/
def shaH : List Word :=
  [0x6A09E667, 0xBB67AE85, 0x3C6EF372, 0xA54FF53A, 0x510E527F, 0x9B05688C,
   0x1F83D9AB, 0x5BE0CD19]

/-- Big-endian 32-bit words of bytes, four at a time. -/
def beWords : List Byte → List Word
  | a :: b :: c :: d :: t =>
    BitVec.ofNat 32 (a.toNat * 2 ^ 24 + b.toNat * 2 ^ 16 + c.toNat * 2 ^ 8 + d.toNat) :: beWords t
  | _ => []

/-- The padded message: a one bit, zeros, the length in bits as 8 big-endian bytes. -/
def shaPad (m : List Byte) : List Byte :=
  m ++ [0x80] ++ List.replicate ((119 - m.length % 64) % 64) 0 ++ (leBytes 8 (8 * m.length)).reverse

/-- One more word of the message schedule, the newest first. -/
def shaNext (w : List Word) : Word :=
  let g (i : Nat) : Word := w.getD i 0
  let s0 (x : Word) : Word := x.rotateRight 7 ^^^ x.rotateRight 18 ^^^ (x >>> 3)
  let s1 (x : Word) : Word := x.rotateRight 17 ^^^ x.rotateRight 19 ^^^ (x >>> 10)
  s1 (g 1) + g 6 + s0 (g 14) + g 15

/-- The schedule of a block, the newest word first. -/
def shaSched : Nat → List Word → List Word
  | 0, w => w
  | n + 1, w => shaSched n (shaNext w :: w)

/-- The working variables of a round. -/
structure ShaRegs where
  a : Word
  b : Word
  c : Word
  d : Word
  e : Word
  f : Word
  g : Word
  h : Word

/-- One round. -/
def shaRound (r : ShaRegs) (kw : Word × Word) : ShaRegs :=
  let t1 := r.h + (r.e.rotateRight 6 ^^^ r.e.rotateRight 11 ^^^ r.e.rotateRight 25)
    + ((r.e &&& r.f) ^^^ (~~~r.e &&& r.g)) + kw.1 + kw.2
  let t2 := (r.a.rotateRight 2 ^^^ r.a.rotateRight 13 ^^^ r.a.rotateRight 22)
    + ((r.a &&& r.b) ^^^ (r.a &&& r.c) ^^^ (r.b &&& r.c))
  ⟨t1 + t2, r.a, r.b, r.c, r.d + t1, r.e, r.f, r.g⟩

/-- One block. -/
def shaBlock (h : List Word) (b : List Word) : List Word :=
  let w := (shaSched 48 b.reverse).reverse
  let g (i : Nat) : Word := h.getD i 0
  let r := ((shaK1 ++ shaK2).zip w).foldl shaRound
    ⟨g 0, g 1, g 2, g 3, g 4, g 5, g 6, g 7⟩
  [g 0 + r.a, g 1 + r.b, g 2 + r.c, g 3 + r.d, g 4 + r.e, g 5 + r.f, g 6 + r.g, g 7 + r.h]

/-- Every block of 16 words. -/
def shaBlocks : Nat → List Word → List Word → List Word
  | 0, _, h => h
  | n + 1, w, h => shaBlocks n (w.drop 16) (shaBlock h (w.take 16))

/-- SHA-256 of a message: 32 bytes. -/
def sha256 (m : List Byte) : List Byte :=
  let w := beWords (shaPad m)
  (shaBlocks (w.length / 16) w shaH).flatMap fun x => (leBytes 4 x.toNat).reverse

/-- One bit of a reflected CRC. -/
def crcBit (n : Nat) (poly : BitVec n) (c : BitVec n) : BitVec n :=
  if c.getLsbD 0 then (c >>> 1) ^^^ poly else c >>> 1

/-- CRC-32, reflected, polynomial 0x04C1_1DB7, initial value and final XOR all ones. -/
def crc32 (bs : List Byte) : Word :=
  ~~~(bs.foldl (fun c b =>
    (List.range 8).foldl (fun c _ => crcBit 32 0xEDB88320 c) (c ^^^ b.zeroExtend 32)) 0xFFFFFFFF)

/-- CRC-16 with polynomial 0x1021, most significant bit first, initial value all ones. -/
def crc16 (bs : List Byte) : BitVec 16 :=
  bs.foldl (fun c b =>
    (List.range 8).foldl (fun c _ => if c.getLsbD 15 then (c <<< (1 : Nat)) ^^^ 0x1021 else c <<< (1 : Nat))
      (c ^^^ ((b.zeroExtend 16 : BitVec 16) <<< (8 : Nat)))) 0xFFFF

end Sys2Proof.Machine
end

