-- ==== Sys2Proof/Machine/Jig.lean ====
section
/-! DEFINITION. The jig (R99 to R101, R115, R299 to R309): recording words, the key, stops, and the
replay of entries. -/

namespace Sys2Proof.Machine

/-- A loaded slot, if the slot holds one. -/
def State.slot (s : State) (k : Nat) : Option Slot :=
  (s.sys.slots.find? fun e => e.1.val == k).map (·.2)

/-- The die set of a gang's cores as bits (R264). -/
def dieBits (cores : List (Fin 128)) : Nat :=
  (List.range 4).foldl (fun a d => if cores.any (fun c => c.val / 32 == d) then a + 2 ^ d else a) 0
/-- The index set as bits (R264). -/
def indexBits (cores : List (Fin 128)) : Nat :=
  (List.range 32).foldl (fun a i => if cores.any (fun c => c.val % 32 == i) then a + 2 ^ i else a) 0

/-- The epilogue images of a slot as 256 bytes (R30, R305). -/
def epiBytes (img : Option SlotImage) : List Byte :=
  (List.range 8).flatMap fun i => (List.range 16).flatMap fun j =>
    leBytes 2 (match img with
      | some x => ((x.epi.getD i []).getD j 0).toNat
      | none => 0)

/-- The 288 bytes whose digest is a jig's key (R305). -/
def keyRecord (s : State) : List Byte :=
  let c := s.core
  let t := s.taskOf c
  let slot := match t with
    | some t => t.f.slot.toNat
    | none => 0
  let gen := match t with
    | some t => t.gen
    | none => 0
  let cores := match t with
    | some t => t.cores
    | none => []
  let img := t.bind (·.img)
  leBytes 4 slot ++ leBytes 4 gen ++ leBytes 8 s.sys.tenants[c.ctl.regs.tenant].wingen
    ++ leBytes 4 (dieBits cores) ++ leBytes 4 (indexBits cores) ++ leBytes 4 c.ctl.regs.grank.toNat
    ++ leBytes 4 1 ++ epiBytes img

/-- A jig's key (R305): bytes 0 to 7 of the digest, little-endian. -/
def jigKey (s : State) : DWord := BitVec.ofNat 64 (leNat ((sha256 (keyRecord s)).take 8))

/-- Change a jig. -/
def State.modJig (s : State) (j : Fin 4) (f : Jig → Jig) : State :=
  s.upd fun c => { c with jig := { c.jig with
    jig := c.jig.jig.set j.val (f c.jig.jig[j]) j.isLt } }

/-- Whether a recording is in progress (R101), in either bank: once the store has run out, recording has
stopped. -/
def State.isRecording (s : State) : Bool := s.core.jig.recording.any fun r => !r.full

/-- JIG.REC (R99, R101, R305). -/
def execJigRec (j : Fin 4) (s : State) : Out :=
  ctlNoHook (.jigRec j) [] s fun s0 =>
    if s0.isRecording then .trap { cause := 0x14, info := 1, addr := s0.core.nowAddr }
    else
      let k := jigKey s0
      let s1 := s0.modJig j fun _ => { state := .recording, entries := [], key := k }
      .issue (s1.upd fun c => { c with jig := { c.jig with
        recording := some { jig := j, since := c.gtick } } })

/-- The status of JIG.END (R100): the first cause to arise decides between 1 and 2. -/
def jigStatus : Option Recording → Nat
  | none => 3
  | some r => if r.unrep then 1 else if r.full then 2 else 0

/-- JIG.END (R99, R100). -/
def execJigEnd (d : Fin 32) (s : State) : Out :=
  ctlNoHook (.jigEnd d) [] s fun s0 =>
    let st := jigStatus s0.core.jig.recording
    let s1 := match s0.core.jig.recording with
      | none => s0
      | some r => (s0.modJig r.jig fun x => { x with
          state := if st = 0 then .valid else .invalid }).upd fun c =>
            { c with jig := { c.jig with recording := none } }
    .issue (s1.writeGLocked d (BitVec.ofNat 64 st) false)

/-- JIG.DROP (R99): a recording into the jig ends. -/
def execJigDrop (j : Fin 4) (s : State) : Out :=
  ctlNoHook (.jigDrop j) [] s fun s0 =>
    let s1 := s0.modJig j fun _ => {}
    .issue (s1.upd fun c => { c with jig := { c.jig with
      recording := match c.jig.recording with
        | some r => if r.jig = j then none else some r
        | none => none } })

/-- JIG.STOP (R99, R101, R302). -/
def execJigStop (a b : Fin 32) (s : State) : Out :=
  ctlNoHook (.jigStop a b) [a, b] s fun s0 =>
    let (x, s1) := s0.readG a
    let (y, s2) := s1.readG b
    if !s2.isRecording then .issue s2
    else if x.toNat % 8 ≠ 0 then .trap (access 0x03 (.jigStop a b) 0 (x.truncate 48) 0)
    else .issue (s2.recordStop (4 + x.toNat % 2 ^ 48 * 2 ^ 16 + y.toNat * 2 ^ 64))

/-- The address that a stop reads (R303). -/
def stopAddr (e : BitVec 128) : Nat := if entKind e = 4 then entBits e 16 48 else 0xFF0000000000 + entBits e 16 12

/-- The bytes that a stop reads (R303). -/
def stopSize (e : BitVec 128) : Nat := if entKind e = 4 then 8 else 2 ^ entBits e 4 2

/-- Whether a stop holds (R303): a read that faults does not hold. -/
def stopHolds (s : State) (e : BitVec 128) : Bool :=
  match locate s .control .read (stopAddr e) with
  | .ok (sp, off) => leNat (s.readAt sp off (stopSize e)) == entBits e 64 64
  | .error _ => false

/-- The error of a stop's read that meets an uncorrectable error, as a control load's does (R303, R379). -/
def stopError (s : State) (e : BitVec 128) : Option TrapRec :=
  match locate s .control .read (stopAddr e) with
  | .ok (sp, off) =>
    if s.badAt sp off (stopSize e) then some { cause := 0x13, info := BitVec.ofNat 64 sp.whereNum
                                               addr := BitVec.ofNat 48 (stopAddr e) }
    else none
  | .error _ => none

/-- Whether JIG.PLAY reads a jig's entries (R306). -/
def jigOwn (s : State) (j : Fin 4) : Bool :=
  let x := s.core.jig.jig[j]
  decide (x.state = .valid) && decide (x.key = jigKey s)

/-- Whether a jig's entries hold an uncorrectable error (R306). -/
def jigBad (s : State) (j : Fin 4) : Bool :=
  s.badAt (.jig s.core.id.num) (jigPlace j 0) s.core.jig.jig[j].entries.length

/-- The first uncorrectable error that JIG.PLAY's reads for the stops of a jig meet (R303, R379). -/
def jigStopError (s : State) (j : Fin 4) : Option TrapRec :=
  if jigOwn s j then (s.core.jig.jig[j].entries.filter isStop).findSome? (stopError s) else none

/-- Cause 0x08 of the first of those reads that meets a pending line, as a control load's does (R303, R373). -/
def jigStopPending (s : State) (j : Fin 4) : Option TrapRec :=
  if jigOwn s j then (s.core.jig.jig[j].entries.filter isStop).findSome? fun e =>
    match locate s .control .read (stopAddr e) with
    | .ok (sp, off) => if s.readsPending sp off then some (pendingTrap (stopAddr e)) else none
    | .error _ => none
  else none

/-- Whether JIG.PLAY accepts a jig (R306). -/
def jigOk (s : State) (j : Fin 4) : Bool :=
  jigOwn s j && (s.core.jig.jig[j].entries.filter isStop).all (stopHolds s)

/-- The saved replay that a JIG.PLAY goes on with (R99, R307): its own, stopped by a trap. -/
def State.savedPlay (s : State) (a : VAddr) (d : Fin 32) (j : Fin 4) : Option Replay :=
  s.core.jig.play.filter fun p =>
    !p.live && decide (p.addr = a) && decide (p.jig = j) && decide (p.d = d)

/-- JIG.PLAY (R99, R101, R306, R307): a saved replay goes on from its cursor; otherwise the checks,
and if they hold the replay starts. There is one cursor: a replay that a handler starts takes the place of one that
its trap has stopped (log 84). -/
def execJigPlay (d : Fin 32) (j : Fin 4) (s : State) : Out :=
  ctlNoHook (.jigPlay d j) [] s fun s0 =>
    let a := s0.core.ctl.pcq.q0.addr
    let start (s : State) : Res :=
      let p : Replay := { jig := j, addr := a, d := d, next := 0, since := s.core.gtick }
      .raw (((s.setIrrev).upd fun c => { c with jig := { c.jig with play := some p } }).upd Core.tickOn)
    if s0.isRecording then .trap { cause := 0x14, info := 2, addr := a }
    else
      match s0.savedPlay a d j with
      | some p =>
          .raw ((s0.upd fun c => { c with jig := { c.jig with
            play := some { p with live := true } } }).upd Core.tickOn)
      | none =>
        if jigOwn s0 j && jigBad s0 j then
          .issue ((((s0.modJig j fun _ => {}).logError 3 0 0 0 0).setIrrev).writeGLocked d 0 false)
        else match jigStopError s0 j with
        | some t => .stuck (silentError t s0)
        | none => match jigStopPending s0 j with
        | some t => .trap t
        | none =>
          if jigOk s0 j then start s0 else .issue (s0.setIrrev.writeGLocked d 0 false)

/-- A replay's entry has issued: the next one counts from this gang tick (R263). -/
def passEntry (s : State) : State :=
  (s.advance.upd fun c => { c.tickOn with stall := { c.tickOn.stall with progress := c.tick + 1 } }).pass

/-- The word of a SYNC entry performs (R301). -/
def playSync (w : Nat) (s : State) : Out :=
  match decode w none with
  | .ok (.bar id) => execBar id s
  | .ok (.plumb m) => execPlumb m s
  | .ok (.sigev e) => execSigev e s
  | .ok (.waitev e) => execWaitev e s
  | .ok (.phsw p) => execPhsw p s
  | _ => .next (takeTrap { cause := 0x14, info := 4, addr := s.core.nowAddr } s).pass

/-- A replayed entry acts (R301, R307). -/
def playEntry (e : BitVec 128) (s : State) : Out :=
  let a := s.core.nowAddr
  match entKind e with
  | 1 =>
    let w := BitVec.ofNat 32 (entBits e 32 32)
    let cont := if entBits e 20 1 = 1 then some (BitVec.ofNat 32 (entBits e 64 32)) else none
    (match engineOf (w.toNat / 2 ^ 29) with
    | none => .next (takeTrap { cause := 0x14, info := 4, addr := a } s).pass
    | some g => match s.push g w cont none a with
      | none => .next s.ticked
      | some s1 => .next (passEntry s1))
  | 2 => .next (passEntry (s.writeSR (entBits e 20 12) (BitVec.ofNat 64 (entBits e 64 64))))
  | 3 =>
    let k : Fin 16 := ⟨entBits e 32 4, Nat.mod_lt _ (by decide)⟩
    .next (passEntry (s.writeSR (entBits e 20 12)
      (s.core.ctl.regs.rel[k] + BitVec.ofNat 64 (entBits e 64 64))))
  | 6 => playSync (entBits e 32 32) s
  | 7 =>
    if 16 ≤ s.core.q.xq.length then .next s.ticked
    else .next (passEntry (s.pushXq (BitVec.ofNat 64 (entBits e 64 64))))
  | 8 => .next (passEntry s)
  | _ => .next (takeTrap { cause := 0x14, info := 4, addr := a } s).pass

/-- The replay ends: JIG.PLAY writes its result and is passed (R99, R306). -/
def endPlay (p : Replay) (v : DWord) (s : State) : State :=
  ctlDone ((s.upd fun c => { c with jig := { c.jig with play := none } }).writeGLocked p.d v false)

/-- The entry at the cursor holds an uncorrectable error, a lasting one (R306, R307, R380): before the first issue
JIG.PLAY refuses and empties the jig, later it traps. -/
def entryBad (p : Replay) (first : Bool) (s : State) : State :=
  if first then endPlay p 0 ((s.modJig p.jig fun _ => {}).logError 3 0 0 0 0)
  else (takeTrap { cause := 0x14, info := 3, addr := s.core.nowAddr } (s.logError 3 0x14 0 0 3)).pass

/-- JIG_ENTRY_ISSUE (R263, R301, R306, R307): the entry at the cursor issues once its DELTA has
passed; after the last entry JIG.PLAY writes 1 and is passed. -/
def execJigEntryIssue (s : State) : Out :=
  match s.core.jig.play with
  | none => .next s.pass
  | some p =>
    if !p.live then .next s.pass
    else
      let es := s.core.jig.jig[p.jig].entries
      let (k, e) := nextEntry es p.next
      let s1 := s.upd fun c => { c with jig := { c.jig with play := some { p with next := k } } }
      match e with
      | none => .next (endPlay p 1 s)
      | some e =>
        if s1.core.gtick < p.since + entBits e 4 16 then .next s1.ticked
        else if s1.badAt (.jig s1.core.id.num) (jigPlace p.jig k) 1 then
          .next (entryBad p ((es.take k).all isStop) s1)
        else playEntry e s1

end Sys2Proof.Machine
end

