-- ==== Sys2Proof/Machine/StreamEng.lean ====
section
/-! DEFINITION. Weight streams: the image and its checks (R245 to R251), SDOPEN, SDRUN, SDCLOSE and
SDSTAT (R210 to R214, R259), and the events of an open stream: retirement of SDOPEN, beats, removals,
refetches and pushes (R242, R244, R252 to R257). -/

namespace Sys2Proof.Machine

/-- A little-endian field of bytes. -/
def leAt (bs : List Byte) (o n : Nat) : Nat := leNat ((bs.drop o).take n)

/-! ### The header and the removal table (R246 to R248) -/

/-- Element format, rate exponent, buffer, delay and block count of a header. -/
def hdrFmt (h : List Byte) : BitVec 4 := BitVec.ofNat 4 (leAt h 4 1)
/-- R of a header (R246). -/
def hdrRate (h : List Byte) : Nat := 2 ^ (leAt h 5 1 % 16)
/-- B of a header. -/
def hdrBuf (h : List Byte) : Nat := leAt h 8 4
/-- D of a header. -/
def hdrDelay (h : List Byte) : Nat := leAt h 12 4
/-- N of a header. -/
def hdrBlocks (h : List Byte) : Nat := leAt h 16 2

/-- Whether a header is well formed (R246). -/
def hdrOk (h : List Byte) : Bool :=
  decide (leAt h 0 4 = 0x57545331) && (decide (leAt h 4 1 = 1) || decide (leAt h 4 1 = 2))
    && decide (leAt h 5 1 ≤ 8) && decide (leAt h 6 2 = 0)
    && decide (hdrBuf h % 64 = 0) && decide (64 ≤ hdrBuf h) && decide (hdrBuf h ≤ 1048576)
    && decide (1 ≤ hdrDelay h) && decide (1 ≤ hdrBlocks h) && decide (hdrBlocks h ≤ 4096)
    && decide (leAt h 18 2 = 0) && ((h.drop 24).take 36).all (· == 0)
    && decide (leAt h 60 4 = (crc32 (h.take 60)).toNat)

/-- The entries of a removal table (R248). -/
def rmEntries : Nat → List Byte → List RmEntry
  | 0, _ => []
  | n + 1, bs => ⟨leAt bs 0 4, leAt bs 4 2, leAt bs 6 2⟩ :: rmEntries n (bs.drop 8)

/-- Whether a size is allowed for a format (R248). -/
def rmSizeOk (f : BitVec 4) (s : Nat) : Bool :=
  decide (s % 64 = 0) && decide (192 ≤ s) && decide (s ≤ if f = 1 then 1216 else 2240)

/-- The first entry from i on that fails R248; `prev` is the removal tick before it. -/
def rmBad (f : BitVec 4) : Nat → Nat → List RmEntry → Option Nat
  | _, _, [] => none
  | i, prev, e :: t =>
    if !rmSizeOk f e.s || decide (e.t ≤ prev) || decide (e.rd = 0) then some i else rmBad f (i + 1) e.t t

/-- The first entry of a table that fails R248. -/
def tableBad (f : BitVec 4) (d : Nat) : List RmEntry → Option Nat
  | [] => none
  | e :: t =>
    if !rmSizeOk f e.s || decide (e.t ≠ d) || decide (e.rd ≠ 0) then some 0 else rmBad f 1 e.t t

/-- Address of block 0 (R245). -/
def blocksAt (h n : Nat) : Nat := h + 64 * ((64 + 8 * n + 63) / 64)

/-- Sum of the sizes of blocks. -/
def sizes (t : List RmEntry) : Nat := (t.map (·.s)).sum

/-! ### The contract (R242, R251) -/

/-- The stream tick at which beat k arrives (R242). -/
def beatTick (r k : Nat) : Nat := (64 * k + r - 1) / r

/-- Beats that have fallen due by a stream tick, of those that carry l bytes (R242). -/
def beatsBy (r l t : Nat) : Nat := min (r * t / 64) (l / 64)

/-- The contract over blocks given by index, removal tick and size, with `gone` the bytes of blocks
removed before: the first failure as KIND, BLOCK and TICK (R251). An overflow falls at the first
beat that passes B, an underrun at the removal. -/
def contractFail (r b l : Nat) : Nat → List (Nat × Nat × Nat) → Option (Nat × Nat × Nat)
  | _, [] => none
  | gone, (i, t, s) :: rest =>
    let past := (b + gone) / 64 + 1
    if past ≤ beatsBy r l t then some (2, i, beatTick r past)
    else if 64 * beatsBy r l t < gone + s then some (1, i, t)
    else contractFail r b l (gone + s) rest

/-- EINFO of cause 0x0D (R243). -/
def contractInfo (x : Nat × Nat × Nat) : DWord :=
  BitVec.ofNat 64 (x.2.1 % 2 ^ 12 + x.1 * 2 ^ 12 + x.2.2 % 2 ^ 32 * 2 ^ 16)

/-- The blocks of a table with index, removal tick and size, from index i on. -/
def blockList : Nat → List RmEntry → List (Nat × Nat × Nat)
  | _, [] => []
  | i, e :: t => (i, e.t, e.s) :: blockList (i + 1) t

/-! ### Windows of a stage (R245) -/

/-- A stage whose translation fails: cause and lowest failing address. -/
def stageFail (l : Loc) (rs : List (Nat × Nat)) : Option (Nat × Nat) :=
  let fs := failures l 0 rs
  match fs.foldl (fun m f => if m.any (fun (x : Nat × Nat) => decide (x.2 ≤ f.2.1)) then m
      else some (f.1, f.2.1)) (none : Option (Nat × Nat)) with
  | some x => some x
  | none => none

/-- Whether an address reaches the stacks of a die (R245, R363). -/
def ownStacks (l : Loc) (die : Fin 4) (a : Nat) : Bool :=
  match l a with
  | .ok (.hbm, pa) => decide (pa / 2 ^ 36 / 2 = die.val)
  | _ => false

/-- The first byte of a range that is not in the die's own stacks, by the pieces a window
covers whole. -/
def foreign (l : Loc) (die : Fin 4) (r : Nat × Nat) : Option Nat :=
  (pieces block r.1 r.2).findSome? fun p => if ownStacks l die p.1 then none else some p.1

/-! ### Reading the image -/

/-- Bytes that a stream read of n bytes brings: those at the home, or, where they hold an
uncorrectable error, bytes that nothing constrains (R379, R256). -/
def streamRead (s : State) (l : Loc) (a n : Nat) : List Byte × State :=
  if (firstBad s l [(a, n)]).isSome then
    let (k, s1) := s.pick (256 ^ n)
    (leBytes n k, s1)
  else (readRange s l a n, s)

/-- How SDOPEN's reads and checks end: an access refused, HBM that does not exist, a contract
rejected, or the header and the table. -/
inductive OpenEnd where
  | access (cause a : Nat)
  | gone (pa : Nat)
  | reject (x : Nat × Nat × Nat)
  | good (hdr tab : List Byte)

/-- The checks of R251 for an image at h: the ranges read or checked, how they end, and the state
after the reads. -/
def openChecks (s : State) (l : Loc) (h : Nat) : List (Nat × Nat) × OpenEnd × State :=
  let die := s.core.id.die
  let r1 := [(h, 64)]
  match stageFail l r1 with
  | some (c, a) => ([], .access c a, s)
  | none =>
  match goneAt l r1 with
  | some pa => ([], .gone pa, s)
  | none =>
  if (foreign l die (h, 64)).isSome then (r1, .reject (0, 0, 0), s)
  else
  let (hdr, s) := streamRead s l h 64
  if !hdrOk hdr then (r1, .reject (0, 0, 0), s)
  else
  let n := hdrBlocks hdr
  let r2 := (h + 64, 8 * n)
  match stageFail l [r2] with
  | some (c, a) => (r1, .access c a, s)
  | none =>
  match goneAt l [r2] with
  | some pa => (r1, .gone pa, s)
  | none =>
  if (foreign l die r2).isSome then (r1 ++ [r2], .reject (0, 0, 0), s)
  else
  let (tab, s) := streamRead s l (h + 64) (8 * n)
  let es := rmEntries n tab
  if leAt hdr 20 4 ≠ (crc32 tab).toNat then (r1 ++ [r2], .reject (0, 0, 0), s)
  else
  match tableBad (hdrFmt hdr) (hdrDelay hdr) es with
  | some i => (r1 ++ [r2], .reject (0, i, 0), s)
  | none =>
  let b0 := blocksAt h n
  let r3 := (b0, sizes es)
  match stageFail l [r3] with
  | some (c, a) => (r1 ++ [r2], .access c a, s)
  | none =>
  match goneAt l [r3] with
  | some pa => (r1 ++ [r2], .gone pa, s)
  | none =>
  let all := r1 ++ [r2, r3]
  match foreign l die r3 with
  | some a =>
    let off := (a + 2 ^ 48 - b0 % 2 ^ 48) % 2 ^ 48
    (all, .reject (0, ((List.range n).find? fun i =>
      decide (off < sizes (es.take (i + 1)))).getD 0, 0), s)
  | none =>
  match contractFail (hdrRate hdr) (hdrBuf hdr) (sizes es) 0 (blockList 0 es) with
  | some x => (all, .reject x, s)
  | none => (all, .good hdr tab, s)

/-! ### The words -/

/-- No tokens: stream words carry none (R68). -/
def noTok : Tok := ⟨false, false, false, false⟩

/-- SDOPEN (R211, R251): after its checks it stands at the head until its retirement tick. -/
def execSdopen (st : Fin 16) (s : State) : Out :=
  let i : Instr := .sdopen st
  engWord .stream noTok i s fun x s0 =>
    if x.started then .wait
    else
      let h := s0.core.rowAddr x.snap.st[st] 0
      orElse (hookTrap i .stream s0) <|
      orElse (illegalIf s0.core.sd.isSome i .stream 0x03 x s0) <|
      if h % 64 ≠ 0 then .trap (access 0x03 i 0 (BitVec.ofNat 48 h) 5) s0
      else
        let (rs, fin, s1) := openChecks s0 (locOf s0 x.snap .stream .read) h
        match fin with
        | .access c a => .trap (access c i 0 (BitVec.ofNat 48 a) 5) s1
        | .gone pa => .fault (.noSuchHbm pa)
        | .reject r =>
          orElse (watchFail i .stream x (wpRange x.snap 0 (wpBit .stream) rs) s1)
            (.trap { cause := 0x0D, info := contractInfo r, addr := BitVec.ofNat 48 h } s1)
        | .good hdr tab =>
          orElse (watchFail i .stream x (wpRange x.snap 0 (wpBit .stream) rs) s1)
            (.part s1 { x with
              wpskip := false
              due := s1.core.gtick + 64 + hdrBlocks hdr
              rows := [(h, hdr), (h + 64, tab)] })

/-- The stream that a retiring SDOPEN opens (R211): stream time starts at its retirement tick, which slips
with a stall for late reads (`due` moves on as the late beat comes). -/
def streamOf (x : Entry) : Option Stream :=
  match x.rows with
  | [(h, hdr), (_, tab)] => some {
      header := BitVec.ofNat 48 h, fmt := hdrFmt hdr, rate := hdrRate hdr, bufB := hdrBuf hdr
      delay := hdrDelay hdr, table := rmEntries (hdrBlocks hdr) tab, g0 := x.due }
  | _ => none

/-- Whether an SDOPEN has reached its retirement tick (R211). -/
def Core.openDue (c : Core) : Bool :=
  match c.stream.queue with
  | .word x :: _ => x.started && decide (x.due ≤ c.gtick) && !c.stream.late && !c.ctl.bank1
  | _ => false

/-- SDOPEN_RETIRE (R211). -/
def execSdopenRetire (s : State) : Out :=
  if s.core.openDue then
    match s.core.stream.queue with
    | .word x :: t => .next (s.upd fun c => { c with
        sd := (streamOf x).or c.sd
        stream := { c.stream with queue := t }
        stall := { c.stall with progress := c.tick } }).pass
    | _ => .next s.pass
  else .next s.pass

/-- EINFO of the stream cases of cause 0x0E (R212, R255, R297). -/
def slipInfo (i bit : Nat) : DWord := BitVec.ofNat 64 (i % 2 ^ 12 + 2 ^ bit)

/-- SDRUN (R212). -/
def execSdrun (n : BitVec 12) (s : State) : Out :=
  let i : Instr := .sdrun n
  engWord .stream noTok i s fun x s0 =>
    orElse (hookTrap i .stream s0) <|
      match s0.core.sd with
      | none => .trap (illegal i 0x03 x.addr 5) s0
      | some d =>
        orElse (illegalIf (decide (d.table.length < d.granted + n.toNat)) i .stream 0x03 x s0) <|
        if d.g0 + d.tick d.granted < s0.core.gtick then
          .trap { cause := 0x0E, info := slipInfo d.granted 15, addr := x.addr } s0
        else
          .issue (s0.upd fun c => { c with sd := some { d with granted := d.granted + n.toNat } })
            { upto := some (d.granted + n.toNat) }

/-- SDCLOSE (R213). -/
def execSdclose (s : State) : Out :=
  engWord .stream noTok .sdclose s fun _ s0 =>
    if s0.core.stream.issued.any (·.upto.isSome) then .wait
    else .issue (s0.upd fun c => { c with sd := none }) {}

/-- The record of R259. -/
def sdRecord : Option Stream → Record
  | none => 0
  | some d => BitVec.ofNat 64 (1 + d.next * 2 + (d.granted - d.next) * 2 ^ 14 + d.buf.length * 2 ^ 27
      + min d.slip 0xFFFF * 2 ^ 48)

/-- SDSTAT (R214). -/
def execSdstat (s : State) : Out :=
  engWord .stream noTok .sdstat s fun _ s0 =>
    if 16 ≤ s0.core.q.wsq.length then .wait
    else .issue (s0.updQ fun q => { q with wsq := q.wsq ++ [sdRecord s0.core.sd] }) {}

/-! ### Beats (R242, R252) -/

/-- Change the open stream. -/
def State.updSd (s : State) (f : Stream → Stream) : State :=
  s.upd fun c => { c with sd := c.sd.map f }

/-- Stream time (R252). -/
def Stream.now (d : Stream) (c : Core) : Nat := c.gtick - d.g0

/-- Bytes that a stream brings: those of its blocks from the first on. -/
def Stream.left (d : Stream) : Nat := sizes (d.table.drop d.first)

/-- Whether the stream's next beat has fallen due (R242). -/
def Stream.beatDue (d : Stream) (c : Core) : Bool :=
  !d.reopen && decide (d.g0 ≤ c.gtick) && decide (d.beats < beatsBy d.rate d.left (d.now c))

/-- Address of the next beat (R242, R245). -/
def Stream.beatAddr (d : Stream) : Nat :=
  blocksAt d.header.toNat d.table.length + sizes (d.table.take d.first) + 64 * d.beats

/-- Whether the next beat comes before the next removal. -/
def Stream.beatFirst (d : Stream) : Bool :=
  decide (d.table.length ≤ d.next) || decide (beatTick d.rate (d.beats + 1) ≤ d.tick d.next)

/-- A beat that fails its translation or names HBM that does not exist. -/
def beatTrap (c : Nat) (a : Nat) : TrapRec :=
  { cause := BitVec.ofNat 6 c, info := BitVec.ofNat 64 (5 * 2 ^ 8), addr := BitVec.ofNat 48 a
    origin := 5 }

/-- The beat arrives. -/
def beatLands (d : Stream) (s : State) : Out :=
  let l := locOf s s.core.vis .stream .read
  match l (d.beatAddr % 2 ^ 48) with
  | .error (.trap c) => .next (takeTrap (beatTrap c d.beatAddr) s).pass
  | .error (.gone pa) => .fault (.noSuchHbm pa)
  | .ok _ =>
    let (bs, s1) := streamRead s l (d.beatAddr % 2 ^ 48) 64
    .next (s1.updSd fun d => { d with beats := d.beats + 1, buf := d.buf ++ bs, late := false }).pass

/-- Whether an unscheduled delay of the acting core's gang goes on (R149). -/
def State.gangDelayed (s : State) : Bool :=
  (s.core :: s.others.filter (sameGang s.core)).any fun c =>
    c.stall.stopped || c.stall.stopAt.isSome || !c.stall.delays.isEmpty

/-- Whether something holds up the next beat of a stream (R253): an uncorrectable error where it lies, a refetch of
the stream, a stall of the gang. -/
def State.beatHeld (s : State) (d : Stream) : Bool :=
  !d.refetch.isEmpty || s.gangDelayed
    || (firstBad s (locOf s s.core.vis .stream .read) [(d.beatAddr % 2 ^ 48, 64)]).isSome

/-- STREAM_BEAT (R242, R252 to R254): a due beat arrives. One that a memory error has held up is late, an unscheduled
delay; where something else may hold it up, whether its data has come is free. -/
def execStreamBeat (s : State) : Out :=
  match s.core.sd with
  | none => .next s.pass
  | some d =>
    if !d.beatDue s.core || (!d.late && !d.beatFirst && d.removeDue s.core) then .next s.pass
    else if d.late then beatLands d s
    else
      let (k, s1) := s.pick 2
      if d.slow || (s.beatHeld d && decide (k ≠ 0)) then
        .next ((s1.updSd fun d => { d with late := true, slow := false }).beginDelay .beat).pass
      else beatLands d s1

/-! ### Blocks (R249, R250, R256, R257) -/

/-- Payload bytes of a mode (R250). -/
def payloadLen (m : Nat) : Nat := if m ≤ 4 then 4 * m else if m = 5 then 16 else 32

/-- Whether a mode byte may stand in a stream of a format (R250). -/
def modeOk (f : BitVec 4) (m : Nat) : Bool :=
  decide (m ≤ 4) || (decide (m = 5) && decide (f = 1)) || (decide (m = 6) && decide (f = 2))

/-- How the walk over the group records ends: the records as mode, scale and payload with the place
of the payload CRC, a corrupt mode, or a record past the end. -/
inductive Walk where
  | recs (l : List (Nat × Byte × List Byte)) (crcAt : Nat)
  | mode
  | past

/-- Walk n records of a block from an offset, within `lim` bytes (R250). -/
def walk (f : BitVec 4) (lim : Nat) (bs : List Byte) : Nat → Nat → Walk
  | 0, o => if lim < o + 4 then .past else .recs [] o
  | n + 1, o =>
    if lim < o + 1 then .past
    else
      let m := leAt bs o 1
      if !modeOk f m then .mode
      else
        let e := o + 2 + payloadLen m
        if lim < e then .past
        else match walk f lim bs n e with
          | .recs l c => .recs ((m, bs.getD (o + 1) 0, (bs.drop (o + 2)).take (payloadLen m)) :: l) c
          | r => r

/-- Field k of a payload of width m, two's complement (R250). -/
def payField (m : Nat) (p : List Byte) (k : Nat) : Int :=
  (BitVec.ofNat m (leNat p / 2 ^ (m * k))).toInt

/-- The E4 code of an integer from −8 to 8, exact (R250). -/
def e4OfInt (v : Int) : Nat :=
  (match v.natAbs with
  | 0 => 0 | 1 => 0x40 | 2 => 0x48 | 3 => 0x4C | 4 => 0x50 | 5 => 0x52 | 6 => 0x54 | 7 => 0x56
  | _ => 0x58) + (if v < 0 then 0x80 else 0)

/-- Element code k of a record (R250). -/
def recElem (f : BitVec 4) (m : Nat) (p : List Byte) (k : Nat) : Nat :=
  if m = 0 then 0
  else if m ≤ 4 then
    if f = 1 then ((payField m p k) % 16).toNat else e4OfInt (payField m p k)
  else if m = 5 then elemOf 4 p k
  else elemOf 8 p k

/-- Whether a record of a Q4X stream holds −8 under mode 4 (R250). -/
def recEight (f : BitVec 4) (m : Nat) (p : List Byte) : Bool :=
  decide (f = 1) && decide (m = 4) && (List.range 32).any (fun k => decide (payField m p k = -8))

/-- A block's end: decoded, corrupt for a REASON, or a Q4X pair with two markers in a record. -/
inductive BlockEnd where
  | good (b : WBlock)
  | corrupt (reason : Nat)
  | pair (c elem : Nat)

/-- The reasons for which a block is corrupt, with those that the walk gives (R256). -/
def blockReasons (d : Stream) (i : Nat) (bs : List Byte) (w : Walk) : List Nat :=
  let s := (d.table.getD i ⟨0, 0, 0⟩).s
  let r (b : Bool) (n : Nat) : List Nat := if b then [n] else []
  r (decide (leAt bs 6 2 ≠ (crc16 (bs.take 6)).toNat)) 1
  ++ (match w with
    | .recs _ c => r (decide (leAt bs c 4 ≠ (crc32 ((bs.take c).drop 8)).toNat)) 2
    | _ => [])
  ++ r (decide (leAt bs 0 2 ≠ s)) 3
  ++ r (decide (leAt bs 2 2 % 2 ^ 12 ≠ i)) 4
  ++ r (decide (leAt bs 2 2 / 2 ^ 12 ≠ d.fmt.toNat)) 5
  ++ (match w with
    | .mode => [6]
    | .past => [7]
    | .recs l _ => r (l.any fun x => recEight d.fmt x.1 x.2.2) 8)
  ++ r (decide (leAt bs 5 1 ≠ 0)) 9

/-- The first record whose mode-5 payload holds a pair of two markers (R193, R250). -/
def pairFault : Nat → List (Nat × Byte × List Byte) → Option (Nat × Nat)
  | _, [] => none
  | c, (m, _, p) :: t =>
    match (if m = 5 then q4xBad p else none) with
    | some e => some (c, e)
    | none => pairFault (c + 1) t

/-- The column-sum vector of a block (R185, R257): of each row over the columns, with the scales. -/
def blockSums (b : WBlock) : List EVal :=
  let cols := (blockCols b).zip b.x8
  (List.range 32).map fun k => evSum (cols.map fun c => (c.1.getD k (.fin 0 0)).scaled c.2)

/-- The decoded block (R244, R257). -/
def decodeBlock (f : BitVec 4) (scnt : Nat) (l : List (Nat × Byte × List Byte)) : WBlock :=
  let cols := l.map fun x => (List.range 32).map fun k => recElem f x.1 x.2.2 k
  let b : WBlock := {
    fmt := f
    elems := (List.range 32).flatMap fun k => cols.map fun c => BitVec.ofNat 8 (c.getD k 0)
    x8 := l.map (·.2.1)
    scnt := scnt }
  { b with sums := blockSums b }

/-- The checks of a block's bytes (R256). The walk goes no further than LEN and the s_i bytes removed: with
LEN above s_i and records or CRC past s_i, the CRC is not compared (log 77). -/
def checkBlock (d : Stream) (i : Nat) (bs : List Byte) : BlockEnd :=
  let w := walk d.fmt (min (leAt bs 0 2) bs.length) bs 64 8
  match blockReasons d i bs w with
  | n :: _ => .corrupt n
  | [] => match w with
    | .recs l _ => (match pairFault 0 l with
      | some (c, e) => .pair c e
      | none => .good (decodeBlock d.fmt (leAt bs 4 1) l))
    | _ => .corrupt 7

/-- Address of a block's first byte (R245). -/
def Stream.blockAddr (d : Stream) (i : Nat) : Nat :=
  blocksAt d.header.toNat d.table.length + sizes (d.table.take i)

/-- EINFO of causes 0x0B and 0x0C: block, what stands at bit 12, removal tick (R254, R256); on a resumed
stream the tick of its derived contract (log 76). -/
def Stream.blockInfo (d : Stream) (i hi : Nat) : DWord :=
  BitVec.ofNat 64 (i % 2 ^ 12 + hi * 2 ^ 12 + d.tick i % 2 ^ 32 * 2 ^ 16)

/-- A trap about a block (R254, R256, R193): EADDR is the block's first byte. -/
def Stream.blockTrap (d : Stream) (cause i : Nat) (info : DWord) : TrapRec :=
  { cause := BitVec.ofNat 6 cause, info := info, addr := BitVec.ofNat 48 (d.blockAddr i), origin := 5 }

/-- Decoded blocks that wait for their push, in block order. -/
def insertOut (i : Nat) (b : WBlock) : List (Nat × WBlock) → List (Nat × WBlock)
  | [] => [(i, b)]
  | x :: t => if i < x.1 then (i, b) :: x :: t else x :: insertOut i b t

/-- What a block's checks answer at removal (R244, R256): a corrupt block is refetched, an
unscheduled delay. -/
def blockRemoved (d : Stream) (i : Nat) (bs : List Byte) (s : State) : State :=
  match checkBlock d i bs with
  | .good b => s.updSd fun x => { x with out := insertOut i b x.out }
  | .pair c e => takeTrap (d.blockTrap 0x0A i (q4xInfo c e)) s
  | .corrupt _ =>
    let t := s.core.tick + (bs.length + d.rate - 1) / d.rate
    (s.updSd fun x => { x with refetch := x.refetch ++ [(i, t)] }).beginDelay .refetch

/-- A block that is due and not complete (R254). -/
def underrun (d : Stream) (i : Nat) (s : State) : State :=
  if s.core.vis.strict then takeTrap (d.blockTrap 0x0B i (d.blockInfo i 1)) s
  else s.beginDelay .underrun

/-- BLOCK_REMOVAL (R212, R244, R254, R255): the next block, once its tick has come and the beats
before it have arrived or are late. -/
def execBlockRemoval (s : State) : Out :=
  match s.core.sd with
  | none => .next s.pass
  | some d =>
    let i := d.next
    let n := (d.table.getD i ⟨0, 0, 0⟩).s
    if !d.removeDue s.core || s.core.gheld || (d.beatDue s.core && !d.late && d.beatFirst) then
      .next s.pass
    else if d.granted ≤ i then
      .next (takeTrap { cause := 0x0E, info := slipInfo i 15, origin := 5 } s).pass
    else if d.buf.length < n then .next (underrun d i s).pass
    else if 4 ≤ s.core.mx.wfifo.length + d.out.length + d.refetch.length then
      .next (takeTrap { cause := 0x0E, info := slipInfo i 14, origin := 5 } s).pass
    else
      let s1 := s.updSd fun x => { x with next := i + 1, buf := x.buf.drop n }
      .next (blockRemoved d i (d.buf.take n) s1).pass

/-- A refetch fails for want of its window. -/
def refetchFail (l : Loc) (a n : Nat) : Option (Nat × Nat) :=
  (lowest (failures l 0 [(a % 2 ^ 48, n)])).map fun x => (x.1, x.2.1)

/-- The refetched block is checked again (R256): a second failure traps with 0x0C; a pass is logged
as transient, in a record whose other fields are the model's (log 78). -/
def refetched (d : Stream) (i : Nat) (bs : List Byte) (s : State) : State :=
  let s := s.updSd fun x => { x with refetch := x.refetch.tail }
  match checkBlock d i bs with
  | .good b => (s.updSd fun x => { x with out := insertOut i b x.out }).logError 2 0x0C 2 0 0
  | .pair c e => takeTrap (d.blockTrap 0x0A i (q4xInfo c e)) (s.logError 2 0x0C 2 0 0)
  | .corrupt r => takeTrap (d.blockTrap 0x0C i (d.blockInfo i r)) s

/-- BLOCK_REFETCH (R256): the bytes come straight from the image, no sooner than R allows. -/
def execBlockRefetch (s : State) : Out :=
  match s.core.sd with
  | none => .next s.pass
  | some d => match d.refetch with
    | [] => .next s.pass
    | (i, t) :: _ =>
      if s.core.tick < t then .next s.pass
      else
        let l := locOf s s.core.vis .stream .read
        let n := (d.table.getD i ⟨0, 0, 0⟩).s
        match refetchFail l (d.blockAddr i) n, goneAt l [(d.blockAddr i % 2 ^ 48, n)] with
        | some (c, a), _ => .next (takeTrap (beatTrap c a) s).pass
        | none, some pa => .fault (.noSuchHbm pa)
        | none, none =>
          let (bs, s1) := streamRead s l (d.blockAddr i % 2 ^ 48) n
          .next (refetched d i bs s1).pass

/-- Push a decoded block and its batch (R177, R257). -/
def pushBlock (b : WBlock) (t : List (Nat × WBlock)) (s : State) : State :=
  (s.updSd fun d => { d with out := t }).upd fun c =>
    { c with mx := { c.mx with wfifo := c.mx.wfifo ++ [b], scf := c.mx.scf ++ [(b.scnt, b.x8)] } }

/-- Whether the oldest decoded block has reached its push (R244, R257). -/
def Stream.pushDue (d : Stream) (c : Core) : Bool :=
  match d.out with
  | [] => false
  | (i, _) :: _ => !d.reopen && decide (d.g0 + d.tick i + 8 ≤ c.gtick) && !c.gheld
      && d.refetch.all (fun r => decide (i < r.1))

/-- BLOCK_PUSH (R257). -/
def execBlockPush (s : State) : Out :=
  match s.core.sd with
  | none => .next s.pass
  | some d => match d.out with
    | [] => .next s.pass
    | (_, b) :: t => if d.pushDue s.core then .next (pushBlock b t s).pass else .next s.pass

end Sys2Proof.Machine
end

