-- ==== Sys2Proof/Machine/Lists.lean ====
section
/-! DEFINITION. Command-list entries (R334 to R339, R343, R344): the place of the interpreter, each entry's act,
the residency check of a launch. -/

namespace Sys2Proof.Machine

/-- Whether the interpreter may act on a queue (R331, R337). -/
def HostQueue.live (x : HostQueue) : Bool := x.en && decide (x.state = .running) && x.hold.isNone

/-- The entry is dispatched: the interpreter goes to the next position (R332, R337). -/
def HostQueue.advance (x : HostQueue) (n : Nat) : HostQueue :=
  match x.pos with
  | some a => { x with pos := some (a + BitVec.ofNat 64 (256 * n)), rereads := 0 }
  | none => { x with next := x.next + BitVec.ofNat 32 n, rereads := 0 }

/-- The position after an entry, for a CALL (R337). -/
def HostQueue.after (x : HostQueue) : Option DWord := x.pos.map (· + 256)

/-- Run an entry of a queue whose interpreter may act: firmware runs once every die has booted (R8). -/
def listEntry (tn : Fin 16) (q : Fin 8) (s : State) (f : HostQueue → State) : Out :=
  let x := s.queue tn q
  if x.live && s.booted then .next (f x).pass else .next s.pass

/-- WAIT (R336, R343, R344): met by a signalled event, or by a signalling while it waited; with CLR it
clears the event once it is met. -/
def execListWait (tn : Fin 16) (q : Fin 8) (_w : Bool) (ev : BitVec 16) (clr : Bool) (s : State) : Out :=
  listEntry tn q s fun x =>
    if s.sys.tenants[tn].signalled ev.toNat || decide (x.waitEv = some (ev, clr)) then
      let s1 := s.modQueue tn q fun x => { x.advance 1 with waitEv := none }
      if clr then s1.modTenant tn fun t => { t with events := t.events.filter (· != ev.toNat) } else s1
    else s.modQueue tn q fun x => { x with state := .waiting, waitEv := some (ev, clr) }

/-- The home of an 8-byte word of a list entry: none when it is unaligned or faults (R334). -/
def listWord (s : State) (tn : Fin 16) (k : Acc) (a : DWord) : Option (Space × Nat) :=
  if a.toNat % 8 ≠ 0 ∨ 2 ^ 48 ≤ a.toNat then none
  else match tenantLoc s tn k a.toNat with
    | .ok r => some r
    | .error _ => none

/-- The event that a completion or a SIGNAL names: 0xFFFF names none (R336). -/
def State.signalIf (s : State) (tn : Fin 16) (ev : BitVec 16) : State :=
  if ev = 0xFFFF then s else s.signal tn ev.toNat

/-- SIGNAL (R336): AMOD.ADD at ADDR, then the event. -/
def execListSignal (tn : Fin 16) (q : Fin 8) (_w : Bool) (ev : BitVec 16) (addr addend : DWord)
    (s : State) : Out :=
  listEntry tn q s fun _ =>
    let fin (s : State) : State := (s.signalIf tn ev).modQueue tn q fun x => x.advance 1
    if addr = 0 then fin s
    else match listWord s tn .atomic addr with
      | none => s.queueError tn q 6
      | some (sp, off) =>
        let old := BitVec.ofNat 64 (leNat (s.readAt sp off 8))
        fin (s.writeAt sp off (leBytes 8 (old + addend).toNat))

/-- SKIPIF (R337, R338). -/
def execListSkipif (tn : Fin 16) (q : Fin 8) (_w : Bool) (n : BitVec 16) (addr : DWord) (s : State) :
    Out :=
  listEntry tn q s fun _ =>
    match listWord s tn .read addr with
    | none => s.queueError tn q 6
    | some (sp, off) =>
      let v := leNat (s.readAt sp off 8)
      s.modQueue tn q fun x => x.advance (if v = 0 then 1 else 1 + n.toNat)

/-- JUMP (R334, R337): legal only inside a fixed list. -/
def execListJump (tn : Fin 16) (q : Fin 8) (_w : Bool) (target : DWord) (s : State) : Out :=
  listEntry tn q s fun x =>
    if x.pos.isNone then s.queueError tn q 3
    else s.modQueue tn q fun x => { x with pos := some target, rereads := 0 }

/-- CALL (R334, R337): the stack holds 4 positions. At ring level NEXT passes the entry. -/
def execListCall (tn : Fin 16) (q : Fin 8) (_w : Bool) (target : DWord) (s : State) : Out :=
  listEntry tn q s fun x =>
    if 4 ≤ x.calls.length then s.queueError tn q 3
    else s.modQueue tn q fun x =>
      { x.advance 1 with pos := some target, calls := x.after :: x.calls }

/-- RETURN (R334, R337). -/
def execListReturn (tn : Fin 16) (q : Fin 8) (_w : Bool) (s : State) : Out :=
  listEntry tn q s fun x =>
    match x.calls with
    | [] => s.queueError tn q 3
    | p :: t => s.modQueue tn q fun x => { x with pos := p, calls := t, rereads := 0 }

/-- FENCE (R336): it completes once every task launched before it has completed. -/
def execListFence (tn : Fin 16) (q : Fin 8) (_w : Bool) (s : State) : Out :=
  listEntry tn q s fun x =>
    if x.launched.isEmpty then s.modQueue tn q fun x => x.advance 1 else s

/-- END (R336): the queue is idle; the next kick resumes at NEXT. -/
def execListEnd (tn : Fin 16) (q : Fin 8) (_w : Bool) (s : State) : Out :=
  listEntry tn q s fun _ =>
    s.modQueue tn q fun x => { x.advance 1 with state := .idle, pos := none, calls := [] }

/-! ### LAUNCH (R336, R339) -/

/-- The ring order of the dies (R265). -/
def ringDies : List Nat := [0, 1, 3, 2]

/-- The cores of a gang shape, in rank order (R264, R265). -/
def shapeCores (img : SlotImage) : List (Fin 128) :=
  (ringDies.filter fun d => img.dieSet.getLsbD d).flatMap fun d =>
    ((List.range 32).filter fun i => img.indexSet.getLsbD i).map fun i =>
      ⟨(32 * d + i) % 128, Nat.mod_lt _ (by decide)⟩

/-- The save area of a launch (R336, R348). -/
def saveBase (f : LaunchFields) (x : HostQueue) : DWord := if f.save = 0 then x.qsave else f.save

/-- Whether a save area can hold a gang (R339, R348). -/
def saveOk (a : DWord) (n : Nat) : Bool :=
  decide (a.toNat % 2 ^ 21 = 0) && decide (a.toNat < 8 * 2 ^ 36)
    && decide (a.toNat % 2 ^ 36 + n * 0x800000 ≤ 48 * 2 ^ 30)

/-- The stacks of a die that a registered weight stream reads (R253, R363). -/
def streamStacks (s : State) (tn : Fin 16) (d : Fin 4) (x : VAddr × Nat × Nat) : List Nat :=
  ((pieces block x.1.toNat x.2.1).filterMap fun p => match translate s d tn .read p.1 with
    | .ok (.hbm, pa) => some (pa / 2 ^ 36)
    | _ => none).eraseDups

/-- Entries in every 256 of a stack's port that the streams of a slot need on a die: each registered stream
is read by one core of the die (R253, log 80). -/
def portNeed (s : State) (tn : Fin 16) (img : SlotImage) (d : Fin 4) (k : Nat) : Nat :=
  if img.dieSet.getLsbD d.val then
    ((img.streams.filter fun x => (streamStacks s tn d x).contains k).map (·.2.2)).sum
  else 0

/-- Whether the ports of a die serve what is asked of each of its two stacks (R253). -/
def portsServe (need : Fin 4 → Nat → Nat) : Bool :=
  (List.finRange 4).all fun d => decide (need d (2 * d.val) ≤ 256) && decide (need d (2 * d.val + 1) ≤ 256)

/-- Whether a slot's weight streams lie in the HBM of the dies that read them, and their rates can be
reserved (R253, R339). -/
def streamsOk (s : State) (tn : Fin 16) (img : SlotImage) : Bool :=
  img.streams.all (fun x => (List.finRange 4).all fun d => !img.dieSet.getLsbD d.val ||
      (foreign (fun a => translate s d tn .read a) d (x.1.toNat, x.2.1)).isNone)
    && portsServe (portNeed s tn img)

/-- Whether an address range is loaded in a die's window table for a tenant (R339). -/
def rangeLoaded (s : State) (tn : Fin 16) (d : Fin 4) (r : VAddr × Nat) : Bool :=
  (pieces block r.1.toNat r.2).all fun p => s.sys.die[d].win.any fun e => winCovers tn p.1 e.2

/-- Whether the tenant's window range for a slot is loaded on every die of its shape (R339). -/
def windowsOk (s : State) (tn : Fin 16) (img : SlotImage) : Bool :=
  (List.finRange 4).all fun d => !img.dieSet.getLsbD d.val || img.range.all (rangeLoaded s tn d)

/-- Windows of 2 MiB that n bytes need. -/
def blocksFor (n : Nat) : Nat := (n + (block - 1)) / block

/-- Where firmware maps a slot's code (R392, log 18): slots with entries of their own have addresses of their own. -/
def codeAt (img : SlotImage) : BitVec 48 := BitVec.ofNat 48 (0x400000 + block * img.dataWin.val)

/-- The first 2 MiB boundary after a slot's code (R28). -/
def dataAt (img : SlotImage) : Nat := (codeAt img).toNat + block * blocksFor img.code.length

/-- Where in HBM a slot's data section lies: at the first 2 MiB boundary after its code (log 18). -/
def dataPaAt (img : SlotImage) : Nat := img.dataPa + block * blocksFor img.code.length

/-- Windows that map a slot's code and data. -/
def slotBlocks (img : SlotImage) : Nat := blocksFor img.code.length + blocksFor img.data.length

/-- The window entries that map a slot (R28, R363, R392): index and entry, 2 MiB each, the code's with X, the data's
with R and W. -/
def slotWins (tn : Fin 16) (img : SlotImage) : List (Nat × BitVec 128) :=
  (List.range (slotBlocks img)).map fun i =>
    let perm := if i < blocksFor img.code.length then 2 ^ 4 else 2 ^ 2 + 2 ^ 3
    (img.dataWin.val + i, BitVec.ofNat 128 (1 + perm + tn.val * 2 ^ 6 + 21 * 2 ^ 11
      + ((codeAt img).toNat / block + i) * 2 ^ 21 + (img.dataPa / block + i) * 2 ^ 85))

/-- The map of a slot that a tenant launches (R28, R392). -/
def slotMap (tn : Fin 16) (img : SlotImage) : SlotMap :=
  { tn := tn, slot := img.slot, dies := img.dieSet, wins := slotWins tn img }

/-- The map that a slot of a tenant has. -/
def State.mapOf (s : State) (tn : Fin 16) (slot : Fin 256) : Option SlotMap :=
  s.sys.maps.find? fun m => decide (m.tn = tn) && decide (m.slot = slot)

/-- Whether entry k of a die is one of a map. -/
def SlotMap.has (m : SlotMap) (d : Fin 4) (k : Nat) : Bool := m.dies.getLsbD d.val && m.wins.any fun w => w.1 == k

/-- Whether two ranges meet. -/
def overlap (a n b m : Nat) : Bool := decide (0 < n) && decide (0 < m) && decide (a < b + m) && decide (b < a + n)

/-- Whether two window entries cover an address of one tenant both (R363, R364). -/
def winsMeet (x y : BitVec 128) : Bool :=
  decide (winBits x 6 4 = winBits y 6 4)
    && overlap (winBits x 21 27 * 2 ^ 21) (2 ^ winBits x 11 5) (winBits y 21 27 * 2 ^ 21) (2 ^ winBits y 11 5)

/-- Whether a slot can be mapped on every die of its shape (R28, R364, R392): its entries and addresses are free, but
for those of the map that the slot has. -/
def mapOk (s : State) (tn : Fin 16) (img : SlotImage) : Bool :=
  (List.finRange 4).all fun d => !img.dieSet.getLsbD d.val || (slotWins tn img).all fun w =>
    s.sys.die[d].win.all fun e => (s.mapOf tn img.slot).any (·.has d e.1)
      || (decide (e.1 ≠ w.1) && !winsMeet e.2 w.2)

/-- Whether the cores of a shape are the tenant's and in placement (R7, R264, R330). -/
def shapeOk (s : State) (tn : Fin 16) (l : List (Fin 128)) : Bool :=
  !l.isEmpty && l.all fun c => s.sys.tenants[tn].cores.contains c && !s.sys.removed.contains c

/-- The residency check (R339). -/
def residencyOk (s : State) (tn : Fin 16) (q : Fin 8) (f : LaunchFields) : Bool :=
  match (s.slot f.slot.toNat).bind (·.image) with
  | none => false
  | some img =>
    let cores := shapeCores img
    let x := s.queue tn q
    shapeOk s tn cores && streamsOk s tn img && windowsOk s tn img && mapOk s tn img
      && (decide (x.prio = 3) || saveOk (saveBase f x) cores.length)
      && decide (f.arglen.toNat ≤ 4096)
      && (readTenant s tn f.argsrc.toNat (max 1 f.arglen.toNat)).isSome
      && img.epi.all fun e => (epiFail e).isNone

/-- LAUNCH (R336, R337, R339): a refused check stops the queue at the entry with ERR 2; otherwise the task
waits for its start, and the interpreter for it, or with W for its completion. -/
def execLaunch (tn : Fin 16) (q : Fin 8) (seq : BitVec 32) (w : Bool) (f : LaunchFields) (s : State) :
    Out :=
  listEntry tn q s fun _ =>
    if residencyOk s tn q f then
      let id := s.sys.nextTask
      let gen := ((s.slot f.slot.toNat).map (·.gen)).getD 0
      let img := (s.slot f.slot.toNat).bind (·.image)
      let s1 := s.modQueue tn q fun x =>
        { x.advance 1 with hold := some (id, w), launched := x.launched ++ [id] }
      let x := s1.queue tn q
      let t : Task := {
        id := id, tn := tn, q := q, seq := seq, w := w, f := f, gen := gen, img := img
        nosort := s.sys.nosort, after := (x.next, x.pos, x.calls) }
      { s1 with sys := { s1.sys with tasks := s1.sys.tasks ++ [t], nextTask := id + 1 } }
    else s.queueError tn q 2

end Sys2Proof.Machine
end

