-- ==== Sys2Proof/Machine/Copy.lean ====
section
/-! DEFINITION. Copy-engine words (R282 to R285, R292, R310 to R325): COPY and SQST row by row, outbound
copies held for a phase, timed sends, completion records, remote words, ATOMV and its batch buffers. -/

namespace Sys2Proof.Machine

/-! ### Outbound copies (R312, R313) -/

/-- Whether some byte of ranges lies outside the acting core's bench (R268, R312). -/
def outside (s : State) (l : Loc) (rs : List (Nat × Nat)) : Bool :=
  rs.any fun r => (pieces block r.1 r.2).any fun p =>
    match l p.1 with
    | .ok (sp, _) => decide (sp ≠ .bench s.core.id.num)
    | .error _ => true

/-- Whether some byte of ranges lies in a pair's bench range (R312, R374). -/
def inPair (s : State) (l : Loc) (x : PhPair) (rs : List (Nat × Nat)) : Bool :=
  let lo := x.base.toNat * 64
  let hi := lo + 128 * x.len.toNat
  rs.any fun r => (pieces 64 r.1 r.2).any fun p =>
    match l p.1 with
    | .ok (.bench k, off) => decide (k = s.core.id.num) && decide (off < hi) && decide (lo < off + p.2)
    | _ => false

/-- The pair that holds a copy (R312), the lowest that its source meets. -/
def holder (s : State) (v : Vis) (src dst : List (Nat × Nat)) : Option (Fin 8) :=
  if outside s (locOf s v .copy .write) dst then
    (List.finRange 8).find? fun p => decide (v.ph[p].len ≠ 0) &&
      inPair s (locOf s v .copy .read) v.ph[p] src
  else none

/-- Bytes in the hold (R312). -/
def Core.heldBytes (c : Core) : Nat := (c.cp.hold.map HeldCopy.size).sum

/-- Bytes of the hold that are free from a place up to the next piece in use. -/
def holdGap (used : List (Nat × Nat)) (a : Nat) : Nat :=
  ((used.map (·.1)).filter fun b => decide (a ≤ b)).foldl min 0x40000 - a

/-- Pieces for n bytes out of the free parts of the hold that begin at the places given. -/
def fillGaps (used : List (Nat × Nat)) : Nat → List Nat → List (Nat × Nat)
  | _, [] => []
  | n, a :: t =>
    let g := min n (holdGap used a)
    if g = 0 then fillGaps used n t else (a, g) :: fillGaps used (n - g) t

/-- Pieces of the hold of 256 KiB for n bytes that no held copy uses (R5, R312). -/
def Core.holdPieces (c : Core) (n : Nat) : List (Nat × Nat) :=
  let used := c.cp.hold.flatMap (·.pieces)
  fillGaps used n (0 :: used.map fun p => p.1 + p.2)

/-- A word that writes outside the bench and is not held makes the phase irreversible as it issues
(R313). -/
def State.touchRange (s : State) (x : Entry) (l : Loc) (rs : List (Nat × Nat)) : State :=
  if !x.started && outside s l rs then s.setIrrev else s

/-! ### COPY (R311) -/

/-- The checks of a row's accesses: translation of source and destination, watchpoints, the bytes
read. -/
def copyRowChecks (i : Instr) (x : Entry) (src dst : List (Nat × Nat)) (s : State) : Option ERes :=
  let lr := locOf s x.snap .copy .read
  let lw := locOf s x.snap .copy .write
  (accessFail i .copy (failures lr 0 src ++ failures lw 1 dst)
    ((goneAt lr src).or (goneAt lw dst)) s).or
  ((watchFail i .copy x (wpRange x.snap 0 (wpBit .copy) src ++ wpRange x.snap 1 (wpBit .copy) dst)
    s).or
  (consumeError .copy (firstBad s lr src) s))

/-- A copy with all its rows enters the hold (R312), each row with the residue that its release checks
(R98, R186). -/
def holdCopy (p : Fin 8) (x : Entry) (rows : List (Nat × List Byte)) (s : State) : State :=
  let w := rows.map fun r => { addr := BitVec.ofNat 48 r.1, bytes := r.2
                               residue := some (residueOf r.2) : HeldRow }
  let y := { x with started := true, prog := 0, rows := [], wpskip := true }
  let h : HeldCopy := { pair := p, writes := w, entry := y }
  let l := s.core.holdPieces h.size
  (s.mendAll (.hold s.core.id.num) l).upd fun c => { c with cp := { c.cp with
    hold := c.cp.hold ++ [{ h with pieces := l }] } }

/-- A row of a held copy: its bytes are kept; the last row fills the hold (R312). -/
def holdRow (p : Fin 8) (x : Entry) (n : Nat) (dst : Nat) (bs : List Byte) (s : State) : ERes :=
  let all := x.rows ++ [(dst, bs)]
  if x.prog + 1 < n then .part s { x with prog := x.prog + 1, wpskip := false, rows := all }
  else .issue (holdCopy p x all s) { hold := some p }

/-- COPY (R311, R312): one row an act; a fault in row r leaves the rows before it. -/
def execCopy (tk : Tok) (d st : Fin 16) (s : State) : Out :=
  let i : Instr := .copy tk d st
  engWord .copy tk i s fun x s0 =>
    let a := x.snap.st[st]
    let b := x.snap.st[d]
    let n := a.rows.toNat
    orElse (illegalIf (a.emptyGeo || b.emptyGeo) i .copy 0x03 x s0) <|
    orElse (illegalIf (decide (a.rows ≠ b.rows) || decide (a.rbytes ≠ b.rbytes)) i .copy 0x0D x s0) <|
      let pair := holder s0 x.snap (s0.core.rowRanges a 0 n) (s0.core.rowRanges b 0 n)
      if !x.started ∧ pair.isSome ∧ 0x40000 < s0.core.heldBytes + n * a.rbytes.toNat then .wait
      else
        let src := s0.core.rowRanges a x.prog 1
        let dst := s0.core.rowRanges b x.prog 1
        orElse ((copyRowChecks i x src dst s0).map (atProgress x)) <|
          let bs := readRange s0 (locOf s0 x.snap .copy .read) (s0.core.rowAddr a x.prog) a.rbytes.toNat
          match pair with
          | some p => holdRow p x n (s0.core.rowAddr b x.prog) bs s0
          | none =>
            let lw := locOf s0 x.snap .copy .write
            let all := s0.core.rowRanges b 0 n
            let lines := benchLines s0 lw all
            let s1 := writeRange (s0.touchRange x lw all) lw (s0.core.rowAddr b x.prog) bs
            if x.prog + 1 < n then
              .part s1 { x with prog := x.prog + 1, wpskip := false, lines := lines }
            else .issue s1 { lines := lines }

/-! ### SQST (R314) -/

/-- Bytes of a lane in an entry's delivered format. -/
def laneWidth (e : LaneEntry) : Nat := bitsOr8 e.fmt / 8

/-- The lane stores of a row: address and bytes. -/
def laneStores (a n : Nat) (e : LaneEntry) : List (Nat × List Byte) :=
  let w := laneWidth e
  (List.range 64).filterMap fun i =>
    if w * i < n ∧ e.mask.getLsbD i then
      some ((a + w * i) % 2 ^ 48, (leBytes w (vget e.lanes i 0).toNat).take (n - w * i))
    else none

/-- The stores of a row: one range when every lane is active (R310). -/
def rowStores (a n : Nat) (e : LaneEntry) : List (Nat × List Byte) :=
  let l := laneStores a n e
  if e.mask = BitVec.allOnes 64 then [(a, l.flatMap (·.2))] else l

/-- The residue check at the memory write (R186, R314). -/
def sqstResidue (n : Nat) (e : LaneEntry) (bs : List Byte) : Bool :=
  match e.residue with
  | none => false
  | some r => decide (e.mask = BitVec.allOnes 64) && decide (n = 64 * laneWidth e)
      && decide (residueOf bs ≠ r)

/-- The entry of an SQST's row leaves wq unless the word holds it already (R314). -/
def popRow (x : Entry) (e : LaneEntry) (s : State) : State :=
  if x.index.isSome then s
  else (s.readsIf e.carried).updQ fun q => { q with wq := q.wq.tail }

/-- A check of a row fails: a word that has issued keeps the row's entry with its progress (R314). -/
def rowKept (x : Entry) (e : LaneEntry) : ERes → ERes
  | .trap t s => if x.started then .trapAt t (popRow x e s) { x with index := some e } else .trap t s
  | r => r

/-- SQST (R314): one row an act. The first row's entry pops as the word issues; an entry whose row a
check stops later stays with the word's progress. -/
def execSqst (tk : Tok) (d : Fin 16) (s : State) : Out :=
  let i : Instr := .sqst tk d
  engWord .copy tk i s fun x s0 =>
    match x.index.or s0.core.q.wq.head? with
    | none => .wait
    | some e =>
      let b := x.snap.st[d]
      let n := b.rbytes.toNat
      orElse (illegalIf (b.emptyGeo || decide (256 < n)) i .copy 0x03 x s0) <|
        let a := s0.core.rowAddr b x.prog
        let st := (rowStores a n e).filter fun r => !r.2.isEmpty
        let rs := st.map fun r => (r.1, r.2.length)
        orElse ((copyRowChecks i x [] rs s0).map (rowKept x e)) <|
          let lw := locOf s0 x.snap .copy .write
          let all := s0.core.rowRanges b 0 b.rows.toNat
          let lines := benchLines s0 lw all
          let s1 := popRow x e (s0.touchRange x lw all)
          let s2 := st.foldl (fun s r => writeRange s lw r.1 r.2) s1
          if sqstResidue n e (st.flatMap (·.2)) then
            let y := { x with index := some e }
            .raw (silentError { cause := 0x12, addr := BitVec.ofNat 48 a, origin := 4
                                info := BitVec.ofNat 64 (1 + 4 * 2 ^ 8 + x.prog * 2 ^ 16) }
              (if x.started then putHead .copy y s2 else stayWord .copy tk x y s2))
          else if x.prog + 1 < b.rows.toNat then
            .part s2 { x with prog := x.prog + 1, wpskip := false, index := none, lines := lines }
          else .issue s2 { lines := lines }

/-! ### XSEND (R292, R315) -/

/-- The ring 0, 1, 3, 2 (R265): the next die forward, or back. -/
def ringNext (d : Fin 4) (back : Bool) : Fin 4 :=
  match d.val, back with
  | 0, false => 1 | 1, false => 3 | 3, false => 2 | 2, false => 0
  | 0, _ => 2 | 2, _ => 3 | 3, _ => 1 | _, _ => 0

/-- The core that a send reaches: the same index on the neighbour die, if it is of the gang. -/
def neighbour (s : State) (back : Bool) : Option Nat :=
  let k := (ringNext s.core.id.die back).val * 32 + s.core.id.idx.val
  match s.others.find? (fun c => c.id.num == k) with
  | some c => if sameGang s.core c then some k else none
  | none => none

/-- The gang tick a send lands at: 24 after issue, within ±1, no sooner than one before it on the
channel (R292). -/
def landDue (l : List Flight) (back : Bool) (g k : Nat) : Nat :=
  (l.filter fun f => f.back == back).foldl (fun m f => max m f.due) (g + 23 + k)

/-- A send leaves (R292, R315). -/
def launchFlight (peer : Nat) (back : Bool) (slot : Fin 64) (f : BitVec 4) (bs : List Byte) (s : State) :
    State :=
  let (k, s) := s.pick 3
  let g := s.core.gtick
  let s := s.modCore peer fun c => { c with land := { c.land with
    flights := c.land.flights ++ [{ slot := slot, fmt := f, data := bs, back := back
                                    due := landDue c.land.flights back g k }] } }
  let b : Fin 2 := if back then 1 else 0
  s.setIrrev.upd fun c => { c with cp := { c.cp with
    lastSend := c.cp.lastSend.set b.val (some c.tick) b.isLt } }

/-- Whether an XSEND has reached its gang tick and its channel is free (R292). -/
def sendDue (c : Core) (v : Vis) (back : Bool) (off : BitVec 23) : Bool :=
  let b : Fin 2 := if back then 1 else 0
  decide ((v.tbase + off.zeroExtend 64).toNat ≤ c.gtick) && (match c.cp.lastSend[b] with
    | none => true
    | some t => decide (t + 2 ≤ c.tick))

/-- XSEND (R315). -/
def execXsend (tk : Tok) (st : Fin 16) (nb : Bool) (slot : Fin 64) (off : BitVec 23) (s : State) : Out :=
  let i : Instr := .xsend tk st nb slot off
  engWord .copy tk i s fun x s0 =>
    orElse (hookTrap i .copy s0) <|
      if !sendDue s0.core x.snap nb off then .wait
      else
        let r := x.snap.st[st]
        let n := r.rows.toNat
        orElse (illegalIf (r.emptyGeo || r.badFmt || decide (n * r.rbytes.toNat ≠ 4096)) i .copy 0x03
          x s0) <|
          match neighbour s0 nb with
          | none => .trap (access 0x02 i 1 0 4) s0
          | some k =>
            orElse (readChecks i .copy x (s0.core.rowRanges r 0 n) s0) <|
              let bs := (readRows s0 (locOf s0 x.snap .copy .read) r 0 n).flatten
              .issue (launchFlight k nb slot r.fmt bs s0) {}

/-! ### Records (R320) -/

/-- A completion record. -/
def cqRecord (op : Nat) (peer : BitVec 13) (tag : BitVec 16) (len status reason : Nat) : Record :=
  BitVec.ofNat 64 (tag.toNat + peer.toNat * 2 ^ 16 + op * 2 ^ 29 + status * 2 ^ 32 + reason * 2 ^ 34
    + len % 2 ^ 26 * 2 ^ 38)

/-- OP of a record (R320). -/
def recordOp (r : Record) : Nat := r.toNat / 2 ^ 29 % 4

/-- A record enters cq, or waits behind the records that wait (R320). -/
def Queues.addRecord (q : Queues) (r : Record) : Queues :=
  if q.cq.length < 64 ∧ q.cqPend.isEmpty then { q with cq := q.cq ++ [r] }
  else { q with cqPend := q.cqPend ++ [r] }

/-- A record is pushed (R320); during a user debug hook the queue that the trap found takes it too, so
that it is there when the hook has ended (R371). -/
def Core.pushRecord (c : Core) (r : Record) : Core :=
  { c with q := c.q.addRecord r, hook := c.hook.map fun h => { h with q := h.q.addRecord r } }

/-- OP of a remote word (R320). -/
def opNum : RemoteOp → Nat
  | .send => 0 | .recv => 1

/-- A remote word ends with a status and a reason (R319). -/
def Core.endRemote (c : Core) (r : Remote) (status reason : Nat) : Core :=
  let c := { c with cp := { c.cp with remote := c.cp.remote.erase r } }
  c.pushRecord (cqRecord (opNum r.op) r.peer r.tag r.len status reason)

/-! ### Remote words (R316 to R321) -/

/-- The peer-table entry of a peer for a tenant (R388). -/
def State.peer (s : State) (t : Fin 16) (p : BitVec 13) : DWord :=
  match s.sys.peers.find? (fun e => decide (e.1 = t) && decide (e.2.1 = p)) with
  | some e => e.2.2
  | none => 0

/-- Whether a task may name a peer (R317, R388). -/
def peerAllowed (s : State) (v : Vis) (p : BitVec 13) : Bool :=
  decide (v.peerbase.toNat ≤ p.toNat) && decide (p.toNat < v.peerbase.toNat + v.peern.toNat)
    && (s.peer s.core.ctl.regs.tenant p).getLsbD 0

/-- The ports of a peer-table entry (R388). -/
def peerPorts (e : DWord) : List (Fin 32) := (List.finRange 32).filter fun i => e.getLsbD (2 + i.val)

/-- The port that carries a remote word: one that its peer's entry allows and that is up, which one is free
(R387, R388, log 54). -/
def State.pickPort (s : State) (p : BitVec 13) : Option (Fin 32) × State :=
  let ps := (peerPorts (s.peer s.core.ctl.regs.tenant p)).filter fun k => s.sys.ports[k].up
  match ps with
  | [] => (none, s)
  | k :: _ => let (n, s) := s.pick ps.length; (some (ps.getD n k), s)

/-- Post a remote word (R317). -/
def postRemote (op : RemoteOp) (p : BitVec 13) (tag : BitVec 16) (len : Nat) (red : Reduce) (st : StReg)
    (v : Vis) (s : State) : State :=
  let (port, s) := s.pickPort p
  let r : Remote := { op := op, peer := p, tag := tag, len := len, reduce := red, st := st, ph := v.ph
                      rto := v.rto, posted := s.core.tick, port := port }
  s.setIrrev.upd fun c => { c with cp := { c.cp with remote := c.cp.remote ++ [r] } }

/-- An RSEND of the other end meets its RRECV (R317): lengths that differ record a refusal. -/
def Core.meet (c : Core) (r : Remote) (len : Nat) : Core :=
  if r.len ≠ len then c.endRemote r 3 4
  else { c with cp := { c.cp with
    remote := c.cp.remote.map fun x => if x = r then { x with matched := true } else x } }

/-- An RSEND that arrived before its RRECV is matched as that is posted (R317, R356). -/
def Core.meetArrived (c : Core) (p : BitVec 13) (tag : BitVec 16) : Core :=
  match c.cp.arrived.find? fun a => decide (a.1 = p) && decide (a.2.1 = tag) with
  | none => c
  | some a => match c.cp.remote.find? fun r =>
        decide (r.op = .recv) && decide (r.peer = p) && decide (r.tag = tag) && !r.matched with
    | none => c
    | some r => ({ c with cp := { c.cp with arrived := c.cp.arrived.erase a } } : Core).meet r a.2.2

/-- Cause 0x1B at a peer the task may not name (R317). -/
def peerFail (s : State) (x : Entry) (p : BitVec 13) : Option ERes :=
  if peerAllowed s x.snap p then none
  else some (.trap { cause := 0x1B, info := p.zeroExtend 64, addr := x.addr } s)

/-- The checks of an RSEND's source before it issues (R317, R367): what its bytes hold is found as they are read
(R379). -/
def sendChecks (i : Instr) (x : Entry) (rs : List (Nat × Nat)) (s : State) : Option ERes :=
  let l := locOf s x.snap .copy .read
  (accessFail i .copy (failures l 0 rs) (goneAt l rs) s).or
    (watchFail i .copy x (wpRange x.snap 0 (wpBit .copy) rs) s)

/-- RSEND (R317). -/
def execRsend (tk : Tok) (st : Fin 16) (peer : BitVec 13) (tag : BitVec 16) (s : State) : Out :=
  let i : Instr := .rsend tk st peer tag
  engWord .copy tk i s fun x s0 =>
    let r := x.snap.st[st]
    let n := r.rows.toNat
    let rs := s0.core.rowRanges r 0 n
    orElse (hookTrap i .copy s0) <|
    orElse (illegalIf (r.emptyGeo || decide (2 ^ 24 < n * r.rbytes.toNat)) i .copy 0x03 x s0) <|
    orElse (sendChecks i x rs s0) <|
    orElse (peerFail s0 x peer) <|
      .issue (postRemote .send peer tag (n * r.rbytes.toNat) .none r x.snap s0) {}

/-- Bytes of an element under a reduce op (R318). -/
def reduceSize : Reduce → Nat
  | .none => 1 | .addb => 2 | _ => 4

/-- The failures of an RRECV's accesses (R317, R359, R364): with a reduce op both R and W are
needed, R reported first at an address. -/
def recvFails (s : State) (x : Entry) (red : Reduce) (rs : List (Nat × Nat)) : List (Nat × Nat × Nat) :=
  (if red = .none then [] else failures (locOf s x.snap .copy .read) 0 rs)
    ++ failures (locOf s x.snap .copy .write) 1 rs

/-- RRECV (R317). -/
def execRrecv (tk : Tok) (d : Fin 16) (red : Reduce) (peer : BitVec 13) (tag : BitVec 16) (s : State) :
    Out :=
  let i : Instr := .rrecv tk d red peer tag
  engWord .copy tk i s fun x s0 =>
    let r := x.snap.st[d]
    let n := r.rows.toNat
    let len := n * r.rbytes.toNat
    let rs := s0.core.rowRanges r 0 n
    let kinds := (if red = .none then [] else wpRange x.snap 0 (wpBit .copy) rs)
      ++ wpRange x.snap 1 (wpBit .copy) rs
    orElse (hookTrap i .copy s0) <|
    orElse (illegalIf (r.emptyGeo || decide (2 ^ 24 < len)) i .copy 0x03 x s0) <|
    orElse (illegalIf (decide (len % reduceSize red ≠ 0)) i .copy 0x0D x s0) <|
    orElse (accessFail i .copy (recvFails s0 x red rs) (goneAt (locOf s0 x.snap .copy .write) rs) s0) <|
    orElse (watchFail i .copy x kinds s0) <|
    orElse (peerFail s0 x peer) <|
      .issue ((postRemote .recv peer tag len red r x.snap s0).upd fun c => c.meetArrived peer tag) {}

/-- RFENCE (R321): waits until every remote word posted before it has its record pushed. -/
def execRfence (tk : Tok) (s : State) : Out :=
  engWord .copy tk (.rfence tk) s fun _ s0 =>
    if s0.core.cp.remote.isEmpty ∧ s0.core.q.cqPend.all fun r => decide (recordOp r = 2) then .issue s0 {}
    else .wait

/-! ### ATOMV (R282 to R285, R322, R323) -/

/-- RNE(v × 2^S) clamped to 64 bits (R284). -/
def scaledInt (v : Word) (sc : BitVec 8) : DWord :=
  match f32 v with
  | .nan _ => 0x7FFFFFFFFFFFFFFF
  | .inf a => if a then 0x8000000000000000 else 0x7FFFFFFFFFFFFFFF
  | .fin a n e =>
    let (k, _) := roundTo .rne a 0 { num := n, e := e + sc.toInt } 0
    if a then (if 2 ^ 63 ≤ k then 0x8000000000000000 else BitVec.ofInt 64 (-(k : Int)))
    else (if 2 ^ 63 ≤ k then 0x7FFFFFFFFFFFFFFF else BitVec.ofNat 64 k)

/-- The lanes of an ATOMV with their addresses (R322). -/
def atomLanes (c : Core) (r : StReg) (esize : Nat) (ix : LaneEntry) : List (Nat × Nat) :=
  let e := r.rbytes.toNat / esize
  (List.range 64).filterMap fun i =>
    let n := (vget ix.lanes i 0).toNat
    if ix.mask.getLsbD i ∧ n < r.rows.toNat * e then
      some (i, (c.rowAddr r (n / e) + esize * (n % e)) % 2 ^ 48)
    else none

/-- The failures of an ATOMV's addresses (R322): misaligned, not translated or not in HBM, its
window. -/
def atomFails (s : State) (v : Vis) (esize : Nat) (as : List Nat) : List (Nat × Nat × Nat) :=
  as.flatMap fun a =>
    (if a % esize ≠ 0 then [(0x03, a, 2)] else []) ++
    (if 0xFD0000000000 ≤ a then [(0x02, a, 2)]
    else match locOf s v .copy .atomic a with
      | .ok (.hbm, _) => []
      | .ok _ => [(0x02, a, 2)]
      | .error (.trap c) => [(c, a, 2)]
      | .error (.gone _) => [])

/-- Whether a function is batched (R323). -/
def batched : AtomV → Bool
  | .addfs => false | _ => true

/-- Perform the requests of `.ADDFS` (R284). -/
def addScaled (l : Loc) (sc : BitVec 8) (v : Lanes) (ls : List (Nat × Nat)) (s : State) : State :=
  ls.foldl (fun s x =>
    match l x.2 with
    | .ok (sp, off) =>
      let old := BitVec.ofNat 64 (leNat (s.readAt sp off 8))
      s.writeAt sp off (leBytes 8 (old + scaledInt (vget v x.1 0) sc).toNat)
    | .error _ => s) s

/-- The requests of a batched word (R322). -/
def atomReqs (c : Core) (fn : AtomV) (v : Lanes) (ls : List (Nat × Nat)) : List (Nat × AtomReq) :=
  ls.map fun x => (c.ctl.regs.grank.toNat * 2 ^ 16 + x.1 * 256 + c.cp.seq,
    { fn := fn, addr := BitVec.ofNat 48 x.2, value := vget v x.1 0 })

/-- A batched word joins the rank's open part; `.END` closes it (R323). -/
def joinBatch (rs : List (Nat × AtomReq)) (fin : Bool) (s : State) : State :=
  s.upd fun c => { c with cp :=
    if fin then { c.cp with batch := [], seq := 0, closed := c.cp.closed ++ [c.cp.batch ++ rs] }
    else { c.cp with batch := c.cp.batch ++ rs, seq := c.cp.seq + 1 } }

/-- Buffers of a tenant on a die that batches occupy (R285). -/
def State.buffersUsed (s : State) (d : Fin 4) (t : Fin 16) : Nat :=
  (s.sys.sort.filter fun b => decide (b.die = d) && decide (b.tn = t)).length

/-- The dies whose HBM holds elements (R285). -/
def atomDies (l : Loc) (as : List Nat) : List (Fin 4) :=
  (List.finRange 4).filter fun d => as.any fun a => match l a with
    | .ok (.hbm, pa) => decide (pa / 2 ^ 37 = d.val)
    | _ => false

/-- A batch takes a buffer of its tenant on a die, if it has none there and one is free (R285); otherwise
it waits for one at the die's port. -/
def takeBuffer (b : SortBuf) (s : State) : State :=
  if s.sys.sort.contains b || decide (s.sys.tenants[b.tn].bufs[b.die] ≤ s.buffersUsed b.die b.tn) then s
  else { s with sys := { s.sys with sort := s.sys.sort ++ [b] } }

/-- The requests of an `.ADDF` reach their dies (R285); `batch` counts the gang's batches from the one that
closes next. -/
def takeBuffers (l : Loc) (as : List Nat) (s : State) : State :=
  let c := s.core
  (atomDies l as).foldl (fun s d => takeBuffer
    { die := d, tn := c.ctl.regs.tenant, gang := c.ctl.regs.gang, batch := c.cp.closed.length } s) s

/-- Whether the core's task was launched while its queue showed NOSORT (R285). -/
def State.noSorting (s : State) : Bool := (s.taskOf s.core).any (·.nosort)

/-- ATOMV (R322, R323). -/
def execAtomv (tk : Tok) (st : Fin 16) (iq : Fin 4) (fn : AtomV) (fin : Bool) (s : State) : Out :=
  let i : Instr := .atomv tk st iq fn fin
  engWord .copy tk i s fun x s0 =>
    match s0.core.q.vq[iq], s0.core.q.wq with
    | ix :: _, v :: rest =>
      let r := x.snap.st[st]
      let esize := if batched fn then 4 else 8
      let ls := atomLanes s0.core r esize ix
      let as := ls.map (·.2)
      let l := locOf s0 x.snap .copy .atomic
      orElse (hookTrap i .copy s0) <|
      orElse (illegalIf (r.emptyGeo || (batched fn && decide (256 ≤ s0.core.cp.seq))) i .copy 0x03
        x s0) <|
      orElse (illegalIf (decide (r.rbytes.toNat % esize ≠ 0)) i .copy 0x0D x s0) <|
      orElse (if fn = .addf ∧ s0.noSorting then
          some (.trap (access 0x02 i 2 0 4) s0) else none) <|
      orElse (accessFail i .copy (atomFails s0 x.snap esize as)
        (goneAt l (as.map fun a => (a, esize))) s0) <|
      orElse (watchFail i .copy x (wpRange x.snap 2 (wpBit .copy) (as.map fun a => (a, esize))) s0) <|
      orElse (if batched fn then none
        else consumeError .copy (firstBad s0 l (as.map fun a => (a, esize))) s0) <|
        let s1 := ((s0.popVq iq).readsIf v.carried).setIrrev.updQ fun q => { q with wq := rest }
        if batched fn then
          let s2 := if fn = .addf then takeBuffers l as s1 else s1
          .issue (joinBatch (atomReqs s1.core fn v.lanes ls) fin s2) { batch := fin }
        else .issue (addScaled l x.snap.ascale[st] v.lanes ls s1) {}
    | _, _ => .wait

/-- SNOP (R324). -/
def execSnop (tk : Tok) (s : State) : Out :=
  engWord .copy tk (.snop tk) s fun _ s0 => .issue s0 {}

end Sys2Proof.Machine
end

