-- ==== Sys2Proof/Machine/Remote.lean ====
section
/-! DEFINITION. How remote words are matched and end (R317 to R320, R356, R357), ATOMV batches that close
(R282, R283, R323), and the module ports (R387). -/

namespace Sys2Proof.Machine

/-! ### Records (R320) -/

/-- CQ_RECORD (R320): the oldest waiting record enters cq once it has room. -/
def execCqRecord (s : State) : Out :=
  match s.core.q.cqPend with
  | [] => .next s.pass
  | r :: t =>
    if s.core.q.cq.length < 64 then
      .next (s.updQ fun q => { q with cq := q.cq ++ [r], cqPend := t }).pass
    else .next s.pass

/-! ### Remote words (R317 to R319) -/

/-- Whether a remote word is the one a peer and a tag name (R317). -/
def Remote.isFor (r : Remote) (op : RemoteOp) (peer : BitVec 13) (tag : BitVec 16) : Bool :=
  decide (r.op = op) && decide (r.peer = peer) && decide (r.tag = tag)

/-- REMOTE_MATCH (R317, R356): an RSEND of the other end meets the oldest unmatched RRECV of the peer and
tag, or waits for one. -/
def execRemoteMatch (peer : BitVec 13) (tag : BitVec 16) (len : Nat) (s : State) : Out :=
  .next (s.upd fun c => match c.cp.remote.find? fun r => r.isFor .recv peer tag && !r.matched with
    | none => { c with cp := { c.cp with arrived := c.cp.arrived ++ [(peer, tag, len)] } }
    | some r => c.meet r len).pass

/-- B16 addition, exact and then rounded to nearest even (R318). -/
def addB16 (x y : Nat) : Nat :=
  let a := BitVec.ofNat 32 (x * 2 ^ 16)
  let b := BitVec.ofNat 32 (y * 2 ^ 16)
  match nanOf [a, b] with
  | some r => r.1.toNat / 2 ^ 16
  | none =>
    match f32 a, f32 b with
    | .fin p n e, .fin q m g =>
      let k := min e g
      let v := onGrid p n e k + onGrid q m g k
      if v = 0 then (if p && q then 0x8000 else 0)
      else
        let neg := decide (v < 0)
        let r := roundGrid fB16 .rne neg 0 { num := v.natAbs, e := k }
        let top := packMag fB16 fB16.maxK fB16.maxQ
        (if neg then 0x8000 else 0) + (if r.over fB16 then top + 1 else packMag fB16 r.k r.q)
    | _, _ => (fAdd a b).1.toNat / 2 ^ 16

/-- An element after a reduction (R318): the old value first. -/
def reduceElem (red : Reduce) (old new : Nat) : Nat :=
  let a := BitVec.ofNat 32 old
  let b := BitVec.ofNat 32 new
  match red with
  | .none => new
  | .addf => (fAdd a b).1.toNat
  | .addb => addB16 old new
  | .addi => (a + b).toNat
  | .maxf => (fMinMax true a b).1.toNat

/-- Bytes after a reduction, k elements of w bytes each (R318). -/
def reduceBytes (red : Reduce) (w : Nat) : Nat → List Byte → List Byte → List Byte
  | 0, _, _ => []
  | k + 1, old, new =>
    leBytes w (reduceElem red (leNat (old.take w)) (leNat (new.take w)))
      ++ reduceBytes red w k (old.drop w) (new.drop w)

/-- The homes that a remote word's writes and reads reach, through the phase pairs of its snapshot
(R142, R374). -/
def Remote.loc (r : Remote) (s : State) (k : Acc) : Loc :=
  locate (s.updVis fun v => { v with ph := r.ph }) (.eng .copy) k

/-- Write bytes over the rows of a stream register, in row order. -/
def writeRows (s : State) (l : Loc) (st : StReg) (bs : List Byte) : State :=
  ((List.range st.rows.toNat).foldl (fun (x : State × List Byte) r =>
    (writeRange x.1 l (x.1.core.rowAddr st r) (x.2.take st.rbytes.toNat), x.2.drop st.rbytes.toNat))
    (s, bs)).1

/-- What an RRECV writes (R318). -/
def deliverRecv (r : Remote) (data : List Byte) (s : State) : State :=
  let w := reduceSize r.reduce
  let bs := if r.reduce = .none then data
    else reduceBytes r.reduce w (r.len / w)
      (readRows s (r.loc s .read) r.st 0 r.st.rows.toNat).flatten data
  writeRows s (r.loc s .write) r.st bs

/-- Size of the element access at an address with n bytes left of its row (R310). -/
def elemSize (a n : Nat) : Nat :=
  if a % 8 = 0 ∧ 8 ≤ n then 8 else if a % 4 = 0 ∧ 4 ≤ n then 4 else if a % 2 = 0 ∧ 2 ≤ n then 2 else 1

/-- Sizes of the element accesses of n bytes from an address, at most `fuel` of them (R310). -/
def elemSizes : Nat → Nat → Nat → List Nat
  | 0, _, _ => []
  | fuel + 1, a, n => if n = 0 then [] else elemSize a n :: elemSizes fuel (a + elemSize a n) (n - elemSize a n)

/-- Sizes of the destination elements of an RRECV, in row order (R310, R318). -/
def Remote.elems (r : Remote) (c : Core) : List Nat :=
  if r.reduce = .none then
    (List.range r.st.rows.toNat).flatMap fun j =>
      elemSizes r.st.rbytes.toNat (c.rowAddr r.st j) r.st.rbytes.toNat
  else List.replicate (r.len / reduceSize r.reduce) (reduceSize r.reduce)

/-- Elements of a matched RRECV that ends without its last byte (R279): each is old, or new from the
bytes that have come for it, if all of them have; which, is free. -/
def partElems (red : Reduce) (keep : Nat → Bool) : List Nat → List Byte → List Byte → List Byte
  | [], _, _ => []
  | w :: t, old, new =>
    (if keep t.length ∨ new.length < w then old.take w
      else leBytes w (reduceElem red (leNat (old.take w)) (leNat (new.take w))))
      ++ partElems red keep t (old.drop w) (new.drop w)

/-- The first uncorrectable error that an RRECV's destination holds (R379). -/
def Remote.badOld (r : Remote) (s : State) : Option (Space × Nat) :=
  firstBad s (r.loc s .read) (s.core.rowRanges r.st 0 r.st.rows.toNat)

/-- Change a port. -/
def State.modPort (s : State) (p : Fin 32) (f : Port → Port) : State :=
  { s with sys := { s.sys with ports := s.sys.ports.set p.val (f s.sys.ports[p]) p.isLt } }

/-- Flits that carry n bytes (R387, log 83). -/
def flitsFor (n : Nat) : Nat := (n + 243) / 244

/-- Flits on a port that are of RRECVs posted before one, of any core (R387): data come in order. -/
def Remote.flitsBefore (r : Remote) (s : State) : Nat :=
  (((s.core :: s.others).flatMap fun c => (c.cp.remote.filter (·.matched)) ++ c.cp.gone).filterMap fun x =>
    if x.op = .recv ∧ x.port = r.port ∧ x.posted < r.posted then some (flitsFor x.len) else none).sum

/-- The payloads that have come for an RRECV that has still to get its last byte, oldest first (R279, R387). -/
def Remote.flits (r : Remote) (s : State) : List (List Byte) :=
  match r.port with
  | some p => (s.sys.ports[p].got.drop (r.flitsBefore s)).take (flitsFor r.len)
  | none => []

/-- A matched RRECV that ends without its last byte leaves each destination element its old value or one
that the transfer delivered (R279, R319); where the destination holds an uncorrectable error, none is written
(log 88). -/
def partRecv (r : Remote) (s : State) : State :=
  if r.op = .recv ∧ r.matched ∧ (r.badOld s).isNone then
    let (m, s1) := s.pick (2 ^ r.len)
    let old := (readRows s1 (r.loc s1 .read) r.st 0 r.st.rows.toNat).flatten
    writeRows s1 (r.loc s1 .write) r.st (partElems r.reduce (fun i => m.testBit i) (r.elems s1.core) old
      ((r.flits s).flatten.take r.len))
  else s

/-- A remote word of the acting core ends without having done its work. -/
def State.dropRemote (s : State) (r : Remote) (status reason : Nat) : State :=
  (partRecv r s).upd fun c => c.endRemote r status reason

/-- What has come for an RRECV whose data ends without its last byte leaves its port (R387, log 75). -/
def dropFlits (r : Remote) (s : State) : State :=
  match r.port with
  | some p => s.modPort p fun x => { x with
      got := x.got.take (r.flitsBefore s) ++ x.got.drop (r.flitsBefore s + (r.flits s).length) }
  | none => s

/-- The oldest n bytes that a port has taken in order, if they have all come (R387). -/
def Port.data (p : Port) (n : Nat) : Option (List Byte) :=
  if flitsFor n ≤ p.got.length then some ((p.got.take (flitsFor n)).flatten.take n) else none

/-- What has come for a remote word is taken from its port (R387). -/
def takeData (r : Remote) (s : State) : State :=
  match r.port with
  | some p => s.modPort p fun x => { x with got := x.got.drop (flitsFor r.len) }
  | none => s

/-- The bytes that have come for a remote word over its port (R387). -/
def Remote.came (r : Remote) (s : State) : Option (List Byte) := r.port.bind fun p => s.sys.ports[p].data r.len

/-- The end of an RSEND (R317, R319): a match of another length records a refusal. -/
def endSend (r : Remote) (len : Nat) (s : State) : State :=
  if r.len ≠ len then s.upd fun c => c.endRemote r 3 4
  else if r.sent = r.len then s.upd fun c => c.endRemote r 0 0
  else s

/-- The end of an RRECV whose data has come over its port (R318, R319, R387). An uncorrectable error among the old
values that a reduction reads is consumed (R379). -/
def endRecv (r : Remote) (data : List Byte) (s : State) : State :=
  if r.came s ≠ some data then s
  else match (if r.reduce = .none then none else r.badOld s) with
  | some b => silentError { cause := 0x13, info := BitVec.ofNat 64 (b.1.whereNum + 4 * 2 ^ 8)
                            addr := BitVec.ofNat 48 b.2, origin := 4 } s
  | none => (deliverRecv r data (takeData r s)).upd fun c => c.endRemote r 0 0

/-- The word posted first of some. -/
def firstPosted : List Remote → Option Remote
  | [] => none
  | g :: t => match firstPosted t with
    | some h => if h.posted < g.posted then some h else some g
    | none => some g

/-- The word that has timed out and that the end that comes belongs to: the oldest, if it was posted before the oldest
word that could end (R317, R356). -/
def CopyEng.goneFirst (x : CopyEng) (op : RemoteOp) (peer : BitVec 13) (tag : BitVec 16) (live : Option Remote) :
    Option Remote :=
  (firstPosted (x.gone.filter fun g => g.isFor op peer tag)).filter fun g =>
    live.all fun r => decide (g.posted ≤ r.posted)

/-- REMOTE_END (R319): an RRECV's data has arrived, or an RSEND's last flit has been acknowledged. Ends come in
posting order; that of a word that has timed out after its match ends no other word (R356). -/
def execRemoteEnd (op : RemoteOp) (peer : BitVec 13) (tag : BitVec 16) (len : Nat) (data : List Byte)
    (s : State) : Out :=
  let live := s.core.cp.remote.find? fun r => r.isFor op peer tag && (decide (op = .send) || r.matched)
  match s.core.cp.goneFirst op peer tag live, live with
  | some g, _ =>
    .next ((if op = .recv then takeData g s else s).upd fun c => { c with cp := { c.cp with
      gone := c.cp.gone.erase g } }).pass
  | none, none => .next s.pass
  | none, some r => match op with
    | .send => .next (endSend r len s).pass
    | .recv => .next (if r.len = len then endRecv r data s else s).pass

/-- Whether a remote word has passed its time-out (R316, R319): what arrives on the tick of the time-out
is taken first (R357). -/
def Remote.timedOut (r : Remote) (tick : Nat) : Bool :=
  decide (r.rto ≠ 0) && decide (r.posted + 1024 * r.rto.toNat < tick)

/-- A word that times out: the end of one that was matched may still come (R356). Whether the other end had
matched an RSEND, and whether it ends the RSEND that an RRECV had met, is free (log 75). -/
def leaveGone (r : Remote) (s : State) : State :=
  if r.op = .send ∨ r.matched then
    let (k, s) := s.pick 2
    if k = 0 then (if r.op = .recv then dropFlits r s else s)
    else s.upd fun c => { c with cp := { c.cp with gone := c.cp.gone ++ [r] } }
  else s

/-- An RSEND of another module, the k-th that waits for a peer and tag, has timed out before its match and takes no
further part (R356). -/
def withdraw (peer : BitVec 13) (tag : BitVec 16) (k : Nat) (s : State) : State :=
  let mine := s.core.cp.arrived.zipIdx.filter fun a => decide (a.1.1 = peer) && decide (a.1.2.1 = tag)
  match mine[k]? with
  | some (_, i) => s.upd fun c => { c with cp := { c.cp with arrived := c.cp.arrived.eraseIdx i } }
  | none => s

/-- REMOTE_TIMEOUT (R319, R356): an unmatched word is withdrawn; the word records a time-out. -/
def execRemoteTimeout (s : State) : Out :=
  match s.core.cp.remote.find? (·.timedOut s.core.tick) with
  | none => .next s.pass
  | some r => .next (leaveGone r (s.dropRemote r 1 1)).pass

/-- Apply a change of the acting core's state to another core in its own context. -/
def State.asCore (s : State) (k : Nat) (f : State → State) : State :=
  if s.core.id.num = k then f s
  else match s.others.find? (fun c => c.id.num == k) with
    | none => s
    | some c =>
      let t := f { s with core := c, others := s.others.map fun d => if d.id.num = k then s.core else d }
      match t.others.find? (fun d => d.id.num == s.core.id.num) with
      | none => s
      | some mine => { t with
          core := mine
          others := t.others.map fun d => if d.id.num = s.core.id.num then t.core else d }

/-- Numbers of the cores, the acting one and the others. -/
def State.coreNums (s : State) : List Nat := s.core.id.num :: s.others.map (·.id.num)

/-- The remote words of the acting core that meet a test end; what has come for them leaves their ports. -/
def State.dropWhere (s : State) (test : Remote → Bool) (status reason : Nat) : State :=
  (s.core.cp.remote.filter test).foldl (fun s r =>
    let t := s.dropRemote r status reason
    if r.op = .recv ∧ r.matched then dropFlits r t else t) s

/-- ROUND_ABANDON (R319): when the peer is a reduction switch, every rank's words with the tag end
abandoned. -/
def execRoundAbandon (peer : BitVec 13) (tag : BitVec 16) (s : State) : Out :=
  let tn := s.core.ctl.regs.tenant
  if (s.peer tn peer).getLsbD 1 then
    .next (s.coreNums.foldl (fun s k => s.asCore k fun s =>
      if s.core.ctl.regs.tenant = tn then
        s.dropWhere (fun r => decide (r.peer = peer) && decide (r.tag = tag)) 2 2
      else s) s).pass
  else .next s.pass

/-! ### Batches (R282, R283, R323) -/

/-- A request whose element is found: home, offset, id, function, value, address. -/
structure Req where
  sp : Space
  off : Nat
  id : Nat
  fn : AtomV
  value : Word
  addr : VAddr := 0
  deriving DecidableEq, Repr

/-- The requests of the first closed part of a core, at their homes. -/
def coreReqs (s : State) (c : Core) : List Req :=
  match c.cp.closed with
  | [] => []
  | p :: _ => p.filterMap fun x =>
    match locate { s with core := c } (.eng .copy) .atomic x.2.addr.toNat with
    | .ok (sp, off) => some { sp := sp, off := off, id := x.1, fn := x.2.fn, value := x.2.value, addr := x.2.addr }
    | .error _ => none

/-- Insert a request in ascending id, a stable order. -/
def insertReq (r : Req) : List Req → List Req
  | [] => [r]
  | x :: t => if r.id < x.id then r :: x :: t else x :: insertReq r t

/-- Requests in ascending id. -/
def sortReqs (l : List Req) : List Req := l.foldl (fun a r => insertReq r a) []

/-- An element after one request (R282). -/
def applyReq (acc : Word) (r : Req) : Word :=
  match r.fn with
  | .addf => (fAdd acc r.value).1
  | .addi => acc + r.value
  | .maxf => (fMinMax true acc r.value).1
  | .minf => (fMinMax false acc r.value).1
  | .addfs => acc

/-- The elements that requests name, each once. -/
def reqElems (l : List Req) : List (Space × Nat) := (l.map fun r => (r.sp, r.off)).eraseDups

/-- The requests for an element. -/
def forElem (l : List Req) (e : Space × Nat) : List Req :=
  l.filter fun r => decide (r.sp = e.1) && decide (r.off = e.2)

/-- One element takes its final value with one write (R283). -/
def applyElem (l : List Req) (s : State) (e : Space × Nat) : State :=
  let old := BitVec.ofNat 32 (leNat (s.readAt e.1 e.2 4))
  s.writeAt e.1 e.2 (leBytes 4 ((forElem l e).foldl applyReq old).toNat)

/-- Whether two requests for one element carry different functions (R323). -/
def mixed (l : List Req) : Bool :=
  (reqElems l).any fun e => match forElem l e with
    | [] => false
    | r :: t => t.any fun x => decide (x.fn ≠ r.fn)

/-- Clear the wait of the oldest `.END` word (R323). -/
def clearBatch : List Issued → List Issued
  | [] => []
  | w :: t => if w.batch then { w with batch := false } :: t else w :: clearBatch t

/-- A core's part leaves; the word that closed it may retire; a refused batch pushes a record. -/
def Core.endBatch (c : Core) (reason : Nat) : Core :=
  let n := (c.cp.closed.head?.map (·.length)).getD 0
  let c := { c with
    cp := { c.cp with closed := c.cp.closed.tail }
    copy := { c.copy with issued := clearBatch c.copy.issued } }
  if reason = 0 then c else c.pushRecord (cqRecord 2 0 0 n 3 reason)

/-- The requests of the batch that closes next (R282). -/
def batchReqs (s : State) : List Req := sortReqs (coreReqs s s.core ++ s.gangOthers.flatMap (coreReqs s))

/-- The dies on which a batch needs a buffer (R285). -/
def sortDies (l : List Req) : List (Fin 4) :=
  (List.finRange 4).filter fun d => l.any fun r => decide (r.fn = .addf) && decide (r.sp = .hbm)
    && decide (r.off / 2 ^ 37 = d.val)

/-- The buffer of the gang's next batch on a die (R285). -/
def State.nextBuf (s : State) (d : Fin 4) : SortBuf :=
  { die := d, tn := s.core.ctl.regs.tenant, gang := s.core.ctl.regs.gang, batch := 0 }

/-- Whether the next batch has, or can take, a buffer on every die it needs one on (R285). -/
def buffersReady (s : State) (l : List Req) : Bool :=
  (sortDies l).all fun d => s.sys.sort.contains (s.nextBuf d)
    || decide (s.buffersUsed d s.core.ctl.regs.tenant < s.sys.tenants[s.core.ctl.regs.tenant].bufs[d])

/-- The buffers of the gang's batch that has been written are free (R285); the gang's later batches move
up. -/
def freeBuffers (g : BitVec 16) (s : State) : State :=
  let rest := s.sys.sort.filter fun b => !(decide (b.gang = g) && decide (b.batch = 0))
  let up (b : SortBuf) : SortBuf := if b.gang = g then { b with batch := b.batch - 1 } else b
  { s with sys := { s.sys with sort := rest.map up } }

/-- The request whose element holds an uncorrectable error, the first (R379). -/
def badReq (s : State) (l : List Req) : Option Req := l.find? fun r => s.badAt r.sp r.off 4

/-- The core of the acting core's gang that a request is of, by its rank (R282). -/
def reqCore (s : State) (r : Req) : Option Core :=
  (s.core :: s.gangOthers).find? fun c => decide (c.ctl.regs.grank.toNat = r.id / 2 ^ 16)

/-- Whether the close of a batch can meet its first uncorrectable error: the core that consumes it acts, runs in bank 0
and has met none (R360, R377, log 89). -/
def badReady (s : State) (l : List Req) : Bool :=
  match (badReq s l).bind (reqCore s) with
  | some c => decide (c.id = s.core.id) && decide (c.ctl.run = .running) && !c.ctl.bank1 && !c.phase.rollback
  | none => true

/-- Whether every rank of the acting core's gang has closed its part (R282), and the batch has its buffers
(R285). -/
def batchReady (s : State) : Bool :=
  !s.core.cp.closed.isEmpty && s.gangOthers.all (fun c => !c.cp.closed.isEmpty)
    && buffersReady s (batchReqs s) && badReady s (batchReqs s)

/-- The part of a core that has been saved already, as its gang's pre-emption goes on, leaves its record too (R283,
R347). -/
def endSaved (reason : Nat) (s : State) : State :=
  match s.taskOf s.core with
  | none => s
  | some t => s.modTask t.id fun t => { t with
      saved := t.saved.map fun c => if c.cp.closed.isEmpty then c else c.endBatch reason }

/-- BATCH_CLOSE (R283, R323): the batch is applied in id order, each element written once, or it is
refused whole (one that breaks both limits with REASON 5, log 90); its buffers are free again (R285). An uncorrectable
error among the old values is consumed by the core of the request (R379). -/
def execBatchClose (s : State) : Out :=
  if !batchReady s then .next s.pass
  else
    let l := batchReqs s
    let reason := if 65536 < l.length then 5 else if mixed l then 6 else 0
    match (if reason = 0 then (badReq s l).bind fun r => (reqCore s r).map fun c => (r, c) else none) with
    | some (r, c) =>
      .next (s.asCore c.id.num (silentError {
        cause := 0x13, info := BitVec.ofNat 64 (r.sp.whereNum + 4 * 2 ^ 8), addr := r.addr
        origin := 4 })).pass
    | none =>
    let s1 := if reason = 0 then (reqElems l).foldl (applyElem l) s else s
    let s2 := (freeBuffers s.core.ctl.regs.gang s1).onGang (fun _ => true) fun s =>
      s.upd fun c => c.endBatch reason
    .next (endSaved reason s2).pass

/-! ### Module ports (R387) -/

/-- Whether a flit's CRC holds (R387). -/
def flitOk (b : List Byte) : Bool :=
  decide (leNat ((b.drop 252).take 4) = (crc32 (b.take 252)).toNat)

/-- SEQ of a flit. -/
def flitSeq (b : List Byte) : Nat := leNat (b.take 2)
/-- ACK of a flit. -/
def flitAck (b : List Byte) : Nat := leNat ((b.drop 2).take 2)
/-- TYPE of a flit. -/
def flitType (b : List Byte) : Nat := leNat ((b.drop 4).take 1)

/-- An acknowledgement frees every kept flit up to it (R387): a flit is acknowledged when its
sequence number is at most 32,767 behind ACK, modulo 65,536. -/
def Port.acked (p : Port) (a : Nat) : Port :=
  let keep := p.unacked.filter fun f => decide (2 ^ 15 ≤ (a + 2 ^ 16 - flitSeq f) % 2 ^ 16)
  if keep.length < p.unacked.length then { p with unacked := keep, retries := 0, resent := false } else p

/-- A flit whose CRC fails is discarded and a retry from the first missing SEQ is asked for; one that fails after a retry
has been asked for is a failed retry (R387, log 100). -/
def Port.lost (p : Port) : Port :=
  { p with retryWanted := true, asked := false, failed := if p.asked then p.failed + 1 else p.failed }

/-- The payload of the flit that the receiver expects is taken; another is not in order and has a retry asked for
(log 100). -/
def Port.take (p : Port) (b : List Byte) : Port :=
  if flitSeq b = p.rxSeq then
    { p with rxSeq := (p.rxSeq + 1) % 2 ^ 16, got := p.got ++ [(b.drop 8).take 244]
             retryWanted := false, asked := false, failed := 0 }
  else { p with retryWanted := true }

/-- DATA_FLIT (R387). -/
def execDataFlit (port : Fin 32) (b : List Byte) (s : State) : Out :=
  .next (s.modPort port fun p =>
    if !p.up then p
    else if !flitOk b || decide (flitType b ≠ 1) then p.lost
    else (p.acked (flitAck b)).take b).pass

/-- IDLE_FLIT (R387). -/
def execIdleFlit (port : Fin 32) (b : List Byte) (s : State) : Out :=
  .next (s.modPort port fun p =>
    if !p.up then p
    else if !flitOk b || decide (flitType b ≠ 0) then p.lost
    else p.acked (flitAck b)).pass

/-- RETRY_REQUEST (R387): the sender resends what is not acknowledged; a request counts for the oldest flit it keeps,
the first and each that comes after that flit has gone out again. -/
def execRetryRequest (port : Fin 32) (b : List Byte) (s : State) : Out :=
  .next (s.modPort port fun p =>
    if !p.up then p
    else if !flitOk b || decide (flitType b ≠ 2) then p.lost
    else
      let p := p.acked (flitAck b)
      let counts := !p.unacked.isEmpty && (decide (p.retries = 0) || p.resent)
      { p with resend := p.unacked, resent := false, retries := if counts then p.retries + 1 else p.retries }).pass

/-- A flit: SEQ, ACK, TYPE, the payload padded with zeros, the CRC. -/
def flitOf (seq ack ty : Nat) (pay : List Byte) : List Byte :=
  let h := leBytes 2 seq ++ leBytes 2 ack ++ leBytes 1 ty ++ leBytes 3 0
    ++ (pay ++ List.replicate (244 - pay.length) 0).take 244
  h ++ leBytes 4 (crc32 h).toNat

/-- The last SEQ received in order. -/
def Port.ack (p : Port) : Nat := (p.rxSeq + 65535) % 65536

/-- A port puts a flit on the wire: a retry request from the first missing SEQ, a flit to send again, or an
idle flit with its acknowledgement (R387; SEQ of the first and the last, log 54). -/
def Port.emit (p : Port) : Port :=
  if !p.up then p
  else if p.retryWanted then { p with wire := flitOf p.rxSeq p.ack 2 [], retryWanted := false, asked := true }
  else match p.resend with
    | f :: t => { p with wire := f, resend := t, resent := p.resent || decide (p.unacked.head? = some f) }
    | [] => { p with wire := flitOf p.txSeq p.ack 0 [] }

/-- A port sends a new data flit and keeps it (R387). -/
def Port.send (p : Port) (pay : List Byte) : Port :=
  let f := flitOf p.txSeq p.ack 1 pay
  { p with wire := f, txSeq := (p.txSeq + 1) % 65536, unacked := p.unacked ++ [f] }

/-- The RSEND of the acting core that sends its next flit: data go in order over the port (R387). -/
def Core.sending (c : Core) : Option (Remote × Fin 32) :=
  (c.cp.remote.find? fun r => decide (r.op = .send) && decide (r.sent < r.len) && r.port.isSome).bind
    fun r => r.port.map fun p => (r, p)

/-- Ranges without their first a bytes, n bytes of them. -/
def sliceRanges : Nat → Nat → List (Nat × Nat) → List (Nat × Nat)
  | _, _, [] => []
  | a, n, r :: t =>
    let k := min n (r.2 - a)
    let rest := sliceRanges (a - r.2) (n - k) t
    if k = 0 then rest else (r.1 + a, k) :: rest

/-- The next 244 bytes of an RSEND's source go out in a flit (R318, R319, R387), behind the flits that go out again; an
uncorrectable error among them is consumed (R379). A handler does not stop it (R325). -/
def sendFlit (s : State) : State :=
  match s.core.sending with
  | none => s
  | some (r, p) =>
    let l := r.loc s .read
    let rs := sliceRanges r.sent 244 (s.core.rowRanges r.st 0 r.st.rows.toNat)
    if !s.sys.ports[p].up || !s.sys.ports[p].resend.isEmpty then s
    else match firstBad s l rs with
    | some b => silentError { cause := 0x13, info := BitVec.ofNat 64 (b.1.whereNum + 4 * 2 ^ 8)
                              addr := BitVec.ofNat 48 b.2, origin := 4 } s
    | none =>
      let bs := ((readRows s l r.st 0 r.st.rows.toNat).flatten.drop r.sent).take 244
      let f (x : Remote) : Remote := if x = r then { x with sent := r.sent + bs.length } else x
      (s.modPort p fun x => x.send bs).upd fun c => { c with cp := { c.cp with
        remote := c.cp.remote.map f } }

/-- Whether a remote word is in flight on a port (R387): an RSEND carries its data, an RRECV once
matched. -/
def Remote.rides (r : Remote) (port : Fin 32) : Bool :=
  decide (r.port = some port) && (decide (r.op = .send) || r.matched)

/-- The words of the acting core that ride on a port end abandoned. -/
def State.portLost (s : State) (port : Fin 32) : State := s.dropWhere (·.rides port) 2 7

/-- Whether 8 retries of one flit have failed (R387): of a flit sent, which a ninth request for it shows, or of one to
come. -/
def Port.broken (p : Port) : Bool := p.up && (decide (9 ≤ p.retries) || decide (8 ≤ p.failed))

/-- PORT_DOWN (R387, R319): after 8 failed retries of one flit the port
goes down, its remote words end abandoned, and the event is logged in the management log. -/
def execPortDown (port : Fin 32) (s : State) : Out :=
  if !s.sys.ports[port].broken then .next s.pass
  else
  let s1 := s.modPort port fun p => { p with up := false, unacked := [], resend := [] }
  let s2 := s1.coreNums.foldl (fun s k => s.asCore k fun s => s.portLost port) s1
  let bs := errorBytes 3 s.core.id.die.val 0 0 0 0 (BitVec.ofNat 64 port.val) (s.dieTick s.core.id.die)
  .next (s2.note bs).pass

end Sys2Proof.Machine
end

