-- ==== Sys2Proof/Machine/Save.lean ====
section
/-! DEFINITION. The save area (R348): the record of a core as bytes, region by region. Within a region the
spec gives the contents and no places; they stand in the order in which it lists them (log 15). -/

namespace Sys2Proof.Machine

/-! ### Values as bytes -/

/-- A flag. -/
def flagByte (b : Bool) : List Byte := [if b then 1 else 0]

/-- Bits, packed from bit 0 on. -/
def flagBits : Nat → List Bool → List Byte
  | n, l => leBytes n (l.foldr (fun b a => 2 * a + (if b then 1 else 0)) 0)

/-- A counted list. -/
def countedBytes {α : Type} (f : α → List Byte) (l : List α) : List Byte :=
  leBytes 2 l.length ++ l.flatMap f

/-- Something that may be absent. -/
def optBytes {α : Type} (f : α → List Byte) (x : Option α) : List Byte :=
  match x with
  | none => [0]
  | some v => 1 :: f v

/-- Lanes (R217). -/
def lanesBytes (v : Lanes) : List Byte := v.toList.flatMap fun x => leBytes 4 x.toNat

/-- An entry of an operand or result queue (R160). -/
def laneEntryBytes (x : LaneEntry) : List Byte :=
  lanesBytes x.lanes ++ leBytes 8 x.mask.toNat ++ leBytes 1 x.fmt.toNat
    ++ leBytes 2 (match x.residue with
      | some r => r
      | none => 0xFFFF)

/-- An exact sum: kind and sign, exponent, magnitude (R194, R257). -/
def sumBytes (v : EVal) : List Byte :=
  match v with
  | .nan sig => leBytes 16 (if sig then 1 else 2)
  | .inf neg => leBytes 16 (if neg then 3 else 4)
  | .fin n e => leBytes 1 (if n < 0 then 6 else 5) ++ leBytes 3 (BitVec.ofInt 24 e).toNat
      ++ leBytes 12 n.natAbs

/-! ### The jig -/

/-- The gang tick at which the entry that a replay stands at falls due (R263, R307). -/
def Replay.due (p : Replay) (j : Jig) : Nat :=
  p.since + ((nextEntry j.entries p.next).2.map fun e => entBits e 4 16).getD 0

/-- The directory of the jig being replayed and the cursor: the next entry and the gang tick at which it falls due
(R307, R308). -/
def cursorBytes (j : JigStore) : List Byte :=
  match j.play with
  | none => []
  | some p =>
    let x := j.jig[p.jig]
    leBytes 1 p.jig.val ++ leBytes 8 x.key.toNat ++ leBytes 2 x.entries.length ++ leBytes 2 p.next
      ++ leBytes 8 (p.due x)

/-- The jig being replayed (R308): entries, directory, cursor. A jig of 16,384 entries fills the region by itself, so
directory and cursor stand with the control state too (log 15). -/
def saveJig (j : JigStore) : List Byte :=
  match j.play with
  | none => []
  | some p => (j.jig[p.jig].entries.flatMap fun e => leBytes 16 e.toNat) ++ cursorBytes j

/-! ### The header and bank 0 -/

/-- The header (R348). -/
def saveHeader (c : Core) (slot : Nat) : List Byte :=
  let r := c.ctl.regs
  leBytes 4 0x53564131 ++ leBytes 4 slot ++ leBytes 4 r.grank.toNat ++ leBytes 4 r.gsize.toNat
    ++ leBytes 8 r.epc0.toNat ++ leBytes 8 r.epc1.toNat ++ leBytes 8 r.epc2.toNat
    ++ leBytes 8 r.enul.toNat ++ leBytes 8 c.heldTick ++ leBytes 4 (match c.ctl.lastMark with
      | some m => m.toNat
      | none => 0xFFFFFFFF)
    ++ leBytes 4 c.stall.slip.toNat

/-- The stream position (R260). -/
def streamBytes (d : Stream) : List Byte :=
  leBytes 8 d.header.toNat ++ leBytes 2 d.next ++ leBytes 2 (d.granted - d.next)
    ++ leBytes 2 (min d.slip 0xFFFF)

/-- Where a saved core had arrived at a barrier or an event (R348, R350). -/
def arrivalBytes : Option Arrival → List Byte
  | some (.bar id _) => 1 :: leBytes 2 id.val
  | some (.plumb m _ _) => 2 :: leBytes 2 m.toNat
  | some (.rft _ _) => 3 :: leBytes 2 0
  | some (.waitev ev _) => 4 :: leBytes 2 ev
  | none => 0 :: leBytes 2 0

/-- The state of a landing slot (R293): its format, or 0xFF when it is empty. -/
def slotState (x : Option (BitVec 4 × List Byte)) : List Byte :=
  match x with
  | some (f, _) => leBytes 1 f.toNat
  | none => [0xFF]

/-- Bank-0 registers with their taint bits, special registers, control queues, barrier state, the stream
position, and the states of the landing slots and of the replay, whose own regions can be full (R36, R38, R348). -/
def saveControl (s : State) : List Byte :=
  let c := s.core
  let q := c.q
  c.ctl.b0.g.toList.flatMap (fun v => leBytes 8 v.toNat)
    ++ c.ctl.b0.s.toList.flatMap (fun x => leBytes 8 x.image.toNat)
    ++ flagBits 4 c.ctl.taintG.toList ++ flagBits 2 c.ctl.taintC.toList
    ++ flagBits 2 c.ctl.taintT.toList
    ++ ((List.range 0x3C0).filter srAssigned).flatMap (fun n => leBytes 8 (s.readSR n).toNat)
    ++ countedBytes (fun x => leBytes 8 x.1.toNat ++ leBytes 8 x.2.toNat) q.pq
    ++ countedBytes (fun w => leBytes 4 w.toNat) q.rq0 ++ countedBytes (fun w => leBytes 4 w.toNat) q.rq1
    ++ countedBytes (fun w => leBytes 8 w.toNat) q.cq
    ++ countedBytes (fun w => leBytes 8 w.toNat) q.cqPend
    ++ countedBytes (fun w => leBytes 8 w.toNat) q.wsq
    ++ countedBytes (fun x => leBytes 8 x.value.toNat) q.xq
    ++ countedBytes (fun w => leBytes 8 w.toNat) q.mboxOut
    ++ countedBytes (fun w => leBytes 8 w.toNat) q.mboxIn
    ++ arrivalBytes c.ctl.arrival ++ optBytes streamBytes c.sd
    ++ c.land.slot.toList.flatMap slotState ++ cursorBytes c.jig

/-! ### Queue entries with their snapshots (R142, R162) -/

/-- The stream registers that a word names. -/
def namedSt : Instr → List (Fin 16)
  | .ldt _ _ st _ _ => [st]
  | .ldq _ _ st => [st]
  | .ldsc _ _ st => [st]
  | .ldx _ _ st _ _ => [st]
  | .lgath _ _ st _ => [st]
  | .ladv _ st _ => [st]
  | .epset _ _ st => [st]
  | .epcon _ _ st => [st]
  | .sdopen st => [st]
  | .copy _ d s => [d, s]
  | .sqst _ d => [d]
  | .xsend _ s _ _ _ => [s]
  | .rsend _ s _ _ => [s]
  | .rrecv _ d _ _ _ => [d]
  | .atomv _ st _ _ _ => [st]
  | _ => []

/-- A stream register (R151). -/
def stBytes (x : StReg) : List Byte :=
  (List.range 16).flatMap fun k => leBytes (if k = 0 ∨ k = 6 ∨ k = 15 then 6 else 4) (x.field k).toNat

/-- The levels of a nest table (R154). -/
def levelBytes (t : NestTab) : List Byte := (List.range 6).flatMap fun k => leBytes 8 (t.field (k + 1)).toNat

/-- A snapshot as far as a word can read it (R142): the stream registers and the nest table it names, and
the registers of the engines. -/
def snapBytes (i : Option Instr) (v : Vis) : List Byte :=
  (match i with
    | some (.mrun _ k _) => levelBytes v.nest[k]
    | some x => (namedSt x).flatMap fun k => stBytes v.st[k]
    | none => [])
    ++ leBytes 8 (cktolImage v.cktol).toNat ++ leBytes 4 v.mrctl.toNat ++ leBytes 8 v.tbase.toNat
    ++ leBytes 4 v.plumbmax.toNat ++ leBytes 2 v.guardW.toNat ++ leBytes 4 v.sliplim.toNat
    ++ flagByte v.strict ++ leBytes 4 v.rto.toNat ++ leBytes 2 v.peerbase.toNat ++ leBytes 2 v.peern.toNat
    ++ v.ascale.toList.flatMap (fun x => leBytes 1 x.toNat)
    ++ v.wpl.toList.flatMap (fun x => leBytes 6 x.toNat)
    ++ v.wph.toList.flatMap (fun x => leBytes 7 x.toNat) ++ leBytes 2 v.wpen.toNat
    ++ v.ph.toList.flatMap fun p => leBytes 3 p.base.toNat ++ leBytes 3 p.len.toNat ++ leBytes 6 p.src.toNat
        ++ leBytes 1 (p.field 3).toNat

/-- An entry of an engine queue, with the rows and indices it holds at a progress point (R143, R162). -/
def entryBytes (x : Entry) : List Byte :=
  leBytes 4 x.word.toNat ++ optBytes (fun w => leBytes 4 w.toNat) x.cont
    ++ optBytes (fun t => leBytes 1 t.1.val ++ leBytes 6 t.2) x.tag
    ++ leBytes 6 x.addr.toNat ++ flagByte x.started ++ leBytes 4 x.prog ++ flagByte x.wpskip
    ++ countedBytes (fun r => leBytes 2 r.1 ++ countedBytes (fun b => [b]) r.2) x.rows
    ++ optBytes laneEntryBytes x.index
    ++ snapBytes (match decode x.word.toNat (x.cont.map (·.toNat)) with
      | .ok i => some i
      | .error _ => none) x.snap

/-- An item of an engine queue. -/
def itemBytes : QItem → List Byte
  | .word x => 0 :: entryBytes x
  | .reg sr v => 1 :: (leBytes 2 sr.toNat ++ leBytes 8 v.toNat)

/-- A nest position (R108, R154). -/
def nestBytes (r : NestRun) : List Byte :=
  leBytes 6 r.addr.toNat ++ leBytes 2 r.n ++ leBytes 6 r.iter
    ++ (List.range 6).flatMap (fun l => leBytes 2 (r.cur.getD l 0)) ++ leBytes 2 r.next

/-- The queues of the engines, the token counts and the nest positions. -/
def saveQueues (c : Core) : List Byte :=
  [Engine.load, .matrix, .vector, .copy, .stream].flatMap (fun e => countedBytes itemBytes (c.eng e).queue)
    ++ c.tok.toList.flatMap (fun n => leBytes 1 n) ++ c.ctl.nestSaved.toList.flatMap (optBytes nestBytes)

/-! ### The vector engine and the matrix path -/

/-- The generator, the vector and predicate files, RRB, the queues of lanes, the deferral queue. -/
def saveVector (c : Core) : List Byte :=
  leBytes 16 c.vec.vrk.toNat ++ leBytes 16 c.vec.vrc.toNat ++ c.vec.v.toList.flatMap lanesBytes
    ++ c.vec.p.toList.flatMap (fun x => leBytes 8 x.toNat)
    ++ leBytes 1 (c.vec.vb.toNat + 16 * c.vec.pb.toNat)
    ++ c.q.vq.toList.flatMap (countedBytes laneEntryBytes) ++ countedBytes laneEntryBytes c.q.wq
    ++ countedBytes laneEntryBytes c.q.mq
    ++ countedBytes (fun x => leBytes 4 x.1.toNat ++ leBytes 4 x.2.1.toNat ++ leBytes 1 x.2.2.toNat) c.q.dq

/-- A decoded weight block (R257). -/
def blockBytes (b : WBlock) : List Byte :=
  leBytes 1 b.fmt.toNat ++ b.elems ++ b.x8 ++ leBytes 1 b.scnt ++ b.sums.flatMap sumBytes

/-- Tiles with shapes and sums, accumulators with type bits, epilogue slots and banks, the heap, the scale
FIFOs, the weight FIFO and SCF. -/
def saveMatrix (m : Matrix) : List Byte :=
  m.tiles.readN 0 0x40000 ++ m.shape.toList.flatMap (fun x => leBytes 4 x.image.toNat)
    ++ m.sums.toList.flatMap (fun x => countedBytes sumBytes x.rows ++ countedBytes sumBytes x.cols)
    ++ m.acc.readN 0 0x10000 ++ flagBits 1 m.accI.toList
    ++ m.epi.toList.flatMap (fun e => e.toList.flatMap fun w => leBytes 2 w.toNat)
    ++ m.bank.toList.flatMap lanesBytes
    ++ countedBytes (fun x => leBytes 4 x.1.toNat ++ leBytes 4 x.2.toNat) m.heap
    ++ countedBytes (countedBytes fun b => [b]) m.ascale ++ countedBytes (countedBytes fun b => [b]) m.bscale
    ++ countedBytes blockBytes m.wfifo
    ++ countedBytes (fun x => leBytes 1 x.1 ++ countedBytes (fun b => [b]) x.2) m.scf


/-! ### The record -/

/-- Write a region's contents, as much as the region holds. -/
def State.saveRegion (s : State) (a size : Nat) (bs : List Byte) : State := s.writeAt .hbm a (bs.take size)

/-- The bytes of a held copy, each piece at its place in the hold. -/
def savePieces (a : Nat) : List (Nat × Nat) → List Byte → State → State
  | [], _, s => s
  | p :: t, bs, s => savePieces a t (bs.drop p.2) (s.saveRegion (a + p.1) p.2 bs)

/-- The copy hold (R5, R312). -/
def saveHold (a : Nat) (c : Core) (s : State) : State :=
  c.cp.hold.foldl (fun s h => savePieces a h.pieces (h.writes.flatMap (·.bytes)) s) s

/-- The landing slots that are full, 4 KiB each. -/
def saveSlots (a : Nat) (c : Core) (s : State) : State :=
  (List.finRange 64).foldl (fun s k => match c.land.slot[k] with
    | some (_, bs) => s.saveRegion (a + 4096 * k.val) 4096 bs
    | none => s) s

/-- The save area of a task's rank (R348): with SAVE 0 that of the QSAVE which the queue holds now (log 105). -/
def saveAddr (s : State) (t : Task) (rank : Nat) : Nat :=
  (saveBase t.f (s.queue t.tn t.q)).toNat + rank * 0x800000

/-- The record of the acting core, in the layout of R348. -/
def writeSave (t : Task) (s : State) : State :=
  let c := s.core
  let a := saveAddr s t c.ctl.regs.grank.toNat
  let s1 := s.saveRegion a 0x1000 (saveHeader c t.f.slot.toNat)
  let s1 := s1.saveRegion (a + 0x1000) 0x10000 (saveControl s)
  let s1 := s1.saveRegion (a + 0x11000) 0x40000 (saveQueues c)
  let s1 := s1.saveRegion (a + 0x51000) 0x20000 (saveVector c)
  let s1 := s1.saveRegion (a + 0x71000) 0x80000 (saveMatrix c.mx)
  let s1 := saveHold (a + 0x131000) c (saveSlots (a + 0xF1000) c s1)
  let s1 := s1.saveRegion (a + 0x171000) 0x40000 (saveJig c.jig)
  s1.blitAt (.bench c.id.num) 0 benchSize .hbm (a + 0x1B1000)

end Sys2Proof.Machine
end

