-- ==== Sys2Proof/Machine/Delay.lean ====
section
/-! DEFINITION. When the unscheduled delays of a core have ended (R149, R254, R256, R294, R377). -/

namespace Sys2Proof.Machine

/-- The LLAND at the head of the load queue: its entry and slot. -/
def Core.headLand (c : Core) : Option (Entry × Fin 64) :=
  match c.load.queue with
  | .word x :: _ => (match decode x.word.toNat none with
    | .ok (.lland _ _ k) => some (x, k)
    | _ => none)
  | _ => none

/-- The late LLAND whose delay goes on (R294, R296): it stands at the head, and its slot has not filled since. -/
def Core.stillLate (c : Core) : Option (Entry × Fin 64) :=
  c.headLand.filter fun h => h.1.since.isSome && decide (c.stall.lateSlot = some h.2)

/-- Whether every delay of a core has ended. -/
def Core.delayOver (c : Core) : Bool :=
  c.stall.delays.isEmpty || (!c.phase.rollback
    && [Engine.load, .matrix, .vector, .copy, .stream].all (fun e => !(c.eng e).late)
    && (match c.sd with
      | none => true
      | some d => d.refetch.isEmpty && !d.late && !d.starved c)
    && c.stillLate.isNone)

end Sys2Proof.Machine
end

