-- ==== Sys2Proof/Machine/System.lean ====
section
/-! DEFINITION. Traps taken by words and the return from them (R110 to R112, R114, R16, R42), and
the events of the control core: entering a handler, companions, break requests, landed values,
illegal words and fetch faults (R13, R35, R44, R56, R362, R392). -/

namespace Sys2Proof.Machine

/-- TRAP (R110): cause 0x15 after the word has issued; in bank 1 a double fault (R35). -/
def execTrap (imm : BitVec 16) (s : State) : Out :=
  ctlWord [] s fun s0 =>
    let t : TrapRec := { cause := 0x15, info := imm.zeroExtend 64, addr := s0.core.nowAddr }
    if s0.core.ctl.bank1 then .trap t else .trapAfter s0 t

/-- BREAK (R111): cause 0x17 with EINFO 2; in bank 1 it is held (R35). -/
def execBrk (s : State) : Out :=
  ctlWord [] s fun s0 => .trapAfter s0 { cause := 0x17, info := 2, addr := s0.core.nowAddr }

/-- NOP (R114). -/
def execNop (_x : BitVec 23) (s : State) : Out := ctlWord [] s fun s0 => .issue s0

/-! ### Return -/

/-- The word that a watchpoint stopped is exempt until it issues (R368): the control core's own
word, or the head of the engine queue that ORIGIN names. -/
def Core.exempt (c : Core) : Core :=
  if !c.ctl.regs.wpskip then c
  else
    let head (q : List QItem) : List QItem := match q with
      | .word e :: t => .word { e with wpskip := true } :: t
      | q => q
    let c := { c with ctl := { c.ctl with regs := { c.ctl.regs with wpskip := false } } }
    match engineOf c.ctl.regs.origin.toNat with
    | some e => c.setEng e fun x => { x with queue := head x.queue }
    | none => { c with ctl := { c.ctl with skipEpc := true } }

/-- The PC queue that the trap-state registers hold (R16, R42). -/
def CtlRegs.epcQueue (r : CtlRegs) : PcQueue :=
  { q0 := { addr := r.epc0, nul := r.enul.getLsbD 0 }
    q1 := { addr := r.epc1, nul := r.enul.getLsbD 1 }
    q2 := { addr := r.epc2, nul := r.enul.getLsbD 2 } }

/-- Back to bank 0 (R16, R35, R112, R259, R261, R290): the stream resumes from EPC0 to EPC2 and ENUL, a
held cause is taken before its first word, others stay held, 0x16 while a user debug hook runs (R370); the core's
own stop is over, the overdue count restarts from the tick on which it resumes. -/
def Core.toBank0 (c : Core) : Core :=
  { c with
    ctl := { c.ctl with
      bank1 := false
      pend := []
      settling := []
      arrival := none
      nest := none
      pcq := c.ctl.regs.epcQueue
      posted := if c.ctl.regs.hook then c.ctl.held17.head? else c.ctl.held16.or c.ctl.held17.head?
      held16 := if c.ctl.regs.hook then c.ctl.held16 else none
      held17 := if !c.ctl.regs.hook && c.ctl.held16.isSome then c.ctl.held17 else c.ctl.held17.tail
      relTick := if c.ctl.plumbed then some (c.tick + 1) else none }
    stall := { c.stall with
      stopped := false, resumeAt := none, deferred := none, pulse := none
      progress := c.tick
      delays := if c.delayOver then [] else c.stall.delays }
    sd := c.sd.map fun x =>
      if x.reopen then { x with reopen := false, g0 := c.gtick, slip := 0 } else x }

/-- Whether the word RFT would resume from is misaligned (R42). -/
def CtlRegs.badEpc (r : CtlRegs) : Bool :=
  decide (r.epc0.toNat % 4 ≠ 0) || decide (r.epc1.toNat % 4 ≠ 0) || decide (r.epc2.toNat % 4 ≠ 0)

/-- Whether a core waits at RFT; one that a double fault has stopped waits for nothing (R35). -/
def Core.atRft (c : Core) : Bool :=
  decide (c.ctl.run = .running) && (match c.ctl.arrival with
    | some (.rft _ none) => true
    | _ => false)

/-- The word RFT. -/
def rftWord : Word := BitVec.ofNat 32 (encWord .rft)

/-- The core reaches RFT (R42, R112): where it would resume from a misaligned word the RFT is a double fault,
otherwise the core arrives. -/
def arriveRft (s : State) : State :=
  if s.core.ctl.regs.badEpc then doubleFault 0x03 rftWord s
  else s.updCtl fun c => { c with arrival := some (.rft s.core.gtick none) }

/-- The causes that end a task (R358): 0x05 ends it when its migration has failed. -/
def endingCause (c : BitVec 6) : Bool :=
  let n := c.toNat
  (1 ≤ n && n ≤ 6) || (9 ≤ n && n ≤ 0x14) || (0x18 ≤ n && n ≤ 0x1B)

/-- Whether the handler of a core holds a cause that ends the task (R298, R358): no RFT resumes its
gang. -/
def Core.ends (c : Core) : Bool :=
  c.ctl.bank1 && endingCause c.ctl.regs.ecause && !decide (c.ctl.regs.ecause = 0x05)

/-- Whether a re-plumb can be released (R112, R298): every core of the gang that has not retired waits at
its RFT, and no cause ends the task. A core that a gang stop has sent to its handler waits there in its
stop for the others to leave bank 1 (R350). -/
def rftReady (s : State) : Bool :=
  !s.core.ends && s.core.atRft
    && s.gangOthers.all fun c => (c.atRft && !c.ends)
      || (c.preempted && decide (c.ctl.run = .running)) || decide (c.ctl.run = .retired)

/-- A re-plumb is released: the core is to resume on a gang tick. If a delay of the gang still goes on, the
gang stops for it again 8 gang ticks on (R149). -/
def Core.releaseRft (v : Nat) (delayed : Bool) (c : Core) : Core :=
  match c.ctl.arrival with
  | some (.rft h _) => { c with
      ctl := { c.ctl with arrival := some (.rft h (some v)) }
      stall := { c.stall with stopAt := if delayed then some (v + 8) else none } }
  | _ => c

/-- A core resumes on the gang tick of the re-plumb (R112). -/
def Core.leaveRft (v : Nat) (c : Core) : Core :=
  { ({ c with gtick := v }).exempt.toBank0 with tick := c.tick + 1 }

/-- The release of a re-plumb: every core of the gang is to resume on one gang tick (R112). -/
def releaseRfts (s : State) : State :=
  let v := releaseTick s
  let delayed := !s.core.delayOver || s.gangOthers.any fun c => !c.delayOver
  s.onGang Core.atRft fun s => s.upd (Core.releaseRft v delayed)

/-- RFT (R112, R369): in bank 0 it traps with 0x02; with HOOK set it does not wait; otherwise it
re-plumbs when every core of the gang that has not retired has issued it, and each core resumes. -/
def execRft (s : State) : Out :=
  if !s.core.ctl.bank1 then .next (takeTrap (access 0x02 .rft 0 0 0) s).pass
  else match s.core.ctl.arrival with
  | some (.rft _ (some v)) => .next (s.upd (Core.leaveRft v)).pass
  | _ =>
    if s.core.ctl.regs.badEpc then .next (doubleFault 0x03 rftWord s).pass
    else if s.core.ctl.regs.hook then
      .next ((s.upd fun c => { c.toBank0 with tick := c.tick + 1 })).pass
    else
      let s1 := if s.core.atRft then s
        else s.updCtl fun c => { c with arrival := some (.rft s.core.gtick none) }
      if rftReady s1 then .next ((releaseRfts s1).upd (Core.leaveRft (releaseTick s1))).pass
      else .next s1.ticked

/-! ### Events of the control core -/

/-- VALUE_LANDED (R44, R12): the awaited value has landed and the next word may issue. -/
def execValueLanded (s : State) : Out :=
  .next ((s.updCtl fun c => { c with awaiting := false }).upd Core.tickOn).pass

/-- TRAP_ENTRY (R362): a posted cause is taken at the word boundary. -/
def execTrapEntry (s : State) : Out :=
  match s.core.ctl.posted with
  | none => .next s.pass
  | some t => .next (takeTrap t (s.updCtl fun c => { c with posted := none })).pass

/-- COMPANION_STOP (R149, R362): at the gang tick a trap elsewhere named, the core takes 0x16 with
COMPANION set. -/
def execCompanionStop (s : State) : Out :=
  match s.core.stall.companion with
  | none => .next s.pass
  | some (rank, _) =>
    .next (takeTrap { cause := 0x16, info := BitVec.ofNat 64 (rank.toNat + 2 ^ 32), origin := 7 }
      (s.updStall fun x => { x with companion := none })).pass

/-- BREAK_REQUEST (R13): cause 0x17 with EINFO 0 at the next word boundary; ORIGIN is 0 (log 71). -/
def execBreakRequest (s : State) : Out :=
  .next (takeTrap { cause := 0x17, info := 0, origin := 0 }
    (s.updCtl fun c => { c with breakReq := false })).pass

/-- ILLEGAL_WORD (R55, R56): 0x01 at the control core, or at the head of an engine's queue. -/
def execIllegalWord (e : Option Engine) (w : Word) (reason : BitVec 8) (s : State) : Out :=
  match e with
  | none => .next (takeTrap { cause := 0x01, info := badWordInfo w reason, addr := s.core.nowAddr }
      s).pass
  | some g =>
    let a := match (s.core.eng g).queue with
      | .word x :: _ => x.addr
      | _ => s.core.nowAddr
    .next (takeTrap { cause := 0x01, info := badWordInfo w reason, addr := a
                      origin := BitVec.ofNat 3 (engNum g) } s).pass

/-- FETCH_FAULT (R392): 0x04 with ACC 3 and WORD 0 at a word outside the code image. -/
def execFetchFault (addr : VAddr) (s : State) : Out :=
  .next (takeTrap { cause := 0x04, info := 3, addr := addr } s).pass

end Sys2Proof.Machine
end

