-- ==== Sys2Proof/Machine/Retire.lean ====
section
/-! DEFINITION. Retirement (R113) and the save of a pre-empted core (R162, R260, R308, R325, R347,
R348). -/

namespace Sys2Proof.Machine

/-! ### Retirement in bank 0 -/

/-- What RETIRE in bank 0 commits, closes and discards (R113): held copies are released without an
exchange, a stream closes, a recording is abandoned, queues are emptied. -/
def retireWork (s : State) : State :=
  let s := (List.finRange 8).foldl State.releaseHeld s
  let s := match s.core.jig.recording with
    | none => s
    | some r => (s.modJig r.jig fun _ => {}).upd fun c =>
        { c with jig := { c.jig with recording := none } }
  s.upd fun c => { c with
    sd := none
    copy := { c.copy with issued := [] }
    q := { c.q with rq0 := [], rq1 := [], cq := [], cqPend := [], wsq := [], xq := [], dq := []
                    pq := [] } }

/-- The core leaves its gang's work; no word of it issues again (R113). -/
def leaveWork (s : State) : State :=
  (s.upd Core.tickOn).updCtl fun c => { c with run := .retired, arrival := none }

/-- The core leaves its gang, which cannot meet at a barrier or mark any more (R95, R113). -/
def leaveGang (s : State) : State := checkMismatch (leaveWork s)

/-! ### The save (R347, R348) -/

/-- Whether a core is in its handler for another cause than the pre-emption. -/
def Core.elsewhere (c : Core) : Bool :=
  decide (c.ctl.run = .running) && c.ctl.bank1 && !c.preempted

/-- Whether the save can be made: landings in flight and refetches are over (R260, R293), and no core of
the gang is in its handler for another cause (R350). -/
def saveReady (s : State) : Bool :=
  s.core.land.flights.isEmpty && (match s.core.sd with
    | none => true
    | some d => d.refetch.isEmpty)
    && !s.gangOthers.any Core.elsewhere

/-- The stream as it is saved (R260, R261): removed blocks are pushed, the buffer is discarded, and
arrivals start again at the first block not yet removed. -/
def Core.saveStream (c : Core) : Core :=
  match c.sd with
  | none => c
  | some d => { c with
      mx := { c.mx with
        wfifo := c.mx.wfifo ++ d.out.map (·.2)
        scf := c.mx.scf ++ d.out.map fun b => (b.2.scnt, b.2.x8) }
      sd := some { d with
        first := d.next, beats := 0, buf := [], out := [], late := false, reopen := true } }

/-- Every entry that is saved counts as matched (R162); no beat is outstanding. -/
def Eng.matchAll (g : Eng) : Eng :=
  { g with late := false, queue := g.queue.map fun
    | .word e => .word { e with matched := true }
    | .reg sr v => .reg sr v }

/-- The record of a core (R162, R308): its entries matched, a recording abandoned. -/
def Core.saveForm (c : Core) : Core :=
  let c := c.saveStream
  let c := [Engine.load, .matrix, .vector, .copy, .stream].foldl (fun c e => c.setEng e Eng.matchAll) c
  let c := { c with q := { c.q with xq := c.q.xq.map fun (x : XEntry) => { x with matched := true } } }
  match c.jig.recording with
  | none => c
  | some r => { c with jig := { c.jig with
      recording := none, jig := c.jig.jig.set r.jig.val {} r.jig.isLt } }

/-- The save of the acting core (R325, R347, R348): remote words end abandoned, REASON 3. -/
def saveCore (s : State) : State :=
  let s := s.dropWhere (fun _ => true) 2 3
  let s := s.upd Core.saveForm
  match s.taskOf s.core with
  | none => s
  | some t => (writeSave t s).modTask t.id fun x => { x with saved := x.saved ++ [s.core] }

/-- Whether the issued words of an engine are over, as far as a handler's RETIRE waits for them (R113): the
oldest waits for a phase, a batch or a grant. -/
def Eng.over (g : Eng) : Bool :=
  match g.issued with
  | [] => true
  | w :: _ => w.waits || w.upto.isSome

/-- RETIRE (R113): waits for the engines, commits as PHSW does (R98), then the core leaves the gang. In
bank 1 it waits for issued words only and discards nothing; in a pre-emption's handler the save comes
first. -/
def execRetire (s : State) : Out :=
  ctlWord [] s fun s0 =>
    if s0.core.ctl.bank1 then
      if [Engine.load, .matrix, .vector, .copy, .stream].any fun e => !(s0.core.eng e).over then .wait s0
      else if !s0.core.preempted then .raw (leaveGang s0)
      else if saveReady s0 then .raw (leaveWork (saveCore s0))
      else .wait s0
    else if !s0.core.commitReady then .wait s0
    else match holdError s0 (List.finRange 8) with
      | some t => .stuck (silentError t s0)
      | none => .raw (leaveGang (retireWork s0.logRetried))

end Sys2Proof.Machine
end

