-- ==== Sys2Proof/Machine/Timing.lean ====
section
/-! DEFINITION. The events of gang timing: stalls and their end (R149, R289), the slip limit (R296, R297),
dead stops (R150), landings (R293 to R295), rollback of a phase (R377), the gang stop of firmware
(R326). -/

namespace Sys2Proof.Machine

/-! ### Stalls (R149) -/

/-- Whether a core runs its task in bank 0. -/
def Core.active (c : Core) : Bool := decide (c.ctl.run = .running) && !c.ctl.bank1

/-- Whether a core has reached the gang tick of its stop: a held gang tick counts as reached. -/
def Core.stopDue (c : Core) : Bool :=
  c.active && !c.stall.stopped && (match c.stall.stopAt with
    | some t => decide (t ≤ c.gtick) || c.gheld
    | none => false)

/-- GANG_STALL (R149): the core stops. -/
def execGangStall (s : State) : Out :=
  if s.core.stopDue then
    .next (s.upd fun c => { c with stall := { c.stall with
      stopped := true, stopAt := none, since := c.tick } }).pass
  else .next s.pass

/-- Whether the resumption can be signalled: the gang stands, and no delay of it goes on. -/
def resumeReady (s : State) : Bool :=
  s.core.stall.stopped && s.core.stall.resumeAt.isNone && s.core.delayOver
    && s.gangOthers.all (fun c => !c.active || (c.stall.stopAt.isNone && c.delayOver))

/-- A core resumes (R149): at a deferred plumb release it is to leave its mark with the release value. -/
def leaveStall (slip : BitVec 32) (s : State) : State :=
  s.upd fun c =>
    let d := match c.stall.deferred with
      | some v => c.release v
      | none => c
    { d with stall := { d.stall with
        stopped := false, resumeAt := none, deferred := none, delays := [], lateSlot := none, slip := slip
        progress := c.tick } }

/-- STALL_RESUME (R149): the signal goes out when the delay has ended, takes 16 die ticks, and every
core of the gang resumes. -/
def execStallResume (s : State) : Out :=
  if resumeReady s then
    .next (s.onGang (fun c => c.stall.stopped) fun s => s.updStall fun x =>
      { x with resumeAt := some (s.core.tick + 16) }).pass
  else match s.core.stall.resumeAt with
    | some t =>
      if s.core.stall.stopped ∧ t ≤ s.core.tick then
        .next (s.onGang (fun c => c.stall.stopped && !c.ctl.bank1) (leaveStall s.core.stall.slip)).pass
      else .next s.pass
    | none => .next s.pass

/-! ### Slip (R296, R297) -/

/-- Whether the slip has passed the limit while a delay of the core goes on (R296). -/
def Core.slipDue (c : Core) : Bool :=
  c.active && c.stall.stopped && !c.delayOver && decide (c.vis.sliplim < c.stall.slip)

/-- The block whose underrun or refetch goes on (R254, R256). -/
def Core.heldBlock (c : Core) : Option (Stream × Nat) :=
  match c.sd with
  | none => none
  | some d => match d.refetch with
    | (i, _) :: _ => some (d, i)
    | [] => if d.starved c then some (d, d.next) else none

/-- The cause that a delay gives when the slip passes the limit (R296, R297, R254, R256). -/
def Core.slipTrap (c : Core) : TrapRec :=
  match c.heldBlock with
  | some (d, i) => d.blockTrap 0x0B i (d.blockInfo i 0)
  | none =>
    match c.stillLate with
    | some (x, k) =>
      { cause := 0x0E, info := BitVec.ofNat 64 (k.val + 2 ^ 12 + 2 ^ 16), addr := x.addr, origin := 1 }
    | none => { cause := 0x0E, info := BitVec.ofNat 64 (2 ^ 16) }

/-- SLIP_LIMIT (R296): the core whose delay is in progress traps. -/
def execSlipLimit (s : State) : Out :=
  if s.core.slipDue then .next (takeTrap s.core.slipTrap s).pass else .next s.pass

/-! ### Dead stop (R150) -/

/-- Die ticks to a dead stop (R150, R288). -/
def Core.deadLimit (c : Core) : Nat := if c.vis.plumbmax = 0 then 2 ^ 32 else c.vis.plumbmax.toNat

/-- Whether the dead-stop count has run out. -/
def Core.deadDue (c : Core) : Bool :=
  c.active && decide (c.stall.progress + c.deadLimit ≤ c.tick) && !c.deadHold

/-- DEAD_STOP (R150): 0x0F with STALL. -/
def execDeadStop (s : State) : Out :=
  if s.core.deadDue then
    .next (takeTrap { cause := 0x0F, info := BitVec.ofNat 64 (2 ^ 17) } s).pass
  else .next s.pass

/-! ### Landing slots (R292 to R295) -/

/-- Whether a flight may land: its gang tick has come, or the gang tick stands and the words that
issued before run on (R149, R293). -/
def Flight.ready (c : Core) (f : Flight) : Bool := decide (f.due ≤ c.gtick) || c.gheld

/-- The flight that lands next: the earliest, in issue order (R292). -/
def nextFlight : List Flight → Option Flight
  | [] => none
  | f :: t => match nextFlight t with
    | some g => if g.due < f.due then some g else some f
    | none => some f

/-- A flight lands (R293, R295): an empty slot becomes full; a full one keeps its contents and the
receiver traps. -/
def landFlight (f : Flight) (s : State) : State :=
  let s := s.upd fun c => { c with
    land := { c.land with flights := c.land.flights.erase f }
    stall := { c.stall with lateSlot := c.stall.lateSlot.filter fun k => !decide (k = f.slot) } }
  match s.core.land.slot[f.slot] with
  | none => s.upd fun c => { c with land := { c.land with
      slot := c.land.slot.set f.slot.val (some (f.fmt, f.data)) f.slot.isLt } }
  | some _ => takeTrap { cause := 0x0E, info := BitVec.ofNat 64 (f.slot.val + 2 ^ 13) } s

/-- SLOT_LANDING (R293). -/
def execSlotLanding (s : State) : Out :=
  match nextFlight s.core.land.flights with
  | none => .next s.pass
  | some f => if f.ready s.core then .next (landFlight f s).pass else .next s.pass

/-- The LLAND that has waited LWAIT gang ticks for its slot (R294), with its slot. -/
def Core.lateLand (c : Core) : Option (Entry × Fin 64) :=
  match c.headLand with
  | some (x, k) => (match x.since with
    | some t => if c.active ∧ !c.gheld ∧ c.stall.lateSlot ≠ some k ∧ c.land.slot[k].isNone
        ∧ t + x.snap.guardW.toNat ≤ c.gtick then some (x, k) else none
    | none => none)
  | none => none

/-- LATE_LANDING (R294): in lockstep mode an unscheduled delay, in strict mode 0x0E with LATE. -/
def execLateLanding (s : State) : Out :=
  match s.core.lateLand with
  | none => .next s.pass
  | some (x, k) =>
    if x.snap.strict then
      .next (takeTrap { cause := 0x0E, info := BitVec.ofNat 64 (k.val + 2 ^ 12), addr := x.addr
                        origin := 1 } s).pass
    else .next ((s.beginDelay .landing).updStall fun x => { x with lateSlot := some k }).pass

/-! ### Rollback (R376, R377) -/

/-- Batches of an LDSC FIFO that hold the oldest n scales. -/
def keepScales : Nat → List (List Byte) → List (List Byte)
  | _, [] => []
  | n, b :: t => if n = 0 then [] else b :: keepScales (n - b.length) t

/-- Issued words complete, unissued entries and the copy hold are discarded, and what entered the
queues since the commit leaves them (R377). A copy held since before the commit is issued again from its
snapshot (R312). -/
def Core.discard (c : Core) : Core :=
  let again := (c.cp.hold.filter (·.carried)).map fun h => QItem.word h.entry
  let c := [Engine.load, .matrix, .vector, .copy, .stream].foldl Core.retireAll c
  let c := [Engine.load, .matrix, .vector, .copy, .stream].foldl
    (fun c e => c.setEng e fun g => { g with queue := [], issued := [] }) c
  let k := c.phase.carried
  let keep (l : List LaneEntry) : List LaneEntry := l.filter (·.carried)
  { c with
    cp := { c.cp with hold := [] }
    stall := { c.stall with lateSlot := none }
    copy := { c.copy with queue := again }
    q := { c.q with
      vq := c.q.vq.map keep, wq := keep c.q.wq, mq := keep c.q.mq
      xq := c.q.xq.take k.xq, rq0 := c.q.rq0.take k.rq0, rq1 := c.q.rq1.take k.rq1
      wsq := c.q.wsq.take k.wsq }
    mx := { c.mx with
      ascale := keepScales k.asc c.mx.ascale
      bscale := keepScales k.bsc c.mx.bscale
      wfifo := c.phase.popped ++ c.mx.wfifo
      scf := c.phase.poppedScf ++ c.mx.scf } }

/-- The registers of R375 come back: those that bank 0 may write. -/
def Core.restoreSnap (x : PhSnap) (c : Core) : Core :=
  { c with
    vis := { x.vis with
      plumbmax := c.vis.plumbmax, sliplim := c.vis.sliplim, strict := c.vis.strict
      peerbase := c.vis.peerbase, peern := c.vis.peern }
    tok := x.tok
    q := { c.q with pq := x.pq }
    mx := { c.mx with epcolbase := x.epcolbase, mflags := x.mflags }
    vec := { c.vec with vflags := x.vflags, pendV := [], pendP := [] }
    jig := { c.jig with play := x.play }
    ctl := { c.ctl with
      b0 := x.b0, taintG := x.taintG, taintC := x.taintC, taintT := x.taintT, pcq := x.pcq
      pend := [], awaiting := false, arrival := none, nest := x.nest, nestSaved := x.nestSaved
      liveSet := x.liveSet
      regs := { c.ctl.regs with
        uhen := x.regs.uhen, uhaddr := x.regs.uhaddr, wphit := x.regs.wphit, retried := true } } }

/-- Ranges that the carriers refetch: source and the bench address of the current half (R377). -/
def refetches (v : Vis) (srcs : List (BitVec 48)) : List (Nat × Nat × Nat) :=
  (List.finRange 8).filterMap fun p =>
    if v.ph[p].len = 0 then none
    else some ((srcs.getD p.val 0).toNat, 0xFF0000000000 + v.ph[p].base.toNat * 64,
      v.ph[p].len.toNat * 64)

/-- One half is refetched. -/
def refetchHalf (s : State) (r : Nat × Nat × Nat) : State :=
  let bs := readRange s (locate s (.eng .copy) .read) r.1 r.2.2
  writeRange s (locate s (.eng .copy) .write) r.2.1 bs

/-- Whether a core can roll its phase back now: the gang stands, and every issued LLAND has reached the
tick of its retirement (R293, R377). -/
def Core.rollsBack (c : Core) : Bool :=
  c.phase.rollback && c.stall.stopped && c.load.issued.all fun w => !w.early c.tick

/-- The retry of a phase starts (R376, R377). -/
def Core.startRetry (c : Core) : Core :=
  { c with phase := { c.phase with
      carried := c.carryAll, popped := [], poppedScf := [], rollback := false, ckSteps := 0 } }

/-- PHASE_RESUME (R377): once the gang stands, the halves are refetched, the snapshot comes back and
RETRIED is set; the phase runs again when the gang resumes. An error in the refetch is one during the
retry (R379). -/
def execPhaseResume (s : State) : Out :=
  match s.core.phase.snap with
  | none => .next s.pass
  | some x =>
    if !s.core.rollsBack then .next s.pass
    else
      let s1 := s.upd fun c => (c.discard.restoreSnap x).startRetry
      let rs := refetches x.vis x.srcs
      let l := locate s1 (.eng .copy) .read
      let src := rs.map fun r => (r.1, r.2.2)
      match lowest (failures l 0 src), goneAt l src with
      | some (c, a, _), _ =>
        .next (takeTrap { cause := BitVec.ofNat 6 c, info := BitVec.ofNat 64 (4 * 2 ^ 8)
                          addr := BitVec.ofNat 48 a, origin := 4 } s1).pass
      | none, some pa => .fault (.noSuchHbm pa)
      | none, none => match firstBad s1 l src with
        | some b =>
          .next (silentError { cause := 0x13, info := BitVec.ofNat 64 (b.1.whereNum + 4 * 2 ^ 8)
                               addr := BitVec.ofNat 48 b.2, origin := 4 } s1).pass
        | none => .next (rs.foldl refetchHalf s1).pass

/-! ### Gang stop (R326, R362) -/

/-- Whether the core takes a gang stop of firmware. While a core of the gang is in bank 1 for another cause, the
others wait in their stop (R350). -/
def State.preemptDue (s : State) : Bool :=
  decide (s.core.ctl.run = .running) && s.core.stopReached
    && (s.core.ctl.bank1 || !s.gangOthers.any fun c =>
      decide (c.ctl.run = .running) && c.ctl.bank1 && !c.preempted)

/-- GANG_STOP (R326): the core takes 0x16 with PREEMPT, at origin 7. -/
def execGangStop (s : State) : Out :=
  if s.preemptDue then
    .next (takeTrap { cause := 0x16, info := BitVec.ofNat 64 (2 ^ 33), origin := 7 }
      (s.updStall fun x => { x with preempt := none })).pass
  else .next s.pass

end Sys2Proof.Machine
end

