-- ==== Sys2Proof/Machine/Tasks.lean ====
section
/-! DEFINITION. Tasks and tenants in firmware's hands: start, completion, abort (R264 to R266, R340 to R342,
R346, R298), pre-emption, resumption and discard (R326, R327, R347 to R350, R261), debugging (R42, R358),
slots (R28), tenants (R330, R262), window migration (R365), placement (R7). -/

namespace Sys2Proof.Machine

/-! ### Cores in firmware's hands -/

/-- The cores of a task, in rank order. -/
def State.coresOf (s : State) (t : Task) : List Core := t.cores.filterMap fun k => s.coreAt k.val

/-- A task by its number. -/
def State.task (s : State) (id : Nat) : Option Task := s.sys.tasks.find? fun t => decide (t.id = id)

/-- What stays on a core between tasks: its clock, bench, system store, jigs and mailboxes (R262,
R386). -/
def Core.cleared (c : Core) : Core :=
  { id := c.id, tick := c.tick, bench := c.bench, store := c.store
    q := { mboxOut := c.q.mboxOut, mboxIn := c.q.mboxIn, mboxDrop := c.q.mboxDrop }
    jig := { jig := c.jig.jig.map fun j => if j.state = .recording then {} else j } }

/-- Change the cores of a task. -/
def State.modCores (s : State) (t : Task) (f : Core → Core) : State :=
  t.cores.foldl (fun s k => s.modCore k.val f) s

/-- Set or clear LOCK in the window entries of a tenant (R339, R363). -/
def State.lockWindows (s : State) (tn : Fin 16) (b : Bool) : State :=
  let f (e : Nat × BitVec 128) : Nat × BitVec 128 :=
    if winBits e.2 6 4 = tn.val then
      (e.1, if b then e.2 ||| BitVec.ofNat 128 (2 ^ 10) else e.2 &&& ~~~(BitVec.ofNat 128 (2 ^ 10)))
    else e
  { s with sys := { s.sys with die := s.sys.die.map fun d => { d with win := d.win.map f } } }

/-- Whether a task of a tenant other than this one holds its windows. -/
def State.tenantBusy (s : State) (tn : Fin 16) (id : Nat) : Bool :=
  s.sys.tasks.any fun t => decide (t.tn = tn) && decide (t.id ≠ id)
    && (decide (t.state = .running) || decide (t.state = .stopping))

/-- Unlock a tenant's windows once no task of it holds them. -/
def State.unlockWindows (s : State) (tn : Fin 16) (id : Nat) : State :=
  if s.tenantBusy tn id then s else s.lockWindows tn false

/-- Whether a task holds cores. -/
def Task.onCores (t : Task) : Bool :=
  decide (t.state = .running) || decide (t.state = .stopping)

/-! ### Starting a gang (R264, R340, R342, R346) -/

/-- A task's slot as it was loaded at its launch. -/
def State.imageOf (_s : State) (t : Task) : Option SlotImage := t.img

/-- Whether the cores of a shape are free. -/
def coresFree (s : State) (l : List (Fin 128)) : Bool :=
  l.all fun k => match s.coreAt k.val with
    | some c => decide (c.ctl.run = .idle)
    | none => false

/-- The die of a core by its number. -/
def dieOf (k : Fin 128) : Fin 4 := ⟨k.val / 32 % 4, Nat.mod_lt _ (by decide)⟩

/-- Whether the start tick of a fixed-order queue has come, on the die of rank 0 (R342): the first LAUNCH, which none
precedes, starts at once (log 94). -/
def startReached (s : State) (t : Task) (cores : List (Fin 128)) : Bool :=
  let x := s.queue t.tn t.q
  if !x.order then true
  else match cores with
    | k :: _ => (match x.dispatched[(dieOf k).val]? with
      | some a => decide (a + t.f.start.toNat ≤ s.dieTick (dieOf k))
      | none => true)
    | [] => true

/-- Whether a task waits and may start but for its cores and its turn; a queue that has stopped starts nothing
(R334). -/
def State.wantsStart (s : State) (t : Task) : Bool :=
  decide (t.state = .waiting) && decide ((s.queue t.tn t.q).state ≠ .error) && (match s.imageOf t with
    | some img => startReached s t (shapeCores img)
    | none => false)

/-- Whether every core of a task has retired and its remote words have ended (R341). -/
def taskOver (s : State) (t : Task) : Bool :=
  (decide (t.state = .running) || decide (t.state = .stopping))
    && (s.coresOf t).all fun c => decide (c.ctl.run = .retired) && c.cp.remote.isEmpty

/-- Whether the task launched before this one in its queue has not completed (R341, R342): one whose cores have retired
for a pre-emption has not (R347). -/
def prevOpen (s : State) (t : Task) : Bool :=
  let earlier := s.sys.tasks.filter fun u =>
    decide (u.tn = t.tn) && decide (u.q = t.q) && decide (u.id < t.id)
  match earlier.getLast? with
  | some u => (s.queue t.tn t.q).launched.contains u.id && !(taskOver s u && u.saved.isEmpty)
  | none => false

/-- A task of a fixed-order queue whose START tick has come and has not been judged. -/
def unjudged (s : State) : Option Task :=
  s.sys.tasks.find? fun t => t.late.isNone && (s.queue t.tn t.q).order && s.wantsStart t

/-- What the START tick of a fixed-order launch finds (R329, R342): it is late when its predecessor has not
completed; when its cores are not free it waits, and no cause is taken. -/
def judgeStart (t : Task) (s : State) : State :=
  let free := match s.imageOf t with
    | some img => coresFree s (shapeCores img)
    | none => false
  s.modTask t.id fun u => { u with late := some (prevOpen s t && free) }

/-- Distance of a queue after the one served last (R346). -/
def queueTurn (x : Tenant) (q : Fin 8) : Nat := (q.val + 7 - x.served.val) % 8

/-- Whether firmware serves another waiting LAUNCH of the tenant first (R346). -/
def servedFirst (s : State) (t u : Task) : Bool :=
  let x := s.sys.tenants[t.tn]
  let pt := x.queues[t.q].prio
  let pu := x.queues[u.q].prio
  decide (u.tn = t.tn) && decide (u.id ≠ t.id) && s.wantsStart u
    && (decide (pt < pu) || (decide (pt = pu) && decide (queueTurn x u.q < queueTurn x t.q)))

/-- Whether cores are in placement (R7). -/
def inPlacement (s : State) (l : List (Fin 128)) : Bool := l.all fun k => !s.sys.removed.contains k

/-- What the streams of the tasks on the cores hold of a stack's port on a die (R253). -/
def portHeld (s : State) (d : Fin 4) (k : Nat) : Nat :=
  ((s.sys.tasks.filter (·.onCores)).map fun t => match t.img with
    | some img => portNeed s t.tn img d k
    | none => 0).sum

/-- Whether the ports serve a task's streams beside those of the tasks on the cores (R253). -/
def portsFree (s : State) (t : Task) : Bool :=
  match t.img with
  | some img => portsServe fun d k => portHeld s d k + portNeed s t.tn img d k
  | none => false

/-- Whether a task's slot can be mapped now (R28, R392): a map that another load of the slot has left is in no task's
use (log 18). -/
def mapFree (s : State) (t : Task) : Bool :=
  match t.img with
  | some img => mapOk s t.tn img && (match s.mapOf t.tn img.slot with
    | some m => decide (m = slotMap t.tn img) || !s.sys.tasks.any fun u =>
        decide (u.tn = t.tn) && (u.onCores || decide (u.state = .saved)) && u.img.any fun x => decide (x.slot = img.slot)
    | none => true)
  | none => false

/-- Whether a task's gang may start now (R7, R253, R339, R340, R342, R346, R389, R391). One of a fixed-order queue too
waits behind a LAUNCH that R346 serves first (log 106). -/
def startReady (s : State) (t : Task) : Bool :=
  s.booted && decide (s.sys.thermal = .normal) && s.wantsStart t
    && !(s.sys.tasks.any (servedFirst s t)) && portsFree s t && mapFree s t
    && (match s.imageOf t with
      | some img => coresFree s (shapeCores img) && inPlacement s (shapeCores img)
      | none => false)

/-- The epilogue slots that firmware loads (R30). -/
def epiSlots (img : SlotImage) : Vector (Vector (BitVec 16) 16) 8 :=
  Vector.ofFn fun i => Vector.ofFn fun j => (img.epi.getD i.val []).getD j.val 0

/-- The bench before the first word: the argument block and the slot's bench section (R11, R28). -/
def startBench (img : SlotImage) (arg : List Byte) (m : Mem) : Mem :=
  (m.write 0 ((arg ++ List.replicate (4096 - arg.length) 0).take 4096)).write 4096 img.bench

/-- The special registers at a task's start (R340). -/
def startRegs (t : Task) (gang : BitVec 16) (rank n : Nat) : CtlRegs :=
  { gang := gang, grank := BitVec.ofNat 64 rank, gsize := BitVec.ofNat 64 n, tenant := t.tn
    task := t.seq, rel := Vector.ofFn fun i => t.f.bufs.getD i.val 0 }

/-- The engine-visible registers at a task's start: the launch values (R288, R316, R336). -/
def startVis (f : LaunchFields) : Vis :=
  let v : Vis := { peerbase := f.peerbase.truncate 13, peern := f.peern.truncate 14 }
  if f.lv then { v with plumbmax := f.plumbmax, sliplim := f.sliplim, strict := f.strict } else v

/-- A core at its task's first word (R34, R340, R375). -/
def startCore (t : Task) (img : SlotImage) (arg : List Byte) (gang : BitVec 16) (n rank : Nat)
    (late : Bool) (c : Core) : Core :=
  let b := c.cleared
  let b : Core := { b with
    bench := startBench img arg c.bench
    vis := startVis t.f
    mx := { epi := epiSlots img }
    stall := { progress := c.tick }
    ctl := { run := .running, codeBase := codeAt img, code := img.code, regs := startRegs t gang rank n
             posted := if late then some { cause := 0x10 } else none } }
  let b := { b with ctl := { b.ctl with pcq := b.queueAt (codeAt img + BitVec.ofNat 48 img.entry) } }
  b.commit b.ctl.pcq none

/-- Prepare the cores of a gang, rank by rank. -/
def startCores (t : Task) (img : SlotImage) (arg : List Byte) (gang : BitVec 16) (n : Nat)
    (late : Bool) : Nat → List (Fin 128) → State → State
  | _, [], s => s
  | r, k :: l, s =>
    startCores t img arg gang n late (r + 1) l (s.modCore k.val (startCore t img arg gang n r late))

/-- Insert a window entry in rising order of index. -/
def insertWin (k : Nat) (e : BitVec 128) : List (Nat × BitVec 128) → List (Nat × BitVec 128)
  | [] => [(k, e)]
  | x :: t =>
    if k < x.1 then (k, e) :: x :: t else if k = x.1 then (k, e) :: t else x :: insertWin k e t

/-- The entries of a map leave the dies' tables. -/
def dropMap (m : SlotMap) (s : State) : State :=
  let f (s : State) (d : Fin 4) : State :=
    s.modDie d fun x => { x with win := x.win.filter fun e => !m.has d e.1 }
  let t := (List.finRange 4).foldl f s
  { t with sys := { t.sys with maps := t.sys.maps.filter fun x => !decide (x = m) } }

/-- The entries of a map enter the tables of the dies of its shape. -/
def addMap (m : SlotMap) (s : State) : State :=
  let f (s : State) (d : Fin 4) : State :=
    if m.dies.getLsbD d.val then
      s.modDie d fun x => { x with win := m.wins.foldl (fun l w => insertWin w.1 w.2 l) x.win }
    else s
  let t := (List.finRange 4).foldl f s
  { t with sys := { t.sys with maps := m :: t.sys.maps } }

/-- The slot's code is mapped with X and its data with R and W on the dies of its shape (R28, R392). Entries stay when
the task ends, for the slot's next launch, until a launch after another load of the slot, or TENANT_DESTROY
(log 18); entries that change raise the window generation (R305). -/
def mapSlot (tn : Fin 16) (img : SlotImage) (s : State) : State :=
  let m := slotMap tn img
  let new (s : State) : State := (addMap m s).modTenant tn fun x => { x with wingen := x.wingen + 1 }
  match s.mapOf tn img.slot with
  | some o => if o = m then s else new (dropMap o s)
  | none => new s

/-- GANG_START (R340, R342): the gang starts on one gang tick, at which GTICK reads 0. In fixed order an
unfinished predecessor makes every core take 0x10 before its first word. -/
def execGangStart (task : Nat) (s : State) : Out :=
  match s.task task with
  | none => .next s.pass
  | some t => match s.imageOf t with
    | none => .next s.pass
    | some img =>
      if !startReady s t then .next s.pass
      else
        let x := s.queue t.tn t.q
        let cores := shapeCores img
        let gang := BitVec.ofNat 16 s.sys.nextGang
        let late := x.order && decide (t.late = some true)
        let arg := (readTenant s t.tn t.f.argsrc.toNat t.f.arglen.toNat).getD []
        let s1 := startCores t img arg gang cores.length late 0 cores (mapSlot t.tn img s)
        let s2 := s1.modTask task fun t => { t with
          state := .running, cores := cores, gang := gang, nosort := t.nosort || s.sys.nosort }
        let s3 := s2.modQueue t.tn t.q fun x => { x with
          hold := if t.w then x.hold else none
          dispatched := (List.finRange 4).map s.dieTick }
        let s4 := (s3.modTenant t.tn fun x => { x with served := t.q }).lockWindows t.tn true
        .next ({ s4 with sys := { s4.sys with nextGang := s4.sys.nextGang % 65535 + 1 } }).pass

/-! ### Completion and abort (R341, R384) -/

/-- A queue lets go of a task. -/
def HostQueue.release (x : HostQueue) (id : Nat) : HostQueue :=
  { x with
    launched := x.launched.filter (· != id)
    hold := match x.hold with
      | some (k, w) => if k = id then none else some (k, w)
      | none => none }

/-- TICK of the die of rank 0 (R384). -/
def rankTick (s : State) (t : Task) : Nat :=
  match t.cores with
  | k :: _ => s.dieTick (dieOf k)
  | [] => 0

/-- The LAUNCHes after a task's that its queue has not dispatched are gone: the queue goes on from the entry after the
task's LAUNCH, and launches them again (R334). -/
def dropLater (t : Task) (s : State) : State :=
  let later := s.sys.tasks.filter fun u => decide (u.tn = t.tn) && decide (u.q = t.q) && decide (t.id < u.id)
    && decide (u.state = .waiting)
  later.foldl (fun s u => (s.modTask u.id fun u => { u with state := .discarded }).modQueue t.tn t.q
    fun x => x.release u.id) s

/-- The record of a task's end (R384): when the ring loses it, its queue stops at the entry after the task's
LAUNCH (R334, R385). -/
def taskRecord (t : Task) (kind : Nat) (err : BitVec 4) (cause : BitVec 6) (info : DWord) (s : State) :
    State :=
  let bs := hostRecord kind t.q.val err.toNat cause.toNat t.seq.toNat info (rankTick s t)
  let s1 := s.writeRecord t.tn (some t.q) 0 bs
  if (s.queue t.tn t.q).state ≠ .error ∧ (s1.queue t.tn t.q).state = .error then
    dropLater t (s1.modQueue t.tn t.q fun x => x.goAfter t)
  else s1

/-- The batch buffers of a gang whose task is over are free (R285). -/
def dropBuffers (g : BitVec 16) (s : State) : State :=
  { s with sys := { s.sys with sort := s.sys.sort.filter fun b => !decide (b.gang = g) } }

/-- TASK_COMPLETE (R341, R347): the LAUNCH's event is signalled and the record of kind 16 written; a task
whose cores were saved is saved instead. -/
def execTaskComplete (task : Nat) (s : State) : Out :=
  match s.task task with
  | none => .next s.pass
  | some t =>
    if !taskOver s t then .next s.pass
    else
      let s1 := (s.modCores t Core.cleared).unlockWindows t.tn task
      if !t.saved.isEmpty then .next (s1.modTask task fun t => { t with state := .saved }).pass
      else
        let s2 := ((dropBuffers t.gang s1).modTask task fun t => { t with state := .done }).modQueue t.tn t.q
          fun x => x.release task
        .next ((taskRecord t 16 0 0 0 s2).signalIf t.tn t.f.event).pass

/-- A queue stops for an abort with ERR 4 at the entry after the task's LAUNCH (R334), and the records of kinds
17 and 18 say so (R384). A queue that has stopped already stays as it is. -/
def stopForAbort (t : Task) (cause : BitVec 6) (info : DWord) (s : State) : State :=
  let was := (s.queue t.tn t.q).state
  let s1 := s.modQueue t.tn t.q fun x => if x.state = .error then x else (x.fail 4 cause).goAfter t
  let s1 := if was = .error then s1 else dropLater t s1
  let s2 := taskRecord t 17 4 cause info s1
  if was = .error then s2 else s2.stopRecord t.tn t.q 4 cause t.seq info (rankTick s t)

/-- A task is aborted (R298, R334, R341): its cores are free, its queue stops, its event is signalled. EADDR
goes to the host in a report of its own (R243, log 79). -/
def abortTask (t : Task) (cause : BitVec 6) (info : DWord) (addr : VAddr) (s : State) : State :=
  let s1 := dropBuffers t.gang ((s.modCores t Core.cleared).unlockWindows t.tn t.id)
  let s2 := s1.modTask t.id fun t => { t with
    state := .aborted, err := 4, cause := cause, einfo := info, eaddr := addr, saved := [] }
  let s2 := s2.modTenant t.tn fun x => { x with reports := x.reports ++ [(t.seq, cause, info, addr)] }
  let s3 := s2.modQueue t.tn t.q fun x => x.release t.id
  (stopForAbort t cause info s3).signalIf t.tn t.f.event

/-- The report of a task's handlers (R298, R358): a double fault, or the first core, in rank order,
whose handler holds an ending cause. -/
def abortReport (s : State) (t : Task) : Option (BitVec 6 × DWord × VAddr) :=
  if t.cause = 0x3F then some (0x3F, t.einfo, t.eaddr)
  else (s.coresOf t).findSome? fun c =>
    if c.ends && decide (c.ctl.run ≠ .retired) then
      some (c.ctl.regs.ecause, c.ctl.regs.einfo, c.ctl.regs.eaddr)
    else none

/-- TASK_ABORT (R298, R341). -/
def execTaskAbort (task : Nat) (s : State) : Out :=
  match s.task task with
  | none => .next s.pass
  | some t => match abortReport s t with
    | some (c, i, a) => if t.onCores then .next (abortTask t c i a s).pass else .next s.pass
    | none => .next s.pass

/-! ### Pre-emption, resumption, discard -/

/-- PRIO of a task's queue. -/
def prioOf (s : State) (t : Task) : BitVec 2 := (s.queue t.tn t.q).prio

/-- The gang tick of a gang's cores that run (R326): the largest count, where they differ (log 95). -/
def gangTick (s : State) (t : Task) : Nat :=
  ((s.coresOf t).filter fun c => decide (c.ctl.run = .running)).foldl (fun m c => max m c.gtick) 0

/-- When a gang stop raised now takes effect on a core: at the gang tick given, or 8 die ticks on where the gang tick
stands; one that meets a stall, when the stall does, at once if it stands (R350). -/
def Core.stopTime (g : Nat) (c : Core) : Nat × Nat :=
  if c.stall.stopped then (c.gtick, c.tick) else (c.stall.stopAt.getD g, c.tick + 8)

/-- Raise a gang stop (R326, R347): every core of the gang takes 0x16 on one gang tick, 8 ticks on. -/
def raiseStop (t : Task) (s : State) : State :=
  let g := gangTick s t + 8
  (s.modCores t fun c => if c.ctl.run = .running then
      { c with stall := { c.stall with preempt := c.stall.preempt.or (some (c.stopTime g)) } }
    else c).modTask t.id fun t => { t with state := .stopping }

/-- Firmware handles a request to pre-empt a task (R346, R347, R350): a task of PRIO 3 is never pre-empted, and a
second request is ignored. -/
def preemptTask (t : Task) (s : State) : State :=
  if t.state = .running ∧ prioOf s t ≠ 3 then raiseStop t s else s

/-- PREEMPT_REQUEST (R345): firmware handles it at once, or after the events of the task's queue that arrived before
it. -/
def execPreemptRequest (task : Nat) (s : State) : Out :=
  match s.task task with
  | none => .next s.pass
  | some t =>
    .next (if s.booted && s.noEvents t.tn t.q then preemptTask t s
      else s.modQueue t.tn t.q fun x =>
        if x.events.contains (.preempt task) then x else x.arrive (s.homeTick t.tn) (.preempt task)).pass

/-- The contract that a saved stream resumes under (R261): its first failure. Rate, buffer and removal table are those
that SDOPEN read (log 87). -/
def derivedFail (c : Core) : Option (DWord × VAddr) :=
  match c.sd with
  | none => none
  | some d =>
    let l := ((List.range d.table.length).drop d.first).map fun i =>
      (i, d.tick i, (d.table.getD i ⟨0, 0, 0⟩).s)
    (contractFail d.rate d.bufB d.left 0 l).map fun x => (contractInfo x, d.header)

/-- Empty a jig of a store in which more than 16,384 entries stand (R299), unless it is one given. -/
def JigStore.makeRoom (keep : Fin 4) (x : JigStore) (j : Fin 4) : JigStore :=
  if j = keep ∨ x.used ≤ 16384 then x else { x with jig := x.jig.set j.val {} j.isLt }

/-- The jigs of a resumed core (R308): the store keeps its own but for the one being replayed; where it has no room
for that one, the others give way from jig 0 on (log 96). -/
def resumeJigs (now saved : JigStore) : JigStore :=
  let kept : JigStore := { jig := now.jig.map fun j => if j.state = .recording then {} else j }
  match saved.play with
  | none => kept
  | some p => (List.finRange 4).foldl (JigStore.makeRoom p.jig)
      { kept with jig := kept.jig.set p.jig.val saved.jig[p.jig] p.jig.isLt, play := saved.play }

/-- A core restored from its record, waiting at RFT (R349). -/
def restoreCore (r c : Core) : Core :=
  { r with
    tick := c.tick, store := c.store, jig := resumeJigs c.jig r.jig
    q := { r.q with mboxOut := c.q.mboxOut, mboxIn := c.q.mboxIn, mboxDrop := c.q.mboxDrop }
    ctl := { r.ctl with run := .running, bank1 := true, arrival := some (.rft r.heldTick none) } }

/-- A core of the gang that had retired before the stop stays retired (R350). -/
def restoreRetired (t : Task) (c : Core) : Core :=
  let b := c.cleared
  { b with ctl := { run := .retired, regs := { gang := t.gang, tenant := t.tn } } }

/-- The release value of a re-plumb over cores (R112, R94). -/
def replumbTick (l : List Core) : Nat := l.foldl (fun m c => max m c.heldTick) 0 + 64

/-- The RFT of every core of a gang that waits for it, as firmware has its handlers execute it: where a core
would resume from a misaligned word it is a double fault (R42), otherwise the gang is released. -/
def replumb (t : Task) (s : State) : State :=
  let l := (s.coresOf t).filter Core.atRft
  if l.any fun c => c.ctl.regs.badEpc then
    (l.filter fun c => c.ctl.regs.badEpc).foldl (fun s c =>
      s.asCore c.id.num (doubleFault 0x03 rftWord)) s
  else s.modCores t fun c => if c.atRft then c.releaseRft (replumbTick l) false else c

/-- Whether a saved task may be resumed now (R7, R253, R340, R389, R391): with its batch buffers withheld it waits, unless
it was launched without them (R285, log 98). -/
def resumeOk (s : State) (t : Task) : Bool :=
  decide (t.state = .saved) && coresFree s t.cores && inPlacement s t.cores && portsFree s t && s.booted
    && decide (s.sys.thermal = .normal) && (t.nosort || !s.sys.nosort)

/-- TASK_RESUME (R261, R327, R349, R350): every record is restored on its core; a derived contract that
fails, the first in the order in which the cores were saved (log 87), aborts the task with 0x0D; otherwise RFT
re-plumbs the gang. -/
def execTaskResume (task : Nat) (s : State) : Out :=
  match s.task task with
  | none => .next s.pass
  | some t =>
    if !resumeOk s t then .next s.pass
    else
      let rec? (c : Core) : Option Core := t.saved.find? fun r => decide (r.id = c.id)
      let s1 := s.modCores t fun c => match rec? c with
        | some r => restoreCore r c
        | none => restoreRetired t c
      let s2 := (s1.modTask task fun t => { t with state := .running, saved := [] }).lockWindows t.tn true
      match t.saved.findSome? derivedFail with
      | some (i, a) => .next (abortTask t 0x0D i a s2).pass
      | none => .next (replumb t s2).pass

/-- The causes that stop a gang for the debugger (R358): a watchpoint when no hook is enabled, a TRAP that ends no
hook. -/
def debugCause (r : CtlRegs) : Bool :=
  let n := r.ecause.toNat
  (n == 0x07 && !r.uhen) || n == 0x08 || (n == 0x15 && !(r.hook && decide (r.einfo = 0x7E))) || n == 0x17

/-- Whether a core's handler holds a debug event (R358). -/
def Core.debugging (c : Core) : Bool :=
  c.ctl.bank1 && decide (c.ctl.run = .running) && debugCause c.ctl.regs

/-- Whether a task stands stopped for a debug event (R358). -/
def debugStopped (s : State) (t : Task) : Bool :=
  t.onCores && (abortReport s t).isNone
    && (s.coresOf t).any Core.debugging

/-- Firmware reports the trap that a task stands stopped for to the host as a debug event (R358): that of the first such
core, in rank order (log 79). -/
def reportDebug (id : Nat) (s : State) : State :=
  match s.task id with
  | none => s
  | some t =>
    if !debugStopped s t then s
    else match (s.coresOf t).find? Core.debugging with
    | none => s
    | some c =>
      let r := c.ctl.regs
      (s.modTask id fun u => { u with debugged := true }).modTenant t.tn fun x =>
        { x with debugs := x.debugs ++ [(t.seq, r.ecause, r.einfo, r.eaddr)] }

/-- TASK_DISCARD (R327, R358): a saved task, or one stopped for a debug event; the save area is
released with the gang's batch buffers (R285), and the queue goes on. -/
def execTaskDiscard (task : Nat) (s : State) : Out :=
  match s.task task with
  | none => .next s.pass
  | some t =>
    if t.state = .saved ∨ debugStopped s t then
      let s1 := dropBuffers t.gang (if t.state = .saved then s
        else (s.modCores t Core.cleared).unlockWindows t.tn task)
      let s2 := s1.modTask task fun t => { t with state := .discarded, saved := [] }
      .next (s2.modQueue t.tn t.q fun x => x.release task).pass
    else .next s.pass

/-- DEBUG_RESUME (R358): every handler of the gang returns with RFT; where the RFT of one is a double fault the gang
stops, and no core is released (R35, R42, R112). -/
def execDebugResume (task : Nat) (s : State) : Out :=
  match s.task task with
  | none => .next s.pass
  | some t =>
    if debugStopped s t
        && (s.coresOf t).all (fun c => c.ctl.bank1 || decide (c.ctl.run = .retired)) then
      let s1 := s.coreNums.foldl (fun s k => s.asCore k fun s =>
        if t.cores.any (·.val == k) && s.core.ctl.bank1 && decide (s.core.ctl.run = .running) && !s.core.atRft then
          arriveRft s
        else s) s
      if (s1.coresOf t).any fun c => decide (c.ctl.run = .dead) then .next s1.pass
      else .next (replumb t s1).pass
    else .next s.pass

/-- A steer register from its image (R36): the target is new, so no fault of the old one is held (R39). -/
def steerOf (v : DWord) : Steer :=
  { cond := v.getLsbD 63, valid := v.getLsbD 62, target := BitVec.ofNat 46 (v.toNat / 4 % 2 ^ 46) }

/-- DEBUG_INTERFACE_WRITE (R42): bank 0 of a core that stands in bank 1. -/
def execDebugInterfaceWrite (c : Fin 128) (r : DbgReg) (v : DWord) (s : State) : Out :=
  .next (s.modCore c.val fun x =>
    if !x.ctl.bank1 then x
    else match r with
      | .g k => { x with ctl := { x.ctl with b0 := x.ctl.b0.setG k v } }
      | .s k =>
        if h : k.val < 12 then
          { x with ctl := { x.ctl with b0 := { x.ctl.b0 with
            s := x.ctl.b0.s.set k.val (steerOf v) h } } }
        else x).pass

/-- A read of bank 0 through the debug interface (R36): a g register, or the image of a steer register. -/
def debugRead (c : Fin 128) (r : DbgReg) (s : State) : State :=
  match s.coreAt c.val with
  | none => s
  | some x => s.hostReads (match r with
    | .g k => if k = 0 then 0 else x.ctl.b0.g[k]
    | .s k => (vget x.ctl.b0.s k.val {}).image)

/-! ### Slots, tenants, windows, placement -/

/-- Whether firmware refuses to load a slot (R28): before its dies have booted (R8), for a loft section
outside the loft or over another slot's, or for code and data that 2 MiB windows of the table (R2, R363) cannot map in
HBM. -/
def slotRefused (s : State) (img : SlotImage) : Bool :=
  let a := img.loftBase.toNat
  !s.booted || decide (img.dataPa % block ≠ 0) || decide (8 * 2 ^ 36 ≤ img.dataPa)
    || decide (48 * 2 ^ 30 < img.dataPa % 2 ^ 36 + block * slotBlocks img)
    || decide (3072 < img.dataWin.val + slotBlocks img)
    || (!img.loft.isEmpty && (decide (a < 0xFE0000000000) || decide (0xFE0000000000 + loftSize < a + img.loft.length)))
    || s.sys.slots.any fun e => decide (e.1 ≠ img.slot) && (match e.2.image with
      | some x => overlap a img.loft.length x.loftBase.toNat x.loft.length
      | none => false)

/-- SLOT_LOAD (R28, R305, R392): the loft section in every die, code and data in HBM, the generation
raised. -/
def execSlotLoad (img : SlotImage) (s : State) : Out :=
  if slotRefused s img then .next s.pass
  else
    let gen := ((s.slot img.slot.val).map (·.gen)).getD 0
    let put (s : State) (d : Fin 4) : State :=
      s.writeAt (.loft d) (img.loftBase.toNat - 0xFE0000000000) img.loft
    let s1 := if img.loft.isEmpty then s else (List.finRange 4).foldl put s
    let s1 := if img.code.isEmpty then s1 else s1.writeAt .hbm img.dataPa img.code
    let s2 := if img.data.isEmpty then s1 else s1.writeAt .hbm (dataPaAt img) img.data
    .next ({ s2 with sys := { s2.sys with
      slots := (img.slot, { gen := gen + 1, image := some img }) ::
        s2.sys.slots.filter (fun e => decide (e.1 ≠ img.slot)) } }).pass

/-- A window entry with its owner (R363). -/
def ownWin (tn : Fin 16) (e : BitVec 128) : BitVec 128 :=
  BitVec.ofNat 128 (e.toNat / 2 ^ 10 * 2 ^ 10 + tn.val * 2 ^ 6 + e.toNat % 2 ^ 6)

/-- Whether a window entry is one the table holds (R363): its size 2 MiB to 128 MiB, its bases aligned. -/
def winOk (e : BitVec 128) : Bool :=
  let n := winBits e 11 5
  decide (21 ≤ n) && decide (n ≤ 27) && decide (winBits e 21 27 * 2 ^ 21 % 2 ^ n = 0)
    && decide (winBits e 85 31 * 2 ^ 21 % 2 ^ n = 0)

/-- Whether a tenant's grant of batch buffers can be made on every die (R285): at least one, and 16 over
the tenants. -/
def bufsOk (s : State) (b : Vector Nat 4) : Bool :=
  (List.finRange 4).all fun d => decide (1 ≤ b[d])
    && decide (b[d] + (s.sys.tenants.toList.map fun t => if t.live then t.bufs[d] else 0).sum ≤ 16)

/-- Whether a grant would give something to two tenants, or is none (R285, R330, R363). -/
def grantRefused (s : State) (g : TenantGrant) : Bool :=
  s.sys.tenants.toList.any (fun x => x.live && g.cores.any x.cores.contains)
    || !bufsOk s g.bufs
    || g.windows.any fun w => !winOk w.2.2 || s.sys.die[w.1].win.any fun e => decide (e.1 = w.2.1.val)

/-- Give a tenant its windows (R330, R363). -/
def giveWindows (tn : Fin 16) (l : List (Fin 4 × Fin 3072 × BitVec 128)) (s : State) : State :=
  l.foldl (fun (s : State) w => s.modDie w.1 fun d =>
    { d with win := insertWin w.2.1.val (ownWin tn w.2.2) d.win }) s

/-- A tenant's peers (R388). -/
def Sys.setPeers (x : Sys) (tn : Fin 16) (l : List (BitVec 13 × DWord)) : Sys :=
  { x with peers := l.map (fun p => (tn, p.1, p.2)) ++ x.peers.filter (fun p => decide (p.1 ≠ tn)) }

/-- TENANT_CREATE (R8, R330, R262, R285, R343, R363, R388): cores, windows, peers, batch buffers; every event
clear; the jigs of the cores emptied. -/
def execTenantCreate (tn : Fin 16) (grant : TenantGrant) (s : State) : Out :=
  if !s.booted || s.sys.tenants[tn].live || grantRefused s grant then .next s.pass
  else
    let s1 := s.modTenant tn fun t => {
      live := true, cores := grant.cores, home := grant.homeDie, bufs := grant.bufs
      wingen := t.wingen + 1 }
    let s2 := giveWindows tn grant.windows s1
    let s3 : State := { s2 with sys := s2.sys.setPeers tn grant.peers }
    .next (grant.cores.foldl (fun (s : State) k => s.modCore k.val fun c => { c with jig := {} }) s3).pass

/-- A destroyed tenant's waiting and saved tasks are gone. -/
def Task.dropFor (tn : Fin 16) (t : Task) : Task :=
  if t.tn = tn ∧ (t.state = .waiting ∨ t.state = .saved) then
    { t with state := .discarded, saved := [] }
  else t

/-- TENANT_DESTROY (R8, R285, R344): its events are clear and what it owned is released, the buffers its batches
occupy too; not while a task of it holds cores. -/
def execTenantDestroy (tn : Fin 16) (s : State) : Out :=
  if !s.booted || s.sys.tasks.any (fun t => decide (t.tn = tn) && t.onCores) then .next s.pass
  else
    let s1 := s.modTenant tn fun t => { wingen := t.wingen + 1 }
    let keep (d : Die) : Die := { d with win := d.win.filter fun e => winBits e.2 6 4 != tn.val }
    let y : Sys := s1.sys.setPeers tn []
    .next ({ s1 with sys := { y with
      die := y.die.map keep, tasks := y.tasks.map (Task.dropFor tn)
      maps := y.maps.filter fun m => !decide (m.tn = tn)
      sort := y.sort.filter fun b => !decide (b.tn = tn) } }).pass

/-- The window entry after its migration (R365): TGT 0, the new PBASE, STATE 1. -/
def migrated (e : BitVec 128) (pbase : BitVec 31) : BitVec 128 :=
  BitVec.ofNat 128 (e.toNat % 2 ^ 64 / 4 * 4 + 1 + pbase.toNat * 2 ^ 85)

/-- Whether a pager waits for a window (R365). -/
def pages (e : BitVec 128) (die : Fin 4) (c : Core) : Bool :=
  decide (c.id.die = die) && c.ctl.bank1 && decide (c.ctl.run = .running)
    && decide (c.ctl.regs.ecause = 0x05) && winCovers c.ctl.regs.tenant c.ctl.regs.eaddr.toNat e

/-- WINDOW_MIGRATED (R365): an absent window's bytes are copied from host memory into HBM, its entry is
rewritten, the generation rises, and the pagers that wait for it execute RFT. -/
def execWindowMigrated (die : Fin 4) (idx : Fin 3072) (pbase : BitVec 31) (s : State) : Out :=
  match s.sys.die[die].win.find? (fun e => decide (e.1 = idx.val)) with
  | none => .next s.pass
  | some (_, e) =>
    let size := 2 ^ winBits e 11 5
    let pa := pbase.toNat * 2 ^ 21
    if winBits e 0 2 ≠ 2 ∨ pa % size ≠ 0 ∨ 8 * 2 ^ 36 ≤ pa ∨ 48 * 2 ^ 30 < pa % 2 ^ 36 + size then
      .next s.pass
    else
      let tn : Fin 16 := ⟨winBits e 6 4, Nat.mod_lt _ (by decide)⟩
      let s1 := s.blitAt .host (winBits e 85 31 * 2 ^ 21) size .hbm pa
      let s2 := s1.modDie die fun d =>
        { d with win := insertWin idx.val (migrated e pbase) d.win }
      let s3 := s2.modTenant tn fun t => { t with wingen := t.wingen + 1 }
      .next (s3.coreNums.foldl (fun s k => s.asCore k fun s =>
        if pages e die s.core && !s.core.atRft then arriveRft s else s) s3).pass

/-- A migration has failed (R365, R380): the cores that wait for the window make their tasks abort with 0x05,
and the failure is logged. -/
def migrationFailed (die : Fin 4) (idx : Fin 3072) (s : State) : State :=
  match s.sys.die[die].win.find? (fun e => decide (e.1 = idx.val)) with
  | none => s
  | some (_, e) =>
    let stop (s : State) (c : Core) : State :=
      if !pages e die c then s
      else
        let s1 := s.logErrorOf c.id 5 0x05 0 0 c.ctl.regs.einfo
        match s1.taskOf c with
        | some t => abortTask t 0x05 c.ctl.regs.einfo c.ctl.regs.eaddr s1
        | none => s1
    (s.core :: s.others).foldl stop s

/-- PLACEMENT_REMOVAL (R7). -/
def execPlacementRemoval (c : Fin 128) (s : State) : Out :=
  .next ({ s with sys := { s.sys with
    removed := if s.sys.removed.contains c then s.sys.removed else c :: s.sys.removed } }).pass

end Sys2Proof.Machine
end

