-- ==== Sys2Proof/Machine/Boot.lean ====
section
/-! DEFINITION. Boot, identity, power and clocks (R8, R287, R389 to R391). -/

namespace Sys2Proof.Machine

/-- POWER_UP (R389): every die runs its boot ROM; what the package held is gone. -/
def execPowerUp (s : State) : Out :=
  .next ({ State.reset with
    sys := { State.reset.sys with host := s.sys.host }, free := s.free, inputs := s.inputs } : State).pass

/-- The device identity of a die (R389): the digest of its public key. -/
def identity (d : Fin 4) : List Byte := sha256 (Config.pubKey (Config.deviceSeed d))

/-- The image window of a die (R389): 64 KiB on page 0, which holds what the host wrote last. -/
def imageWindow (image : List Byte) : List Byte := image.take 65536

/-- FIRMWARE_DOWNLOAD (R389): while no firmware runs on the die, the ROM accepts the vendor key by its digest,
then the signature over the image; a failure reports step 2. Then it rebuilds the seed; a failure reports
step 3. Either leaves the die in its ROM. -/
def execFirmwareDownload (die : Fin 4) (image key signature : List Byte) (s : State) : Out :=
  let b := s.sys.die[die].boot
  if b = .off ∨ b = .trimmed then .next s.pass
  else
    let s1 := s.modDie die fun d => { d with boot := .rom, window := imageWindow image }
    if !(decide (sha256 key = Config.romDigest) && decide (key.length = 32)
        && decide (signature.length = 7856) && Config.sigOk key image signature) then
      .next (s1.modDie die fun d => { d with failed := 2 }).pass
    else
      let (k, s2) := s1.pick 2
      if k = 1 then .next (s2.modDie die fun d => { d with failed := 3 }).pass
      else .next (s2.modDie die fun d => { d with
        boot := .firmware, failed := 0, image := image, key := key, measured := [sha256 image] }).pass

/-- The system store that firmware loads (R389; log 12). -/
def storeOf (image : List Byte) : List Byte :=
  (List.range 65536).map fun i => Config.sysStoreByte image i

/-- TRIM_RECORD (R389): the vendor's signature, of 7,856 bytes, and the identity are checked; then the trims
are applied, the system stores are loaded and measured. A failure reports step 4 and leaves the die in its
ROM, and the host may retry the step. -/
def execTrimRecord (die : Fin 4) (record signature : List Byte) (s : State) : Out :=
  let d := s.sys.die[die]
  if d.boot ≠ .firmware then .next s.pass
  else if signature.length = 7856 ∧ Config.sigOk d.key record signature
      ∧ Config.trimNames record (identity die) then
    let m := storeOf d.image
    let s1 := s.modDie die fun d => { d with
      boot := .trimmed, failed := 0, trim := record, measured := d.measured ++ [sha256 m] }
    let put (c : Core) : Core := if c.id.die = die then { c with store := Mem.listed 0 m } else c
    .next ({ s1 with core := put s1.core, others := s1.others.map put }).pass
  else .next (s.modDie die fun d => { d with failed := 4 }).pass

/-- The body of a report (R390). -/
def reportBody (die : Fin 4) (d : Die) (nonce : List Byte) : List Byte :=
  identity die ++ d.measured.flatten ++ nonce ++ sha256 d.trim

/-- ATTESTATION_REPORT (R390): identity, measurements, nonce and trim digest, signed. -/
def execAttestationReport (die : Fin 4) (nonce : List Byte) (s : State) : Out :=
  let d := s.sys.die[die]
  if d.boot ≠ .trimmed then .next s.pass
  else
    let b := reportBody die d nonce
    .next ({ s with sys := { s.sys with
      report := b ++ Config.sign (Config.deviceSeed die) b } } : State).pass

/-- WARNING_TEMPERATURE (R391): firmware starts no new launch. -/
def execWarningTemperature (s : State) : Out :=
  .next ({ s with sys := { s.sys with
    thermal := if s.sys.thermal = .critical then .critical else .warning } } : State).pass

/-- The temperature falls below the warning (R391): launches start again. After the critical temperature only
a power-up ends the stop. -/
def cooled (s : State) : State :=
  { s with sys := { s.sys with
    thermal := if s.sys.thermal = .critical then .critical else .normal } }

/-- The critical temperature meets a task (R391): a gang of PRIO 0 to 2 is pre-empted, a task of PRIO 3
aborted with CAUSE 0x16. -/
def meetCritical (s : State) (t : Task) : State :=
  if t.state ≠ .running then s
  else if prioOf s t = 3 then abortTask t 0x16 0 0 s
  else raiseStop t s

/-- The error record of the critical temperature for a tenant (R391). -/
def criticalRecord (s : State) (tn : Fin 16) : State :=
  if s.sys.tenants[tn].live then
    s.writeRecord tn none 1 (errorBytes 3 0 0 0x16 0 0 0 (s.dieTick 0))
  else s

/-- CRITICAL_TEMPERATURE (R391): every task is stopped and reported; with no task on the cores, the
compute dies power down. All of it is firmware's, and before every die has booted none runs (R8). -/
def execCriticalTemperature (s : State) : Out :=
  let s := { s with sys := { s.sys with thermal := .critical } }
  if !s.booted then .next s.pass
  else if s.sys.tasks.any (·.onCores) then
    .next (s.sys.tasks.foldl meetCritical s).pass
  else
    let s1 := (List.finRange 16).foldl criticalRecord s
    .next ({ s1 with sys := { s1.sys with
      die := s1.sys.die.map fun d => { d with boot := .off } } } : State).pass

/-- Magnitude of a signed estimate. -/
def magnitude (x : BitVec 32) : Nat := x.toInt.natAbs

/-- A clock fault is reported to firmware (R287, R380). -/
def clockFault (die : Fin 4) (x : BitVec 32) (s : State) : State :=
  if 100000 < magnitude x then
    let bs := errorBytes 4 die.val 0 0 0 0 (x.zeroExtend 64) (s.dieTick die)
    s.note bs
  else s

/-- DRIFT_EXCHANGE (R287): the estimates that the last 64 exchanges give; 0 until 64 are complete. -/
def execDriftExchange (die : Fin 4) (fwd back : BitVec 32) (s : State) : Out :=
  let n := s.sys.die[die].exchanges + 1
  let s1 := s.modDie die fun d => { d with exchanges := n }
  if n < 64 then .next s1.pass
  else
    let s2 := s1.modDie die fun d => { d with driftFwd := fwd, driftBack := back }
    .next (clockFault die back (clockFault die fwd s2)).pass

end Sys2Proof.Machine
end

