-- ==== Sys2Proof/Machine/Branch.lean ====
section
/-! DEFINITION. Prepare and branch (R39 to R41, R79). -/

namespace Sys2Proof.Machine

/-- The word address a target half names. -/
def targetAddr (t : BitVec 46) : VAddr := BitVec.ofNat 48 (4 * t.toNat)

/-- Write the target half (R39): VALID, TARGET, and a fetch fault held if the target lies outside
the code image (R392). -/
def State.setTarget (s : State) (r : Fin 16) (a : VAddr) (taint : Bool) : State :=
  let held := !s.core.ctl.bank1 && (s.core.fetch a).isNone
  (s.setSteer r fun x => { x with
    valid := true, target := BitVec.ofNat 46 (a.toNat / 4), held := held
    setAt := some s.core.tick }).setTaintT r taint

/-- PREP (R39, R79). -/
def execPrep (sd : Fin 16) (off : BitVec 19) (s : State) : Out :=
  ctlWord [] s fun s0 => .issue (s0.setTarget sd (s0.core.nowAddr + off.signExtend 48 * 4) false)

/-- PREPR (R39): nonzero low bits trap with 0x03. -/
def execPrepr (sd : Fin 16) (a : Fin 32) (s : State) : Out :=
  ctlWord [a] s fun s0 =>
    let (x, s1) := s0.readG a
    if x.toNat % 4 ≠ 0 then .trap (access 0x03 (.prepr sd a) 3 (x.truncate 48) 0)
    else .issue (s1.setTarget sd (x.truncate 48) (s0.taint a))

/-- Ticks a branch waits after its steer register's target was set (R40). -/
def fetchWaits (c : Core) (x : Steer) : Bool :=
  match x.setAt with
  | none => false
  | some t => decide (c.tick < t + 3)

/-- How a branch changes the moved PC queue (R41): the redirect of the third word after it, and
the nullified delay slots. -/
def redirect (taken : Bool) (null : NullMode) (t : VAddr) (q : PcQueue) : PcQueue :=
  let q := if taken then { q with q2 := { q.q2 with addr := t } } else q
  if (null = .nt && !taken) || (null = .tk && taken) then
    { q with q0 := { q.q0 with nul := true }, q1 := { q.q1 with nul := true } }
  else q

/-- A branch (R40): the wait for fetch, then the checks of a taken branch, then the redirect. -/
def branch (i : Instr) (r : Fin 16) (null : NullMode) (taken readsCond link : Bool) (s : State) : Out :=
  ctlWord [] s fun s0 =>
    let x := s0.core.steer r
    let t := targetAddr x.target
    let tt := s0.taintS r
    if fetchWaits s0.core x then .wait s0
    else if taken && !x.valid then .trap (illegal i 0x0B s0.core.nowAddr 0)
    else if taken && (x.held || (s0.core.fetch t).isNone) then
      .raw (takeTrap (access 0x04 i 3 t 0) (s0.setSteer r fun y => { y with held := false }))
    else
      let s1 := s0.unreplayableIf ((readsCond && tt.1) || (taken && tt.2))
      let s2 := if link then s1.writeG 31 ((s0.core.nowAddr + 12).zeroExtend 64) 1 false else s1
      .branch s2 (redirect taken null t)

/-- BT (R40): taken when COND is 1. -/
def execBt (sd : Fin 16) (null : NullMode) (s : State) : Out :=
  branch (.bt sd null) sd null (s.core.steer sd).cond true false s

/-- BF (R40): taken when COND is 0. -/
def execBf (sd : Fin 16) (null : NullMode) (s : State) : Out :=
  branch (.bf sd null) sd null (!(s.core.steer sd).cond) true false s

/-- BA (R40): always taken. -/
def execBa (sd : Fin 16) (null : NullMode) (s : State) : Out :=
  branch (.ba sd null) sd null true false false s

/-- BL (R40): always taken, g31 := A + 12. -/
def execBl (sd : Fin 16) (null : NullMode) (s : State) : Out :=
  branch (.bl sd null) sd null true false true s

end Sys2Proof.Machine
end

