-- ==== Sys2Proof/Machine/Vector.lean ====
section
/-! DEFINITION. The vector engine's shell (R158, R217 to R219, R241, R373) and its arithmetic, compares,
selection, conversions, packing and quantising (R220 to R230). -/

namespace Sys2Proof.Machine

/-! ### Registers -/

/-- The physical register of a logical name (R158). -/
def Vec.phys (x : Vec) (k : Fin 24) : Fin 24 :=
  if k.val < 8 then k
  else ⟨(8 + (k.val - 8 + x.vb.toNat) % 16) % 24, Nat.mod_lt _ (by decide)⟩

/-- The physical predicate of a logical name (R158). -/
def Vec.physP (x : Vec) (k : Fin 16) : Fin 16 :=
  if k.val < 8 then k
  else ⟨(8 + (k.val - 8 + x.pb.toNat) % 8) % 16, Nat.mod_lt _ (by decide)⟩

/-- Older values that a read may still return (R219). -/
def oldsOf {α : Type} (l : List (Pend α)) (r tick : Nat) : List α :=
  (l.filter fun p => p.reg == r && decide (tick < p.due)).map (·.old)

/-- Read a physical vector register (R219): inside a shadow each lane is a free choice among the
values it may hold (log 8). -/
def State.readV (s : State) (k : Fin 24) : Lanes × State :=
  let x := s.core.vec
  match oldsOf x.pendV k.val s.core.tick with
  | [] => (x.v[k], s)
  | o :: os =>
    let l := o :: os ++ [x.v[k]]
    let f := s.free
    let v : Lanes := Vector.ofFn fun i =>
      vget (l.getD (Config.freeNat (f + i.val) % l.length) x.v[k]) i.val 0
    (v, { s with free := f + 64 })

/-- Read a physical predicate (R217, R219): p0 is all ones. -/
def State.readP (s : State) (k : Fin 16) : BitVec 64 × State :=
  let x := s.core.vec
  if k = 0 then (BitVec.allOnes 64, s)
  else
    match oldsOf x.pendP k.val s.core.tick with
    | [] => (x.p[k], s)
    | o :: os =>
      let l := o :: os ++ [x.p[k]]
      let f := s.free
      let bit (i : Nat) : Nat :=
        if (l.getD (Config.freeNat (f + i) % l.length) x.p[k]).getLsbD i then 2 ^ i else 0
      (BitVec.ofNat 64 ((List.range 64).map bit).sum, { s with free := f + 64 })

/-- The pending list after a write (R219): while an earlier write is in its shadow, both stay
pending to the later bound. -/
def pendAfter {α : Type} (l : List (Pend α)) (r tick bound : Nat) (old : α) : List (Pend α) :=
  let live := l.filter fun p => p.reg == r && decide (tick < p.due)
  let rest := l.filter fun p => !(p.reg == r) && decide (tick < p.due)
  let due := live.foldl (fun m p => max m p.due) (tick + bound)
  rest ++ live.map (fun p => { p with due := due }) ++ [⟨r, old, due⟩]

/-- Write a physical vector register with its bound (R69, R219). -/
def State.writeV (s : State) (k : Fin 24) (v : Lanes) (bound : Nat) : State :=
  s.upd fun c => { c with vec := { c.vec with
    v := c.vec.v.set k.val v k.isLt
    pendV := pendAfter c.vec.pendV k.val c.tick bound c.vec.v[k] } }

/-- Write a physical predicate; a write of p0 is discarded (R217). -/
def State.writeP (s : State) (k : Fin 16) (v : BitVec 64) (bound : Nat) : State :=
  if k = 0 then s
  else s.upd fun c => { c with vec := { c.vec with
    p := c.vec.p.set k.val v k.isLt
    pendP := pendAfter c.vec.pendP k.val c.tick bound c.vec.p[k] } }

/-! ### Operands -/

/-- The vector registers that sources name. -/
def srcRegs (x : Vec) (l : List VSrc) : List (Fin 24) :=
  l.filterMap fun a => match a with | .v k => some (x.phys k) | _ => none

/-- The queues that sources name, each once (R65). -/
def srcQueues (l : List VSrc) : List (Fin 4) :=
  (l.filterMap fun a => match a with | .vq q => some q | _ => none).eraseDups

/-- A source's lanes (R65); an entry read here is popped when the word issues. -/
def State.readSrc (s : State) (a : VSrc) : Lanes × State :=
  match a with
  | .v k => s.readV (s.core.vec.phys k)
  | .vq q => (((s.core.q.vq[q].head?).map (·.lanes)).getD (.replicate 64 0), s)
  | .lane => (Vector.ofFn fun i => BitVec.ofNat 32 i.val, s)
  | .vz => (.replicate 64 0, s)

/-- Whether a destination can take a push (R143, R160). -/
def Core.dstRoom (c : Core) : VDst → Bool
  | .wq => decide (c.q.wq.length < 8)
  | .mq => decide (c.q.mq.length < 4)
  | _ => true

/-- Cause 0x08 for a register read inside its shadow (R373): kind 2 `v`, 3 `p`. -/
def vShadow (c : Core) (vs : List (Fin 24)) (ps : List (Fin 16)) : Option TrapRec :=
  if !c.ctl.regs.shadow then none
  else
    match vs.find? fun k => !(oldsOf c.vec.pendV k.val c.tick).isEmpty with
    | some k => some { cause := 0x08, info := BitVec.ofNat 64 (2 + 3 * 2 ^ 8 + k.val * 2 ^ 16) }
    | none =>
      match ps.find? fun k => k ≠ 0 && !(oldsOf c.vec.pendP k.val c.tick).isEmpty with
      | some k => some { cause := 0x08, info := BitVec.ofNat 64 (3 + 3 * 2 ^ 8 + k.val * 2 ^ 16) }
      | none => none

/-- Marks of R376 for what a word reads. -/
def vReads (vs : List (Fin 24)) (ps : List (Fin 16)) (s : State) : State :=
  let c := s.core.phase.carried
  s.readsIf (vs.any (fun k => c.v.getLsbD k.val) || ps.any fun k => k ≠ 0 && c.p.getLsbD k.val)

/-- A vector register written whole loses its mark (R376). -/
def State.wholeV (s : State) (k : Fin 24) : State :=
  s.updCarried fun c => { c with v := c.v &&& ~~~(BitVec.ofNat 24 (2 ^ k.val)) }
/-- A predicate written whole. -/
def State.wholeP (s : State) (k : Fin 16) : State :=
  s.updCarried fun c => { c with p := c.p &&& ~~~(BitVec.ofNat 16 (2 ^ k.val)) }

/-- Lanes merged under a mask. -/
def mergeLanes (m : BitVec 64) (new old : Lanes) : Lanes :=
  Vector.ofFn fun i => if m.getLsbD i.val then new[i] else old[i]

/-- Deliver results (R218): a register keeps its inactive lanes; a queue entry holds 0 there and the
mask. -/
def State.deliver (s : State) (d : VDst) (mask : BitVec 64) (v : Lanes) (bound : Nat) : State :=
  let e : LaneEntry := { lanes := mergeLanes mask v (.replicate 64 0), mask := mask }
  match d with
  | .v k =>
    let r := s.core.vec.phys k
    let s1 := if mask = BitVec.allOnes 64 then s.wholeV r
      else s.readsIf (s.core.phase.carried.v.getLsbD r.val)
    s1.writeV r (mergeLanes mask v s.core.vec.v[r]) bound
  | .wq => s.updQ fun q => { q with wq := q.wq ++ [e] }
  | .mq => s.updQ fun q => { q with mq := q.mq ++ [e] }
  | .discard => s

/-- Contributions to VFLAGS (R137, R138). -/
def State.vflag (s : State) (f : FlagBits) (nans : Nat) : State :=
  s.upd fun c => { c with vec := { c.vec with vflags := c.vec.vflags.merge f nans } }

/-- A vector word (R218, R143): its queues hold entries and have room, the shadow check, then the
body on the state with the entries popped. `vs` are registers it reads besides its sources. -/
def vWord (tk : Tok) (i : Instr) (srcs : List VSrc) (ps : List (Fin 16)) (vs : List (Fin 24))
    (d : VDst) (s : State) (check : State → Option TrapRec) (body : State → State) : Out :=
  engWord .vector tk i s fun x s0 =>
    let c := s0.core
    let qs := srcQueues srcs
    if qs.any (fun q => c.q.vq[q].isEmpty) || !c.dstRoom d then .wait
    else
      let regs := srcRegs c.vec srcs ++ vs
      let pr := ps.map c.vec.physP
      match vShadow c regs pr with
      | some t => .trap t s0
      | none =>
        match check s0 with
        | some t => .trap { t with addr := x.addr } s0
        | none =>
          let s1 := body (vReads regs pr s0)
          .issue (qs.foldl (fun s q => s.popVq q) s1) {}

/-- No check of its own. -/
def noCheck : State → Option TrapRec := fun _ => none

/-! ### Lane by lane -/

/-- Results of a lane function, with the flags and NaN count of the active lanes (R137). -/
def lanesBy (mask : BitVec 64) (f : Nat → Word × FlagBits) (nan : Nat → Bool) :
    Lanes × FlagBits × Nat :=
  let r := (List.range 64).map f
  let act := (List.range 64).filter fun i => mask.getLsbD i
  (Vector.ofFn fun i => (r.getD i.val (0, 0)).1,
    act.foldl (fun a i => a ||| (r.getD i (0, 0)).2) 0, (act.filter nan).length)

/-- A word of two sources, lane by lane: the function, and whether it reads its sources as F32. -/
def vLane2 (f : Word → Word → Word × FlagBits) (fp : Bool) (bound : Nat) (tk : Tok) (i : Instr)
    (d : VDst) (a b : VSrc) (p : Fin 16) (s : State) : Out :=
  vWord tk i [a, b] [p] [] d s noCheck fun s0 =>
    let (x, s1) := s0.readSrc a
    let (y, s2) := s1.readSrc b
    let (m, s3) := s2.readP (s2.core.vec.physP p)
    let (v, fl, n) := lanesBy m (fun i => f (vget x i 0) (vget y i 0))
      fun i => fp && (isNaN (vget x i 0) || isNaN (vget y i 0))
    (s3.deliver d m v bound).vflag fl n

/-- A word of one source, lane by lane. -/
def vLane1 (f : Word → Word × FlagBits) (fp : Bool) (bound : Nat) (tk : Tok) (i : Instr)
    (d : VDst) (a : VSrc) (p : Fin 16) (s : State) : Out :=
  vWord tk i [a] [p] [] d s noCheck fun s0 =>
    let (x, s1) := s0.readSrc a
    let (m, s2) := s1.readP (s1.core.vec.physP p)
    let (v, fl, n) := lanesBy m (fun i => f (vget x i 0)) fun i => fp && isNaN (vget x i 0)
    (s2.deliver d m v bound).vflag fl n

/-- A function without flags. -/
def pure2 (f : Word → Word → Word) (x y : Word) : Word × FlagBits := (f x y, 0)

/-- VADD (R220). -/
def execVadd (t : Tok) (d : VDst) (a b : VSrc) (p : Fin 16) (s : State) : Out :=
  vLane2 fAdd true 3 t (.vadd t d a b p) d a b p s
/-- VSUB (R220). -/
def execVsub (t : Tok) (d : VDst) (a b : VSrc) (p : Fin 16) (s : State) : Out :=
  vLane2 fSub true 3 t (.vsub t d a b p) d a b p s
/-- VMUL (R220). -/
def execVmul (t : Tok) (d : VDst) (a b : VSrc) (p : Fin 16) (s : State) : Out :=
  vLane2 fMul true 5 t (.vmul t d a b p) d a b p s

/-- The destination register that VFMA reads (R220). -/
def fmaRegs (x : Vec) : VDst → List (Fin 24)
  | .v k => [x.phys k]
  | _ => []

/-- VFMA (R220): the addend is the destination register's value at issue, or +0. -/
def execVfma (t : Tok) (d : VDst) (a b : VSrc) (p : Fin 16) (s : State) : Out :=
  vWord t (.vfma t d a b p) [a, b] [p] (fmaRegs s.core.vec d) d s noCheck fun s0 =>
    let (x, s1) := s0.readSrc a
    let (y, s2) := s1.readSrc b
    let (z, s3) := match d with
      | .v k => s2.readV (s2.core.vec.phys k)
      | _ => (.replicate 64 0, s2)
    let (m, s4) := s3.readP (s3.core.vec.physP p)
    let (v, fl, n) := lanesBy m (fun i => fFma (vget x i 0) (vget y i 0) (vget z i 0))
      fun i => isNaN (vget x i 0) || isNaN (vget y i 0) || isNaN (vget z i 0)
    (s4.deliver d m v 5).vflag fl n

/-- VMIN (R220). -/
def execVmin (t : Tok) (d : VDst) (a b : VSrc) (p : Fin 16) (s : State) : Out :=
  vLane2 (fMinMax false) true 3 t (.vmin t d a b p) d a b p s
/-- VMAX (R220). -/
def execVmax (t : Tok) (d : VDst) (a b : VSrc) (p : Fin 16) (s : State) : Out :=
  vLane2 (fMinMax true) true 3 t (.vmax t d a b p) d a b p s
/-- VABS (R220): the sign bit alone. -/
def execVabs (t : Tok) (d : VDst) (a : VSrc) (p : Fin 16) (s : State) : Out :=
  vLane1 (fun x => (x &&& 0x7FFFFFFF, 0)) false 3 t (.vabs t d a p) d a p s
/-- VNEG (R220): the sign bit alone. -/
def execVneg (t : Tok) (d : VDst) (a : VSrc) (p : Fin 16) (s : State) : Out :=
  vLane1 (fun x => (fNeg x, 0)) false 3 t (.vneg t d a p) d a p s
/-- VRCP (R221). -/
def execVrcp (t : Tok) (d : VDst) (a : VSrc) (p : Fin 16) (s : State) : Out :=
  vLane1 fRcp true 12 t (.vrcp t d a p) d a p s
/-- VRSQ (R221). -/
def execVrsq (t : Tok) (d : VDst) (a : VSrc) (p : Fin 16) (s : State) : Out :=
  vLane1 fRsq true 12 t (.vrsq t d a p) d a p s
/-- VEXP2 (R221). -/
def execVexp2 (t : Tok) (d : VDst) (a : VSrc) (p : Fin 16) (s : State) : Out :=
  vLane1 fExp2 true 12 t (.vexp2 t d a p) d a p s
/-- VLOG2 (R221). -/
def execVlog2 (t : Tok) (d : VDst) (a : VSrc) (p : Fin 16) (s : State) : Out :=
  vLane1 fLog2 true 12 t (.vlog2 t d a p) d a p s

/-! ### Integer and logic words (R222) -/

/-- VIADD (R222). -/
def execViadd (t : Tok) (d : VDst) (a b : VSrc) (p : Fin 16) (s : State) : Out :=
  vLane2 (pure2 fun x y => x + y) false 3 t (.viadd t d a b p) d a b p s
/-- VISUB (R222). -/
def execVisub (t : Tok) (d : VDst) (a b : VSrc) (p : Fin 16) (s : State) : Out :=
  vLane2 (pure2 fun x y => x - y) false 3 t (.visub t d a b p) d a b p s
/-- VIMUL (R222). -/
def execVimul (t : Tok) (d : VDst) (a b : VSrc) (p : Fin 16) (s : State) : Out :=
  vLane2 (pure2 fun x y => x * y) false 3 t (.vimul t d a b p) d a b p s
/-- VIMIN (R222). -/
def execVimin (t : Tok) (d : VDst) (a b : VSrc) (p : Fin 16) (s : State) : Out :=
  vLane2 (pure2 fun x y => if y.slt x then y else x) false 3 t (.vimin t d a b p) d a b p s
/-- VIMAX (R222). -/
def execVimax (t : Tok) (d : VDst) (a b : VSrc) (p : Fin 16) (s : State) : Out :=
  vLane2 (pure2 fun x y => if x.slt y then y else x) false 3 t (.vimax t d a b p) d a b p s
/-- VIMINU (R222). -/
def execViminu (t : Tok) (d : VDst) (a b : VSrc) (p : Fin 16) (s : State) : Out :=
  vLane2 (pure2 fun x y => if y.ult x then y else x) false 3 t (.viminu t d a b p) d a b p s
/-- VIMAXU (R222). -/
def execVimaxu (t : Tok) (d : VDst) (a b : VSrc) (p : Fin 16) (s : State) : Out :=
  vLane2 (pure2 fun x y => if x.ult y then y else x) false 3 t (.vimaxu t d a b p) d a b p s
/-- VAND (R222). -/
def execVand (t : Tok) (d : VDst) (a b : VSrc) (p : Fin 16) (s : State) : Out :=
  vLane2 (pure2 fun x y => x &&& y) false 3 t (.vand t d a b p) d a b p s
/-- VOR (R222). -/
def execVor (t : Tok) (d : VDst) (a b : VSrc) (p : Fin 16) (s : State) : Out :=
  vLane2 (pure2 fun x y => x ||| y) false 3 t (.vor t d a b p) d a b p s
/-- VXOR (R222). -/
def execVxor (t : Tok) (d : VDst) (a b : VSrc) (p : Fin 16) (s : State) : Out :=
  vLane2 (pure2 fun x y => x ^^^ y) false 3 t (.vxor t d a b p) d a b p s
/-- VSHL (R222). -/
def execVshl (t : Tok) (d : VDst) (a b : VSrc) (p : Fin 16) (s : State) : Out :=
  vLane2 (pure2 fun x y => x <<< (y.toNat % 32)) false 3 t (.vshl t d a b p) d a b p s
/-- VSHR (R222). -/
def execVshr (t : Tok) (d : VDst) (a b : VSrc) (p : Fin 16) (s : State) : Out :=
  vLane2 (pure2 fun x y => x >>> (y.toNat % 32)) false 3 t (.vshr t d a b p) d a b p s
/-- VSRA (R222). -/
def execVsra (t : Tok) (d : VDst) (a b : VSrc) (p : Fin 16) (s : State) : Out :=
  vLane2 (pure2 fun x y => x.sshiftRight (y.toNat % 32)) false 3 t (.vsra t d a b p) d a b p s

/-! ### Compares, predicate logic, selection (R223 to R225) -/

/-- VCMP on F32 lanes: the bit and IV (R223). -/
def cmpF (cc : VCc) (x y : Word) : Bool × FlagBits :=
  let sn := flagIf (isSNaN x || isSNaN y) fIV
  if isNaN x || isNaN y then
    match cc with
    | .eq => (false, sn) | .ne => (true, sn) | .un => (true, sn) | .or => (false, sn)
    | _ => (false, fIV)
  else
    (match cc with
      | .eq => fEq x y | .ne => !fEq x y | .lt => fLt x y | .le => fLt x y || fEq x y
      | .gt => fLt y x | .ge => fLt y x || fEq x y | .un => false | .or => true, 0)

/-- VCMP on integer lanes (R223); UN and OR never reach it (R66). -/
def cmpI32 (cc : VCc) (sg : Bool) (x y : Word) : Bool :=
  let lt (x y : Word) : Bool := if sg then x.slt y else x.ult y
  match cc with
  | .eq => x == y | .ne => x != y | .lt => lt x y | .le => !lt y x | .gt => lt y x | .ge => !lt x y
  | .un => false | .or => true

/-- A 64-bit predicate from lane bits. -/
def predOf (f : Nat → Bool) : BitVec 64 :=
  BitVec.ofNat 64 ((List.range 64).map fun i => if f i then 2 ^ i else 0).sum

/-- VCMP (R223): all 64 lanes. UN and OR with an integer type trap when decoded (R66). -/
def execVcmp (t : Tok) (cc : VCc) (ty : VTy) (pd : Fin 16) (a b : VSrc) (s : State) : Out :=
  vWord t (.vcmp t cc ty pd a b) [a, b] [] [] .discard s noCheck fun s0 =>
    let (x, s1) := s0.readSrc a
    let (y, s2) := s1.readSrc b
    let lane (i : Nat) : Bool × FlagBits :=
      match ty with
      | .f => cmpF cc (vget x i 0) (vget y i 0)
      | .i => (cmpI32 cc true (vget x i 0) (vget y i 0), 0)
      | .u => (cmpI32 cc false (vget x i 0) (vget y i 0), 0)
    let fl := (List.range 64).foldl (fun f i => f ||| (lane i).2) (0 : FlagBits)
    let n := ((List.range 64).filter fun i =>
      decide (ty = .f) && (isNaN (vget x i 0) || isNaN (vget y i 0))).length
    let k := s2.core.vec.physP pd
    ((s2.wholeP k).writeP k (predOf fun i => (lane i).1) 3).vflag fl n

/-- PLOG's functions (R224). -/
def plogFn (fn : PFn) (x y : BitVec 64) : BitVec 64 :=
  match fn with
  | .and => x &&& y | .or => x ||| y | .xor => x ^^^ y | .andn => x &&& ~~~y | .not => ~~~x
  | .mov => x | .all => BitVec.allOnes 64 | .none => 0

/-- The predicates that PLOG reads (R224). -/
def plogReads (fn : PFn) (pa pb : Fin 16) : List (Fin 16) :=
  match fn with
  | .not => [pa] | .mov => [pa] | .all => [] | .none => [] | _ => [pa, pb]

/-- PLOG (R224). -/
def execPlog (t : Tok) (fn : PFn) (pd pa pb : Fin 16) (s : State) : Out :=
  vWord t (.plog t fn pd pa pb) [] (plogReads fn pa pb) [] .discard s noCheck fun s0 =>
    let (x, s1) := s0.readP (s0.core.vec.physP pa)
    let (y, s2) := s1.readP (s1.core.vec.physP pb)
    let k := s2.core.vec.physP pd
    (s2.wholeP k).writeP k (plogFn fn x y) 3

/-- VSEL (R225): every lane. -/
def execVsel (t : Tok) (d : VDst) (a b : VSrc) (p : Fin 16) (s : State) : Out :=
  vWord t (.vsel t d a b p) [a, b] [p] [] d s noCheck fun s0 =>
    let (x, s1) := s0.readSrc a
    let (y, s2) := s1.readSrc b
    let (m, s3) := s2.readP (s2.core.vec.physP p)
    s3.deliver d (BitVec.allOnes 64) (mergeLanes m x y) 3

/-! ### Conversion and packing (R226 to R228) -/

/-- The lanes of RAND32 from the generator's state (R132, R233). -/
def draws (x : Vec) : Lanes := Vector.ofFn fun i => rand32 x.vrk (x.vrc + BitVec.ofNat 128 i.val)

/-- 64 draws are consumed (R132, R233, R376). -/
def State.useDraws (s : State) : State :=
  (s.readsIf s.core.phase.carried.gen).upd fun c =>
    { c with vec := { c.vec with vrc := c.vec.vrc + 64 } }

/-- VCVT (R226): all lanes; SR consumes 64 draws whatever the conversion (R132). -/
def execVcvt (t : Tok) (d : VDst) (a : VSrc) (conv : Conv) (rnd : Rnd) (sat : Bool) (s : State) : Out :=
  vWord t (.vcvt t d a conv rnd sat) [a] [] [] d s noCheck fun s0 =>
    let (x, s1) := s0.readSrc a
    let r := draws s1.core.vec
    let (v, fl, n) := lanesBy (BitVec.allOnes 64)
      (fun i => convert conv rnd sat (vget r i 0).toNat (vget x i 0))
      fun i => convNaN conv (vget x i 0)
    let s2 := (s1.deliver d (BitVec.allOnes 64) v 4).vflag fl n
    if rnd = .sr then s2.useDraws else s2

/-- Bits of a field. -/
def packBits : PackW → Nat
  | .w16 => 16 | .w8 => 8 | .w4 => 4

/-- VPACK's image (R227). -/
def packImage (w : Nat) (a b : Lanes) : Lanes :=
  let x (j : Nat) : Nat := (if j < 64 then vget a j 0 else vget b (j - 64) 0).toNat
  let n := 32 / w
  Vector.ofFn fun l => BitVec.ofNat 32 ((List.range n).map fun k =>
    if n * l.val + k < 128 then x (n * l.val + k) % 2 ^ w * 2 ^ (w * k) else 0).sum

/-- VPACK (R227). -/
def execVpack (t : Tok) (d : VDst) (a b : VSrc) (w : PackW) (s : State) : Out :=
  vWord t (.vpack t d a b w) [a, b] [] [] d s noCheck fun s0 =>
    let (x, s1) := s0.readSrc a
    let (y, s2) := s1.readSrc b
    s2.deliver d (BitVec.allOnes 64) (packImage (packBits w) x y) 4

/-- Field k of an image of w-bit fields (R228). -/
def fieldAt (w : Nat) (a : Lanes) (k : Nat) : Word :=
  BitVec.ofNat 32 ((vget a (w * k / 32) 0).toNat / 2 ^ (w * k % 32) % 2 ^ w)

/-- VUNPK (R228). -/
def execVunpk (t : Tok) (d : VDst) (a b : VSrc) (w : PackW) (s : State) : Out :=
  vWord t (.vunpk t d a b w) [a, b] [] [] d s noCheck fun s0 =>
    let (x, s1) := s0.readSrc a
    let (y, s2) := s1.readSrc b
    let v : Lanes := Vector.ofFn fun i => fieldAt (packBits w) x (y[i].toNat % (2048 / (packBits w)))
    s2.deliver d (BitVec.allOnes 64) v 4

/-! ### Quantising (R229, R230) -/

/-- A code with its flags: F32 → E4 or E5 of x / 2^k, RNE, sat = 1 (R229, R134). -/
def quantE (f : FFmt) (neg : Bool) (num : Nat) (e : Int) : Nat × FlagBits :=
  if num = 0 then (0, 0)
  else
    let sg := if neg then 0x80 else 0
    let r := roundGrid f .rne neg 0 { num := num, e := e }
    if r.over f then (sg + 0x7F, fOF ||| fNX)
    else
      let p := packMag f r.k r.q
      (if p = 0 then 0 else sg + p, flagIf r.inex fNX ||| flagIf (r.inex && r.tiny) fUF)

/-- A Q4X code: RNE to an integer clamped to −7..7, as a nibble (R229). -/
def quantQ (neg : Bool) (num : Nat) (e : Int) : Nat × FlagBits :=
  let (k, inex) := roundTo .rne neg 0 { num := num, e := e } 0
  let m := min k 7
  (if neg then (16 - m) % 16 else m, flagIf inex fNX ||| flagIf (decide (7 < k)) fOF)

/-- ⌊log2⌋ of the largest magnitude of a block, none where every element is 0. -/
def blockLead (l : List Word) : Option Int :=
  l.foldl (fun m x => match f32 x with
    | .fin _ n e => if n = 0 then m else
        (match m with
        | none => some ((Nat.log2 n : Int) + e)
        | some y => some (max y ((Nat.log2 n : Int) + e)))
    | _ => m) none

/-- One block of VQUANT: X, the 32 codes, flags (R229). -/
def quantBlock (f : QFmt) (l : List Word) : Nat × List Nat × FlagBits :=
  let emax : Int := match f with
    | .e4 => 7 | .e5 => 15 | .q4x => 2
  if l.any fun x => match f32 x with | .fin _ _ _ => false | _ => true then
    (0xFF, List.replicate 32 0, fIV)
  else
    let x : Nat := match blockLead l with
      | none => 0
      | some m => min (m - emax + 127).toNat 254
    let cs := l.map fun w => match f32 w with
      | .fin a n e =>
        let g := e - ((x : Int) - 127)
        (match f with
          | .e4 => quantE fE4 a n g
          | .e5 => quantE fE5 a n g
          | .q4x => quantQ a n g)
      | _ => (0, 0)
    (x, cs.map (·.1), cs.foldl (fun f c => f ||| c.2) 0)

/-- VQUANT's result and flags (R229). -/
def quantize (f : QFmt) (a : Lanes) : Lanes × FlagBits :=
  let (x0, c0, f0) := quantBlock f (a.toList.take 32)
  let (x1, c1, f1) := quantBlock f (a.toList.drop 32)
  let cs := c0 ++ c1
  let w : Nat := match f with
    | .q4x => 4
    | _ => 8
  let n := 32 / w
  let lane (l : Nat) : Nat :=
    if l = 16 then x0 else if l = 17 then x1
    else ((List.range n).map fun k => cs.getD (n * l + k) 0 * 2 ^ (w * k)).sum
  (Vector.ofFn fun i => BitVec.ofNat 32 (lane i.val), f0 ||| f1)

/-- VQUANT (R229). -/
def execVquant (t : Tok) (d : VDst) (a : VSrc) (f : QFmt) (s : State) : Out :=
  vWord t (.vquant t d a f) [a] [] [] d s noCheck fun s0 =>
    let (x, s1) := s0.readSrc a
    let (v, fl) := quantize f x
    (s1.deliver d (BitVec.allOnes 64) v 8).vflag fl (x.toList.filter isNaN).length

/-- Nibble i of VDEQ's Q4X source (R229, R230). -/
def deqNibble (a : Lanes) (i : Nat) : Nat := (fieldAt 4 a i).toNat

/-- The first pair of VDEQ's source with two markers (R230). -/
def deqBad (f : QFmt) (a : Lanes) : Option Nat :=
  match f with
  | .q4x => (List.range 32).findSome? fun p =>
      if deqNibble a (2 * p) = 8 ∧ deqNibble a (2 * p + 1) = 8 then some (2 * p) else none
  | _ => none

/-- An exact value of VDEQ's code i, none for a NaN code (R123, R129). -/
def deqValue (f : QFmt) (a : Lanes) (i : Nat) : Option (Int × Int) :=
  let sg (x : Option (Bool × Nat × Int)) : Option (Int × Int) :=
    x.map fun v => (if v.1 then -(v.2.1 : Int) else v.2.1, v.2.2)
  match f with
  | .e4 => sg (decodeE true (fieldAt 8 a i).toNat)
  | .e5 => sg (decodeE false (fieldAt 8 a i).toNat)
  | .q4x =>
    let p := i / 2
    match q4xPair (deqNibble a (2 * p)) (deqNibble a (2 * p + 1)) with
    | some (x, y) => some (if i % 2 = 0 then x else y, 0)
    | none => none

/-- A lane of VDEQ: value, flags, whether it counts toward NANC (R230). -/
def deqLane (f : QFmt) (a : Lanes) (i : Nat) : Word × FlagBits × Bool :=
  let x := (vget a (16 + i / 32) 0).toNat % 256
  match deqValue f a i with
  | none => (cNaN, 0, true)
  | some (n, e) =>
    if x = 255 then (cNaN, 0, true)
    else
      let r := intToF32 n (e + x - 127) false
      (r.1, r.2, false)

/-- VDEQ (R230): a pair with two markers traps with 0x0A before any effect. -/
def execVdeq (t : Tok) (d : VDst) (a : VSrc) (f : QFmt) (s : State) : Out :=
  vWord t (.vdeq t d a f) [a] [] [] d s
    (fun s0 => (deqBad f (s0.readSrc a).1).map fun k => { cause := 0x0A, info := q4xInfo 0 k })
    fun s0 =>
      let (x, s1) := s0.readSrc a
      let r := (List.range 64).map (deqLane f x)
      let v : Lanes := Vector.ofFn fun i => (r.getD i.val (0, 0, false)).1
      let fl := r.foldl (fun f e => f ||| e.2.1) (0 : FlagBits)
      (s1.deliver d (BitVec.allOnes 64) v 8).vflag fl (r.filter (·.2.2)).length

end Sys2Proof.Machine
end

