-- ==== Sys2Proof/Machine/VecMove.lean ====
section
/-! DEFINITION. Vector reductions, moves, the keyed generator, the deferral queue, rotation, replies,
flags (R139, R158, R231 to R240). -/

namespace Sys2Proof.Machine

/-! ### Reductions (R139, R231) -/

/-- A node of the tree: value, lowest NaN lane, winner's lane. -/
structure RNode where
  val : Word
  nan : Option Nat
  lane : Nat
  deriving DecidableEq, Repr

/-- The lower of two NaN lanes. -/
def minNan : Option Nat → Option Nat → Option Nat
  | none, y => y
  | x, none => x
  | some x, some y => some (min x y)

/-- One level of the tree, with flags. -/
def treeLevel (op : RNode → RNode → RNode × FlagBits) :
    List (Option RNode) → List (Option RNode) × FlagBits
  | x :: y :: t =>
    let (l, f) := treeLevel op t
    (match x, y with
    | none, y => (y :: l, f)
    | x, none => (x :: l, f)
    | some a, some b =>
      let (c, g) := op a b
      (some c :: l, f ||| g))
  | l => (l, 0)

/-- Six levels from 64 leaves to the root. -/
def tree (op : RNode → RNode → RNode × FlagBits) (l : List (Option RNode)) : Option RNode × FlagBits :=
  let r := (List.range 6).foldl (fun (st : List (Option RNode) × FlagBits) _ =>
    let (l, f) := treeLevel op st.1
    (l, st.2 ||| f)) (l, 0)
  ((r.1.head?).join, r.2)

/-- VRSUM's node operation: an F32 addition, a NaN input deciding the result (R139). -/
def sumNode (a b : RNode) : RNode × FlagBits :=
  match minNan a.nan b.nan with
  | some k => ({ a with nan := some k }, 0)
  | none =>
    let r := fAdd a.val b.val
    ({ a with val := r.1 }, r.2)

/-- VRMAX's and VRMIN's node operation: ties keep the left node (R231). -/
def pickNode (mx : Bool) (a b : RNode) : RNode × FlagBits :=
  match minNan a.nan b.nan with
  | some k => ({ a with nan := some k }, 0)
  | none =>
    let right := if mx then decide (fKey a.val < fKey b.val) else decide (fKey b.val < fKey a.val)
    (if right then b else a, 0)

/-- The leaves (R139): an inactive lane is absent, and with `.NN` a NaN lane too. -/
def leaves (a : Lanes) (m : BitVec 64) (nn : Bool) : List (Option RNode) :=
  (List.range 64).map fun i =>
    let x := vget a i 0
    if !m.getLsbD i || (nn && isNaN x) then none
    else some { val := x, nan := if isNaN x then some i else none, lane := i }

/-- Lanes 0 and 1 of a reduction (R231). -/
def reduced (a : Lanes) (r : Option RNode) (absent : Word) (sum : Bool) : Lanes :=
  let (x, y) : Word × Word := match r with
    | none => (absent, 0xFFFFFFFF)
    | some n => match n.nan with
      | some k => (quiet (vget a k 0), BitVec.ofNat 32 k)
      | none => (n.val, if sum then 0xFFFFFFFF else BitVec.ofNat 32 n.lane)
  Vector.ofFn fun i => if i.val = 0 then x else if i.val = 1 then y else 0

/-- A reduction (R231): the predicate chooses the inputs, every lane is written. -/
def reduction (op : RNode → RNode → RNode × FlagBits) (absent : Word) (sum nn : Bool) (t : Tok)
    (i : Instr) (d : VDst) (a : VSrc) (p : Fin 16) (s : State) : Out :=
  vWord t i [a] [p] [] d s noCheck fun s0 =>
    let (x, s1) := s0.readSrc a
    let (m, s2) := s1.readP (s1.core.vec.physP p)
    let act := (List.range 64).filter fun k => m.getLsbD k
    let (r, f) := tree op (leaves x m nn)
    let iv := flagIf (act.any fun k => isSNaN (vget x k 0)) fIV
    (s2.deliver d (BitVec.allOnes 64) (reduced x r absent sum) 9).vflag (f ||| iv)
      (act.filter fun k => isNaN (vget x k 0)).length

/-- VRSUM (R231). -/
def execVrsum (t : Tok) (d : VDst) (a : VSrc) (p : Fin 16) (s : State) : Out :=
  reduction sumNode 0 true false t (.vrsum t d a p) d a p s
/-- VRMAX (R231). -/
def execVrmax (t : Tok) (d : VDst) (a : VSrc) (nn : Bool) (p : Fin 16) (s : State) : Out :=
  reduction (pickNode true) 0xFF800000 false nn t (.vrmax t d a nn p) d a p s
/-- VRMIN (R231). -/
def execVrmin (t : Tok) (d : VDst) (a : VSrc) (nn : Bool) (p : Fin 16) (s : State) : Out :=
  reduction (pickNode false) 0x7F800000 false nn t (.vrmin t d a nn p) d a p s

/-! ### Moves (R232) -/

/-- VPERM (R232). -/
def execVperm (t : Tok) (d : VDst) (a b : VSrc) (p : Fin 16) (s : State) : Out :=
  vWord t (.vperm t d a b p) [a, b] [p] [] d s noCheck fun s0 =>
    let (x, s1) := s0.readSrc a
    let (y, s2) := s1.readSrc b
    let (m, s3) := s2.readP (s2.core.vec.physP p)
    let v : Lanes := Vector.ofFn fun i => vget x (y[i].toNat % 64) 0
    s3.deliver d m v 3

/-- VBCST (R232): every lane. -/
def execVbcst (t : Tok) (d : VDst) (a : VSrc) (lane : Fin 64) (s : State) : Out :=
  vWord t (.vbcst t d a lane) [a] [] [] d s noCheck fun s0 =>
    let (x, s1) := s0.readSrc a
    s1.deliver d (BitVec.allOnes 64) (.replicate 64 x[lane]) 3

/-- VMOV (R232). -/
def execVmov (t : Tok) (d : VDst) (a : VSrc) (p : Fin 16) (s : State) : Out :=
  vLane1 (fun x => (x, 0)) false 3 t (.vmov t d a p) d a p s

/-- VSPLT (R232). -/
def execVsplt (t : Tok) (d : VDst) (imm : BitVec 14) (s : State) : Out :=
  vWord t (.vsplt t d imm) [] [] [] d s noCheck fun s0 =>
    s0.deliver d (BitVec.allOnes 64) (.replicate 64 (imm.signExtend 32)) 3

/-- VSPLF (R232). -/
def execVsplf (t : Tok) (d : VDst) (imm : BitVec 14) (s : State) : Out :=
  vWord t (.vsplf t d imm) [] [] [] d s noCheck fun s0 =>
    s0.deliver d (BitVec.allOnes 64) (.replicate 64 (imm.zeroExtend 32 <<< 18)) 3

/-- Pop an xq entry (R376). -/
def State.popXq (s : State) : State :=
  ((s.readsIf (decide (0 < s.core.phase.carried.xq))).updCarried fun c =>
    { c with xq := c.xq - 1 }).updQ fun q => { q with xq := q.xq.tail }

/-- Whether the checker's copy of an xq entry has arrived (R145): it is 6 ticks behind. -/
def XEntry.arrived (x : XEntry) (tick : Nat) : Bool := x.matched || decide (x.pushed + 6 ≤ tick)

/-- Whether the checker's copy equals the xq entry (R145). -/
def XEntry.agrees (x : XEntry) : Bool := x.matched || x.copy == x.value

/-- VSPLX (R232): waits for an xq entry and for the checker's copy of it, which is compared before the
entry pops (R145). -/
def execVsplx (t : Tok) (d : VDst) (p : Fin 16) (s : State) : Out :=
  match s.core.q.xq with
  | [] => engWord .vector t (.vsplx t d p) s fun _ _ => .wait
  | x :: _ =>
    if !x.arrived s.core.tick then engWord .vector t (.vsplx t d p) s fun _ _ => .wait
    else if !x.agrees then
      engWord .vector t (.vsplx t d p) s fun e s0 => .raw (silentError (divergence .vector e) s0)
    else vWord t (.vsplx t d p) [] [p] [] d s noCheck fun s0 =>
      let (m, s1) := s0.readP (s0.core.vec.physP p)
      (s1.deliver d m (.replicate 64 (x.value.truncate 32)) 3).popXq

/-! ### The keyed generator (R233) -/

/-- VRAND (R233). -/
def execVrand (t : Tok) (d : VDst) (p : Fin 16) (s : State) : Out :=
  vWord t (.vrand t d p) [] [p] [] d s noCheck fun s0 =>
    let (m, s1) := s0.readP (s0.core.vec.physP p)
    (s1.deliver d m (draws s1.core.vec) 7).useDraws

/-- Four lanes from lane k. -/
def lanes128 (x : Lanes) (k : Nat) : BitVec 128 :=
  words128 (vget x k 0) (vget x (k + 1) 0) (vget x (k + 2) 0) (vget x (k + 3) 0)

/-- VRSET (R233). -/
def execVrset (t : Tok) (a : VSrc) (s : State) : Out :=
  vWord t (.vrset t a) [a] [] [] .discard s noCheck fun s0 =>
    let (x, s1) := s0.readSrc a
    (s1.updCarried fun c => { c with gen := false }).upd fun c => { c with vec := { c.vec with
      vrk := lanes128 x 0, vrc := lanes128 x 4 } }

/-- VRSKIP (R233). -/
def execVrskip (t : Tok) (a : VSrc) (s : State) : Out :=
  vWord t (.vrskip t a) [a] [] [] .discard s noCheck fun s0 =>
    let (x, s1) := s0.readSrc a
    (s1.readsIf s1.core.phase.carried.gen).upd fun c => { c with vec := { c.vec with
      vrc := c.vec.vrc + lanes128 x 0 } }

/-- VRGET (R233). -/
def execVrget (t : Tok) (d : VDst) (s : State) : Out :=
  vWord t (.vrget t d) [] [] [] d s noCheck fun s0 =>
    let x := s0.core.vec
    let v : Lanes := Vector.ofFn fun i =>
      if i.val < 4 then word128 x.vrk i.val
      else if i.val < 8 then word128 x.vrc (i.val - 4) else 0
    (s0.readsIf s0.core.phase.carried.gen).deliver d (BitVec.allOnes 64) v 7

/-! ### The deferral queue (R161, R234 to R236) -/

/-- Entries that VDEFER appends (R234). -/
def deferred (x y : Lanes) (m : BitVec 64) : List (Word × Word × BitVec 6) :=
  ((List.range 64).filter fun i => m.getLsbD i).map fun i =>
    (vget x i 0, vget y i 0, BitVec.ofNat 6 i)

/-- VDEFER (R234): the capacity is checked at issue, before any effect. -/
def execVdefer (t : Tok) (a b : VSrc) (p : Fin 16) (s : State) : Out :=
  vWord t (.vdefer t a b p) [a, b] [p] [] .discard s
    (fun s0 =>
      let (x, s1) := s0.readSrc a
      let (y, s2) := s1.readSrc b
      let (m, s3) := s2.readP (s2.core.vec.physP p)
      if 4096 < s3.core.q.dq.length + (deferred x y m).length then some { cause := 0x18 } else none)
    fun s0 =>
      let (x, s1) := s0.readSrc a
      let (y, s2) := s1.readSrc b
      let (m, s3) := s2.readP (s2.core.vec.physP p)
      (s3.readsIf s3.core.phase.carried.dq).updQ fun q => { q with dq := q.dq ++ deferred x y m }

/-- A logical register k places on. -/
def nextReg (d : Fin 32) (k : Nat) : Fin 24 := ⟨(d.val + k) % 24, Nat.mod_lt _ (by decide)⟩

/-- VDRAIN's batch (R235). -/
def drainBatch (d : Fin 32) (p : Fin 16) (m : Nat) (s : State) : State :=
  let es := s.core.q.dq.take m
  let col (f : Word × Word × BitVec 6 → Word) : Lanes :=
    Vector.ofFn fun i => ((es[i.val]?).map f).getD 0
  let all := BitVec.allOnes 64
  let s1 := s.updQ fun q => { q with dq := q.dq.drop m }
  let s2 := ((s1.deliver (.v (nextReg d 0)) all (col (·.1)) 9).deliver (.v (nextReg d 1)) all
    (col (·.2.1)) 9).deliver (.v (nextReg d 2)) all (col fun e => e.2.2.zeroExtend 32) 9
  let k := s2.core.vec.physP p
  (s2.wholeP k).writeP k (BitVec.ofNat 64 (2 ^ m - 1)) 9

/-- VDRAIN (R235): fewer than 64 entries without `.FL` write p alone. A d of 22 to 31 traps when
decoded (R66). -/
def execVdrain (t : Tok) (d : Fin 32) (fl : Bool) (p : Fin 16) (s : State) : Out :=
  vWord t (.vdrain t d fl p) [] [] [] .discard s
    (fun _ => if 22 ≤ d.val then
      some (illegal (.vdrain t d fl p) 0x03 0 3) else none)
    fun s0 =>
      let n := s0.core.q.dq.length
      let s1 := s0.readsIf s0.core.phase.carried.dq
      if 64 ≤ n then drainBatch d p 64 s1
      else if fl then drainBatch d p n s1
      else
        let k := s1.core.vec.physP p
        (s1.wholeP k).writeP k 0 9

/-- VDQN (R236). -/
def execVdqn (t : Tok) (d : VDst) (s : State) : Out :=
  vWord t (.vdqn t d) [] [] [] d s noCheck fun s0 =>
    (s0.readsIf s0.core.phase.carried.dq).deliver d (BitVec.allOnes 64)
      (.replicate 64 (BitVec.ofNat 32 s0.core.q.dq.length)) 7

/-! ### Rotation, replies, flags, VNOP (R237 to R240) -/

/-- VLOOP (R158, R237). -/
def execVloop (t : Tok) (s : State) : Out :=
  vWord t (.vloop t) [] [] [] .discard s noCheck fun s0 =>
    s0.upd fun c => { c with vec := { c.vec with vb := c.vec.vb - 1, pb := c.vec.pb - 1 } }

/-- Push a reply (R91, R238). -/
def State.pushRq (s : State) (k : Fin 2) (w : Word) : State :=
  s.updQ fun q => if k = 0 then { q with rq0 := q.rq0 ++ [w] } else { q with rq1 := q.rq1 ++ [w] }

/-- VRPLY (R238): waits for room. -/
def execVrply (t : Tok) (a : VSrc) (rq : Fin 2) (lane : Fin 64) (s : State) : Out :=
  if 16 ≤ (s.core.q.rq rq).length then engWord .vector t (.vrply t a rq lane) s fun _ _ => .wait
  else
    vWord t (.vrply t a rq lane) [a] [] [] .discard s noCheck fun s0 =>
      let (x, s1) := s0.readSrc a
      s1.pushRq rq x[lane]

/-- VFLAG (R239): `.CLR` clears after the read. -/
def execVflag (t : Tok) (d : VDst) (clr : Bool) (s : State) : Out :=
  vWord t (.vflag t d clr) [] [] [] d s noCheck fun s0 =>
    let x := s0.core.vec.vflags.image
    let v : Lanes := Vector.ofFn fun i =>
      if i.val = 0 then x.truncate 32 else if i.val = 1 then BitVec.ofNat 32 (bitsOf x 32 32) else 0
    let s1 := s0.deliver d (BitVec.allOnes 64) v 7
    if clr then s1.upd fun c => { c with vec := { c.vec with vflags := {} } } else s1

/-- VNOP (R240). -/
def execVnop (t : Tok) (s : State) : Out :=
  vWord t (.vnop t) [] [] [] .discard s noCheck id

end Sys2Proof.Machine
end

