-- ==== Sys2Proof/Machine/Dispatch.lean ====
section
/-! DEFINITION. One arm per instruction: the meaning that the instruction has. -/

namespace Sys2Proof.Machine

open Sys2Proof

def exec (i : Instr) (s : State) : Host.Outcome State Fault Refusal :=
  match i with
  | .add d a b => Sys2Proof.Machine.execAdd d a b s
  | .sub d a b => Sys2Proof.Machine.execSub d a b s
  | .and d a b => Sys2Proof.Machine.execAnd d a b s
  | .or d a b => Sys2Proof.Machine.execOr d a b s
  | .xor d a b => Sys2Proof.Machine.execXor d a b s
  | .andn d a b => Sys2Proof.Machine.execAndn d a b s
  | .sll d a b => Sys2Proof.Machine.execSll d a b s
  | .srl d a b => Sys2Proof.Machine.execSrl d a b s
  | .sra d a b => Sys2Proof.Machine.execSra d a b s
  | .rotl d a b => Sys2Proof.Machine.execRotl d a b s
  | .mul d a b => Sys2Proof.Machine.execMul d a b s
  | .mulh d a b => Sys2Proof.Machine.execMulh d a b s
  | .mulhu d a b => Sys2Proof.Machine.execMulhu d a b s
  | .div d a b => Sys2Proof.Machine.execDiv d a b s
  | .divu d a b => Sys2Proof.Machine.execDivu d a b s
  | .rem d a b => Sys2Proof.Machine.execRem d a b s
  | .remu d a b => Sys2Proof.Machine.execRemu d a b s
  | .min d a b => Sys2Proof.Machine.execMin d a b s
  | .max d a b => Sys2Proof.Machine.execMax d a b s
  | .minu d a b => Sys2Proof.Machine.execMinu d a b s
  | .maxu d a b => Sys2Proof.Machine.execMaxu d a b s
  | .clz d a => Sys2Proof.Machine.execClz d a s
  | .ctz d a => Sys2Proof.Machine.execCtz d a s
  | .popc d a => Sys2Proof.Machine.execPopc d a s
  | .addi d a imm => Sys2Proof.Machine.execAddi d a imm s
  | .andi d a imm => Sys2Proof.Machine.execAndi d a imm s
  | .ori d a imm => Sys2Proof.Machine.execOri d a imm s
  | .xori d a imm => Sys2Proof.Machine.execXori d a imm s
  | .slli d a sh => Sys2Proof.Machine.execSlli d a sh s
  | .srli d a sh => Sys2Proof.Machine.execSrli d a sh s
  | .srai d a sh => Sys2Proof.Machine.execSrai d a sh s
  | .lui d imm => Sys2Proof.Machine.execLui d imm s
  | .adrp d imm => Sys2Proof.Machine.execAdrp d imm s
  | .ceq src a b => Sys2Proof.Machine.execCeq src a b s
  | .cne src a b => Sys2Proof.Machine.execCne src a b s
  | .clt src a b => Sys2Proof.Machine.execClt src a b s
  | .cge src a b => Sys2Proof.Machine.execCge src a b s
  | .cltu src a b => Sys2Proof.Machine.execCltu src a b s
  | .cgeu src a b => Sys2Proof.Machine.execCgeu src a b s
  | .cbs src a b => Sys2Proof.Machine.execCbs src a b s
  | .cbc src a b => Sys2Proof.Machine.execCbc src a b s
  | .ceqi src a imm => Sys2Proof.Machine.execCeqi src a imm s
  | .cnei src a imm => Sys2Proof.Machine.execCnei src a imm s
  | .clti src a imm => Sys2Proof.Machine.execClti src a imm s
  | .cgei src a imm => Sys2Proof.Machine.execCgei src a imm s
  | .cltui src a imm => Sys2Proof.Machine.execCltui src a imm s
  | .sand sd sa sb => Sys2Proof.Machine.execSand sd sa sb s
  | .sor sd sa sb => Sys2Proof.Machine.execSor sd sa sb s
  | .sxor sd sa sb => Sys2Proof.Machine.execSxor sd sa sb s
  | .snot sd sa => Sys2Proof.Machine.execSnot sd sa s
  | .smov sd sa => Sys2Proof.Machine.execSmov sd sa s
  | .sset sd => Sys2Proof.Machine.execSset sd s
  | .sclr sd => Sys2Proof.Machine.execSclr sd s
  | .prep src off => Sys2Proof.Machine.execPrep src off s
  | .prepr src a => Sys2Proof.Machine.execPrepr src a s
  | .bt src null => Sys2Proof.Machine.execBt src null s
  | .bf src null => Sys2Proof.Machine.execBf src null s
  | .ba src null => Sys2Proof.Machine.execBa src null s
  | .bl src null => Sys2Proof.Machine.execBl src null s
  | .ldb d a cls imm => Sys2Proof.Machine.execLdb d a cls imm s
  | .ldbu d a cls imm => Sys2Proof.Machine.execLdbu d a cls imm s
  | .ldh d a cls imm => Sys2Proof.Machine.execLdh d a cls imm s
  | .ldhu d a cls imm => Sys2Proof.Machine.execLdhu d a cls imm s
  | .ldw d a cls imm => Sys2Proof.Machine.execLdw d a cls imm s
  | .ldwu d a cls imm => Sys2Proof.Machine.execLdwu d a cls imm s
  | .ldd d a cls imm => Sys2Proof.Machine.execLdd d a cls imm s
  | .stb d a cls imm => Sys2Proof.Machine.execStb d a cls imm s
  | .sth d a cls imm => Sys2Proof.Machine.execSth d a cls imm s
  | .stw d a cls imm => Sys2Proof.Machine.execStw d a cls imm s
  | .std d a cls imm => Sys2Proof.Machine.execStd d a cls imm s
  | .ldl d imm => Sys2Proof.Machine.execLdl d imm s
  | .lpool imm => Sys2Proof.Machine.execLpool imm s
  | .amow d a b fn ord scope => Sys2Proof.Machine.execAmow d a b fn ord scope s
  | .amod d a b fn ord scope => Sys2Proof.Machine.execAmod d a b fn ord scope s
  | .fence scope kind mask => Sys2Proof.Machine.execFence scope kind mask s
  | .mfs d sr => Sys2Proof.Machine.execMfs d sr s
  | .mts a sr => Sys2Proof.Machine.execMts a sr s
  | .mtsi sr imm => Sys2Proof.Machine.execMtsi sr imm s
  | .mtsr k a sr => Sys2Proof.Machine.execMtsr k a sr s
  | .qpush a q => Sys2Proof.Machine.execQpush a q s
  | .qpop d q => Sys2Proof.Machine.execQpop d q s
  | .qcnt d q => Sys2Proof.Machine.execQcnt d q s
  | .bar id => Sys2Proof.Machine.execBar id s
  | .plumb mark => Sys2Proof.Machine.execPlumb mark s
  | .twait a => Sys2Proof.Machine.execTwait a s
  | .sigev ev => Sys2Proof.Machine.execSigev ev s
  | .waitev ev => Sys2Proof.Machine.execWaitev ev s
  | .phsw p => Sys2Proof.Machine.execPhsw p s
  | .jigRec j => Sys2Proof.Machine.execJigRec j s
  | .jigEnd d => Sys2Proof.Machine.execJigEnd d s
  | .jigPlay d j => Sys2Proof.Machine.execJigPlay d j s
  | .jigStop a b => Sys2Proof.Machine.execJigStop a b s
  | .jigDrop j => Sys2Proof.Machine.execJigDrop j s
  | .pqpush a b => Sys2Proof.Machine.execPqpush a b s
  | .pqpop d b => Sys2Proof.Machine.execPqpop d b s
  | .pqtop d b => Sys2Proof.Machine.execPqtop d b s
  | .pqclr => Sys2Proof.Machine.execPqclr s
  | .pqcnt d => Sys2Proof.Machine.execPqcnt d s
  | .ngo k n => Sys2Proof.Machine.execNgo k n s
  | .nbrk src k => Sys2Proof.Machine.execNbrk src k s
  | .waitq mask => Sys2Proof.Machine.execWaitq mask s
  | .trap imm => Sys2Proof.Machine.execTrap imm s
  | .rft => Sys2Proof.Machine.execRft s
  | .retire => Sys2Proof.Machine.execRetire s
  | .nop x => Sys2Proof.Machine.execNop x s
  | .brk => Sys2Proof.Machine.execBrk s
  | .ldt t d st z tr => Sys2Proof.Machine.execLdt t d st z tr s
  | .ldq t q st => Sys2Proof.Machine.execLdq t q st s
  | .ldsc t target st => Sys2Proof.Machine.execLdsc t target st s
  | .ldx t d st rq rows => Sys2Proof.Machine.execLdx t d st rq rows s
  | .lgath t d st q => Sys2Proof.Machine.execLgath t d st q s
  | .lland t d slot => Sys2Proof.Machine.execLland t d slot s
  | .ladv t st level => Sys2Proof.Machine.execLadv t st level s
  | .lnop t => Sys2Proof.Machine.execLnop t s
  | .mma t o c => Sys2Proof.Machine.execMma t o c s
  | .mrun t k c => Sys2Proof.Machine.execMrun t k c s
  | .mdrain t a d slot ac => Sys2Proof.Machine.execMdrain t a d slot ac s
  | .azero t a => Sys2Proof.Machine.execAzero t a s
  | .aread t a row q => Sys2Proof.Machine.execAread t a row q s
  | .apatch t a row mode => Sys2Proof.Machine.execApatch t a row mode s
  | .epset t slot st => Sys2Proof.Machine.execEpset t slot st s
  | .epcon t bank st => Sys2Proof.Machine.execEpcon t bank st s
  | .heaprd t q part => Sys2Proof.Machine.execHeaprd t q part s
  | .heapclr t k => Sys2Proof.Machine.execHeapclr t k s
  | .mchk t q => Sys2Proof.Machine.execMchk t q s
  | .mnop t => Sys2Proof.Machine.execMnop t s
  | .sdopen st => Sys2Proof.Machine.execSdopen st s
  | .sdrun n => Sys2Proof.Machine.execSdrun n s
  | .sdclose => Sys2Proof.Machine.execSdclose s
  | .sdstat => Sys2Proof.Machine.execSdstat s
  | .vadd t d a b p => Sys2Proof.Machine.execVadd t d a b p s
  | .vsub t d a b p => Sys2Proof.Machine.execVsub t d a b p s
  | .vmul t d a b p => Sys2Proof.Machine.execVmul t d a b p s
  | .vfma t d a b p => Sys2Proof.Machine.execVfma t d a b p s
  | .vmin t d a b p => Sys2Proof.Machine.execVmin t d a b p s
  | .vmax t d a b p => Sys2Proof.Machine.execVmax t d a b p s
  | .vabs t d a p => Sys2Proof.Machine.execVabs t d a p s
  | .vneg t d a p => Sys2Proof.Machine.execVneg t d a p s
  | .vrcp t d a p => Sys2Proof.Machine.execVrcp t d a p s
  | .vrsq t d a p => Sys2Proof.Machine.execVrsq t d a p s
  | .vexp2 t d a p => Sys2Proof.Machine.execVexp2 t d a p s
  | .vlog2 t d a p => Sys2Proof.Machine.execVlog2 t d a p s
  | .viadd t d a b p => Sys2Proof.Machine.execViadd t d a b p s
  | .visub t d a b p => Sys2Proof.Machine.execVisub t d a b p s
  | .vimul t d a b p => Sys2Proof.Machine.execVimul t d a b p s
  | .vimin t d a b p => Sys2Proof.Machine.execVimin t d a b p s
  | .vimax t d a b p => Sys2Proof.Machine.execVimax t d a b p s
  | .viminu t d a b p => Sys2Proof.Machine.execViminu t d a b p s
  | .vimaxu t d a b p => Sys2Proof.Machine.execVimaxu t d a b p s
  | .vand t d a b p => Sys2Proof.Machine.execVand t d a b p s
  | .vor t d a b p => Sys2Proof.Machine.execVor t d a b p s
  | .vxor t d a b p => Sys2Proof.Machine.execVxor t d a b p s
  | .vshl t d a b p => Sys2Proof.Machine.execVshl t d a b p s
  | .vshr t d a b p => Sys2Proof.Machine.execVshr t d a b p s
  | .vsra t d a b p => Sys2Proof.Machine.execVsra t d a b p s
  | .vcmp t cc ty pd a b => Sys2Proof.Machine.execVcmp t cc ty pd a b s
  | .vsel t d a b p => Sys2Proof.Machine.execVsel t d a b p s
  | .plog t fn pd pa pb => Sys2Proof.Machine.execPlog t fn pd pa pb s
  | .vcvt t d a conv rnd sat => Sys2Proof.Machine.execVcvt t d a conv rnd sat s
  | .vpack t d a b w => Sys2Proof.Machine.execVpack t d a b w s
  | .vunpk t d a b w => Sys2Proof.Machine.execVunpk t d a b w s
  | .vquant t d a f => Sys2Proof.Machine.execVquant t d a f s
  | .vdeq t d a f => Sys2Proof.Machine.execVdeq t d a f s
  | .vrsum t d a p => Sys2Proof.Machine.execVrsum t d a p s
  | .vrmax t d a nn p => Sys2Proof.Machine.execVrmax t d a nn p s
  | .vrmin t d a nn p => Sys2Proof.Machine.execVrmin t d a nn p s
  | .vperm t d a b p => Sys2Proof.Machine.execVperm t d a b p s
  | .vbcst t d a lane => Sys2Proof.Machine.execVbcst t d a lane s
  | .vmov t d a p => Sys2Proof.Machine.execVmov t d a p s
  | .vsplt t d imm => Sys2Proof.Machine.execVsplt t d imm s
  | .vsplf t d imm => Sys2Proof.Machine.execVsplf t d imm s
  | .vsplx t d p => Sys2Proof.Machine.execVsplx t d p s
  | .vrand t d p => Sys2Proof.Machine.execVrand t d p s
  | .vrset t a => Sys2Proof.Machine.execVrset t a s
  | .vrskip t a => Sys2Proof.Machine.execVrskip t a s
  | .vrget t d => Sys2Proof.Machine.execVrget t d s
  | .vdefer t a b p => Sys2Proof.Machine.execVdefer t a b p s
  | .vdrain t d fl p => Sys2Proof.Machine.execVdrain t d fl p s
  | .vdqn t d => Sys2Proof.Machine.execVdqn t d s
  | .vloop t => Sys2Proof.Machine.execVloop t s
  | .vrply t a rq lane => Sys2Proof.Machine.execVrply t a rq lane s
  | .vflag t d clr => Sys2Proof.Machine.execVflag t d clr s
  | .vnop t => Sys2Proof.Machine.execVnop t s
  | .copy t d src => Sys2Proof.Machine.execCopy t d src s
  | .sqst t d => Sys2Proof.Machine.execSqst t d s
  | .xsend t src nb slot off => Sys2Proof.Machine.execXsend t src nb slot off s
  | .rsend t src peer tag => Sys2Proof.Machine.execRsend t src peer tag s
  | .rrecv t d red peer tag => Sys2Proof.Machine.execRrecv t d red peer tag s
  | .rfence t => Sys2Proof.Machine.execRfence t s
  | .atomv t st iq fn fin => Sys2Proof.Machine.execAtomv t st iq fn fin s
  | .snop t => Sys2Proof.Machine.execSnop t s
  | .engineRetire e => Sys2Proof.Machine.execEngineRetire e s
  | .barrierRelease id => Sys2Proof.Machine.execBarrierRelease id s
  | .plumbRelease mark => Sys2Proof.Machine.execPlumbRelease mark s
  | .remoteMatch peer tag len => Sys2Proof.Machine.execRemoteMatch peer tag len s
  | .remoteEnd op peer tag len data => Sys2Proof.Machine.execRemoteEnd op peer tag len data s
  | .roundAbandon peer tag => Sys2Proof.Machine.execRoundAbandon peer tag s
  | .dataFlit port flit => Sys2Proof.Machine.execDataFlit port flit s
  | .idleFlit port flit => Sys2Proof.Machine.execIdleFlit port flit s
  | .retryRequest port flit => Sys2Proof.Machine.execRetryRequest port flit s
  | .portDown port => Sys2Proof.Machine.execPortDown port s
  | .windowMigrated die idx pbase => Sys2Proof.Machine.execWindowMigrated die idx pbase s
  | .driftExchange die fwd back => Sys2Proof.Machine.execDriftExchange die fwd back s
  | .eventWake tn ev => Sys2Proof.Machine.execEventWake tn ev s
  | .kick tn q seq => Sys2Proof.Machine.execKick tn q seq s
  | .entryReread tn q => Sys2Proof.Machine.execEntryReread tn q s
  | .ack tn q => Sys2Proof.Machine.execAck tn q s
  | .qcfgWrite tn q v => Sys2Proof.Machine.execQcfgWrite tn q v s
  | .ercfgWrite tn v => Sys2Proof.Machine.execErcfgWrite tn v s
  | .hostRegisterWrite tn off v => Sys2Proof.Machine.execHostRegisterWrite tn off v s
  | .mbout tn c => Sys2Proof.Machine.execMbout tn c s
  | .mbin tn c v => Sys2Proof.Machine.execMbin tn c v s
  | .dropClear tn c => Sys2Proof.Machine.execDropClear tn c s
  | .launch tn q seq w f => Sys2Proof.Machine.execLaunch tn q seq w f s
  | .listWait tn q w ev clr => Sys2Proof.Machine.execListWait tn q w ev clr s
  | .listSignal tn q w ev addr addend => Sys2Proof.Machine.execListSignal tn q w ev addr addend s
  | .listSkipif tn q w n addr => Sys2Proof.Machine.execListSkipif tn q w n addr s
  | .listJump tn q w target => Sys2Proof.Machine.execListJump tn q w target s
  | .listCall tn q w target => Sys2Proof.Machine.execListCall tn q w target s
  | .listReturn tn q w => Sys2Proof.Machine.execListReturn tn q w s
  | .listFence tn q w => Sys2Proof.Machine.execListFence tn q w s
  | .listEnd tn q w => Sys2Proof.Machine.execListEnd tn q w s
  | .gangStart task => Sys2Proof.Machine.execGangStart task s
  | .taskComplete task => Sys2Proof.Machine.execTaskComplete task s
  | .preemptRequest task => Sys2Proof.Machine.execPreemptRequest task s
  | .taskResume task => Sys2Proof.Machine.execTaskResume task s
  | .taskDiscard task => Sys2Proof.Machine.execTaskDiscard task s
  | .hostMemAccess write pa n data => Sys2Proof.Machine.execHostMemAccess write pa n data s
  | .linkRateChange rate lanes => Sys2Proof.Machine.execLinkRateChange rate lanes s
  | .firmwareDownload die image key signature => Sys2Proof.Machine.execFirmwareDownload die image key signature s
  | .trimRecord die record signature => Sys2Proof.Machine.execTrimRecord die record signature s
  | .attestationReport die nonce => Sys2Proof.Machine.execAttestationReport die nonce s
  | .illegalWord e w reason => Sys2Proof.Machine.execIllegalWord e w reason s
  | .fetchFault addr => Sys2Proof.Machine.execFetchFault addr s
  | .debugResume task => Sys2Proof.Machine.execDebugResume task s
  | .debugInterfaceWrite c r v => Sys2Proof.Machine.execDebugInterfaceWrite c r v s
  | .taskAbort task => Sys2Proof.Machine.execTaskAbort task s
  | .slotLoad img => Sys2Proof.Machine.execSlotLoad img s
  | .tenantCreate tn grant => Sys2Proof.Machine.execTenantCreate tn grant s
  | .tenantDestroy tn => Sys2Proof.Machine.execTenantDestroy tn s
  | .placementRemoval c => Sys2Proof.Machine.execPlacementRemoval c s
  | .phaseResume => Sys2Proof.Machine.execPhaseResume s
  | .gangStall => Sys2Proof.Machine.execGangStall s
  | .stallResume => Sys2Proof.Machine.execStallResume s
  | .slipLimit => Sys2Proof.Machine.execSlipLimit s
  | .deadStop => Sys2Proof.Machine.execDeadStop s
  | .plumbOverdue => Sys2Proof.Machine.execPlumbOverdue s
  | .slotLanding => Sys2Proof.Machine.execSlotLanding s
  | .lateLanding => Sys2Proof.Machine.execLateLanding s
  | .sdopenRetire => Sys2Proof.Machine.execSdopenRetire s
  | .streamBeat => Sys2Proof.Machine.execStreamBeat s
  | .blockRemoval => Sys2Proof.Machine.execBlockRemoval s
  | .blockRefetch => Sys2Proof.Machine.execBlockRefetch s
  | .blockPush => Sys2Proof.Machine.execBlockPush s
  | .remoteTimeout => Sys2Proof.Machine.execRemoteTimeout s
  | .cqRecord => Sys2Proof.Machine.execCqRecord s
  | .batchClose => Sys2Proof.Machine.execBatchClose s
  | .trapEntry => Sys2Proof.Machine.execTrapEntry s
  | .companionStop => Sys2Proof.Machine.execCompanionStop s
  | .breakRequest => Sys2Proof.Machine.execBreakRequest s
  | .jigEntryIssue => Sys2Proof.Machine.execJigEntryIssue s
  | .gangStop => Sys2Proof.Machine.execGangStop s
  | .powerUp => Sys2Proof.Machine.execPowerUp s
  | .warningTemperature => Sys2Proof.Machine.execWarningTemperature s
  | .criticalTemperature => Sys2Proof.Machine.execCriticalTemperature s
  | .valueLanded => Sys2Proof.Machine.execValueLanded s

end Sys2Proof.Machine
end

