-- ==== Sys2Proof/Machine/Sched.lean ====
section
/-! DEFINITION. Which act comes next (log 1): the events that have fallen due on the acting core,
otherwise the act of the agent whose turn it is: the control core's next word (R41, R45, R104, R392), an
engine's head (R143), a retirement, an act of the world outside, firmware's work on a queue. -/

namespace Sys2Proof.Machine

/-- An act: an instruction with the state it runs in, or a move of the machine's own that is no row of
the table of operations and events; `issue` is a word that issues, `guard` such a move that may find a fault, each with
the engines whose faults on the same tick are taken before its own (R360). -/
inductive Act where
  | run (i : Instr) (s : State)
  | issue (above : List Engine) (i : Instr) (s : State)
  | own (o : Out)
  | guard (above : List Engine) (o : Out)

/-- The engines, in the order in which their faults are taken (R360). -/
def engines : List Engine := [.load, .matrix, .vector, .copy, .stream]

/-- The engines before one in the order of R360. -/
def above (e : Engine) : List Engine := engines.takeWhile fun g => !decide (g = e)

/-- A word of the control core. -/
def ctlAct (i : Instr) (s : State) : Act := .issue engines i s

/-! ### Events that have fallen due -/

/-- The first of some candidates whose condition holds. -/
def firstOf : List (Bool × Instr) → Option Instr
  | [] => none
  | (b, i) :: t => if b then some i else firstOf t

/-- Whether a core runs its task. -/
def Core.runs (c : Core) : Bool := decide (c.ctl.run = .running)

/-- Whether a companion's stop has come (R149, R362): a core in bank 1 has stopped already; where the gang tick stands, in
a stop of firmware too, it counts as come (log 95). -/
def Core.companionDue (c : Core) : Bool :=
  match c.stall.companion with
  | some (_, t) => c.active && (decide (t ≤ c.gtick) || c.gheld || c.stopReached)
  | none => false

/-- The id of a barrier at which the whole gang waits. -/
def barDue (s : State) : Bool :=
  match s.core.ctl.arrival with
  | some (.bar id none) => barReady s id
  | _ => false

/-- Whether the release of a mark has reached a core (R289). -/
def Core.pulsed (c : Core) : Bool :=
  match c.stall.pulse with
  | some t => decide (t ≤ c.tick)
  | none => true

/-- Whether the whole gang waits at a mark whose release has reached it and has not been deferred (R149). -/
def plumbDue (s : State) : Bool :=
  match s.core.ctl.arrival with
  | some (.plumb m _ none) => plumbReady s m && s.core.pulsed && s.gangOthers.all Core.pulsed
      && !(s.core.stall.stopped && s.core.stall.deferred.isSome)
  | _ => false

/-- The barrier id or mark of the arrival. -/
def Core.arrivedAt (c : Core) : BitVec 16 :=
  match c.ctl.arrival with
  | some (.bar id _) => BitVec.ofNat 16 id.val
  | some (.plumb m _ _) => m
  | _ => 0

/-- Whether the next beat arrives before anything else of its stream (R252). -/
def Core.beatNow (c : Core) : Bool :=
  match c.sd with
  | some d => c.active && d.beatDue c && !d.late && (d.beatFirst || !d.removeDue c)
  | none => false

/-- Whether a removal has come (R244, R252, R254): a starved block whose delay has begun waits for its bytes. -/
def Core.removeNow (c : Core) : Bool :=
  match c.sd with
  | some d => c.active && d.removeDue c && !c.gheld && !(d.beatDue c && !d.late && d.beatFirst)
      && !(d.starved c && c.stall.delays.contains .underrun && !c.vis.strict)
  | none => false

/-- Whether a push has come (R257). -/
def Core.pushNow (c : Core) : Bool :=
  match c.sd with
  | some d => c.active && d.pushDue c
  | none => false

/-- Whether a landing has come on its own gang tick (R292). -/
def Core.landNow (c : Core) : Bool :=
  match nextFlight c.land.flights with
  | some f => decide (f.due ≤ c.gtick)
  | none => false

/-- Whether that landing finds its slot empty. -/
def Core.landFits (c : Core) : Bool :=
  match nextFlight c.land.flights with
  | some f => decide (f.due ≤ c.gtick) && c.land.slot[f.slot].isNone
  | none => false

/-- Whether an LLAND has reached the tick of its retirement and the oldest word of the load engine may retire
(R144, R293). -/
def Core.landRetires (c : Core) : Bool :=
  c.load.issued.any (fun w => w.frees.isSome && !w.early c.tick)
    && (match c.load.issued with
      | w :: _ => c.mayRetire w
      | [] => false)

/-- Whether the gang resumes (R149): the signal can go out, or it has arrived. -/
def resumeDue (s : State) : Bool :=
  s.core.active && s.core.stall.stopped && (resumeReady s || (match s.core.stall.resumeAt with
    | some t => decide (t ≤ s.core.tick)
    | none => false))

/-- Whether a core waits in the stop that firmware has raised until the gang's other cores have left bank 1
(R350). -/
def Core.waitsStop (c : Core) : Bool := c.active && c.stopReached

/-- Whether an issued word stands at the head of an engine's queue (R143). -/
def Core.headStarted (c : Core) (e : Engine) : Bool :=
  match (c.eng e).queue with
  | .word x :: _ => x.started
  | _ => false

/-- Whether the stream engine has met a delay of its stream that goes on (R149). -/
def Core.streamWaits (c : Core) : Bool :=
  match c.sd with
  | some d => d.late || d.ownDelay c
  | none => false

/-- Whether an engine acts (R143, R149, R215, R350, R362, R371): in bank 0 while the gang runs, and in a stop on an issued
word; in a handler that ends a hook, on what the hook pushed; in any handler, on an issued word that goes on before
its first word. -/
def Core.engRuns (c : Core) (e : Engine) : Bool :=
  c.runs && (if c.ctl.bank1 then c.ctl.regs.hook || (c.ctl.settling.contains e && c.settles e)
    else (c.headStarted e || !(c.stall.stopped || c.waitsStop)) && !(decide (e = .stream) && c.streamWaits))

/-- The XSEND at the head of the copy queue that meets every condition of its issue (R292). -/
def Core.sendNow (c : Core) : Option Instr :=
  match c.copy.queue with
  | .word x :: _ => (match decode x.word.toNat (x.cont.map (·.toNat)) with
    | .ok (.xsend tk st nb slot off) =>
      if c.engRuns .copy && c.headMet .copy tk x && sendDue c x.snap nb off then some (.xsend tk st nb slot off)
      else none
    | _ => none)
  | _ => none

/-- The LLAND at the head of the load queue whose count starts: it meets everything but its slot (R294). -/
def Core.landStarts (c : Core) : Option Instr :=
  match c.load.queue with
  | .word x :: _ => (match decode x.word.toNat (x.cont.map (·.toNat)) with
    | .ok (.lland tk d k) =>
      if c.engRuns .load && c.headMet .load tk x && x.since.isNone && c.land.slot[k].isNone && c.destRoom d
          && !(c.load.issued.any fun w => w.frees.any fun f => decide (f.1 = k)) then some (.lland tk d k)
      else none
    | _ => none)
  | _ => none

/-- A task of a fixed-order queue whose gang starts now (R329, R342). -/
def startNow (s : State) : Option Nat :=
  (s.sys.tasks.find? fun t => (s.queue t.tn t.q).order && startReady s t).map (·.id)

/-- A port that has failed (R387). -/
def failedPort (s : State) : Option (Fin 32) :=
  (List.finRange 32).find? fun p => s.sys.ports[p].broken

/-- The event that has fallen due on the acting core, the earliest in this order: at the tick of a stop nothing else of
the gang acts (R149), and a fault of the load engine comes before one of the copy or stream engine (R360). -/
def dueEvent (s : State) : Option Instr :=
  let c := s.core
  firstOf [
    (c.runs && c.ctl.posted.isSome, .trapEntry),
    (c.companionDue, .companionStop),
    (s.preemptDue, .gangStop),
    (c.runs && c.ctl.breakReq, .breakRequest),
    (c.stopDue, .gangStall),
    (c.landRetires, .engineRetire .load),
    (c.landFits, .slotLanding),
    (c.landStarts.isSome, c.landStarts.getD .slotLanding),
    (c.lateLand.isSome, .lateLanding),
    (c.sendNow.isSome, c.sendNow.getD .slotLanding),
    (c.openDue, .sdopenRetire),
    (c.beatNow, .streamBeat),
    (c.removeNow, .blockRemoval),
    (c.pushNow, .blockPush),
    (c.landNow, .slotLanding),
    (plumbDue s, .plumbRelease c.arrivedAt),
    (c.runs && overdue c, .plumbOverdue),
    (resumeDue s, .stallResume),
    (c.slipDue, .slipLimit),
    (c.deadDue, .deadStop),
    (c.cp.remote.any (·.timedOut c.tick), .remoteTimeout),
    (!c.q.cqPend.isEmpty && decide (c.q.cq.length < 64), .cqRecord),
    (batchReady s, .batchClose),
    ((failedPort s).isSome, .portDown ((failedPort s).getD 0)),
    ((startNow s).isSome, .gangStart ((startNow s).getD 0))]

/-- The engines whose faults of the same tick are taken before the one that an event raises (R360): those before its
engine, or all of them before the control core's own. A stop at a word boundary (0x16, 0x17) is no fault. -/
def eventAbove (s : State) : Instr → List Engine
  | .streamBeat | .blockRemoval | .blockRefetch | .sdopenRetire => above .stream
  | .xsend .. | .batchClose | .remoteEnd .. => above .copy
  | .slotLanding | .slipLimit | .deadStop => engines
  | .trapEntry => if s.core.ctl.posted.any fun t => decide (t.cause ≠ 0x16) && decide (t.cause ≠ 0x17) then engines else []
  | _ => []

/-- An event of the machine. -/
def eventTurn (i : Instr) (s : State) : Act := .issue (eventAbove s i) i s

/-! ### The control core's turn -/

/-- Route an engine word to its queue's tail (R45, R142): a full queue makes it wait. -/
def routeWord (e : Engine) (w : Word) (cont : Option Word) (s : State) : Out :=
  match s.push e w cont none s.core.nowAddr with
  | none => .next s.noteReach.ticked
  | some t => .next (ctlDone (t.recordEngine w cont).clearReach)

/-- The act of a word at the control core's place (R45, R53): a control word runs, an engine word
goes to its queue with its continuation, a word that names nothing is illegal. -/
def wordAct (w : Word) (s : State) : Act :=
  match engineOf (w.toNat / 2 ^ 29) with
  | none => match decode w.toNat none with
    | .ok i => ctlAct i s
    | .error r => ctlAct (.illegalWord none w (BitVec.ofNat 8 r)) s
  | some e =>
    if isLong w.toNat then
      if s.storeBad (s.core.nowAddr + 4) 4 then .own (.next (storeError s).pass)
      else match s.core.fetch (s.core.nowAddr + 4) with
      | some x =>
        if isCont x.toNat then .own (routeWord e w (some x) s)
        else ctlAct (.illegalWord none w 0x07) s
      | none => ctlAct (.illegalWord none w 0x07) s
    else .own (routeWord e w none s)

/-- A nullified word does not issue (R41): the stream moves on and the tick passes. -/
def nullified (s : State) : State :=
  ((s.updCtl fun c => { c with pcq := s.core.rotate }).upd fun c =>
    { c.tickOn with stall := { c.tickOn.stall with progress := c.tick + 1 } }).pass

/-- The act at the head of the PC queue (R41, R392); a word of the system store that holds an
uncorrectable error is a double fault (R35, R379). -/
def headAct (s : State) : Act :=
  let q := s.core.ctl.pcq
  if q.q0.nul then .own (.next (nullified s))
  else if s.storeBad q.q0.addr 4 then .own (.next (storeError s).pass)
  else match s.core.fetch q.q0.addr with
    | some w => wordAct w s
    | none => ctlAct (.fetchFault q.q0.addr) s

/-- Whether a body word that the sequencer reads lies in a part of the system store that holds an uncorrectable error
(R35, R379): an engine word with its continuation, or the control word at the place. -/
def itemBad (r : NestRun) (s : State) : NestItem → Bool
  | .word _ => s.storeBad s.core.nowAddr 4
  | .push p _ _ x => decide (p.next < r.n) && s.storeBad (r.addrOf p) (if x.isSome then 8 else 4)
  | .bad p _ => s.storeBad (r.addrOf p) 8
  | _ => false

/-- The act of a running nest (R104): a control word at its place, otherwise the sequencer's move. -/
def nestAct (r : NestRun) (s : State) : Act :=
  if itemBad r s (s.core.nestItem r) then .own (.next (storeError s).pass)
  else match s.core.nestItem r with
  | .word w => wordAct w s
  | .outside => ctlAct (.fetchFault s.core.nowAddr) s
  | _ => ctlAct (.ngo r.table (BitVec.ofNat 12 r.n)) s

/-- The act of a core whose value has landed and whose replay, if any, has ended. -/
def streamAct (s : State) : Act :=
  match s.core.ctl.nest with
  | some r => nestAct r s
  | none => headAct s

/-- Whether a replay issues in place of the stream (R99, R301). -/
def Core.playing (c : Core) : Bool :=
  match c.jig.play with
  | some p => p.live
  | none => false

/-- A die tick at which GTICK stands. -/
def Core.standTick (c : Core) : Core := { c.waitTick with gtick := c.gtick }

/-- Whether the core waits for a re-plumb, or has been released from one (R112). -/
def Core.inRft (c : Core) : Bool :=
  match c.ctl.arrival with
  | some (.rft _ _) => true
  | _ => false

/-- The control core's turn, once the clock of its die lets it take a tick (R9): a core without a task, or
one that stands stopped, lets a tick pass, as does a handler before its first word while issued words run on
(R14, R215); a core that waits at RFT stays at it; otherwise the awaited value, the replay, the nest or the
stream. -/
def controlAct (s : State) : Act :=
  let c := s.core
  if !s.mayTick then .own (.next s.pass)
  else if !c.runs || (c.stall.stopped && !c.ctl.bank1) || c.settling then .own (.next s.ticked)
  else if c.inRft then .run .rft s
  else if c.waitsStop then .own (.next (s.upd Core.standTick).pass)
  else if c.ctl.awaiting then .run .valueLanded s
  else if c.playing then ctlAct .jigEntryIssue s
  else streamAct s

/-! ### The other turns -/

/-- The word that stands first in an engine's queue, behind register writes. -/
def firstWord : List QItem → Option Entry
  | [] => none
  | .word x :: _ => some x
  | .reg _ _ :: t => firstWord t

/-- The turn of an engine (R143). A head that does not decode traps once it is matched. -/
def engineAct (e : Engine) (s : State) : Act :=
  let c := s.core
  if !c.engRuns e then .own (.next s.pass)
  else match firstWord (c.eng e).queue with
    | none => .own (.next s.pass)
    | some x => match decode x.word.toNat (x.cont.map (·.toNat)) with
      | .ok i => .issue (above e) i s
      | .error r =>
        if c.phase.rollback || (c.eng e).late || decide ((c.eng e).last = some c.tick) || !c.lagMet x then
          .own (.next s.pass)
        else if !x.agrees then .guard (above e) (.next (silentError (divergence e x) s).pass)
        else if c.heldByBreak x then .own (.next s.pass)
        else .issue (above e) (.illegalWord (some e) x.word (BitVec.ofNat 8 r)) (s.upd fun c => c.flushRegs e)

/-- Whether an instruction is an act of the world outside the cores: the host, firmware, a peer, a sensor. -/
def fromOutside : Instr → Bool
  | .remoteMatch .. | .remoteEnd .. | .roundAbandon .. | .dataFlit .. | .idleFlit ..
  | .retryRequest .. | .portDown .. | .breakRequest | .windowMigrated .. | .driftExchange ..
  | .eventWake .. | .kick .. | .ack .. | .qcfgWrite .. | .ercfgWrite .. | .hostRegisterWrite ..
  | .mbout .. | .mbin .. | .dropClear .. | .preemptRequest .. | .taskDiscard .. | .hostMemAccess ..
  | .linkRateChange .. | .powerUp | .firmwareDownload .. | .trimRecord .. | .attestationReport ..
  | .warningTemperature | .criticalTemperature | .debugResume .. | .debugInterfaceWrite ..
  | .slotLoad .. | .tenantCreate .. | .tenantDestroy .. | .placementRemoval .. => true
  | _ => false

/-- The checker's copy of an item of a queue comes out different (R145). -/
def miscopy (k : Nat) (w : Word) (q : List QItem) : List QItem :=
  match q[k]? with
  | some (.word x) => q.set k (.word { x with copy := { x.copy with word := w } })
  | _ => q

/-- The rows of a held copy with one byte changed (R186). -/
def spoilRows : Nat → Byte → List HeldRow → List HeldRow
  | _, _, [] => []
  | k, b, r :: t =>
    if k < r.bytes.length then { r with bytes := r.bytes.set k b } :: t
    else r :: spoilRows (k - r.bytes.length) b t

/-- One byte of the copy hold changes. -/
def spoilHold : Nat → Byte → List HeldCopy → List HeldCopy
  | _, _, [] => []
  | k, b, h :: t =>
    if k < h.size then { h with writes := spoilRows k b h.writes } :: t else h :: spoilHold (k - h.size) b t

/-- The next beat of an engine's head is late: an unscheduled delay (R149, R190, R211, R310). -/
def lateBeat (e : Engine) (s : State) : State :=
  if s.core.active && !s.core.stall.stopped && !(s.core.eng e).queue.isEmpty && !(s.core.eng e).late then
    (s.upd fun c => c.setEng e fun g => { g with late := true }).beginDelay .beat
  else s

/-- A memory error holds up the next beat of the core's stream (R253). -/
def slowBeat (s : State) : State := s.updSd fun d => { d with slow := true }

/-- The late beat has come: the retirement tick of an SDOPEN has moved on with the stall (R211). -/
def beatCame (e : Engine) (s : State) : State :=
  s.upd fun c => c.setEng e fun g => { g with
    late := false
    queue := match e, g.queue with
      | .stream, .word x :: t => .word { x with due := if x.started then max x.due c.gtick else x.due } :: t
      | _, q => q }

/-- The core whose memory a space is. -/
def Space.core? : Space → Option Nat
  | .bench c => some c | .hold c => some c | .slot c => some c | .jig c => some c | .store c => some c
  | _ => none

/-- A corrected error is logged (R299, R379, R380). -/
def logCorrected (sp : Space) (a : Nat) (s : State) : State :=
  match sp.core? with
  | some k => s.logErrorOf (CoreId.ofNat k) 1 0 sp.whereNum 0 0
  | none =>
    let d : Fin 4 := match sp with
      | .loft d => d
      | .hbm => ⟨a / 2 ^ 37 % 4, Nat.mod_lt _ (by decide)⟩
      | _ => 0
    let bs := errorBytes 1 d.val 0 0 sp.whereNum (if sp = .hbm then a else 0) 0 (s.dieTick d)
    s.note bs

/-- Firmware withholds the batch buffers, or hands them back, between tasks (R285). -/
def withhold (b : Bool) (s : State) : State :=
  if !s.booted || s.sys.tasks.any (·.onCores) then s else { s with sys := { s.sys with nosort := b } }

/-- What an act of the world outside that is no row of the table does (log 68). -/
def outsideAct (x : Outside) (s : State) : State :=
  match x with
  | .badBits sp a => { s with sys := { s.sys with bad := (sp, a) :: s.sys.bad } }
  | .corrected sp a => logCorrected sp a s
  | .icache c => s.logErrorOf (CoreId.ofNat c.val) 1 0 0 0 0
  | .copyWord c e k w => s.modCore c.val fun x => x.setEng e fun g => { g with queue := miscopy k w g.queue }
  | .copyValue c k v => s.modCore c.val fun x => { x with q := { x.q with
      xq := x.q.xq.modify k fun y => { y with copy := v } } }
  | .copyEntry c => s.modCore c.val fun x => { x with jig := { x.jig with
      recording := x.jig.recording.map fun r => { r with differs := true } } }
  | .holdByte c k b => s.modCore c.val fun x => { x with cp := { x.cp with hold := spoilHold k b x.cp.hold } }
  | .tileByte c k b => s.modCore c.val fun x => { x with mx := { x.mx with
      tiles := if k < 0x40000 then x.mx.tiles.write k [b] else x.mx.tiles } }
  | .lateBeat c e => s.asCore c.val (lateBeat e)
  | .slowBeat c => s.asCore c.val slowBeat
  | .beatCame c e => s.asCore c.val (beatCame e)
  | .withdrawn c peer tag k => s.asCore c.val (withdraw peer tag k)
  | .hostWrite a bs => s.writeAt .host a bs
  | .pageRead tn off => pageRead tn off s
  | .debugRead c r => debugRead c r s
  | .msixWrite v e => s.msixWrite v e
  | .migrationFailed d k => migrationFailed d k s
  | .withhold b => withhold b s
  | .cooled => cooled s

/-- The oldest act of the world outside; a break request waits for the core's word boundary (R13). -/
def inputAct (s : State) : Act :=
  match s.inputs with
  | [] => .own (.next s.pass)
  | .other x :: t => .own (.next (outsideAct x { s with inputs := t }).pass)
  | .act i :: t =>
    let s1 := { s with inputs := t }
    if !fromOutside i || !wellFormed i then .own (.next s1.pass)
    else if i = .breakRequest then .own (.next (s1.updCtl fun c => { c with breakReq := true }).pass)
    else match eventAbove s i with
      | [] => .run i s1
      | l => .issue l i s1

/-- A running task of a lower PRIO that holds a core a waiting one needs, the lowest first (R346). -/
def victim (s : State) (t : Task) : Option Task :=
  let need := match s.imageOf t with
    | some img => shapeCores img
    | none => []
  let p := prioOf s t
  let holds (u : Task) : Bool := decide (u.tn = t.tn) && decide (u.state = .running)
    && decide (prioOf s u < p) && u.cores.any need.contains
  let l := s.sys.tasks.filter holds
  l.find? fun u => l.all fun v => decide (prioOf s u ≤ prioOf s v)

/-- Firmware's start, pre-emption or resumption of a task of a queue, if one can be made (R340, R346, R349). -/
def taskAct (s : State) (tn : Fin 16) (q : Fin 8) : Option Instr :=
  let ts := s.sys.tasks.filter fun t => decide (t.tn = tn) && decide (t.q = q)
  ts.findSome? fun t => firstOf [
    (startReady s t, .gangStart t.id),
    (decide (t.state = .waiting) && s.wantsStart t && (victim s t).isSome,
      .preemptRequest (((victim s t).map (·.id)).getD t.id)),
    (resumeOk s t, .taskResume t.id)]

/-- Firmware handles an event of a queue (R345). -/
def handle (tn : Fin 16) (q : Fin 8) (e : QEvent) (s : State) : Act :=
  match e with
  | .complete id => .run (.taskComplete id) s
  | .abort id => .run (.taskAbort id) s
  | .debug id => .own (.next (reportDebug id s).pass)
  | .kick seq => .own (.next (s.modQueue tn q fun x => x.kick seq).pass)
  | .preempt id => .own (.next (match s.task id with
    | some t => preemptTask t s
    | none => s).pass)
  | .timer => .own (.next (s.modQueue tn q fun x => { x with timer := none }).pass)

/-- The events of a queue that wait for firmware, oldest first (R345). -/
def State.eventsOf (s : State) (tn : Fin 16) (q : Fin 8) : List QEvent :=
  let x := s.queue tn q
  x.events ++ (if x.timerDue (s.homeTick tn) then [.timer] else [])

/-- Firmware's turn on a queue: its oldest event, its tasks, then the entry its interpreter stands at (R332,
R337, R345), unless it waits to read that again. Before every die has booted no firmware runs (R8). -/
def listAct (tn : Fin 16) (q : Fin 8) (s : State) : Act :=
  if !s.booted then .own (.next s.pass)
  else match s.eventsOf tn q with
  | e :: t => handle tn q e (s.modQueue tn q fun x => { x with events := t })
  | [] => match taskAct s tn q with
  | some i => .run i s
  | none =>
    let x := s.queue tn q
    if x.live && x.timer.isNone && (x.pos.isSome || x.ready) then
      let b := readEntry s tn q
      if !seqOk x b then .run (.entryReread tn q) s
      else match entryInstr tn q b with
        | some i => .run i s
        | none => .run (.entryReread tn q) s
    else .own (.next s.pass)

/-- The k-th of the other cores acts from now on. -/
def swapTo (k : Nat) (s : State) : State :=
  match s.others[k]? with
  | none => s
  | some c => { s with core := c, others := s.others.set k s.core }

/-- What comes at no fixed tick: a barrier's release (R93), a late beat, a refetch that is complete, a
landing while the gang tick stands, the resumption of a phase, the end of power after the critical
temperature. -/
def timedEvent (s : State) : Option Instr :=
  let c := s.core
  firstOf [
    (barDue s, .barrierRelease (fin16 c.arrivedAt.toNat 0)),
    (match c.sd with
      | some d => c.active && d.late && d.beatDue c
      | none => false, .streamBeat),
    (match c.sd with
      | some d => c.runs && (match d.refetch with
        | (_, t) :: _ => decide (t ≤ c.tick)
        | [] => false)
      | none => false, .blockRefetch),
    (match nextFlight c.land.flights with
      | some f => f.ready c
      | none => false, .slotLanding),
    (c.active && c.rollsBack, .phaseResume),
    (decide (s.sys.thermal = .critical) && !s.sys.tasks.any (·.onCores)
      && s.sys.die.toList.any (fun d => decide (d.boot ≠ .off)), .criticalTemperature)]

/-- The links act (R387): an RSEND's next flit goes out, or a port puts on the wire what it has to send. -/
def linkAct (s : State) : State :=
  let (k, s1) := s.pick 33
  if h : k < 32 then s1.modPort ⟨k, h⟩ Port.emit else sendFlit s1

/-- What comes at no fixed tick, or a link's act. -/
def timedAct (s : State) : Act :=
  let (k, s1) := s.pick 2
  if k = 0 then .guard (above .copy) (.next (linkAct s1).pass)
  else match timedEvent s1 with
    | some i => eventTurn i s1
    | none => .own (.next s1.pass)

/-- The act of the agent whose turn it is. -/
def turnAct (s : State) : Act :=
  match s.turn with
  | .control => controlAct s
  | .engine e => engineAct e s
  | .retire e => .run (.engineRetire e) s
  | .input => inputAct s
  | .list tn q => listAct tn q s
  | .swap k => .own (.next (swapTo k s).pass)
  | .timed => timedAct s

/-! ### What is noticed at once -/

/-- The event of a task that has come about and that firmware has not been told of (R341, R345, R358). -/
def newEvent (s : State) (t : Task) : Option QEvent :=
  let l := (s.queue t.tn t.q).events
  if taskOver s t && !l.contains (.complete t.id) then some (.complete t.id)
  else if t.onCores && (abortReport s t).isSome && !l.contains (.abort t.id) then some (.abort t.id)
  else if debugStopped s t && !t.debugged && !l.contains (.debug t.id) then some (.debug t.id)
  else none

/-- An event enters its queue's list (R345). -/
def noticeEvent (s : State) : Option State :=
  s.sys.tasks.findSome? fun t => (newEvent s t).map fun e =>
    s.modQueue t.tn t.q fun x => x.arrive (s.homeTick t.tn) e

/-- A task that stands stopped for a debug event no more: the next one is reported again (R358). -/
def debugOver (s : State) : Option State :=
  (s.sys.tasks.find? fun t => t.debugged && !debugStopped s t).map fun t =>
    s.modTask t.id fun u => { u with debugged := false }

/-- The copies of a jig entry have disagreed (R145, R309): the error of a divergence, at no engine's head. -/
def entryDiffers (s : State) : Option State :=
  s.core.jig.diverged.map fun e =>
    silentError { cause := 0x11, info := BitVec.ofNat 64 (entBits e 32 32 * 2 ^ 32) }
      (s.upd fun c => { c with jig := { c.jig with diverged := none } })

/-- What is noticed before any other act: a START tick (R342), an event for firmware (R345), the end of a debug stop
(R358), a jig entry whose copies differ (R309). -/
def noticed (s : State) : Option State :=
  ((unjudged s).map fun t => judgeStart t s).or ((noticeEvent s).or ((debugOver s).or (entryDiffers s)))

/-- The next act: what is noticed, what has fallen due, otherwise the turn's act. -/
def nextAct (s : State) : Act :=
  match noticed s with
  | some t => .guard engines (.next t)
  | none => match dueEvent s with
    | some i => eventTurn i s
    | none => turnAct s

/-! ### Faults on one tick (R360) -/

/-- Whether an act has made the core take a trap, or stop. -/
def traps (s : State) : Out → Bool
  | .next t => (!s.core.ctl.bank1 && t.core.ctl.bank1) || (s.core.runs && decide (t.core.ctl.run = .dead))
  | _ => false

/-- What the head of an engine's queue would do on this tick; `run` is `exec`. -/
def headOut (run : Instr → State → Out) (e : Engine) (s : State) : Option Out :=
  match engineAct e s with
  | .issue _ i t => some (run i t)
  | .own o | .guard _ o => some o
  | .run _ _ => none

/-- A fault at the head of one of some engines that arises on the same tick: the first. -/
def headFault (run : Instr → State → Out) (l : List Engine) (s : State) : Option Out :=
  l.findSome? fun e => (headOut run e s).filter (traps s)

/-- A word's outcome: when it traps, a fault of an engine before it in R360's order is taken instead. -/
def outrank (run : Instr → State → Out) (l : List Engine) (s : State) (o : Out) : Out :=
  if traps s o then (headFault run l s).getD o else o

/-! ### Placing an instruction (log 7) -/

/-- Put bytes into a code image at a place. -/
def patch (code : List Byte) (off : Nat) (bs : List Byte) : List Byte :=
  code.take off ++ bs ++ code.drop (off + bs.length)

/-- A core whose next control word is given by bytes: it runs, and waits for nothing. -/
def Core.placeControl (bs : List Byte) (c : Core) : Core :=
  let a := c.ctl.pcq.q0.addr.toNat / 4 * 4
  let a := if c.ctl.bank1 ∧ 0x10000 < a + 8 then 0 else a
  let inside := decide (c.ctl.codeBase.toNat ≤ a)
    && decide (a - c.ctl.codeBase.toNat + bs.length ≤ c.ctl.code.length)
  let q0 : PcEntry := { addr := BitVec.ofNat 48 a }
  { c with
    store := if c.ctl.bank1 then c.store.write a bs else c.store
    jig := { c.jig with play := none }
    ctl := { c.ctl with
      run := .running, posted := none, breakReq := false, awaiting := false, arrival := none
      nest := none, settling := []
      pcq := { c.ctl.pcq with q0 := q0 }
      codeBase := if c.ctl.bank1 || inside then c.ctl.codeBase else BitVec.ofNat 48 a
      code := if c.ctl.bank1 then c.ctl.code
        else if inside then patch c.ctl.code (a - c.ctl.codeBase.toNat) bs else bs } }

/-- A core with a word at the head of an engine's queue, matched, in bank 0. -/
def Core.placeEngine (e : Engine) (w : Word) (cont : Option Word) (c : Core) : Core :=
  let x : Entry := {
    word := w, cont := cont, addr := c.nowAddr, snap := c.vis, pushed := c.tick, matched := true }
  let c : Core := { c with ctl := { c.ctl with
    run := .running, bank1 := false, posted := none, breakReq := false, arrival := none } }
  c.setEng e fun g => { g with queue := .word x :: g.queue, late := false }

/-- A core on which nothing falls due. -/
def Core.calm (c : Core) : Core :=
  { c with
    stall := { progress := c.tick }
    sd := none
    land := { c.land with flights := [] }
    load := {}, stream := {}
    q := { c.q with cqPend := [] }
    cp := { c.cp with remote := [], closed := [] }
    jig := { c.jig with diverged := none }
    ctl := { c.ctl with relTick := none } }

/-- A core that issues the instruction with these words next. -/
def Core.placeWords (w cont : Word) (c : Core) : Core :=
  match engineOf (w.toNat / 2 ^ 29) with
  | none => c.placeControl (leBytes 4 w.toNat ++ leBytes 4 cont.toNat)
  | some e => c.placeEngine e w (if isLong w.toNat then some cont else none)

/-- Whose turn an instruction's word needs. -/
def turnFor (w : Word) : Turn :=
  match engineOf (w.toNat / 2 ^ 29) with
  | none => .control
  | some e => .engine e

/-- A state on whose acting core nothing falls due, no task's event is outstanding and no port fails. -/
def State.calm (s : State) : State :=
  { s with core := s.core.calm, sys := { s.sys with
    tasks := [], ports := s.sys.ports.map fun p => { p with retries := 0, failed := 0 } } }

/-- The other cores' clocks reach the acting core's, so that its die's clock may tick (R9). -/
def State.level (s : State) : State :=
  { s with others := s.others.map fun c => { c with tick := max c.tick s.core.tick } }

/-- The state that runs the instruction with these words next. -/
def State.placeWords (s : State) (w cont : Word) : State :=
  let put : State := { s.level with core := s.core.placeWords w cont, turn := turnFor w }
  if (noticed put).isNone && (dueEvent put).isNone && !s.core.stall.stopped then put else put.calm

end Sys2Proof.Machine
end

