-- ==== Sys2Proof/Machine/Step.lean ====
section
/-! DEFINITION. One step of the machine: the next act, run by `exec` where it is an instruction. -/

namespace Sys2Proof.Machine

/-- One step. -/
def step (s : State) : Host.Outcome State Fault Refusal :=
  match nextAct s with
  | .run i t => exec i t
  | .issue l i t => outrank exec l s (exec i t)
  | .own o => o
  | .guard l o => outrank exec l s o

/-- The state with an instruction stored where the next step fetches it: bits of w above nbits are 0; the
first word is the low 32 bits. -/
def State.withFetchWord (s : State) (nbits w : Nat) : State :=
  s.placeWords (BitVec.ofNat 32 (w % 2 ^ nbits)) (BitVec.ofNat 32 (w % 2 ^ nbits / 2 ^ 32))

end Sys2Proof.Machine
end

