-- ==== Sys2Proof/Rounding.lean ====
section
/-! DEFINITION. What it means that an F32 result is an exact value rounded (R125, R127, R131), in terms of real
numbers and of F32 words alone, and that a word is such a result of its operands. -/

namespace Sys2Proof.Machine

/-- An F32 word is finite and has this value (R122). -/
def IsF32 (w : Word) (v : ℝ) : Prop :=
  ∃ (neg : Bool) (num : Nat) (e : Int), f32 w = .fin neg num e ∧ v = (if neg then -1 else 1) * (num : ℝ) * 2 ^ e

/-- A result with its flags is a value v rounded once to F32 under RNE (R125, R131): the nearest F32 value, of two the
one whose last bit is 0; past the largest an infinity with OF and NX; NX where it is not v, with UF where v is tiny
after rounding; a zero of exactly 0 has the sign given (R127). -/
structure RoundsF32 (zneg : Bool) (v : ℝ) (r : Word × FlagBits) : Prop where
  overflows : (2 ^ 25 - 1) * 2 ^ 103 ≤ |v| → r.2 = fOF ||| fNX ∧
    (0 < v → r.1 = 0x7F800000) ∧ (v < 0 → r.1 = 0xFF800000)
  nearest : |v| < (2 ^ 25 - 1) * 2 ^ 103 → ∃ y, IsF32 r.1 y ∧
    (∀ w z, IsF32 w z → |v - y| ≤ |v - z| ∧ (z ≠ y → |v - y| = |v - z| → r.1.getLsbD 0 = false)) ∧
    (r.1.getLsbD 31 = true ↔ v < 0 ∨ (v = 0 ∧ zneg = true)) ∧
    (y = v → r.2 = 0) ∧ (y ≠ v → |v| < 2 ^ (-126 : ℤ) - 2 ^ (-151 : ℤ) → r.2 = fUF ||| fNX) ∧
    (y ≠ v → 2 ^ (-126 : ℤ) - 2 ^ (-151 : ℤ) ≤ |v| → r.2 = fNX)

/-- The sign bit of an F32 word. -/
def signOf (x : Word) : Bool := x.getLsbD 31

end Sys2Proof.Machine
end

