-- ==== Sys2Proof/Safety.lean ====
section
/-! DEFINITION. The terms that claims use: when a word issues with nothing else in its way, what it
leaves alone, and what every run keeps. -/

namespace Sys2Proof.Machine

/-! ### Control words -/

/-- The values that a read of a g register may return (R12, R43): outside a shadow, its value alone. -/
def Core.mayRead (c : Core) (r : Fin 32) : List DWord := c.g r :: c.olds r

/-- No word of bank 0 is followed by cause 0x17 (R372). -/
def noStep (s : State) : Bool := !s.core.ctl.regs.sstep || s.core.ctl.bank1

/-- A control word that reads these registers issues without cause 0x08 (R373) and is not followed
by cause 0x17 (R372). -/
def ctlGoes (s : State) (rs : List (Fin 32)) : Bool :=
  (!s.core.ctl.regs.shadow || rs.all fun r => (s.core.olds r).isEmpty) && noStep s

/-- As `ctlGoes`, and outside every shadow of the registers read (R43). -/
def ctlCalm (s : State) (rs : List (Fin 32)) : Bool :=
  rs.all (fun r => (s.core.olds r).isEmpty) && noStep s

/-- Outside a user debug hook (R370), or in bank 1. -/
def noHook (s : State) : Bool := !s.core.ctl.regs.hook || s.core.ctl.bank1

/-- No recording notes the word (R115). -/
def notRecording (s : State) : Bool := s.core.jig.recording.isNone

/-- Every byte of every memory reads as before. -/
def MemSame (s t : State) : Prop := ∀ sp a, (t.mem sp).read a = (s.mem sp).read a

/-- Every byte reads as before, but for n bytes of one home. -/
def MemBut (sp : Space) (off n : Nat) (s t : State) : Prop :=
  ∀ sp' a, ¬ (sp' = sp ∧ off ≤ a ∧ a < off + n) → (t.mem sp').read a = (s.mem sp').read a

/-- The general and steer registers but those named, and the other bank, stand (R34). -/
structure RegSame (gs : List (Fin 32)) (ss : List (Fin 16)) (s t : State) : Prop where
  g : ∀ r, r ∉ gs → t.core.g r = s.core.g r
  steer : ∀ r, r ∉ ss → t.core.steer r = s.core.steer r
  bank : t.core.ctl.bank1 = s.core.ctl.bank1
  other : if s.core.ctl.bank1 then t.core.ctl.b0 = s.core.ctl.b0 else t.core.ctl.b1 = s.core.ctl.b1

/-- The core stands stopped, or would but for its handler (R149). -/
def Core.stoodStill (c : Core) : Bool := c.stall.stopped && !c.ctl.bank1

/-- Engines, their queues, tokens and units stand; of an open stream only its slip counts while the core
stands stopped (R259). -/
structure UnitSame (s t : State) : Prop where
  eng : ∀ e, t.core.eng e = s.core.eng e
  tok : t.core.tok = s.core.tok
  mx : t.core.mx = s.core.mx
  vec : t.core.vec = s.core.vec
  land : t.core.land = s.core.land
  cp : t.core.cp = s.core.cp
  sd : s.core.stoodStill = false → t.core.sd = s.core.sd
  stopped : t.core.stall.stopped = s.core.stall.stopped

/-- What every control word leaves alone that names no other register: the registers, the special
registers, the units; and the jigs' entries where no recording notes the word (R115). -/
structure CtlKeep (gs : List (Fin 32)) (ss : List (Fin 16)) (s t : State) : Prop where
  reg : RegSame gs ss s t
  unit : UnitSame s t
  regs : t.core.ctl.regs = s.core.ctl.regs
  jig : s.core.jig.recording = none →
    t.core.jig.recording = none ∧ t.core.jig.jig = s.core.jig.jig

/-- The frame of a control word: with what `CtlKeep` says, the engine-visible registers, the queues,
every byte of memory, the other cores and what the package shares stand. -/
structure CtlFrame (gs : List (Fin 32)) (ss : List (Fin 16)) (s t : State) : Prop
    extends CtlKeep gs ss s t where
  vis : t.core.vis = s.core.vis
  q : t.core.q = s.core.q
  others : t.others = s.others
  sys : t.sys = s.sys
  mem : MemSame s t

/-- Neither a nest nor a replay issues words: the PC queue does (R41). -/
def plainStream (s : State) : Bool :=
  s.core.livePlay.isNone && s.core.ctl.nest.isNone

/-- The word is passed (R41): one tick goes by and, where the PC queue issues words, it moves one step. -/
structure Moves (s t : State) : Prop where
  tick : t.core.tick = s.core.tick + 1
  pcq : plainStream s = true → t.core.ctl.pcq = s.core.rotate

/-- A word of three g registers that issues: its result comes from values that reads of a and b may
return; it lands in d unless d is g0; nothing else changes. -/
def writesG3 (mk : Fin 32 → Fin 32 → Fin 32 → Instr) (rel : DWord → DWord → DWord → Prop) : Prop :=
  ∀ (s : State) (d a b : Fin 32), ctlGoes s [a, b] = true →
    ∃ x ∈ s.core.mayRead a, ∃ y ∈ s.core.mayRead b, ∃ r, rel x y r ∧
      ∃ t, exec (mk d a b) s = .next t ∧ t.core.g d = (if d = 0 then 0 else r)
        ∧ CtlFrame [d] [] s t ∧ Moves s t

/-- A word of two g registers that issues. -/
def writesG2 (mk : Fin 32 → Fin 32 → Instr) (rel : DWord → DWord → Prop) : Prop :=
  ∀ (s : State) (d a : Fin 32), ctlGoes s [a] = true →
    ∃ x ∈ s.core.mayRead a, ∃ r, rel x r ∧
      ∃ t, exec (mk d a) s = .next t ∧ t.core.g d = (if d = 0 then 0 else r) ∧ CtlFrame [d] [] s t
        ∧ Moves s t

/-- A word that sets the condition of a steer register alone (R77, R78). -/
def setsCond (i : Instr) (sd : Fin 16) (v : Bool) (s : State) : Prop :=
  ∃ t, exec i s = .next t ∧ t.core.steer sd = { s.core.steer sd with cond := v }
    ∧ CtlFrame [] [sd] s t ∧ Moves s t

/-- A register compare (R77): the condition comes from values that reads of a and b may return. -/
def comparesG (mk : Fin 16 → Fin 32 → Fin 32 → Instr) (f : DWord → DWord → Bool) : Prop :=
  ∀ (s : State) (sd : Fin 16) (a b : Fin 32), sd.val < 12 → ctlGoes s [a, b] = true →
    ∃ x ∈ s.core.mayRead a, ∃ y ∈ s.core.mayRead b, setsCond (mk sd a b) sd (f x y) s

/-- An immediate compare (R77): the immediate is sign-extended. -/
def comparesI (mk : Fin 16 → Fin 32 → BitVec 14 → Instr) (f : DWord → DWord → Bool) : Prop :=
  ∀ (s : State) (sd : Fin 16) (a : Fin 32) (imm : BitVec 14), sd.val < 12 → ctlGoes s [a] = true →
    ∃ x ∈ s.core.mayRead a, setsCond (mk sd a imm) sd (f x (imm.signExtend 64)) s

/-! ### Branches -/

/-- What a branch tests (R40): whether it is taken with a condition, and whether it links. -/
def branchForm : Instr → Option (Fin 16 × NullMode × (Bool → Bool) × Bool)
  | .bt r n => some (r, n, fun c => c, false)
  | .bf r n => some (r, n, fun c => !c, false)
  | .ba r n => some (r, n, fun _ => true, false)
  | .bl r n => some (r, n, fun _ => true, true)
  | _ => none

/-- What PREP leaves in a steer register (R39, R40). -/
def preparedAt (s : State) (a : VAddr) (old new : Steer) : Prop :=
  new.cond = old.cond ∧ new.valid = true ∧ new.target.toNat = a.toNat / 4 ∧
    new.held = (!s.core.ctl.bank1 && (s.core.fetch a).isNone) ∧ new.setAt = some s.core.tick

/-! ### Memory words -/

/-- The width and sign of a load (R80): destination, base, immediate, bytes, whether it
sign-extends. -/
def loadForm : Instr → Option (Fin 32 × Fin 32 × BitVec 9 × Nat × Bool)
  | .ldb d a _ i => some (d, a, i, 1, true)
  | .ldbu d a _ i => some (d, a, i, 1, false)
  | .ldh d a _ i => some (d, a, i, 2, true)
  | .ldhu d a _ i => some (d, a, i, 2, false)
  | .ldw d a _ i => some (d, a, i, 4, true)
  | .ldwu d a _ i => some (d, a, i, 4, false)
  | .ldd d a _ i => some (d, a, i, 8, false)
  | _ => none

/-- The form of a store (R80): source, base, immediate, bytes. -/
def storeForm : Instr → Option (Fin 32 × Fin 32 × BitVec 9 × Nat)
  | .stb d a _ i => some (d, a, i, 1)
  | .sth d a _ i => some (d, a, i, 2)
  | .stw d a _ i => some (d, a, i, 4)
  | .std d a _ i => some (d, a, i, 8)
  | _ => none

/-- The effective address of a load or store (R80): the immediate counts elements. -/
def effAddr (s : State) (a : Fin 32) (imm : BitVec 9) (n : Nat) : DWord :=
  s.core.g a + imm.signExtend 64 * BitVec.ofNat 64 n

/-- The access that a word makes (R80, R84): its kind, address and size, and the registers it reads. -/
def accessForm (s : State) (i : Instr) : Option (Acc × DWord × Nat × List (Fin 32)) :=
  match loadForm i, storeForm i, i with
  | some (_, a, imm, n, _), _, _ => some (.read, effAddr s a imm n, n, [a])
  | _, some (d, a, imm, n), _ => some (.write, effAddr s a imm n, n, [a, d])
  | _, _, .amow d a b _ _ _ => some (.atomic, s.core.g a, 4, [a, b, d])
  | _, _, .amod d a b _ _ _ => some (.atomic, s.core.g a, 8, [a, b, d])
  | _, _, _ => none

/-- The little-endian value of n bytes of a home (R10). -/
def leValue (m : Mem) (a : Nat) : Nat → Nat
  | 0 => 0
  | n + 1 => (m.read a).toNat + 256 * leValue m (a + 1) n

/-- The new value of an atomic (R84), on elements of w bits. -/
def atomResult {w : Nat} (fn : AtomFn) (old v cmp : BitVec w) : BitVec w :=
  match fn with
  | .add => old + v
  | .swap => v
  | .cas => if old = cmp then v else old
  | .and => old &&& v
  | .or => old ||| v
  | .xor => old ^^^ v
  | .min => if old.toInt ≤ v.toInt then old else v
  | .max => if old.toInt ≤ v.toInt then v else old
  | .minu => if old.toNat ≤ v.toNat then old else v
  | .maxu => if old.toNat ≤ v.toNat then v else old

/-- The engine-visible registers without the IRREV bits, which words set on their own (R376). -/
def Vis.plain (v : Vis) : Vis := { v with ph := v.ph.map fun p => { p with irrev := false } }

/-! ### Waiting -/

/-- The word waits: it stands at the head of the stream, nothing but time changes. -/
def waits (i : Instr) (s : State) : Prop :=
  ∃ t, exec i s = .next t ∧ CtlFrame [] [] s t ∧ t.core.ctl.pcq = s.core.ctl.pcq
    ∧ t.core.tick = s.core.tick + 1

/-- The word issues and does nothing: the PC queue moves, one tick passes. -/
def onlyIssues (i : Instr) (s : State) : Prop :=
  ∃ t, exec i s = .next t ∧ CtlFrame [] [] s t ∧ Moves s t

/-! ### Special registers -/

/-- The defined bits of a register that a write reaches (R37, R38, R87), by bank. -/
def srMask (bank1 : Bool) (n : Nat) : DWord :=
  let low (k : Nat) : DWord := BitVec.ofNat 64 (2 ^ k - 1)
  if n < 0x020 then 0
  else if n < 0x040 then
    (match n with
      | 0x020 => 0xFFFC | 0x021 => low 6 | 0x022 => low 64 | 0x027 => low 3 | 0x028 => 0x18
      | 0x029 => low 48 - 2
      | _ => low 48)
  else if n < 0x060 then low 64
  else if n < 0x070 then low 48
  else if n < 0x080 then low 55
  else if n < 0x100 then low 32
  else if n < 0x200 then
    (match n % 16 with
      | 0 => low 48 | 1 => low 5 | 2 => low 4 | 3 => low 16 | 4 => low 24 | 6 => low 48 | 8 => low 4
      | 15 => low 48 | _ => low 32)
  else if n < 0x210 then 0x3FF7FF
  else if n < 0x300 then
    let o := if n < 0x260 then n - 0x210 else n - 0x260
    if o = 0 then low 4
    else if o < 7 then (if bank1 then 0xFFFFFF3FFFFFFFFF else 0x0000FF3FFFFFFFFF)
    else if o = 7 then low 7
    else low 5
  else if n < 0x360 then
    (match n with
      | 0x301 => low 7 | 0x302 => 0xFFFFFFFF001F | 0x303 => 0x3F3F3F3F3F3F3F3F | 0x304 => low 26
      | 0x310 => 0xFFFFFFFF001F | 0x311 => low 7 | 0x320 => low 64 | 0x322 => low 16 | 0x324 => low 1
      | 0x341 => low 13 | 0x342 => low 14
      | _ => low 32)
  else if n < 0x380 then low 8
  else if n = 0x380 then low 2
  else
    (match n % 4 with
      | 2 => low 48 | 3 => low 2 | _ => 0x7FFFC0)

/-- The words that write a special register (R87, R90): the number, the value, the registers read. -/
def mtsForm (s : State) : Instr → Option (BitVec 12 × DWord × List (Fin 32))
  | .mts a sr => some (sr, s.core.g a, [a])
  | .mtsi sr imm => some (sr, imm.signExtend 64, [])
  | .mtsr _ a sr => some (sr, s.core.g a, [a])
  | _ => none

/-- The event that an operand names (R58, R97). -/
def eventOf (s : State) : EvOp → Nat
  | .imm v => v.toNat
  | .reg a => (s.core.g a).toNat % 2 ^ 16

/-! ### Traps -/

/-- What taking a cause in bank 0 outside a hook leaves (R14, R15, R35, R362), when the stream's place
is q: bank 1, both banks' registers as they were, the trap-state registers written, the stream at
TVEC, issued engine words complete but for one that waits for a phase, its batch or its slot's tick and
those behind it (R144), the arrival withdrawn; and, for any cause but 0x16, every other running core of
the gang asked to stop 8 gang ticks on (R149). -/
structure Handles (c : TrapRec) (q : PcQueue) (s u : State) : Prop where
  bank : u.core.ctl.bank1 = true
  regs0 : u.core.ctl.b0 = s.core.ctl.b0
  regs1 : u.core.ctl.b1 = s.core.ctl.b1
  cause : u.core.ctl.regs.ecause = c.cause
  info : u.core.ctl.regs.einfo = c.info
  addr : u.core.ctl.regs.eaddr = c.addr
  origin : u.core.ctl.regs.origin = c.origin
  epc0 : u.core.ctl.regs.epc0 = q.q0.addr
  epc1 : u.core.ctl.regs.epc1 = q.q1.addr
  epc2 : u.core.ctl.regs.epc2 = q.q2.addr
  enul0 : u.core.ctl.regs.enul.getLsbD 0 = q.q0.nul
  enul1 : u.core.ctl.regs.enul.getLsbD 1 = q.q1.nul
  enul2 : u.core.ctl.regs.enul.getLsbD 2 = q.q2.nul
  pc : u.core.ctl.pcq.q0 = { addr := BitVec.ofNat 48 (4 * s.core.ctl.regs.tvec.toNat), nul := false }
  pc1 : u.core.ctl.pcq.q1.nul = false ∧ u.core.ctl.pcq.q2.nul = false
  arrival : u.core.ctl.arrival = none
  done : ∀ e, e ≠ .stream → ∀ w, (u.core.eng e).issued.head? = some w →
    w.waits = true ∨ w.early s.core.tick = true
  mem : MemSame s u
  gang : c.cause ≠ 0x16 → ∀ d ∈ s.others, sameGang s.core d = true → d.ctl.run = .running →
    d.stall.companion = none → d.ctl.bank1 = false → ∃ d' ∈ u.others, d'.id = d.id ∧
      d'.stall.companion = some (BitVec.ofNat 16 s.core.ctl.regs.grank.toNat, u.core.gtick + 8)

/-- An unscheduled delay begins (R149): it is noted, and every running core of the gang that does not stand
stopped stops 8 gang ticks on, unless it is to stop already. -/
structure BeginsDelay (d : Delay) (s t : State) : Prop where
  delays : t.core.stall.delays.contains d = true
  stop : s.core.stall.stopped = false →
    t.core.stall.stopAt = some (s.core.stall.stopAt.getD (s.core.gtick + 8))
  gang : ∀ c ∈ s.others, sameGang s.core c = true → c.ctl.run = .running → c.stall.stopped = false →
    ∃ c' ∈ t.others, c'.id = c.id ∧ c'.stall.stopAt = some (c.stall.stopAt.getD (s.core.gtick + 8))

/-- Where a cause is taken as it is: in bank 0, outside a user debug hook. -/
def inUser (s : State) : Bool := !s.core.ctl.bank1 && !s.core.ctl.regs.hook

/-- It is the control core's turn and a word of its stream, nest or replay is next: nothing is noticed or has
fallen due, its die's clock may tick (R9), the core runs, waits for nothing and no replay issues. -/
def stepsControl (s : State) : Bool :=
  let c := s.core
  (noticed s).isNone && (dueEvent s).isNone && decide (s.turn = .control) && s.mayTick && c.runs
    && !(c.stall.stopped && !c.ctl.bank1) && !c.settling && !c.inRft && !c.waitsStop && !c.ctl.awaiting
    && c.livePlay.isNone

/-! ### Engine words -/

/-- The word at an engine's head may leave it now (R143 to R147): it has not issued yet, no late beat,
rollback or issue of this tick is in its way, the checker's copy has come and equals it, no break holds
it, no token is missing and none would overflow. -/
def engReady (e : Engine) (tk : Tok) (x : Entry) (s : State) : Bool :=
  let c := s.core
  !(c.eng e).late && !x.started && !c.phase.rollback && !decide ((c.eng e).last = some c.tick)
    && c.lagMet x && x.agrees && !c.heldByBreak x && (c.tokOver e tk).isNone && c.tokReady e tk

/-- The word at an engine's head and what stands behind it, when no register write comes next. -/
def headWord (e : Engine) (s : State) : Option (Entry × List QItem) :=
  match (s.core.eng e).queue with
  | .word _ :: .reg _ _ :: _ => none
  | .word x :: rest => some (x, rest)
  | _ => none

/-- The act is on a word that may leave, or on one that has issued and goes on (R143). -/
def engGoes (e : Engine) (tk : Tok) (x : Entry) (s : State) : Bool :=
  (x.started && !(s.core.eng e).late) || engReady e tk x s

/-- A trap of a word at its engine's head is one before it issues, or, once it has issued, one at its
progress point (R143, R361), with the origin of its engine. -/
def engTrap (e : Engine) (r : TrapRec) (x : Entry) (s : State) : State :=
  (takeTrap { r with origin := BitVec.ofNat 3 (engNum e), prog := r.prog || x.started }
    (if x.started then putHead e x s else s)).pass

/-- What no act of an engine word changes: the other engines, the ticks, the jigs; and of the engine-visible
registers at most IRREV (R376). -/
structure EngRest (e : Engine) (s t : State) : Prop where
  others : ∀ e', e' ≠ e → t.core.eng e' = s.core.eng e'
  tick : t.core.tick = s.core.tick
  gtick : t.core.gtick = s.core.gtick
  jig : t.core.jig = s.core.jig
  vis : t.core.vis.plain = s.core.vis.plain
  hook : t.core.hook = s.core.hook

/-- The same, and the control core stands. -/
structure EngFrame (e : Engine) (s t : State) : Prop where
  others : ∀ e', e' ≠ e → t.core.eng e' = s.core.eng e'
  ctl : t.core.ctl = s.core.ctl
  tick : t.core.tick = s.core.tick
  gtick : t.core.gtick = s.core.gtick
  jig : t.core.jig = s.core.jig
  vis : t.core.vis.plain = s.core.vis.plain
  hook : t.core.hook = s.core.hook

/-- The word at the head issues (R143, R144): it leaves the queue, its tokens pop unless it had issued
before, and it waits for its retirement with the tokens it will push. -/
structure EngIssues (e : Engine) (tk : Tok) (x : Entry) (rest : List QItem) (s t : State) : Prop
    extends EngFrame e s t where
  queue : (t.core.eng e).queue = rest
  issued : ∃ w : Issued, (t.core.eng e).issued = (s.core.eng e).issued ++ [w] ∧ w.gl = tk.gl ∧ w.gr = tk.gr
  last : (t.core.eng e).last = some s.core.tick
  tok : t.core.tok = if x.started then s.core.tok else s.core.popToks e tk

/-- The word stands at a progress point (R143): issued, at its queue's head, n parts done. Before a handler's
first word a word that does not go on from there stops, and PROG says so (R215, R216, R361). -/
structure EngStays (e : Engine) (tk : Tok) (x : Entry) (rest : List QItem) (n : Nat) (s t : State) : Prop
    extends EngRest e s t where
  queue : ∃ y, (t.core.eng e).queue = .word y :: rest ∧ y.started = true ∧ y.prog = n ∧
    y.word = x.word ∧ y.snap = x.snap ∧ y.addr = x.addr ∧
    t.core.ctl = if x.started && s.core.settlesNow e && !y.goesOn then (stopSettling e s).core.ctl
      else s.core.ctl
  issued : (t.core.eng e).issued = (s.core.eng e).issued
  tok : t.core.tok = if x.started then s.core.tok else s.core.popToks e tk

/-- The word waits for something: it stays, and nothing changes. -/
def EngWaits (i : Instr) (e : Engine) (s : State) : Prop :=
  ∃ t, exec i s = .next t ∧ EngFrame e s t ∧ t.core.eng e = s.core.eng e ∧ t.core.tok = s.core.tok ∧
    t.core.q = s.core.q ∧ t.core.mx = s.core.mx ∧ t.core.vec = s.core.vec ∧ MemSame s t

/-- Units other than the matrix path, the vector engine and the queues stand, and memory with them. -/
def RestSame (s t : State) : Prop :=
  t.core.land = s.core.land ∧ t.core.cp = s.core.cp ∧ t.core.sd = s.core.sd ∧ t.others = s.others ∧
    t.sys = s.sys ∧ MemSame s t

/-! ### Vector words -/

/-- A source's value in a lane (R65): a register, the head of a queue, the lane's number, or zero. -/
def srcLane (s : State) (a : VSrc) (i : Fin 64) : Word :=
  match a with
  | .v k => s.core.vec.v[s.core.vec.phys k][i]
  | .vq q => match s.core.q.vq[q] with
    | x :: _ => x.lanes[i]
    | [] => 0
  | .lane => BitVec.ofNat 32 i.val
  | .vz => 0

/-- A predicate's value (R217): p0 is all ones. -/
def predVal (s : State) (p : Fin 16) : BitVec 64 :=
  if s.core.vec.physP p = 0 then BitVec.allOnes 64 else s.core.vec.p[s.core.vec.physP p]

/-- A vector word can issue on its operands: its queues hold entries, its destination has room, and no
register it reads is in a shadow (R219). -/
def vecCalm (s : State) (srcs : List VSrc) (ps : List (Fin 16)) (d : VDst) : Bool :=
  let c := s.core
  (srcQueues srcs).all (fun q => !c.q.vq[q].isEmpty) && c.dstRoom d
    && (srcRegs c.vec srcs).all (fun k => (oldsOf c.vec.pendV k.val c.tick).isEmpty)
    && (ps.map c.vec.physP).all (fun k => (oldsOf c.vec.pendP k.val c.tick).isEmpty)

/-- Where results go (R65, R218): a register takes the lanes of the mask and keeps the others; a
queue takes an entry with the mask, its inactive lanes 0; every other register and queue stands, but
for the entries popped from the source queues. -/
def Delivers (d : VDst) (srcs : List VSrc) (m : BitVec 64) (f : Fin 64 → Word) (s t : State) : Prop :=
  (∀ r : Fin 24, t.core.vec.v[r] = match d with
    | .v k => if r = s.core.vec.phys k then
        Vector.ofFn fun i => if m.getLsbD i.val then f i else s.core.vec.v[r][i]
      else s.core.vec.v[r]
    | _ => s.core.vec.v[r]) ∧
  (let e : LaneEntry := { lanes := Vector.ofFn fun i => if m.getLsbD i.val then f i else 0, mask := m }
   t.core.q = { s.core.q with
     vq := Vector.ofFn fun q => if VSrc.vq q ∈ srcs then s.core.q.vq[q].tail else s.core.q.vq[q]
     wq := s.core.q.wq ++ (if d = .wq then [e] else [])
     mq := s.core.q.mq ++ (if d = .mq then [e] else []) })

/-- The rest of the vector engine: predicates, generator, rotation, and the flags but for a word's own
contribution (R136, R138). -/
def VecRest (fl : FlagBits) (nans : Nat) (s t : State) : Prop :=
  t.core.vec.p = s.core.vec.p ∧ t.core.vec.vrk = s.core.vec.vrk ∧ t.core.vec.vrc = s.core.vec.vrc ∧
  t.core.vec.vb = s.core.vec.vb ∧ t.core.vec.pb = s.core.vec.pb ∧
  t.core.vec.vflags.bits = s.core.vec.vflags.bits ||| fl ∧
  t.core.vec.vflags.nanc.toNat = min (s.core.vec.vflags.nanc.toNat + nans) 0xFFFFFFFF

/-- The OR of the flags of the lanes of a mask, and the number of its lanes that meet a test (R137). -/
def laneFlags (m : BitVec 64) (f : Fin 64 → FlagBits) : FlagBits :=
  (List.finRange 64).foldl (fun a i => if m.getLsbD i.val then a ||| f i else a) 0
/-- The number of lanes of a mask that meet a test. -/
def laneCount (m : BitVec 64) (t : Fin 64 → Bool) : Nat :=
  ((List.finRange 64).filter fun i => m.getLsbD i.val && t i).length

/-- A vector word of two sources that works lane by lane under its predicate (R218, R220, R222). -/
def lanewise2 (mk : Tok → VDst → VSrc → VSrc → Fin 16 → Instr) (f : Word → Word → Word × FlagBits)
    (fp : Bool) : Prop :=
  ∀ (s : State) (tk : Tok) (d : VDst) (a b : VSrc) (p : Fin 16) (x : Entry) (rest : List QItem),
    headWord .vector s = some (x, rest) → x.started = false → engReady .vector tk x s = true →
    vecCalm s [a, b] [p] d = true →
    ∃ t, exec (mk tk d a b p) s = .next t ∧ EngIssues .vector tk x rest s t ∧ RestSame s t ∧
      t.core.mx = s.core.mx ∧
      Delivers d [a, b] (predVal s p) (fun i => (f (srcLane s a i) (srcLane s b i)).1) s t ∧
      VecRest (laneFlags (predVal s p) fun i => (f (srcLane s a i) (srcLane s b i)).2)
        (laneCount (predVal s p) fun i => fp && (isNaN (srcLane s a i) || isNaN (srcLane s b i))) s t

/-- A vector word of one source that works lane by lane under its predicate. -/
def lanewise1 (mk : Tok → VDst → VSrc → Fin 16 → Instr) (f : Word → Word × FlagBits) (fp : Bool) : Prop :=
  ∀ (s : State) (tk : Tok) (d : VDst) (a : VSrc) (p : Fin 16) (x : Entry) (rest : List QItem),
    headWord .vector s = some (x, rest) → x.started = false → engReady .vector tk x s = true →
    vecCalm s [a] [p] d = true →
    ∃ t, exec (mk tk d a p) s = .next t ∧ EngIssues .vector tk x rest s t ∧ RestSame s t ∧
      t.core.mx = s.core.mx ∧
      Delivers d [a] (predVal s p) (fun i => (f (srcLane s a i)).1) s t ∧
      VecRest (laneFlags (predVal s p) fun i => (f (srcLane s a i)).2)
        (laneCount (predVal s p) fun i => fp && isNaN (srcLane s a i)) s t

/-- A vector word that writes every lane (R218), whatever its predicate. -/
def writesAll (i : Instr) (tk : Tok) (d : VDst) (srcs : List VSrc) (ps : List (Fin 16)) (f : Fin 64 → Word)
    (fl : FlagBits) (nans : Nat) (s : State) : Prop :=
  ∀ (x : Entry) (rest : List QItem), headWord .vector s = some (x, rest) → x.started = false →
    engReady .vector tk x s = true → vecCalm s srcs ps d = true →
    ∃ t, exec i s = .next t ∧ EngIssues .vector tk x rest s t ∧ RestSame s t ∧ t.core.mx = s.core.mx ∧
      Delivers d srcs (BitVec.allOnes 64) f s t ∧ VecRest fl nans s t

/-- The lanes of a source. -/
def srcLanes (s : State) (a : VSrc) : Lanes := Vector.ofFn (srcLane s a)

/-! ### Engine words that write units -/

/-- A word that does nothing at its engine but pass tokens (R201, R208, R240, R321, R324), with its engine:
LADV's advance was applied at its push; RFENCE has nothing to wait for. -/
def nopForm (s : State) : Instr → Option (Engine × Tok)
  | .lnop t => some (.load, t)
  | .ladv t _ l => if l.val < 6 then some (.load, t) else none
  | .mnop t => some (.matrix, t)
  | .vnop t => some (.vector, t)
  | .snop t => some (.copy, t)
  | .rfence t => if s.core.cp.remote = [] ∧ (s.core.q.cqPend.all fun r => decide (r.toNat / 2 ^ 29 % 4 = 2))
      then some (.copy, t) else none
  | _ => none

/-- The first n elements of a tile's rows are those of a list of rows; past its row each row of the tile is 0
where the word clears it and otherwise as it was (R167, R192); the other tiles stand. -/
def TileHolds (t : Fin 16) (b n : Nat) (rows : List (List Byte)) (clear : Bool) (s u : State) : Prop :=
  (∀ r j, r < rows.length → j < n → elemOf b (tileRow u.core t r) j = elemOf b (rows.getD r []) j) ∧
  (∀ r j, r < 64 → (rows.getD r []).length ≤ j → j < 256 →
    (tileRow u.core t r).getD j 0 = if clear then 0 else (tileRow s.core t r).getD j 0) ∧
  (∀ a, ¬ (t.val * 16384 ≤ a ∧ a < (t.val + 1) * 16384) → u.core.mx.tiles.read a = s.core.mx.tiles.read a)

/-- A tile's shape after a fill with the sums of its rows and element positions (R168, R194); the other
shapes and sums stand. -/
def ShapeIs (t : Fin 16) (f : BitVec 4) (r e : Nat) (s u : State) : Prop :=
  (∀ k : Fin 16, u.core.mx.shape[k] = if k = t then
    { fmt := f, rows := BitVec.ofNat 7 r, elems := BitVec.ofNat 10 e } else s.core.mx.shape[k]) ∧
  ∀ k : Fin 16, u.core.mx.sums[k] = if k = t then tileSums u.core.mx.tiles t f r e else s.core.mx.sums[k]

/-- The matrix path but for its tiles, shapes and sums. -/
def MxButTiles (s u : State) : Prop :=
  u.core.mx = { s.core.mx with tiles := u.core.mx.tiles, shape := u.core.mx.shape, sums := u.core.mx.sums }

/-- A queue of operands takes one entry with every lane active, the lanes little-endian words of bytes
(R195); every other queue stands. -/
def EntersVq (q : Fin 4) (lane : Fin 64 → Word) (s u : State) : Prop :=
  u.core.q = { s.core.q with vq := s.core.q.vq.set q.val (s.core.q.vq[q] ++
    [{ lanes := Vector.ofFn lane, mask := BitVec.allOnes 64 }]) q.isLt }

/-- Lane k of a row of bytes (R195): four bytes, little-endian, zeros past its end. -/
def rowLane (bs : List Byte) (k : Fin 64) : Word :=
  BitVec.ofNat 32 (leNat ((bs.drop (4 * k.val)).take 4))

/-- The word at the head goes on: it stays with n parts done, or issues as the last is. -/
def EngStep (last : Bool) (e : Engine) (tk : Tok) (x : Entry) (rest : List QItem) (s t : State) : Prop :=
  if last then EngIssues e tk x rest s t else EngStays e tk x rest (x.prog + 1) s t

/-- The product step that stands at the matrix queue's head (R179, R202), with its tokens and whether it is
the word's last: MMA's one step, or an MRUN's next where its MRCTL and trip counts hold. -/
def stepForm (x : Entry) : Instr → Option (Tok × MStep × Bool)
  | .mma tk o c => some (tk, ⟨o, c, 0⟩, true)
  | .mrun tk k c =>
    let n := x.snap.nest[k]
    if mrBad x.snap.mrctl c.tb || (tripsBad n).isSome then none
    else some (tk, mrStep x.snap.mrctl n c x.prog, decide (n.trips.foldl (· * ·) 1 ≤ x.prog + 1))
  | _ => none

/-- An accumulator's element (R167). -/
def accWord (c : Core) (a : Fin 4) (r k : Nat) : Word := (accRow c.mx.acc a r).getD k 0

/-- Element (r, k) with its flags (R172) of the result of a step that issued with h: the old element or zero,
the products of row r of A with column k of B, the scales of their blocks. An element that a fill still
changes, or has changed since the step issued, is one of those it may be (R191), by the free values from n on. -/
def stepWord (x : Entry) (m : MStep) (h : HeldStep) (c : Core) (n r k : Nat) : Word × FlagBits :=
  let p := prof m.c.profile
  let old := if m.o.z then 0 else accWord c m.o.a r k
  let row := (m.aRows h c n).getD r []
  let col := (m.bCols x h c (n + 32768)).getD k []
  if p.int then (intElem row col old, 0)
  else dotElem p row col (fun j => scaleExp h.sa (64 * j + r)) (fun j => scaleExp h.sb (64 * j + k)) old

/-- What a step of the matrix engine takes as it issues (R175, R177, R191, R202): the scales and blocks
leave their FIFOs and stand with the word, which holds what it saw; nothing else of the matrix path changes. -/
structure StepTakes (x : Entry) (m : MStep) (s t : State) : Prop where
  word : ∃ y rest, (t.core.eng .matrix).queue = .word y :: rest ∧ y.held = some (m.hold x s) ∧
    y.blocks = (if m.o.b = .wsf then (x.blocks ++ s.core.mx.wfifo).take m.blocks else x.blocks) ∧
    y.batches = (if m.o.b = .wsf then (x.batches ++ s.core.mx.scf).take m.blocks else x.batches)
  ascale : t.core.mx.ascale.flatten = if m.o.sa then s.core.mx.ascale.flatten.drop (64 * m.blocks)
    else s.core.mx.ascale.flatten
  bscale : t.core.mx.bscale.flatten = if m.o.sb = .bf then s.core.mx.bscale.flatten.drop (64 * m.blocks)
    else s.core.mx.bscale.flatten
  wfifo : t.core.mx.wfifo = if m.o.b = .wsf then s.core.mx.wfifo.drop (m.need x) else s.core.mx.wfifo
  scf : t.core.mx.scf = if m.o.b = .wsf then s.core.mx.scf.drop (m.need x) else s.core.mx.scf
  other : t.core.mx = { s.core.mx with
    ascale := t.core.mx.ascale, bscale := t.core.mx.bscale, wfifo := t.core.mx.wfifo, scf := t.core.mx.scf }

/-- What a step of the matrix engine that issued with h leaves (R169, R172, R202). -/
structure StepDone (x : Entry) (m : MStep) (h : HeldStep) (s t : State) : Prop where
  elem : ∀ r k, r < 64 → k < 64 → accWord t.core m.o.a r k = (stepWord x m h s.core s.free r k).1
  acc : ∀ a, ¬ (m.o.a.val * 16384 ≤ a ∧ a < (m.o.a.val + 1) * 16384) →
    t.core.mx.acc.read a = s.core.mx.acc.read a
  accI : ∀ a : Fin 4, t.core.mx.accI[a] = if a = m.o.a then (prof m.c.profile).int else s.core.mx.accI[a]
  flags : t.core.mx.mflags.bits = s.core.mx.mflags.bits ||| (List.range 64).foldl (fun f r =>
    (List.range 64).foldl (fun f k => f ||| (stepWord x m h s.core s.free r k).2) f) (0 : FlagBits)
  nanc : t.core.mx.mflags.nanc = s.core.mx.mflags.nanc
  fifos : t.core.mx.ascale = s.core.mx.ascale ∧ t.core.mx.bscale = s.core.mx.bscale ∧
    t.core.mx.wfifo = s.core.mx.wfifo ∧ t.core.mx.scf = s.core.mx.scf
  other : t.core.mx.tiles = s.core.mx.tiles ∧ t.core.mx.shape = s.core.mx.shape ∧
    t.core.mx.sums = s.core.mx.sums ∧
    t.core.mx.epi = s.core.mx.epi ∧ t.core.mx.bank = s.core.mx.bank ∧ t.core.mx.heap = s.core.mx.heap ∧
    t.core.mx.heapk = s.core.mx.heapk ∧ t.core.mx.epcolbase = s.core.mx.epcolbase

/-- The row of a matrix word's accumulator act (R206): row r holds the words, every other byte stands. -/
def AccRowIs (a : Fin 4) (r : Nat) (f : Nat → Word) (s t : State) : Prop :=
  (∀ k, k < 64 → accWord t.core a r k = f k) ∧
  ∀ b, ¬ (a.val * 16384 + 256 * r ≤ b ∧ b < a.val * 16384 + 256 * r + 256) →
    t.core.mx.acc.read b = s.core.mx.acc.read b

/-! ### Memories -/

/-- Every memory of a core is canonical. -/
def Core.memWf (c : Core) : Bool := c.bench.wf && c.store.wf && c.mx.tiles.wf && c.mx.acc.wf

/-- Every memory of the machine is canonical: those of the cores, of saved cores, of dies and the package. -/
def State.memWf (s : State) : Bool :=
  s.core.memWf && s.others.all Core.memWf && s.sys.die.toList.all (fun d => d.loft.wf) && s.sys.hbm.wf
    && s.sys.host.wf && s.sys.tasks.all fun t => t.saved.all Core.memWf

/-- Whether a home is one of the machine's memories: a bench is one when the machine has its core. -/
def State.hasHome (s : State) : Space → Bool
  | .bench k => (s.coreAt k).isSome
  | .loft _ => true
  | .hbm => true
  | .host => true
  | _ => false

/-- The machine has the 128 cores of the package, each once (R2). -/
def State.whole (s : State) : Prop := s.coreNums.Perm (List.range 128)

/-- What every step keeps: every memory canonical, and all 128 cores. -/
structure State.Inv (s : State) : Prop where
  mem : s.memWf = true
  whole : s.whole

/-! ### The package -/

/-- The completion records of a core, in order (R320). -/
def Queues.records (q : Queues) : List Record := q.cq ++ q.cqPend

/-- Records enter the completion queue, or wait behind those that wait (R320); nothing else of the queues
changes. -/
structure Recorded (rs : List Record) (s t : State) : Prop where
  q : t.core.q = { s.core.q with cq := t.core.q.cq, cqPend := t.core.q.cqPend }
  records : t.core.q.records = s.core.q.records ++ rs
  room : s.core.q.cq.length ≤ 64 → t.core.q.cq.length ≤ 64
  hook : s.core.hook = none → t.core.hook = none

/-- The record of a remote word's end (R320). -/
def Remote.record (r : Remote) (status reason : Nat) : Record :=
  cqRecord (if r.op = .send then 0 else 1) r.peer r.tag r.len status reason

/-- The acting core's remote word ends (R319): its record is pushed and it is posted no longer; the rest of
the core, but for its bench, stands. -/
structure RemoteEnds (r : Remote) (status reason : Nat) (s t : State) : Prop where
  record : Recorded [r.record status reason] s t
  core : t.core = { s.core with
    cp := { s.core.cp with remote := s.core.cp.remote.erase r, gone := t.core.cp.gone }
    q := t.core.q, hook := t.core.hook, bench := t.core.bench }
  gone : status ≠ 1 → t.core.cp.gone = s.core.cp.gone

/-- Nothing but the acting core changes. -/
def OnlyCore (s t : State) : Prop := t.others = s.others ∧ t.sys = s.sys ∧ MemSame s t

/-- Nothing changes but the turn. -/
def Idles (i : Instr) (s : State) : Prop :=
  ∃ t, exec i s = .next t ∧ t.core = s.core ∧ t.others = s.others ∧ t.sys = s.sys

/-- The bytes of an RRECV's elements, old and new, under its reduction (R318), element by element. -/
def reducedElem (red : Reduce) (old new : Nat) : Nat :=
  match red with
  | .none => new
  | .addf => (fAdd (BitVec.ofNat 32 old) (BitVec.ofNat 32 new)).1.toNat
  | .addb => addB16 old new
  | .addi => (old + new) % 2 ^ 32
  | .maxf => (fMinMax true (BitVec.ofNat 32 old) (BitVec.ofNat 32 new)).1.toNat

/-- One queue of a tenant changes and nothing else. -/
def OnlyQueue (tn : Fin 16) (q : Fin 8) (y : HostQueue) (s t : State) : Prop :=
  let x := s.sys.tenants[tn]
  let z := { x with queues := x.queues.set q.val y q.isLt }
  t.core = s.core ∧ t.others = s.others ∧
    t.sys = { s.sys with tenants := s.sys.tenants.set tn.val z tn.isLt }

/-- One port changes and nothing else. -/
def OnlyPort (p : Fin 32) (y : Port) (s t : State) : Prop :=
  t.core = s.core ∧ t.others = s.others ∧
    t.sys = { s.sys with ports := s.sys.ports.set p.val y p.isLt }

/-- Only what the package shares changes. -/
def OnlySys (y : Sys) (s t : State) : Prop := t.core = s.core ∧ t.others = s.others ∧ t.sys = y

/-- The cores of the acting core's gang, it among them. -/
def State.gang (s : State) : List Core := s.core :: s.gangOthers

/-- No two cores have one number (what `State.whole` gives). -/
def State.distinct (s : State) : Prop := s.coreNums.Nodup

/-- The core with a number before and after an act meets a relation. -/
def AtCore (k : Nat) (r : Core → Core → Prop) (s t : State) : Prop :=
  ∀ c, s.coreAt k = some c → ∃ d, t.coreAt k = some d ∧ r c d

/-- A lane number of a word (R232). -/
def lane64 (n : Nat) : Fin 64 := ⟨n % 64, Nat.mod_lt _ (by decide)⟩

/-- A steer register's number in a field of four bits. -/
def steerNo (r : Fin 12) : Fin 16 := ⟨r.val, Nat.lt_trans r.isLt (by decide)⟩

end Sys2Proof.Machine
end

