-- ==== Sys2Proof/Certificates/Slice0/Obligations.lean ====
section
/-! DEFINITION. The statements for the provers. Each docstring names the rule that the statement
formalises. -/

open Sys2Proof Sys2Proof.Machine

/-! ### Register words of the control core -/

/-- R74: the sums, logic, shifts and minima of the ALU group, with every value a shadowed read may
return (R12), and their frame. Shift amounts are taken mod 64. -/
def Obligations.LogicAndShiftResults : Prop :=
  writesG3 .add (fun x y r => r = x + y) ∧
  writesG3 .sub (fun x y r => r = x - y) ∧
  writesG3 .and (fun x y r => r = x &&& y) ∧
  writesG3 .or (fun x y r => r = x ||| y) ∧
  writesG3 .xor (fun x y r => r = x ^^^ y) ∧
  writesG3 .andn (fun x y r => r = x &&& ~~~y) ∧
  writesG3 .sll (fun x y r => r.toNat = x.toNat * 2 ^ (y.toNat % 64) % 2 ^ 64) ∧
  writesG3 .srl (fun x y r => r.toNat = x.toNat / 2 ^ (y.toNat % 64)) ∧
  writesG3 .sra (fun x y r => r.toInt = x.toInt / 2 ^ (y.toNat % 64)) ∧
  writesG3 .rotl (fun x y r => ∀ i, i < 64 → r.getLsbD ((i + y.toNat) % 64) = x.getLsbD i) ∧
  writesG3 .min (fun x y r => r.toInt = min x.toInt y.toInt) ∧
  writesG3 .max (fun x y r => r.toInt = max x.toInt y.toInt) ∧
  writesG3 .minu (fun x y r => r.toNat = min x.toNat y.toNat) ∧
  writesG3 .maxu (fun x y r => r.toNat = max x.toNat y.toNat)

/-- R74, R75: the products and quotients of the ALU group. Division by 0 gives all ones and leaves
the dividend as the remainder; the most negative number over −1 gives itself and remainder 0.
R74: CLZ counts the zeros above the highest 1, CTZ those below the lowest, 64 for zero; POPC
counts the 1 bits. -/
def Obligations.MultiplyDivideCountResults : Prop :=
  (writesG3 .mul (fun x y r => r.toNat = x.toNat * y.toNat % 2 ^ 64) ∧
   writesG3 .mulh (fun x y r => r.toInt = x.toInt * y.toInt / 2 ^ 64) ∧
   writesG3 .mulhu (fun x y r => r.toNat = x.toNat * y.toNat / 2 ^ 64) ∧
   writesG3 .divu (fun x y r => (y = 0 → r = BitVec.allOnes 64) ∧
     (y ≠ 0 → r.toNat = x.toNat / y.toNat)) ∧
   writesG3 .remu (fun x y r => (y = 0 → r = x) ∧ (y ≠ 0 → r.toNat = x.toNat % y.toNat)) ∧
   writesG3 .div (fun x y r => (y = 0 → r = BitVec.allOnes 64) ∧
     (x.toInt = -2 ^ 63 → y.toInt = -1 → r = x) ∧
     (y ≠ 0 → ¬ (x.toInt = -2 ^ 63 ∧ y.toInt = -1) → r.toInt = x.toInt.tdiv y.toInt)) ∧
   writesG3 .rem (fun x y r => (y = 0 → r = x) ∧
     (x.toInt = -2 ^ 63 → y.toInt = -1 → r = 0) ∧
     (y ≠ 0 → r.toInt = x.toInt.tmod y.toInt))) ∧
  (writesG2 .clz (fun x r => (x = 0 → r = 64) ∧
     (x ≠ 0 → r.toNat < 64 ∧ x.getLsbD (63 - r.toNat) = true ∧
       ∀ i, 63 - r.toNat < i → i < 64 → x.getLsbD i = false)) ∧
   writesG2 .ctz (fun x r => (x = 0 → r = 64) ∧
     (x ≠ 0 → r.toNat < 64 ∧ x.getLsbD r.toNat = true ∧ ∀ i, i < r.toNat → x.getLsbD i = false)) ∧
   writesG2 .popc (fun x r =>
     r.toNat = ((List.range 64).map fun i => if x.getLsbD i then 1 else 0).sum))

/-- R76: the immediate forms. LUI puts its immediate at bit 13, ADRP adds four times its immediate to
the address of the word itself, modulo 2^48. -/
def Obligations.ImmediateResults : Prop :=
  (∀ imm : BitVec 13, writesG2 (fun d a => .addi d a imm) fun x r => r = x + imm.signExtend 64) ∧
  (∀ imm : BitVec 13, writesG2 (fun d a => .andi d a imm) fun x r => r = x &&& imm.signExtend 64) ∧
  (∀ imm : BitVec 13, writesG2 (fun d a => .ori d a imm) fun x r => r = x ||| imm.signExtend 64) ∧
  (∀ imm : BitVec 13, writesG2 (fun d a => .xori d a imm) fun x r => r = x ^^^ imm.signExtend 64) ∧
  (∀ n : Fin 64, writesG2 (fun d a => .slli d a n) fun x r => r.toNat = x.toNat * 2 ^ n.val % 2 ^ 64) ∧
  (∀ n : Fin 64, writesG2 (fun d a => .srli d a n) fun x r => r.toNat = x.toNat / 2 ^ n.val) ∧
  (∀ n : Fin 64, writesG2 (fun d a => .srai d a n) fun x r => r.toInt = x.toInt / 2 ^ n.val) ∧
  (∀ (s : State) (d : Fin 32) (imm : BitVec 18), ctlGoes s [] = true →
    ∃ t, exec (.lui d imm) s = .next t ∧ CtlFrame [d] [] s t ∧ Moves s t ∧
      (t.core.g d).toInt = if d = 0 then 0 else imm.toInt * 2 ^ 13) ∧
  (∀ (s : State) (d : Fin 32) (imm : BitVec 18), ctlGoes s [] = true →
    ∃ t, exec (.adrp d imm) s = .next t ∧ CtlFrame [d] [] s t ∧ Moves s t ∧
      ((t.core.g d).toNat : Int) =
        if d = 0 then 0 else (s.core.nowAddr.toNat + 4 * imm.toInt) % 2 ^ 48)

/-- R77, R78: a compare writes the condition alone, with every value a shadowed read may return (R12); so does
steer logic on conditions; SMOV copies the whole register and sets its target now (R40). -/
def Obligations.ConditionResults : Prop :=
  comparesG .ceq (fun x y => decide (x = y)) ∧
  comparesG .cne (fun x y => decide (x ≠ y)) ∧
  comparesG .clt (fun x y => decide (x.toInt < y.toInt)) ∧
  comparesG .cge (fun x y => decide (y.toInt ≤ x.toInt)) ∧
  comparesG .cltu (fun x y => decide (x.toNat < y.toNat)) ∧
  comparesG .cgeu (fun x y => decide (y.toNat ≤ x.toNat)) ∧
  comparesG .cbs (fun x y => x.getLsbD (y.toNat % 64)) ∧
  comparesG .cbc (fun x y => !x.getLsbD (y.toNat % 64)) ∧
  comparesI .ceqi (fun x y => decide (x = y)) ∧
  comparesI .cnei (fun x y => decide (x ≠ y)) ∧
  comparesI .clti (fun x y => decide (x.toInt < y.toInt)) ∧
  comparesI .cgei (fun x y => decide (y.toInt ≤ x.toInt)) ∧
  comparesI .cltui (fun x y => decide (x.toNat < y.toNat)) ∧
  ∀ (s : State) (sd sa sb : Fin 16), sd.val < 12 → ctlGoes s [] = true →
    let x := (s.core.steer sa).cond
    let y := (s.core.steer sb).cond
    setsCond (.sand sd sa sb) sd (x && y) s ∧ setsCond (.sor sd sa sb) sd (x || y) s ∧
    setsCond (.sxor sd sa sb) sd (xor x y) s ∧ setsCond (.snot sd sa) sd (!x) s ∧
    setsCond (.sset sd) sd true s ∧ setsCond (.sclr sd) sd false s ∧
    ∃ t, exec (.smov sd sa) s = .next t ∧ CtlFrame [] [sd] s t ∧ Moves s t ∧
      (t.core.steer sd).cond = x ∧ (t.core.steer sd).valid = (s.core.steer sa).valid ∧
      (t.core.steer sd).target = (s.core.steer sa).target ∧
      (t.core.steer sd).held = (s.core.steer sa).held ∧ (t.core.steer sd).setAt = some s.core.tick

/-! ### Prepare and branch -/

/-- R39: PREP and PREPR write VALID and TARGET, hold a fetch fault for a target outside the code
image, and leave the condition; PREPR traps with 0x03, ACC 3, at a target that is not a word address. -/
def Obligations.PrepareSetsTarget : Prop :=
  (∀ (s : State) (sd : Fin 16) (off : BitVec 19), sd.val < 12 → ctlGoes s [] = true →
    ∃ t, exec (.prep sd off) s = .next t ∧ CtlFrame [] [sd] s t ∧ Moves s t ∧
      preparedAt s (s.core.nowAddr + off.signExtend 48 * 4) (s.core.steer sd) (t.core.steer sd)) ∧
  (∀ (s : State) (sd : Fin 16) (a : Fin 32), sd.val < 12 → ctlGoes s [a] = true →
    ∃ x ∈ s.core.mayRead a,
      (x.toNat % 4 = 0 → ∃ t, exec (.prepr sd a) s = .next t ∧ CtlFrame [] [sd] s t ∧ Moves s t ∧
        preparedAt s (x.truncate 48) (s.core.steer sd) (t.core.steer sd)) ∧
      (x.toNat % 4 ≠ 0 → exec (.prepr sd a) s
        = .next (takeTrap (access 0x03 (.prepr sd a) 3 (x.truncate 48) 0) s).pass))

/-- R40, R41: a branch issues once its target's fetch delay has passed. Taken, it replaces the address
of the third word after it; the two words in its delay slots still come, and its null field turns
them into words without effect. BL writes the address 12 bytes on to g31. -/
def Obligations.BranchRedirects : Prop :=
  ∀ (s : State) (i : Instr) (r : Fin 16) (null : NullMode) (f : Bool → Bool) (link : Bool),
    branchForm i = some (r, null, f, link) → ctlGoes s [] = true → plainStream s = true →
    fetchWaits s.core (s.core.steer r) = false →
    let x := s.core.steer r
    let taken := f x.cond
    let fires := (null = .nt ∧ taken = false) ∨ (null = .tk ∧ taken = true)
    (taken = true → x.valid = true ∧ x.held = false ∧ (s.core.fetch (targetAddr x.target)).isSome) →
    ∃ t, exec i s = .next t ∧ CtlFrame (if link then [31] else []) [] s t ∧
      t.core.tick = s.core.tick + 1 ∧
      (link = true → t.core.g 31 = (s.core.nowAddr + 12).zeroExtend 64) ∧
      t.core.ctl.pcq.q0.addr = s.core.ctl.pcq.q1.addr ∧
      t.core.ctl.pcq.q1.addr = s.core.ctl.pcq.q2.addr ∧
      t.core.ctl.pcq.q2.addr = (if taken then targetAddr x.target
        else s.core.ctl.pcq.q2.addr + s.core.stepOf s.core.ctl.pcq.q2.addr) ∧
      t.core.ctl.pcq.q0.nul = (s.core.ctl.pcq.q1.nul || decide fires) ∧
      t.core.ctl.pcq.q1.nul = (s.core.ctl.pcq.q2.nul || decide fires)

/-- R40: a branch waits for its target's fetch; a taken branch through a register with VALID 0 traps
with 0x01, REASON 0x0B, and one whose target cannot be fetched with 0x04, ACC 3. -/
def Obligations.BranchWaitsOrTraps : Prop :=
  ∀ (s : State) (i : Instr) (r : Fin 16) (null : NullMode) (f : Bool → Bool) (link : Bool),
    branchForm i = some (r, null, f, link) → ctlGoes s [] = true →
    let x := s.core.steer r
    (fetchWaits s.core x = true → waits i s) ∧
    (fetchWaits s.core x = false → f x.cond = true → x.valid = false →
      exec i s = .next (takeTrap (illegal i 0x0B s.core.nowAddr 0) s).pass) ∧
    (fetchWaits s.core x = false → f x.cond = true → x.valid = true →
      (x.held = true ∨ s.core.fetch (targetAddr x.target) = none) →
      exec i s = .next (takeTrap (access 0x04 i 3 (targetAddr x.target) 0)
        (s.setSteer r fun y => { y with held := false })).pass)

/-! ### Memory words -/

/-- R80, R44: a load returns the little-endian bytes of its element, sign- or zero-extended; a load
outside the core's own bench is awaited by the next word.
R83, R392: LDL reads the 8 bytes of the code image at a multiple of 8; elsewhere it traps. -/
def Obligations.LoadResults : Prop :=
  (∀ (s : State) (i : Instr) (d a : Fin 32) (imm : BitVec 9) (n : Nat) (sg : Bool) (sp : Space) (off : Nat),
     loadForm i = some (d, a, imm, n, sg) → ctlCalm s [a] = true →
     ctlAccess i .read (effAddr s a imm n) n s = .ok (sp, off) → (s.mem sp).wf = true →
     let v := leValue (s.mem sp) off n
     ∃ t, exec i s = .next t ∧ CtlFrame [d] [] s t ∧ Moves s t ∧
       t.core.g d = (if d = 0 then 0
         else if sg then (BitVec.ofNat (8 * n) v).signExtend 64 else BitVec.ofNat 64 v) ∧
       (sp ≠ .bench s.core.id.num → t.core.ctl.awaiting = true)) ∧
  (∀ (s : State) (d : Fin 32) (imm : BitVec 18), ctlGoes s [] = true →
     let a := s.core.nowAddr + imm.signExtend 48 * 4
     (a.toNat % 8 ≠ 0 → exec (.ldl d imm) s = .next (takeTrap (access 0x03 (.ldl d imm) 3 a 0) s).pass) ∧
     (a.toNat % 8 = 0 → s.storeBad a 8 = false → (s.core.fetch a = none ∨ s.core.fetch (a + 4) = none) →
       exec (.ldl d imm) s = .next (takeTrap (access 0x04 (.ldl d imm) 3 a 0) s).pass) ∧
     (∀ lo hi : Word, a.toNat % 8 = 0 → s.storeBad a 8 = false → s.core.fetch a = some lo → s.core.fetch (a + 4) = some hi →
       ∃ t, exec (.ldl d imm) s = .next t ∧ CtlFrame [d] [] s t ∧ Moves s t ∧
         t.core.g d = if d = 0 then 0 else hi ++ lo))

/-- R80: a store writes the low bytes of its register at the address it computes, the lowest first, and
nothing else. -/
def Obligations.StoreResults : Prop :=
  ∀ (s : State) (i : Instr) (d a : Fin 32) (imm : BitVec 9) (n : Nat) (sp : Space) (off : Nat),
    storeForm i = some (d, a, imm, n) → ctlCalm s [a, d] = true →
    ctlAccess i .write (effAddr s a imm n) n s = .ok (sp, off) →
    ∃ t, exec i s = .next t ∧ CtlKeep [] [] s t ∧ Moves s t ∧ t.core.q = s.core.q ∧
      t.core.vis.plain = s.core.vis.plain ∧ MemBut sp off n s t ∧
      ∀ j, j < n → (t.mem sp).read (off + j) = (s.core.g d).extractLsb' (8 * j) 8

/-- R84, R86: an atomic returns the sign-extended old element and leaves the new one, in one act. A peer's
bench is that of a core the machine has: it has all 128 (StepKeepsInvariant). -/
def Obligations.AtomicResults : Prop :=
  ∀ (s : State) (d a b : Fin 32) (fn : AtomFn) (o : AtomOrd) (sc : Scope) (sp : Space) (off : Nat),
    ctlCalm s [a, b, d] = true → (s.mem sp).wf = true → s.hasHome sp = true →
    (ctlAccess (.amow d a b fn o sc) .atomic (s.core.g a) 4 s = .ok (sp, off) →
      ∃ t, exec (.amow d a b fn o sc) s = .next t ∧ CtlKeep [d] [] s t ∧ Moves s t ∧ MemBut sp off 4 s t ∧
        t.core.vis.plain = s.core.vis.plain ∧ t.core.q = s.core.q ∧
        let old := BitVec.ofNat 32 (leValue (s.mem sp) off 4)
        t.core.g d = (if d = 0 then 0 else old.signExtend 64) ∧
        leValue (t.mem sp) off 4
          = (atomResult fn old ((s.core.g b).truncate 32) ((s.core.g d).truncate 32)).toNat) ∧
    (ctlAccess (.amod d a b fn o sc) .atomic (s.core.g a) 8 s = .ok (sp, off) →
      ∃ t, exec (.amod d a b fn o sc) s = .next t ∧ CtlKeep [d] [] s t ∧ Moves s t ∧ MemBut sp off 8 s t ∧
        t.core.vis.plain = s.core.vis.plain ∧ t.core.q = s.core.q ∧
        let old := BitVec.ofNat 64 (leValue (s.mem sp) off 8)
        t.core.g d = (if d = 0 then 0 else old) ∧
        leValue (t.mem sp) off 8 = (atomResult fn old (s.core.g b) (s.core.g d)).toNat)

/-- R80, R85, R360: a control access with a bit above 47 traps with 0x04, else one that is not a multiple
of its size with 0x03, else one that no window or space allows with that cause; EINFO names the
access and EADDR its address. Which of the two address faults is taken first is the model's choice (log 72). One
translated to HBM that R363 says does not exist ends in the fault, after the traps, which is the model's choice
(log 13). -/
def Obligations.AccessTraps : Prop :=
  ∀ (s : State) (i : Instr) (k : Acc) (ea : DWord) (n : Nat) (rs : List (Fin 32)),
    accessForm s i = some (k, ea, n, rs) → ctlCalm s rs = true →
    let traps := fun c : Nat => exec i s = .next (takeTrap (access c i k.num (ea.truncate 48) 0) s).pass
    (2 ^ 48 ≤ ea.toNat → traps 0x04) ∧
    (ea.toNat < 2 ^ 48 → ea.toNat % n ≠ 0 → traps 0x03) ∧
    (∀ c, ea.toNat < 2 ^ 48 → ea.toNat % n = 0 → locate s .control k ea.toNat = .error (.trap c) →
      traps c) ∧
    (∀ pa, ea.toNat < 2 ^ 48 → ea.toNat % n = 0 → locate s .control k ea.toNat = .error (.gone pa) →
      exec i s = .fault (.noSuchHbm pa))

/-- R41, R51, R83, R96, R109, R114: words whose effect is to let the stream go on: NOP, LPOOL, FENCE,
TWAIT once its gang tick has come, WAITQ once the engines it names are done. That FENCE has nothing to wait for is
the model's choice (log 2).
R92, R96, R102, R109: words that wait leave everything as it stands: TWAIT before its gang tick,
WAITQ while an engine it names has words, QPOP of an empty queue, QPUSH to a full one. -/
def Obligations.WordsThatOnlyLetTimePass : Prop :=
  (∀ (s : State),
     (∀ x, ctlGoes s [] = true → onlyIssues (.nop x) s) ∧
     (∀ imm, ctlGoes s [] = true → onlyIssues (.lpool imm) s) ∧
     (∀ sc k m, ctlGoes s [] = true → onlyIssues (.fence sc k m) s) ∧
     (∀ a : Fin 32, ctlCalm s [a] = true → noHook s = true →
       (s.core.g a).toNat ≤ s.core.gtick → onlyIssues (.twait a) s) ∧
     (∀ m : BitVec 5, ctlGoes s [] = true →
       (∀ e, m.getLsbD (engNum e - 1) = true → s.core.engIdle e = true) → onlyIssues (.waitq m) s)) ∧
  (∀ (s : State),
     (∀ a : Fin 32, ctlCalm s [a] = true → noHook s = true →
       s.core.gtick < (s.core.g a).toNat → waits (.twait a) s) ∧
     (∀ (m : BitVec 5) (e : Engine), ctlGoes s [] = true → m.getLsbD (engNum e - 1) = true →
       s.core.engIdle e = false → waits (.waitq m) s) ∧
     (∀ (d : Fin 32) (q : PopQ), ctlGoes s [] = true → s.core.q.entries q = [] → waits (.qpop d q) s) ∧
     (∀ a : Fin 32, ctlGoes s [a] = true → 16 ≤ s.core.q.xq.length → waits (.qpush a .xq) s) ∧
     (∀ a : Fin 32, ctlGoes s [a] = true → 16 ≤ s.core.q.mboxOut.length → waits (.qpush a .mbox) s))

/-! ### Special registers -/

/-- R87, R89: MFS returns the register's value, zero-extended to 64 bits; one that engines write is read
once the engines it waits for are done, and MFS waits until then. That a read of HEAPK waits too is the model's
choice (log 26), and so is that a waiting MFS has not issued (log 27).
R37, R38: a number that is not assigned traps with 0x01, REASON 0x0C; one that the bank may not
read or write traps with 0x02. -/
def Obligations.SpecialReadsAndRights : Prop :=
  (∀ (s : State) (d : Fin 32) (sr : BitVec 12), ctlGoes s [] = true →
     srAssigned sr.toNat = true → srMayRead s.core.ctl.bank1 sr.toNat = true →
     ((∀ e ∈ srWaits sr.toNat, s.core.engIdle e = true) →
       ∃ t, exec (.mfs d sr) s = .next t ∧ CtlFrame [d] [] s t ∧ Moves s t ∧
         t.core.g d = if d = 0 then 0 else s.readSR sr.toNat) ∧
     ((∃ e ∈ srWaits sr.toNat, s.core.engIdle e = false) → waits (.mfs d sr) s)) ∧
  (∀ (s : State) (d : Fin 32) (i : Instr) (sr : BitVec 12) (x : DWord) (rs : List (Fin 32)),
     mtsForm s i = some (sr, x, rs) → ctlCalm s rs = true →
     (srAssigned sr.toNat = false →
       exec (.mfs d sr) s = .next (takeTrap (illegal (.mfs d sr) 0x0C s.core.nowAddr 0) s).pass ∧
       exec i s = .next (takeTrap (illegal i 0x0C s.core.nowAddr 0) s).pass) ∧
     (srAssigned sr.toNat = true → s.core.ctl.bank1 = false → 0x020 ≤ sr.toNat → sr.toNat ≤ 0x028 →
       exec (.mfs d sr) s = .next (takeTrap (access 0x02 (.mfs d sr) 0 0 0) s).pass) ∧
     (srAssigned sr.toNat = true → srMayWrite s.core.ctl.bank1 sr.toNat = false →
       exec i s = .next (takeTrap (access 0x02 i 1 0 0) s).pass))

/-- R87, R37, R38: a write reaches each defined field of the register from the same bits of the value,
and no other special register; MTS, MTSI and MTSR, which all complete, differ in where the value comes from.
R161: a bank-1 write of DQCOUNT leaves COUNT entries; which they are is the model's choice (log 69).
R361, R369, R371: a write of ESTAT that leaves HOOK as it is writes HOOK and WPSKIP alone; one that sets HOOK
empties the engine queues, the operand queues and the token FIFOs; one that clears it waits until the words
of the hook have completed, and then puts back what they were. What a write that sets HOOK keeps, and what one that
clears it puts back, is the model's choice (log 14). -/
def Obligations.SpecialWrite : Prop :=
  ∀ (s : State) (i : Instr) (sr : BitVec 12) (x : DWord) (rs : List (Fin 32)),
    mtsForm s i = some (sr, x, rs) → ctlCalm s rs = true → s.core.slips = false →
    srAssigned sr.toNat = true → srMayWrite s.core.ctl.bank1 sr.toNat = true →
    let m := srMask s.core.ctl.bank1 sr.toNat
    let writes (eff : State → Prop) : Prop := ∃ t, exec i s = .next t ∧ Moves s t ∧ MemSame s t ∧
      t.others = s.others ∧ RegSame [] [] s t ∧ eff t
    let sets (t : State) : Prop := t.readSR sr.toNat = (x &&& m) ||| (s.readSR sr.toNat &&& ~~~m) ∧
      ∀ k, srAssigned k = true → k ≠ sr.toNat → k ≠ 0x008 → k ≠ 0x009 → t.readSR k = s.readSR k
    (sr ≠ 0x028 → sr ≠ 0x312 → (∀ e, srQueue sr.toNat = some e → (s.core.eng e).queue = []) →
      writes fun t => t.core.q = s.core.q ∧ sets t) ∧
    (sr = 0x312 → s.core.vector.queue = [] → s.core.q.dq.length ≤ 4096 → writes fun t => t.core.q = { s.core.q with dq := t.core.q.dq } ∧
      t.core.q.dq.length = min (x.toNat % 2 ^ 13) 4096 ∧
      t.core.q.dq.take s.core.q.dq.length = s.core.q.dq.take (x.toNat % 2 ^ 13)) ∧
    (sr = 0x028 →
      (s.core.ctl.regs.hook = x.getLsbD 4 → writes fun t => t.core.q = s.core.q ∧ sets t ∧ UnitSame s t) ∧
      (s.core.ctl.regs.hook = false → x.getLsbD 4 = true → writes fun t =>
        t.core.ctl.regs.hook = true ∧ (∀ e, (t.core.eng e).queue = []) ∧ (∀ k : Fin 8, t.core.tok[k] = 0) ∧
        t.core.q = { s.core.q with
          vq := .replicate 4 [], wq := [], mq := [], xq := [], rq0 := [], rq1 := [] } ∧
        ∃ h, t.core.hook = some h ∧ h.b0 = s.core.ctl.b0 ∧ h.q = s.core.q ∧ h.tok = s.core.tok ∧
          h.vis = s.core.vis ∧ h.sd = s.core.sd ∧ h.queues.toList = [s.core.load.queue, s.core.matrix.queue,
            s.core.vector.queue, s.core.copy.queue, s.core.stream.queue]) ∧
      (s.core.ctl.regs.hook = true → x.getLsbD 4 = false →
        (s.core.hookDone = false → waits i s) ∧
        (∀ h, s.core.hookDone = true → s.core.hook = some h → ∃ t, exec i s = .next t ∧ Moves s t ∧
          MemSame s t ∧ t.core.ctl.regs.hook = false ∧ t.core.ctl.b0 = h.b0 ∧ t.core.ctl.b1 = s.core.ctl.b1 ∧
          t.core.vis = h.vis ∧ t.core.tok = h.tok ∧ t.core.sd = h.sd ∧ t.core.q = { h.q with
            mboxOut := s.core.q.mboxOut, mboxIn := s.core.q.mboxIn, mboxDrop := s.core.q.mboxDrop } ∧
          t.core.ctl.regs.epc0 = h.regs.epc0 ∧ t.core.ctl.regs.epc1 = h.regs.epc1 ∧
          t.core.ctl.regs.epc2 = h.regs.epc2 ∧ t.core.ctl.regs.enul = h.regs.enul ∧
          t.core.mx.tiles = s.core.mx.tiles ∧ t.core.mx.acc = s.core.mx.acc ∧
          t.core.vec.v = s.core.vec.v ∧ t.core.vec.p = s.core.vec.p)))

/-- R88, R117: a write of a register that an engine keeps in its queue's order (EPCOLBASE, MFLAGS, VFLAGS, and
in bank 1 HEAPK, RRB and DQCOUNT) behind words of that engine waits in its queue, where no read sees it, and
takes effect when the word before it issues.
R87, R90: MTSI, which writes its sign-extended immediate, and MTSR complete as MTS does. -/
def Obligations.QueuedRegisterWrite : Prop :=
  (∀ (s : State) (a : Fin 32) (sr : BitVec 12) (e : Engine), ctlCalm s [a] = true →
    srQueue sr.toNat = some e → (s.core.eng e).queue ≠ [] → s.core.slips = false →
    srMayWrite s.core.ctl.bank1 sr.toNat = true →
    let queues (i : Instr) (v : DWord) : Prop :=
      ∃ t, exec i s = .next t ∧ RegSame [] [] s t ∧ Moves s t ∧ MemSame s t ∧ t.core.q = s.core.q ∧
        (t.core.eng e).queue = (s.core.eng e).queue ++ [.reg sr v] ∧
        ∀ k, k ≠ 0x008 → k ≠ 0x009 → t.readSR k = s.readSR k
    queues (.mts a sr) (s.core.g a) ∧ (∀ imm, queues (.mtsi sr imm) (imm.signExtend 64)) ∧
      ∀ k, queues (.mtsr k a sr) (s.core.g a)) ∧
  (∀ (s : State) (a : Fin 32) (sr : BitVec 12) (imm : BitVec 11) (k : Fin 16), ctlCalm s [a] = true →
    srAssigned sr.toNat = true → srQueue sr.toNat = none → sr ≠ 0x028 →
    srMayWrite s.core.ctl.bank1 sr.toNat = true →
    (∃ t, exec (.mtsi sr imm) s = .next t ∧ Moves s t ∧ MemSame s t ∧ RegSame [] [] s t) ∧
    ∃ t, exec (.mtsr k a sr) s = .next t ∧ Moves s t ∧ MemSame s t ∧ RegSame [] [] s t) ∧
  (∀ (s : State) (tk : Tok) (x : Entry) (sr : BitVec 12) (v : DWord),
    (sr = 0x300 ∨ sr = 0x302) → s.core.matrix.queue = [.word x, .reg sr v] →
    engReady .matrix tk x s = true →
    ∃ t, exec (.mnop tk) s = .next t ∧ t.core.matrix.queue = [] ∧
      t.readSR sr.toNat = v &&& srMask true sr.toNat) ∧
  (∀ (s : State) (tk : Tok) (x : Entry) (v : DWord),
    s.core.vector.queue = [.word x, .reg 0x310 v] → engReady .vector tk x s = true →
    ∃ t, exec (.vnop tk) s = .next t ∧ t.core.vector.queue = [] ∧
      t.readSR 0x310 = v &&& srMask true 0x310)

/-! ### Queues of the control core -/

/-- R91, R92, R382, R386: QPUSH appends to xq or the outbound mailbox; the first entry of an empty mailbox
raises the tenant's message 4t + 3, sent or, with its vector masked, pending: that a masked message is made pending is
the model's choice (log 70).
R91, R92: QPOP removes the oldest entry, zero-extended; QCNT counts the entries. Both are
interlocked. -/
def Obligations.QueueWords : Prop :=
  (∀ (s : State) (a : Fin 32), ctlGoes s [a] = true →
     (s.core.q.xq.length < 16 → ∃ x ∈ s.core.mayRead a, ∃ t, exec (.qpush a .xq) s = .next t ∧
       CtlKeep [] [] s t ∧ Moves s t ∧ MemSame s t ∧ t.core.vis = s.core.vis ∧
       (s.core.jig.recording = none → t.sys = s.sys) ∧ t.core.q = { s.core.q with
         xq := s.core.q.xq ++ [{ value := x, pushed := s.core.tick, copy := x, matched := false }] }) ∧
     (s.core.q.mboxOut.length < 16 → ∃ x ∈ s.core.mayRead a, ∃ t, exec (.qpush a .mbox) s = .next t ∧
       CtlKeep [] [] s t ∧ Moves s t ∧ MemSame s t ∧ t.core.vis.plain = s.core.vis.plain ∧
       t.core.q = { s.core.q with mboxOut := s.core.q.mboxOut ++ [x] } ∧
       let n := s.core.ctl.regs.tenant
       let first := s.core.q.mboxOut.isEmpty
       let masked := (vget s.sys.msix (4 * n.val + 3) {}).masked
       t.sys.tenants[n].msix = s.sys.tenants[n].msix ++ (if first && !masked then [4 * n.val + 3] else []) ∧
       ∀ k : Fin 64, t.sys.pba.getLsbD k.val = (s.sys.pba.getLsbD k.val
         || (first && masked && decide (k.val = 4 * n.val + 3))))) ∧
  (∀ (s : State) (d : Fin 32) (q : PopQ), ctlGoes s [] = true →
     (∀ x rest, s.core.q.entries q = x :: rest → ∃ t, exec (.qpop d q) s = .next t ∧
       CtlKeep [d] [] s t ∧ Moves s t ∧ MemSame s t ∧ t.sys = s.sys ∧ t.core.vis.plain = s.core.vis.plain ∧
       t.core.g d = (if d = 0 then 0 else x) ∧ t.core.ctl.awaiting = true ∧
       t.core.q.entries q = rest ∧ ∀ q', q' ≠ q → t.core.q.entries q' = s.core.q.entries q') ∧
     ∃ t, exec (.qcnt d q) s = .next t ∧ CtlFrame [d] [] s t ∧ Moves s t ∧ t.core.ctl.awaiting = true ∧
       t.core.g d = if d = 0 then 0 else BitVec.ofNat 64 (s.core.q.entries q).length)

/-- R102, R103: the priority queue. PQPUSH adds its pair and keeps the order, the largest key first and
of equal keys the smallest payload; PQPOP takes the first pair, PQTOP leaves it, PQCLR empties the
queue, PQCNT counts it; the 257th pair traps with 0x19. An empty queue gives the least key and all ones. -/
def Obligations.PriorityQueue : Prop :=
  ∀ (s : State) (d a b : Fin 32), s.core.q.pq.Pairwise (fun x y => pqBefore x y = true) →
    ctlCalm s [a, b] = true →
    (s.core.q.pq.length < 256 → ∃ t, exec (.pqpush a b) s = .next t ∧ CtlKeep [] [] s t ∧ Moves s t ∧ MemSame s t ∧
      t.core.q.pq.Pairwise (fun x y => pqBefore x y = true) ∧
      t.core.q.pq.Perm ((s.core.g a, s.core.g b) :: s.core.q.pq)) ∧
    (256 ≤ s.core.q.pq.length →
      exec (.pqpush a b) s = .next (takeTrap { cause := 0x19, addr := s.core.nowAddr } s).pass) ∧
    (let top := s.core.q.pq.headD (0x8000000000000000, 0xFFFFFFFFFFFFFFFF)
     (∃ t, exec (.pqpop d b) s = .next t ∧ CtlKeep [d, b] [] s t ∧ Moves s t ∧ MemSame s t ∧
      t.core.q = { s.core.q with pq := s.core.q.pq.tail } ∧
      t.core.g b = (if b = 0 then 0 else top.2) ∧
      (d ≠ b → t.core.g d = if d = 0 then 0 else top.1)) ∧
     ∃ t, exec (.pqtop d b) s = .next t ∧ CtlFrame [d, b] [] s t ∧ Moves s t ∧
      t.core.g b = (if b = 0 then 0 else top.2) ∧
      (d ≠ b → t.core.g d = if d = 0 then 0 else top.1)) ∧
    (∃ t, exec .pqclr s = .next t ∧ CtlKeep [] [] s t ∧ Moves s t ∧ MemSame s t ∧
      t.core.q = { s.core.q with pq := [] }) ∧
    ∃ t, exec (.pqcnt d) s = .next t ∧ CtlFrame [d] [] s t ∧ Moves s t ∧
      t.core.g d = if d = 0 then 0 else BitVec.ofNat 64 s.core.q.pq.length

/-! ### Synchronisation -/

/-- R93, R94, R290: a gang of one passes BAR at once, and PLUMB with GTICK 64 on from where it held it;
PLUMB clears SLIP and keeps the mark; a mark not above the last traps with 0x01, REASON 0x03.
R93, R94: in a larger gang the core arrives at BAR or PLUMB and waits; at PLUMB its GTICK stands. A barrier
that has been released is passed on the gang tick of the release and not before it, a mark that has been
released with the release value. -/
def Obligations.BarAndPlumb : Prop :=
  ∀ (s : State) (id : Fin 16) (m : BitVec 16), ctlGoes s [] = true → noHook s = true →
    let passes (i : Instr) (eff : State → Prop) : Prop := ∃ t, exec i s = .next t ∧ CtlKeep [] [] s t ∧
      Moves s t ∧ MemSame s t ∧ t.core.q = s.core.q ∧ t.core.vis.plain = s.core.vis.plain ∧
      t.core.ctl.arrival = none ∧ eff t
    let clears (t : State) : Prop := s.core.slips = false → t.core.stall.slip = 0
    let stands (i : Instr) (a : Arrival) : Prop := ∃ t, exec i s = .next t ∧ RegSame [] [] s t ∧
      MemSame s t ∧ t.core.q = s.core.q ∧ t.core.vis = s.core.vis ∧ t.core.ctl.arrival = some a ∧
      t.core.ctl.pcq = s.core.ctl.pcq ∧ t.core.tick = s.core.tick + 1
    (∀ (k : Fin 16) (g : Nat), s.core.ctl.arrival = some (.bar k (some g)) →
      (s.core.reached g = true → passes (.bar id) fun _ => True) ∧
      (s.core.reached g = false → waits (.bar id) s)) ∧
    ((∀ (k : Fin 16) (g : Nat), s.core.ctl.arrival ≠ some (.bar k (some g))) →
      (s.gangOthers = [] → passes (.bar id) fun _ => True) ∧
      (s.gangOthers ≠ [] → stands (.bar id) (.bar id none))) ∧
    (∀ (k : BitVec 16) (h v : Nat), s.core.ctl.arrival = some (.plumb k h (some v)) →
      passes (.plumb m) fun t => t.core.gtick = v ∧ clears t ∧ t.core.ctl.lastMark = some m) ∧
    ((∀ (k : BitVec 16) (h v : Nat), s.core.ctl.arrival ≠ some (.plumb k h (some v))) →
      ((∀ l, s.core.ctl.lastMark = some l → l < m) →
        (s.gangOthers = [] → passes (.plumb m) fun t => t.core.gtick = s.core.heldTick + 64 ∧
          clears t ∧ t.core.ctl.lastMark = some m) ∧
        (s.gangOthers ≠ [] → stands (.plumb m) (.plumb m s.core.heldTick none) ∧
          ∃ t, exec (.plumb m) s = .next t ∧ t.core.gtick = s.core.gtick)) ∧
      (∀ l, s.core.ctl.lastMark = some l → m ≤ l →
        exec (.plumb m) s = .next (takeTrap (illegal (.plumb m) 0x03 s.core.nowAddr 0) s).pass))

/-- R97, R343, R344: SIGEV marks the tenant's event signalled and changes no other event; WAITEV goes on
when its event is signalled, or when a signalling has met its wait, clearing nothing, and waits otherwise. -/
def Obligations.EventWords : Prop :=
  ∀ (s : State) (e : EvOp), ctlCalm s (evReads e) = true →
    let n := s.core.ctl.regs.tenant
    let ev := eventOf s e
    (∃ t, exec (.sigev e) s = .next t ∧ CtlKeep [] [] s t ∧ Moves s t ∧ MemSame s t ∧
      t.core.q = s.core.q ∧ t.core.vis.plain = s.core.vis.plain ∧
      (∀ k, t.sys.tenants[n].signalled k = (s.sys.tenants[n].signalled k || decide (k = ev))) ∧
      ∀ m : Fin 16, m ≠ n → t.sys.tenants[m] = s.sys.tenants[m]) ∧
    (s.sys.tenants[n].signalled ev = true ∨ s.core.ctl.arrival = some (.waitev ev true) →
      ∃ t, exec (.waitev e) s = .next t ∧ CtlKeep [] [] s t ∧ Moves s t ∧ MemSame s t ∧
        t.core.q = s.core.q ∧ t.core.vis.plain = s.core.vis.plain ∧
        t.sys.tenants = s.sys.tenants ∧ t.core.ctl.arrival = none) ∧
    (s.sys.tenants[n].signalled ev = false → s.core.ctl.arrival ≠ some (.waitev ev true) →
      ∃ t, exec (.waitev e) s = .next t ∧ CtlFrame [] [] s t ∧ t.core.ctl.pcq = s.core.ctl.pcq ∧
        t.core.ctl.arrival = some (.waitev ev false) ∧ t.core.tick = s.core.tick + 1)

/-- R98, R374, R375: PHSW of a pair with halves in the bench, once the engines are done and nothing is
held for it, exchanges the halves: what the program reached at an offset of the lower half it now
reaches in the upper, and back; a pair of length 0 traps with 0x01, REASON 0x03. -/
def Obligations.PhaseSwitch : Prop :=
  ∀ (s : State) (p : Fin 8), ctlGoes s [] = true →
    let x := s.core.vis.ph[p]
    (x.len = 0 → exec (.phsw p) s = .next (takeTrap (illegal (.phsw p) 0x03 s.core.nowAddr 0) s).pass) ∧
    (x.len ≠ 0 → x.base.toNat * 64 + 128 * x.len.toNat ≤ benchSize → s.core.commitReady = true →
      s.core.cp.hold = [] → s.core.ctl.regs.retried = false →
      ∃ t, exec (.phsw p) s = .next t ∧ RegSame [] [] s t ∧ Moves s t ∧ MemSame s t ∧
        t.core.vis.ph[p].cur = !x.cur ∧ t.core.vis.ph[p].irrev = false ∧
        (∀ k, k ≠ p → t.core.vis.ph[k].cur = s.core.vis.ph[k].cur) ∧
        t.core.phase.snap.isSome = true ∧ t.core.phase.popped = [] ∧
        ((∀ k, k ≠ p → s.core.vis.ph[k].len = 0) → ∀ off, x.base.toNat * 64 ≤ off →
          off < x.base.toNat * 64 + x.len.toNat * 64 →
          phaseMap t.core.vis off = if x.cur then off else off + x.len.toNat * 64))

/-! ### The jig -/

/-- R99, R100, R101, R304, R306, R307: the jig words. JIG.REC empties its jig, gives it its key and records
into it, or traps with 0x14 while a recording runs; JIG.END writes the status and leaves the jig
valid or invalid; JIG.DROP empties a jig; JIG.PLAY of a jig it refuses writes 0, emptying one whose
entries it finds bad, of one it accepts starts its replay, goes on with a replay that a trap stopped, and
while a recording runs traps; an uncorrectable error that its reads for the stops meet is consumed (R303, R379), and
a pending line that one meets with SHADOW set traps with 0x08 (R303, R373).
That a replay of a handler takes the place of a stopped one is the model's choice (log 84). -/
def Obligations.JigWords : Prop :=
  ∀ (s : State) (d : Fin 32) (j : Fin 4), ctlGoes s [] = true → noHook s = true →
    let kept (gs : List (Fin 32)) (t : State) : Prop := RegSame gs [] s t ∧ UnitSame s t ∧ MemSame s t ∧
      t.core.q = s.core.q ∧ t.core.vis.plain = s.core.vis.plain ∧ t.others = s.others
    (s.isRecording = false → ∃ t, exec (.jigRec j) s = .next t ∧ kept [] t ∧ Moves s t ∧
      t.core.jig.jig[j] = { state := .recording, entries := [], key := jigKey s } ∧
      t.core.jig.recording = some { jig := j, since := s.core.gtick } ∧
      ∀ k, k ≠ j → t.core.jig.jig[k] = s.core.jig.jig[k]) ∧
    (s.isRecording = true →
      exec (.jigRec j) s = .next (takeTrap { cause := 0x14, info := 1, addr := s.core.nowAddr } s).pass ∧
      exec (.jigPlay d j) s
        = .next (takeTrap { cause := 0x14, info := 2, addr := s.core.ctl.pcq.q0.addr } s).pass) ∧
    (∃ t, exec (.jigEnd d) s = .next t ∧ kept [d] t ∧ Moves s t ∧ t.core.jig.recording = none ∧
      let status := match s.core.jig.recording with
        | none => 3
        | some r => if r.unrep then 1 else if r.full then 2 else 0
      t.core.g d = (if d = 0 then 0 else status) ∧
      (∀ r, s.core.jig.recording = some r → t.core.jig.jig[r.jig] = { s.core.jig.jig[r.jig] with
        state := if status = (0 : DWord) then .valid else .invalid }) ∧
      ∀ k, s.core.jig.recording.map (·.jig) ≠ some k → t.core.jig.jig[k] = s.core.jig.jig[k]) ∧
    (∃ t, exec (.jigDrop j) s = .next t ∧ kept [] t ∧ Moves s t ∧
      t.core.jig.jig[j] = {} ∧ (∀ k, k ≠ j → t.core.jig.jig[k] = s.core.jig.jig[k]) ∧
      ∀ r, t.core.jig.recording = some r → r.jig ≠ j) ∧
    (s.isRecording = false →
      let a := s.core.ctl.pcq.q0.addr
      (∀ p, s.savedPlay a d j = some p → ∃ t, exec (.jigPlay d j) s = .next t ∧ kept [] t ∧
        t.core.ctl.pcq = s.core.ctl.pcq ∧ t.core.jig.play = some { p with live := true }) ∧
      (s.savedPlay a d j = none → jigOwn s j = true → jigBad s j = true →
        ∃ t, exec (.jigPlay d j) s = .next t ∧ kept [d] t ∧ Moves s t ∧
          t.core.g d = 0 ∧ t.core.jig.jig[j] = {}) ∧
      (∀ e, s.savedPlay a d j = none → jigBad s j = false → jigStopError s j = some e → s.core.canRetry = true →
        ∃ t, exec (.jigPlay d j) s = .next t ∧ RegSame [] [] s t ∧ MemSame s t ∧
          t.core.ctl.pcq = s.core.ctl.pcq ∧ t.core.jig = s.core.jig ∧ t.core.phase.rollback = true) ∧
      (∀ c, s.savedPlay a d j = none → jigBad s j = false → jigStopError s j = none →
        jigStopPending s j = some c → c.cause = 0x08 ∧ exec (.jigPlay d j) s = .next (takeTrap c s).pass) ∧
      (s.savedPlay a d j = none → (jigOwn s j = false ∨ jigBad s j = false) → jigStopError s j = none →
        jigStopPending s j = none → jigOk s j = false →
        ∃ t, exec (.jigPlay d j) s = .next t ∧ kept [d] t ∧ Moves s t ∧ t.core.g d = 0 ∧
          t.core.jig.jig = s.core.jig.jig) ∧
      (s.savedPlay a d j = none → jigBad s j = false → jigStopError s j = none → jigStopPending s j = none →
        jigOk s j = true →
        ∃ t, exec (.jigPlay d j) s = .next t ∧ kept [] t ∧ t.core.ctl.pcq = s.core.ctl.pcq ∧
          t.core.jig.play = some { jig := j, addr := a, d := d, next := 0, since := s.core.gtick }))

/-- R99, R101, R302: JIG.STOP adds a stop of the address and value in its registers to the jig that is
recording, with room in the store; while none is it does nothing; a misaligned address traps.
R115, R300, R304: what a recording notes. A push to xq of an untainted register adds an entry of
kind 7 with the value, its DELTA the gang ticks since the entry before; a push of a tainted register
makes the recording unreplayable. -/
def Obligations.RecordingNotes : Prop :=
  (∀ (s : State) (a b : Fin 32), ctlCalm s [a, b] = true → noHook s = true →
     (s.recordingOn = none → (s.isRecording = true → (s.core.g a).toNat % 8 = 0) →
       onlyIssues (.jigStop a b) s) ∧
     (s.isRecording = true → (s.core.g a).toNat % 8 ≠ 0 → exec (.jigStop a b) s
       = .next (takeTrap (access 0x03 (.jigStop a b) 0 ((s.core.g a).truncate 48) 0) s).pass) ∧
     (∀ r, s.recordingOn = some r → r.differs = false → (s.core.g a).toNat % 8 = 0 →
       s.core.jig.used < 16384 →
       ∃ t, exec (.jigStop a b) s = .next t ∧ RegSame [] [] s t ∧ Moves s t ∧ MemSame s t ∧
         t.core.q = s.core.q ∧
         t.core.jig.jig[r.jig].entries = s.core.jig.jig[r.jig].entries
           ++ [s.core.g b ++ ((s.core.g a).truncate 48 : BitVec 48) ++ (4 : BitVec 16)] ∧
         ∀ k, k ≠ r.jig → t.core.jig.jig[k] = s.core.jig.jig[k])) ∧
  (∀ (s : State) (a : Fin 32) (r : Recording), ctlCalm s [a] = true → s.recordingOn = some r →
     r.differs = false → s.core.q.xq.length < 16 → s.core.jig.used < 16384 →
     r.since ≤ s.core.gtick → s.core.gtick - r.since < 65536 →
     ∃ t, exec (.qpush a .xq) s = .next t ∧
       t.core.jig.jig[r.jig].entries = s.core.jig.jig[r.jig].entries
         ++ [s.core.g a ++ (0 : BitVec 44)
           ++ BitVec.ofNat 16 (s.core.gtick - r.since) ++ (7 : BitVec 4)] ∧
       (t.core.jig.recording.map (·.unrep)) = some (r.unrep || s.taint a))

/-! ### Nests -/

/-- R104, R108, R155: NGO of a table that passes its check starts a nest at iteration 0 with every counter 0
and the table as it stands; one that fails traps with 0x1A and the failing register; an NGO whose table
holds its saved position goes on from it.
R106: NBRK with its condition set, in a running nest of its table, breaks the current iteration,
takes the queued words of later ones out of the engines' queues, makes a register write that then stands first
(R88) and leaves LIVE as of the current iteration; otherwise it only issues. That a value of LIVE written as
words of later iterations had been pushed stays what it was is the model's choice (log 97). -/
def Obligations.NestStartsAndBreaks : Prop :=
  (∀ (s : State) (k : Fin 2) (n : BitVec 12), ctlGoes s [] = true → s.core.ctl.nest = none →
     let a := s.core.ctl.pcq.q0.addr
     let begins (eff : State → NestRun → Prop) : Prop := ∃ t r, exec (.ngo k n) s = .next t ∧
       RegSame [] [] s t ∧ UnitSame s t ∧ MemSame s t ∧ t.core.q = s.core.q ∧
       t.core.vis.st = s.core.vis.st ∧ t.core.ctl.pcq = s.core.ctl.pcq ∧ t.core.tick = s.core.tick + 1 ∧
       t.core.ctl.nest = some r ∧ t.core.ctl.nestSaved[k] = none ∧ r.table = k ∧ r.addr = a ∧ eff t r
     (s.core.savedAt k a = none → s.storeBad (a + 4) (4 * n.toNat) = false →
       nestInvalid s.core k a n.toNat = none → begins fun t r =>
       r.n = n.toNat ∧ r.iter = 0 ∧ r.next = 0 ∧ (∀ l : Fin 6, r.cur.getD l.val 1 = 0) ∧
       r.snap = s.core.vis.nest[k] ∧ ∀ l : Fin 6, t.core.vis.nest[k].level[l].cur = 0) ∧
     (∀ r0, s.core.savedAt k a = some r0 → r0.table = k → begins fun t r =>
       r.snap = r0.snap ∧ (∀ l : Fin 6, r.cur.getD l.val 0 = s.core.vis.nest[k].level[l].cur.toNat) ∧
       (s.core.vis.nest[k].next ≠ BitVec.ofNat 6 r0.next → r.next = s.core.vis.nest[k].next.toNat) ∧
       r.iter = tagOf r.cur r.snap.trips ∧ t.core.vis.nest[k].saved = false) ∧
     (∀ e, s.core.savedAt k a = none → s.storeBad (a + 4) (4 * n.toNat) = false →
       nestInvalid s.core k a n.toNat = some e → exec (.ngo k n) s = .next (takeTrap { cause := 0x1A, info := BitVec.ofNat 64 e, addr := a } s).pass)) ∧
  (∀ (s : State) (sd : Fin 16) (k : Fin 2), ctlGoes s [] = true →
     (∀ r, s.core.ctl.nest = some r → r.table = k → (s.core.steer sd).cond = true →
       s.core.livePlay = none →
       let gone (q : QItem) : Prop := ∃ x j, q = .word x ∧ x.tag = some (k, j) ∧ r.iter < j
       ∃ t, exec (.nbrk sd k) s = .next t ∧ RegSame [] [] s t ∧ MemSame s t ∧
         t.core.q = { s.core.q with dq := t.core.q.dq } ∧ t.core.vis.nest = s.core.vis.nest ∧ t.core.tick = s.core.tick + 1 ∧
         t.core.ctl.nest = some { r with broken := true, ahead := none, next := r.next + 1 } ∧
         (∀ e y, .word y ∈ (t.core.eng e).queue ↔ .word y ∈ (s.core.eng e).queue ∧ ¬ gone (.word y)) ∧
         (∀ e sr v q, (t.core.eng e).queue ≠ .reg sr v :: q) ∧
         ((∀ sr v, .reg sr v ∉ s.core.vector.queue) → t.core.q.dq = s.core.q.dq) ∧
         ((∀ e y, .word y ∈ (s.core.eng e).queue → gone (.word y) →
             ∀ tk st l, decode y.word.toNat none ≠ .ok (.ladv tk st l)) →
           ∀ i : Fin 16, t.core.vis.st[i].live = s.core.vis.st[i].live + BitVec.ofInt 48
             (liveStep r r.pushPlace.cur ((s.core.keptLive r i).elim r.cur (·.cur)) i))) ∧
     ((∀ r, s.core.ctl.nest = some r → ¬ (r.table = k ∧ (s.core.steer sd).cond = true)) →
       onlyIssues (.nbrk sd k) s))

/-- R104, R105, R156, R157: what the sequencer of a running nest does. It pushes an engine word with its
iteration's tag and LIVE, or waits for room in the queue; a long form without its continuation traps before it is pushed
(R53); it passes a body word that does not fire or has
been pushed. At the end of an iteration the counters move as an odometer, level 0 fastest; LIVE of every
stream register moves by STEP for each unit its levels' counters move, unless it moved as words were pushed
ahead; after the last iteration, or a break, the nest ends and the NGO is passed. That after a break a value of
LIVE written as words of later iterations had been pushed stays is the model's choice (log 97). -/
def Obligations.NestAdvances : Prop :=
  ∀ (s : State) (k : Fin 2) (n : BitVec 12) (r : NestRun), s.core.ctl.nest = some r →
    noStep s = true → s.core.livePlay = none →
    let movedAt (cur : List Nat) (t : State) (i : Fin 16) : Prop :=
      t.core.vis.st[i].live = s.core.vis.st[i].live + BitVec.ofInt 48
        (((List.finRange 6).map fun l : Fin 6 => if r.snap.level[l].smask.getLsbD i.val then
          ((cur.getD l.val 0 : Int) - (r.cur.getD l.val 0 : Int)) * (r.steps[i][l]).toInt
          else 0).sum)
    let stands (t : State) (i : Fin 16) : Prop := t.core.vis.st[i].live = s.core.vis.st[i].live
    let keeps (t : State) : Prop := RegSame [] [] s t ∧ UnitSame s t ∧ MemSame s t ∧ t.core.q = s.core.q
    (∀ (p : NestPlace) (e : Engine) (w : Word) (x : Option Word), s.core.nestItem r = .push p e w x →
      ∃ t y, exec (.ngo k n) s = .next t ∧ RegSame [] [] s t ∧ MemSame s t ∧ t.core.q = s.core.q ∧
        t.core.ctl.pcq = s.core.ctl.pcq ∧ t.core.tick = s.core.tick + 1 ∧
        t.core.ctl.nest = some { r with ahead := some { p with next := p.next + 1 } } ∧
        (t.core.eng e).queue = (s.core.eng e).queue ++ [.word y] ∧ y.word = w ∧ y.cont = x ∧
        y.tag = some (r.table, p.iter) ∧ ∀ i : Fin 16, y.snap.st[i].live
          = s.core.vis.st[i].live + BitVec.ofInt 48 (liveStep r r.pushPlace.cur p.cur i)) ∧
    (s.core.nestItem r = .full → waits (.ngo k n) s) ∧
    (∀ (p : NestPlace) (w : Word), s.core.nestItem r = .bad p w →
      let info := BitVec.ofNat 64 (7 + w.toNat / 2 ^ 29 * 2 ^ 8 + w.toNat * 2 ^ 32)
      let a := r.addr + 4 + 4 * BitVec.ofNat 48 p.next
      exec (.ngo k n) s = .next (takeTrap { cause := 0x01, info := info, addr := a } s).pass) ∧
    (s.core.nestItem r = .move → r.next < r.n → ∃ t, exec (.ngo k n) s = .next t ∧
      CtlFrame [] [] s t ∧ t.core.ctl.nest = some { r with next := r.next + 1 } ∧ t.core.tick = s.core.tick) ∧
    (s.core.nestItem r = .move → r.n ≤ r.next →
      (∀ cur, r.broken = false → odometer r.cur r.snap.trips = some cur → ∃ t, exec (.ngo k n) s = .next t ∧
        keeps t ∧ t.core.tick = s.core.tick ∧
        (∀ i, if r.iter < r.pushPlace.iter then stands t i else movedAt cur t i) ∧
        t.core.ctl.nest = some { r with cur := cur, iter := r.iter + 1, next := 0 }) ∧
      ((r.broken = true ∨ odometer r.cur r.snap.trips = none) → ∃ t, exec (.ngo k n) s = .next t ∧
        keeps t ∧ t.core.tick = s.core.tick + 1 ∧ t.core.ctl.nest = none ∧
        t.core.ctl.pcq = s.core.rotate ∧
        ∀ i, if r.broken && (s.core.keptLive r i).isSome then stands t i
          else movedAt ((odometer r.cur r.snap.trips).getD (afterLast r.snap.trips)) t i))

/-- R156: the odometer visits the product of the trip counts: from counters within their trips, it gives
the counters whose tag is one more, or none at the last tag. -/
def Obligations.OdometerCounts : Prop :=
  ∀ (cur trips : List Nat), cur.length = trips.length → (∀ p ∈ cur.zip trips, p.1 < p.2) →
    (∀ next, odometer cur trips = some next → next.length = trips.length ∧
      (∀ p ∈ next.zip trips, p.1 < p.2) ∧ tagOf next trips = tagOf cur trips + 1) ∧
    (odometer cur trips = none → tagOf cur trips + 1 = trips.foldl (· * ·) 1)

/-! ### Traps -/

/-- R110, R111, R14, R35, R362: TRAP and BREAK are passed and enter the handler, TRAP with cause 0x15 and
its immediate, BREAK with cause 0x17 and EINFO 2, inside a user debug hook too; in bank 1 TRAP is a
double fault and BREAK is held until the return, beside a held gang stop; that one held already does not take
its place is the model's choice (log 66). -/
def Obligations.TrapWordsEnterHandler : Prop :=
  ∀ (s : State),
    (inUser s = true → plainStream s = true →
      (∀ imm : BitVec 16, ∃ u, exec (.trap imm) s = .next u ∧ Handles
        { cause := 0x15, info := imm.zeroExtend 64, addr := s.core.nowAddr } s.core.rotate s u) ∧
      ∃ u, exec .brk s = .next u ∧ Handles
        { cause := 0x17, info := 2, addr := s.core.nowAddr } s.core.rotate s u) ∧
    (s.core.ctl.bank1 = false → s.core.ctl.regs.hook = true → plainStream s = true →
      (∀ imm : BitVec 16, ∃ u, exec (.trap imm) s = .next u ∧ u.core.ctl.bank1 = true ∧
        u.core.ctl.regs.ecause = 0x15 ∧ u.core.ctl.regs.einfo = imm.zeroExtend 64 ∧
        u.core.ctl.regs.epc0 = s.core.rotate.q0.addr) ∧
      ∃ u, exec .brk s = .next u ∧ u.core.ctl.bank1 = true ∧ u.core.ctl.regs.ecause = 0x17 ∧
        u.core.ctl.regs.einfo = 2 ∧ u.core.ctl.regs.epc0 = s.core.rotate.q0.addr) ∧
    (s.core.ctl.bank1 = true →
      (∀ imm : BitVec 16, ∃ u, exec (.trap imm) s = .next u ∧ u.core.ctl.run = .dead ∧
        u.core.ctl.b0 = s.core.ctl.b0 ∧ u.core.ctl.b1 = s.core.ctl.b1 ∧ MemSame s u) ∧
      ∃ u, exec .brk s = .next u ∧ RegSame [] [] s u ∧ MemSame s u ∧ u.core.ctl.run = s.core.ctl.run ∧
        (plainStream s = true → u.core.ctl.pcq = s.core.rotate) ∧
        u.core.ctl.held16 = s.core.ctl.held16 ∧ ∃ r : TrapRec,
          u.core.ctl.held17 = s.core.ctl.held17 ++ [r] ∧ r.cause = 0x17 ∧ r.info = 2)

/-- R13, R55, R56, R362, R392: what takes a cause at a word boundary, the word that stands there not
issued: a word that names no instruction (0x01, with the REASON, the engine and the word), a fetch
outside the image (0x04, ACC 3), a break request (0x17, EINFO 0; its ORIGIN is the model's choice, log 71), a
posted cause, a stop that a trap of another core asked for (0x16, with COMPANION and that core's rank). -/
def Obligations.BoundaryTrapsEnterHandler : Prop :=
  ∀ (s : State), inUser s = true → s.core.livePlay = none → s.core.ctl.nest = none →
    (∀ (w : Word) (r : BitVec 8), ∃ u, exec (.illegalWord none w r) s = .next u ∧ ∃ c,
      Handles c s.core.ctl.pcq s u ∧ c.cause = 0x01 ∧ c.addr = s.core.ctl.pcq.q0.addr ∧ c.origin = 0 ∧
      c.info.toNat = r.toNat + w.toNat / 2 ^ 29 * 2 ^ 8 + w.toNat * 2 ^ 32) ∧
    (∀ (e : Engine) (x : Entry) (rest : List QItem) (r : BitVec 8),
      (s.core.eng e).queue = .word x :: rest →
      ∃ u, exec (.illegalWord (some e) x.word r) s = .next u ∧ ∃ c,
        Handles c s.core.ctl.pcq s u ∧ c.cause = 0x01 ∧ c.addr = x.addr ∧
        c.origin.toNat = engNum e ∧
        c.info.toNat = r.toNat + x.word.toNat / 2 ^ 29 * 2 ^ 8 + x.word.toNat * 2 ^ 32) ∧
    (∀ a : VAddr, ∃ u, exec (.fetchFault a) s = .next u ∧
      Handles { cause := 0x04, info := 3, addr := a } s.core.ctl.pcq s u) ∧
    (∃ u, exec .breakRequest s = .next u ∧ u.core.ctl.breakReq = false ∧
      ∃ o, Handles { cause := 0x17, info := 0, origin := o } s.core.ctl.pcq s u) ∧
    (∀ c : TrapRec, s.core.ctl.posted = some c → ∃ u, exec .trapEntry s = .next u ∧
      Handles c s.core.ctl.pcq s u ∧ u.core.ctl.posted = none) ∧
    (∀ (rank : BitVec 16) (t : Nat), s.core.stall.companion = some (rank, t) →
      ∃ u, exec .companionStop s = .next u ∧ u.core.stall.companion = none ∧
        Handles { cause := 0x16, info := BitVec.ofNat 64 (rank.toNat + 2 ^ 32), origin := 7 }
          s.core.ctl.pcq s u)

/-- R35: a cause in bank 1 other than 0x16 and 0x17 is a double fault: the core stops, neither bank nor a
trap-state register changes; 0x16 and 0x17 are held there, each beside the other. That every 0x17 is held, in
order, is the model's choice (log 66).
R35, R379: a step whose word, its continuation or the body word that a nest reads lies on an uncorrectable error
of the system store is such a double fault.
R359, R370: inside a user debug hook a cause other than 0x15, 0x16 and 0x17 is taken as 0x02 with no
address, its EINFO naming the word that raised it; words that the hook refuses trap with 0x02. -/
def Obligations.TrapsInHandlerOrHook : Prop :=
  (∀ (s : State), s.core.ctl.bank1 = true → ∀ (w : Word) (r : BitVec 8),
     ∃ u, exec (.illegalWord none w r) s = .next u ∧
       u.core.ctl.run = .dead ∧ u.core.ctl.b0 = s.core.ctl.b0 ∧ u.core.ctl.b1 = s.core.ctl.b1 ∧
       u.core.ctl.regs = s.core.ctl.regs ∧ MemSame s u) ∧
  (∀ (s : State) (c : TrapRec), s.core.ctl.bank1 = true → s.core.ctl.posted = some c →
     (c.cause = 0x16 → s.core.ctl.held16 = none → ∃ u, exec .trapEntry s = .next u ∧
       CtlFrame [] [] s u ∧ u.core.ctl.pcq = s.core.ctl.pcq ∧ u.core.ctl.held16 = some c ∧
       u.core.ctl.held17 = s.core.ctl.held17) ∧
     (c.cause = 0x17 → ∃ u, exec .trapEntry s = .next u ∧
       CtlFrame [] [] s u ∧ u.core.ctl.pcq = s.core.ctl.pcq ∧ u.core.ctl.held17 = s.core.ctl.held17 ++ [c] ∧
       u.core.ctl.held16 = s.core.ctl.held16)) ∧
  (∀ (s : State), stepsControl s = true →
     (s.core.ctl.nest = none ∧ s.core.ctl.pcq.q0.nul = false ∧
         (s.storeBad s.core.ctl.pcq.q0.addr 4 = true ∨
           ∃ w, s.core.fetch s.core.ctl.pcq.q0.addr = some w ∧ (engineOf (w.toNat / 2 ^ 29)).isSome = true ∧
             isLong w.toNat = true ∧ s.storeBad (s.core.ctl.pcq.q0.addr + 4) 4 = true)) ∨
       (∃ r, s.core.ctl.nest = some r ∧ itemBad r s (s.core.nestItem r) = true) →
     ∃ u, step s = .next u ∧ u.core.ctl.run = .dead ∧ u.core.ctl.b0 = s.core.ctl.b0 ∧
       u.core.ctl.b1 = s.core.ctl.b1 ∧ u.core.ctl.regs = s.core.ctl.regs ∧ MemSame s u) ∧
  (∀ (s : State), s.core.ctl.bank1 = false → s.core.ctl.regs.hook = true →
     (∀ a : VAddr, ∃ u, exec (.fetchFault a) s = .next u ∧ u.core.ctl.bank1 = true ∧
       u.core.ctl.regs.ecause = 0x02 ∧ u.core.ctl.regs.eaddr = 0 ∧
       u.core.ctl.regs.einfo.toNat = ((s.core.fetch s.core.nowAddr).getD 0).toNat * 2 ^ 32) ∧
     (∀ m : BitVec 16, exec (.plumb m) s = .next (takeTrap (access 0x02 (.plumb m) 0 0 0) s).pass))

/-- R16, R35, R42, R112, R298: RFT of a core alone in its gang goes back to bank 0 where EPC0 to EPC2 and ENUL
say, GTICK 64 on from where it stood, a held cause to be taken before the first word; in a gang, the core
stays at it until the re-plumb is released, and then resumes with the release value (0x16 before 0x17, and each 0x17
in turn, is the model's choice, log 66); within a hook it goes
back without a re-plumb; a cause that ends the task is not resumed; in bank 0 it traps with 0x02; with an EPC
that is no word address it is a double fault. -/
def Obligations.ReturnFromTrap : Prop :=
  ∀ (s : State),
    let back (u : State) : Prop := u.core.ctl.bank1 = false ∧ u.core.ctl.b0 = s.core.ctl.b0 ∧
      u.core.ctl.b1 = s.core.ctl.b1 ∧ MemSame s u ∧ u.core.q = s.core.q ∧
      u.core.ctl.pcq.q0 = ⟨s.core.ctl.regs.epc0, s.core.ctl.regs.enul.getLsbD 0⟩ ∧
      u.core.ctl.pcq.q1 = ⟨s.core.ctl.regs.epc1, s.core.ctl.regs.enul.getLsbD 1⟩ ∧
      u.core.ctl.pcq.q2 = ⟨s.core.ctl.regs.epc2, s.core.ctl.regs.enul.getLsbD 2⟩ ∧
      (if s.core.ctl.regs.hook then u.core.ctl.posted = s.core.ctl.held17.head? ∧
          u.core.ctl.held16 = s.core.ctl.held16 ∧ u.core.ctl.held17 = s.core.ctl.held17.tail
        else u.core.ctl.held16 = none ∧ (match s.core.ctl.held16 with
          | some c => u.core.ctl.posted = some c ∧ u.core.ctl.held17 = s.core.ctl.held17
          | none => u.core.ctl.posted = s.core.ctl.held17.head? ∧
            u.core.ctl.held17 = s.core.ctl.held17.tail)) ∧
      u.core.ctl.arrival = none ∧ u.core.tick = s.core.tick + 1
    (s.core.ctl.bank1 = false → exec .rft s = .next (takeTrap (access 0x02 .rft 0 0 0) s).pass) ∧
    (∀ h v, s.core.ctl.bank1 = true → s.core.ctl.arrival = some (.rft h (some v)) →
      ∃ u, exec .rft s = .next u ∧ back u ∧ u.core.gtick = v) ∧
    (s.core.ctl.bank1 = true → (∀ h v, s.core.ctl.arrival ≠ some (.rft h (some v))) →
      ((s.core.ctl.regs.epc0.toNat % 4 ≠ 0 ∨ s.core.ctl.regs.epc1.toNat % 4 ≠ 0 ∨
          s.core.ctl.regs.epc2.toNat % 4 ≠ 0) →
        ∃ u, exec .rft s = .next u ∧ u.core.ctl.run = .dead ∧ u.core.ctl.bank1 = true) ∧
      (s.core.ctl.regs.epc0.toNat % 4 = 0 → s.core.ctl.regs.epc1.toNat % 4 = 0 →
        s.core.ctl.regs.epc2.toNat % 4 = 0 →
        let held := if s.core.atRft then s.core.heldTick else s.core.gtick
        (s.core.ctl.regs.hook = true → ∃ u, exec .rft s = .next u ∧ back u ∧ u.core.gtick = s.core.gtick) ∧
        (s.core.ctl.regs.hook = false → s.core.ends = false → s.gangOthers = [] → s.core.ctl.run = .running →
          ∃ u, exec .rft s = .next u ∧ back u ∧ u.core.gtick = held + 64) ∧
        (s.core.ctl.regs.hook = false →
          (s.core.ends = true ∨ ∃ c ∈ s.gangOthers, c.ctl.run ≠ .retired ∧
            (c.preempted = false ∨ c.ctl.run ≠ .running) ∧ (c.atRft = false ∨ c.ends = true)) →
          ∃ u, exec .rft s = .next u ∧ CtlFrame [] [] s u ∧ u.core.ctl.pcq = s.core.ctl.pcq ∧
            u.core.tick = s.core.tick + 1 ∧ u.core.ctl.arrival = some (.rft held none))))

/-- R98, R113, R325: RETIRE in bank 0, once the engines are done, takes the core out of its gang's work, what
is held back performed: its stream closes, its reply queues, records and recording are discarded; before that
it waits, and a held copy that has changed unseen rolls the phase back. In a handler it waits for issued words
alone and discards nothing; in that of a pre-emption the core's state is saved with its task (R347, R348): that the
save is the handler's RETIRE, and what the record holds, is the model's choice (log 15). -/
def Obligations.RetireLeavesGang : Prop :=
  ∀ (s : State),
    (s.core.ctl.bank1 = false →
      (s.core.commitReady = false → waits .retire s) ∧
      (s.core.commitReady = true → s.core.cp.hold = [] → ∃ t, exec .retire s = .next t ∧
        t.core.ctl.run = .retired ∧ t.core.sd = none ∧ t.core.q.rq0 = [] ∧ t.core.q.rq1 = [] ∧
        t.core.q.cq = [] ∧ t.core.q.wsq = [] ∧ t.core.q.xq = [] ∧ t.core.q.dq = [] ∧ t.core.q.pq = [] ∧
        t.core.jig.recording = none ∧ t.core.ctl.arrival = none ∧ RegSame [] [] s t ∧ MemSame s t ∧
        t.core.tick = s.core.tick + 1) ∧
      (∀ c, s.core.commitReady = true → holdError s (List.finRange 8) = some c → s.core.canRetry = true →
        ∃ t, exec .retire s = .next t ∧ RegSame [] [] s t ∧ MemSame s t ∧ t.core.ctl.run = s.core.ctl.run ∧
          t.core.ctl.pcq = s.core.ctl.pcq ∧ t.core.phase.rollback = true)) ∧
    (s.core.ctl.bank1 = true → (∀ e, (s.core.eng e).over = true) →
      (s.core.preempted = false → ∃ t, exec .retire s = .next t ∧ t.core.ctl.run = .retired ∧
        RegSame [] [] s t ∧ MemSame s t ∧ t.core.q = s.core.q ∧ t.core.ctl.arrival = none) ∧
      (s.core.preempted = true → saveReady s = false → waits .retire s) ∧
      (s.core.preempted = true → saveReady s = true → ∃ t, exec .retire s = .next t ∧
        t.core.ctl.run = .retired ∧ RegSame [] [] s t ∧
        ∀ k, s.taskOf s.core = some k → ∃ x ∈ t.sys.tasks, ∃ r ∈ x.saved, x.id = k.id ∧
          r.id = s.core.id ∧ r.ctl.b0 = s.core.ctl.b0 ∧ r.ctl.regs.epc0 = s.core.ctl.regs.epc0 ∧
          r.bench = s.core.bench ∧ r.mx.tiles = s.core.mx.tiles ∧ r.mx.acc = s.core.mx.acc ∧
          r.vec = s.core.vec ∧ r.cp.remote = [])) ∧
    (s.core.ctl.bank1 = true → (∃ e, (s.core.eng e).over = false) → waits .retire s)

/-! ### Steps -/

/-- R9, R41, R52, R392: a step of the control core's turn runs the instruction that the word at the head of
the PC queue, or at a running nest's place, decodes to, when nothing has fallen due, nothing is awaited and
its die's clock lets it take a tick; at another place of a nest it runs the sequencer's move.
R143: a step of an engine's turn runs the instruction that the word at its queue's head decodes to, in
bank 0 while the gang does not stand.
R360: where the word traps and an engine before it in that rule's order has a fault on the same tick, that
fault is taken in its place. -/
def Obligations.StepRunsDecodedWord : Prop :=
  (∀ (s : State) (w : Word) (i : Instr), stepsControl s = true →
     ((s.core.ctl.nest = none ∧ s.core.ctl.pcq.q0.nul = false ∧
         s.storeBad s.core.ctl.pcq.q0.addr 4 = false ∧ s.core.fetch s.core.ctl.pcq.q0.addr = some w) ∨
       ∃ r, s.core.ctl.nest = some r ∧ s.core.nestItem r = .word w ∧
         s.storeBad s.core.nowAddr 4 = false) →
     w.toNat / 2 ^ 29 = 0 → decode w.toNat none = .ok i →
     (traps s (exec i s) = false ∨ headFault exec engines s = none → step s = exec i s) ∧
     ∀ o, traps s (exec i s) = true → headFault exec engines s = some o → step s = o) ∧
  (∀ (s : State) (r : NestRun), stepsControl s = true → s.core.ctl.nest = some r →
     (∀ w, s.core.nestItem r ≠ .word w) → s.core.nestItem r ≠ .outside →
     itemBad r s (s.core.nestItem r) = false →
     let i : Instr := .ngo r.table (BitVec.ofNat 12 r.n)
     (traps s (exec i s) = false ∨ headFault exec engines s = none → step s = exec i s) ∧
     ∀ o, traps s (exec i s) = true → headFault exec engines s = some o → step s = o) ∧
  (∀ (s : State) (e : Engine) (x : Entry) (i : Instr), noticed s = none → dueEvent s = none →
     s.turn = .engine e → s.core.engRuns e = true → firstWord (s.core.eng e).queue = some x →
     decode x.word.toNat (x.cont.map (·.toNat)) = .ok i →
     (traps s (exec i s) = false ∨ headFault exec (above e) s = none → step s = exec i s) ∧
     ∀ o, traps s (exec i s) = true → headFault exec (above e) s = some o → step s = o)

/-- R41, R45, R53, R88, R142: a step at an engine word pushes it, with its continuation, at its engine's tail
with the engine-visible registers as they stand, and the stream moves on; a full queue makes the word wait;
a nullified word does nothing. -/
def Obligations.StepRoutesEngineWord : Prop :=
  ∀ (s : State) (w : Word) (e : Engine), stepsControl s = true → plainStream s = true → noStep s = true →
    s.core.fetch s.core.ctl.pcq.q0.addr = some w →
    (s.core.ctl.pcq.q0.nul = true → ∃ t, step s = .next t ∧ CtlFrame [] [] s t ∧
      t.core.ctl.pcq = s.core.rotate ∧ t.core.tick = s.core.tick + 1) ∧
    (∀ cont : Option Word, s.core.ctl.pcq.q0.nul = false → s.storeBad s.core.ctl.pcq.q0.addr 4 = false →
      engineOf (w.toNat / 2 ^ 29) = some e →
      (isLong w.toNat = true → s.storeBad (s.core.ctl.pcq.q0.addr + 4) 4 = false) →
      (if isLong w.toNat then cont = s.core.fetch (s.core.ctl.pcq.q0.addr + 4) ∧
        (cont.map fun x => isCont x.toNat) = some true else cont = none) →
      ((s.core.eng e).words < 64 → ∃ t x, step s = .next t ∧ RegSame [] [] s t ∧ MemSame s t ∧
        t.core.q = s.core.q ∧ t.core.ctl.pcq = s.core.rotate ∧ t.core.tick = s.core.tick + 1 ∧
        (t.core.eng e).queue = (s.core.eng e).queue ++ [.word x] ∧
        (∀ e', e' ≠ e → t.core.eng e' = s.core.eng e') ∧
        x.word = w ∧ x.cont = cont ∧ x.addr = s.core.ctl.pcq.q0.addr ∧ x.snap = s.core.vis ∧
        x.pushed = s.core.tick ∧ x.started = false ∧ x.tag = none ∧ x.agrees = true) ∧
      (64 ≤ (s.core.eng e).words → ∃ t, step s = .next t ∧ CtlFrame [] [] s t ∧
        t.core.ctl.pcq = s.core.ctl.pcq ∧ t.core.tick = s.core.tick + 1))

/-! ### Engine words: tokens -/

/-- R54, R144, R147, R148, R201, R208, R240, R321, R324: a word without another effect (LNOP, LADV, MNOP,
VNOP, SNOP, RFENCE with nothing remote left) issues when its tokens are there, popping them; it waits
while one is missing; it traps with 0x09 where its push would be the sixteenth. ENGINE_RETIRE pushes
the tokens of the oldest issued word and empties the landing slot it frees.
R145, R377, R378: a word waits until the checker's copy has come; one that differs from it rolls its phase
back, or traps with 0x11 where the phase cannot be retried. -/
def Obligations.EngineTokens : Prop :=
  (∀ (s : State) (i : Instr) (e : Engine) (tk : Tok) (x : Entry) (rest : List QItem),
    nopForm s i = some (e, tk) → headWord e s = some (x, rest) → x.started = false →
    (engReady e tk x s = true → ∃ t, exec i s = .next t ∧ EngIssues e tk x rest s t ∧ RestSame s t ∧
      t.core.q = s.core.q ∧ t.core.mx = s.core.mx ∧ t.core.vec = s.core.vec) ∧
    (x.agrees = true → s.core.tokOver e tk = none → s.core.tokReady e tk = false → EngWaits i e s) ∧
    (∀ k, (s.core.eng e).late = false → x.agrees = true → s.core.phase.rollback = false → (s.core.eng e).last ≠ some s.core.tick →
      s.core.lagMet x = true → s.core.heldByBreak x = false → s.core.tokOver e tk = some k →
      exec i s = .next (takeTrap { cause := 0x09, info := BitVec.ofNat 64 k, addr := x.addr
                                   origin := BitVec.ofNat 3 (engNum e) } s).pass)) ∧
  (∀ (s : State) (e : Engine) (w : Issued) (rest : List Issued), (s.core.eng e).issued = w :: rest →
    s.core.mayRetire w = true →
    ∃ t, exec (.engineRetire e) s = .next t ∧ EngFrame e s t ∧ MemSame s t ∧ t.core.q = s.core.q ∧
      t.core.mx = s.core.mx ∧ t.core.vec = s.core.vec ∧ (t.core.eng e).issued = rest ∧
      (t.core.eng e).queue = (s.core.eng e).queue ∧
      (∀ k : Fin 8, t.core.tok[k] = s.core.tok[k]
        + (if w.gl = true ∧ fifoOut e true = some k then 1 else 0)
        + (if w.gr = true ∧ fifoOut e false = some k then 1 else 0)) ∧
      (∀ k : Fin 64, t.core.land.slot[k] = if w.frees.map (·.1) = some k then none else s.core.land.slot[k])) ∧
  (∀ (s : State) (i : Instr) (e : Engine) (tk : Tok) (x : Entry) (rest : List QItem),
    nopForm s i = some (e, tk) → headWord e s = some (x, rest) → (s.core.eng e).late = false →
    x.started = false → s.core.phase.rollback = false → (s.core.eng e).last ≠ some s.core.tick →
    (s.core.lagMet x = false → EngWaits i e s) ∧
    (s.core.lagMet x = true → x.agrees = false → s.core.canRetry = true →
      ∃ t, exec i s = .next t ∧ t.core.phase.rollback = true ∧ (t.core.eng e).queue = (s.core.eng e).queue ∧
        t.core.tok = s.core.tok) ∧
    (s.core.lagMet x = true → x.agrees = false → s.core.canRetry = false → inUser s = true →
      ∃ t, exec i s = .next t ∧ t.core.ctl.bank1 = true ∧ t.core.ctl.regs.ecause = 0x11 ∧
        t.core.ctl.regs.eaddr = x.addr ∧ t.core.ctl.regs.origin.toNat = engNum e ∧
        t.core.ctl.regs.einfo.toNat = engNum e + x.word.toNat * 2 ^ 32))

/-! ### Engine words: the load engine -/

/-- R192, R197, R198, R200: what the load engine leaves in a tile. LDT copies the rows of its stream
register, turned on their side with `.TR`, the rest of the tile 0 with `.Z` and otherwise as it was; LDX ends
with the rows that its indices named, LGATH with one row of the elements gathered, LLAND with the 16 rows of
its slot, which empties 16 ticks on. The other tiles stand. A geometry that LDT refuses traps with 0x01,
REASON 0x03, a format that it does not turn with REASON 0x0D.
R168, R191, R194: the tile's shape and sums follow; until the word retires the tile may be read as it was. -/
def Obligations.TilesLoaded : Prop :=
  ∀ (s : State) (tk : Tok) (d : Fin 16) (x : Entry) (rest : List QItem), headWord .load s = some (x, rest) →
    engGoes .load tk x s = true → s.core.mx.tiles.wf = true →
    let fills (i : Instr) (b n : Nat) (rows : List (List Byte)) (clear : Bool) (f : BitVec 4) (r e : Nat)
        (eff : State → Prop) : Prop := ∃ t, exec i s = .next t ∧ EngIssues .load tk x rest s t ∧ RestSame s t ∧
      t.core.vec = s.core.vec ∧ MxButTiles s t ∧ TileHolds d b n rows clear s t ∧ ShapeIs d f r e s t ∧
      (∃ w ∈ (t.core.eng .load).issued, w.fills.map (·.1) = some d) ∧ eff t
    (∀ (st : Fin 16) (z tr : Bool), x.started = false →
      let r := x.snap.st[st]
      let b := bitsOr8 r.fmt
      let e := 8 * r.rbytes.toNat / b
      let rows := readRows s (locOf s x.snap .load .read) r 0 r.rows.toNat
      let i : Instr := .ldt tk d st z tr
      (ldtBadGeo r tr = true → exec i s = .next (takeTrap (illegal i 0x03 x.addr 1) s).pass) ∧
      (ldtBadGeo r tr = false → tr = true → quantised r.fmt = true →
        exec i s = .next (takeTrap (illegal i 0x0D x.addr 1) s).pass) ∧
      (ldtBadGeo r tr = false → (tr = true → quantised r.fmt = false) →
        readChecks i .load x (s.core.rowRanges r 0 r.rows.toNat) s = none →
        q4xFault r.fmt ((List.range rows.length).zip rows) = none →
        (tr = false → fills i b e rows z r.fmt (if z then 64 else r.rows.toNat) (if z then 2048 / b else e)
          fun t => t.core.q = s.core.q) ∧
        (tr = true → fills i b r.rows.toNat (transposeRows b e rows) z r.fmt (if z then 64 else e)
          (if z then 2048 / b else r.rows.toNat) fun t => t.core.q = s.core.q ∧
          ∀ k j, k < e → j < r.rows.toNat →
            elemOf b (tileRow t.core d k) j = elemOf b (rows.getD j []) k))) ∧
    (∀ (st : Fin 16) (rq : Fin 2) (n : BitVec 9) (u : Word) (us : List Word),
      let r := x.snap.st[st]
      let rows := x.rows ++ [(u.toNat, ldxRow s x r u.toNat)]
      s.core.q.rq rq = u :: us → 0 < n.toNat → n.toNat ≤ 64 → r.emptyGeo = false → r.badFmt = false →
      r.rbytes.toNat ≤ 256 → n.toNat ≤ x.prog + 1 → rows.length = n.toNat →
      (∀ y ∈ rows, y.2.length = r.rbytes.toNat) →
      (u.toNat < r.rows.toNat → readChecks (.ldx tk (.tile d) st rq n) .load x
        (s.core.rowRanges r u.toNat 1) s = none) → q4xFault r.fmt rows = none →
      fills (.ldx tk (.tile d) st rq n) (bitsOr8 r.fmt) (8 * r.rbytes.toNat / bitsOr8 r.fmt)
        (rows.map (·.2)) false r.fmt n.toNat (8 * r.rbytes.toNat / bitsOr8 r.fmt)
        fun t => t.core.q.rq rq = us ∧ t.core.q.vq = s.core.q.vq) ∧
    (∀ (st : Fin 16) (q : Fin 4) (ix : LaneEntry),
      let r := x.snap.st[st]
      let w := bitsOr8 r.fmt / 8
      let got := match gathRange s.core r ix 63 with
        | some a => readRange s (locOf s x.snap .load .read) a.1 a.2
        | none => []
      let row := (x.rows.map (·.2) ++ [got]).flatMap fun v => leBytes w (leNat v)
      x.started = true → x.prog = 63 → x.index = some ix → x.rows.length = 63 →
      r.emptyGeo = false → r.badFmt = false → gathFmt r.fmt = true →
      readChecks (.lgath tk (.tile d) st q) .load x (gathRange s.core r ix 63).toList s = none →
      fills (.lgath tk (.tile d) st q) (8 * w) 64 [row] false r.fmt 1 64 fun t => t.core.q = s.core.q ∧
        ∀ k : Fin 64, elemOf (8 * w) (tileRow t.core d 0) k.val
          = leNat (((x.rows.map (·.2)) ++ [got]).getD k.val []) % 2 ^ (8 * w)) ∧
    (∀ (slot : Fin 64) (f : BitVec 4) (bs : List Byte), x.started = false →
      s.core.land.slot[slot] = some (f, bs) → bs.length = 4096 →
      (∀ w ∈ s.core.load.issued, w.frees.map (·.1) ≠ some slot) →
      s.badAt (.slot s.core.id.num) (slot.val * 4096) 4096 = false →
      let rows := (List.range 16).map fun j => (bs.drop (256 * j)).take 256
      q4xFault f ((List.range 16).zip rows) = none →
      fills (.lland tk (.tile d) slot) (bitsOr8 f) (2048 / bitsOr8 f) rows false f 16 (2048 / bitsOr8 f)
        fun t => t.core.q = s.core.q ∧
          ∃ w ∈ (t.core.eng .load).issued, w.frees = some (slot, s.core.tick + 16))

/-- R195, R196, R197, R198, R199, R200: what the load engine puts into operand queues and scale FIFOs, one
row or lane an act; the word stays at its queue's head until its last. LGATH into a queue ends with one entry
of the elements gathered, under the mask of the entry of its indices, once the queue has room. -/
def Obligations.OperandsLoaded : Prop :=
  ∀ (s : State) (tk : Tok) (q : Fin 4) (x : Entry) (rest : List QItem), headWord .load s = some (x, rest) →
    engGoes .load tk x s = true →
    (∀ st : Fin 16,
      let r := x.snap.st[st]
      let i : Instr := .ldq tk q st
      s.core.q.vq[q].length < 8 → r.emptyGeo = false → r.rbytes.toNat ≤ 256 →
      (if x.started then rowAgain i .load x (s.core.rowRanges r x.prog 1) s
        else readChecks i .load x (s.core.rowRanges r 0 r.rows.toNat) s) = none →
      ∃ t, exec i s = .next t ∧ EngStep (decide (r.rows.toNat ≤ x.prog + 1)) .load tk x rest s t ∧
        RestSame s t ∧ t.core.mx = s.core.mx ∧ t.core.vec = s.core.vec ∧
        EntersVq q (rowLane (readRange s (locOf s x.snap .load .read) (s.core.rowAddr r x.prog)
          r.rbytes.toNat)) s t) ∧
    (∀ (target : Bool) (st : Fin 16), x.started = false →
      let r := x.snap.st[st]
      let n := r.rows.toNat
      let fifo := if target then s.core.mx.bscale else s.core.mx.ascale
      let batch := (readRows s (locOf s x.snap .load .read) r 0 n).flatten
      0 < n → n ≤ 32 → r.fmt = 6 → r.rbytes = 64 →
      (fifo.map (·.length)).sum + 64 * n ≤ 2048 →
      readChecks (.ldsc tk target st) .load x (s.core.rowRanges r 0 n) s = none →
      ∃ t, exec (.ldsc tk target st) s = .next t ∧ EngIssues .load tk x rest s t ∧ RestSame s t ∧
        t.core.q = s.core.q ∧ t.core.vec = s.core.vec ∧
        t.core.mx = (if target then { s.core.mx with bscale := fifo ++ [batch] }
          else { s.core.mx with ascale := fifo ++ [batch] })) ∧
    (∀ (st : Fin 16) (rq : Fin 2) (n : BitVec 9) (u : Word) (us : List Word),
      let r := x.snap.st[st]
      let i : Instr := .ldx tk (.vq q) st rq n
      s.core.q.rq rq = u :: us → s.core.q.vq[q].length < 8 → 0 < n.toNat → n.toNat ≤ 64 →
      r.emptyGeo = false → r.rbytes.toNat ≤ 256 →
      (u.toNat < r.rows.toNat → readChecks i .load x (s.core.rowRanges r u.toNat 1) s = none) →
      ∃ t, exec i s = .next t ∧ EngStep (decide (n.toNat ≤ x.prog + 1)) .load tk x rest s t ∧
        RestSame s t ∧ t.core.mx = s.core.mx ∧ t.core.q.rq rq = us ∧
        t.core.q.vq[q] = s.core.q.vq[q] ++ [{ mask := BitVec.allOnes 64, lanes := Vector.ofFn (rowLane
          (if u.toNat < r.rows.toNat then readRange s (locOf s x.snap .load .read)
            (s.core.rowAddr r u.toNat) r.rbytes.toNat else [])) }]) ∧
    (∀ (d : LDest) (st : Fin 16) (ix : LaneEntry),
      let r := x.snap.st[st]
      let i : Instr := .lgath tk d st q
      x.index.or s.core.q.vq[q].head? = some ix → x.prog < 63 →
      (x.started = false → x.index = none) →
      r.emptyGeo = false → r.badFmt = false → gathFmt r.fmt = true →
      readChecks i .load x (gathRange s.core r ix x.prog).toList s = none →
      ∃ t y, exec i s = .next t ∧ EngStays .load tk x rest (x.prog + 1) s t ∧ RestSame s t ∧
        t.core.mx = s.core.mx ∧ (t.core.eng .load).queue = .word y :: rest ∧ y.index = some ix ∧
        y.rows = x.rows ++ [(x.prog, match gathRange s.core r ix x.prog with
          | some a => readRange s (locOf s x.snap .load .read) a.1 a.2
          | none => [])] ∧
        t.core.q.vq[q] = if x.started then s.core.q.vq[q] else s.core.q.vq[q].tail) ∧
    (∀ (k : Fin 4) (st : Fin 16) (ix : LaneEntry),
      let r := x.snap.st[st]
      let i : Instr := .lgath tk (.vq k) st q
      let got := match gathRange s.core r ix 63 with
        | some a => readRange s (locOf s x.snap .load .read) a.1 a.2
        | none => []
      x.started = true → x.prog = 63 → x.index = some ix → x.rows.length = 63 →
      r.emptyGeo = false → r.badFmt = false → gathFmt r.fmt = true →
      readChecks i .load x (gathRange s.core r ix 63).toList s = none →
      (s.core.q.vq[k].length < 8 → ∃ t, exec i s = .next t ∧ EngIssues .load tk x rest s t ∧
        RestSame s t ∧ t.core.mx = s.core.mx ∧ t.core.vec = s.core.vec ∧
        t.core.q = { s.core.q with vq := s.core.q.vq.set k.val (s.core.q.vq[k] ++
          [{ mask := ix.mask, lanes := Vector.ofFn fun j : Fin 64 =>
            BitVec.ofNat 32 (leNat ((x.rows.map (·.2) ++ [got]).getD j.val [])) }]) k.isLt }) ∧
      (8 ≤ s.core.q.vq[k].length → s.core.ctl.bank1 = false → EngWaits i .load s)) ∧
    (∀ (slot : Fin 64) (f : BitVec 4) (bs : List Byte),
      let i : Instr := .lland tk (.vq q) slot
      s.core.land.slot[slot] = some (f, bs) → s.core.q.vq[q].length < 8 → x.prog < 16 →
      (∀ w ∈ s.core.load.issued, w.frees.map (·.1) ≠ some slot) →
      s.badAt (.slot s.core.id.num) (slot.val * 4096) 4096 = false →
      ∃ t, exec i s = .next t ∧ EngStep (decide (15 ≤ x.prog)) .load tk x rest s t ∧ RestSame s t ∧
        t.core.mx = s.core.mx ∧ EntersVq q (rowLane ((bs.drop (256 * x.prog)).take 256)) s t)

/-! ### Engine words: the matrix engine -/

/-- R143, R169, R170, R172, R175 to R177, R179, R184, R202, R203: a product step that its FIFOs and its tiles
allow. MMA is one step; MRUN runs the steps of its nest table, one an act, the word at the queue's head until
the last. A step takes its scales and blocks as it issues, and then, in an act of its own (log 3), adds to
every element the products of its row and column, with the group sums and windows of its profile. One whose FIFOs are short waits; one that takes more blocks than
the weight FIFO holds pops them as they come (log 74); one whose operands do not fit traps with 0x01 and the
REASON, one whose scales do not end with a batch with 0x0A; a compared row that fails rolls the phase back.
An MRUN whose MRCTL is refused traps with 0x01, REASON 3, one with a bad trip count with 0x1A.
R171, R172: under profile 6 a product step adds exact sums of integer products, modulo 2^32, and
raises no flag. -/
def Obligations.ProductSteps : Prop :=
  (∀ (s : State) (i : Instr) (tk : Tok) (m : MStep) (last : Bool) (x : Entry) (rest : List QItem),
     stepForm x i = some (tk, m, last) → headWord .matrix s = some (x, rest) →
     engGoes .matrix tk x s = true → s.core.mx.acc.wf = true → s.core.phase.rollback = false →
     let seen := m.sees s.core s.free
     (x.held = none → s.core.ctl.bank1 = false → m.ready x s.core = false → m.more x s.core = false →
       EngWaits i .matrix s) ∧
     (∀ r, x.held = none → s.core.ctl.bank1 = false → (m.ready x s.core = true ∨ m.more x s.core = true) →
       m.refused x seen = some r →
       exec i s = .next (engTrap .matrix (illegal i r x.addr 2) x (m.spend s))) ∧
     (x.held = none → m.ready x s.core = false → m.more x s.core = true → m.refused x seen = none →
       ∃ t y, exec i s = .next t ∧ EngStays .matrix tk x rest x.prog s t ∧ RestSame s t ∧
         t.core.q = s.core.q ∧ t.core.vec = s.core.vec ∧ (t.core.eng .matrix).queue = .word y :: rest ∧
         y.blocks = x.blocks ++ s.core.mx.wfifo.take 1 ∧ y.batches = x.batches ++ s.core.mx.scf.take 1 ∧
         t.core.mx = { s.core.mx with wfifo := s.core.mx.wfifo.drop 1, scf := s.core.mx.scf.drop 1 }) ∧
     (∀ info, x.held = none → inUser s = true → m.ready x s.core = true → m.refused x seen = none →
       (m.take x s.core).fail = some info → ∃ t, exec i s = .next t ∧ t.core.ctl.bank1 = true ∧
         t.core.ctl.regs.ecause = 0x0A ∧ t.core.ctl.regs.einfo = info ∧ t.core.ctl.regs.eaddr = x.addr) ∧
     (x.held = none → m.ready x s.core = true → m.refused x seen = none → (m.take x s.core).fail = none →
       ∃ t, exec i s = .next t ∧ EngStays .matrix tk x rest x.prog s t ∧ RestSame s t ∧
         t.core.q = s.core.q ∧ t.core.vec = s.core.vec ∧ StepTakes x m s t) ∧
     (∀ h row u, x.held = some h → s.core.canRetry = true → runStep x m h s = .check row u →
       u.core.canRetry = true → ∃ t, exec i s = .next t ∧ t.core.phase.rollback = true ∧
         (t.core.eng .matrix).queue = .word { x with held := none } :: rest) ∧
     (∀ h, x.held = some h → (m.o.ck = true → ∃ u, runStep x m h s = .done u) →
       ∃ t, exec i s = .next t ∧ EngStep last .matrix tk x rest s t ∧ RestSame s t ∧
         t.core.q = s.core.q ∧ t.core.vec = s.core.vec ∧ StepDone x m h s t ∧
         (m.o.ck = false → t.core.mx.ck = s.core.mx.ck))) ∧
  (∀ (s : State) (tk : Tok) (k : Fin 2) (c : MmaCont) (x : Entry) (rest : List QItem),
     headWord .matrix s = some (x, rest) → engReady .matrix tk x s = true → x.held = none →
     let m := mrStep x.snap.mrctl x.snap.nest[k] c x.prog
     let i : Instr := .mrun tk k c
     (m.ready x s.core = true ∨ m.more x s.core = true) →
     (mrBad x.snap.mrctl c.tb = true → exec i s = .next (takeTrap (illegal i 0x03 x.addr 2) s).pass) ∧
     (∀ o, mrBad x.snap.mrctl c.tb = false → tripsBad x.snap.nest[k] = some o → exec i s = .next (takeTrap
       { cause := 0x1A, info := BitVec.ofNat 64 (nestBase k + o), addr := x.addr, origin := 2 } s).pass)) ∧
  (∀ (x : Entry) (m : MStep) (h : HeldStep) (c : Core) (n r k : Nat), m.c.profile = 6 →
     let old : Word := if m.o.z then 0 else accWord c m.o.a r k
     let row := (m.aRows h c n).getD r []
     let col := (m.bCols x h c (n + 32768)).getD k []
     (((stepWord x m h c n r k).1.toInt : Int) - (old.toInt + (row.zipWith
       (fun x y => x.int * y.int) col).sum)) % 2 ^ 32 = 0 ∧
     (stepWord x m h c n r k).2 = 0)

/-- R117, R181, R182, R188, R204, R206: AZERO clears an accumulator and its type; AREAD pushes a row; APATCH
replaces a row, adds to it, or merges under the entry's mask, taking the entry; MDRAIN passes a row
through its program an act, puts it into its destination, inserts into the heap, and with `.AC`
advances EPCOLBASE by 64 after the last row. -/
def Obligations.AccumulatorWords : Prop :=
  ∀ (s : State) (tk : Tok) (a : Fin 4) (x : Entry) (rest : List QItem),
    headWord .matrix s = some (x, rest) → engGoes .matrix tk x s = true → s.core.mx.acc.wf = true →
    (x.started = false →
      (∃ t, exec (.azero tk a) s = .next t ∧ EngIssues .matrix tk x rest s t ∧ RestSame s t ∧
        t.core.q = s.core.q ∧ t.core.vec = s.core.vec ∧
        (∀ r k, r < 64 → k < 64 → accWord t.core a r k = 0) ∧
        (∀ b, ¬ (a.val * 16384 ≤ b ∧ b < (a.val + 1) * 16384) →
          t.core.mx.acc.read b = s.core.mx.acc.read b) ∧
        t.core.mx = { s.core.mx with acc := t.core.mx.acc, accI := s.core.mx.accI.set a.val false a.isLt })) ∧
    (∀ (row : Fin 64) (q : Fin 4), x.started = false → s.core.q.vq[q].length < 8 →
      ∃ t, exec (.aread tk a row q) s = .next t ∧ EngIssues .matrix tk x rest s t ∧ RestSame s t ∧
        t.core.mx = s.core.mx ∧ t.core.vec = s.core.vec ∧
        EntersVq q (fun k => accWord s.core a row.val k.val) s t) ∧
    (∀ (row : Fin 64) (mode : PatchMode) (v : LaneEntry) (vs : List LaneEntry), x.started = false →
      s.core.q.mq = v :: vs →
      let old (k : Nat) : Word := accWord s.core a row.val k
      let new (k : Nat) : Word := vget v.lanes k 0
      ∃ t, exec (.apatch tk a row mode) s = .next t ∧ EngIssues .matrix tk x rest s t ∧ RestSame s t ∧
        t.core.q = { s.core.q with mq := vs } ∧ t.core.vec = s.core.vec ∧
        AccRowIs a row.val (fun k => match mode with
          | .set => new k
          | .add => if s.core.mx.accI[a] then old k + new k else (fAdd (old k) (new k)).1
          | .mset => if v.mask.getLsbD k then new k else old k) s t ∧
        t.core.mx = { s.core.mx with acc := t.core.mx.acc, mflags := t.core.mx.mflags } ∧
        (mode ≠ .add ∨ s.core.mx.accI[a] = true → t.core.mx.mflags = s.core.mx.mflags)) ∧
    (∀ (d : DrainDest) (slot : Fin 8) (ac : Bool), s.core.drainRoom d = true →
      let dc := s.core.drainCore x slot
      let row := drainRow dc a slot x.prog
      let entry := drainEntry dc slot row
      let last := decide (63 ≤ x.prog)
      ∃ t, exec (.mdrain tk a d slot ac) s = .next t ∧ EngStep last .matrix tk x rest s t ∧
        RestSame s t ∧ t.core.vec = s.core.vec ∧
        t.core.q = (match d with
          | .vq q => { s.core.q with vq := s.core.q.vq.set q.val (s.core.q.vq[q] ++ [entry]) q.isLt }
          | .wq => { s.core.q with wq := s.core.q.wq ++ [entry] }
          | .heap => s.core.q) ∧
        t.core.mx.heap = (row.flatMap (·.ins)).foldl (heapInsert s.core.mx.heapk.toNat) s.core.mx.heap ∧
        t.core.mx.epcolbase = (if ac && last then s.core.mx.epcolbase + 64 else s.core.mx.epcolbase) ∧
        t.core.mx.mflags.bits = s.core.mx.mflags.bits ||| row.foldl (fun f m => f ||| m.fl) 0 ∧
        t.core.mx.acc = s.core.mx.acc ∧ t.core.mx.tiles = s.core.mx.tiles)

/-- R119, R120: the heap keeps its order, the larger value first and of equal values the smaller index,
and at most K pairs: the first K of the pairs it held and the inserted one, in that order; an insertion drops no pair
that comes before one it keeps. -/
def Obligations.HeapKeepsLargest : Prop :=
  ∀ (k : Nat) (h : List (Word × Word)) (x : Word × Word),
    h.Pairwise (fun a b => heapBefore a b = true) →
    let g := heapInsert k h x
    g.Pairwise (fun a b => heapBefore a b = true) ∧ g.length = min k (h.length + 1) ∧
      (∃ l : List (Word × Word), l.Perm (x :: h) ∧ l.Pairwise (fun a b => heapBefore a b = true) ∧ g = l.take k) ∧
      ∀ y ∈ x :: h, y ∈ g ∨ ∀ z ∈ g, heapBefore z y = true

/-- R63, R120, R187, R207, R208: EPSET loads a program that passes its check, EPCON a bank of 64 words;
that EPSET pops its tokens before the trap of a program that fails is the model's choice (log 34);
HEAPCLR empties the heap and sets its K, a field of 0 being 64; HEAPRD and MCHK push a row: the heap's
values or indices, the status of the last checked step that passed (which in a retried phase is the model's choice,
log 85). -/
def Obligations.EpilogueAndHeapWords : Prop :=
  ∀ (s : State) (tk : Tok) (x : Entry) (rest : List QItem), headWord .matrix s = some (x, rest) →
    x.started = false → engReady .matrix tk x s = true →
    (∀ (slot : Fin 8) (st : Fin 16),
      let a := s.core.rowAddr x.snap.st[st] 0
      let img := epiWords (readRange s (locOf s x.snap .matrix .read) a 32)
      let i : Instr := .epset tk slot st
      readChecks i .matrix x [(a, 32)] s = none →
      (epiFail img = none → ∃ t, exec i s = .next t ∧ EngIssues .matrix tk x rest s t ∧ RestSame s t ∧
        t.core.q = s.core.q ∧ t.core.vec = s.core.vec ∧
        t.core.mx = { s.core.mx with epi := t.core.mx.epi } ∧
        (∀ k : Fin 8, k ≠ slot → t.core.mx.epi[k] = s.core.mx.epi[k]) ∧
        t.core.mx.epi[slot].toList = img) ∧
      (∀ k, epiFail img = some k → exec i s = .next (takeTrap
        { cause := 0x1A, info := BitVec.ofNat 64 (k + slot.val * 16 + 2 ^ 16), addr := x.addr
          origin := 2 } { s with core := { s.core with tok := s.core.popToks .matrix tk } }).pass)) ∧
    (∀ (bank : Fin 8) (st : Fin 16),
      let a := s.core.rowAddr x.snap.st[st] 0
      readChecks (.epcon tk bank st) .matrix x [(a, 256)] s = none →
      ∃ t, exec (.epcon tk bank st) s = .next t ∧ EngIssues .matrix tk x rest s t ∧ RestSame s t ∧
        t.core.q = s.core.q ∧ t.core.vec = s.core.vec ∧
        t.core.mx = { s.core.mx with bank := s.core.mx.bank.set bank.val (Vector.ofFn (rowLane
          (readRange s (locOf s x.snap .matrix .read) a 256))) bank.isLt }) ∧
    (∀ k : Fin 64, ∃ t, exec (.heapclr tk k) s = .next t ∧ EngIssues .matrix tk x rest s t ∧
      RestSame s t ∧ t.core.q = s.core.q ∧ t.core.vec = s.core.vec ∧
      t.core.mx = { s.core.mx with heap := [], heapk := if k = 0 then 64 else BitVec.ofNat 7 k.val }) ∧
    (∀ (q : Fin 4) (part : Bool), s.core.q.vq[q].length < 8 →
      (∃ t, exec (.heaprd tk q part) s = .next t ∧ EngIssues .matrix tk x rest s t ∧ RestSame s t ∧
        t.core.mx = s.core.mx ∧ t.core.vec = s.core.vec ∧ EntersVq q (fun r =>
          match (s.core.mx.heap.take s.core.mx.heapk.toNat)[r.val]? with
          | some p => if part then p.2 else p.1
          | none => if part then 0xFFFFFFFF else 0xFF800000) s t) ∧
      ∃ t, exec (.mchk tk q) s = .next t ∧ EngIssues .matrix tk x rest s t ∧ RestSame s t ∧
        t.core.mx = s.core.mx ∧ t.core.vec = s.core.vec ∧
        EntersVq q (fun r => (s.core.mx.ck.getD r.val 0).zeroExtend 32) s t)

/-! ### Engine words: the stream engine -/

/-- R210 to R214, R251, R259: SDOPEN of an image that passes its checks stands at the head until its
retirement tick, 64 + N gang ticks on, and then opens the stream; an image that fails traps with 0x0D.
SDRUN grants blocks; SDCLOSE closes once no grant is left; SDSTAT pushes the stream's record. -/
def Obligations.StreamWords : Prop :=
  ∀ (s : State) (x : Entry) (rest : List QItem), headWord .stream s = some (x, rest) →
    (∀ (st : Fin 16) (rs : List (Nat × Nat)) (u : State),
      let h := s.core.rowAddr x.snap.st[st] 0
      let i : Instr := .sdopen st
      let quiet := watchFail i .stream x (wpRange x.snap 0 (wpBit .stream) rs) u = none
      x.started = false → engReady .stream noTok x s = true → s.core.ctl.regs.hook = false →
      s.core.sd = none →
      h % 64 = 0 →
      (∀ hdr tab, openChecks s (locOf s x.snap .stream .read) h = (rs, .good hdr tab, u) → quiet →
        ∃ t y, exec i s = .next t ∧ EngFrame .stream s t ∧ RestSame s t ∧ t.core.q = s.core.q ∧
          t.core.mx = s.core.mx ∧ t.core.vec = s.core.vec ∧
          (t.core.eng .stream).queue = .word y :: rest ∧ y.started = true ∧ y.word = x.word ∧
          y.due = s.core.gtick + 64 + hdrBlocks hdr ∧ y.rows = [(h, hdr), (h + 64, tab)]) ∧
      (∀ r, openChecks s (locOf s x.snap .stream .read) h = (rs, .reject r, u) → quiet →
        exec i s = .next (takeTrap { cause := 0x0D, info := contractInfo r, addr := BitVec.ofNat 48 h
                                     origin := 5 } u).pass)) ∧
    (∀ (h : Nat) (hdr tab : List Byte) (a : Nat), x.started = true → x.due ≤ s.core.gtick →
      s.core.ctl.bank1 = false → s.core.stream.late = false → x.rows = [(h, hdr), (a, tab)] →
      ∃ t, exec .sdopenRetire s = .next t ∧ EngFrame .stream s t ∧ MemSame s t ∧ t.core.q = s.core.q ∧
        t.core.mx = s.core.mx ∧ (t.core.eng .stream).queue = rest ∧ ∃ d, t.core.sd = some d ∧
          d.header = BitVec.ofNat 48 h ∧ d.fmt = hdrFmt hdr ∧ d.rate = hdrRate hdr ∧
          d.bufB = hdrBuf hdr ∧ d.delay = hdrDelay hdr ∧ d.table = rmEntries (hdrBlocks hdr) tab ∧
          d.g0 = x.due ∧ d.next = 0 ∧ d.granted = 0 ∧ d.buf = [] ∧ d.beats = 0) ∧
    (∀ (n : BitVec 12) (d : Stream), x.started = false → engReady .stream noTok x s = true →
      s.core.ctl.regs.hook = false → s.core.sd = some d → d.granted + n.toNat ≤ d.table.length →
      (s.core.gtick ≤ d.g0 + d.tick d.granted →
        ∃ t, exec (.sdrun n) s = .next t ∧ EngIssues .stream noTok x rest s t ∧ MemSame s t ∧
          t.core.q = s.core.q ∧ t.core.mx = s.core.mx ∧ t.core.vec = s.core.vec ∧
          t.core.sd = some { d with granted := d.granted + n.toNat } ∧
          ∃ w ∈ (t.core.eng .stream).issued, w.upto = some (d.granted + n.toNat)) ∧
      (d.g0 + d.tick d.granted < s.core.gtick → exec (.sdrun n) s = .next (takeTrap
        { cause := 0x0E, info := BitVec.ofNat 64 (d.granted % 2 ^ 12 + 2 ^ 15), addr := x.addr
          origin := 5 } s).pass)) ∧
    (x.started = false → engReady .stream noTok x s = true →
      ((∀ w ∈ s.core.stream.issued, w.upto = none) → ∃ t, exec .sdclose s = .next t ∧
        EngIssues .stream noTok x rest s t ∧ MemSame s t ∧ t.core.q = s.core.q ∧
        t.core.mx = s.core.mx ∧ t.core.vec = s.core.vec ∧ t.core.sd = none) ∧
      ((∃ w ∈ s.core.stream.issued, w.upto.isSome = true) → EngWaits .sdclose .stream s) ∧
      (s.core.q.wsq.length < 16 → ∃ t, exec .sdstat s = .next t ∧ EngIssues .stream noTok x rest s t ∧
        RestSame s t ∧ t.core.mx = s.core.mx ∧ t.core.vec = s.core.vec ∧
        t.core.q = { s.core.q with wsq := s.core.q.wsq ++ [sdRecord s.core.sd] }))

/-- R242, R244, R252, R254, R256, R257: the events of an open stream. A late beat brings the next 64 bytes
of its image; a due one is late, and begins a delay, where a memory error holds it up, may be late where a refetch of the
stream or a stall of the gang goes on (R253), and brings them otherwise; a removal takes its block's bytes off the buffer
and decodes them, or refetches a corrupt block. A block that no SDRUN grants traps with 0x0E, NOGRANT, one
that finds four blocks waiting with 0x0E, OVERFLOW; one whose bytes have not come is an underrun: 0x0B in
strict mode, a delay in lockstep. A refetch that passes decodes the block, one that fails traps with 0x0C; a
push moves the oldest decoded block and its scales into the FIFOs. The order of a removal's checks (grant,
completeness, room) is the model's choice (log 50), the tick in EINFO on a resumed stream too (log 76), and the
fields of a refetched block's record (log 78). -/
def Obligations.StreamEvents : Prop :=
  ∀ (s : State) (d : Stream), s.core.sd = some d →
    let same := fun t : State => t.core.ctl = s.core.ctl ∧ t.core.vis = s.core.vis ∧ t.core.q = s.core.q ∧
      t.core.vec = s.core.vec ∧ (∀ e, t.core.eng e = s.core.eng e) ∧ MemSame s t
    (∀ (sp : Space) (off : Nat),
      let l := locOf s s.core.vis .stream .read
      let a := d.beatAddr % 2 ^ 48
      let lands := { d with beats := d.beats + 1, buf := d.buf ++ readRange s l a 64, late := false }
      d.beatDue s.core = true → l a = .ok (sp, off) → firstBad s l [(a, 64)] = none →
      (d.late = true → ∃ t, exec .streamBeat s = .next t ∧ same t ∧ t.core.sd = some lands) ∧
      (d.late = false → d.beatFirst = true → ∃ t, exec .streamBeat s = .next t ∧ same t ∧
        let held := t.core.sd = some { d with late := true, slow := false } ∧ BeginsDelay .beat s t
        (d.slow = true → held) ∧ (d.slow = false → s.beatHeld d = false → t.core.sd = some lands) ∧
          (t.core.sd = some lands ∨ held))) ∧
    (let i := d.next
     let n := (d.table.getD i ⟨0, 0, 0⟩).s
     let d' := { d with next := i + 1, buf := d.buf.drop n }
     let stops (cause info a : Nat) : Prop := exec .blockRemoval s = .next (takeTrap
       { cause := BitVec.ofNat 6 cause, info := BitVec.ofNat 64 info, addr := BitVec.ofNat 48 a
         origin := 5 } s).pass
     d.removeDue s.core = true → s.core.gheld = false →
     (d.beatDue s.core && !d.late && d.beatFirst) = false →
     (d.granted ≤ i → stops 0x0E (i % 2 ^ 12 + 2 ^ 15) 0) ∧
     (i < d.granted → d.buf.length < n →
       (s.core.vis.strict = true →
         stops 0x0B (i % 2 ^ 12 + 2 ^ 12 + d.tick i % 2 ^ 32 * 2 ^ 16) (d.blockAddr i)) ∧
       (s.core.vis.strict = false → ∃ t, exec .blockRemoval s = .next t ∧ same t ∧
         t.core.mx = s.core.mx ∧ t.core.sd = some d ∧ BeginsDelay .underrun s t)) ∧
     (i < d.granted → n ≤ d.buf.length →
       (4 ≤ s.core.mx.wfifo.length + d.out.length + d.refetch.length →
         stops 0x0E (i % 2 ^ 12 + 2 ^ 14) 0) ∧
       (s.core.mx.wfifo.length + d.out.length + d.refetch.length < 4 →
         (∀ b, checkBlock d i (d.buf.take n) = .good b →
           ∃ t, exec .blockRemoval s = .next t ∧ same t ∧ t.core.mx = s.core.mx ∧
             t.core.sd = some { d' with out := insertOut i b d.out }) ∧
         (∀ r, checkBlock d i (d.buf.take n) = .corrupt r →
           ∃ t, exec .blockRemoval s = .next t ∧ same t ∧ t.core.mx = s.core.mx ∧
             BeginsDelay .refetch s t ∧ t.core.sd = some { d' with
               refetch := d.refetch ++ [(i, s.core.tick + (n + d.rate - 1) / d.rate)] })))) ∧
    (∀ (i k : Nat) (more : List (Nat × Nat)),
      let l := locOf s s.core.vis .stream .read
      let n := (d.table.getD i ⟨0, 0, 0⟩).s
      let a := d.blockAddr i
      d.refetch = (i, k) :: more → k ≤ s.core.tick → refetchFail l a n = none →
      goneAt l [(a % 2 ^ 48, n)] = none → firstBad s l [(a % 2 ^ 48, n)] = none →
      (∀ b, checkBlock d i (readRange s l (a % 2 ^ 48) n) = .good b →
        ∃ t, exec .blockRefetch s = .next t ∧ t.core.ctl = s.core.ctl ∧ t.core.mx = s.core.mx ∧
          t.core.sd = some { d with refetch := more, out := insertOut i b d.out }) ∧
      (∀ r, checkBlock d i (readRange s l (a % 2 ^ 48) n) = .corrupt r →
        exec .blockRefetch s = .next (takeTrap
          { cause := 0x0C, info := BitVec.ofNat 64 (i % 2 ^ 12 + r * 2 ^ 12 + d.tick i % 2 ^ 32 * 2 ^ 16)
            addr := BitVec.ofNat 48 a, origin := 5 }
          (s.updSd fun y => { y with refetch := more })).pass)) ∧
    (∀ (i : Nat) (b : WBlock) (more : List (Nat × WBlock)), d.out = (i, b) :: more →
      d.pushDue s.core = true →
      ∃ t, exec .blockPush s = .next t ∧ same t ∧ t.core.sd = some { d with out := more } ∧
        t.core.mx = { s.core.mx with wfifo := s.core.mx.wfifo ++ [b]
                                     scf := s.core.mx.scf ++ [(b.scnt, b.x8)] })

/-! ### Engine words: the vector engine -/

/-- R137, R138, R218 to R221: the F32 words, lane by lane under their predicate, with the flags and NaN
counts of the active lanes. VABS and VNEG touch the sign bit alone; VFMA adds its destination's value,
or +0 where its destination is no register.
R125, R127, R131, R220, R221: for finite operands the sum, difference, product, fused sum, reciprocal and reciprocal
square root are the exact values rounded once to nearest even, with their flags. VEXP2 and VLOG2 give such a
rounding of a value within 2^-200 of the exact one (relative) or 2^-127 (absolute): that no exact value lies
so near to a point where the rounding changes is the model's choice (log 10); where the exact value is an F32 value
because the operand is an integer or a power of two, they give it without a flag. -/
def Obligations.VectorFloatLanes : Prop :=
  lanewise2 .vadd fAdd true ∧ lanewise2 .vsub fSub true ∧
  lanewise2 .vmul fMul true ∧ lanewise2 .vmin (fMinMax false) true ∧
  lanewise2 .vmax (fMinMax true) true ∧
  lanewise1 .vabs (fun x => (BitVec.ofNat 32 (x.toNat % 2 ^ 31), 0)) false ∧
  lanewise1 .vneg (fun x => (BitVec.ofNat 32 (x.toNat + 2 ^ 31), 0)) false ∧
  lanewise1 .vrcp fRcp true ∧ lanewise1 .vrsq fRsq true ∧ lanewise1 .vexp2 fExp2 true ∧
  lanewise1 .vlog2 fLog2 true ∧ lanewise1 .vmov (fun x => (x, 0)) false ∧
  (∀ (x y z : Word) (a b c : ℝ), IsF32 x a → IsF32 y b → IsF32 z c →
    RoundsF32 (signOf x && signOf y) (a + b) (fAdd x y) ∧
    RoundsF32 (signOf x && !signOf y) (a - b) (fSub x y) ∧
    RoundsF32 (signOf x != signOf y) (a * b) (fMul x y) ∧
    RoundsF32 ((signOf x != signOf y) && signOf z) (a * b + c) (fFma x y z) ∧
    (a ≠ 0 → RoundsF32 false (1 / a) (fRcp x)) ∧
    (0 < a → RoundsF32 false (1 / Real.sqrt a) (fRsq x)) ∧
    (∃ v : ℝ, |v - (2 : ℝ) ^ a| ≤ (2 : ℝ) ^ a / 2 ^ 200 ∧ RoundsF32 false v (fExp2 x)) ∧
    (0 < a → ∃ v : ℝ, |v - Real.logb 2 a| ≤ 1 / 2 ^ 127 ∧ RoundsF32 false v (fLog2 x)) ∧
    (∀ n : ℤ, a = n → -149 ≤ n → n ≤ 127 → IsF32 (fExp2 x).1 (2 ^ n) ∧ (fExp2 x).2 = 0) ∧
    (∀ n : ℤ, a = 2 ^ n → IsF32 (fLog2 x).1 n ∧ (fLog2 x).2 = 0)) ∧
  ∀ (s : State) (tk : Tok) (d : VDst) (a b : VSrc) (p : Fin 16) (x : Entry) (rest : List QItem),
    headWord .vector s = some (x, rest) → x.started = false → engReady .vector tk x s = true →
    vecCalm s [a, b] [p] d = true →
    (∀ k, d = .v k → oldsOf s.core.vec.pendV (s.core.vec.phys k).val s.core.tick = []) →
    let z (i : Fin 64) : Word := match d with
      | .v k => srcLane s (.v k) i
      | _ => 0
    let f (i : Fin 64) := fFma (srcLane s a i) (srcLane s b i) (z i)
    ∃ t, exec (.vfma tk d a b p) s = .next t ∧ EngIssues .vector tk x rest s t ∧ RestSame s t ∧
      t.core.mx = s.core.mx ∧ Delivers d [a, b] (predVal s p) (fun i => (f i).1) s t ∧
      VecRest (laneFlags (predVal s p) fun i => (f i).2) (laneCount (predVal s p) fun i =>
        isNaN (srcLane s a i) || isNaN (srcLane s b i) || isNaN (z i)) s t

/-- R218, R222: the integer and logic words, lane by lane under their predicate; shift amounts are taken
mod 32. -/
def Obligations.VectorIntegerLanes : Prop :=
  lanewise2 .viadd (fun x y => (BitVec.ofNat 32 (x.toNat + y.toNat), 0)) false ∧
  lanewise2 .visub (fun x y => (BitVec.ofInt 32 (x.toInt - y.toInt), 0)) false ∧
  lanewise2 .vimul (fun x y => (BitVec.ofNat 32 (x.toNat * y.toNat), 0)) false ∧
  lanewise2 .vimin (fun x y => (BitVec.ofInt 32 (min x.toInt y.toInt), 0)) false ∧
  lanewise2 .vimax (fun x y => (BitVec.ofInt 32 (max x.toInt y.toInt), 0)) false ∧
  lanewise2 .viminu (fun x y => (BitVec.ofNat 32 (min x.toNat y.toNat), 0)) false ∧
  lanewise2 .vimaxu (fun x y => (BitVec.ofNat 32 (max x.toNat y.toNat), 0)) false ∧
  lanewise2 .vand (fun x y => (x &&& y, 0)) false ∧
  lanewise2 .vor (fun x y => (x ||| y, 0)) false ∧
  lanewise2 .vxor (fun x y => (x ^^^ y, 0)) false ∧
  lanewise2 .vshl (fun x y => (BitVec.ofNat 32 (x.toNat * 2 ^ (y.toNat % 32)), 0)) false ∧
  lanewise2 .vshr (fun x y => (BitVec.ofNat 32 (x.toNat / 2 ^ (y.toNat % 32)), 0)) false ∧
  lanewise2 .vsra (fun x y => (BitVec.ofInt 32 (x.toInt / 2 ^ (y.toNat % 32)), 0)) false

/-- R225 to R233, R236, R239: the words that write every lane of their destination, whatever the lane's
predicate bit. -/
def Obligations.VectorWholeResults : Prop :=
  ∀ (s : State) (tk : Tok) (d : VDst) (a b : VSrc) (p : Fin 16),
    let la := srcLanes s a
    let m := predVal s p
    let nan (i : Fin 64) : Bool := isNaN (srcLane s a i)
    let snan := if (List.finRange 64).any (fun i => m.getLsbD i.val && isSNaN (srcLane s a i)) then fIV else 0
    writesAll (.vsel tk d a b p) tk d [a, b] [p]
      (fun i => if m.getLsbD i.val then srcLane s a i else srcLane s b i) 0 0 s ∧
    (∀ (c : Conv) (r : Rnd) (sat : Bool),
      let g (i : Fin 64) := convert c r sat (vget (draws s.core.vec) i.val 0).toNat (srcLane s a i)
      let fl := laneFlags (BitVec.allOnes 64) fun i => (g i).2
      let n := laneCount (BitVec.allOnes 64) fun i => convNaN c (srcLane s a i)
      (r ≠ .sr → writesAll (.vcvt tk d a c r sat) tk d [a] [] (fun i => (g i).1) fl n s) ∧
      (∀ x rest, headWord .vector s = some (x, rest) → x.started = false →
        engReady .vector tk x s = true → vecCalm s [a] [] d = true →
        ∃ t, exec (.vcvt tk d a c .sr sat) s = .next t ∧ EngIssues .vector tk x rest s t ∧
          t.core.vec.vrc = s.core.vec.vrc + 64 ∧ t.core.vec.vrk = s.core.vec.vrk ∧
          Delivers d [a] (BitVec.allOnes 64) (fun i => (convert c .sr sat
            (vget (draws s.core.vec) i.val 0).toNat (srcLane s a i)).1) s t)) ∧
    (∀ w : PackW,
      let n := 32 / packBits w
      let el (j : Nat) : Nat := if h : j < 64 then (srcLane s a ⟨j, h⟩).toNat
        else if h : j - 64 < 64 then (srcLane s b ⟨j - 64, h⟩).toNat else 0
      writesAll (.vpack tk d a b w) tk d [a, b] [] (fun i => BitVec.ofNat 32 ((List.range n).map fun k =>
        el (n * i.val + k) % 2 ^ packBits w * 2 ^ (packBits w * k)).sum) 0 0 s ∧
      writesAll (.vunpk tk d a b w) tk d [a, b] []
        (fun i => fieldAt (packBits w) la ((srcLane s b i).toNat % (2048 / packBits w))) 0 0 s) ∧
    (∀ f : QFmt,
      writesAll (.vquant tk d a f) tk d [a] [] (fun i => (quantize f la).1[i]) (quantize f la).2
        (laneCount (BitVec.allOnes 64) nan) s ∧
      (deqBad f la = none → writesAll (.vdeq tk d a f) tk d [a] [] (fun i => (deqLane f la i.val).1)
        (laneFlags (BitVec.allOnes 64) fun i => (deqLane f la i.val).2.1)
        (laneCount (BitVec.allOnes 64) fun i => (deqLane f la i.val).2.2) s)) ∧
    (let r := tree sumNode (leaves la m false)
     writesAll (.vrsum tk d a p) tk d [a] [p] (fun i => (reduced la r.1 0 true)[i]) (r.2 ||| snan)
      (laneCount m nan) s) ∧
    (∀ nn : Bool,
      let x := tree (pickNode true) (leaves la m nn)
      let y := tree (pickNode false) (leaves la m nn)
      writesAll (.vrmax tk d a nn p) tk d [a] [p] (fun i => (reduced la x.1 0xFF800000 false)[i])
        (x.2 ||| snan) (laneCount m nan) s ∧
      writesAll (.vrmin tk d a nn p) tk d [a] [p] (fun i => (reduced la y.1 0x7F800000 false)[i])
        (y.2 ||| snan) (laneCount m nan) s) ∧
    (∀ k : Fin 64, writesAll (.vbcst tk d a k) tk d [a] [] (fun _ => srcLane s a k) 0 0 s) ∧
    (∀ imm : BitVec 14,
      writesAll (.vsplt tk d imm) tk d [] [] (fun _ => BitVec.ofInt 32 imm.toInt) 0 0 s ∧
      writesAll (.vsplf tk d imm) tk d [] [] (fun _ => BitVec.ofNat 32 (imm.toNat * 2 ^ 18)) 0 0 s) ∧
    writesAll (.vrget tk d) tk d [] [] (fun i =>
      if i.val < 4 then s.core.vec.vrk.extractLsb' (32 * i.val) 32
      else if i.val < 8 then s.core.vec.vrc.extractLsb' (32 * (i.val - 4)) 32 else 0) 0 0 s ∧
    writesAll (.vdqn tk d) tk d [] [] (fun _ => BitVec.ofNat 32 s.core.q.dq.length) 0 0 s ∧
    (let fl := s.core.vec.vflags
     let img (i : Fin 64) : Word := if i.val = 0 then BitVec.ofNat 32 (fl.bits.toNat + 2 ^ 16 * fl.nanc.toNat)
       else if i.val = 1 then BitVec.ofNat 32 (fl.nanc.toNat / 2 ^ 16) else 0
     writesAll (.vflag tk d false) tk d [] [] img 0 0 s ∧
     ∀ x rest, headWord .vector s = some (x, rest) → x.started = false →
       engReady .vector tk x s = true → s.core.dstRoom d = true →
       ∃ t, exec (.vflag tk d true) s = .next t ∧ EngIssues .vector tk x rest s t ∧
         Delivers d [] (BitVec.allOnes 64) img s t ∧ t.core.vec.vflags = {})

/-- R217, R223, R224, R232 to R238: the vector words with other effects. VCMP and PLOG write a predicate, p0
staying all ones; VPERM and VSPLX write under their predicate, VSPLX taking an xq entry once the checker's
copy of it has come, and rolling its phase back, or trapping with 0x11, where the copies differ; VRAND, VRSET and
VRSKIP keep the generator; VDEFER appends its active lanes and traps with 0x18 past 4,096; VDRAIN takes
64 entries, or with `.FL` what there is; VLOOP rotates; VRPLY replies. -/
def Obligations.VectorOtherEffects : Prop :=
  ∀ (s : State) (tk : Tok) (d : VDst) (a b : VSrc) (p pd pb : Fin 16) (x : Entry) (rest : List QItem),
    headWord .vector s = some (x, rest) → x.started = false → engReady .vector tk x s = true →
    let goes (i : Instr) (eff : State → Prop) : Prop :=
      ∃ t, exec i s = .next t ∧ EngIssues .vector tk x rest s t ∧ RestSame s t ∧ t.core.mx = s.core.mx ∧
        eff t
    let setsP (f : Fin 64 → Bool) (t : State) : Prop :=
      ∀ k : Fin 16, k ≠ 0 → ∀ i : Fin 64, t.core.vec.p[k].getLsbD i.val
        = if k = s.core.vec.physP pd then f i else s.core.vec.p[k].getLsbD i.val
    let words (k : Nat) : BitVec 128 := vget (srcLanes s a) (k + 3) 0 ++ (vget (srcLanes s a) (k + 2) 0 ++
      (vget (srcLanes s a) (k + 1) 0 ++ vget (srcLanes s a) k 0))
    (vecCalm s [a, b] [] .discard = true → ∀ cc : VCc,
      goes (.vcmp tk cc .f pd a b) (fun t => setsP (fun i => (cmpF cc (srcLane s a i) (srcLane s b i)).1) t ∧
        Delivers .discard [a, b] 0 (fun _ => 0) s t) ∧
      (cc ≠ .un → cc ≠ .or → ∀ sg : Bool,
        goes (.vcmp tk cc (if sg then .i else .u) pd a b) (fun t =>
          Delivers .discard [a, b] 0 (fun _ => 0) s t ∧ t.core.vec.vflags = s.core.vec.vflags ∧
          setsP (fun i =>
            let x : Int := if sg then (srcLane s a i).toInt else (srcLane s a i).toNat
            let y : Int := if sg then (srcLane s b i).toInt else (srcLane s b i).toNat
            match cc with
            | .eq => decide (x = y) | .ne => decide (x ≠ y) | .lt => decide (x < y)
            | .le => decide (x ≤ y) | .gt => decide (y < x) | _ => decide (y ≤ x)) t))) ∧
    (∀ fn : PFn, vecCalm s [] (plogReads fn p pb) .discard = true →
      goes (.plog tk fn pd p pb) fun t => t.core.q = s.core.q ∧ setsP (fun i =>
        let u := (predVal s p).getLsbD i.val
        let v := (predVal s pb).getLsbD i.val
        match fn with
        | .and => u && v | .or => u || v | .xor => xor u v | .andn => u && !v | .not => !u
        | .mov => u | .all => true | .none => false) t) ∧
    (vecCalm s [a, b] [p] d = true → goes (.vperm tk d a b p) fun t =>
      Delivers d [a, b] (predVal s p) (fun i => srcLane s a (lane64 (srcLane s b i).toNat)) s t ∧ VecRest 0 0 s t) ∧
    (s.core.q.xq = [] → EngWaits (.vsplx tk d p) .vector s) ∧
    (∀ (e : XEntry) (es : List XEntry), s.core.q.xq = e :: es →
      (e.matched = true ∨ (e.pushed + 6 ≤ s.core.tick ∧ e.copy = e.value) → vecCalm s [] [p] d = true →
        goes (.vsplx tk d p) fun t => VecRest 0 0 s t ∧ Delivers d [] (predVal s p)
          (fun _ => e.value.truncate 32) (s.updQ fun q => { q with xq := es }) t) ∧
      (e.matched = false → s.core.tick < e.pushed + 6 → EngWaits (.vsplx tk d p) .vector s) ∧
      (e.matched = false → e.pushed + 6 ≤ s.core.tick → e.copy ≠ e.value →
        (s.core.canRetry = true → ∃ t, exec (.vsplx tk d p) s = .next t ∧ t.core.phase.rollback = true ∧
          t.core.q = s.core.q ∧ t.core.eng .vector = s.core.eng .vector ∧ BeginsDelay .rollback s t) ∧
        (s.core.canRetry = false → inUser s = true → ∃ t, exec (.vsplx tk d p) s = .next t ∧
          t.core.ctl.bank1 = true ∧ t.core.ctl.regs.ecause = 0x11 ∧ t.core.ctl.regs.eaddr = x.addr))) ∧
    (vecCalm s [] [p] d = true → goes (.vrand tk d p) fun t =>
      Delivers d [] (predVal s p) (fun i => rand32 s.core.vec.vrk (s.core.vec.vrc + BitVec.ofNat 128 i.val)) s t ∧
      t.core.vec.vrc = s.core.vec.vrc + 64 ∧ t.core.vec.vrk = s.core.vec.vrk) ∧
    (vecCalm s [a] [] .discard = true →
      goes (.vrset tk a) (fun t => t.core.vec.vrk = words 0 ∧ t.core.vec.vrc = words 4 ∧
        Delivers .discard [a] 0 (fun _ => 0) s t) ∧
      goes (.vrskip tk a) (fun t => t.core.vec.vrk = s.core.vec.vrk ∧
        t.core.vec.vrc = s.core.vec.vrc + words 0 ∧ Delivers .discard [a] 0 (fun _ => 0) s t)) ∧
    (vecCalm s [a, b] [p] .discard = true →
      let es : List (Word × Word × BitVec 6) := ((List.finRange 64).filter fun i =>
        (predVal s p).getLsbD i.val).map fun i => (srcLane s a i, srcLane s b i, BitVec.ofNat 6 i.val)
      (s.core.q.dq.length + es.length ≤ 4096 → goes (.vdefer tk a b p) fun t => VecRest 0 0 s t ∧
        Delivers .discard [a, b] 0 (fun _ => 0) (s.updQ fun q => { q with dq := q.dq ++ es }) t) ∧
      (4096 < s.core.q.dq.length + es.length → exec (.vdefer tk a b p) s = .next (takeTrap
        { cause := 0x18, addr := x.addr, origin := 3 } s).pass)) ∧
    (∀ (r : Fin 32) (fl : Bool), r.val < 22 →
      let n := s.core.q.dq.length
      let m := if 64 ≤ n then 64 else if fl then n else 0
      goes (.vdrain tk r fl pd) fun t => t.core.q = { s.core.q with dq := s.core.q.dq.drop m } ∧
        setsP (fun i => decide (i.val < m)) t ∧
        ((64 ≤ n ∨ fl = true) → ∀ i : Fin 64,
          let e := (s.core.q.dq.take m).getD i.val (0, 0, 0)
          t.core.vec.v[s.core.vec.phys (nextReg r 0)][i] = e.1 ∧
          t.core.vec.v[s.core.vec.phys (nextReg r 1)][i] = e.2.1 ∧
          t.core.vec.v[s.core.vec.phys (nextReg r 2)][i] = e.2.2.zeroExtend 32) ∧
        (n < 64 → fl = false → t.core.vec.v = s.core.vec.v)) ∧
    (goes (.vloop tk) fun t => t.core.q = s.core.q ∧ t.core.vec.v = s.core.vec.v ∧
      t.core.vec.p = s.core.vec.p ∧ t.core.vec.vb = s.core.vec.vb - 1 ∧ t.core.vec.pb = s.core.vec.pb - 1) ∧
    (∀ (rq : Fin 2) (k : Fin 64), vecCalm s [a] [] .discard = true →
      ((s.core.q.rq rq).length < 16 → goes (.vrply tk a rq k) fun t => VecRest 0 0 s t ∧
        t.core.q.rq rq = s.core.q.rq rq ++ [srcLane s a k] ∧ t.core.vec.v = s.core.vec.v) ∧
      (16 ≤ (s.core.q.rq rq).length → EngWaits (.vrply tk a rq k) .vector s))

/-! ### Engine words: the copy engine -/

/-- R311, R312, R314: COPY and SQST work row by row. A row of COPY moves the bytes of its source row to its
destination row; a copy that a phase holds back keeps its bytes and writes nothing. A row of SQST stores
the active lanes of the oldest wq entry, in its delivered format, and takes the entry; a row that stopped
before holds its entry already.
R310, R314: what SQST stores of an entry with an inactive lane: each active lane that begins within the
row, cut off at the row's end, at its own place. -/
def Obligations.CopyRows : Prop :=
  (∀ (s : State) (tk : Tok) (d st : Fin 16) (x : Entry) (rest : List QItem),
     headWord .copy s = some (x, rest) → engGoes .copy tk x s = true →
     let a := x.snap.st[st]
     let b := x.snap.st[d]
     let n := a.rows.toNat
     let i : Instr := .copy tk d st
     let lw := locOf s x.snap .copy .write
     let src := readRange s (locOf s x.snap .copy .read) (s.core.rowAddr a x.prog) a.rbytes.toNat
     let pair := holder s x.snap (s.core.rowRanges a 0 n) (s.core.rowRanges b 0 n)
     let kept := fun t : State => t.core.mx = s.core.mx ∧ t.core.vec = s.core.vec ∧ t.core.sd = s.core.sd
     (a.emptyGeo = false → a.rows = b.rows → a.rbytes = b.rbytes →
       copyRowChecks i x (s.core.rowRanges a x.prog 1) (s.core.rowRanges b x.prog 1) s = none →
       (pair = none → ∃ t, exec i s = .next t ∧ EngStep (decide (n ≤ x.prog + 1)) .copy tk x rest s t ∧
         kept t ∧ t.core.q = s.core.q ∧ t.core.cp = s.core.cp ∧ ∀ sp k, (t.mem sp).read k
           = ((writeRange s lw (s.core.rowAddr b x.prog) src).mem sp).read k) ∧
       (∀ p, pair = some p → (x.started = true ∨ s.core.heldBytes + n * a.rbytes.toNat ≤ 0x40000) →
         ∃ t, exec i s = .next t ∧ EngStep (decide (n ≤ x.prog + 1)) .copy tk x rest s t ∧ kept t ∧
           t.core.q = s.core.q ∧ MemSame s t ∧
           (x.prog + 1 < n → t.core.cp = s.core.cp) ∧
           (n ≤ x.prog + 1 → ∃ h : HeldCopy, t.core.cp.hold = s.core.cp.hold ++ [h] ∧ h.pair = p ∧
             h.carried = false ∧ h.writes = (x.rows ++ [(s.core.rowAddr b x.prog, src)]).map
               (fun r => ⟨BitVec.ofNat 48 r.1, r.2, some (residueOf r.2)⟩))) ∧
       (∀ p, pair = some p → x.started = false → 0x40000 < s.core.heldBytes + n * a.rbytes.toNat →
         EngWaits i .copy s)) ∧
     (∀ e : LaneEntry, x.index.or s.core.q.wq.head? = some e →
       let m := b.rbytes.toNat
       let k := s.core.rowAddr b x.prog
       let stores := (rowStores k m e).filter fun r => !r.2.isEmpty
       b.emptyGeo = false → m ≤ 256 →
       copyRowChecks (.sqst tk d) x [] (stores.map fun r => (r.1, r.2.length)) s = none →
       sqstResidue m e (stores.flatMap (·.2)) = false →
       ∃ t, exec (.sqst tk d) s = .next t ∧ EngStep (decide (b.rows.toNat ≤ x.prog + 1)) .copy tk x rest s t ∧
         kept t ∧ t.core.q = (if x.index.isSome then s.core.q else { s.core.q with wq := s.core.q.wq.tail }) ∧
         ∀ sp o, (t.mem sp).read o
           = ((stores.foldl (fun s r => writeRange s lw r.1 r.2) s).mem sp).read o)) ∧
  (∀ (k n : Nat) (e : LaneEntry), e.mask ≠ BitVec.allOnes 64 → ∀ (a : Nat) (bs : List Byte),
     (a, bs) ∈ rowStores k n e ↔ ∃ i : Fin 64, laneWidth e * i.val < n ∧ e.mask.getLsbD i.val = true ∧
       a = (k + laneWidth e * i.val) % 2 ^ 48 ∧
       bs = (leBytes (laneWidth e) e.lanes[i].toNat).take (n - laneWidth e * i.val))

/-- R282, R284, R292, R315, R317, R318, R322, R323: XSEND puts its bytes on the way to its neighbour's slot,
to land 23 to 25 gang ticks on where no earlier send of its channel lands later, and never before an earlier one;
with no core of the gang at the neighbour it traps with 0x02. RSEND and RRECV post a remote word of up to 2^24 bytes, in whole elements under a reduction, to a peer the task may
name, or trap; an RRECV whose RSEND has arrived is matched at once, or refused with REASON 4. A batched ATOMV
joins its rank's part, which `.END` closes; `.ADDF` traps with 0x02 in a task launched under NOSORT; an ATOMV
of `.ADDFS` adds at once, unless an old value that it reads holds an uncorrectable error, which it consumes (R379). -/
def Obligations.SendsAndPosts : Prop :=
  ∀ (s : State) (tk : Tok) (st : Fin 16) (x : Entry) (rest : List QItem),
    headWord .copy s = some (x, rest) → x.started = false → engReady .copy tk x s = true →
    s.core.ctl.regs.hook = false →
    let r := x.snap.st[st]
    let n := r.rows.toNat
    let len := n * r.rbytes.toNat
    let rows := s.core.rowRanges r 0 n
    let goes (i : Instr) (eff : State → Prop) : Prop := ∃ t, exec i s = .next t ∧
      EngIssues .copy tk x rest s t ∧ t.core.mx = s.core.mx ∧ t.core.vec = s.core.vec ∧ eff t
    (∀ (nb : Bool) (slot : Fin 64) (off : BitVec 23) (k : Nat), sendDue s.core x.snap nb off = true →
      r.emptyGeo = false → r.badFmt = false → len = 4096 → neighbour s nb = some k →
      readChecks (.xsend tk st nb slot off) .copy x rows s = none →
      goes (.xsend tk st nb slot off) fun t => MemSame s t ∧ t.core.q = s.core.q ∧
        t.core.cp.lastSend[if nb then (1 : Fin 2) else 0] = some s.core.tick ∧
        ∀ c ∈ s.others, c.id.num = k → ∃ c' ∈ t.others, c'.id = c.id ∧ ∃ f : Flight,
          c'.land.flights = c.land.flights ++ [f] ∧ f.slot = slot ∧ f.fmt = r.fmt ∧ f.back = nb ∧
          f.data = (readRows s (locOf s x.snap .copy .read) r 0 n).flatten ∧
          s.core.gtick + 23 ≤ f.due ∧ (∀ g ∈ c.land.flights, g.back = nb → g.due ≤ f.due) ∧
          ((∀ g ∈ c.land.flights, g.back = nb → g.due ≤ s.core.gtick + 25) → f.due ≤ s.core.gtick + 25)) ∧
    (∀ (nb : Bool) (slot : Fin 64) (off : BitVec 23), let i : Instr := .xsend tk st nb slot off
      (sendDue s.core x.snap nb off = false → EngWaits i .copy s) ∧
      (sendDue s.core x.snap nb off = true →
        (r.emptyGeo = true ∨ r.badFmt = true ∨ len ≠ 4096 →
          exec i s = .next (takeTrap (illegal i 0x03 x.addr 4) s).pass) ∧
        (r.emptyGeo = false → r.badFmt = false → len = 4096 → neighbour s nb = none →
          exec i s = .next (takeTrap (access 0x02 i 1 0 4) s).pass))) ∧
    (∀ (peer : BitVec 13) (tag : BitVec 16),
      let unknown (i : Instr) : Prop := exec i s = .next (takeTrap
        { cause := 0x1B, info := peer.zeroExtend 64, addr := x.addr, origin := 4 } s).pass
      let posted (op : RemoteOp) (red : Reduce) (m : Bool) (y : Remote) : Prop := y.op = op ∧ y.peer = peer ∧
        y.tag = tag ∧ y.len = len ∧ y.reduce = red ∧ y.st = r ∧ y.ph = x.snap.ph ∧ y.rto = x.snap.rto ∧
        y.posted = s.core.tick ∧ y.matched = m ∧ y.sent = 0 ∧
        let open_ (k : Fin 32) : Prop :=
          (s.peer s.core.ctl.regs.tenant peer).getLsbD (2 + k.val) = true ∧ s.sys.ports[k].up = true
        (∀ k, y.port = some k → open_ k) ∧ (y.port = none → ∀ k, ¬ open_ k)
      let send : Instr := .rsend tk st peer tag
      let rest_ := fun t : State => RestSame { s with core := { s.core with cp := t.core.cp } } t
      (r.emptyGeo = true ∨ 2 ^ 24 < len →
        exec send s = .next (takeTrap (illegal send 0x03 x.addr 4) s).pass) ∧
      (r.emptyGeo = false → len ≤ 2 ^ 24 → sendChecks send x rows s = none →
        (peerAllowed s x.snap peer = false → unknown send) ∧
        (peerAllowed s x.snap peer = true → goes send fun t => rest_ t ∧ t.core.q = s.core.q ∧
          ∃ y, posted .send .none false y ∧
            t.core.cp = { s.core.cp with remote := s.core.cp.remote ++ [y] })) ∧
      ∀ red : Reduce, let recv : Instr := .rrecv tk st red peer tag
        (r.emptyGeo = true ∨ 2 ^ 24 < len →
          exec recv s = .next (takeTrap (illegal recv 0x03 x.addr 4) s).pass) ∧
        (r.emptyGeo = false → len ≤ 2 ^ 24 →
          (len % reduceSize red ≠ 0 → exec recv s = .next (takeTrap (illegal recv 0x0D x.addr 4) s).pass) ∧
          (len % reduceSize red = 0 →
            accessFail recv .copy (recvFails s x red rows)
              (goneAt (locOf s x.snap .copy .write) rows) s = none →
            watchFail recv .copy x ((if red = .none then []
              else wpRange x.snap 0 (wpBit .copy) rows) ++ wpRange x.snap 1 (wpBit .copy) rows) s = none →
            (peerAllowed s x.snap peer = false → unknown recv) ∧
            (peerAllowed s x.snap peer = true →
              ((∀ n, (peer, tag, n) ∉ s.core.cp.arrived) → goes recv fun t => rest_ t ∧
                t.core.q = s.core.q ∧ ∃ y, posted .recv red false y ∧
                  t.core.cp = { s.core.cp with remote := s.core.cp.remote ++ [y] }) ∧
              (∀ n, s.core.cp.arrived.find? (fun a => decide (a.1 = peer) && decide (a.2.1 = tag))
                  = some (peer, tag, n) → s.core.hook = none →
                (∀ y ∈ s.core.cp.remote, y.isFor .recv peer tag = true → y.matched = true) →
                goes recv fun t => rest_ t ∧
                  t.core.cp.arrived = s.core.cp.arrived.erase (peer, tag, n) ∧
                  (n = len → t.core.q = s.core.q ∧ ∃ y, posted .recv red true y ∧
                    t.core.cp.remote = s.core.cp.remote ++ [y]) ∧
                  (n ≠ len → t.core.cp.remote = s.core.cp.remote ∧ t.core.q.records = s.core.q.records
                    ++ [cqRecord 1 peer tag len 3 4])))))) ∧
    (∀ (iq : Fin 4) (fn : AtomV) (fin : Bool) (ix v : LaneEntry) (ixs vs : List LaneEntry),
      let i : Instr := .atomv tk st iq fn fin
      let size := if fn = .addfs then 8 else 4
      let ls := atomLanes s.core r size ix
      let as := ls.map (·.2)
      let l := locOf s x.snap .copy .atomic
      s.core.q.vq[iq] = ix :: ixs → s.core.q.wq = v :: vs → r.emptyGeo = false →
      r.rbytes.toNat % size = 0 → (fn ≠ .addfs → s.core.cp.seq < 256) →
      (fn = .addf → s.noSorting = false) →
      accessFail i .copy (atomFails s x.snap size as) (goneAt l (as.map fun a => (a, size))) s = none →
      watchFail i .copy x (wpRange x.snap 2 (wpBit .copy) (as.map fun a => (a, size))) s = none →
      (∀ b, fn = .addfs → firstBad s l (as.map fun a => (a, size)) = some b → s.core.canRetry = true →
        ∃ t, exec i s = .next t ∧ MemSame s t ∧ t.core.phase.rollback = true ∧ t.core.q = s.core.q) ∧
      ((fn = .addfs → firstBad s l (as.map fun a => (a, size)) = none) → goes i fun t => t.core.q.wq = vs ∧ t.core.q.vq[iq] = ixs ∧
        (fn ≠ .addfs → MemSame s t ∧
          let reqs := ls.map fun y => (s.core.ctl.regs.grank.toNat * 2 ^ 16 + y.1 * 256 + s.core.cp.seq,
            ({ fn := fn, addr := BitVec.ofNat 48 y.2, value := vget v.lanes y.1 0 } : AtomReq))
          if fin then t.core.cp.batch = [] ∧ t.core.cp.seq = 0 ∧
            t.core.cp.closed = s.core.cp.closed ++ [s.core.cp.batch ++ reqs]
          else t.core.cp.batch = s.core.cp.batch ++ reqs ∧ t.core.cp.seq = s.core.cp.seq + 1 ∧
            t.core.cp.closed = s.core.cp.closed) ∧
        (fn = .addfs → t.core.cp = s.core.cp ∧ ∀ sp o, (t.mem sp).read o
          = ((addScaled l x.snap.ascale[st] v.lanes ls s).mem sp).read o))) ∧
    (∀ (iq : Fin 4) (fn : AtomV) (fin : Bool), let i : Instr := .atomv tk st iq fn fin
      (s.core.q.vq[iq] = [] ∨ s.core.q.wq = [] → EngWaits i .copy s) ∧
      (s.core.q.vq[iq] ≠ [] → s.core.q.wq ≠ [] →
        (r.emptyGeo = true ∨ (fn ≠ .addfs ∧ 256 ≤ s.core.cp.seq) →
          exec i s = .next (takeTrap (illegal i 0x03 x.addr 4) s).pass) ∧
        (r.emptyGeo = false → fn = .addf → s.core.cp.seq < 256 → r.rbytes.toNat % 4 = 0 →
          s.noSorting = true → exec i s = .next (takeTrap (access 0x02 i 2 0 4) s).pass)))

/-! ### Events: remote words and ports -/

/-- R279, R317 to R320, R356, R357: how remote words end. An RSEND of the other end marks the oldest RRECV that
waits for it, ends it with STATUS 3 REASON 4 where the lengths differ, or waits itself. The data of a matched
RRECV are written, element by element under its reduction, and it ends with STATUS 0, as an RSEND does whose
data are all sent; an RSEND whose lengths differ ends with STATUS 3. The data are those that its port took in
order (R387; how they lie in the flits is the model's choice, log 83). A word past its time-out ends with STATUS
1: the time-out belongs to the tick `posted + 1024 * RTO`, whose arrivals are taken first (R357), and the record
follows once that tick has passed (log 75). Of a matched RRECV each element is then its old value or the one that
the bytes that came give (none written where one holds an uncorrectable error, the model's choice, log 88). The end
of a word that was matched is still awaited, in posting order, and ends no other word; whether an RSEND was matched,
and whether the end of an RRECV still comes, is free (log 75). A round that a reduction switch abandons ends the
words of every core of the tenant with STATUS 2: that it is those of every core is the model's choice (log 55), and
so is how a port's failure ends its words (log 54). A waiting record enters cq once it has room. -/
def Obligations.RemoteWordsEnd : Prop :=
  (∀ (s : State) (peer : BitVec 13) (tag : BitVec 16) (len : Nat) (data : List Byte),
    let words := s.core.cp.remote
    let runs (i : Instr) (eff : State → Prop) : Prop := ∃ t, exec i s = .next t ∧ eff t
    let arrives : Instr := .remoteMatch peer tag len
    let acked : Instr := .remoteEnd .send peer tag len data
    let filled : Instr := .remoteEnd .recv peer tag len data
    (words.find? (fun r => r.isFor .recv peer tag && !r.matched) = none → runs arrives fun t =>
      OnlyCore s t ∧ t.core = { s.core with cp := { s.core.cp with
        arrived := s.core.cp.arrived ++ [(peer, tag, len)] } }) ∧
    (∀ r, words.find? (fun r => r.isFor .recv peer tag && !r.matched) = some r →
      (r.len = len → runs arrives fun t => OnlyCore s t ∧ t.core = { s.core with cp := { s.core.cp with
        remote := words.map fun x => if x = r then { x with matched := true } else x } }) ∧
      (r.len ≠ len → runs arrives fun t => OnlyCore s t ∧ RemoteEnds r 3 4 s t)) ∧
    let sends := words.find? fun r => r.isFor .send peer tag
    let fills := words.find? fun r => r.isFor .recv peer tag && r.matched
    let gone (op : RemoteOp) := firstPosted (s.core.cp.gone.filter fun g => g.isFor op peer tag)
    let older (g : Remote) (live : Option Remote) : Prop := ∀ r, live = some r → g.posted ≤ r.posted
    let spends (r : Remote) (t : State) : Prop := ∀ p : Fin 32, t.sys.ports[p].got =
      if r.port = some p then s.sys.ports[p].got.drop (flitsFor r.len) else s.sys.ports[p].got
    (∀ g, gone .send = some g → older g sends → runs acked fun t => OnlyCore s t ∧ t.core = { s.core with
      cp := { s.core.cp with gone := s.core.cp.gone.erase g } }) ∧
    (∀ g, gone .recv = some g → older g fills → runs filled fun t => t.others = s.others ∧ MemSame s t ∧
      spends g t ∧ t.core = { s.core with cp := { s.core.cp with gone := s.core.cp.gone.erase g } }) ∧
    ((∀ g, gone .send = some g → ¬ older g sends) →
      (sends = none → Idles acked s) ∧
      ∀ r, sends = some r →
        (r.len ≠ len → runs acked fun t => OnlyCore s t ∧ RemoteEnds r 3 4 s t) ∧
        (r.len = len → r.sent = len → runs acked fun t => OnlyCore s t ∧ RemoteEnds r 0 0 s t) ∧
        (r.len = len → r.sent ≠ len → Idles acked s)) ∧
    ((∀ g, gone .recv = some g → ¬ older g fills) →
      (fills = none → Idles filled s) ∧
      ∀ r, fills = some r → r.len = len →
        (r.came s ≠ some data → Idles filled s) ∧
        (r.came s = some data → r.reduce = .none ∨ r.badOld s = none → runs filled fun t =>
          RemoteEnds r 0 0 s t ∧ spends r t ∧ ∀ sp a, (t.mem sp).read a = ((deliverRecv r data s).mem sp).read a) ∧
        (∀ b, r.came s = some data → r.reduce ≠ .none → r.badOld s = some b → s.core.canRetry = true →
          runs filled fun t => MemSame s t ∧ t.core.phase.rollback = true ∧ t.core.cp = s.core.cp)) ∧
    (let late := words.find? fun r => decide (r.rto ≠ 0) &&
        decide (r.posted + 1024 * r.rto.toNat < s.core.tick)
     (late = none → Idles .remoteTimeout s) ∧
     ∀ r, late = some r → runs .remoteTimeout fun t => RemoteEnds r 1 1 s t ∧
       (r.op = .send ∨ r.matched = false → OnlyCore s t) ∧
       (r.op = .send → t.core.cp.gone = s.core.cp.gone ∨ t.core.cp.gone = s.core.cp.gone ++ [r]) ∧
       (r.op = .recv → r.matched = false → t.core.cp.gone = s.core.cp.gone) ∧
       (r.op = .recv → r.matched = true →
         (t.core.cp.gone = s.core.cp.gone ++ [r] ∧ t.sys.ports = s.sys.ports ∨
           t.core.cp.gone = s.core.cp.gone ∧ t.sys.ports = (dropFlits r s).sys.ports) ∧
         (r.badOld s ≠ none → MemSame s t) ∧
         (r.badOld s = none → ∃ keep : Nat → Bool,
           let old := (readRows s (r.loc s .read) r.st 0 r.st.rows.toNat).flatten
           let new := (r.flits s).flatten.take r.len
           let part := writeRows s (r.loc s .write) r.st (partElems r.reduce keep (r.elems s.core) old new)
           ∀ sp a, (t.mem sp).read a = (part.mem sp).read a))) ∧
    (∀ (r : Record) (rs : List Record), s.core.q.cqPend = r :: rs →
      (s.core.q.cq.length < 64 → runs .cqRecord fun t => OnlyCore s t ∧ t.core = { s.core with
        q := { s.core.q with cq := s.core.q.cq ++ [r], cqPend := rs } }) ∧
      (64 ≤ s.core.q.cq.length → Idles .cqRecord s))) ∧
  (∀ (s : State) (peer : BitVec 13) (tag : BitVec 16), s.distinct →
    let tn := s.core.ctl.regs.tenant
    let named (r : Remote) : Bool := decide (r.peer = peer) && decide (r.tag = tag)
    ((s.peer tn peer).getLsbD 1 = false → Idles (.roundAbandon peer tag) s) ∧
    ((s.peer tn peer).getLsbD 1 = true → ∃ t, exec (.roundAbandon peer tag) s = .next t ∧
      ∀ k, AtCore k (fun c d => d.ctl = c.ctl ∧ d.vis = c.vis ∧ (∀ e, d.eng e = c.eng e) ∧
        (c.ctl.regs.tenant ≠ tn → d.cp = c.cp ∧ d.q = c.q) ∧
        (c.ctl.regs.tenant = tn → d.cp = { c.cp with remote := c.cp.remote.filter (!named ·) } ∧
          d.q.records = c.q.records ++ (c.cp.remote.filter named).map (·.record 2 2))) s t)) ∧
  (∀ (red : Reduce) (k : Nat) (old new : List Byte), let w := reduceSize red
    old.length = k * w → new.length = k * w →
    (reduceBytes red w k old new).length = k * w ∧ ∀ i, i < k →
      leNat (((reduceBytes red w k old new).drop (i * w)).take w)
        = reducedElem red (leNat ((old.drop (i * w)).take w)) (leNat ((new.drop (i * w)).take w)))

/-- R282, R283, R285, R323: when every rank of a gang has closed its part of a batch and the batch has its
buffers, its requests are applied in ascending order of their ids, each element written once; a batch of more
than 65,536 requests, or with two functions on one element, is refused whole with REASON 5 or 6. Either way the
part leaves every rank, one whose core has been saved already too, the word that closed it may retire, and the
batch's buffers are free. Which core consumes an uncorrectable error among the old values (log 89), and that a batch
that breaks both limits has REASON 5 (log 90), are the model's choice. -/
def Obligations.BatchesClose : Prop :=
  (∀ (s : State),
    (batchReady s = false → Idles .batchClose s) ∧
    (batchReady s = true →
      let l := sortReqs (coreReqs s s.core ++ s.gangOthers.flatMap (coreReqs s))
      let g := s.core.ctl.regs.gang
      let part (c d : Core) (reason : Nat) : Prop := d.ctl = c.ctl ∧ d.cp = { c.cp with
          closed := c.cp.closed.tail } ∧ d.copy.issued = clearBatch c.copy.issued ∧
        d.copy.queue = c.copy.queue ∧ d.q.records = c.q.records ++ (if reason = 0 then [] else
          [cqRecord 2 0 0 ((c.cp.closed.head?.map (·.length)).getD 0) 3 reason])
      let ended (t : State) (reason : Nat) : Prop := part s.core t.core reason ∧
        (∀ c ∈ s.gangOthers, ∃ d ∈ t.others, d.id = c.id ∧ part c d reason) ∧
        (∀ b, b ∈ t.sys.sort ↔ ∃ a ∈ s.sys.sort, (a.gang ≠ g ∧ b = a) ∨
          (a.gang = g ∧ a.batch ≠ 0 ∧ b = { a with batch := a.batch - 1 })) ∧
        ∀ k, s.taskOf s.core = some k → ∃ y ∈ t.sys.tasks, y.id = k.id ∧
          y.saved = k.saved.map fun c => if c.cp.closed.isEmpty then c else c.endBatch reason
      (∀ r c, l.length ≤ 65536 → mixed l = false → badReq s l = some r → reqCore s r = some c →
        c.canRetry = true → s.distinct → ∃ t, exec .batchClose s = .next t ∧ MemSame s t ∧
          t.core.cp = s.core.cp ∧ AtCore c.id.num (fun a d => d.phase.rollback = true ∧ d.cp = a.cp) s t) ∧
      (l.length ≤ 65536 → mixed l = false → badReq s l = none → ∃ t, exec .batchClose s = .next t ∧ ended t 0 ∧
        ∀ sp a, (t.mem sp).read a = ((((reqElems l).foldl (applyElem l) s).mem sp).read a)) ∧
      (65536 < l.length → ∃ t, exec .batchClose s = .next t ∧ ended t 5 ∧ MemSame s t) ∧
      (l.length ≤ 65536 → mixed l = true → ∃ t, exec .batchClose s = .next t ∧ ended t 6 ∧
        MemSame s t))) ∧
  (∀ l : List Req, (sortReqs l).Perm l ∧ (sortReqs l).Pairwise (fun a b => a.id ≤ b.id)) ∧
  (∀ (l : List Req), mixed l = true ↔ ∃ r ∈ l, ∃ r' ∈ l, r.sp = r'.sp ∧ r.off = r'.off ∧ r.fn ≠ r'.fn) ∧
  (∀ (acc : Word) (r : Req), applyReq acc r = match r.fn with
    | .addf => (fAdd acc r.value).1
    | .addi => BitVec.ofNat 32 (acc.toNat + r.value.toNat)
    | .maxf => (fMinMax true acc r.value).1
    | .minf => (fMinMax false acc r.value).1
    | .addfs => acc)

/-- R387: flits at a module port that is up. A good data flit with the sequence number expected is taken;
its acknowledgement frees kept flits; one with a bad check code asks for a retry, and after a retry was asked for is
a failed one; that a good flit out of order asks for a retry too is the model's choice (log 100). A retry request
has what is kept sent again, and counts for the oldest flit kept, once it has gone out again. A port that has failed
8 retries of one flit, which a ninth request shows at its sender (log 54), goes down: firmware, once every die has
booted (R8), logs it, and every remote word in flight on it ends with STATUS 2. A new data flit has the next
sequence number and a good check code, and is kept. -/
def Obligations.PortEvents : Prop :=
  ∀ (s : State) (port : Fin 32) (b : List Byte), s.sys.ports[port].up = true →
    let p := s.sys.ports[port]
    let ack := leNat ((b.drop 2).take 2)
    let keep := p.unacked.filter fun f => decide (2 ^ 15 ≤ (ack + 2 ^ 16 - leNat (f.take 2)) % 2 ^ 16)
    let freed := decide (keep.length < p.unacked.length)
    let a : Port := { p with unacked := keep, retries := if freed then 0 else p.retries
                             resent := p.resent && !freed }
    let lost : Port := { p with retryWanted := true, asked := false
                                failed := if p.asked then p.failed + 1 else p.failed }
    let good := leNat ((b.drop 252).take 4) = (crc32 (b.take 252)).toNat
    let type := leNat ((b.drop 4).take 1)
    (good → type = 1 → ∃ t, exec (.dataFlit port b) s = .next t ∧ OnlyPort port
      (if leNat (b.take 2) = p.rxSeq then { a with
          rxSeq := (p.rxSeq + 1) % 2 ^ 16, got := p.got ++ [(b.drop 8).take 244], retryWanted := false
          asked := false, failed := 0 }
        else { a with retryWanted := true }) s t) ∧
    (good → type = 0 → ∃ t, exec (.idleFlit port b) s = .next t ∧ OnlyPort port a s t) ∧
    (good → type = 2 → ∃ t, exec (.retryRequest port b) s = .next t ∧
      OnlyPort port { a with resend := keep, resent := false, retries :=
        if keep ≠ [] ∧ (a.retries = 0 ∨ a.resent = true) then a.retries + 1 else a.retries } s t) ∧
    (∀ i ty, (i, ty) ∈ [(Instr.dataFlit port b, 1), (.idleFlit port b, 0), (.retryRequest port b, 2)] →
      ¬ (good ∧ type = ty) → ∃ t, exec i s = .next t ∧ OnlyPort port lost s t) ∧
    (p.retries < 9 → p.failed < 8 → Idles (.portDown port) s) ∧
    (9 ≤ p.retries ∨ 8 ≤ p.failed → s.distinct → ∃ t, exec (.portDown port) s = .next t ∧
      t.sys.ports[port] = { p with up := false, unacked := [], resend := [], got := t.sys.ports[port].got } ∧
      (∀ k : Fin 32, k ≠ port → t.sys.ports[k] = s.sys.ports[k]) ∧
      t.sys.mlog.length = s.sys.mlog.length + (if s.booted then 1 else 0) ∧
      let rides (r : Remote) : Bool := decide (r.port = some port) && (decide (r.op = .send) || r.matched)
      ∀ k, AtCore k (fun c d => d.ctl = c.ctl ∧ d.vis = c.vis ∧ (∀ e, d.eng e = c.eng e) ∧
        d.cp = { c.cp with remote := c.cp.remote.filter (!rides ·) } ∧
        d.q.records = c.q.records ++ (c.cp.remote.filter rides).map (·.record 2 7)) s t) ∧
    (∀ pay : List Byte, pay.length ≤ 244 → p.txSeq < 2 ^ 16 →
      let q := p.send pay
      q.unacked = p.unacked ++ [q.wire] ∧ q.txSeq = (p.txSeq + 1) % 2 ^ 16 ∧ q.wire.length = 256 ∧
        leNat (q.wire.take 2) = p.txSeq ∧ leNat ((q.wire.drop 4).take 1) = 1 ∧
        (q.wire.drop 8).take pay.length = pay ∧
        leNat ((q.wire.drop 252).take 4) = (crc32 (q.wire.take 252)).toNat)

/-! ### Events: the host -/

/-- R280, R331, R332, R334, R345, R381 to R383, R386, R389: what the host's accesses do to the part: kicks (behind the
events of the queue that arrived before it, and waiting until every die has booted) and ACK, the writes of a tenant's page (one that names no register, or comes
while it may not, changes nothing; the offsets of KICK, QCFG, ACK, ERCFG and the mailboxes have rows of their own), the
mailboxes of the tenant's cores (MBOUT returns the oldest entry, or 0), CXL.mem accesses, the link. While a die runs its
ROM, page 0 is that die's image window and has no register (which die's, and where its status word lies, log 92).
That QCFG keeps a LOG2N of 0 to 3, and ERCFG one outside 7 to 20, as it is written is the model's choice (log 93). -/
def Obligations.HostAccesses : Prop :=
  ∀ (s : State) (tn : Fin 16) (q : Fin 8),
    let x := s.queue tn q
    let ten := s.sys.tenants[tn]
    let sets (y : Tenant) (t : State) : Prop :=
      OnlySys { s.sys with tenants := s.sys.tenants.set tn.val y tn.isLt } s t
    let registers (P : Prop) : Prop := tn ≠ 0 ∨ s.romDie = none → P
    registers (∀ seq : BitVec 32, ∃ t, exec (.kick tn q seq) s = .next t ∧ OnlyQueue tn q
      (if s.booted = false ∨ s.noEvents tn q = false then { x with events := x.events
          ++ (if x.timerDue (s.homeTick tn) then [.timer] else []) ++ [.kick seq] }
        else if x.en = false ∨ 2 ^ 31 ≤ (seq - x.kicked).toNat then x else { x with
          kicked := seq, rereads := if x.state = .running then x.rereads else 0
          state := if x.state = .error then .error else if x.state = .waiting then .waiting else .running }) s t) ∧
    registers (∃ t, exec (.ack tn q) s = .next t ∧ OnlyQueue tn q (if x.state = .error then
      { x with state := .idle, err := 0, cause := 0, ovf := false, rereads := 0, timer := none, waitEv := none }
      else x) s t) ∧
    registers (∀ v : DWord,
      (x.state = .idle → x.en = false → ∃ t y, exec (.qcfgWrite tn q v) s = .next t ∧
        OnlyQueue tn q y s t ∧ y.log2n = v.extractLsb' 0 4 ∧ y.order = v.getLsbD 4 ∧
        y.prio = v.extractLsb' 5 2 ∧ y.en = v.getLsbD 7 ∧ y.qbase = x.qbase ∧ y.qsave = x.qsave ∧
        y.next = (if v.getLsbD 7 then 1 else x.next) ∧ y.kicked = (if v.getLsbD 7 then 0 else x.kicked)) ∧
      (x.state ≠ .idle ∨ x.en = true → ∃ t, exec (.qcfgWrite tn q v) s = .next t ∧ OnlyQueue tn q x s t) ∧
      (∃ t, exec (.ercfgWrite tn v) s = .next t ∧ sets (if ten.eren then ten else { ten with
        erlog2n := v.extractLsb' 0 5, eren := v.getLsbD 5
        erhead := if v.getLsbD 5 then 0 else ten.erhead
        ertail := if v.getLsbD 5 then 0 else ten.ertail
        erlost := if v.getLsbD 5 then 0 else ten.erlost }) t) ∧
      (∃ t, exec (.hostRegisterWrite tn (BitVec.ofNat 16 (64 * q.val)) v) s = .next t ∧
        OnlyQueue tn q (if x.state = .idle ∧ x.en = false then
          { x with qbase := v &&& 0x0000FFFFFFFFFF00 } else x) s t) ∧
      (∃ t, exec (.hostRegisterWrite tn (BitVec.ofNat 16 (64 * q.val + 0x20)) v) s = .next t ∧
        OnlyQueue tn q { x with qsave := v &&& 0x0000FFFFFFE00000 } s t) ∧
      (∃ t, exec (.hostRegisterWrite tn 0x200 v) s = .next t ∧
        sets (if ten.eren then ten else { ten with erbase := v &&& 0x0000FFFFFFFFF000 }) t) ∧
      (∃ t, exec (.hostRegisterWrite tn 0x218 v) s = .next t ∧
        sets { ten with ertail := v.extractLsb' 0 32 } t) ∧
      (∀ off : BitVec 16, let o := off.toNat
        ¬ (o < 0x200 ∧ o % 64 ∈ [0x00, 0x08, 0x10, 0x18, 0x20]) → o ∉ [0x200, 0x208, 0x210, 0x218] →
        ¬ (0x400 ≤ o ∧ o < 0xC00) → Idles (.hostRegisterWrite tn off v) s)) ∧
    (∀ (d : Fin 4) (seq : BitVec 32) (v : DWord) (c : Fin 128) (off : BitVec 16), tn = 0 → s.romDie = some d →
      let shows (i : Instr) (o : Nat) (v : DWord) : Prop := ∃ t, exec i s = .next t ∧
        OnlySys { s.sys with die := t.sys.die } s t ∧
        (∀ e : Fin 4, t.sys.die[e] = { s.sys.die[e] with window := t.sys.die[e].window }) ∧
        (∀ e : Fin 4, e ≠ d → t.sys.die[e].window = s.sys.die[e].window) ∧
        (o + 8 ≤ 0xFFF8 → (t.sys.die[d].window.drop o).take 8 = leBytes 8 v.toNat)
      shows (.kick tn q seq) (64 * q.val + 0x10) (seq.zeroExtend 64) ∧
      shows (.ack tn q) (64 * q.val + 0x18) 0x1000000 ∧ shows (.qcfgWrite tn q v) (64 * q.val + 8) v ∧
      shows (.ercfgWrite tn v) 0x208 v ∧ shows (.hostRegisterWrite tn off v) off.toNat v ∧
      shows (.mbin tn c v) (0x408 + 16 * c.val) v ∧ shows (.dropClear tn c) (0x408 + 16 * c.val) 0x10000 ∧
      let w := leNat ((s.sys.die[d].window.drop (0x400 + 16 * c.val)).take 8)
      ∃ t, exec (.mbout tn c) s = .next t ∧ OnlySys { s.sys with hostRead := BitVec.ofNat 64 w } s t) ∧
    registers (∀ (c : Fin 128) (v : DWord), ten.cores.contains c = true →
      (∃ t, exec (.mbout tn c) s = .next t ∧ t.sys = { s.sys with hostRead := t.sys.hostRead } ∧
        AtCore c.val (fun k d => t.sys.hostRead = k.q.mboxOut.headD 0 ∧ d =
        { k with q := { k.q with mboxOut := k.q.mboxOut.tail } }) s t) ∧
      (∃ t, exec (.mbin tn c v) s = .next t ∧ t.sys = s.sys ∧ AtCore c.val (fun k d => d =
        { k with q := if k.q.mboxIn.length < 16 then { k.q with mboxIn := k.q.mboxIn ++ [v] }
          else { k.q with mboxDrop := true } }) s t) ∧
      ∃ t, exec (.dropClear tn c) s = .next t ∧ t.sys = s.sys ∧ AtCore c.val (fun k d => d =
        { k with q := { k.q with mboxDrop := false } }) s t) ∧
    registers (∀ (c : Fin 128) (v : DWord), ten.cores.contains c = false → Idles (.mbin tn c v) s ∧
      Idles (.dropClear tn c) s ∧
      ∃ t, exec (.mbout tn c) s = .next t ∧ OnlySys { s.sys with hostRead := 0 } s t) ∧
    (∀ (pa n : Nat) (data : List Byte), pa < 8 * 2 ^ 36 → pa % 2 ^ 36 + n ≤ 48 * 2 ^ 30 →
      (∃ t, exec (.hostMemAccess true pa n data) s = .next t ∧ t.core = s.core ∧
        MemBut .hbm pa data.length s t ∧
        ∀ j, j < data.length → (t.mem .hbm).read (pa + j) = data.getD j 0) ∧
      ∃ t, exec (.hostMemAccess false pa n data) s = .next t ∧ t.core = s.core ∧ MemSame s t ∧
        t.sys.poison = s.badAt .hbm pa n ∧
        t.sys.mlog.length = s.sys.mlog.length + (if s.badAt .hbm pa n && s.booted then 1 else 0)) ∧
    (∀ (w : Bool) (pa n : Nat) (data : List Byte), 8 * 2 ^ 36 ≤ pa ∨ 48 * 2 ^ 30 < pa % 2 ^ 36 + n →
      Idles (.hostMemAccess w pa n data) s) ∧
    (∀ rate lanes : Nat, rate ≤ 128 → (lanes = 16 ∨ lanes = 8 ∨ lanes = 4) →
      ∃ t, exec (.linkRateChange rate lanes) s = .next t ∧
        OnlySys { s.sys with linkRate := rate, linkLanes := lanes } s t) ∧
    (∀ rate lanes : Nat, 128 < rate ∨ (lanes ≠ 16 ∧ lanes ≠ 8 ∧ lanes ≠ 4) →
      Idles (.linkRateChange rate lanes) s)

/-- R332, R334, R336, R337, R339, R343, R344, R384: the entries of a command queue that runs, once every die
has booted. An entry it cannot go on from stops it with its ERR and a record of kind 18: that such a stop makes a
record, and the SEQ and the other fields it names, is the model's choice (log 57). -/
def Obligations.ListEntries : Prop :=
  ∀ (s : State) (tn : Fin 16) (q : Fin 8) (w : Bool), (s.queue tn q).live = true → s.booted = true →
    let x := s.queue tn q
    let passed (n : Nat) : HostQueue := match x.pos with
      | some a => { x with pos := some (a + BitVec.ofNat 64 (256 * n)), rereads := 0 }
      | none => { x with next := x.next + BitVec.ofNat 32 n, rereads := 0 }
    let ten := s.sys.tenants[tn]
    let lost : Bool := ten.eren && decide ((ten.erhead - ten.ertail).toNat = 2 ^ ten.erlog2n.toNat)
    let stops (err : BitVec 4) (t : State) : Prop := t.core = s.core ∧ t.others = s.others ∧
      t.queue tn q = { x with
        state := .error, err := err, cause := 0, waitEv := none, ovf := x.ovf || lost } ∧
      (ten.eren = true → lost = false → t.sys.tenants[tn].erhead = ten.erhead + 1 ∧
        ((s.mem .host).wf = true → ∀ j, j < 12 → (t.mem .host).read
          (ten.erbase.toNat + 32 * (ten.erhead.toNat % 2 ^ ten.erlog2n.toNat) + j)
            = ([18, 0, BitVec.ofNat 8 q.val, err.zeroExtend 8, 0, 0, 0, 0] ++ leBytes 4 x.next.toNat).getD j 0))
    let runs (i : Instr) (eff : State → Prop) : Prop := ∃ t, exec i s = .next t ∧ eff t
    (∀ (ev : BitVec 16) (clr : Bool),
      (s.sys.tenants[tn].signalled ev.toNat = true ∨ x.waitEv = some (ev, clr) →
        runs (.listWait tn q w ev clr) fun t =>
        t.queue tn q = { passed 1 with waitEv := none } ∧
        ∀ k, t.sys.tenants[tn].signalled k
          = (s.sys.tenants[tn].signalled k && !(clr && decide (k = ev.toNat)))) ∧
      (s.sys.tenants[tn].signalled ev.toNat = false → x.waitEv = none →
        runs (.listWait tn q w ev clr) fun t =>
          OnlyQueue tn q { x with state := .waiting, waitEv := some (ev, clr) } s t)) ∧
    (∀ (ev : BitVec 16) (addr addend : DWord) (sp : Space) (off : Nat), addr ≠ 0 →
      listWord s tn .atomic addr = some (sp, off) → runs (.listSignal tn q w ev addr addend) fun t =>
        t.queue tn q = passed 1 ∧ MemBut sp off 8 s t ∧ ((s.mem sp).wf = true →
          leValue (t.mem sp) off 8 = (leValue (s.mem sp) off 8 + addend.toNat) % 2 ^ 64) ∧
        (ev ≠ 0xFFFF → t.sys.tenants[tn].signalled ev.toNat = true)) ∧
    (∀ (ev : BitVec 16) (addr addend : DWord), addr ≠ 0 → listWord s tn .atomic addr = none →
      runs (.listSignal tn q w ev addr addend) (stops 6)) ∧
    (∀ (n : BitVec 16) (addr : DWord), listWord s tn .read addr = none →
      runs (.listSkipif tn q w n addr) (stops 6)) ∧
    (∀ (ev : BitVec 16) (addend : DWord), runs (.listSignal tn q w ev 0 addend) fun t => MemSame s t ∧
      t.queue tn q = passed 1 ∧ (ev ≠ 0xFFFF → t.sys.tenants[tn].signalled ev.toNat = true) ∧
      (ev = 0xFFFF → OnlyQueue tn q (passed 1) s t)) ∧
    (∀ (n : BitVec 16) (addr : DWord) (sp : Space) (off : Nat), listWord s tn .read addr = some (sp, off) →
      (s.mem sp).wf = true → runs (.listSkipif tn q w n addr) fun t =>
        OnlyQueue tn q (passed (if leValue (s.mem sp) off 8 = 0 then 1 else 1 + n.toNat)) s t) ∧
    (∀ (target : DWord),
      (x.pos.isSome = true → runs (.listJump tn q w target) fun t =>
        OnlyQueue tn q { x with pos := some target, rereads := 0 } s t) ∧
      (x.pos = none → runs (.listJump tn q w target) (stops 3)) ∧
      (x.calls.length < 4 → runs (.listCall tn q w target) fun t => OnlyQueue tn q { passed 1 with
        pos := some target, calls := x.pos.map (· + 256) :: x.calls } s t) ∧
      (4 ≤ x.calls.length → runs (.listCall tn q w target) (stops 3))) ∧
    (∀ p ps, x.calls = p :: ps → runs (.listReturn tn q w) fun t =>
      OnlyQueue tn q { x with pos := p, calls := ps, rereads := 0 } s t) ∧
    (x.calls = [] → runs (.listReturn tn q w) (stops 3)) ∧
    (runs (.listFence tn q w) fun t => t.queue tn q = if x.launched = [] then passed 1 else x) ∧
    (runs (.listEnd tn q w) fun t => OnlyQueue tn q { passed 1 with
      state := .idle, pos := none, calls := [] } s t) ∧
    (∀ (seq : BitVec 32) (f : LaunchFields),
      (residencyOk s tn q f = true → runs (.launch tn q seq w f) fun t => MemSame s t ∧
        t.queue tn q = { passed 1 with hold := some (s.sys.nextTask, w)
                                       launched := x.launched ++ [s.sys.nextTask] } ∧
        ∃ k : Task, t.sys.tasks = s.sys.tasks ++ [k] ∧ k.id = s.sys.nextTask ∧ k.tn = tn ∧ k.q = q ∧
          k.seq = seq ∧ k.f = f ∧ k.state = .waiting ∧ k.w = w ∧ k.late = none ∧
          k.img = (s.slot f.slot.toNat).bind (·.image) ∧ k.nosort = s.sys.nosort ∧
          k.after = ((passed 1).next, (passed 1).pos, x.calls)) ∧
      (residencyOk s tn q f = false → runs (.launch tn q seq w f) (stops 2))) ∧
    (let b := readEntry s tn q
     (x.timer ≠ none → Idles (.entryReread tn q) s) ∧
     (x.timer = none → seqOk x b = false → runs (.entryReread tn q) fun t => OnlyQueue tn q
       (if x.rereads < 16 then { x with rereads := x.rereads + 1, timer := some (s.homeTick tn + 256) }
         else { x with state := .parked, rereads := 0, timer := none }) s t) ∧
     (x.timer = none → seqOk x b = true → entryInstr tn q b = none → runs (.entryReread tn q) (stops 1)) ∧
     (x.timer = none → seqOk x b = true → entryInstr tn q b ≠ none → runs (.entryReread tn q) fun t =>
       OnlyQueue tn q { x with rereads := 0 } s t))

/-! ### Events: tasks -/

/-- R264, R298, R326, R327, R329, R340, R341, R342, R346 to R349, R358: a task's gang starts at its slot's entry
point with GTICK 0 and the identity registers set; in fixed order its START tick has judged whether it takes
0x10. It completes when every core has retired, or is saved when they were stopped; a report of its handlers
aborts it and stops its queue with ERR 4 at the entry after its LAUNCH; a request stops its cores on one gang
tick, unless its PRIO is 3. A saved task's cores are restored and released from RFT on one gang tick, as are
those of a task that the debugger resumes; either may be discarded. A task that stands stopped for a debug event
is reported to the host as one (R358). Where the code lies (log 18), that an abort leaves memory as the acts before
left it (log 60), the reports that carry EADDR (log 79), what a resumption restores beside the record (log 15, 61),
that with the batch buffers withheld it waits (log 98), and the gang tick that firmware counts from and when a stop
that meets a stall comes (log 95) are the model's choice. -/
def Obligations.TaskEvents : Prop :=
  ∀ (s : State) (k : Nat) (t : Task), s.task k = some t → s.distinct →
    let runs (i : Instr) (eff : State → Prop) : Prop := ∃ u, exec i s = .next u ∧ eff u
    let becomes (st : TaskState) (u : State) : Prop := (u.task k).map (·.state) = some st
    let signals (u : State) : Prop :=
      t.f.event ≠ 0xFFFF → u.sys.tenants[t.tn].signalled t.f.event.toNat = true
    let idle (u : State) : Prop := ∀ c ∈ t.cores, AtCore c.val (fun a d =>
      d.ctl.run = .idle ∧ d.bench = a.bench ∧ d.tick = a.tick) s u
    let x := s.queue t.tn t.q
    (unjudged s = some t → ∃ u, step s = .next u ∧ u.core = s.core ∧ (u.task k).map (·.late) = some (some
      (prevOpen s t && (s.imageOf t).any fun img => coresFree s (shapeCores img)))) ∧
    (∀ img : SlotImage, s.imageOf t = some img → startReady s t = true → runs (.gangStart k) fun u =>
      becomes .running u ∧ (u.task k).map (·.cores) = some (shapeCores img) ∧
      ∀ (r : Nat) (c : Fin 128), (shapeCores img)[r]? = some c → AtCore c.val (fun _ d =>
        d.ctl.run = .running ∧ d.ctl.bank1 = false ∧ d.gtick = 0 ∧ d.ctl.regs.grank = BitVec.ofNat 64 r ∧
        d.ctl.regs.gsize = BitVec.ofNat 64 (shapeCores img).length ∧ d.ctl.regs.tenant = t.tn ∧
        d.ctl.regs.task = t.seq ∧ (∀ i, d.g i = 0) ∧ d.ctl.code = img.code ∧
        d.ctl.pcq.q0 = { addr := codeAt img + BitVec.ofNat 48 img.entry, nul := false } ∧
        d.phase.snap.isSome = true ∧ (d.ctl.posted.map (·.cause)
          = if x.order = true ∧ t.late = some true then some 0x10 else none)) s u) ∧
    (startReady s t = false → Idles (.gangStart k) s) ∧
    (taskOver s t = true → (t.saved = [] → runs (.taskComplete k) fun u => becomes .done u ∧
        k ∉ (u.queue t.tn t.q).launched ∧ signals u ∧ idle u) ∧
      (t.saved ≠ [] → runs (.taskComplete k) fun u => becomes .saved u ∧ idle u)) ∧
    (∀ (c : BitVec 6) (info : DWord) (a : VAddr), abortReport s t = some (c, info, a) → t.onCores = true →
      runs (.taskAbort k) fun u => becomes .aborted u ∧ (u.task k).map (·.cause) = some c ∧
        (u.task k).map (·.einfo) = some info ∧ (u.task k).map (·.eaddr) = some a ∧
        (u.queue t.tn t.q).state = .error ∧ (x.state ≠ .error → (u.queue t.tn t.q).err = 4 ∧
          (u.queue t.tn t.q).cause = c ∧ (u.queue t.tn t.q).next = t.after.1 ∧
          (u.queue t.tn t.q).pos = t.after.2.1 ∧ ∀ j y, s.task j = some y → y.tn = t.tn → y.q = t.q → k < j →
            y.state = .waiting → (u.task j).map (·.state) = some .discarded) ∧
        u.sys.tenants[t.tn].reports = s.sys.tenants[t.tn].reports ++ [(t.seq, c, info, a)] ∧
        k ∉ (u.queue t.tn t.q).launched ∧ signals u ∧
        ∀ c ∈ t.cores, AtCore c.val (fun a d => d.ctl.run = .idle ∧ d.bench = a.bench) s u) ∧
    (s.booted = false ∨ s.noEvents t.tn t.q = false → runs (.preemptRequest k) (OnlyQueue t.tn t.q
      (if x.events.contains (.preempt k) then x else { x with events := x.events
        ++ (if x.timerDue (s.homeTick t.tn) then [.timer] else []) ++ [.preempt k] }) s)) ∧
    (s.booted = true → s.noEvents t.tn t.q = true → t.state = .running → prioOf s t ≠ 3 →
      runs (.preemptRequest k) fun u =>
      becomes .stopping u ∧ ∃ g,
      ((∃ c ∈ s.coresOf t, c.ctl.run = .running) → ∃ c ∈ s.coresOf t, c.ctl.run = .running ∧
        g = c.gtick + 8) ∧ ∀ c ∈ t.cores, AtCore c.val (fun a d => a.ctl.run = .running →
          a.gtick + 8 ≤ g ∧ d = { a with stall := { a.stall with
            preempt := some (a.stall.preempt.getD (if a.stall.stopped then (a.gtick, a.tick)
              else (a.stall.stopAt.getD g, a.tick + 8))) } }) s u) ∧
    (s.booted = true → s.noEvents t.tn t.q = true → prioOf s t = 3 ∨ t.state ≠ .running → Idles (.preemptRequest k) s) ∧
    (t.state = .saved → coresFree s t.cores = true → inPlacement s t.cores = true → portsFree s t = true →
      s.booted = true → s.sys.thermal = .normal → t.nosort = true ∨ s.sys.nosort = false →
      (∀ r ∈ t.saved, derivedFail r = none) →
      (∀ r ∈ t.saved, r.ctl.regs.badEpc = false) → runs (.taskResume k) fun u => becomes .running u ∧
        ∃ v, ∀ c ∈ t.cores, AtCore c.val (fun a d =>
          (t.saved.find? (fun r => decide (r.id = a.id)) = none → d.ctl.run = .retired) ∧
          ∀ r, t.saved.find? (fun r => decide (r.id = a.id)) = some r →
            d.ctl.run = .running ∧ d.ctl.bank1 = true ∧ d.ctl.b0 = r.ctl.b0 ∧ d.bench = r.bench ∧
            d.mx = r.mx ∧ d.vec = r.vec ∧ d.ctl.regs = r.ctl.regs ∧ d.tick = a.tick ∧
            d.ctl.arrival = some (.rft r.heldTick (some v)) ∧ r.heldTick + 64 ≤ v) s u) ∧
    (t.state = .saved → (coresFree s t.cores = false ∨ inPlacement s t.cores = false ∨ portsFree s t = false ∨
      s.booted = false ∨ s.sys.thermal ≠ .normal ∨ (t.nosort = false ∧ s.sys.nosort = true)) →
      Idles (.taskResume k) s) ∧
    (t.state = .saved → runs (.taskDiscard k) fun u => becomes .discarded u ∧ MemSame s u ∧
      (u.task k).map (·.saved) = some [] ∧ k ∉ (u.queue t.tn t.q).launched ∧
      ∀ b ∈ u.sys.sort, b.gang ≠ t.gang) ∧
    (t.state ≠ .saved → debugStopped s t = true → runs (.taskDiscard k) fun u => becomes .discarded u ∧
      k ∉ (u.queue t.tn t.q).launched ∧ idle u) ∧
    (∀ es : List QEvent, s.turn = .list t.tn t.q → s.booted = true → noticed s = none → dueEvent s = none →
      s.eventsOf t.tn t.q = .debug k :: es → debugStopped s t = true → ∃ u, step s = .next u ∧
        (u.task k).map (·.debugged) = some true ∧ ∃ c ∈ s.coresOf t, c.debugging = true ∧
          u.sys.tenants[t.tn].debugs = s.sys.tenants[t.tn].debugs
            ++ [(t.seq, c.ctl.regs.ecause, c.ctl.regs.einfo, c.ctl.regs.eaddr)]) ∧
    (debugStopped s t = true → (∀ c ∈ s.coresOf t, (c.ctl.bank1 = true ∨ c.ctl.run = .retired) ∧
        (c.ctl.run = .running → c.ctl.regs.badEpc = false)) →
      runs (.debugResume k) fun u => ∃ v, ∀ c ∈ t.cores, AtCore c.val (fun a d => a.ctl.run = .running →
        ∃ h, d.ctl.arrival = some (.rft h (some v)) ∧ h + 64 ≤ v ∧ d.ctl.regs = a.ctl.regs ∧
          d.ctl.bank1 = true ∧ d.ctl.b0 = a.ctl.b0 ∧ d.gtick = a.gtick ∧
          (a.atRft = false → h = a.gtick)) s u)

/-! ### Events: time -/

/-- R93, R94, R149, R150, R254, R256, R290, R292 to R297, R312, R326, R344, R376, R377: the events of gang
timing. A barrier lets every core of the gang leave on one gang tick, a mark with GTICK 64 above the largest
held, or, while the gang stands stopped, once it resumes; stalls begin and end; what runs out traps; transfers
land in empty slots; a rolled-back phase starts again from its snapshot, its held copies issuing again; a
replay's XQ and WAIT entries issue once their DELTA has passed, and one that holds an uncorrectable error before the
first issue makes JIG.PLAY refuse. That a barrier's gang leaves on the tick after the highest counted (log 4), which
delay a slip limit reports (log 50), the ORIGIN of a landing in a full slot (log 51), and that a mark is not overdue
for a core in its handler (log 99) are the model's choice. -/
def Obligations.GangTiming : Prop :=
  ∀ (s : State),
    let runs (i : Instr) (eff : State → Prop) : Prop := ∃ t, exec i s = .next t ∧ eff t
    let every (r : Core → Core → Prop) (t : State) : Prop := r s.core t.core ∧
      ∀ c ∈ s.gangOthers, ∃ d ∈ t.others, d.id = c.id ∧ r c d
    let takes (c : TrapRec) (t : State) : Prop := Handles c s.core.ctl.pcq s t
    let free : Prop := inUser s = true
    (∀ id : Fin 16, barReady s id = true → runs (.barrierRelease id) fun t => MemSame s t ∧
      ∃ g, (∀ c ∈ s.gang, c.gtick < g) ∧ (∃ c ∈ s.gang, g = c.gtick + 1) ∧ every (fun c d =>
        d = { c with ctl := { c.ctl with arrival := some (.bar id (some g)) } }) t) ∧
    (∀ m : BitVec 16, plumbReady s m = true → ∃ v, (∀ c ∈ s.gang, c.heldTick + 64 ≤ v) ∧
      (∃ c ∈ s.gang, v = c.heldTick + 64) ∧
      (s.core.stall.stopped = false → runs (.plumbRelease m) fun t => MemSame s t ∧ every (fun c d =>
        d = { c with ctl := { c.ctl with arrival := some (.plumb m c.heldTick (some v)) } }) t) ∧
      (s.core.stall.stopped = true → runs (.plumbRelease m) fun t => MemSame s t ∧ every (fun c d =>
        d = { c with stall := { c.stall with deferred := some v } }) t)) ∧
    (s.core.ctl.run = .running → runs .plumbOverdue fun t => MemSame s t ∧
      every (fun c d => c.ctl.run = .running → d.ctl.posted = if c.ctl.bank1 then c.ctl.posted else
        some { cause := 0x0F, info := BitVec.ofNat 64 (c.overdueId + 2 ^ 16) }) t) ∧
    (s.core.stopDue = true → runs .gangStall fun t => MemSame s t ∧ RegSame [] [] s t ∧
      t.core.stall.stopped = true ∧ t.core.gtick = s.core.gtick) ∧
    (resumeReady s = true → runs .stallResume fun t => MemSame s t ∧
      every (fun c d => c.stall.stopped = true → d.stall.resumeAt = some (c.tick + 16)) t) ∧
    (∀ k, s.core.stall.resumeAt = some k → k ≤ s.core.tick → s.core.stall.stopped = true →
      s.core.ctl.bank1 = false → runs .stallResume fun t => MemSame s t ∧
        every (fun c d => c.stall.stopped = true → c.ctl.bank1 = false →
          d.stall.stopped = false ∧ d.stall.delays = [] ∧ d.stall.slip = s.core.stall.slip ∧
          d.gtick = c.gtick ∧ (c.stall.deferred = none → d.ctl = c.ctl) ∧
          ∀ v m h l, c.stall.deferred = some v → c.ctl.arrival = some (.plumb m h l) →
            d.ctl = { c.ctl with arrival := some (.plumb m h (some v)) }) t) ∧
    (free → s.core.slipDue = true →
      (∀ d i, s.core.heldBlock = some (d, i) → runs .slipLimit (takes
        { cause := 0x0B, info := BitVec.ofNat 64 (i % 2 ^ 12 + d.tick i % 2 ^ 32 * 2 ^ 16)
          addr := BitVec.ofNat 48 (d.blockAddr i), origin := 5 })) ∧
      (∀ x k, s.core.heldBlock = none → s.core.headLand = some (x, k) → x.since.isSome = true →
        s.core.stall.lateSlot = some k → runs .slipLimit (takes
          { cause := 0x0E, info := BitVec.ofNat 64 (k.val + 2 ^ 12 + 2 ^ 16), addr := x.addr
            origin := 1 })) ∧
      (s.core.heldBlock = none → (∀ x k, s.core.headLand = some (x, k) → x.since.isSome = true →
          s.core.stall.lateSlot ≠ some k) → runs .slipLimit (takes { cause := 0x0E, info := BitVec.ofNat 64 (2 ^ 16) }))) ∧
    (free → s.core.deadDue = true → runs .deadStop
      (takes { cause := 0x0F, info := BitVec.ofNat 64 (2 ^ 17) })) ∧
    (∀ f, nextFlight s.core.land.flights = some f → f.ready s.core = true →
      (s.core.land.slot[f.slot] = none → runs .slotLanding fun t => MemSame s t ∧ RegSame [] [] s t ∧
        t.core.land.flights = s.core.land.flights.erase f ∧ t.core.stall.lateSlot ≠ some f.slot ∧
        ∀ k : Fin 64, t.core.land.slot[k] = if k = f.slot then some (f.fmt, f.data) else s.core.land.slot[k]) ∧
      (free → s.core.land.slot[f.slot].isSome = true → runs .slotLanding fun t =>
        takes { cause := 0x0E, info := BitVec.ofNat 64 (f.slot.val + 2 ^ 13) } t ∧
        t.core.land.flights = s.core.land.flights.erase f ∧
        t.core.land.slot[f.slot] = s.core.land.slot[f.slot])) ∧
    (∀ x k, s.core.lateLand = some (x, k) →
      (free → x.snap.strict = true → runs .lateLanding (takes { cause := 0x0E, addr := x.addr, origin := 1
                                                                info := BitVec.ofNat 64 (k.val + 2 ^ 12) })) ∧
      (x.snap.strict = false → runs .lateLanding fun t => MemSame s t ∧ RegSame [] [] s t ∧
        t.core.stall.lateSlot = some k ∧ BeginsDelay .landing s t)) ∧
    (free → s.preemptDue = true → runs .gangStop fun t => t.core.stall.preempt = none ∧
      takes { cause := 0x16, info := BitVec.ofNat 64 (2 ^ 33), origin := 7 } t) ∧
    (∀ x, s.core.phase.snap = some x → s.core.rollsBack = true →
      let u := s.upd fun c => (c.discard.restoreSnap x).startRetry
      let rs := refetches x.vis x.srcs
      let src := rs.map fun r => (r.1, r.2.2)
      lowest (failures (locate u (.eng .copy) .read) 0 src) = none →
      goneAt (locate u (.eng .copy) .read) src = none →
      firstBad u (locate u (.eng .copy) .read) src = none → runs .phaseResume fun t =>
        t.core.ctl.b0 = x.b0 ∧ t.core.ctl.pcq = x.pcq ∧ t.core.vis.st = x.vis.st ∧ t.core.q.pq = x.pq ∧
        t.core.tok = x.tok ∧ t.core.cp.hold = [] ∧ t.core.ctl.regs.retried = true ∧
        t.core.phase.rollback = false ∧ (∀ e, (t.core.eng e).issued = [] ∧ (t.core.eng e).queue
          = if e = .copy then (s.core.cp.hold.filter (·.carried)).map (QItem.word ·.entry) else []) ∧
        ∀ sp a, (t.mem sp).read a = ((rs.foldl refetchHalf u).mem sp).read a) ∧
    (runs .valueLanded fun t => CtlFrame [] [] s t ∧ t.core.ctl.awaiting = false ∧
      t.core.tick = s.core.tick + 1 ∧ t.core.ctl.pcq = s.core.ctl.pcq) ∧
    (∀ (tn : Fin 16) (ev : BitVec 16), runs (.eventWake tn ev) fun t => MemSame s t ∧
      (∀ k, t.sys.tenants[tn].signalled k = (s.sys.tenants[tn].signalled k || decide (k = ev.toNat))) ∧
      (s.core.ctl.regs.tenant = tn → s.core.ctl.arrival = some (.waitev ev.toNat false) →
        t.core.ctl.arrival = some (.waitev ev.toNat true)) ∧
      ∀ c ∈ s.others, c.ctl.regs.tenant = tn → c.ctl.arrival = some (.waitev ev.toNat false) →
        ∃ d ∈ t.others, d.id = c.id ∧ d.ctl.arrival = some (.waitev ev.toNat true)) ∧
    (∀ (p : Replay) (k : Nat), s.core.jig.play = some p → p.live = true →
      (∀ e, nextEntry s.core.jig.jig[p.jig].entries p.next = (k, some e) →
        (s.core.gtick < p.since + entBits e 4 16 → runs .jigEntryIssue fun t => RegSame [] [] s t ∧
          MemSame s t ∧ t.core.q = s.core.q ∧ t.core.jig.play = some { p with next := k }) ∧
        (p.since + entBits e 4 16 ≤ s.core.gtick →
          s.badAt (.jig s.core.id.num) (p.jig.val * 16384 + k) 1 = false →
          let issues (t : State) : Prop := RegSame [] [] s t ∧ MemSame s t ∧
            t.core.jig.play = some { p with next := k + 1, since := s.core.gtick }
          (entKind e = 7 → s.core.q.xq.length < 16 → runs .jigEntryIssue fun t => issues t ∧
            t.core.q = { s.core.q with
              xq := s.core.q.xq ++ [{ value := e.extractLsb' 64 64, pushed := s.core.tick }] }) ∧
          (entKind e = 8 → runs .jigEntryIssue fun t => issues t ∧ t.core.q = s.core.q)) ∧
        (p.since + entBits e 4 16 ≤ s.core.gtick →
          s.badAt (.jig s.core.id.num) (p.jig.val * 16384 + k) 1 = true →
          (s.core.jig.jig[p.jig].entries.take k).all isStop = true → s.core.ctl.nest = none → noStep s = true →
          runs .jigEntryIssue fun t => t.core.jig.play = none ∧ t.core.jig.jig[p.jig] = {} ∧
            t.core.g p.d = 0 ∧ t.core.ctl.pcq = s.core.rotate)) ∧
      (nextEntry s.core.jig.jig[p.jig].entries p.next = (k, none) → s.core.ctl.nest = none →
        noStep s = true → runs .jigEntryIssue fun t => CtlFrame [p.d] [] s t ∧ t.core.jig.play = none ∧
          t.core.g p.d = (if p.d = 0 then 0 else 1) ∧ t.core.ctl.pcq = s.core.rotate))

/-! ### Events: the package -/

/-- R7, R28, R42, R287, R330, R343, R344, R363, R365, R388 to R391: boot, power, clocks, slots, tenants,
windows, placement and the debug interface. That step 3 of the boot may fail freely (log 12), what POWER_UP
clears (log 63), and that power goes only once no task holds cores (log 64) are the model's choice. -/
def Obligations.PackageEvents : Prop :=
  ∀ (s : State),
    let runs (i : Instr) (eff : State → Prop) : Prop := ∃ t, exec i s = .next t ∧ eff t
    let onDie (k : Fin 4) (y : Die) (t : State) : Prop :=
      OnlySys { s.sys with die := s.sys.die.set k.val y k.isLt } s t
    (runs .powerUp fun t => t.core = State.reset.core ∧ t.others = State.reset.others ∧
      t.sys = { State.reset.sys with host := s.sys.host }) ∧
    (∀ (k : Fin 4) (image key sig : List Byte),
      let d : Die := { s.sys.die[k] with boot := .rom, window := image.take 65536 }
      let ok := sha256 key = Config.romDigest ∧ key.length = 32 ∧ sig.length = 7856 ∧
        Config.sigOk key image sig = true
      (s.sys.die[k].boot = .off ∨ s.sys.die[k].boot = .trimmed →
        Idles (.firmwareDownload k image key sig) s) ∧
      (s.sys.die[k].boot = .rom ∨ s.sys.die[k].boot = .firmware →
        (ok → runs (.firmwareDownload k image key sig) fun t => onDie k { d with failed := 3 } t ∨
          onDie k { d with
            boot := .firmware, failed := 0, image := image, key := key, measured := [sha256 image] } t) ∧
        (¬ ok → runs (.firmwareDownload k image key sig) (onDie k { d with failed := 2 })))) ∧
    (∀ (k : Fin 4) (record sig : List Byte),
      let ok := sig.length = 7856 ∧ Config.sigOk s.sys.die[k].key record sig = true ∧
        Config.trimNames record (sha256 (Config.pubKey (Config.deviceSeed k))) = true
      (s.sys.die[k].boot ≠ .firmware → Idles (.trimRecord k record sig) s) ∧
      (s.sys.die[k].boot = .firmware →
        (ok → runs (.trimRecord k record sig) fun t => t.sys.die[k].boot = .trimmed ∧
          t.sys.die[k].failed = 0 ∧
          t.sys.die[k].trim = record ∧ t.sys.die[k].measured.length = s.sys.die[k].measured.length + 1 ∧
          ∀ c ∈ t.core :: t.others, c.id.die = k → ∀ i, i < 65536 →
            c.store.read i = Config.sysStoreByte s.sys.die[k].image i) ∧
        (¬ ok → runs (.trimRecord k record sig) (onDie k { s.sys.die[k] with failed := 4 })))) ∧
    (∀ (k : Fin 4) (nonce : List Byte), s.sys.die[k].boot = .trimmed →
      let body := sha256 (Config.pubKey (Config.deviceSeed k)) ++ s.sys.die[k].measured.flatten ++ nonce
        ++ sha256 s.sys.die[k].trim
      runs (.attestationReport k nonce) (OnlySys { s.sys with
        report := body ++ Config.sign (Config.deviceSeed k) body } s)) ∧
    (∀ (k : Fin 4) (nonce : List Byte), s.sys.die[k].boot ≠ .trimmed → Idles (.attestationReport k nonce) s) ∧
    (runs .warningTemperature (OnlySys { s.sys with
      thermal := if s.sys.thermal = .critical then .critical else .warning } s)) ∧
    (runs .criticalTemperature fun t => t.sys.thermal = .critical ∧
      (s.booted = true → (∀ x ∈ s.sys.tasks, x.onCores = false) → ∀ k : Fin 4, t.sys.die[k].boot = .off) ∧
      (s.booted = false → OnlySys { s.sys with thermal := .critical } s t)) ∧
    (∀ (k : Fin 4) (fwd back : BitVec 32), runs (.driftExchange k fwd back) fun t =>
      t.sys.die[k].exchanges = s.sys.die[k].exchanges + 1 ∧ MemSame s t ∧
      (63 ≤ s.sys.die[k].exchanges → t.sys.die[k].driftFwd = fwd ∧ t.sys.die[k].driftBack = back) ∧
      (s.sys.die[k].exchanges < 63 → t.sys.die[k].driftFwd = s.sys.die[k].driftFwd ∧
        t.sys.die[k].driftBack = s.sys.die[k].driftBack)) ∧
    (∀ img : SlotImage, slotRefused s img = false → runs (.slotLoad img) fun t =>
      t.slot img.slot.val = some { gen := ((s.slot img.slot.val).map (·.gen)).getD 0 + 1, image := some img } ∧
      (∀ k, k ≠ img.slot.val → k < 256 → t.slot k = s.slot k) ∧
      (∀ (d : Fin 4) j, j < img.loft.length →
        (t.mem (.loft d)).read (img.loftBase.toNat - 0xFE0000000000 + j) = img.loft.getD j 0) ∧
      (∀ j, j < img.code.length → (t.mem .hbm).read (img.dataPa + j) = img.code.getD j 0) ∧
      ∀ j, j < img.data.length → (t.mem .hbm).read (dataPaAt img + j) = img.data.getD j 0) ∧
    (∀ img : SlotImage, slotRefused s img = true → Idles (.slotLoad img) s) ∧
    (∀ (tn : Fin 16) (g : TenantGrant), s.booted = false ∨ s.sys.tenants[tn].live = true ∨
      grantRefused s g = true → Idles (.tenantCreate tn g) s) ∧
    (∀ (tn : Fin 16) (g : TenantGrant), s.booted = true → s.sys.tenants[tn].live = false →
      grantRefused s g = false →
      runs (.tenantCreate tn g) fun t => t.sys.tenants[tn].live = true ∧
        t.sys.tenants[tn].cores = g.cores ∧ t.sys.tenants[tn].home = g.homeDie ∧
        t.sys.tenants[tn].bufs = g.bufs ∧ (∀ ev, t.sys.tenants[tn].signalled ev = false) ∧
        (∀ c ∈ g.cores, AtCore c.val (fun _ d => d.jig = {}) s t) ∧
        ∀ p e, (p, e) ∈ g.peers → (tn, p, e) ∈ t.sys.peers) ∧
    (∀ tn : Fin 16, s.booted = false ∨ (∃ x ∈ s.sys.tasks, x.tn = tn ∧ x.onCores = true) → Idles (.tenantDestroy tn) s) ∧
    (∀ tn : Fin 16, s.booted = true → (∀ x ∈ s.sys.tasks, x.tn = tn → x.onCores = false) →
      runs (.tenantDestroy tn) fun t => t.sys.tenants[tn].live = false ∧
        (∀ ev, t.sys.tenants[tn].signalled ev = false) ∧
        (∀ k : Fin 4, ∀ e ∈ t.sys.die[k].win, winBits e.2 6 4 ≠ tn.val) ∧
        (∀ e ∈ t.sys.peers, e.1 ≠ tn) ∧ (∀ m ∈ t.sys.maps, m.tn ≠ tn) ∧ ∀ b ∈ t.sys.sort, b.tn ≠ tn) ∧
    (∀ (k : Fin 4) (idx : Fin 3072) (pbase : BitVec 31) (i : Nat) (e : BitVec 128),
      let size := 2 ^ winBits e 11 5
      let pa := pbase.toNat * 2 ^ 21
      s.sys.die[k].win.find? (fun e => decide (e.1 = idx.val)) = some (i, e) → winBits e 0 2 = 2 →
      pa % size = 0 → pa < 8 * 2 ^ 36 → pa % 2 ^ 36 + size ≤ 48 * 2 ^ 30 →
      runs (.windowMigrated k idx pbase) fun t => MemBut .hbm pa size s t ∧
        (∀ j, j < size → (t.mem .hbm).read (pa + j) = (s.mem .host).read (winBits e 85 31 * 2 ^ 21 + j)) ∧
        ∃ e', (idx.val, e') ∈ t.sys.die[k].win ∧ winBits e' 0 2 = 1 ∧ winBits e' 64 1 = 0 ∧
          winBits e' 85 31 = pbase.toNat ∧ ∀ b, 2 ≤ b → b < 64 → e'.getLsbD b = e.getLsbD b) ∧
    (∀ c : Fin 128, runs (.placementRemoval c) fun t => t.core = s.core ∧
      ∀ k, k ∈ t.sys.removed ↔ k = c ∨ k ∈ s.sys.removed) ∧
    (∀ (c : Fin 128) (r : Fin 32) (v : DWord), runs (.debugInterfaceWrite c (.g r) v) fun t =>
      t.sys = s.sys ∧ AtCore c.val (fun a d => (a.ctl.bank1 = false → d = a) ∧
        (a.ctl.bank1 = true → d.ctl.b1 = a.ctl.b1 ∧ d.ctl.b0.s = a.ctl.b0.s ∧ ∀ k : Fin 32,
          d.ctl.b0.g[k] = if k = r ∧ r ≠ 0 then v else a.ctl.b0.g[k])) s t) ∧
    (∀ (c : Fin 128) (r : Fin 12) (v : DWord),
      runs (.debugInterfaceWrite c (.s (steerNo r)) v) fun t => t.sys = s.sys ∧
        AtCore c.val (fun a d => (a.ctl.bank1 = false → d = a) ∧ (a.ctl.bank1 = true →
          d.ctl.b1 = a.ctl.b1 ∧ d.ctl.b0.g = a.ctl.b0.g ∧ d.ctl.b0.s[r].cond = v.getLsbD 63 ∧
          d.ctl.b0.s[r].valid = v.getLsbD 62 ∧ d.ctl.b0.s[r].held = false ∧ d.ctl.b0.s[r].target = v.extractLsb' 2 46)) s t)

/-! ### Encoding -/

/-- R52 to R68: words written out bit by bit from the spec's tables of fields, the worked examples of its
chapters among them, decode to the instructions they stand for. -/
def Obligations.DecodeWords : Prop :=
  decode 0x0014C70D none = .ok (.div 5 6 7) ∧
  decode 0x00909456 none = .ok (.addi 4 4 0x1456) ∧
  decode 0x0610C000 none = .ok (.cnei 2 3 0) ∧
  decode 0x08189000 none = .ok (.sand 3 1 2) ∧
  decode 0x098B0000 none = .ok (.bf 1 .tk) ∧
  decode 0x0E8C81FF none = .ok (.stw 3 4 0 0x1FF) ∧
  decode 0x13091840 none = .ok (.mtsi 0x123 64) ∧
  decode 0x14380001 none = .ok (.qpop 14 .rq1) ∧
  decode 0x15800007 none = .ok (.plumb 7) ∧
  decode 0x1B00007E none = .ok (.trap 0x7E) ∧
  decode 0x2A019000 none = .ok (.ldt ⟨false, true, false, true⟩ 3 2 false false) ∧
  decode 0x50007028 (some 0xE0204000) = .ok (.mma ⟨true, false, false, false⟩
    ⟨0, 3, .wsf, false, .scf, true, false⟩ ⟨1, 4, false⟩) ∧
  decode 0x601A3029 none = .ok (.vfma ⟨false, false, false, false⟩ (.v 8) (.vq 0) (.v 2) 9) ∧
  decode 0x60E148F6 none = .ok (.vcvt ⟨false, false, false, false⟩ (.v 5) (.v 4) .f2e4 .sr true) ∧
  decode 0x80102000 (some 0xE18000C8) = .ok (.xsend ⟨false, false, false, false⟩ 4 false 3 200) ∧
  decode 0xA0080004 none = .ok (.sdrun 4)

/-- R52 to R68: for every well-formed instruction, the words that the encoder gives decode to it, with every
operand at every value its fields admit: no bit of an encoding is dropped. -/
def Obligations.EncodeDecode : Prop :=
  ∀ (i : Instr) (w : Nat) (c : Option Nat), wellFormed i = true → encode i = some (w, c) →
    decode w c = .ok i

/-- R52 to R68: the decoder accepts nothing else: what it reads from a word is a well-formed instruction
whose encoding is that word, with the next word as its continuation in a long form. So every word has
at most one meaning, and no two words have the same. -/
def Obligations.DecodedIsEncoded : Prop :=
  ∀ (i : Instr) (w : Nat) (c : Option Nat), w < 2 ^ 32 → (∀ k, c = some k → k < 2 ^ 32) →
    decode w c = .ok i → wellFormed i = true ∧ encode i = some (w, if isLong w then c else none)

/-! ### The invariant -/

/-- R2, R8, and log 6 for what memory reads as: at reset every memory of every core, die and of the package
is in its canonical form, and the package has its 128 cores. -/
def Obligations.ResetInvariant : Prop := State.reset.Inv

/-- Every step keeps every memory of the machine canonical, from any state: addresses strictly rising and
no byte listed that an unlisted address reads as (log 6), so that equal memories are equal data; and it
keeps the 128 cores of the package (R2), no two of one number. -/
def Obligations.StepKeepsInvariant : Prop :=
  ∀ s t : State, s.Inv → step s = .next t → t.Inv
end

