-- ==== Sys2Proof/Laws/State.lean ====
section
/-! SUPPORT. What each update of the state leaves and changes: one lemma per field per update, so
that no proof unfolds a record update. -/

namespace Sys2Proof.Machine

/-! ### A change of the acting core -/

@[simp] theorem State.upd_core (s : State) (f : Core → Core) :
    (s.upd f).core = f s.core := rfl
@[simp] theorem State.upd_others (s : State) (f : Core → Core) :
    (s.upd f).others = s.others := rfl
@[simp] theorem State.upd_sys (s : State) (f : Core → Core) :
    (s.upd f).sys = s.sys := rfl
@[simp] theorem State.upd_turn (s : State) (f : Core → Core) :
    (s.upd f).turn = s.turn := rfl
@[simp] theorem State.upd_free (s : State) (f : Core → Core) :
    (s.upd f).free = s.free := rfl
@[simp] theorem State.upd_inputs (s : State) (f : Core → Core) :
    (s.upd f).inputs = s.inputs := rfl

/-! ### `updCtl` -/

@[simp] theorem State.updCtl_core_id (s : State) (f : Ctl → Ctl) :
    (s.updCtl f).core.id = s.core.id := rfl
@[simp] theorem State.updCtl_core_tick (s : State) (f : Ctl → Ctl) :
    (s.updCtl f).core.tick = s.core.tick := rfl
@[simp] theorem State.updCtl_core_gtick (s : State) (f : Ctl → Ctl) :
    (s.updCtl f).core.gtick = s.core.gtick := rfl
@[simp] theorem State.updCtl_core_ctl (s : State) (f : Ctl → Ctl) :
    (s.updCtl f).core.ctl = f s.core.ctl := rfl
@[simp] theorem State.updCtl_core_vis (s : State) (f : Ctl → Ctl) :
    (s.updCtl f).core.vis = s.core.vis := rfl
@[simp] theorem State.updCtl_core_q (s : State) (f : Ctl → Ctl) :
    (s.updCtl f).core.q = s.core.q := rfl
@[simp] theorem State.updCtl_core_load (s : State) (f : Ctl → Ctl) :
    (s.updCtl f).core.load = s.core.load := rfl
@[simp] theorem State.updCtl_core_matrix (s : State) (f : Ctl → Ctl) :
    (s.updCtl f).core.matrix = s.core.matrix := rfl
@[simp] theorem State.updCtl_core_vector (s : State) (f : Ctl → Ctl) :
    (s.updCtl f).core.vector = s.core.vector := rfl
@[simp] theorem State.updCtl_core_copy (s : State) (f : Ctl → Ctl) :
    (s.updCtl f).core.copy = s.core.copy := rfl
@[simp] theorem State.updCtl_core_stream (s : State) (f : Ctl → Ctl) :
    (s.updCtl f).core.stream = s.core.stream := rfl
@[simp] theorem State.updCtl_core_tok (s : State) (f : Ctl → Ctl) :
    (s.updCtl f).core.tok = s.core.tok := rfl
@[simp] theorem State.updCtl_core_mx (s : State) (f : Ctl → Ctl) :
    (s.updCtl f).core.mx = s.core.mx := rfl
@[simp] theorem State.updCtl_core_vec (s : State) (f : Ctl → Ctl) :
    (s.updCtl f).core.vec = s.core.vec := rfl
@[simp] theorem State.updCtl_core_sd (s : State) (f : Ctl → Ctl) :
    (s.updCtl f).core.sd = s.core.sd := rfl
@[simp] theorem State.updCtl_core_land (s : State) (f : Ctl → Ctl) :
    (s.updCtl f).core.land = s.core.land := rfl
@[simp] theorem State.updCtl_core_cp (s : State) (f : Ctl → Ctl) :
    (s.updCtl f).core.cp = s.core.cp := rfl
@[simp] theorem State.updCtl_core_jig (s : State) (f : Ctl → Ctl) :
    (s.updCtl f).core.jig = s.core.jig := rfl
@[simp] theorem State.updCtl_core_phase (s : State) (f : Ctl → Ctl) :
    (s.updCtl f).core.phase = s.core.phase := rfl
@[simp] theorem State.updCtl_core_hook (s : State) (f : Ctl → Ctl) :
    (s.updCtl f).core.hook = s.core.hook := rfl
@[simp] theorem State.updCtl_core_stall (s : State) (f : Ctl → Ctl) :
    (s.updCtl f).core.stall = s.core.stall := rfl
@[simp] theorem State.updCtl_core_bench (s : State) (f : Ctl → Ctl) :
    (s.updCtl f).core.bench = s.core.bench := rfl
@[simp] theorem State.updCtl_core_store (s : State) (f : Ctl → Ctl) :
    (s.updCtl f).core.store = s.core.store := rfl
@[simp] theorem State.updCtl_others (s : State) (f : Ctl → Ctl) :
    (s.updCtl f).others = s.others := rfl
@[simp] theorem State.updCtl_sys (s : State) (f : Ctl → Ctl) :
    (s.updCtl f).sys = s.sys := rfl
@[simp] theorem State.updCtl_turn (s : State) (f : Ctl → Ctl) :
    (s.updCtl f).turn = s.turn := rfl
@[simp] theorem State.updCtl_free (s : State) (f : Ctl → Ctl) :
    (s.updCtl f).free = s.free := rfl
@[simp] theorem State.updCtl_inputs (s : State) (f : Ctl → Ctl) :
    (s.updCtl f).inputs = s.inputs := rfl

/-! ### `updQ` -/

@[simp] theorem State.updQ_core_id (s : State) (f : Queues → Queues) :
    (s.updQ f).core.id = s.core.id := rfl
@[simp] theorem State.updQ_core_tick (s : State) (f : Queues → Queues) :
    (s.updQ f).core.tick = s.core.tick := rfl
@[simp] theorem State.updQ_core_gtick (s : State) (f : Queues → Queues) :
    (s.updQ f).core.gtick = s.core.gtick := rfl
@[simp] theorem State.updQ_core_ctl (s : State) (f : Queues → Queues) :
    (s.updQ f).core.ctl = s.core.ctl := rfl
@[simp] theorem State.updQ_core_vis (s : State) (f : Queues → Queues) :
    (s.updQ f).core.vis = s.core.vis := rfl
@[simp] theorem State.updQ_core_q (s : State) (f : Queues → Queues) :
    (s.updQ f).core.q = f s.core.q := rfl
@[simp] theorem State.updQ_core_load (s : State) (f : Queues → Queues) :
    (s.updQ f).core.load = s.core.load := rfl
@[simp] theorem State.updQ_core_matrix (s : State) (f : Queues → Queues) :
    (s.updQ f).core.matrix = s.core.matrix := rfl
@[simp] theorem State.updQ_core_vector (s : State) (f : Queues → Queues) :
    (s.updQ f).core.vector = s.core.vector := rfl
@[simp] theorem State.updQ_core_copy (s : State) (f : Queues → Queues) :
    (s.updQ f).core.copy = s.core.copy := rfl
@[simp] theorem State.updQ_core_stream (s : State) (f : Queues → Queues) :
    (s.updQ f).core.stream = s.core.stream := rfl
@[simp] theorem State.updQ_core_tok (s : State) (f : Queues → Queues) :
    (s.updQ f).core.tok = s.core.tok := rfl
@[simp] theorem State.updQ_core_mx (s : State) (f : Queues → Queues) :
    (s.updQ f).core.mx = s.core.mx := rfl
@[simp] theorem State.updQ_core_vec (s : State) (f : Queues → Queues) :
    (s.updQ f).core.vec = s.core.vec := rfl
@[simp] theorem State.updQ_core_sd (s : State) (f : Queues → Queues) :
    (s.updQ f).core.sd = s.core.sd := rfl
@[simp] theorem State.updQ_core_land (s : State) (f : Queues → Queues) :
    (s.updQ f).core.land = s.core.land := rfl
@[simp] theorem State.updQ_core_cp (s : State) (f : Queues → Queues) :
    (s.updQ f).core.cp = s.core.cp := rfl
@[simp] theorem State.updQ_core_jig (s : State) (f : Queues → Queues) :
    (s.updQ f).core.jig = s.core.jig := rfl
@[simp] theorem State.updQ_core_phase (s : State) (f : Queues → Queues) :
    (s.updQ f).core.phase = s.core.phase := rfl
@[simp] theorem State.updQ_core_hook (s : State) (f : Queues → Queues) :
    (s.updQ f).core.hook = s.core.hook := rfl
@[simp] theorem State.updQ_core_stall (s : State) (f : Queues → Queues) :
    (s.updQ f).core.stall = s.core.stall := rfl
@[simp] theorem State.updQ_core_bench (s : State) (f : Queues → Queues) :
    (s.updQ f).core.bench = s.core.bench := rfl
@[simp] theorem State.updQ_core_store (s : State) (f : Queues → Queues) :
    (s.updQ f).core.store = s.core.store := rfl
@[simp] theorem State.updQ_others (s : State) (f : Queues → Queues) :
    (s.updQ f).others = s.others := rfl
@[simp] theorem State.updQ_sys (s : State) (f : Queues → Queues) :
    (s.updQ f).sys = s.sys := rfl
@[simp] theorem State.updQ_turn (s : State) (f : Queues → Queues) :
    (s.updQ f).turn = s.turn := rfl
@[simp] theorem State.updQ_free (s : State) (f : Queues → Queues) :
    (s.updQ f).free = s.free := rfl
@[simp] theorem State.updQ_inputs (s : State) (f : Queues → Queues) :
    (s.updQ f).inputs = s.inputs := rfl

/-! ### `updVis` -/

@[simp] theorem State.updVis_core_id (s : State) (f : Vis → Vis) :
    (s.updVis f).core.id = s.core.id := rfl
@[simp] theorem State.updVis_core_tick (s : State) (f : Vis → Vis) :
    (s.updVis f).core.tick = s.core.tick := rfl
@[simp] theorem State.updVis_core_gtick (s : State) (f : Vis → Vis) :
    (s.updVis f).core.gtick = s.core.gtick := rfl
@[simp] theorem State.updVis_core_ctl (s : State) (f : Vis → Vis) :
    (s.updVis f).core.ctl = s.core.ctl := rfl
@[simp] theorem State.updVis_core_vis (s : State) (f : Vis → Vis) :
    (s.updVis f).core.vis = f s.core.vis := rfl
@[simp] theorem State.updVis_core_q (s : State) (f : Vis → Vis) :
    (s.updVis f).core.q = s.core.q := rfl
@[simp] theorem State.updVis_core_load (s : State) (f : Vis → Vis) :
    (s.updVis f).core.load = s.core.load := rfl
@[simp] theorem State.updVis_core_matrix (s : State) (f : Vis → Vis) :
    (s.updVis f).core.matrix = s.core.matrix := rfl
@[simp] theorem State.updVis_core_vector (s : State) (f : Vis → Vis) :
    (s.updVis f).core.vector = s.core.vector := rfl
@[simp] theorem State.updVis_core_copy (s : State) (f : Vis → Vis) :
    (s.updVis f).core.copy = s.core.copy := rfl
@[simp] theorem State.updVis_core_stream (s : State) (f : Vis → Vis) :
    (s.updVis f).core.stream = s.core.stream := rfl
@[simp] theorem State.updVis_core_tok (s : State) (f : Vis → Vis) :
    (s.updVis f).core.tok = s.core.tok := rfl
@[simp] theorem State.updVis_core_mx (s : State) (f : Vis → Vis) :
    (s.updVis f).core.mx = s.core.mx := rfl
@[simp] theorem State.updVis_core_vec (s : State) (f : Vis → Vis) :
    (s.updVis f).core.vec = s.core.vec := rfl
@[simp] theorem State.updVis_core_sd (s : State) (f : Vis → Vis) :
    (s.updVis f).core.sd = s.core.sd := rfl
@[simp] theorem State.updVis_core_land (s : State) (f : Vis → Vis) :
    (s.updVis f).core.land = s.core.land := rfl
@[simp] theorem State.updVis_core_cp (s : State) (f : Vis → Vis) :
    (s.updVis f).core.cp = s.core.cp := rfl
@[simp] theorem State.updVis_core_jig (s : State) (f : Vis → Vis) :
    (s.updVis f).core.jig = s.core.jig := rfl
@[simp] theorem State.updVis_core_phase (s : State) (f : Vis → Vis) :
    (s.updVis f).core.phase = s.core.phase := rfl
@[simp] theorem State.updVis_core_hook (s : State) (f : Vis → Vis) :
    (s.updVis f).core.hook = s.core.hook := rfl
@[simp] theorem State.updVis_core_stall (s : State) (f : Vis → Vis) :
    (s.updVis f).core.stall = s.core.stall := rfl
@[simp] theorem State.updVis_core_bench (s : State) (f : Vis → Vis) :
    (s.updVis f).core.bench = s.core.bench := rfl
@[simp] theorem State.updVis_core_store (s : State) (f : Vis → Vis) :
    (s.updVis f).core.store = s.core.store := rfl
@[simp] theorem State.updVis_others (s : State) (f : Vis → Vis) :
    (s.updVis f).others = s.others := rfl
@[simp] theorem State.updVis_sys (s : State) (f : Vis → Vis) :
    (s.updVis f).sys = s.sys := rfl
@[simp] theorem State.updVis_turn (s : State) (f : Vis → Vis) :
    (s.updVis f).turn = s.turn := rfl
@[simp] theorem State.updVis_free (s : State) (f : Vis → Vis) :
    (s.updVis f).free = s.free := rfl
@[simp] theorem State.updVis_inputs (s : State) (f : Vis → Vis) :
    (s.updVis f).inputs = s.inputs := rfl

/-! ### `updStall` -/

@[simp] theorem State.updStall_core_id (s : State) (f : Stall → Stall) :
    (s.updStall f).core.id = s.core.id := rfl
@[simp] theorem State.updStall_core_tick (s : State) (f : Stall → Stall) :
    (s.updStall f).core.tick = s.core.tick := rfl
@[simp] theorem State.updStall_core_gtick (s : State) (f : Stall → Stall) :
    (s.updStall f).core.gtick = s.core.gtick := rfl
@[simp] theorem State.updStall_core_ctl (s : State) (f : Stall → Stall) :
    (s.updStall f).core.ctl = s.core.ctl := rfl
@[simp] theorem State.updStall_core_vis (s : State) (f : Stall → Stall) :
    (s.updStall f).core.vis = s.core.vis := rfl
@[simp] theorem State.updStall_core_q (s : State) (f : Stall → Stall) :
    (s.updStall f).core.q = s.core.q := rfl
@[simp] theorem State.updStall_core_load (s : State) (f : Stall → Stall) :
    (s.updStall f).core.load = s.core.load := rfl
@[simp] theorem State.updStall_core_matrix (s : State) (f : Stall → Stall) :
    (s.updStall f).core.matrix = s.core.matrix := rfl
@[simp] theorem State.updStall_core_vector (s : State) (f : Stall → Stall) :
    (s.updStall f).core.vector = s.core.vector := rfl
@[simp] theorem State.updStall_core_copy (s : State) (f : Stall → Stall) :
    (s.updStall f).core.copy = s.core.copy := rfl
@[simp] theorem State.updStall_core_stream (s : State) (f : Stall → Stall) :
    (s.updStall f).core.stream = s.core.stream := rfl
@[simp] theorem State.updStall_core_tok (s : State) (f : Stall → Stall) :
    (s.updStall f).core.tok = s.core.tok := rfl
@[simp] theorem State.updStall_core_mx (s : State) (f : Stall → Stall) :
    (s.updStall f).core.mx = s.core.mx := rfl
@[simp] theorem State.updStall_core_vec (s : State) (f : Stall → Stall) :
    (s.updStall f).core.vec = s.core.vec := rfl
@[simp] theorem State.updStall_core_sd (s : State) (f : Stall → Stall) :
    (s.updStall f).core.sd = s.core.sd := rfl
@[simp] theorem State.updStall_core_land (s : State) (f : Stall → Stall) :
    (s.updStall f).core.land = s.core.land := rfl
@[simp] theorem State.updStall_core_cp (s : State) (f : Stall → Stall) :
    (s.updStall f).core.cp = s.core.cp := rfl
@[simp] theorem State.updStall_core_jig (s : State) (f : Stall → Stall) :
    (s.updStall f).core.jig = s.core.jig := rfl
@[simp] theorem State.updStall_core_phase (s : State) (f : Stall → Stall) :
    (s.updStall f).core.phase = s.core.phase := rfl
@[simp] theorem State.updStall_core_hook (s : State) (f : Stall → Stall) :
    (s.updStall f).core.hook = s.core.hook := rfl
@[simp] theorem State.updStall_core_stall (s : State) (f : Stall → Stall) :
    (s.updStall f).core.stall = f s.core.stall := rfl
@[simp] theorem State.updStall_core_bench (s : State) (f : Stall → Stall) :
    (s.updStall f).core.bench = s.core.bench := rfl
@[simp] theorem State.updStall_core_store (s : State) (f : Stall → Stall) :
    (s.updStall f).core.store = s.core.store := rfl
@[simp] theorem State.updStall_others (s : State) (f : Stall → Stall) :
    (s.updStall f).others = s.others := rfl
@[simp] theorem State.updStall_sys (s : State) (f : Stall → Stall) :
    (s.updStall f).sys = s.sys := rfl
@[simp] theorem State.updStall_turn (s : State) (f : Stall → Stall) :
    (s.updStall f).turn = s.turn := rfl
@[simp] theorem State.updStall_free (s : State) (f : Stall → Stall) :
    (s.updStall f).free = s.free := rfl
@[simp] theorem State.updStall_inputs (s : State) (f : Stall → Stall) :
    (s.updStall f).inputs = s.inputs := rfl

/-! ### `updRegs` -/

@[simp] theorem State.updRegs_core_id (s : State) (f : CtlRegs → CtlRegs) :
    (s.updRegs f).core.id = s.core.id := rfl
@[simp] theorem State.updRegs_core_tick (s : State) (f : CtlRegs → CtlRegs) :
    (s.updRegs f).core.tick = s.core.tick := rfl
@[simp] theorem State.updRegs_core_gtick (s : State) (f : CtlRegs → CtlRegs) :
    (s.updRegs f).core.gtick = s.core.gtick := rfl
@[simp] theorem State.updRegs_core_vis (s : State) (f : CtlRegs → CtlRegs) :
    (s.updRegs f).core.vis = s.core.vis := rfl
@[simp] theorem State.updRegs_core_q (s : State) (f : CtlRegs → CtlRegs) :
    (s.updRegs f).core.q = s.core.q := rfl
@[simp] theorem State.updRegs_core_load (s : State) (f : CtlRegs → CtlRegs) :
    (s.updRegs f).core.load = s.core.load := rfl
@[simp] theorem State.updRegs_core_matrix (s : State) (f : CtlRegs → CtlRegs) :
    (s.updRegs f).core.matrix = s.core.matrix := rfl
@[simp] theorem State.updRegs_core_vector (s : State) (f : CtlRegs → CtlRegs) :
    (s.updRegs f).core.vector = s.core.vector := rfl
@[simp] theorem State.updRegs_core_copy (s : State) (f : CtlRegs → CtlRegs) :
    (s.updRegs f).core.copy = s.core.copy := rfl
@[simp] theorem State.updRegs_core_stream (s : State) (f : CtlRegs → CtlRegs) :
    (s.updRegs f).core.stream = s.core.stream := rfl
@[simp] theorem State.updRegs_core_tok (s : State) (f : CtlRegs → CtlRegs) :
    (s.updRegs f).core.tok = s.core.tok := rfl
@[simp] theorem State.updRegs_core_mx (s : State) (f : CtlRegs → CtlRegs) :
    (s.updRegs f).core.mx = s.core.mx := rfl
@[simp] theorem State.updRegs_core_vec (s : State) (f : CtlRegs → CtlRegs) :
    (s.updRegs f).core.vec = s.core.vec := rfl
@[simp] theorem State.updRegs_core_sd (s : State) (f : CtlRegs → CtlRegs) :
    (s.updRegs f).core.sd = s.core.sd := rfl
@[simp] theorem State.updRegs_core_land (s : State) (f : CtlRegs → CtlRegs) :
    (s.updRegs f).core.land = s.core.land := rfl
@[simp] theorem State.updRegs_core_cp (s : State) (f : CtlRegs → CtlRegs) :
    (s.updRegs f).core.cp = s.core.cp := rfl
@[simp] theorem State.updRegs_core_jig (s : State) (f : CtlRegs → CtlRegs) :
    (s.updRegs f).core.jig = s.core.jig := rfl
@[simp] theorem State.updRegs_core_phase (s : State) (f : CtlRegs → CtlRegs) :
    (s.updRegs f).core.phase = s.core.phase := rfl
@[simp] theorem State.updRegs_core_hook (s : State) (f : CtlRegs → CtlRegs) :
    (s.updRegs f).core.hook = s.core.hook := rfl
@[simp] theorem State.updRegs_core_stall (s : State) (f : CtlRegs → CtlRegs) :
    (s.updRegs f).core.stall = s.core.stall := rfl
@[simp] theorem State.updRegs_core_bench (s : State) (f : CtlRegs → CtlRegs) :
    (s.updRegs f).core.bench = s.core.bench := rfl
@[simp] theorem State.updRegs_core_store (s : State) (f : CtlRegs → CtlRegs) :
    (s.updRegs f).core.store = s.core.store := rfl
@[simp] theorem State.updRegs_ctl_run (s : State) (f : CtlRegs → CtlRegs) :
    (s.updRegs f).core.ctl.run = s.core.ctl.run := rfl
@[simp] theorem State.updRegs_ctl_bank1 (s : State) (f : CtlRegs → CtlRegs) :
    (s.updRegs f).core.ctl.bank1 = s.core.ctl.bank1 := rfl
@[simp] theorem State.updRegs_ctl_b0 (s : State) (f : CtlRegs → CtlRegs) :
    (s.updRegs f).core.ctl.b0 = s.core.ctl.b0 := rfl
@[simp] theorem State.updRegs_ctl_b1 (s : State) (f : CtlRegs → CtlRegs) :
    (s.updRegs f).core.ctl.b1 = s.core.ctl.b1 := rfl
@[simp] theorem State.updRegs_ctl_taintG (s : State) (f : CtlRegs → CtlRegs) :
    (s.updRegs f).core.ctl.taintG = s.core.ctl.taintG := rfl
@[simp] theorem State.updRegs_ctl_taintC (s : State) (f : CtlRegs → CtlRegs) :
    (s.updRegs f).core.ctl.taintC = s.core.ctl.taintC := rfl
@[simp] theorem State.updRegs_ctl_taintT (s : State) (f : CtlRegs → CtlRegs) :
    (s.updRegs f).core.ctl.taintT = s.core.ctl.taintT := rfl
@[simp] theorem State.updRegs_ctl_pcq (s : State) (f : CtlRegs → CtlRegs) :
    (s.updRegs f).core.ctl.pcq = s.core.ctl.pcq := rfl
@[simp] theorem State.updRegs_ctl_pend (s : State) (f : CtlRegs → CtlRegs) :
    (s.updRegs f).core.ctl.pend = s.core.ctl.pend := rfl
@[simp] theorem State.updRegs_ctl_awaiting (s : State) (f : CtlRegs → CtlRegs) :
    (s.updRegs f).core.ctl.awaiting = s.core.ctl.awaiting := rfl
@[simp] theorem State.updRegs_ctl_settling (s : State) (f : CtlRegs → CtlRegs) :
    (s.updRegs f).core.ctl.settling = s.core.ctl.settling := rfl
@[simp] theorem State.updRegs_ctl_held16 (s : State) (f : CtlRegs → CtlRegs) :
    (s.updRegs f).core.ctl.held16 = s.core.ctl.held16 := rfl
@[simp] theorem State.updRegs_ctl_held17 (s : State) (f : CtlRegs → CtlRegs) :
    (s.updRegs f).core.ctl.held17 = s.core.ctl.held17 := rfl
@[simp] theorem State.updRegs_ctl_posted (s : State) (f : CtlRegs → CtlRegs) :
    (s.updRegs f).core.ctl.posted = s.core.ctl.posted := rfl
@[simp] theorem State.updRegs_ctl_breakReq (s : State) (f : CtlRegs → CtlRegs) :
    (s.updRegs f).core.ctl.breakReq = s.core.ctl.breakReq := rfl
@[simp] theorem State.updRegs_ctl_lastMark (s : State) (f : CtlRegs → CtlRegs) :
    (s.updRegs f).core.ctl.lastMark = s.core.ctl.lastMark := rfl
@[simp] theorem State.updRegs_ctl_arrival (s : State) (f : CtlRegs → CtlRegs) :
    (s.updRegs f).core.ctl.arrival = s.core.ctl.arrival := rfl
@[simp] theorem State.updRegs_ctl_relTick (s : State) (f : CtlRegs → CtlRegs) :
    (s.updRegs f).core.ctl.relTick = s.core.ctl.relTick := rfl
@[simp] theorem State.updRegs_ctl_plumbed (s : State) (f : CtlRegs → CtlRegs) :
    (s.updRegs f).core.ctl.plumbed = s.core.ctl.plumbed := rfl
@[simp] theorem State.updRegs_ctl_skipEpc (s : State) (f : CtlRegs → CtlRegs) :
    (s.updRegs f).core.ctl.skipEpc = s.core.ctl.skipEpc := rfl
@[simp] theorem State.updRegs_ctl_nest (s : State) (f : CtlRegs → CtlRegs) :
    (s.updRegs f).core.ctl.nest = s.core.ctl.nest := rfl
@[simp] theorem State.updRegs_ctl_nestSaved (s : State) (f : CtlRegs → CtlRegs) :
    (s.updRegs f).core.ctl.nestSaved = s.core.ctl.nestSaved := rfl
@[simp] theorem State.updRegs_ctl_codeBase (s : State) (f : CtlRegs → CtlRegs) :
    (s.updRegs f).core.ctl.codeBase = s.core.ctl.codeBase := rfl
@[simp] theorem State.updRegs_ctl_code (s : State) (f : CtlRegs → CtlRegs) :
    (s.updRegs f).core.ctl.code = s.core.ctl.code := rfl
@[simp] theorem State.updRegs_ctl_regs (s : State) (f : CtlRegs → CtlRegs) :
    (s.updRegs f).core.ctl.regs = f s.core.ctl.regs := rfl
@[simp] theorem State.updRegs_others (s : State) (f : CtlRegs → CtlRegs) :
    (s.updRegs f).others = s.others := rfl
@[simp] theorem State.updRegs_sys (s : State) (f : CtlRegs → CtlRegs) :
    (s.updRegs f).sys = s.sys := rfl
@[simp] theorem State.updRegs_turn (s : State) (f : CtlRegs → CtlRegs) :
    (s.updRegs f).turn = s.turn := rfl
@[simp] theorem State.updRegs_free (s : State) (f : CtlRegs → CtlRegs) :
    (s.updRegs f).free = s.free := rfl
@[simp] theorem State.updRegs_inputs (s : State) (f : CtlRegs → CtlRegs) :
    (s.updRegs f).inputs = s.inputs := rfl

/-! ### `pass` and `pick` -/

@[simp] theorem State.pass_core (s : State) :
    s.pass.core = s.core := rfl
@[simp] theorem State.pass_others (s : State) :
    s.pass.others = s.others := rfl
@[simp] theorem State.pass_sys (s : State) :
    s.pass.sys = s.sys := rfl
@[simp] theorem State.pass_inputs (s : State) :
    s.pass.inputs = s.inputs := rfl
@[simp] theorem State.pass_free (s : State) :
    s.pass.free = s.free + 1 := rfl
@[simp] theorem State.pick_core (s : State) (n : Nat) :
    (s.pick n).2.core = s.core := rfl
@[simp] theorem State.pick_others (s : State) (n : Nat) :
    (s.pick n).2.others = s.others := rfl
@[simp] theorem State.pick_sys (s : State) (n : Nat) :
    (s.pick n).2.sys = s.sys := rfl
@[simp] theorem State.pick_inputs (s : State) (n : Nat) :
    (s.pick n).2.inputs = s.inputs := rfl
@[simp] theorem State.pick_turn (s : State) (n : Nat) :
    (s.pick n).2.turn = s.turn := rfl
@[simp] theorem State.pick_free (s : State) (n : Nat) :
    (s.pick n).2.free = s.free + 1 := rfl

/-! ### `tickOn` -/

@[simp] theorem Core.tickOn_id (c : Core) :
    c.tickOn.id = c.id := rfl
@[simp] theorem Core.tickOn_vis (c : Core) :
    c.tickOn.vis = c.vis := rfl
@[simp] theorem Core.tickOn_q (c : Core) :
    c.tickOn.q = c.q := rfl
@[simp] theorem Core.tickOn_load (c : Core) :
    c.tickOn.load = c.load := rfl
@[simp] theorem Core.tickOn_matrix (c : Core) :
    c.tickOn.matrix = c.matrix := rfl
@[simp] theorem Core.tickOn_vector (c : Core) :
    c.tickOn.vector = c.vector := rfl
@[simp] theorem Core.tickOn_copy (c : Core) :
    c.tickOn.copy = c.copy := rfl
@[simp] theorem Core.tickOn_stream (c : Core) :
    c.tickOn.stream = c.stream := rfl
@[simp] theorem Core.tickOn_tok (c : Core) :
    c.tickOn.tok = c.tok := rfl
@[simp] theorem Core.tickOn_mx (c : Core) :
    c.tickOn.mx = c.mx := rfl
@[simp] theorem Core.tickOn_vec (c : Core) :
    c.tickOn.vec = c.vec := rfl
@[simp] theorem Core.tickOn_land (c : Core) :
    c.tickOn.land = c.land := rfl
@[simp] theorem Core.tickOn_cp (c : Core) :
    c.tickOn.cp = c.cp := rfl
@[simp] theorem Core.tickOn_jig (c : Core) :
    c.tickOn.jig = c.jig := rfl
@[simp] theorem Core.tickOn_phase (c : Core) :
    c.tickOn.phase = c.phase := rfl
@[simp] theorem Core.tickOn_hook (c : Core) :
    c.tickOn.hook = c.hook := rfl
@[simp] theorem Core.tickOn_bench (c : Core) :
    c.tickOn.bench = c.bench := rfl
@[simp] theorem Core.tickOn_store (c : Core) :
    c.tickOn.store = c.store := rfl
@[simp] theorem Core.tickOn_ctl_run (c : Core) :
    c.tickOn.ctl.run = c.ctl.run := rfl
@[simp] theorem Core.tickOn_ctl_bank1 (c : Core) :
    c.tickOn.ctl.bank1 = c.ctl.bank1 := rfl
@[simp] theorem Core.tickOn_ctl_b0 (c : Core) :
    c.tickOn.ctl.b0 = c.ctl.b0 := rfl
@[simp] theorem Core.tickOn_ctl_b1 (c : Core) :
    c.tickOn.ctl.b1 = c.ctl.b1 := rfl
@[simp] theorem Core.tickOn_ctl_taintG (c : Core) :
    c.tickOn.ctl.taintG = c.ctl.taintG := rfl
@[simp] theorem Core.tickOn_ctl_taintC (c : Core) :
    c.tickOn.ctl.taintC = c.ctl.taintC := rfl
@[simp] theorem Core.tickOn_ctl_taintT (c : Core) :
    c.tickOn.ctl.taintT = c.ctl.taintT := rfl
@[simp] theorem Core.tickOn_ctl_pcq (c : Core) :
    c.tickOn.ctl.pcq = c.ctl.pcq := rfl
@[simp] theorem Core.tickOn_ctl_awaiting (c : Core) :
    c.tickOn.ctl.awaiting = c.ctl.awaiting := rfl
@[simp] theorem Core.tickOn_ctl_settling (c : Core) :
    c.tickOn.ctl.settling = c.ctl.settling := rfl
@[simp] theorem Core.tickOn_ctl_held16 (c : Core) :
    c.tickOn.ctl.held16 = c.ctl.held16 := rfl
@[simp] theorem Core.tickOn_ctl_held17 (c : Core) :
    c.tickOn.ctl.held17 = c.ctl.held17 := rfl
@[simp] theorem Core.tickOn_ctl_posted (c : Core) :
    c.tickOn.ctl.posted = c.ctl.posted := rfl
@[simp] theorem Core.tickOn_ctl_breakReq (c : Core) :
    c.tickOn.ctl.breakReq = c.ctl.breakReq := rfl
@[simp] theorem Core.tickOn_ctl_lastMark (c : Core) :
    c.tickOn.ctl.lastMark = c.ctl.lastMark := rfl
@[simp] theorem Core.tickOn_ctl_arrival (c : Core) :
    c.tickOn.ctl.arrival = c.ctl.arrival := rfl
@[simp] theorem Core.tickOn_ctl_relTick (c : Core) :
    c.tickOn.ctl.relTick = c.ctl.relTick := rfl
@[simp] theorem Core.tickOn_ctl_plumbed (c : Core) :
    c.tickOn.ctl.plumbed = c.ctl.plumbed := rfl
@[simp] theorem Core.tickOn_ctl_skipEpc (c : Core) :
    c.tickOn.ctl.skipEpc = c.ctl.skipEpc := rfl
@[simp] theorem Core.tickOn_ctl_nest (c : Core) :
    c.tickOn.ctl.nest = c.ctl.nest := rfl
@[simp] theorem Core.tickOn_ctl_nestSaved (c : Core) :
    c.tickOn.ctl.nestSaved = c.ctl.nestSaved := rfl
@[simp] theorem Core.tickOn_ctl_codeBase (c : Core) :
    c.tickOn.ctl.codeBase = c.ctl.codeBase := rfl
@[simp] theorem Core.tickOn_ctl_code (c : Core) :
    c.tickOn.ctl.code = c.ctl.code := rfl
@[simp] theorem Core.tickOn_ctl_regs (c : Core) :
    c.tickOn.ctl.regs = c.ctl.regs := rfl
@[simp] theorem Core.tickOn_tick (c : Core) :
    c.tickOn.tick = c.tick + 1 := rfl
@[simp] theorem Core.tickOn_stopped (c : Core) : c.tickOn.stall.stopped = c.stall.stopped := by
  simp only [Core.tickOn]; split <;> rfl
theorem Core.tickOn_sd (c : Core) (h : c.slips = false) : c.tickOn.sd = c.sd := by simp [Core.tickOn, h]

end Sys2Proof.Machine
end

