-- ==== Sys2Proof/Laws/CtlFields.lean ====
section
/-! SUPPORT. What the shared operations of control words leave and change, field by field. -/

namespace Sys2Proof.Machine

/-! ### `advance`: only the place of the stream moves (R41) -/

@[simp] theorem State.advance_core_id (s : State) :
    s.advance.core.id = s.core.id := by
  unfold State.advance; split
  · rfl
  · split <;> rfl
@[simp] theorem State.advance_core_vis (s : State) :
    s.advance.core.vis = s.core.vis := by
  unfold State.advance; split
  · rfl
  · split <;> rfl
@[simp] theorem State.advance_core_q (s : State) :
    s.advance.core.q = s.core.q := by
  unfold State.advance; split
  · rfl
  · split <;> rfl
@[simp] theorem State.advance_core_load (s : State) :
    s.advance.core.load = s.core.load := by
  unfold State.advance; split
  · rfl
  · split <;> rfl
@[simp] theorem State.advance_core_matrix (s : State) :
    s.advance.core.matrix = s.core.matrix := by
  unfold State.advance; split
  · rfl
  · split <;> rfl
@[simp] theorem State.advance_core_vector (s : State) :
    s.advance.core.vector = s.core.vector := by
  unfold State.advance; split
  · rfl
  · split <;> rfl
@[simp] theorem State.advance_core_copy (s : State) :
    s.advance.core.copy = s.core.copy := by
  unfold State.advance; split
  · rfl
  · split <;> rfl
@[simp] theorem State.advance_core_stream (s : State) :
    s.advance.core.stream = s.core.stream := by
  unfold State.advance; split
  · rfl
  · split <;> rfl
@[simp] theorem State.advance_core_tok (s : State) :
    s.advance.core.tok = s.core.tok := by
  unfold State.advance; split
  · rfl
  · split <;> rfl
@[simp] theorem State.advance_core_mx (s : State) :
    s.advance.core.mx = s.core.mx := by
  unfold State.advance; split
  · rfl
  · split <;> rfl
@[simp] theorem State.advance_core_vec (s : State) :
    s.advance.core.vec = s.core.vec := by
  unfold State.advance; split
  · rfl
  · split <;> rfl
@[simp] theorem State.advance_core_sd (s : State) :
    s.advance.core.sd = s.core.sd := by
  unfold State.advance; split
  · rfl
  · split <;> rfl
@[simp] theorem State.advance_core_land (s : State) :
    s.advance.core.land = s.core.land := by
  unfold State.advance; split
  · rfl
  · split <;> rfl
@[simp] theorem State.advance_core_cp (s : State) :
    s.advance.core.cp = s.core.cp := by
  unfold State.advance; split
  · rfl
  · split <;> rfl
@[simp] theorem State.advance_core_phase (s : State) :
    s.advance.core.phase = s.core.phase := by
  unfold State.advance; split
  · rfl
  · split <;> rfl
@[simp] theorem State.advance_core_hook (s : State) :
    s.advance.core.hook = s.core.hook := by
  unfold State.advance; split
  · rfl
  · split <;> rfl
@[simp] theorem State.advance_core_bench (s : State) :
    s.advance.core.bench = s.core.bench := by
  unfold State.advance; split
  · rfl
  · split <;> rfl
@[simp] theorem State.advance_core_store (s : State) :
    s.advance.core.store = s.core.store := by
  unfold State.advance; split
  · rfl
  · split <;> rfl
@[simp] theorem State.advance_core_tick (s : State) :
    s.advance.core.tick = s.core.tick := by
  unfold State.advance; split
  · rfl
  · split <;> rfl
@[simp] theorem State.advance_core_gtick (s : State) :
    s.advance.core.gtick = s.core.gtick := by
  unfold State.advance; split
  · rfl
  · split <;> rfl
@[simp] theorem State.advance_core_stall (s : State) :
    s.advance.core.stall = s.core.stall := by
  unfold State.advance; split
  · rfl
  · split <;> rfl
@[simp] theorem State.advance_ctl_run (s : State) :
    s.advance.core.ctl.run = s.core.ctl.run := by
  unfold State.advance; split
  · rfl
  · split <;> rfl
@[simp] theorem State.advance_ctl_bank1 (s : State) :
    s.advance.core.ctl.bank1 = s.core.ctl.bank1 := by
  unfold State.advance; split
  · rfl
  · split <;> rfl
@[simp] theorem State.advance_ctl_b0 (s : State) :
    s.advance.core.ctl.b0 = s.core.ctl.b0 := by
  unfold State.advance; split
  · rfl
  · split <;> rfl
@[simp] theorem State.advance_ctl_b1 (s : State) :
    s.advance.core.ctl.b1 = s.core.ctl.b1 := by
  unfold State.advance; split
  · rfl
  · split <;> rfl
@[simp] theorem State.advance_ctl_taintG (s : State) :
    s.advance.core.ctl.taintG = s.core.ctl.taintG := by
  unfold State.advance; split
  · rfl
  · split <;> rfl
@[simp] theorem State.advance_ctl_taintC (s : State) :
    s.advance.core.ctl.taintC = s.core.ctl.taintC := by
  unfold State.advance; split
  · rfl
  · split <;> rfl
@[simp] theorem State.advance_ctl_taintT (s : State) :
    s.advance.core.ctl.taintT = s.core.ctl.taintT := by
  unfold State.advance; split
  · rfl
  · split <;> rfl
@[simp] theorem State.advance_ctl_pend (s : State) :
    s.advance.core.ctl.pend = s.core.ctl.pend := by
  unfold State.advance; split
  · rfl
  · split <;> rfl
@[simp] theorem State.advance_ctl_awaiting (s : State) :
    s.advance.core.ctl.awaiting = s.core.ctl.awaiting := by
  unfold State.advance; split
  · rfl
  · split <;> rfl
@[simp] theorem State.advance_ctl_settling (s : State) :
    s.advance.core.ctl.settling = s.core.ctl.settling := by
  unfold State.advance; split
  · rfl
  · split <;> rfl
@[simp] theorem State.advance_ctl_held16 (s : State) :
    s.advance.core.ctl.held16 = s.core.ctl.held16 := by
  unfold State.advance; split
  · rfl
  · split <;> rfl
@[simp] theorem State.advance_ctl_held17 (s : State) :
    s.advance.core.ctl.held17 = s.core.ctl.held17 := by
  unfold State.advance; split
  · rfl
  · split <;> rfl
@[simp] theorem State.advance_ctl_posted (s : State) :
    s.advance.core.ctl.posted = s.core.ctl.posted := by
  unfold State.advance; split
  · rfl
  · split <;> rfl
@[simp] theorem State.advance_ctl_breakReq (s : State) :
    s.advance.core.ctl.breakReq = s.core.ctl.breakReq := by
  unfold State.advance; split
  · rfl
  · split <;> rfl
@[simp] theorem State.advance_ctl_lastMark (s : State) :
    s.advance.core.ctl.lastMark = s.core.ctl.lastMark := by
  unfold State.advance; split
  · rfl
  · split <;> rfl
@[simp] theorem State.advance_ctl_arrival (s : State) :
    s.advance.core.ctl.arrival = s.core.ctl.arrival := by
  unfold State.advance; split
  · rfl
  · split <;> rfl
@[simp] theorem State.advance_ctl_relTick (s : State) :
    s.advance.core.ctl.relTick = s.core.ctl.relTick := by
  unfold State.advance; split
  · rfl
  · split <;> rfl
@[simp] theorem State.advance_ctl_plumbed (s : State) :
    s.advance.core.ctl.plumbed = s.core.ctl.plumbed := by
  unfold State.advance; split
  · rfl
  · split <;> rfl
@[simp] theorem State.advance_ctl_skipEpc (s : State) :
    s.advance.core.ctl.skipEpc = s.core.ctl.skipEpc := by
  unfold State.advance; split
  · rfl
  · split <;> rfl
@[simp] theorem State.advance_ctl_nestSaved (s : State) :
    s.advance.core.ctl.nestSaved = s.core.ctl.nestSaved := by
  unfold State.advance; split
  · rfl
  · split <;> rfl
@[simp] theorem State.advance_ctl_codeBase (s : State) :
    s.advance.core.ctl.codeBase = s.core.ctl.codeBase := by
  unfold State.advance; split
  · rfl
  · split <;> rfl
@[simp] theorem State.advance_ctl_code (s : State) :
    s.advance.core.ctl.code = s.core.ctl.code := by
  unfold State.advance; split
  · rfl
  · split <;> rfl
@[simp] theorem State.advance_ctl_regs (s : State) :
    s.advance.core.ctl.regs = s.core.ctl.regs := by
  unfold State.advance; split
  · rfl
  · split <;> rfl
@[simp] theorem State.advance_others (s : State) :
    s.advance.others = s.others := by
  unfold State.advance; split
  · rfl
  · split <;> rfl
@[simp] theorem State.advance_sys (s : State) :
    s.advance.sys = s.sys := by
  unfold State.advance; split
  · rfl
  · split <;> rfl
@[simp] theorem State.advance_turn (s : State) :
    s.advance.turn = s.turn := by
  unfold State.advance; split
  · rfl
  · split <;> rfl
@[simp] theorem State.advance_free (s : State) :
    s.advance.free = s.free := by
  unfold State.advance; split
  · rfl
  · split <;> rfl
@[simp] theorem State.advance_inputs (s : State) :
    s.advance.inputs = s.inputs := by
  unfold State.advance; split
  · rfl
  · split <;> rfl
@[simp] theorem State.advance_jig_jig (s : State) :
    s.advance.core.jig.jig = s.core.jig.jig := by
  unfold State.advance; split
  · rfl
  · split <;> rfl
@[simp] theorem State.advance_jig_recording (s : State) :
    s.advance.core.jig.recording = s.core.jig.recording := by
  unfold State.advance; split
  · rfl
  · split <;> rfl

/-! ### `endSkip` and `clearReach` -/

@[simp] theorem State.endSkip_core_id (s : State) :
    s.endSkip.core.id = s.core.id := by
  unfold State.endSkip; split <;> rfl
@[simp] theorem State.endSkip_core_vis (s : State) :
    s.endSkip.core.vis = s.core.vis := by
  unfold State.endSkip; split <;> rfl
@[simp] theorem State.endSkip_core_q (s : State) :
    s.endSkip.core.q = s.core.q := by
  unfold State.endSkip; split <;> rfl
@[simp] theorem State.endSkip_core_load (s : State) :
    s.endSkip.core.load = s.core.load := by
  unfold State.endSkip; split <;> rfl
@[simp] theorem State.endSkip_core_matrix (s : State) :
    s.endSkip.core.matrix = s.core.matrix := by
  unfold State.endSkip; split <;> rfl
@[simp] theorem State.endSkip_core_vector (s : State) :
    s.endSkip.core.vector = s.core.vector := by
  unfold State.endSkip; split <;> rfl
@[simp] theorem State.endSkip_core_copy (s : State) :
    s.endSkip.core.copy = s.core.copy := by
  unfold State.endSkip; split <;> rfl
@[simp] theorem State.endSkip_core_stream (s : State) :
    s.endSkip.core.stream = s.core.stream := by
  unfold State.endSkip; split <;> rfl
@[simp] theorem State.endSkip_core_tok (s : State) :
    s.endSkip.core.tok = s.core.tok := by
  unfold State.endSkip; split <;> rfl
@[simp] theorem State.endSkip_core_mx (s : State) :
    s.endSkip.core.mx = s.core.mx := by
  unfold State.endSkip; split <;> rfl
@[simp] theorem State.endSkip_core_vec (s : State) :
    s.endSkip.core.vec = s.core.vec := by
  unfold State.endSkip; split <;> rfl
@[simp] theorem State.endSkip_core_sd (s : State) :
    s.endSkip.core.sd = s.core.sd := by
  unfold State.endSkip; split <;> rfl
@[simp] theorem State.endSkip_core_land (s : State) :
    s.endSkip.core.land = s.core.land := by
  unfold State.endSkip; split <;> rfl
@[simp] theorem State.endSkip_core_cp (s : State) :
    s.endSkip.core.cp = s.core.cp := by
  unfold State.endSkip; split <;> rfl
@[simp] theorem State.endSkip_core_phase (s : State) :
    s.endSkip.core.phase = s.core.phase := by
  unfold State.endSkip; split <;> rfl
@[simp] theorem State.endSkip_core_hook (s : State) :
    s.endSkip.core.hook = s.core.hook := by
  unfold State.endSkip; split <;> rfl
@[simp] theorem State.endSkip_core_bench (s : State) :
    s.endSkip.core.bench = s.core.bench := by
  unfold State.endSkip; split <;> rfl
@[simp] theorem State.endSkip_core_store (s : State) :
    s.endSkip.core.store = s.core.store := by
  unfold State.endSkip; split <;> rfl
@[simp] theorem State.endSkip_core_tick (s : State) :
    s.endSkip.core.tick = s.core.tick := by
  unfold State.endSkip; split <;> rfl
@[simp] theorem State.endSkip_core_gtick (s : State) :
    s.endSkip.core.gtick = s.core.gtick := by
  unfold State.endSkip; split <;> rfl
@[simp] theorem State.endSkip_core_stall (s : State) :
    s.endSkip.core.stall = s.core.stall := by
  unfold State.endSkip; split <;> rfl
@[simp] theorem State.endSkip_core_jig (s : State) :
    s.endSkip.core.jig = s.core.jig := by
  unfold State.endSkip; split <;> rfl
@[simp] theorem State.endSkip_ctl_run (s : State) :
    s.endSkip.core.ctl.run = s.core.ctl.run := by
  unfold State.endSkip; split <;> rfl
@[simp] theorem State.endSkip_ctl_bank1 (s : State) :
    s.endSkip.core.ctl.bank1 = s.core.ctl.bank1 := by
  unfold State.endSkip; split <;> rfl
@[simp] theorem State.endSkip_ctl_b0 (s : State) :
    s.endSkip.core.ctl.b0 = s.core.ctl.b0 := by
  unfold State.endSkip; split <;> rfl
@[simp] theorem State.endSkip_ctl_b1 (s : State) :
    s.endSkip.core.ctl.b1 = s.core.ctl.b1 := by
  unfold State.endSkip; split <;> rfl
@[simp] theorem State.endSkip_ctl_taintG (s : State) :
    s.endSkip.core.ctl.taintG = s.core.ctl.taintG := by
  unfold State.endSkip; split <;> rfl
@[simp] theorem State.endSkip_ctl_taintC (s : State) :
    s.endSkip.core.ctl.taintC = s.core.ctl.taintC := by
  unfold State.endSkip; split <;> rfl
@[simp] theorem State.endSkip_ctl_taintT (s : State) :
    s.endSkip.core.ctl.taintT = s.core.ctl.taintT := by
  unfold State.endSkip; split <;> rfl
@[simp] theorem State.endSkip_ctl_pend (s : State) :
    s.endSkip.core.ctl.pend = s.core.ctl.pend := by
  unfold State.endSkip; split <;> rfl
@[simp] theorem State.endSkip_ctl_awaiting (s : State) :
    s.endSkip.core.ctl.awaiting = s.core.ctl.awaiting := by
  unfold State.endSkip; split <;> rfl
@[simp] theorem State.endSkip_ctl_settling (s : State) :
    s.endSkip.core.ctl.settling = s.core.ctl.settling := by
  unfold State.endSkip; split <;> rfl
@[simp] theorem State.endSkip_ctl_held16 (s : State) :
    s.endSkip.core.ctl.held16 = s.core.ctl.held16 := by
  unfold State.endSkip; split <;> rfl
@[simp] theorem State.endSkip_ctl_held17 (s : State) :
    s.endSkip.core.ctl.held17 = s.core.ctl.held17 := by
  unfold State.endSkip; split <;> rfl
@[simp] theorem State.endSkip_ctl_posted (s : State) :
    s.endSkip.core.ctl.posted = s.core.ctl.posted := by
  unfold State.endSkip; split <;> rfl
@[simp] theorem State.endSkip_ctl_breakReq (s : State) :
    s.endSkip.core.ctl.breakReq = s.core.ctl.breakReq := by
  unfold State.endSkip; split <;> rfl
@[simp] theorem State.endSkip_ctl_lastMark (s : State) :
    s.endSkip.core.ctl.lastMark = s.core.ctl.lastMark := by
  unfold State.endSkip; split <;> rfl
@[simp] theorem State.endSkip_ctl_arrival (s : State) :
    s.endSkip.core.ctl.arrival = s.core.ctl.arrival := by
  unfold State.endSkip; split <;> rfl
@[simp] theorem State.endSkip_ctl_relTick (s : State) :
    s.endSkip.core.ctl.relTick = s.core.ctl.relTick := by
  unfold State.endSkip; split <;> rfl
@[simp] theorem State.endSkip_ctl_plumbed (s : State) :
    s.endSkip.core.ctl.plumbed = s.core.ctl.plumbed := by
  unfold State.endSkip; split <;> rfl
@[simp] theorem State.endSkip_ctl_nestSaved (s : State) :
    s.endSkip.core.ctl.nestSaved = s.core.ctl.nestSaved := by
  unfold State.endSkip; split <;> rfl
@[simp] theorem State.endSkip_ctl_codeBase (s : State) :
    s.endSkip.core.ctl.codeBase = s.core.ctl.codeBase := by
  unfold State.endSkip; split <;> rfl
@[simp] theorem State.endSkip_ctl_code (s : State) :
    s.endSkip.core.ctl.code = s.core.ctl.code := by
  unfold State.endSkip; split <;> rfl
@[simp] theorem State.endSkip_ctl_regs (s : State) :
    s.endSkip.core.ctl.regs = s.core.ctl.regs := by
  unfold State.endSkip; split <;> rfl
@[simp] theorem State.endSkip_ctl_pcq (s : State) :
    s.endSkip.core.ctl.pcq = s.core.ctl.pcq := by
  unfold State.endSkip; split <;> rfl
@[simp] theorem State.endSkip_ctl_nest (s : State) :
    s.endSkip.core.ctl.nest = s.core.ctl.nest := by
  unfold State.endSkip; split <;> rfl
@[simp] theorem State.endSkip_others (s : State) :
    s.endSkip.others = s.others := by
  unfold State.endSkip; split <;> rfl
@[simp] theorem State.endSkip_sys (s : State) :
    s.endSkip.sys = s.sys := by
  unfold State.endSkip; split <;> rfl
@[simp] theorem State.endSkip_turn (s : State) :
    s.endSkip.turn = s.turn := by
  unfold State.endSkip; split <;> rfl
@[simp] theorem State.endSkip_free (s : State) :
    s.endSkip.free = s.free := by
  unfold State.endSkip; split <;> rfl
@[simp] theorem State.endSkip_inputs (s : State) :
    s.endSkip.inputs = s.inputs := by
  unfold State.endSkip; split <;> rfl
@[simp] theorem State.clearReach_core_id (s : State) :
    s.clearReach.core.id = s.core.id := by
  unfold State.clearReach; split <;> rfl
@[simp] theorem State.clearReach_core_vis (s : State) :
    s.clearReach.core.vis = s.core.vis := by
  unfold State.clearReach; split <;> rfl
@[simp] theorem State.clearReach_core_q (s : State) :
    s.clearReach.core.q = s.core.q := by
  unfold State.clearReach; split <;> rfl
@[simp] theorem State.clearReach_core_load (s : State) :
    s.clearReach.core.load = s.core.load := by
  unfold State.clearReach; split <;> rfl
@[simp] theorem State.clearReach_core_matrix (s : State) :
    s.clearReach.core.matrix = s.core.matrix := by
  unfold State.clearReach; split <;> rfl
@[simp] theorem State.clearReach_core_vector (s : State) :
    s.clearReach.core.vector = s.core.vector := by
  unfold State.clearReach; split <;> rfl
@[simp] theorem State.clearReach_core_copy (s : State) :
    s.clearReach.core.copy = s.core.copy := by
  unfold State.clearReach; split <;> rfl
@[simp] theorem State.clearReach_core_stream (s : State) :
    s.clearReach.core.stream = s.core.stream := by
  unfold State.clearReach; split <;> rfl
@[simp] theorem State.clearReach_core_tok (s : State) :
    s.clearReach.core.tok = s.core.tok := by
  unfold State.clearReach; split <;> rfl
@[simp] theorem State.clearReach_core_mx (s : State) :
    s.clearReach.core.mx = s.core.mx := by
  unfold State.clearReach; split <;> rfl
@[simp] theorem State.clearReach_core_vec (s : State) :
    s.clearReach.core.vec = s.core.vec := by
  unfold State.clearReach; split <;> rfl
@[simp] theorem State.clearReach_core_sd (s : State) :
    s.clearReach.core.sd = s.core.sd := by
  unfold State.clearReach; split <;> rfl
@[simp] theorem State.clearReach_core_land (s : State) :
    s.clearReach.core.land = s.core.land := by
  unfold State.clearReach; split <;> rfl
@[simp] theorem State.clearReach_core_cp (s : State) :
    s.clearReach.core.cp = s.core.cp := by
  unfold State.clearReach; split <;> rfl
@[simp] theorem State.clearReach_core_phase (s : State) :
    s.clearReach.core.phase = s.core.phase := by
  unfold State.clearReach; split <;> rfl
@[simp] theorem State.clearReach_core_hook (s : State) :
    s.clearReach.core.hook = s.core.hook := by
  unfold State.clearReach; split <;> rfl
@[simp] theorem State.clearReach_core_bench (s : State) :
    s.clearReach.core.bench = s.core.bench := by
  unfold State.clearReach; split <;> rfl
@[simp] theorem State.clearReach_core_store (s : State) :
    s.clearReach.core.store = s.core.store := by
  unfold State.clearReach; split <;> rfl
@[simp] theorem State.clearReach_core_tick (s : State) :
    s.clearReach.core.tick = s.core.tick := by
  unfold State.clearReach; split <;> rfl
@[simp] theorem State.clearReach_core_gtick (s : State) :
    s.clearReach.core.gtick = s.core.gtick := by
  unfold State.clearReach; split <;> rfl
@[simp] theorem State.clearReach_core_stall (s : State) :
    s.clearReach.core.stall = s.core.stall := by
  unfold State.clearReach; split <;> rfl
@[simp] theorem State.clearReach_core_ctl (s : State) :
    s.clearReach.core.ctl = s.core.ctl := by
  unfold State.clearReach; split <;> rfl
@[simp] theorem State.clearReach_others (s : State) :
    s.clearReach.others = s.others := by
  unfold State.clearReach; split <;> rfl
@[simp] theorem State.clearReach_sys (s : State) :
    s.clearReach.sys = s.sys := by
  unfold State.clearReach; split <;> rfl
@[simp] theorem State.clearReach_turn (s : State) :
    s.clearReach.turn = s.turn := by
  unfold State.clearReach; split <;> rfl
@[simp] theorem State.clearReach_free (s : State) :
    s.clearReach.free = s.free := by
  unfold State.clearReach; split <;> rfl
@[simp] theorem State.clearReach_inputs (s : State) :
    s.clearReach.inputs = s.inputs := by
  unfold State.clearReach; split <;> rfl
@[simp] theorem State.clearReach_jig_jig (s : State) :
    s.clearReach.core.jig.jig = s.core.jig.jig := by
  unfold State.clearReach; split <;> rfl

/-! ### `writeG`: one register of the bank, its bound and its taint (R12, R34, R43) -/

@[simp] theorem State.writeG_core_id (s : State) (r : Fin 32) (v : DWord) (n : Nat) (b : Bool) :
    (s.writeG r v n b).core.id = s.core.id := rfl
@[simp] theorem State.writeG_core_vis (s : State) (r : Fin 32) (v : DWord) (n : Nat) (b : Bool) :
    (s.writeG r v n b).core.vis = s.core.vis := rfl
@[simp] theorem State.writeG_core_q (s : State) (r : Fin 32) (v : DWord) (n : Nat) (b : Bool) :
    (s.writeG r v n b).core.q = s.core.q := rfl
@[simp] theorem State.writeG_core_load (s : State) (r : Fin 32) (v : DWord) (n : Nat) (b : Bool) :
    (s.writeG r v n b).core.load = s.core.load := rfl
@[simp] theorem State.writeG_core_matrix (s : State) (r : Fin 32) (v : DWord) (n : Nat) (b : Bool) :
    (s.writeG r v n b).core.matrix = s.core.matrix := rfl
@[simp] theorem State.writeG_core_vector (s : State) (r : Fin 32) (v : DWord) (n : Nat) (b : Bool) :
    (s.writeG r v n b).core.vector = s.core.vector := rfl
@[simp] theorem State.writeG_core_copy (s : State) (r : Fin 32) (v : DWord) (n : Nat) (b : Bool) :
    (s.writeG r v n b).core.copy = s.core.copy := rfl
@[simp] theorem State.writeG_core_stream (s : State) (r : Fin 32) (v : DWord) (n : Nat) (b : Bool) :
    (s.writeG r v n b).core.stream = s.core.stream := rfl
@[simp] theorem State.writeG_core_tok (s : State) (r : Fin 32) (v : DWord) (n : Nat) (b : Bool) :
    (s.writeG r v n b).core.tok = s.core.tok := rfl
@[simp] theorem State.writeG_core_mx (s : State) (r : Fin 32) (v : DWord) (n : Nat) (b : Bool) :
    (s.writeG r v n b).core.mx = s.core.mx := rfl
@[simp] theorem State.writeG_core_vec (s : State) (r : Fin 32) (v : DWord) (n : Nat) (b : Bool) :
    (s.writeG r v n b).core.vec = s.core.vec := rfl
@[simp] theorem State.writeG_core_sd (s : State) (r : Fin 32) (v : DWord) (n : Nat) (b : Bool) :
    (s.writeG r v n b).core.sd = s.core.sd := rfl
@[simp] theorem State.writeG_core_land (s : State) (r : Fin 32) (v : DWord) (n : Nat) (b : Bool) :
    (s.writeG r v n b).core.land = s.core.land := rfl
@[simp] theorem State.writeG_core_cp (s : State) (r : Fin 32) (v : DWord) (n : Nat) (b : Bool) :
    (s.writeG r v n b).core.cp = s.core.cp := rfl
@[simp] theorem State.writeG_core_phase (s : State) (r : Fin 32) (v : DWord) (n : Nat) (b : Bool) :
    (s.writeG r v n b).core.phase = s.core.phase := rfl
@[simp] theorem State.writeG_core_hook (s : State) (r : Fin 32) (v : DWord) (n : Nat) (b : Bool) :
    (s.writeG r v n b).core.hook = s.core.hook := rfl
@[simp] theorem State.writeG_core_bench (s : State) (r : Fin 32) (v : DWord) (n : Nat) (b : Bool) :
    (s.writeG r v n b).core.bench = s.core.bench := rfl
@[simp] theorem State.writeG_core_store (s : State) (r : Fin 32) (v : DWord) (n : Nat) (b : Bool) :
    (s.writeG r v n b).core.store = s.core.store := rfl
@[simp] theorem State.writeG_core_tick (s : State) (r : Fin 32) (v : DWord) (n : Nat) (b : Bool) :
    (s.writeG r v n b).core.tick = s.core.tick := rfl
@[simp] theorem State.writeG_core_gtick (s : State) (r : Fin 32) (v : DWord) (n : Nat) (b : Bool) :
    (s.writeG r v n b).core.gtick = s.core.gtick := rfl
@[simp] theorem State.writeG_core_stall (s : State) (r : Fin 32) (v : DWord) (n : Nat) (b : Bool) :
    (s.writeG r v n b).core.stall = s.core.stall := rfl
@[simp] theorem State.writeG_core_jig (s : State) (r : Fin 32) (v : DWord) (n : Nat) (b : Bool) :
    (s.writeG r v n b).core.jig = s.core.jig := rfl
@[simp] theorem State.writeG_ctl_run (s : State) (r : Fin 32) (v : DWord) (n : Nat) (b : Bool) :
    (s.writeG r v n b).core.ctl.run = s.core.ctl.run := by
  unfold State.writeG Ctl.setBank; by_cases h : s.core.ctl.bank1 = true <;> simp [h]
@[simp] theorem State.writeG_ctl_bank1 (s : State) (r : Fin 32) (v : DWord) (n : Nat) (b : Bool) :
    (s.writeG r v n b).core.ctl.bank1 = s.core.ctl.bank1 := by
  unfold State.writeG Ctl.setBank; by_cases h : s.core.ctl.bank1 = true <;> simp [h]
@[simp] theorem State.writeG_ctl_taintC (s : State) (r : Fin 32) (v : DWord) (n : Nat) (b : Bool) :
    (s.writeG r v n b).core.ctl.taintC = s.core.ctl.taintC := by
  unfold State.writeG Ctl.setBank; by_cases h : s.core.ctl.bank1 = true <;> simp [h]
@[simp] theorem State.writeG_ctl_taintT (s : State) (r : Fin 32) (v : DWord) (n : Nat) (b : Bool) :
    (s.writeG r v n b).core.ctl.taintT = s.core.ctl.taintT := by
  unfold State.writeG Ctl.setBank; by_cases h : s.core.ctl.bank1 = true <;> simp [h]
@[simp] theorem State.writeG_ctl_awaiting (s : State) (r : Fin 32) (v : DWord) (n : Nat) (b : Bool) :
    (s.writeG r v n b).core.ctl.awaiting = s.core.ctl.awaiting := by
  unfold State.writeG Ctl.setBank; by_cases h : s.core.ctl.bank1 = true <;> simp [h]
@[simp] theorem State.writeG_ctl_settling (s : State) (r : Fin 32) (v : DWord) (n : Nat) (b : Bool) :
    (s.writeG r v n b).core.ctl.settling = s.core.ctl.settling := by
  unfold State.writeG Ctl.setBank; by_cases h : s.core.ctl.bank1 = true <;> simp [h]
@[simp] theorem State.writeG_ctl_held16 (s : State) (r : Fin 32) (v : DWord) (n : Nat) (b : Bool) :
    (s.writeG r v n b).core.ctl.held16 = s.core.ctl.held16 := by
  unfold State.writeG Ctl.setBank; by_cases h : s.core.ctl.bank1 = true <;> simp [h]
@[simp] theorem State.writeG_ctl_held17 (s : State) (r : Fin 32) (v : DWord) (n : Nat) (b : Bool) :
    (s.writeG r v n b).core.ctl.held17 = s.core.ctl.held17 := by
  unfold State.writeG Ctl.setBank; by_cases h : s.core.ctl.bank1 = true <;> simp [h]
@[simp] theorem State.writeG_ctl_posted (s : State) (r : Fin 32) (v : DWord) (n : Nat) (b : Bool) :
    (s.writeG r v n b).core.ctl.posted = s.core.ctl.posted := by
  unfold State.writeG Ctl.setBank; by_cases h : s.core.ctl.bank1 = true <;> simp [h]
@[simp] theorem State.writeG_ctl_breakReq (s : State) (r : Fin 32) (v : DWord) (n : Nat) (b : Bool) :
    (s.writeG r v n b).core.ctl.breakReq = s.core.ctl.breakReq := by
  unfold State.writeG Ctl.setBank; by_cases h : s.core.ctl.bank1 = true <;> simp [h]
@[simp] theorem State.writeG_ctl_lastMark (s : State) (r : Fin 32) (v : DWord) (n : Nat) (b : Bool) :
    (s.writeG r v n b).core.ctl.lastMark = s.core.ctl.lastMark := by
  unfold State.writeG Ctl.setBank; by_cases h : s.core.ctl.bank1 = true <;> simp [h]
@[simp] theorem State.writeG_ctl_arrival (s : State) (r : Fin 32) (v : DWord) (n : Nat) (b : Bool) :
    (s.writeG r v n b).core.ctl.arrival = s.core.ctl.arrival := by
  unfold State.writeG Ctl.setBank; by_cases h : s.core.ctl.bank1 = true <;> simp [h]
@[simp] theorem State.writeG_ctl_relTick (s : State) (r : Fin 32) (v : DWord) (n : Nat) (b : Bool) :
    (s.writeG r v n b).core.ctl.relTick = s.core.ctl.relTick := by
  unfold State.writeG Ctl.setBank; by_cases h : s.core.ctl.bank1 = true <;> simp [h]
@[simp] theorem State.writeG_ctl_plumbed (s : State) (r : Fin 32) (v : DWord) (n : Nat) (b : Bool) :
    (s.writeG r v n b).core.ctl.plumbed = s.core.ctl.plumbed := by
  unfold State.writeG Ctl.setBank; by_cases h : s.core.ctl.bank1 = true <;> simp [h]
@[simp] theorem State.writeG_ctl_skipEpc (s : State) (r : Fin 32) (v : DWord) (n : Nat) (b : Bool) :
    (s.writeG r v n b).core.ctl.skipEpc = s.core.ctl.skipEpc := by
  unfold State.writeG Ctl.setBank; by_cases h : s.core.ctl.bank1 = true <;> simp [h]
@[simp] theorem State.writeG_ctl_nestSaved (s : State) (r : Fin 32) (v : DWord) (n : Nat) (b : Bool) :
    (s.writeG r v n b).core.ctl.nestSaved = s.core.ctl.nestSaved := by
  unfold State.writeG Ctl.setBank; by_cases h : s.core.ctl.bank1 = true <;> simp [h]
@[simp] theorem State.writeG_ctl_codeBase (s : State) (r : Fin 32) (v : DWord) (n : Nat) (b : Bool) :
    (s.writeG r v n b).core.ctl.codeBase = s.core.ctl.codeBase := by
  unfold State.writeG Ctl.setBank; by_cases h : s.core.ctl.bank1 = true <;> simp [h]
@[simp] theorem State.writeG_ctl_code (s : State) (r : Fin 32) (v : DWord) (n : Nat) (b : Bool) :
    (s.writeG r v n b).core.ctl.code = s.core.ctl.code := by
  unfold State.writeG Ctl.setBank; by_cases h : s.core.ctl.bank1 = true <;> simp [h]
@[simp] theorem State.writeG_ctl_regs (s : State) (r : Fin 32) (v : DWord) (n : Nat) (b : Bool) :
    (s.writeG r v n b).core.ctl.regs = s.core.ctl.regs := by
  unfold State.writeG Ctl.setBank; by_cases h : s.core.ctl.bank1 = true <;> simp [h]
@[simp] theorem State.writeG_ctl_pcq (s : State) (r : Fin 32) (v : DWord) (n : Nat) (b : Bool) :
    (s.writeG r v n b).core.ctl.pcq = s.core.ctl.pcq := by
  unfold State.writeG Ctl.setBank; by_cases h : s.core.ctl.bank1 = true <;> simp [h]
@[simp] theorem State.writeG_ctl_nest (s : State) (r : Fin 32) (v : DWord) (n : Nat) (b : Bool) :
    (s.writeG r v n b).core.ctl.nest = s.core.ctl.nest := by
  unfold State.writeG Ctl.setBank; by_cases h : s.core.ctl.bank1 = true <;> simp [h]
@[simp] theorem State.writeG_others (s : State) (r : Fin 32) (v : DWord) (n : Nat) (b : Bool) :
    (s.writeG r v n b).others = s.others := rfl
@[simp] theorem State.writeG_sys (s : State) (r : Fin 32) (v : DWord) (n : Nat) (b : Bool) :
    (s.writeG r v n b).sys = s.sys := rfl
@[simp] theorem State.writeG_turn (s : State) (r : Fin 32) (v : DWord) (n : Nat) (b : Bool) :
    (s.writeG r v n b).turn = s.turn := rfl
@[simp] theorem State.writeG_free (s : State) (r : Fin 32) (v : DWord) (n : Nat) (b : Bool) :
    (s.writeG r v n b).free = s.free := rfl
@[simp] theorem State.writeG_inputs (s : State) (r : Fin 32) (v : DWord) (n : Nat) (b : Bool) :
    (s.writeG r v n b).inputs = s.inputs := rfl

/-! ### `setSteer`, and the taint bits -/

@[simp] theorem State.setSteer_core_id (s : State) (r : Fin 16) (f : Steer → Steer) :
    (s.setSteer r f).core.id = s.core.id := by
  unfold State.setSteer; split <;> rfl
@[simp] theorem State.setSteer_core_vis (s : State) (r : Fin 16) (f : Steer → Steer) :
    (s.setSteer r f).core.vis = s.core.vis := by
  unfold State.setSteer; split <;> rfl
@[simp] theorem State.setSteer_core_q (s : State) (r : Fin 16) (f : Steer → Steer) :
    (s.setSteer r f).core.q = s.core.q := by
  unfold State.setSteer; split <;> rfl
@[simp] theorem State.setSteer_core_load (s : State) (r : Fin 16) (f : Steer → Steer) :
    (s.setSteer r f).core.load = s.core.load := by
  unfold State.setSteer; split <;> rfl
@[simp] theorem State.setSteer_core_matrix (s : State) (r : Fin 16) (f : Steer → Steer) :
    (s.setSteer r f).core.matrix = s.core.matrix := by
  unfold State.setSteer; split <;> rfl
@[simp] theorem State.setSteer_core_vector (s : State) (r : Fin 16) (f : Steer → Steer) :
    (s.setSteer r f).core.vector = s.core.vector := by
  unfold State.setSteer; split <;> rfl
@[simp] theorem State.setSteer_core_copy (s : State) (r : Fin 16) (f : Steer → Steer) :
    (s.setSteer r f).core.copy = s.core.copy := by
  unfold State.setSteer; split <;> rfl
@[simp] theorem State.setSteer_core_stream (s : State) (r : Fin 16) (f : Steer → Steer) :
    (s.setSteer r f).core.stream = s.core.stream := by
  unfold State.setSteer; split <;> rfl
@[simp] theorem State.setSteer_core_tok (s : State) (r : Fin 16) (f : Steer → Steer) :
    (s.setSteer r f).core.tok = s.core.tok := by
  unfold State.setSteer; split <;> rfl
@[simp] theorem State.setSteer_core_mx (s : State) (r : Fin 16) (f : Steer → Steer) :
    (s.setSteer r f).core.mx = s.core.mx := by
  unfold State.setSteer; split <;> rfl
@[simp] theorem State.setSteer_core_vec (s : State) (r : Fin 16) (f : Steer → Steer) :
    (s.setSteer r f).core.vec = s.core.vec := by
  unfold State.setSteer; split <;> rfl
@[simp] theorem State.setSteer_core_sd (s : State) (r : Fin 16) (f : Steer → Steer) :
    (s.setSteer r f).core.sd = s.core.sd := by
  unfold State.setSteer; split <;> rfl
@[simp] theorem State.setSteer_core_land (s : State) (r : Fin 16) (f : Steer → Steer) :
    (s.setSteer r f).core.land = s.core.land := by
  unfold State.setSteer; split <;> rfl
@[simp] theorem State.setSteer_core_cp (s : State) (r : Fin 16) (f : Steer → Steer) :
    (s.setSteer r f).core.cp = s.core.cp := by
  unfold State.setSteer; split <;> rfl
@[simp] theorem State.setSteer_core_phase (s : State) (r : Fin 16) (f : Steer → Steer) :
    (s.setSteer r f).core.phase = s.core.phase := by
  unfold State.setSteer; split <;> rfl
@[simp] theorem State.setSteer_core_hook (s : State) (r : Fin 16) (f : Steer → Steer) :
    (s.setSteer r f).core.hook = s.core.hook := by
  unfold State.setSteer; split <;> rfl
@[simp] theorem State.setSteer_core_bench (s : State) (r : Fin 16) (f : Steer → Steer) :
    (s.setSteer r f).core.bench = s.core.bench := by
  unfold State.setSteer; split <;> rfl
@[simp] theorem State.setSteer_core_store (s : State) (r : Fin 16) (f : Steer → Steer) :
    (s.setSteer r f).core.store = s.core.store := by
  unfold State.setSteer; split <;> rfl
@[simp] theorem State.setSteer_core_tick (s : State) (r : Fin 16) (f : Steer → Steer) :
    (s.setSteer r f).core.tick = s.core.tick := by
  unfold State.setSteer; split <;> rfl
@[simp] theorem State.setSteer_core_gtick (s : State) (r : Fin 16) (f : Steer → Steer) :
    (s.setSteer r f).core.gtick = s.core.gtick := by
  unfold State.setSteer; split <;> rfl
@[simp] theorem State.setSteer_core_stall (s : State) (r : Fin 16) (f : Steer → Steer) :
    (s.setSteer r f).core.stall = s.core.stall := by
  unfold State.setSteer; split <;> rfl
@[simp] theorem State.setSteer_core_jig (s : State) (r : Fin 16) (f : Steer → Steer) :
    (s.setSteer r f).core.jig = s.core.jig := by
  unfold State.setSteer; split <;> rfl
@[simp] theorem State.setSteer_ctl_run (s : State) (r : Fin 16) (f : Steer → Steer) :
    (s.setSteer r f).core.ctl.run = s.core.ctl.run := by
  unfold State.setSteer Ctl.setBank; split
  · simp only [State.updCtl]; split <;> rfl
  · rfl
@[simp] theorem State.setSteer_ctl_bank1 (s : State) (r : Fin 16) (f : Steer → Steer) :
    (s.setSteer r f).core.ctl.bank1 = s.core.ctl.bank1 := by
  unfold State.setSteer Ctl.setBank; split
  · simp only [State.updCtl]; split <;> rfl
  · rfl
@[simp] theorem State.setSteer_ctl_taintG (s : State) (r : Fin 16) (f : Steer → Steer) :
    (s.setSteer r f).core.ctl.taintG = s.core.ctl.taintG := by
  unfold State.setSteer Ctl.setBank; split
  · simp only [State.updCtl]; split <;> rfl
  · rfl
@[simp] theorem State.setSteer_ctl_taintC (s : State) (r : Fin 16) (f : Steer → Steer) :
    (s.setSteer r f).core.ctl.taintC = s.core.ctl.taintC := by
  unfold State.setSteer Ctl.setBank; split
  · simp only [State.updCtl]; split <;> rfl
  · rfl
@[simp] theorem State.setSteer_ctl_taintT (s : State) (r : Fin 16) (f : Steer → Steer) :
    (s.setSteer r f).core.ctl.taintT = s.core.ctl.taintT := by
  unfold State.setSteer Ctl.setBank; split
  · simp only [State.updCtl]; split <;> rfl
  · rfl
@[simp] theorem State.setSteer_ctl_pend (s : State) (r : Fin 16) (f : Steer → Steer) :
    (s.setSteer r f).core.ctl.pend = s.core.ctl.pend := by
  unfold State.setSteer Ctl.setBank; split
  · simp only [State.updCtl]; split <;> rfl
  · rfl
@[simp] theorem State.setSteer_ctl_awaiting (s : State) (r : Fin 16) (f : Steer → Steer) :
    (s.setSteer r f).core.ctl.awaiting = s.core.ctl.awaiting := by
  unfold State.setSteer Ctl.setBank; split
  · simp only [State.updCtl]; split <;> rfl
  · rfl
@[simp] theorem State.setSteer_ctl_settling (s : State) (r : Fin 16) (f : Steer → Steer) :
    (s.setSteer r f).core.ctl.settling = s.core.ctl.settling := by
  unfold State.setSteer Ctl.setBank; split
  · simp only [State.updCtl]; split <;> rfl
  · rfl
@[simp] theorem State.setSteer_ctl_held16 (s : State) (r : Fin 16) (f : Steer → Steer) :
    (s.setSteer r f).core.ctl.held16 = s.core.ctl.held16 := by
  unfold State.setSteer Ctl.setBank; split
  · simp only [State.updCtl]; split <;> rfl
  · rfl
@[simp] theorem State.setSteer_ctl_held17 (s : State) (r : Fin 16) (f : Steer → Steer) :
    (s.setSteer r f).core.ctl.held17 = s.core.ctl.held17 := by
  unfold State.setSteer Ctl.setBank; split
  · simp only [State.updCtl]; split <;> rfl
  · rfl
@[simp] theorem State.setSteer_ctl_posted (s : State) (r : Fin 16) (f : Steer → Steer) :
    (s.setSteer r f).core.ctl.posted = s.core.ctl.posted := by
  unfold State.setSteer Ctl.setBank; split
  · simp only [State.updCtl]; split <;> rfl
  · rfl
@[simp] theorem State.setSteer_ctl_breakReq (s : State) (r : Fin 16) (f : Steer → Steer) :
    (s.setSteer r f).core.ctl.breakReq = s.core.ctl.breakReq := by
  unfold State.setSteer Ctl.setBank; split
  · simp only [State.updCtl]; split <;> rfl
  · rfl
@[simp] theorem State.setSteer_ctl_lastMark (s : State) (r : Fin 16) (f : Steer → Steer) :
    (s.setSteer r f).core.ctl.lastMark = s.core.ctl.lastMark := by
  unfold State.setSteer Ctl.setBank; split
  · simp only [State.updCtl]; split <;> rfl
  · rfl
@[simp] theorem State.setSteer_ctl_arrival (s : State) (r : Fin 16) (f : Steer → Steer) :
    (s.setSteer r f).core.ctl.arrival = s.core.ctl.arrival := by
  unfold State.setSteer Ctl.setBank; split
  · simp only [State.updCtl]; split <;> rfl
  · rfl
@[simp] theorem State.setSteer_ctl_relTick (s : State) (r : Fin 16) (f : Steer → Steer) :
    (s.setSteer r f).core.ctl.relTick = s.core.ctl.relTick := by
  unfold State.setSteer Ctl.setBank; split
  · simp only [State.updCtl]; split <;> rfl
  · rfl
@[simp] theorem State.setSteer_ctl_plumbed (s : State) (r : Fin 16) (f : Steer → Steer) :
    (s.setSteer r f).core.ctl.plumbed = s.core.ctl.plumbed := by
  unfold State.setSteer Ctl.setBank; split
  · simp only [State.updCtl]; split <;> rfl
  · rfl
@[simp] theorem State.setSteer_ctl_skipEpc (s : State) (r : Fin 16) (f : Steer → Steer) :
    (s.setSteer r f).core.ctl.skipEpc = s.core.ctl.skipEpc := by
  unfold State.setSteer Ctl.setBank; split
  · simp only [State.updCtl]; split <;> rfl
  · rfl
@[simp] theorem State.setSteer_ctl_nestSaved (s : State) (r : Fin 16) (f : Steer → Steer) :
    (s.setSteer r f).core.ctl.nestSaved = s.core.ctl.nestSaved := by
  unfold State.setSteer Ctl.setBank; split
  · simp only [State.updCtl]; split <;> rfl
  · rfl
@[simp] theorem State.setSteer_ctl_codeBase (s : State) (r : Fin 16) (f : Steer → Steer) :
    (s.setSteer r f).core.ctl.codeBase = s.core.ctl.codeBase := by
  unfold State.setSteer Ctl.setBank; split
  · simp only [State.updCtl]; split <;> rfl
  · rfl
@[simp] theorem State.setSteer_ctl_code (s : State) (r : Fin 16) (f : Steer → Steer) :
    (s.setSteer r f).core.ctl.code = s.core.ctl.code := by
  unfold State.setSteer Ctl.setBank; split
  · simp only [State.updCtl]; split <;> rfl
  · rfl
@[simp] theorem State.setSteer_ctl_regs (s : State) (r : Fin 16) (f : Steer → Steer) :
    (s.setSteer r f).core.ctl.regs = s.core.ctl.regs := by
  unfold State.setSteer Ctl.setBank; split
  · simp only [State.updCtl]; split <;> rfl
  · rfl
@[simp] theorem State.setSteer_ctl_pcq (s : State) (r : Fin 16) (f : Steer → Steer) :
    (s.setSteer r f).core.ctl.pcq = s.core.ctl.pcq := by
  unfold State.setSteer Ctl.setBank; split
  · simp only [State.updCtl]; split <;> rfl
  · rfl
@[simp] theorem State.setSteer_ctl_nest (s : State) (r : Fin 16) (f : Steer → Steer) :
    (s.setSteer r f).core.ctl.nest = s.core.ctl.nest := by
  unfold State.setSteer Ctl.setBank; split
  · simp only [State.updCtl]; split <;> rfl
  · rfl
@[simp] theorem State.setSteer_others (s : State) (r : Fin 16) (f : Steer → Steer) :
    (s.setSteer r f).others = s.others := by
  unfold State.setSteer; split <;> rfl
@[simp] theorem State.setSteer_sys (s : State) (r : Fin 16) (f : Steer → Steer) :
    (s.setSteer r f).sys = s.sys := by
  unfold State.setSteer; split <;> rfl
@[simp] theorem State.setSteer_turn (s : State) (r : Fin 16) (f : Steer → Steer) :
    (s.setSteer r f).turn = s.turn := by
  unfold State.setSteer; split <;> rfl
@[simp] theorem State.setSteer_free (s : State) (r : Fin 16) (f : Steer → Steer) :
    (s.setSteer r f).free = s.free := by
  unfold State.setSteer; split <;> rfl
@[simp] theorem State.setSteer_inputs (s : State) (r : Fin 16) (f : Steer → Steer) :
    (s.setSteer r f).inputs = s.inputs := by
  unfold State.setSteer; split <;> rfl
@[simp] theorem State.setTaintC_core_id (s : State) (r : Fin 16) (b : Bool) :
    (s.setTaintC r b).core.id = s.core.id := by
  unfold State.setTaintC; split <;> rfl
@[simp] theorem State.setTaintC_core_vis (s : State) (r : Fin 16) (b : Bool) :
    (s.setTaintC r b).core.vis = s.core.vis := by
  unfold State.setTaintC; split <;> rfl
@[simp] theorem State.setTaintC_core_q (s : State) (r : Fin 16) (b : Bool) :
    (s.setTaintC r b).core.q = s.core.q := by
  unfold State.setTaintC; split <;> rfl
@[simp] theorem State.setTaintC_core_load (s : State) (r : Fin 16) (b : Bool) :
    (s.setTaintC r b).core.load = s.core.load := by
  unfold State.setTaintC; split <;> rfl
@[simp] theorem State.setTaintC_core_matrix (s : State) (r : Fin 16) (b : Bool) :
    (s.setTaintC r b).core.matrix = s.core.matrix := by
  unfold State.setTaintC; split <;> rfl
@[simp] theorem State.setTaintC_core_vector (s : State) (r : Fin 16) (b : Bool) :
    (s.setTaintC r b).core.vector = s.core.vector := by
  unfold State.setTaintC; split <;> rfl
@[simp] theorem State.setTaintC_core_copy (s : State) (r : Fin 16) (b : Bool) :
    (s.setTaintC r b).core.copy = s.core.copy := by
  unfold State.setTaintC; split <;> rfl
@[simp] theorem State.setTaintC_core_stream (s : State) (r : Fin 16) (b : Bool) :
    (s.setTaintC r b).core.stream = s.core.stream := by
  unfold State.setTaintC; split <;> rfl
@[simp] theorem State.setTaintC_core_tok (s : State) (r : Fin 16) (b : Bool) :
    (s.setTaintC r b).core.tok = s.core.tok := by
  unfold State.setTaintC; split <;> rfl
@[simp] theorem State.setTaintC_core_mx (s : State) (r : Fin 16) (b : Bool) :
    (s.setTaintC r b).core.mx = s.core.mx := by
  unfold State.setTaintC; split <;> rfl
@[simp] theorem State.setTaintC_core_vec (s : State) (r : Fin 16) (b : Bool) :
    (s.setTaintC r b).core.vec = s.core.vec := by
  unfold State.setTaintC; split <;> rfl
@[simp] theorem State.setTaintC_core_sd (s : State) (r : Fin 16) (b : Bool) :
    (s.setTaintC r b).core.sd = s.core.sd := by
  unfold State.setTaintC; split <;> rfl
@[simp] theorem State.setTaintC_core_land (s : State) (r : Fin 16) (b : Bool) :
    (s.setTaintC r b).core.land = s.core.land := by
  unfold State.setTaintC; split <;> rfl
@[simp] theorem State.setTaintC_core_cp (s : State) (r : Fin 16) (b : Bool) :
    (s.setTaintC r b).core.cp = s.core.cp := by
  unfold State.setTaintC; split <;> rfl
@[simp] theorem State.setTaintC_core_phase (s : State) (r : Fin 16) (b : Bool) :
    (s.setTaintC r b).core.phase = s.core.phase := by
  unfold State.setTaintC; split <;> rfl
@[simp] theorem State.setTaintC_core_hook (s : State) (r : Fin 16) (b : Bool) :
    (s.setTaintC r b).core.hook = s.core.hook := by
  unfold State.setTaintC; split <;> rfl
@[simp] theorem State.setTaintC_core_bench (s : State) (r : Fin 16) (b : Bool) :
    (s.setTaintC r b).core.bench = s.core.bench := by
  unfold State.setTaintC; split <;> rfl
@[simp] theorem State.setTaintC_core_store (s : State) (r : Fin 16) (b : Bool) :
    (s.setTaintC r b).core.store = s.core.store := by
  unfold State.setTaintC; split <;> rfl
@[simp] theorem State.setTaintC_core_tick (s : State) (r : Fin 16) (b : Bool) :
    (s.setTaintC r b).core.tick = s.core.tick := by
  unfold State.setTaintC; split <;> rfl
@[simp] theorem State.setTaintC_core_gtick (s : State) (r : Fin 16) (b : Bool) :
    (s.setTaintC r b).core.gtick = s.core.gtick := by
  unfold State.setTaintC; split <;> rfl
@[simp] theorem State.setTaintC_core_stall (s : State) (r : Fin 16) (b : Bool) :
    (s.setTaintC r b).core.stall = s.core.stall := by
  unfold State.setTaintC; split <;> rfl
@[simp] theorem State.setTaintC_core_jig (s : State) (r : Fin 16) (b : Bool) :
    (s.setTaintC r b).core.jig = s.core.jig := by
  unfold State.setTaintC; split <;> rfl
@[simp] theorem State.setTaintC_ctl_run (s : State) (r : Fin 16) (b : Bool) :
    (s.setTaintC r b).core.ctl.run = s.core.ctl.run := by
  unfold State.setTaintC; split
  · simp only [State.updCtl]; split <;> rfl
  · rfl
@[simp] theorem State.setTaintC_ctl_bank1 (s : State) (r : Fin 16) (b : Bool) :
    (s.setTaintC r b).core.ctl.bank1 = s.core.ctl.bank1 := by
  unfold State.setTaintC; split
  · simp only [State.updCtl]; split <;> rfl
  · rfl
@[simp] theorem State.setTaintC_ctl_b0 (s : State) (r : Fin 16) (b : Bool) :
    (s.setTaintC r b).core.ctl.b0 = s.core.ctl.b0 := by
  unfold State.setTaintC; split
  · simp only [State.updCtl]; split <;> rfl
  · rfl
@[simp] theorem State.setTaintC_ctl_b1 (s : State) (r : Fin 16) (b : Bool) :
    (s.setTaintC r b).core.ctl.b1 = s.core.ctl.b1 := by
  unfold State.setTaintC; split
  · simp only [State.updCtl]; split <;> rfl
  · rfl
@[simp] theorem State.setTaintC_ctl_taintG (s : State) (r : Fin 16) (b : Bool) :
    (s.setTaintC r b).core.ctl.taintG = s.core.ctl.taintG := by
  unfold State.setTaintC; split
  · simp only [State.updCtl]; split <;> rfl
  · rfl
@[simp] theorem State.setTaintC_ctl_taintT (s : State) (r : Fin 16) (b : Bool) :
    (s.setTaintC r b).core.ctl.taintT = s.core.ctl.taintT := by
  unfold State.setTaintC; split
  · simp only [State.updCtl]; split <;> rfl
  · rfl
@[simp] theorem State.setTaintC_ctl_pend (s : State) (r : Fin 16) (b : Bool) :
    (s.setTaintC r b).core.ctl.pend = s.core.ctl.pend := by
  unfold State.setTaintC; split
  · simp only [State.updCtl]; split <;> rfl
  · rfl
@[simp] theorem State.setTaintC_ctl_awaiting (s : State) (r : Fin 16) (b : Bool) :
    (s.setTaintC r b).core.ctl.awaiting = s.core.ctl.awaiting := by
  unfold State.setTaintC; split
  · simp only [State.updCtl]; split <;> rfl
  · rfl
@[simp] theorem State.setTaintC_ctl_settling (s : State) (r : Fin 16) (b : Bool) :
    (s.setTaintC r b).core.ctl.settling = s.core.ctl.settling := by
  unfold State.setTaintC; split
  · simp only [State.updCtl]; split <;> rfl
  · rfl
@[simp] theorem State.setTaintC_ctl_held16 (s : State) (r : Fin 16) (b : Bool) :
    (s.setTaintC r b).core.ctl.held16 = s.core.ctl.held16 := by
  unfold State.setTaintC; split
  · simp only [State.updCtl]; split <;> rfl
  · rfl
@[simp] theorem State.setTaintC_ctl_held17 (s : State) (r : Fin 16) (b : Bool) :
    (s.setTaintC r b).core.ctl.held17 = s.core.ctl.held17 := by
  unfold State.setTaintC; split
  · simp only [State.updCtl]; split <;> rfl
  · rfl
@[simp] theorem State.setTaintC_ctl_posted (s : State) (r : Fin 16) (b : Bool) :
    (s.setTaintC r b).core.ctl.posted = s.core.ctl.posted := by
  unfold State.setTaintC; split
  · simp only [State.updCtl]; split <;> rfl
  · rfl
@[simp] theorem State.setTaintC_ctl_breakReq (s : State) (r : Fin 16) (b : Bool) :
    (s.setTaintC r b).core.ctl.breakReq = s.core.ctl.breakReq := by
  unfold State.setTaintC; split
  · simp only [State.updCtl]; split <;> rfl
  · rfl
@[simp] theorem State.setTaintC_ctl_lastMark (s : State) (r : Fin 16) (b : Bool) :
    (s.setTaintC r b).core.ctl.lastMark = s.core.ctl.lastMark := by
  unfold State.setTaintC; split
  · simp only [State.updCtl]; split <;> rfl
  · rfl
@[simp] theorem State.setTaintC_ctl_arrival (s : State) (r : Fin 16) (b : Bool) :
    (s.setTaintC r b).core.ctl.arrival = s.core.ctl.arrival := by
  unfold State.setTaintC; split
  · simp only [State.updCtl]; split <;> rfl
  · rfl
@[simp] theorem State.setTaintC_ctl_relTick (s : State) (r : Fin 16) (b : Bool) :
    (s.setTaintC r b).core.ctl.relTick = s.core.ctl.relTick := by
  unfold State.setTaintC; split
  · simp only [State.updCtl]; split <;> rfl
  · rfl
@[simp] theorem State.setTaintC_ctl_plumbed (s : State) (r : Fin 16) (b : Bool) :
    (s.setTaintC r b).core.ctl.plumbed = s.core.ctl.plumbed := by
  unfold State.setTaintC; split
  · simp only [State.updCtl]; split <;> rfl
  · rfl
@[simp] theorem State.setTaintC_ctl_skipEpc (s : State) (r : Fin 16) (b : Bool) :
    (s.setTaintC r b).core.ctl.skipEpc = s.core.ctl.skipEpc := by
  unfold State.setTaintC; split
  · simp only [State.updCtl]; split <;> rfl
  · rfl
@[simp] theorem State.setTaintC_ctl_nestSaved (s : State) (r : Fin 16) (b : Bool) :
    (s.setTaintC r b).core.ctl.nestSaved = s.core.ctl.nestSaved := by
  unfold State.setTaintC; split
  · simp only [State.updCtl]; split <;> rfl
  · rfl
@[simp] theorem State.setTaintC_ctl_codeBase (s : State) (r : Fin 16) (b : Bool) :
    (s.setTaintC r b).core.ctl.codeBase = s.core.ctl.codeBase := by
  unfold State.setTaintC; split
  · simp only [State.updCtl]; split <;> rfl
  · rfl
@[simp] theorem State.setTaintC_ctl_code (s : State) (r : Fin 16) (b : Bool) :
    (s.setTaintC r b).core.ctl.code = s.core.ctl.code := by
  unfold State.setTaintC; split
  · simp only [State.updCtl]; split <;> rfl
  · rfl
@[simp] theorem State.setTaintC_ctl_regs (s : State) (r : Fin 16) (b : Bool) :
    (s.setTaintC r b).core.ctl.regs = s.core.ctl.regs := by
  unfold State.setTaintC; split
  · simp only [State.updCtl]; split <;> rfl
  · rfl
@[simp] theorem State.setTaintC_ctl_pcq (s : State) (r : Fin 16) (b : Bool) :
    (s.setTaintC r b).core.ctl.pcq = s.core.ctl.pcq := by
  unfold State.setTaintC; split
  · simp only [State.updCtl]; split <;> rfl
  · rfl
@[simp] theorem State.setTaintC_ctl_nest (s : State) (r : Fin 16) (b : Bool) :
    (s.setTaintC r b).core.ctl.nest = s.core.ctl.nest := by
  unfold State.setTaintC; split
  · simp only [State.updCtl]; split <;> rfl
  · rfl
@[simp] theorem State.setTaintC_others (s : State) (r : Fin 16) (b : Bool) :
    (s.setTaintC r b).others = s.others := by
  unfold State.setTaintC; split <;> rfl
@[simp] theorem State.setTaintC_sys (s : State) (r : Fin 16) (b : Bool) :
    (s.setTaintC r b).sys = s.sys := by
  unfold State.setTaintC; split <;> rfl
@[simp] theorem State.setTaintC_turn (s : State) (r : Fin 16) (b : Bool) :
    (s.setTaintC r b).turn = s.turn := by
  unfold State.setTaintC; split <;> rfl
@[simp] theorem State.setTaintC_free (s : State) (r : Fin 16) (b : Bool) :
    (s.setTaintC r b).free = s.free := by
  unfold State.setTaintC; split <;> rfl
@[simp] theorem State.setTaintC_inputs (s : State) (r : Fin 16) (b : Bool) :
    (s.setTaintC r b).inputs = s.inputs := by
  unfold State.setTaintC; split <;> rfl
@[simp] theorem State.setTaintT_core_id (s : State) (r : Fin 16) (b : Bool) :
    (s.setTaintT r b).core.id = s.core.id := by
  unfold State.setTaintT; split <;> rfl
@[simp] theorem State.setTaintT_core_vis (s : State) (r : Fin 16) (b : Bool) :
    (s.setTaintT r b).core.vis = s.core.vis := by
  unfold State.setTaintT; split <;> rfl
@[simp] theorem State.setTaintT_core_q (s : State) (r : Fin 16) (b : Bool) :
    (s.setTaintT r b).core.q = s.core.q := by
  unfold State.setTaintT; split <;> rfl
@[simp] theorem State.setTaintT_core_load (s : State) (r : Fin 16) (b : Bool) :
    (s.setTaintT r b).core.load = s.core.load := by
  unfold State.setTaintT; split <;> rfl
@[simp] theorem State.setTaintT_core_matrix (s : State) (r : Fin 16) (b : Bool) :
    (s.setTaintT r b).core.matrix = s.core.matrix := by
  unfold State.setTaintT; split <;> rfl
@[simp] theorem State.setTaintT_core_vector (s : State) (r : Fin 16) (b : Bool) :
    (s.setTaintT r b).core.vector = s.core.vector := by
  unfold State.setTaintT; split <;> rfl
@[simp] theorem State.setTaintT_core_copy (s : State) (r : Fin 16) (b : Bool) :
    (s.setTaintT r b).core.copy = s.core.copy := by
  unfold State.setTaintT; split <;> rfl
@[simp] theorem State.setTaintT_core_stream (s : State) (r : Fin 16) (b : Bool) :
    (s.setTaintT r b).core.stream = s.core.stream := by
  unfold State.setTaintT; split <;> rfl
@[simp] theorem State.setTaintT_core_tok (s : State) (r : Fin 16) (b : Bool) :
    (s.setTaintT r b).core.tok = s.core.tok := by
  unfold State.setTaintT; split <;> rfl
@[simp] theorem State.setTaintT_core_mx (s : State) (r : Fin 16) (b : Bool) :
    (s.setTaintT r b).core.mx = s.core.mx := by
  unfold State.setTaintT; split <;> rfl
@[simp] theorem State.setTaintT_core_vec (s : State) (r : Fin 16) (b : Bool) :
    (s.setTaintT r b).core.vec = s.core.vec := by
  unfold State.setTaintT; split <;> rfl
@[simp] theorem State.setTaintT_core_sd (s : State) (r : Fin 16) (b : Bool) :
    (s.setTaintT r b).core.sd = s.core.sd := by
  unfold State.setTaintT; split <;> rfl
@[simp] theorem State.setTaintT_core_land (s : State) (r : Fin 16) (b : Bool) :
    (s.setTaintT r b).core.land = s.core.land := by
  unfold State.setTaintT; split <;> rfl
@[simp] theorem State.setTaintT_core_cp (s : State) (r : Fin 16) (b : Bool) :
    (s.setTaintT r b).core.cp = s.core.cp := by
  unfold State.setTaintT; split <;> rfl
@[simp] theorem State.setTaintT_core_phase (s : State) (r : Fin 16) (b : Bool) :
    (s.setTaintT r b).core.phase = s.core.phase := by
  unfold State.setTaintT; split <;> rfl
@[simp] theorem State.setTaintT_core_hook (s : State) (r : Fin 16) (b : Bool) :
    (s.setTaintT r b).core.hook = s.core.hook := by
  unfold State.setTaintT; split <;> rfl
@[simp] theorem State.setTaintT_core_bench (s : State) (r : Fin 16) (b : Bool) :
    (s.setTaintT r b).core.bench = s.core.bench := by
  unfold State.setTaintT; split <;> rfl
@[simp] theorem State.setTaintT_core_store (s : State) (r : Fin 16) (b : Bool) :
    (s.setTaintT r b).core.store = s.core.store := by
  unfold State.setTaintT; split <;> rfl
@[simp] theorem State.setTaintT_core_tick (s : State) (r : Fin 16) (b : Bool) :
    (s.setTaintT r b).core.tick = s.core.tick := by
  unfold State.setTaintT; split <;> rfl
@[simp] theorem State.setTaintT_core_gtick (s : State) (r : Fin 16) (b : Bool) :
    (s.setTaintT r b).core.gtick = s.core.gtick := by
  unfold State.setTaintT; split <;> rfl
@[simp] theorem State.setTaintT_core_stall (s : State) (r : Fin 16) (b : Bool) :
    (s.setTaintT r b).core.stall = s.core.stall := by
  unfold State.setTaintT; split <;> rfl
@[simp] theorem State.setTaintT_core_jig (s : State) (r : Fin 16) (b : Bool) :
    (s.setTaintT r b).core.jig = s.core.jig := by
  unfold State.setTaintT; split <;> rfl
@[simp] theorem State.setTaintT_ctl_run (s : State) (r : Fin 16) (b : Bool) :
    (s.setTaintT r b).core.ctl.run = s.core.ctl.run := by
  unfold State.setTaintT; split
  · simp only [State.updCtl]; split <;> rfl
  · rfl
@[simp] theorem State.setTaintT_ctl_bank1 (s : State) (r : Fin 16) (b : Bool) :
    (s.setTaintT r b).core.ctl.bank1 = s.core.ctl.bank1 := by
  unfold State.setTaintT; split
  · simp only [State.updCtl]; split <;> rfl
  · rfl
@[simp] theorem State.setTaintT_ctl_b0 (s : State) (r : Fin 16) (b : Bool) :
    (s.setTaintT r b).core.ctl.b0 = s.core.ctl.b0 := by
  unfold State.setTaintT; split
  · simp only [State.updCtl]; split <;> rfl
  · rfl
@[simp] theorem State.setTaintT_ctl_b1 (s : State) (r : Fin 16) (b : Bool) :
    (s.setTaintT r b).core.ctl.b1 = s.core.ctl.b1 := by
  unfold State.setTaintT; split
  · simp only [State.updCtl]; split <;> rfl
  · rfl
@[simp] theorem State.setTaintT_ctl_taintG (s : State) (r : Fin 16) (b : Bool) :
    (s.setTaintT r b).core.ctl.taintG = s.core.ctl.taintG := by
  unfold State.setTaintT; split
  · simp only [State.updCtl]; split <;> rfl
  · rfl
@[simp] theorem State.setTaintT_ctl_taintC (s : State) (r : Fin 16) (b : Bool) :
    (s.setTaintT r b).core.ctl.taintC = s.core.ctl.taintC := by
  unfold State.setTaintT; split
  · simp only [State.updCtl]; split <;> rfl
  · rfl
@[simp] theorem State.setTaintT_ctl_pend (s : State) (r : Fin 16) (b : Bool) :
    (s.setTaintT r b).core.ctl.pend = s.core.ctl.pend := by
  unfold State.setTaintT; split
  · simp only [State.updCtl]; split <;> rfl
  · rfl
@[simp] theorem State.setTaintT_ctl_awaiting (s : State) (r : Fin 16) (b : Bool) :
    (s.setTaintT r b).core.ctl.awaiting = s.core.ctl.awaiting := by
  unfold State.setTaintT; split
  · simp only [State.updCtl]; split <;> rfl
  · rfl
@[simp] theorem State.setTaintT_ctl_settling (s : State) (r : Fin 16) (b : Bool) :
    (s.setTaintT r b).core.ctl.settling = s.core.ctl.settling := by
  unfold State.setTaintT; split
  · simp only [State.updCtl]; split <;> rfl
  · rfl
@[simp] theorem State.setTaintT_ctl_held16 (s : State) (r : Fin 16) (b : Bool) :
    (s.setTaintT r b).core.ctl.held16 = s.core.ctl.held16 := by
  unfold State.setTaintT; split
  · simp only [State.updCtl]; split <;> rfl
  · rfl
@[simp] theorem State.setTaintT_ctl_held17 (s : State) (r : Fin 16) (b : Bool) :
    (s.setTaintT r b).core.ctl.held17 = s.core.ctl.held17 := by
  unfold State.setTaintT; split
  · simp only [State.updCtl]; split <;> rfl
  · rfl
@[simp] theorem State.setTaintT_ctl_posted (s : State) (r : Fin 16) (b : Bool) :
    (s.setTaintT r b).core.ctl.posted = s.core.ctl.posted := by
  unfold State.setTaintT; split
  · simp only [State.updCtl]; split <;> rfl
  · rfl
@[simp] theorem State.setTaintT_ctl_breakReq (s : State) (r : Fin 16) (b : Bool) :
    (s.setTaintT r b).core.ctl.breakReq = s.core.ctl.breakReq := by
  unfold State.setTaintT; split
  · simp only [State.updCtl]; split <;> rfl
  · rfl
@[simp] theorem State.setTaintT_ctl_lastMark (s : State) (r : Fin 16) (b : Bool) :
    (s.setTaintT r b).core.ctl.lastMark = s.core.ctl.lastMark := by
  unfold State.setTaintT; split
  · simp only [State.updCtl]; split <;> rfl
  · rfl
@[simp] theorem State.setTaintT_ctl_arrival (s : State) (r : Fin 16) (b : Bool) :
    (s.setTaintT r b).core.ctl.arrival = s.core.ctl.arrival := by
  unfold State.setTaintT; split
  · simp only [State.updCtl]; split <;> rfl
  · rfl
@[simp] theorem State.setTaintT_ctl_relTick (s : State) (r : Fin 16) (b : Bool) :
    (s.setTaintT r b).core.ctl.relTick = s.core.ctl.relTick := by
  unfold State.setTaintT; split
  · simp only [State.updCtl]; split <;> rfl
  · rfl
@[simp] theorem State.setTaintT_ctl_plumbed (s : State) (r : Fin 16) (b : Bool) :
    (s.setTaintT r b).core.ctl.plumbed = s.core.ctl.plumbed := by
  unfold State.setTaintT; split
  · simp only [State.updCtl]; split <;> rfl
  · rfl
@[simp] theorem State.setTaintT_ctl_skipEpc (s : State) (r : Fin 16) (b : Bool) :
    (s.setTaintT r b).core.ctl.skipEpc = s.core.ctl.skipEpc := by
  unfold State.setTaintT; split
  · simp only [State.updCtl]; split <;> rfl
  · rfl
@[simp] theorem State.setTaintT_ctl_nestSaved (s : State) (r : Fin 16) (b : Bool) :
    (s.setTaintT r b).core.ctl.nestSaved = s.core.ctl.nestSaved := by
  unfold State.setTaintT; split
  · simp only [State.updCtl]; split <;> rfl
  · rfl
@[simp] theorem State.setTaintT_ctl_codeBase (s : State) (r : Fin 16) (b : Bool) :
    (s.setTaintT r b).core.ctl.codeBase = s.core.ctl.codeBase := by
  unfold State.setTaintT; split
  · simp only [State.updCtl]; split <;> rfl
  · rfl
@[simp] theorem State.setTaintT_ctl_code (s : State) (r : Fin 16) (b : Bool) :
    (s.setTaintT r b).core.ctl.code = s.core.ctl.code := by
  unfold State.setTaintT; split
  · simp only [State.updCtl]; split <;> rfl
  · rfl
@[simp] theorem State.setTaintT_ctl_regs (s : State) (r : Fin 16) (b : Bool) :
    (s.setTaintT r b).core.ctl.regs = s.core.ctl.regs := by
  unfold State.setTaintT; split
  · simp only [State.updCtl]; split <;> rfl
  · rfl
@[simp] theorem State.setTaintT_ctl_pcq (s : State) (r : Fin 16) (b : Bool) :
    (s.setTaintT r b).core.ctl.pcq = s.core.ctl.pcq := by
  unfold State.setTaintT; split
  · simp only [State.updCtl]; split <;> rfl
  · rfl
@[simp] theorem State.setTaintT_ctl_nest (s : State) (r : Fin 16) (b : Bool) :
    (s.setTaintT r b).core.ctl.nest = s.core.ctl.nest := by
  unfold State.setTaintT; split
  · simp only [State.updCtl]; split <;> rfl
  · rfl
@[simp] theorem State.setTaintT_others (s : State) (r : Fin 16) (b : Bool) :
    (s.setTaintT r b).others = s.others := by
  unfold State.setTaintT; split <;> rfl
@[simp] theorem State.setTaintT_sys (s : State) (r : Fin 16) (b : Bool) :
    (s.setTaintT r b).sys = s.sys := by
  unfold State.setTaintT; split <;> rfl
@[simp] theorem State.setTaintT_turn (s : State) (r : Fin 16) (b : Bool) :
    (s.setTaintT r b).turn = s.turn := by
  unfold State.setTaintT; split <;> rfl
@[simp] theorem State.setTaintT_free (s : State) (r : Fin 16) (b : Bool) :
    (s.setTaintT r b).free = s.free := by
  unfold State.setTaintT; split <;> rfl
@[simp] theorem State.setTaintT_inputs (s : State) (r : Fin 16) (b : Bool) :
    (s.setTaintT r b).inputs = s.inputs := by
  unfold State.setTaintT; split <;> rfl

end Sys2Proof.Machine
end

