-- ==== Sys2Proof/Laws/Control.lean ====
section
/-! SUPPORT. One lemma for each shared operation of control words: reading and writing registers
(R12, R34, R43), issuing (R41, R72), and the frame of a word that issues. -/

namespace Sys2Proof.Machine

/-! ### Memories of equal states -/

/-- A home's memory depends on the benches, the lofts, HBM and host memory alone. -/
theorem State.mem_congr {s t : State} (hi : t.core.id = s.core.id) (hb : t.core.bench = s.core.bench)
    (ho : t.others = s.others) (hs : t.sys = s.sys) (sp : Space) : t.mem sp = s.mem sp := by
  cases sp <;> simp only [State.mem, State.coreAt, hi, ho, hs]
  · split <;> rename_i c h
    · by_cases hk : s.core.id.num = ‹Nat›
      · simp only [hk, if_true, Option.some.injEq] at h; subst h; simp [hk, hb]
      · simp only [hk, if_false] at h; simp [hk, h]
    · by_cases hk : s.core.id.num = ‹Nat›
      · simp [hk] at h
      · simp only [hk, if_false] at h; simp [hk, h]

theorem MemSame.of_eq {s t : State} (hi : t.core.id = s.core.id) (hb : t.core.bench = s.core.bench)
    (ho : t.others = s.others) (hs : t.sys = s.sys) : MemSame s t := fun sp a => by
  rw [State.mem_congr hi hb ho hs]

/-! ### Reading a g register -/

/-- A read changes the free counter at most. -/
theorem State.readG_snd (s : State) (r : Fin 32) :
    (s.readG r).2 = s ∨ (s.readG r).2 = { s with free := s.free + 1 } := by
  unfold State.readG; split
  · exact .inl rfl
  · exact .inr rfl

@[simp] theorem State.readG_core (s : State) (r : Fin 32) : (s.readG r).2.core = s.core := by
  rcases s.readG_snd r with h | h <;> rw [h]
@[simp] theorem State.readG_others (s : State) (r : Fin 32) : (s.readG r).2.others = s.others := by
  rcases s.readG_snd r with h | h <;> rw [h]
@[simp] theorem State.readG_sys (s : State) (r : Fin 32) : (s.readG r).2.sys = s.sys := by
  rcases s.readG_snd r with h | h <;> rw [h]
@[simp] theorem State.readG_inputs (s : State) (r : Fin 32) : (s.readG r).2.inputs = s.inputs := by
  rcases s.readG_snd r with h | h <;> rw [h]

/-- A read returns a value that R12 and R43 allow. -/
theorem State.readG_mem (s : State) (r : Fin 32) : (s.readG r).1 ∈ s.core.mayRead r := by
  unfold State.readG Core.mayRead
  split <;> rename_i h
  · simp
  · rename_i o os
    simp only
    rw [h]
    rcases hx : (o :: os)[(s.pick (os.length + 2)).1]? with _ | y
    · simp
    · exact List.mem_cons_of_mem _ (List.mem_of_getElem? hx)

/-- Outside a shadow a read returns the register's value and changes nothing. -/
theorem State.readG_calm {s : State} {r : Fin 32} (h : (s.core.olds r).isEmpty = true) :
    s.readG r = (s.core.g r, s) := by
  unfold State.readG; rw [List.isEmpty_iff.mp h]

/-! ### Writing a g register -/

theorem State.writeG_b0 (s : State) (r : Fin 32) (v : DWord) (n : Nat) (b : Bool) :
    (s.writeG r v n b).core.ctl.b0
      = if s.core.ctl.bank1 then s.core.ctl.b0 else s.core.ctl.b0.setG r v := by
  unfold State.writeG Ctl.setBank; by_cases h : s.core.ctl.bank1 = true <;> simp [h]
theorem State.writeG_b1 (s : State) (r : Fin 32) (v : DWord) (n : Nat) (b : Bool) :
    (s.writeG r v n b).core.ctl.b1
      = if s.core.ctl.bank1 then s.core.ctl.b1.setG r v else s.core.ctl.b1 := by
  unfold State.writeG Ctl.setBank; by_cases h : s.core.ctl.bank1 = true <;> simp [h]

theorem State.writeG_bank (s : State) (r : Fin 32) (v : DWord) (n : Nat) (b : Bool) :
    (s.writeG r v n b).core.ctl.bank = s.core.ctl.bank.setG r v := by
  unfold Ctl.bank
  rw [State.writeG_ctl_bank1, State.writeG_b0, State.writeG_b1]
  split <;> rfl

/-- The value a write leaves (R34): g0 still reads zero, every other register stands. -/
theorem State.writeG_g (s : State) (r k : Fin 32) (v : DWord) (n : Nat) (b : Bool) :
    (s.writeG r v n b).core.g k = if k = r then (if r = 0 then 0 else v) else s.core.g k := by
  unfold Core.g
  rw [State.writeG_bank]
  unfold Bank.setG
  by_cases hk : k = 0
  · subst hk; by_cases hr : (0 : Fin 32) = r <;> simp [hr]
  · by_cases hr : k = r
    · subst hr; simp [hk]
    · by_cases h0 : r = 0
      · simp [h0, hk]
      · have : r.val ≠ k.val := fun h => hr (Fin.ext h.symm)
        simp [h0, hk, hr, this]

theorem State.writeG_steer (s : State) (r : Fin 32) (k : Fin 16) (v : DWord) (n : Nat) (b : Bool) :
    (s.writeG r v n b).core.steer k = s.core.steer k := by
  unfold Core.steer; split
  · simp only [State.writeG_bank, Bank.setG]; split <;> rfl
  · rfl

/-- A locked write is a write that the next word awaits (R44). -/
theorem State.writeGLocked_core (s : State) (r : Fin 32) (v : DWord) (b : Bool) :
    (s.writeGLocked r v b).core
      = { (s.writeG r v 1 b).core with
          ctl := { (s.writeG r v 1 b).core.ctl with awaiting := true } } := rfl

/-! ### Writing a steer register -/

theorem State.setSteer_g (s : State) (r : Fin 16) (f : Steer → Steer) (k : Fin 32) :
    (s.setSteer r f).core.g k = s.core.g k := by
  unfold Core.g Ctl.bank State.setSteer Ctl.setBank
  split
  · rfl
  · split
    · simp only [State.updCtl]; by_cases h : s.core.ctl.bank1 = true <;> simp [h]
    · rfl

/-- The register written takes the change, every other stands (R36). -/
theorem State.setSteer_steer (s : State) (r k : Fin 16) (f : Steer → Steer) (hr : r.val < 12) :
    (s.setSteer r f).core.steer k = if k = r then f (s.core.steer r) else s.core.steer k := by
  unfold Core.steer State.setSteer Ctl.setBank Ctl.bank
  simp only [hr, dif_pos, State.updCtl]
  by_cases hk : k.val < 12
  · by_cases h : k = r
    · subst h; by_cases hb : s.core.ctl.bank1 = true <;> simp [hb, hr]
    · have : r.val ≠ k.val := fun e => h (Fin.ext e.symm)
      by_cases hb : s.core.ctl.bank1 = true <;> simp [hb, hk, h, this]
  · have : k ≠ r := fun h => hk (h ▸ hr)
    simp [hk, this]

theorem State.setSteer_other (s : State) (r : Fin 16) (f : Steer → Steer) :
    if s.core.ctl.bank1 then (s.setSteer r f).core.ctl.b0 = s.core.ctl.b0
    else (s.setSteer r f).core.ctl.b1 = s.core.ctl.b1 := by
  unfold State.setSteer Ctl.setBank
  by_cases hr : r.val < 12 <;> by_cases hb : s.core.ctl.bank1 = true <;>
    simp [State.updCtl, hb, hr]

theorem State.setTaintC_bank (s : State) (r : Fin 16) (b : Bool) :
    (s.setTaintC r b).core.ctl.bank = s.core.ctl.bank := by
  unfold Ctl.bank; simp
theorem State.setTaintT_bank (s : State) (r : Fin 16) (b : Bool) :
    (s.setTaintT r b).core.ctl.bank = s.core.ctl.bank := by
  unfold Ctl.bank; simp

/-! ### Issuing -/

/-- What issuing a word changes (R41, R72): the place of the stream, the ticks, the exemption of
R368, the note of R300; everything else is the state that the word's body left. -/
structure Issued.Rest (s t : State) : Prop where
  id : t.core.id = s.core.id
  tick : t.core.tick = s.core.tick + 1
  gtick : t.core.gtick = if s.core.gheld then s.core.gtick else s.core.gtick + 1
  bank1 : t.core.ctl.bank1 = s.core.ctl.bank1
  b0 : t.core.ctl.b0 = s.core.ctl.b0
  b1 : t.core.ctl.b1 = s.core.ctl.b1
  taintG : t.core.ctl.taintG = s.core.ctl.taintG
  taintC : t.core.ctl.taintC = s.core.ctl.taintC
  taintT : t.core.ctl.taintT = s.core.ctl.taintT
  run : t.core.ctl.run = s.core.ctl.run
  arrival : t.core.ctl.arrival = s.core.ctl.arrival
  awaiting : t.core.ctl.awaiting = s.core.ctl.awaiting
  lastMark : t.core.ctl.lastMark = s.core.ctl.lastMark
  regs : t.core.ctl.regs = s.core.ctl.regs
  vis : t.core.vis = s.core.vis
  q : t.core.q = s.core.q
  load : t.core.load = s.core.load
  matrix : t.core.matrix = s.core.matrix
  vector : t.core.vector = s.core.vector
  copy : t.core.copy = s.core.copy
  stream : t.core.stream = s.core.stream
  tok : t.core.tok = s.core.tok
  mx : t.core.mx = s.core.mx
  vec : t.core.vec = s.core.vec
  sd : s.core.stoodStill = false → t.core.sd = s.core.sd
  stopped : t.core.stall.stopped = s.core.stall.stopped
  land : t.core.land = s.core.land
  cp : t.core.cp = s.core.cp
  phase : t.core.phase = s.core.phase
  hook : t.core.hook = s.core.hook
  bench : t.core.bench = s.core.bench
  store : t.core.store = s.core.store
  jig : t.core.jig.jig = s.core.jig.jig
  norec : s.core.jig.recording = none → t.core.jig.recording = none
  others : t.others = s.others
  sys : t.sys = s.sys
  inputs : t.inputs = s.inputs

theorem noStep_eq {s t : State} (hr : t.core.ctl.regs = s.core.ctl.regs)
    (hb : t.core.ctl.bank1 = s.core.ctl.bank1) : noStep t = noStep s := by
  unfold noStep; rw [hr, hb]

theorem gheld_congr {c d : Core} (h1 : c.stall.stopped = d.stall.stopped)
    (h2 : c.ctl.bank1 = d.ctl.bank1) (h3 : c.ctl.regs = d.ctl.regs)
    (h4 : c.ctl.arrival = d.ctl.arrival) : c.gheld = d.gheld := by
  unfold Core.gheld; rw [h1, h2, h3, h4]

theorem Core.slips_of_stoodStill {c : Core} (h : c.stoodStill = false) : c.slips = false := by
  unfold Core.stoodStill at h; unfold Core.slips; rw [h, Bool.false_and]

/-- The tick of a word that no cause 0x17 follows (R41, R150). -/
theorem ctlTick_noStep {s : State} (h : noStep s = true) :
    ctlTick s = (s.upd fun c =>
      { (Core.tickOn c) with stall := { (Core.tickOn c).stall with progress := c.tick + 1 } }).pass := by
  have hs : ¬((s.core.ctl.regs.sstep && !s.core.ctl.bank1) = true) := by
    unfold noStep at h; revert h; cases s.core.ctl.regs.sstep <;> cases s.core.ctl.bank1 <;> simp
  unfold ctlTick
  simp only [State.upd_core, Core.tickOn_ctl_regs, hs, Bool.false_eq_true, if_false]

/-- A word that no cause 0x17 follows only passes (R41, R72). -/
theorem ctlDoneWith_rest (post : PcQueue → PcQueue) {s : State} (h : noStep s = true) :
    Issued.Rest s (ctlDoneWith post s) := by
  unfold ctlDoneWith
  rw [ctlTick_noStep ((noStep_eq (by simp) (by simp)).trans h)]
  constructor <;> first
    | (intro hs
       exact (Core.tickOn_sd _ (Core.slips_of_stoodStill (by simpa [Core.stoodStill] using hs))).trans (by simp))
    | (simp; done)
    | simp [Core.tickOn, Core.gheld]

/-- What a word that has issued leaves of the PC queue: the queue moves, then `post` changes it (R41). -/
theorem ctlDoneWith_pcq (post : PcQueue → PcQueue) {s : State} (h : noStep s = true)
    (hp : plainStream s = true) : (ctlDoneWith post s).core.ctl.pcq = post s.core.rotate := by
  unfold ctlDoneWith
  rw [ctlTick_noStep ((noStep_eq (by simp) (by simp)).trans h)]
  unfold plainStream at hp
  simp only [Bool.and_eq_true, Option.isNone_iff_eq_none] at hp
  simp [State.advance, hp.1, hp.2]

/-- The same for a word that only issues. -/
theorem issue_rest {s : State} (h : noStep s = true) :
    Issued.Rest s (ctlDone s.endSkip.clearReach) := by
  have := ctlDoneWith_rest id (s := s.endSkip.clearReach) ((noStep_eq (by simp) (by simp)).trans h)
  constructor <;> first
    | (rw [show ctlDone s.endSkip.clearReach = ctlDoneWith id s.endSkip.clearReach from rfl,
        this.gtick, gheld_congr (d := s.core) (by simp) (by simp) (by simp) (by simp)]; simp)
    | (intro e; exact this.norec (by unfold State.clearReach; split <;> simp_all))
    | (intro hs; exact (this.sd (by simpa [Core.stoodStill] using hs)).trans (by simp))
    | simp [ctlDone, this.id, this.tick, this.bank1, this.b0, this.b1, this.taintG, this.taintC,
        this.taintT, this.run, this.arrival, this.awaiting, this.lastMark, this.regs, this.vis, this.q,
        this.load, this.matrix, this.vector, this.copy, this.stream, this.tok, this.mx, this.vec,
        this.stopped, this.land, this.cp, this.phase, this.hook, this.bench, this.store, this.jig,
        this.others, this.sys, this.inputs]

/-- What decides where the stream goes on stands: the PC queue, the nest, the replay, the code, the tick. -/
structure Stands (s u : State) : Prop where
  pcq : u.core.ctl.pcq = s.core.ctl.pcq
  nest : u.core.ctl.nest = s.core.ctl.nest
  play : u.core.jig.play = s.core.jig.play
  bank1 : u.core.ctl.bank1 = s.core.ctl.bank1
  base : u.core.ctl.codeBase = s.core.ctl.codeBase
  code : u.core.ctl.code = s.core.ctl.code
  store : u.core.store = s.core.store
  tick : u.core.tick = s.core.tick

theorem Stands.trans {s t u : State} (h : Stands s t) (k : Stands t u) : Stands s u :=
  ⟨k.pcq.trans h.pcq, k.nest.trans h.nest, k.play.trans h.play, k.bank1.trans h.bank1, k.base.trans h.base,
    k.code.trans h.code, k.store.trans h.store, k.tick.trans h.tick⟩

theorem Stands.rotate {s u : State} (h : Stands s u) : u.core.rotate = s.core.rotate := by
  have hf : ∀ a, u.core.fetch a = s.core.fetch a := fun a => by
    unfold Core.fetch; rw [h.bank1, h.store, h.base, h.code]
  have hs : ∀ a, u.core.stepOf a = s.core.stepOf a := fun a => by unfold Core.stepOf; rw [hf]
  unfold Core.rotate; rw [h.pcq]; simp only [hs]

theorem Stands.plain {s u : State} (h : Stands s u) : plainStream u = plainStream s := by
  unfold plainStream Core.livePlay; rw [h.play, h.nest]

/-- A word whose body leaves the stream where it stands is passed (R41). -/
theorem issue_moves {s u : State} (h : noStep u = true) (hs : Stands s u) :
    Moves s (ctlDone u.endSkip.clearReach) where
  tick := (issue_rest h).tick.trans (by rw [hs.tick])
  pcq := fun hp => by
    have hc : Stands s u.endSkip.clearReach := hs.trans {
      pcq := by simp
      nest := by simp
      play := by unfold State.clearReach; split <;> simp
      bank1 := by simp
      base := by simp
      code := by simp
      store := by simp
      tick := by simp }
    exact (ctlDoneWith_pcq id ((noStep_eq (by simp) (by simp)).trans h) (hc.plain.trans hp)).trans
      (by simp [hc.rotate])

namespace Issued.Rest
variable {s t : State}

theorem bankEq (h : Issued.Rest s t) : t.core.ctl.bank = s.core.ctl.bank := by
  unfold Ctl.bank; rw [h.bank1, h.b0, h.b1]
theorem g (h : Issued.Rest s t) (r : Fin 32) : t.core.g r = s.core.g r := by
  unfold Core.g; rw [h.bankEq]
theorem steer (h : Issued.Rest s t) (r : Fin 16) : t.core.steer r = s.core.steer r := by
  unfold Core.steer; rw [h.bankEq]
theorem eng (h : Issued.Rest s t) (e : Engine) : t.core.eng e = s.core.eng e := by
  cases e
  · exact h.load
  · exact h.matrix
  · exact h.vector
  · exact h.copy
  · exact h.stream
theorem memSame (h : Issued.Rest s t) : MemSame s t := MemSame.of_eq h.id h.bench h.others h.sys

/-- The frame of a word that issues with no effect of its own. -/
theorem frame (h : Issued.Rest s t) : CtlFrame [] [] s t where
  reg := ⟨fun r _ => h.g r, fun r _ => h.steer r, h.bank1, by split <;> first | exact h.b0 | exact h.b1⟩
  unit := ⟨h.eng, h.tok, h.mx, h.vec, h.land, h.cp, h.sd, h.stopped⟩
  regs := h.regs
  vis := h.vis
  q := h.q
  jig := fun e => ⟨h.norec e, h.jig⟩
  others := h.others
  sys := h.sys
  mem := h.memSame

end Issued.Rest

/-! ### Frames -/

theorem CtlFrame.trans {gs gs' : List (Fin 32)} {ss ss' : List (Fin 16)} {s t u : State}
    (h : CtlFrame gs ss s t) (k : CtlFrame gs' ss' t u) : CtlFrame (gs ++ gs') (ss ++ ss') s u where
  reg := {
    g := fun r hr => (k.reg.g r (by simp_all)).trans (h.reg.g r (by simp_all))
    steer := fun r hr => (k.reg.steer r (by simp_all)).trans (h.reg.steer r (by simp_all))
    bank := k.reg.bank.trans h.reg.bank
    other := by
      have a := h.reg.other; have b := k.reg.other; rw [h.reg.bank] at b
      split at a <;> simp_all }
  unit := ⟨fun e => (k.unit.eng e).trans (h.unit.eng e), k.unit.tok.trans h.unit.tok,
    k.unit.mx.trans h.unit.mx, k.unit.vec.trans h.unit.vec, k.unit.land.trans h.unit.land,
    k.unit.cp.trans h.unit.cp, fun hs => (k.unit.sd (by
      unfold Core.stoodStill at hs ⊢; rw [h.unit.stopped, h.reg.bank]; exact hs)).trans (h.unit.sd hs),
    k.unit.stopped.trans h.unit.stopped⟩
  regs := k.regs.trans h.regs
  vis := k.vis.trans h.vis
  q := k.q.trans h.q
  jig := fun e => ⟨(k.jig (h.jig e).1).1, (k.jig (h.jig e).1).2.trans (h.jig e).2⟩
  others := k.others.trans h.others
  sys := k.sys.trans h.sys
  mem := fun sp a => (k.mem sp a).trans (h.mem sp a)

theorem CtlFrame.readG (s : State) (r : Fin 32) : CtlFrame [] [] s (s.readG r).2 := by
  rcases s.readG_snd r with h | h <;> rw [h] <;>
    exact ⟨⟨⟨fun _ _ => rfl, fun _ _ => rfl, rfl, by split <;> rfl⟩,
      ⟨fun _ => rfl, rfl, rfl, rfl, rfl, rfl, fun _ => rfl, rfl⟩, rfl, fun e => ⟨e, rfl⟩⟩, rfl, rfl, rfl, rfl, fun _ _ => rfl⟩

theorem CtlFrame.writeG (s : State) (r : Fin 32) (v : DWord) (n : Nat) (b : Bool) :
    CtlFrame [r] [] s (s.writeG r v n b) where
  reg := {
    g := fun k hk => by rw [State.writeG_g, if_neg (by simpa using hk)]
    steer := fun k _ => s.writeG_steer r k v n b
    bank := by simp
    other := by rw [State.writeG_b0, State.writeG_b1]; split <;> simp_all }
  unit := ⟨fun e => by cases e <;> rfl, rfl, rfl, rfl, rfl, rfl, fun _ => rfl, rfl⟩
  regs := by simp
  vis := rfl
  q := rfl
  jig := fun e => ⟨e, rfl⟩
  others := rfl
  sys := rfl
  mem := MemSame.of_eq rfl rfl rfl rfl

theorem CtlFrame.setSteer (s : State) (r : Fin 16) (f : Steer → Steer) :
    CtlFrame [] [r] s (s.setSteer r f) where
  reg := {
    g := fun k _ => s.setSteer_g r f k
    steer := fun k hk => by
      by_cases hr : r.val < 12
      · rw [s.setSteer_steer r k f hr, if_neg (by simpa using hk)]
      · unfold State.setSteer; rw [dif_neg hr]
    bank := by simp
    other := s.setSteer_other r f }
  unit := ⟨fun e => by cases e <;> simp [Core.eng], by simp, by simp, by simp, by simp, by simp, by simp, by simp⟩
  regs := by simp
  vis := by simp
  q := by simp
  jig := fun e => by simp [e]
  others := by simp
  sys := by simp
  mem := MemSame.of_eq (by simp) (by simp) (by simp) (by simp)

end Sys2Proof.Machine
end

