-- ==== Sys2Proof/Laws/CtlShapes.lean ====
section
/-! SUPPORT. One spec lemma for each shape of control word: what it answers, for every state in
which the word goes. -/

namespace Sys2Proof.Machine

theorem ctlGoes_shadow {s : State} {rs : List (Fin 32)} (h : ctlGoes s rs = true) :
    shadowTrap s rs = none := by
  unfold ctlGoes at h; unfold shadowTrap
  simp only [Bool.and_eq_true, Bool.or_eq_true, Bool.not_eq_true'] at h
  split
  · rename_i hs
    have h' := h.1.resolve_left (by simp [hs])
    have : rs.find? (fun r => !(s.core.olds r).isEmpty) = none := by
      rw [List.find?_eq_none]; intro r hr
      have := List.all_eq_true.mp h' r hr
      simp [this]
    rw [this]
  · rfl

theorem ctlGoes_step {s : State} {rs : List (Fin 32)} (h : ctlGoes s rs = true) : noStep s = true := by
  unfold ctlGoes at h; simp only [Bool.and_eq_true] at h; exact h.2

theorem ctlCalm_goes {s : State} {rs : List (Fin 32)} (h : ctlCalm s rs = true) :
    ctlGoes s rs = true := by
  unfold ctlCalm at h; unfold ctlGoes; simp only [Bool.and_eq_true, Bool.or_eq_true] at *
  exact ⟨.inr h.1, h.2⟩

theorem ctlCalm_olds {s : State} {rs : List (Fin 32)} (h : ctlCalm s rs = true) {r : Fin 32}
    (hr : r ∈ rs) : (s.core.olds r).isEmpty = true := by
  unfold ctlCalm at h; simp only [Bool.and_eq_true] at h
  exact List.all_eq_true.mp h.1 r hr

theorem ctlCalm_readG {s : State} {rs : List (Fin 32)} (h : ctlCalm s rs = true) {r : Fin 32}
    (hr : r ∈ rs) : s.readG r = (s.core.g r, s) := State.readG_calm (ctlCalm_olds h hr)

/-- A word that goes runs its body (R72). -/
theorem ctlWord_goes {s : State} {rs : List (Fin 32)} (h : ctlGoes s rs = true)
    (body : State → Res) : ctlWord rs s body = finish s (body s) := by
  unfold ctlWord; rw [ctlGoes_shadow h]

/-- A body that issues a state with a frame: the word's whole effect is that state's. -/
theorem finish_frame {s s0 u : State} {rs gs : List (Fin 32)} {ss : List (Fin 16)}
    (h : ctlGoes s rs = true) (hf : CtlFrame gs ss s u) (hs : Stands s u) :
    ∃ t, finish s0 (.issue u) = .next t ∧ Issued.Rest u t ∧ CtlFrame gs ss s t ∧ Moves s t := by
  have hn := (noStep_eq hf.regs hf.reg.bank).trans (ctlGoes_step h)
  have hr := issue_rest hn
  exact ⟨_, rfl, hr, by simpa using hf.trans hr.frame, issue_moves hn hs⟩

theorem Stands.readG (s : State) (r : Fin 32) : Stands s (s.readG r).2 := by constructor <;> simp
theorem Stands.writeG (s : State) (r : Fin 32) (v : DWord) (n : Nat) (b : Bool) :
    Stands s (s.writeG r v n b) := by constructor <;> simp
theorem Stands.writeCond (s : State) (r : Fin 16) (v b : Bool) : Stands s (s.writeCond r v b) := by
  constructor <;> simp [State.writeCond]

/-- A word that reads two registers and writes one (R74). -/
theorem alu3_spec (f : DWord → DWord → DWord) (n : Nat) {s : State} {d a b : Fin 32}
    (h : ctlGoes s [a, b] = true) :
    ∃ x ∈ s.core.mayRead a, ∃ y ∈ s.core.mayRead b, ∃ t, alu3 f n d a b s = .next t
      ∧ t.core.g d = (if d = 0 then 0 else f x y) ∧ CtlFrame [d] [] s t ∧ Moves s t := by
  refine ⟨(s.readG a).1, s.readG_mem a, ((s.readG a).2.readG b).1, ?_, ?_⟩
  · have := (s.readG a).2.readG_mem b; simpa using this
  · obtain ⟨t, h1, h2, h3, h4⟩ := finish_frame (s0 := s) (gs := [d]) (ss := []) h
      (u := ((s.readG a).2.readG b).2.writeG d (f (s.readG a).1 ((s.readG a).2.readG b).1) n
        (s.taint a || s.taint b))
      (((CtlFrame.readG s a).trans (CtlFrame.readG _ b)).trans (CtlFrame.writeG _ d _ n _))
      (((Stands.readG s a).trans (Stands.readG _ b)).trans (Stands.writeG _ d _ n _))
    exact ⟨t, (ctlWord_goes h _).trans h1, by rw [h2.g, State.writeG_g]; simp, h3, h4⟩

/-- A word that reads one register and writes one (R74, R76). -/
theorem alu2_spec (f : DWord → DWord) {s : State} {d a : Fin 32} (h : ctlGoes s [a] = true) :
    ∃ x ∈ s.core.mayRead a, ∃ t, alu2 f d a s = .next t
      ∧ t.core.g d = (if d = 0 then 0 else f x) ∧ CtlFrame [d] [] s t ∧ Moves s t := by
  refine ⟨(s.readG a).1, s.readG_mem a, ?_⟩
  obtain ⟨t, h1, h2, h3, h4⟩ := finish_frame (s0 := s) (gs := [d]) (ss := []) h
    (u := (s.readG a).2.writeG d (f (s.readG a).1) 1 (s.taint a))
    ((CtlFrame.readG s a).trans (CtlFrame.writeG _ d _ 1 _))
    ((Stands.readG s a).trans (Stands.writeG _ d _ 1 _))
  exact ⟨t, (ctlWord_goes h _).trans h1, by rw [h2.g, State.writeG_g]; simp, h3, h4⟩

/-- A word that writes a constant (R76). -/
theorem aluConst_spec (v : DWord) {s : State} {d : Fin 32} (h : ctlGoes s [] = true) :
    ∃ t, aluConst v d s = .next t ∧ t.core.g d = (if d = 0 then 0 else v)
      ∧ CtlFrame [d] [] s t ∧ Moves s t := by
  obtain ⟨t, h1, h2, h3, h4⟩ := finish_frame (s0 := s) (gs := [d]) (ss := []) h
    (u := s.writeG d v 1 false)
    (CtlFrame.writeG s d v 1 false) (Stands.writeG s d v 1 false)
  exact ⟨t, (ctlWord_goes h _).trans h1, by rw [h2.g, State.writeG_g]; simp, h3, h4⟩

theorem CtlFrame.setTaintC (s : State) (r : Fin 16) (b : Bool) : CtlFrame [] [] s (s.setTaintC r b) := by
  have hb := s.setTaintC_bank r b
  exact {
    reg := ⟨fun k _ => by unfold Core.g; rw [hb], fun k _ => by unfold Core.steer; rw [hb], by simp,
      by simp⟩
    unit := ⟨fun e => by cases e <;> simp [Core.eng], by simp, by simp, by simp, by simp, by simp, by simp, by simp⟩
    regs := by simp
    vis := by simp
    q := by simp
    jig := fun e => by simp [e]
    others := by simp
    sys := by simp
    mem := MemSame.of_eq (by simp) (by simp) (by simp) (by simp) }

theorem CtlFrame.setTaintT (s : State) (r : Fin 16) (b : Bool) : CtlFrame [] [] s (s.setTaintT r b) := by
  have hb := s.setTaintT_bank r b
  exact {
    reg := ⟨fun k _ => by unfold Core.g; rw [hb], fun k _ => by unfold Core.steer; rw [hb], by simp,
      by simp⟩
    unit := ⟨fun e => by cases e <;> simp [Core.eng], by simp, by simp, by simp, by simp, by simp, by simp, by simp⟩
    regs := by simp
    vis := by simp
    q := by simp
    jig := fun e => by simp [e]
    others := by simp
    sys := by simp
    mem := MemSame.of_eq (by simp) (by simp) (by simp) (by simp) }

/-- A condition write (R77, R78). -/
theorem State.writeCond_steer (s : State) (r : Fin 16) (v b : Bool) (hr : r.val < 12) :
    (s.writeCond r v b).core.steer r = { s.core.steer r with cond := v } := by
  have e : ∀ k, (s.writeCond r v b).core.steer k
      = (s.setSteer r fun x => { x with cond := v }).core.steer k := fun k => by
    unfold State.writeCond Core.steer; rw [State.setTaintC_bank]
  rw [e, s.setSteer_steer r r _ hr, if_pos rfl]

theorem CtlFrame.writeCond (s : State) (r : Fin 16) (v b : Bool) :
    CtlFrame [] [r] s (s.writeCond r v b) :=
  (CtlFrame.setSteer s r fun x => { x with cond := v }).trans (CtlFrame.setTaintC _ r b)

/-- A register compare (R77). -/
theorem cmp3_spec (f : DWord → DWord → Bool) {s : State} {sd : Fin 16} {a b : Fin 32}
    (hs : sd.val < 12) (h : ctlGoes s [a, b] = true) :
    ∃ x ∈ s.core.mayRead a, ∃ y ∈ s.core.mayRead b, ∃ t, cmp3 f sd a b s = .next t
      ∧ t.core.steer sd = { s.core.steer sd with cond := f x y } ∧ CtlFrame [] [sd] s t ∧ Moves s t := by
  refine ⟨(s.readG a).1, s.readG_mem a, ((s.readG a).2.readG b).1, ?_, ?_⟩
  · have := (s.readG a).2.readG_mem b; simpa using this
  · have hf := (CtlFrame.readG s a).trans (CtlFrame.readG (s.readG a).2 b)
    obtain ⟨t, h1, h2, h3, h4⟩ := finish_frame (s0 := s) (gs := []) (ss := [sd]) h
      (u := ((s.readG a).2.readG b).2.writeCond sd (f (s.readG a).1 ((s.readG a).2.readG b).1)
        (s.taint a || s.taint b))
      (hf.trans (CtlFrame.writeCond _ sd _ _))
      (((Stands.readG s a).trans (Stands.readG _ b)).trans (Stands.writeCond _ sd _ _))
    refine ⟨t, (ctlWord_goes h _).trans h1, ?_, h3, h4⟩
    rw [h2.steer, State.writeCond_steer _ _ _ _ hs]
    unfold Core.steer; simp

/-- An immediate compare (R77). -/
theorem cmpI_spec (f : DWord → DWord → Bool) {s : State} {sd : Fin 16} {a : Fin 32} (imm : BitVec 14)
    (hs : sd.val < 12) (h : ctlGoes s [a] = true) :
    ∃ x ∈ s.core.mayRead a, ∃ t, cmpI f sd a imm s = .next t
      ∧ t.core.steer sd = { s.core.steer sd with cond := f x (imm.signExtend 64) }
      ∧ CtlFrame [] [sd] s t ∧ Moves s t := by
  refine ⟨(s.readG a).1, s.readG_mem a, ?_⟩
  obtain ⟨t, h1, h2, h3, h4⟩ := finish_frame (s0 := s) (gs := []) (ss := [sd]) h
    (u := (s.readG a).2.writeCond sd (f (s.readG a).1 (imm.signExtend 64)) (s.taint a))
    ((CtlFrame.readG s a).trans (CtlFrame.writeCond _ sd _ _))
    ((Stands.readG s a).trans (Stands.writeCond _ sd _ _))
  refine ⟨t, (ctlWord_goes h _).trans h1, ?_, h3, h4⟩
  rw [h2.steer, State.writeCond_steer _ _ _ _ hs]
  unfold Core.steer; simp

/-- Steer logic on two conditions (R78). -/
theorem steer3_spec (f : Bool → Bool → Bool) {s : State} {sd sa sb : Fin 16} (hs : sd.val < 12)
    (h : ctlGoes s [] = true) :
    ∃ t, steer3 f sd sa sb s = .next t
      ∧ t.core.steer sd = { s.core.steer sd with
          cond := f (s.core.steer sa).cond (s.core.steer sb).cond }
      ∧ CtlFrame [] [sd] s t ∧ Moves s t := by
  obtain ⟨t, h1, h2, h3, h4⟩ := finish_frame (s0 := s) (gs := []) (ss := [sd]) h
    (u := s.writeCond sd (f (s.core.steer sa).cond (s.core.steer sb).cond)
      ((s.taintS sa).1 || (s.taintS sb).1))
    (CtlFrame.writeCond s sd _ _) (Stands.writeCond s sd _ _)
  exact ⟨t, (ctlWord_goes h _).trans h1, by rw [h2.steer, State.writeCond_steer _ _ _ _ hs], h3, h4⟩

end Sys2Proof.Machine
end

