-- ==== Sys2Proof/Laws/Encoding.lean ====
section
/-! SUPPORT. Each layout of the encoder read back field by field (R52 to R68): for a word that the
encoder makes, the part of the decoder that reads it and every field's value. -/

namespace Sys2Proof.Laws

open Sys2Proof

theorem word_eq {x w : Nat} {y c : Option Nat} (h : some (x, y) = some (w, c)) : x = w ∧ y = c := by
  simpa using h

theorem fld_eq {w lo n x : Nat} (h : w / 2 ^ lo % 2 ^ n = x) : fld w lo n = x := h
theorem fin32_eq {w lo : Nat} {d : Fin 32} (h : fld w lo 5 = d.val) : fin32 w lo = d := Fin.ext h
theorem fin16_eq {w lo : Nat} {d : Fin 16} (h : fld w lo 4 = d.val) : fin16 w lo = d := Fin.ext h
theorem fin8_eq {w lo : Nat} {d : Fin 8} (h : fld w lo 3 = d.val) : fin8 w lo = d := Fin.ext h
theorem fin4_eq {w lo : Nat} {d : Fin 4} (h : fld w lo 2 = d.val) : fin4 w lo = d := Fin.ext h
theorem fin2_eq {w lo : Nat} {d : Fin 2} (h : fld w lo 1 = d.val) : fin2 w lo = d := Fin.ext h
theorem fin64_eq {w lo : Nat} {d : Fin 64} (h : fld w lo 6 = d.val) : fin64 w lo = d := Fin.ext h
theorem immf_eq {w lo n : Nat} {x : BitVec n} (h : fld w lo n = x.toNat) : immf w lo n = x := by
  simpa [immf, fld, ← BitVec.toNat_inj] using h
theorem bit_eq {w lo : Nat} {b : Bool} (h : fld w lo 1 = b2n b) : bit w lo = b := by
  cases b <;> simp_all [bit, fld, b2n]
theorem nz_ok {w lo n : Nat} (h : fld w lo n = 0) : nz w lo n = (0x04, false) := by
  simp_all [nz, fld]
theorem badS_ok {w lo : Nat} {s : Fin 16} (h : fld w lo 4 = s.val) (hs : steerOk s = true) :
    badS w lo = (0x09, false) := by
  simp_all [badS, fld, steerOk]

@[simp] theorem accept_nil (i : Instr) : accept [] i = .ok i := rfl
@[simp] theorem accept_passed (r : Nat) (t : List (Nat × Bool)) (i : Instr) :
    accept ((r, false) :: t) i = accept t i := rfl

theorem b2n_lt (b : Bool) : b2n b < 2 := by cases b <;> decide

theorem decode_control {w : Nat} (he : w / 536870912 = 0) : decode w none = decodeControl w := by
  have h : fld w 29 3 = 0 := fld_eq (by omega)
  simp [decode, isLong, h]

theorem alu_word {w fn : Nat} {d a b : Fin 32} (hw : encR fn d a b = w) (hf : fn < 256) :
    decode w none = decodeAlu w ∧ fld w 0 8 = fn ∧ fin32 w 18 = d ∧ fin32 w 13 = a ∧ fin32 w 8 = b ∧
    fld w 8 5 = b.val := by
  simp only [encR] at hw
  have h : fld w 23 6 = 0 := fld_eq (by omega)
  have e : decode w none = decodeAlu w := by rw [decode_control (by omega)]; rw [decodeControl, h]; rfl
  exact ⟨e, fld_eq (by omega), fin32_eq (fld_eq (by omega)), fin32_eq (fld_eq (by omega)),
    fin32_eq (fld_eq (by omega)), fld_eq (by omega)⟩

theorem imm_word {w op imm : Nat} {d a : Fin 32} (hw : encI op d a imm = w) (hi : imm < 8192)
    (ho : op < 64) :
    decode w none = decodeControl w ∧ fld w 23 6 = op ∧ fin32 w 18 = d ∧ fin32 w 13 = a ∧
    fld w 0 13 = imm := by
  simp only [encI] at hw
  exact ⟨decode_control (by omega), fld_eq (by omega), fin32_eq (fld_eq (by omega)),
    fin32_eq (fld_eq (by omega)), fld_eq (by omega)⟩

theorem upper_word {w op : Nat} {d : Fin 32} {imm : BitVec 18} (hw : encU op d imm = w) (ho : op < 64) :
    decode w none = decodeControl w ∧ fld w 23 6 = op ∧ fin32 w 18 = d ∧ immf w 0 18 = imm ∧
    fld w 18 5 = d.val := by
  simp only [encU] at hw
  exact ⟨decode_control (by omega), fld_eq (by omega), fin32_eq (fld_eq (by omega)),
    immf_eq (fld_eq (by omega)), fld_eq (by omega)⟩

theorem cmp_word {w fn : Nat} {s : Fin 16} {a b : Fin 32} (hw : encC fn s a b = w) (hf : fn < 256)
    (hs : steerOk s = true) :
    decode w none = decodeCmp w ∧ fld w 0 8 = fn ∧ fin16 w 19 = s ∧ fin32 w 13 = a ∧ fin32 w 8 = b ∧
    nz w 18 1 = (0x04, false) ∧ badS w 19 = (0x09, false) := by
  simp only [encC] at hw
  have h : fld w 23 6 = 10 := fld_eq (by omega)
  have e : decode w none = decodeCmp w := by rw [decode_control (by omega)]; rw [decodeControl, h]; rfl
  exact ⟨e, fld_eq (by omega), fin16_eq (fld_eq (by omega)), fin32_eq (fld_eq (by omega)),
    fin32_eq (fld_eq (by omega)), nz_ok (fld_eq (by omega)), badS_ok (s := s) (fld_eq (by omega)) hs⟩

theorem cmpi_word {w op : Nat} {s : Fin 16} {a : Fin 32} {imm : BitVec 14} (hw : encCI op s a imm = w)
    (ho : op < 64) (hs : steerOk s = true) :
    decode w none = decodeControl w ∧ fld w 23 6 = op ∧ fin16 w 19 = s ∧ fin32 w 14 = a ∧
    immf w 0 14 = imm ∧ badS w 19 = (0x09, false) := by
  simp only [encCI] at hw
  exact ⟨decode_control (by omega), fld_eq (by omega), fin16_eq (fld_eq (by omega)),
    fin32_eq (fld_eq (by omega)), immf_eq (fld_eq (by omega)), badS_ok (s := s) (fld_eq (by omega)) hs⟩

theorem steer_word {w fn : Nat} {d a b : Fin 16} (hw : encL fn d.val a.val b.val = w) (hf : fn < 8)
    (hd : steerOk d = true) (ha : steerOk a = true) (hb : steerOk b = true) :
    decode w none = decodeSteer w ∧ fld w 8 3 = fn ∧ fin16 w 19 = d ∧ fin16 w 15 = a ∧ fin16 w 11 = b ∧
    nz w 0 8 = (0x04, false) ∧ badS w 19 = (0x09, false) ∧ badS w 15 = (0x09, false) ∧
    badS w 11 = (0x09, false) ∧ fld w 15 4 = a.val ∧ fld w 11 4 = b.val := by
  simp only [encL] at hw
  have h : fld w 23 6 = 16 := fld_eq (by omega)
  have e : decode w none = decodeSteer w := by rw [decode_control (by omega)]; rw [decodeControl, h]; rfl
  have h15 : fld w 15 4 = a.val := fld_eq (by omega)
  have h11 : fld w 11 4 = b.val := fld_eq (by omega)
  have h19 : fld w 19 4 = d.val := fld_eq (by omega)
  exact ⟨e, fld_eq (by omega), fin16_eq h19, fin16_eq h15, fin16_eq h11, nz_ok (fld_eq (by omega)),
    badS_ok h19 hd, badS_ok h15 ha, badS_ok h11 hb, h15, h11⟩

theorem branch_word {w k : Nat} {s : Fin 16} {n : NullMode} (hw : encB k s n = w) (hk : k < 4)
    (hs : steerOk s = true) :
    decode w none = .ok (if k = 0 then .bt s n else if k = 1 then .bf s n else if k = 2 then .ba s n
      else .bl s n) := by
  have key : ∀ m, encB k s n = k * 131072 + (19 * 8388608 + s.val * 524288 + m * 32768) → m < 3 →
      decode w none = decodeBranch w ∧ fld w 17 2 = k ∧ fin16 w 19 = s ∧ nz w 0 15 = (0x04, false) ∧
      badS w 19 = (0x09, false) ∧ fld w 15 2 = m := by
    intro m hm h3
    have hw : k * 131072 + (19 * 8388608 + s.val * 524288 + m * 32768) = w := hm.symm.trans hw
    have h : fld w 23 6 = 19 := fld_eq (by omega)
    exact ⟨by rw [decode_control (by omega)]; rw [decodeControl, h]; rfl, fld_eq (by omega),
      fin16_eq (fld_eq (by omega)), nz_ok (fld_eq (by omega)), badS_ok (s := s) (fld_eq (by omega)) hs,
      fld_eq (by omega)⟩
  cases n with
  | none =>
    obtain ⟨e, hf, hs, h1, h2, hn⟩ := key 0 (by simp only [encB]; omega) (by decide)
    rw [e]
    rcases (by omega : k = 0 ∨ k = 1 ∨ k = 2 ∨ k = 3) with rfl | rfl | rfl | rfl <;>
      simp [decodeBranch, hf, hs, h1, h2, hn]
  | nt =>
    obtain ⟨e, hf, hs, h1, h2, hn⟩ := key 1 (by simp only [encB]; omega) (by decide)
    rw [e]
    rcases (by omega : k = 0 ∨ k = 1 ∨ k = 2 ∨ k = 3) with rfl | rfl | rfl | rfl <;>
      simp [decodeBranch, hf, hs, h1, h2, hn]
  | tk =>
    obtain ⟨e, hf, hs, h1, h2, hn⟩ := key 2 (by simp only [encB]; omega) (by decide)
    rw [e]
    rcases (by omega : k = 0 ∨ k = 1 ∨ k = 2 ∨ k = 3) with rfl | rfl | rfl | rfl <;>
      simp [decodeBranch, hf, hs, h1, h2, hn]

theorem mem_word {w op : Nat} {d a : Fin 32} {c : Fin 16} {imm : BitVec 9} (hw : encM op d a c imm = w)
    (ho : op < 64) :
    decode w none = decodeControl w ∧ fld w 23 6 = op ∧ fin32 w 18 = d ∧ fin32 w 13 = a ∧ fin16 w 9 = c ∧
    immf w 0 9 = imm := by
  simp only [encM] at hw
  exact ⟨decode_control (by omega), fld_eq (by omega), fin32_eq (fld_eq (by omega)),
    fin32_eq (fld_eq (by omega)), fin16_eq (fld_eq (by omega)), immf_eq (fld_eq (by omega))⟩

theorem atomFn_back (f : AtomFn) : atomFnOf (atomFnNum f) = some f ∧ atomFnNum f < 16 := by
  cases f <;> decide
theorem ord_back (o : AtomOrd) : ordOf (ordNum o) = o ∧ ordNum o < 4 := by cases o <;> decide
theorem scope_back (s : Scope) : scopeOf (scopeNum s) = s ∧ scopeNum s < 4 := by cases s <;> decide
theorem popQ_back (q : PopQ) : popQOf (popQNum q) = some q ∧ popQNum q < 16 := by cases q <;> decide

theorem atom_word {w op : Nat} {d a b : Fin 32} {f : AtomFn} {o : AtomOrd} {s : Scope}
    (hw : encA op d a b f o s = w) (ho : op < 64) :
    decode w none = decodeControl w ∧ fld w 23 6 = op ∧ fin32 w 18 = d ∧ fin32 w 13 = a ∧
    fin32 w 8 = b ∧ atomFnOf (fld w 4 4) = some f ∧ ordOf (fld w 2 2) = o ∧ scopeOf (fld w 0 2) = s := by
  simp only [encA] at hw
  obtain ⟨hf, hf'⟩ := atomFn_back f
  obtain ⟨hg, hg'⟩ := ord_back o
  obtain ⟨hs, hs'⟩ := scope_back s
  have f4 : fld w 4 4 = atomFnNum f := fld_eq (by omega)
  have f2 : fld w 2 2 = ordNum o := fld_eq (by omega)
  have f0 : fld w 0 2 = scopeNum s := fld_eq (by omega)
  exact ⟨decode_control (by omega), fld_eq (by omega), fin32_eq (fld_eq (by omega)),
    fin32_eq (fld_eq (by omega)), fin32_eq (fld_eq (by omega)), by rw [f4, hf], by rw [f2, hg],
    by rw [f0, hs]⟩

theorem event_word {w op : Nat} {e : EvOp} (hw : encE op e = w) (ho : op < 64) :
    decode w none = decodeControl w ∧ fld w 23 6 = op ∧
    ∀ sig, decodeEvent sig w = .ok (if sig then .sigev e else .waitev e) := by
  cases e with
  | imm x =>
    simp only [encE] at hw
    have hb : bit w 16 = false := bit_eq (b := false) (fld_eq (x := 0) (by omega))
    have hx : immf w 0 16 = x := immf_eq (fld_eq (by omega))
    have h1 : nz w 17 1 = (0x04, false) := nz_ok (fld_eq (by omega))
    have h2 : nz w 18 5 = (0x04, false) := nz_ok (fld_eq (by omega))
    exact ⟨decode_control (by omega), fld_eq (by omega), fun sig => by simp [decodeEvent, hb, hx, h1, h2]⟩
  | reg a =>
    simp only [encE] at hw
    have hb : bit w 16 = true := bit_eq (b := true) (fld_eq (x := 1) (by omega))
    have hx : fin32 w 18 = a := fin32_eq (fld_eq (by omega))
    have h1 : nz w 17 1 = (0x04, false) := nz_ok (fld_eq (by omega))
    have h2 : nz w 0 16 = (0x04, false) := nz_ok (fld_eq (by omega))
    exact ⟨decode_control (by omega), fld_eq (by omega), fun sig => by simp [decodeEvent, hb, hx, h1, h2]⟩

theorem jig_word {w op fn d a b j : Nat} (hw : encJ op fn d a b j = w) (hf : fn < 8) (hd : d < 32)
    (ha : a < 32) (hb : b < 32) (hj : j < 32) (ho : op < 64) :
    decode w none = decodeControl w ∧ fld w 23 6 = op ∧ fld w 20 3 = fn ∧ fld w 15 5 = d ∧
    fld w 10 5 = a ∧ fld w 5 5 = b ∧ fld w 0 5 = j ∧ (j < 4 → fld w 0 2 = j ∧ fld w 2 3 = 0) ∧
    (a = 0 → b = 0 → fld w 5 10 = 0 ∧ (d = 0 → fld w 5 15 = 0)) := by
  simp only [encJ] at hw
  exact ⟨decode_control (by omega), fld_eq (by omega), fld_eq (by omega), fld_eq (by omega),
    fld_eq (by omega), fld_eq (by omega), fld_eq (by omega),
    fun h => ⟨fld_eq (by omega), fld_eq (by omega)⟩,
    fun h1 h2 => ⟨fld_eq (by omega), fun h3 => fld_eq (by omega)⟩⟩

/-! ### Engine words -/

theorem eng_word {w e op r : Nat} {t : Tok} (hw : eword e op t + r = w) (hr : r < 524288) (he : e < 8)
    (ho : op < 64) :
    fld w 29 3 = e ∧ fld w 19 6 = op ∧ tokOf w = t ∧ w % 524288 = r := by
  simp only [eword] at hw
  have h1 := b2n_lt t.wl
  have h2 := b2n_lt t.wr
  have h3 := b2n_lt t.gl
  have h4 := b2n_lt t.gr
  refine ⟨fld_eq (by omega), fld_eq (by omega), ?_, by omega⟩
  rw [tokOf, bit_eq (b := t.wl) (fld_eq (by omega)), bit_eq (b := t.wr) (fld_eq (by omega)),
    bit_eq (b := t.gl) (fld_eq (by omega)), bit_eq (b := t.gr) (fld_eq (by omega))]

theorem decode_load {w : Nat} (he : fld w 29 3 = 1) : decode w none = decodeLoad w := by
  simp [decode, isLong, he]
theorem decode_matrix {w op : Nat} (he : fld w 29 3 = 2) (ho : fld w 19 6 = op) (h : 2 ≤ op) :
    decode w none = decodeMatrix w 0 := by
  have h' : ¬ op < 2 := by omega
  simp [decode, isLong, he, ho, h']
theorem decode_matrix_long {w op c : Nat} (he : fld w 29 3 = 2) (ho : fld w 19 6 = op) (h : op < 2)
    (hc : fld c 29 3 = 7) : decode w (some c) = decodeMatrix w c := by
  simp [decode, isLong, isCont, he, ho, h, hc]
theorem decode_vector {w : Nat} (he : fld w 29 3 = 3) : decode w none = decodeVector w := by
  simp [decode, isLong, he]
theorem decode_copy {w op : Nat} (he : fld w 29 3 = 4) (ho : fld w 19 6 = op) (h : op < 2 ∨ 5 ≤ op) :
    decode w none = decodeCopy w 0 := by
  have h' : ¬ (2 ≤ op ∧ op < 5) := by omega
  simp only [not_and] at h'
  have : isLong w = false := by simp [isLong, he, ho]; omega
  simp [decode, this, he]
theorem decode_copy_long {w op c : Nat} (he : fld w 29 3 = 4) (ho : fld w 19 6 = op) (h : 2 ≤ op)
    (h' : op < 5) (hc : fld c 29 3 = 7) : decode w (some c) = decodeCopy w c := by
  simp [decode, isLong, isCont, he, ho, h, h', hc]
theorem decode_stream {w : Nat} (he : fld w 29 3 = 5) : decode w none = decodeStream w := by
  simp [decode, isLong, he]

theorem vsrcNum_lt (x : VSrc) : vsrcNum x < 32 := by cases x <;> simp only [vsrcNum] <;> omega
theorem vdstNum_lt (x : VDst) : vdstNum x < 32 := by cases x <;> simp only [vdstNum] <;> omega

theorem vsrc_back {w lo : Nat} {x : VSrc} (h : fld w lo 5 = vsrcNum x) :
    vsrcOf w lo = x ∧ badSrc w lo = (0x08, false) := by
  cases x with
  | v k => have := k.isLt; simp_all [vsrcOf, badSrc, vsrcNum]; omega
  | vq q =>
    have hq : fin4 w lo = q := fin4_eq (by
      simp only [fld, vsrcNum] at h ⊢
      generalize w / 2 ^ lo = v at h ⊢
      omega)
    have := q.isLt
    simp only [vsrcNum] at h
    have h1 : ¬ 24 + q.val < 24 := by omega
    have h2 : 24 + q.val < 28 := by omega
    have h3 : ¬ (24 + q.val = 28 ∨ 24 + q.val = 29) := by omega
    simp only [vsrcOf, badSrc, h, h1, h2, h3, hq, dite_false, if_true, decide_false, and_self]
  | lane => simp_all [vsrcOf, badSrc, vsrcNum]
  | vz => simp_all [vsrcOf, badSrc, vsrcNum]

theorem vdst_back {w : Nat} {x : VDst} (h : fld w 14 5 = vdstNum x) :
    vdstOf w = x ∧ badDst w = (0x08, false) := by
  cases x with
  | v k => have := k.isLt; simp_all [vdstOf, badDst, vdstNum]; omega
  | _ => simp_all [vdstOf, badDst, vdstNum]

theorem un31_ok {w lo : Nat} (h : fld w lo 5 = 31) : un31 w lo = (0x04, false) := by simp [un31, h]

theorem vec_word {w op d a b p : Nat} {t : Tok} (hw : encV op t d a b p = w) (ho : op < 64) (hd : d < 32)
    (ha : a < 32) (hb : b < 32) (hp : p < 16) :
    decode w none = decodeVector w ∧ fld w 19 6 = op ∧ tokOf w = t ∧ fld w 14 5 = d ∧ fld w 9 5 = a ∧
    fld w 4 5 = b ∧ fld w 0 4 = p := by
  simp only [encV] at hw
  obtain ⟨he, hop, ht, hr⟩ := eng_word (e := 3) (op := op) (r := d * 16384 + a * 512 + b * 16 + p) (w := w)
    (t := t) (by omega) (by omega) (by decide) ho
  exact ⟨decode_vector he, hop, ht, fld_eq (by omega), fld_eq (by omega), fld_eq (by omega), fld_eq (by omega)⟩

/-- Three operands and a predicate. -/
theorem vr3_word {w op : Nat} {t : Tok} {d : VDst} {a b : VSrc} {p : Fin 16}
    (hw : encV op t (vdstNum d) (vsrcNum a) (vsrcNum b) p.val = w) (ho : op < 64) :
    decode w none = decodeVector w ∧ fld w 19 6 = op ∧ ∀ f, vr3 w f = .ok (f t d a b p) := by
  obtain ⟨e, hop, ht, hd, ha, hb, hp⟩ := vec_word hw ho (vdstNum_lt d) (vsrcNum_lt a) (vsrcNum_lt b) p.isLt
  exact ⟨e, hop, fun f => by simp [vr3, ht, vdst_back hd, vsrc_back ha, vsrc_back hb, fin16_eq hp]⟩

/-- Destination, one source and a predicate. -/
theorem vr2_word {w op : Nat} {t : Tok} {d : VDst} {a : VSrc} {p : Fin 16}
    (hw : encV op t (vdstNum d) (vsrcNum a) 31 p.val = w) (ho : op < 64) :
    decode w none = decodeVector w ∧ fld w 19 6 = op ∧ ∀ f, vr2 w f = .ok (f t d a p) := by
  obtain ⟨e, hop, ht, hd, ha, hb, hp⟩ := vec_word hw ho (vdstNum_lt d) (vsrcNum_lt a) (by decide) p.isLt
  exact ⟨e, hop, fun f => by simp [vr2, ht, vdst_back hd, vsrc_back ha, un31_ok hb, fin16_eq hp]⟩

/-- Destination and a predicate. -/
theorem vr1_word {w op : Nat} {t : Tok} {d : VDst} {p : Fin 16}
    (hw : encV op t (vdstNum d) 31 31 p.val = w) (ho : op < 64) :
    decode w none = decodeVector w ∧ fld w 19 6 = op ∧ ∀ f, vr1 w f = .ok (f t d p) := by
  obtain ⟨e, hop, ht, hd, ha, hb, hp⟩ := vec_word hw ho (vdstNum_lt d) (by decide) (by decide) p.isLt
  exact ⟨e, hop, fun f => by simp [vr1, ht, vdst_back hd, un31_ok ha, un31_ok hb, fin16_eq hp]⟩

/-- A maximum or minimum reduction. -/
theorem vrN_word {w op : Nat} {t : Tok} {d : VDst} {a : VSrc} {nn : Bool} {p : Fin 16}
    (hw : encV op t (vdstNum d) (vsrcNum a) (b2n nn) p.val = w) (ho : op < 64) :
    decode w none = decodeVector w ∧ fld w 19 6 = op ∧ ∀ f, vrN w f = .ok (f t d a nn p) := by
  have hn := b2n_lt nn
  obtain ⟨e, hop, ht, hd, ha, hb, hp⟩ := vec_word hw ho (vdstNum_lt d) (vsrcNum_lt a) (by omega) p.isLt
  have hnn : bit w 4 = nn := bit_eq (by simp only [fld] at hb ⊢; omega)
  have hb' : ¬ 2 ≤ b2n nn := by omega
  exact ⟨e, hop, fun f => by simp [vrN, ht, vdst_back hd, vsrc_back ha, hb, hb', hnn, fin16_eq hp]⟩

theorem ldest_back {w : Nat} {d : LDest} (h : fld w 14 5 = ldestNum d) :
    ldestOf w = d ∧ badDest w = (0x03, false) := by
  cases d with
  | tile t =>
    have ht : fin16 w 14 = t := fin16_eq (by simp only [fld, ldestNum] at h ⊢; omega)
    have := t.isLt
    simp_all [ldestOf, badDest, ldestNum]; omega
  | vq q =>
    have hq : fin4 w 14 = q := fin4_eq (by simp only [fld, ldestNum] at h ⊢; omega)
    have := q.isLt
    simp_all [ldestOf, badDest, ldestNum]; omega

theorem ldestNum_lt (d : LDest) : ldestNum d < 20 := by cases d <;> simp only [ldestNum] <;> omega

theorem drain_back {w : Nat} {d : DrainDest} (h : fld w 12 5 = drainNum d) :
    drainDestOf w = d ∧ ¬ (fld w 12 5 < 24 ∨ fld w 12 5 = 29 ∨ fld w 12 5 = 30) := by
  cases d with
  | vq q =>
    have hq : fin4 w 12 = q := fin4_eq (by simp only [fld, drainNum] at h ⊢; omega)
    refine ⟨?_, by rw [h]; simp only [drainNum]; omega⟩
    simp only [drainNum] at h
    unfold drainDestOf
    split <;> simp_all <;> omega
  | wq => simp_all [drainDestOf, drainNum]
  | heap => simp_all [drainDestOf, drainNum]

theorem drainNum_lt (d : DrainDest) : drainNum d < 32 := by cases d <;> simp only [drainNum] <;> omega
theorem bsrcNum_lt (b : BSrc) : bsrcNum b < 17 := by cases b <;> simp only [bsrcNum] <;> omega
theorem bscaleNum_lt (b : BScale) : bscaleNum b < 3 := by cases b <;> decide
theorem packW_back (k : PackW) : packWOf (packNum k) = some k ∧ packNum k < 16 := by cases k <;> decide
theorem qfmt_back (f : QFmt) : qfmtOf (qfmtNum f) = some f ∧ qfmtNum f < 16 := by cases f <;> decide
theorem rnd_back (r : Rnd) : rndOf (rndNum r) = some r ∧ rndNum r < 8 := by cases r <;> decide
theorem conv_back (c : Conv) : convOf (convNum c) = some c ∧ convNum c < 16 := by cases c <;> decide
theorem vcc_back (c : VCc) : vccOf (vccNum c) = c ∧ vccNum c < 8 := by cases c <;> decide
theorem pfn_back (f : PFn) : pfnOf (pfnNum f) = f ∧ pfnNum f < 8 := by cases f <;> decide
theorem reduce_back (r : Reduce) : reduceOf (reduceNum r) = some r ∧ reduceNum r < 8 := by
  cases r <;> decide
theorem atomv_back (f : AtomV) : atomvOf (atomvNum f) = some f ∧ atomvNum f < 16 := by cases f <;> decide

/-- The continuation of a product reads back, and passes its checks. -/
theorem mmaCont_back {k : MmaCont} (h : mmaContOk k = true) :
    fld (encMmaCont k) 29 3 = 7 ∧ mmaContOf (encMmaCont k) = k ∧ fld (encMmaCont k) 11 1 = b2n k.tb ∧
    ∀ i cs, accept (cs ++ mmaContChecks (encMmaCont k)) i = accept cs i := by
  obtain ⟨c, hc⟩ : ∃ c, c = encMmaCont k := ⟨_, rfl⟩
  rw [← hc]
  simp only [encMmaCont] at hc
  have ht := b2n_lt k.tb
  simp only [mmaContOk, Bool.and_eq_true, decide_eq_true_eq] at h
  have h1 : fld c 21 8 = k.profile.toNat := fld_eq (by omega)
  have h2 : fld c 12 9 = k.k8.toNat := fld_eq (by omega)
  have h3 : fld c 11 1 = b2n k.tb := fld_eq (by omega)
  have h4 : nz c 0 11 = (0x04, false) := nz_ok (fld_eq (by omega))
  refine ⟨fld_eq (by omega), ?_, h3, fun i cs => ?_⟩
  · rw [mmaContOf, immf_eq h1, immf_eq h2, bit_eq h3]
  · have e1 : ¬ 8 ≤ k.profile.toNat := by omega
    have e2 : ¬ (k.k8.toNat = 0 ∨ 32 < k.k8.toNat) := by omega
    have e : lowest (mmaContChecks c) = none := by
      simp only [mmaContChecks, h1, h2, h4, e1, e2, decide_false, lowest]
    have key : ∀ l, lowest (l ++ mmaContChecks c) = lowest l := by
      intro l
      induction l with
      | nil => exact e
      | cons x l ih => obtain ⟨r, f⟩ := x; simp only [List.cons_append, lowest, ih]
    simp only [accept, key]

end Sys2Proof.Laws
end

