-- ==== Sys2Proof/Laws/EngFields.lean ====
section
/-! SUPPORT. What the shared operations of engine words leave, field by field: the engine they act on, the
marks of carried units and of irreversible phases (R376), the operand queues (R160). -/

namespace Sys2Proof.Machine

/-! ### Changing one engine -/

@[simp] theorem Core.setEng_id (c : Core) (e : Engine) (f : Eng → Eng) :
    (c.setEng e f).id = c.id := by cases e <;> rfl
@[simp] theorem Core.setEng_tick (c : Core) (e : Engine) (f : Eng → Eng) :
    (c.setEng e f).tick = c.tick := by cases e <;> rfl
@[simp] theorem Core.setEng_gtick (c : Core) (e : Engine) (f : Eng → Eng) :
    (c.setEng e f).gtick = c.gtick := by cases e <;> rfl
@[simp] theorem Core.setEng_ctl (c : Core) (e : Engine) (f : Eng → Eng) :
    (c.setEng e f).ctl = c.ctl := by cases e <;> rfl
@[simp] theorem Core.setEng_vis (c : Core) (e : Engine) (f : Eng → Eng) :
    (c.setEng e f).vis = c.vis := by cases e <;> rfl
@[simp] theorem Core.setEng_q (c : Core) (e : Engine) (f : Eng → Eng) :
    (c.setEng e f).q = c.q := by cases e <;> rfl
@[simp] theorem Core.setEng_tok (c : Core) (e : Engine) (f : Eng → Eng) :
    (c.setEng e f).tok = c.tok := by cases e <;> rfl
@[simp] theorem Core.setEng_mx (c : Core) (e : Engine) (f : Eng → Eng) :
    (c.setEng e f).mx = c.mx := by cases e <;> rfl
@[simp] theorem Core.setEng_vec (c : Core) (e : Engine) (f : Eng → Eng) :
    (c.setEng e f).vec = c.vec := by cases e <;> rfl
@[simp] theorem Core.setEng_sd (c : Core) (e : Engine) (f : Eng → Eng) :
    (c.setEng e f).sd = c.sd := by cases e <;> rfl
@[simp] theorem Core.setEng_land (c : Core) (e : Engine) (f : Eng → Eng) :
    (c.setEng e f).land = c.land := by cases e <;> rfl
@[simp] theorem Core.setEng_cp (c : Core) (e : Engine) (f : Eng → Eng) :
    (c.setEng e f).cp = c.cp := by cases e <;> rfl
@[simp] theorem Core.setEng_jig (c : Core) (e : Engine) (f : Eng → Eng) :
    (c.setEng e f).jig = c.jig := by cases e <;> rfl
@[simp] theorem Core.setEng_phase (c : Core) (e : Engine) (f : Eng → Eng) :
    (c.setEng e f).phase = c.phase := by cases e <;> rfl
@[simp] theorem Core.setEng_hook (c : Core) (e : Engine) (f : Eng → Eng) :
    (c.setEng e f).hook = c.hook := by cases e <;> rfl
@[simp] theorem Core.setEng_stall (c : Core) (e : Engine) (f : Eng → Eng) :
    (c.setEng e f).stall = c.stall := by cases e <;> rfl
@[simp] theorem Core.setEng_bench (c : Core) (e : Engine) (f : Eng → Eng) :
    (c.setEng e f).bench = c.bench := by cases e <;> rfl
@[simp] theorem Core.setEng_store (c : Core) (e : Engine) (f : Eng → Eng) :
    (c.setEng e f).store = c.store := by cases e <;> rfl

/-- The engines after one is changed. -/
theorem Core.eng_setEng (c : Core) (e e' : Engine) (f : Eng → Eng) :
    (c.setEng e f).eng e' = if e' = e then f (c.eng e) else c.eng e' := by
  cases e <;> cases e' <;> rfl
@[simp] theorem Core.eng_setEng_self (c : Core) (e : Engine) (f : Eng → Eng) :
    (c.setEng e f).eng e = f (c.eng e) := by cases e <;> rfl
theorem Core.eng_setEng_ne (c : Core) {e e' : Engine} (f : Eng → Eng) (h : e' ≠ e) :
    (c.setEng e f).eng e' = c.eng e' := by rw [Core.eng_setEng, if_neg h]

/-- Changing an engine to itself changes nothing. -/
theorem Core.setEng_self (c : Core) (e : Engine) (f : Eng → Eng) (h : f (c.eng e) = c.eng e) :
    c.setEng e f = c := by
  cases e <;> simp only [Core.setEng] <;> simp only [Core.eng] at h <;> rw [h]

/-! ### The turn -/

@[simp] theorem State.pass_mem (s : State) (sp : Space) : s.pass.mem sp = s.mem sp := by cases sp <;> rfl

/-! ### The marks of irreversible phases and carried units -/

theorem Vis.plain_irrev (v : Vis) :
    ({ v with ph := v.ph.map fun p => { p with irrev := true } } : Vis).plain = v.plain := by
  unfold Vis.plain
  simp only [Vector.map_map]
  congr 1


@[simp] theorem State.setIrrev_id (s : State) : s.setIrrev.core.id = s.core.id := by
  unfold State.setIrrev; split <;> rfl
@[simp] theorem State.setIrrev_tick (s : State) : s.setIrrev.core.tick = s.core.tick := by
  unfold State.setIrrev; split <;> rfl
@[simp] theorem State.setIrrev_gtick (s : State) : s.setIrrev.core.gtick = s.core.gtick := by
  unfold State.setIrrev; split <;> rfl
@[simp] theorem State.setIrrev_ctl (s : State) : s.setIrrev.core.ctl = s.core.ctl := by
  unfold State.setIrrev; split <;> rfl
@[simp] theorem State.setIrrev_q (s : State) : s.setIrrev.core.q = s.core.q := by
  unfold State.setIrrev; split <;> rfl
@[simp] theorem State.setIrrev_load (s : State) : s.setIrrev.core.load = s.core.load := by
  unfold State.setIrrev; split <;> rfl
@[simp] theorem State.setIrrev_matrix (s : State) : s.setIrrev.core.matrix = s.core.matrix := by
  unfold State.setIrrev; split <;> rfl
@[simp] theorem State.setIrrev_vector (s : State) : s.setIrrev.core.vector = s.core.vector := by
  unfold State.setIrrev; split <;> rfl
@[simp] theorem State.setIrrev_copy (s : State) : s.setIrrev.core.copy = s.core.copy := by
  unfold State.setIrrev; split <;> rfl
@[simp] theorem State.setIrrev_stream (s : State) : s.setIrrev.core.stream = s.core.stream := by
  unfold State.setIrrev; split <;> rfl
@[simp] theorem State.setIrrev_tok (s : State) : s.setIrrev.core.tok = s.core.tok := by
  unfold State.setIrrev; split <;> rfl
@[simp] theorem State.setIrrev_mx (s : State) : s.setIrrev.core.mx = s.core.mx := by
  unfold State.setIrrev; split <;> rfl
@[simp] theorem State.setIrrev_vec (s : State) : s.setIrrev.core.vec = s.core.vec := by
  unfold State.setIrrev; split <;> rfl
@[simp] theorem State.setIrrev_sd (s : State) : s.setIrrev.core.sd = s.core.sd := by
  unfold State.setIrrev; split <;> rfl
@[simp] theorem State.setIrrev_land (s : State) : s.setIrrev.core.land = s.core.land := by
  unfold State.setIrrev; split <;> rfl
@[simp] theorem State.setIrrev_cp (s : State) : s.setIrrev.core.cp = s.core.cp := by
  unfold State.setIrrev; split <;> rfl
@[simp] theorem State.setIrrev_jig (s : State) : s.setIrrev.core.jig = s.core.jig := by
  unfold State.setIrrev; split <;> rfl
@[simp] theorem State.setIrrev_phase (s : State) : s.setIrrev.core.phase = s.core.phase := by
  unfold State.setIrrev; split <;> rfl
@[simp] theorem State.setIrrev_hook (s : State) : s.setIrrev.core.hook = s.core.hook := by
  unfold State.setIrrev; split <;> rfl
@[simp] theorem State.setIrrev_stall (s : State) : s.setIrrev.core.stall = s.core.stall := by
  unfold State.setIrrev; split <;> rfl
@[simp] theorem State.setIrrev_bench (s : State) : s.setIrrev.core.bench = s.core.bench := by
  unfold State.setIrrev; split <;> rfl
@[simp] theorem State.setIrrev_store (s : State) : s.setIrrev.core.store = s.core.store := by
  unfold State.setIrrev; split <;> rfl
@[simp] theorem State.setIrrev_others (s : State) : s.setIrrev.others = s.others := by
  unfold State.setIrrev; split <;> rfl
@[simp] theorem State.setIrrev_sys (s : State) : s.setIrrev.sys = s.sys := by
  unfold State.setIrrev; split <;> rfl
@[simp] theorem State.setIrrev_inputs (s : State) : s.setIrrev.inputs = s.inputs := by
  unfold State.setIrrev; split <;> rfl
@[simp] theorem State.setIrrev_free (s : State) : s.setIrrev.free = s.free := by
  unfold State.setIrrev; split <;> rfl
@[simp] theorem State.setIrrev_turn (s : State) : s.setIrrev.turn = s.turn := by
  unfold State.setIrrev; split <;> rfl
@[simp] theorem State.setIrrev_eng (s : State) (e : Engine) : s.setIrrev.core.eng e = s.core.eng e := by
  cases e <;> simp [Core.eng]

@[simp] theorem State.readsIf_id (s : State) (b : Bool) : (s.readsIf b).core.id = s.core.id := by
  unfold State.readsIf; split
  · simp
  · rfl
@[simp] theorem State.readsIf_tick (s : State) (b : Bool) : (s.readsIf b).core.tick = s.core.tick := by
  unfold State.readsIf; split
  · simp
  · rfl
@[simp] theorem State.readsIf_gtick (s : State) (b : Bool) : (s.readsIf b).core.gtick = s.core.gtick := by
  unfold State.readsIf; split
  · simp
  · rfl
@[simp] theorem State.readsIf_ctl (s : State) (b : Bool) : (s.readsIf b).core.ctl = s.core.ctl := by
  unfold State.readsIf; split
  · simp
  · rfl
@[simp] theorem State.readsIf_q (s : State) (b : Bool) : (s.readsIf b).core.q = s.core.q := by
  unfold State.readsIf; split
  · simp
  · rfl
@[simp] theorem State.readsIf_load (s : State) (b : Bool) : (s.readsIf b).core.load = s.core.load := by
  unfold State.readsIf; split
  · simp
  · rfl
@[simp] theorem State.readsIf_matrix (s : State) (b : Bool) : (s.readsIf b).core.matrix = s.core.matrix := by
  unfold State.readsIf; split
  · simp
  · rfl
@[simp] theorem State.readsIf_vector (s : State) (b : Bool) : (s.readsIf b).core.vector = s.core.vector := by
  unfold State.readsIf; split
  · simp
  · rfl
@[simp] theorem State.readsIf_copy (s : State) (b : Bool) : (s.readsIf b).core.copy = s.core.copy := by
  unfold State.readsIf; split
  · simp
  · rfl
@[simp] theorem State.readsIf_stream (s : State) (b : Bool) : (s.readsIf b).core.stream = s.core.stream := by
  unfold State.readsIf; split
  · simp
  · rfl
@[simp] theorem State.readsIf_tok (s : State) (b : Bool) : (s.readsIf b).core.tok = s.core.tok := by
  unfold State.readsIf; split
  · simp
  · rfl
@[simp] theorem State.readsIf_mx (s : State) (b : Bool) : (s.readsIf b).core.mx = s.core.mx := by
  unfold State.readsIf; split
  · simp
  · rfl
@[simp] theorem State.readsIf_vec (s : State) (b : Bool) : (s.readsIf b).core.vec = s.core.vec := by
  unfold State.readsIf; split
  · simp
  · rfl
@[simp] theorem State.readsIf_sd (s : State) (b : Bool) : (s.readsIf b).core.sd = s.core.sd := by
  unfold State.readsIf; split
  · simp
  · rfl
@[simp] theorem State.readsIf_land (s : State) (b : Bool) : (s.readsIf b).core.land = s.core.land := by
  unfold State.readsIf; split
  · simp
  · rfl
@[simp] theorem State.readsIf_cp (s : State) (b : Bool) : (s.readsIf b).core.cp = s.core.cp := by
  unfold State.readsIf; split
  · simp
  · rfl
@[simp] theorem State.readsIf_jig (s : State) (b : Bool) : (s.readsIf b).core.jig = s.core.jig := by
  unfold State.readsIf; split
  · simp
  · rfl
@[simp] theorem State.readsIf_phase (s : State) (b : Bool) : (s.readsIf b).core.phase = s.core.phase := by
  unfold State.readsIf; split
  · simp
  · rfl
@[simp] theorem State.readsIf_hook (s : State) (b : Bool) : (s.readsIf b).core.hook = s.core.hook := by
  unfold State.readsIf; split
  · simp
  · rfl
@[simp] theorem State.readsIf_stall (s : State) (b : Bool) : (s.readsIf b).core.stall = s.core.stall := by
  unfold State.readsIf; split
  · simp
  · rfl
@[simp] theorem State.readsIf_bench (s : State) (b : Bool) : (s.readsIf b).core.bench = s.core.bench := by
  unfold State.readsIf; split
  · simp
  · rfl
@[simp] theorem State.readsIf_store (s : State) (b : Bool) : (s.readsIf b).core.store = s.core.store := by
  unfold State.readsIf; split
  · simp
  · rfl
@[simp] theorem State.readsIf_others (s : State) (b : Bool) : (s.readsIf b).others = s.others := by
  unfold State.readsIf; split
  · simp
  · rfl
@[simp] theorem State.readsIf_sys (s : State) (b : Bool) : (s.readsIf b).sys = s.sys := by
  unfold State.readsIf; split
  · simp
  · rfl
@[simp] theorem State.readsIf_inputs (s : State) (b : Bool) : (s.readsIf b).inputs = s.inputs := by
  unfold State.readsIf; split
  · simp
  · rfl
@[simp] theorem State.readsIf_free (s : State) (b : Bool) : (s.readsIf b).free = s.free := by
  unfold State.readsIf; split
  · simp
  · rfl
@[simp] theorem State.readsIf_turn (s : State) (b : Bool) : (s.readsIf b).turn = s.turn := by
  unfold State.readsIf; split
  · simp
  · rfl
@[simp] theorem State.readsIf_eng (s : State) (b : Bool) (e : Engine) : (s.readsIf b).core.eng e = s.core.eng e := by
  cases e <;> simp [Core.eng]

@[simp] theorem State.updCarried_id (s : State) (f : Carried → Carried) : (s.updCarried f).core.id = s.core.id := by
  rfl
@[simp] theorem State.updCarried_tick (s : State) (f : Carried → Carried) : (s.updCarried f).core.tick = s.core.tick := by
  rfl
@[simp] theorem State.updCarried_gtick (s : State) (f : Carried → Carried) : (s.updCarried f).core.gtick = s.core.gtick := by
  rfl
@[simp] theorem State.updCarried_ctl (s : State) (f : Carried → Carried) : (s.updCarried f).core.ctl = s.core.ctl := by
  rfl
@[simp] theorem State.updCarried_vis (s : State) (f : Carried → Carried) : (s.updCarried f).core.vis = s.core.vis := by
  rfl
@[simp] theorem State.updCarried_q (s : State) (f : Carried → Carried) : (s.updCarried f).core.q = s.core.q := by
  rfl
@[simp] theorem State.updCarried_load (s : State) (f : Carried → Carried) : (s.updCarried f).core.load = s.core.load := by
  rfl
@[simp] theorem State.updCarried_matrix (s : State) (f : Carried → Carried) : (s.updCarried f).core.matrix = s.core.matrix := by
  rfl
@[simp] theorem State.updCarried_vector (s : State) (f : Carried → Carried) : (s.updCarried f).core.vector = s.core.vector := by
  rfl
@[simp] theorem State.updCarried_copy (s : State) (f : Carried → Carried) : (s.updCarried f).core.copy = s.core.copy := by
  rfl
@[simp] theorem State.updCarried_stream (s : State) (f : Carried → Carried) : (s.updCarried f).core.stream = s.core.stream := by
  rfl
@[simp] theorem State.updCarried_tok (s : State) (f : Carried → Carried) : (s.updCarried f).core.tok = s.core.tok := by
  rfl
@[simp] theorem State.updCarried_mx (s : State) (f : Carried → Carried) : (s.updCarried f).core.mx = s.core.mx := by
  rfl
@[simp] theorem State.updCarried_vec (s : State) (f : Carried → Carried) : (s.updCarried f).core.vec = s.core.vec := by
  rfl
@[simp] theorem State.updCarried_sd (s : State) (f : Carried → Carried) : (s.updCarried f).core.sd = s.core.sd := by
  rfl
@[simp] theorem State.updCarried_land (s : State) (f : Carried → Carried) : (s.updCarried f).core.land = s.core.land := by
  rfl
@[simp] theorem State.updCarried_cp (s : State) (f : Carried → Carried) : (s.updCarried f).core.cp = s.core.cp := by
  rfl
@[simp] theorem State.updCarried_jig (s : State) (f : Carried → Carried) : (s.updCarried f).core.jig = s.core.jig := by
  rfl
@[simp] theorem State.updCarried_hook (s : State) (f : Carried → Carried) : (s.updCarried f).core.hook = s.core.hook := by
  rfl
@[simp] theorem State.updCarried_stall (s : State) (f : Carried → Carried) : (s.updCarried f).core.stall = s.core.stall := by
  rfl
@[simp] theorem State.updCarried_bench (s : State) (f : Carried → Carried) : (s.updCarried f).core.bench = s.core.bench := by
  rfl
@[simp] theorem State.updCarried_store (s : State) (f : Carried → Carried) : (s.updCarried f).core.store = s.core.store := by
  rfl
@[simp] theorem State.updCarried_others (s : State) (f : Carried → Carried) : (s.updCarried f).others = s.others := by
  rfl
@[simp] theorem State.updCarried_sys (s : State) (f : Carried → Carried) : (s.updCarried f).sys = s.sys := by
  rfl
@[simp] theorem State.updCarried_inputs (s : State) (f : Carried → Carried) : (s.updCarried f).inputs = s.inputs := by
  rfl
@[simp] theorem State.updCarried_free (s : State) (f : Carried → Carried) : (s.updCarried f).free = s.free := by
  rfl
@[simp] theorem State.updCarried_turn (s : State) (f : Carried → Carried) : (s.updCarried f).turn = s.turn := by
  rfl
@[simp] theorem State.updCarried_eng (s : State) (f : Carried → Carried) (e : Engine) : (s.updCarried f).core.eng e = s.core.eng e := by
  cases e <;> simp [Core.eng]
@[simp] theorem State.setIrrev_plain (s : State) : s.setIrrev.core.vis.plain = s.core.vis.plain := by
  unfold State.setIrrev; split
  · rfl
  · exact Vis.plain_irrev _
@[simp] theorem State.readsIf_plain (s : State) (b : Bool) : (s.readsIf b).core.vis.plain = s.core.vis.plain := by
  unfold State.readsIf; split
  · simp
  · rfl

/-! ### Operand queues -/

@[simp] theorem State.updQ_eng (s : State) (f : Queues → Queues) (e : Engine) :
    (s.updQ f).core.eng e = s.core.eng e := by cases e <;> rfl
@[simp] theorem State.upd_pass_core (s : State) (f : Core → Core) : (s.upd f).pass.core = f s.core := rfl

@[simp] theorem State.pushVq_id (s : State) (k : Fin 4) (x : LaneEntry) : (s.pushVq k x).core.id = s.core.id := rfl
@[simp] theorem State.pushVq_tick (s : State) (k : Fin 4) (x : LaneEntry) : (s.pushVq k x).core.tick = s.core.tick := rfl
@[simp] theorem State.pushVq_gtick (s : State) (k : Fin 4) (x : LaneEntry) : (s.pushVq k x).core.gtick = s.core.gtick := rfl
@[simp] theorem State.pushVq_ctl (s : State) (k : Fin 4) (x : LaneEntry) : (s.pushVq k x).core.ctl = s.core.ctl := rfl
@[simp] theorem State.pushVq_vis (s : State) (k : Fin 4) (x : LaneEntry) : (s.pushVq k x).core.vis = s.core.vis := rfl
@[simp] theorem State.pushVq_load (s : State) (k : Fin 4) (x : LaneEntry) : (s.pushVq k x).core.load = s.core.load := rfl
@[simp] theorem State.pushVq_matrix (s : State) (k : Fin 4) (x : LaneEntry) : (s.pushVq k x).core.matrix = s.core.matrix := rfl
@[simp] theorem State.pushVq_vector (s : State) (k : Fin 4) (x : LaneEntry) : (s.pushVq k x).core.vector = s.core.vector := rfl
@[simp] theorem State.pushVq_copy (s : State) (k : Fin 4) (x : LaneEntry) : (s.pushVq k x).core.copy = s.core.copy := rfl
@[simp] theorem State.pushVq_stream (s : State) (k : Fin 4) (x : LaneEntry) : (s.pushVq k x).core.stream = s.core.stream := rfl
@[simp] theorem State.pushVq_tok (s : State) (k : Fin 4) (x : LaneEntry) : (s.pushVq k x).core.tok = s.core.tok := rfl
@[simp] theorem State.pushVq_mx (s : State) (k : Fin 4) (x : LaneEntry) : (s.pushVq k x).core.mx = s.core.mx := rfl
@[simp] theorem State.pushVq_vec (s : State) (k : Fin 4) (x : LaneEntry) : (s.pushVq k x).core.vec = s.core.vec := rfl
@[simp] theorem State.pushVq_sd (s : State) (k : Fin 4) (x : LaneEntry) : (s.pushVq k x).core.sd = s.core.sd := rfl
@[simp] theorem State.pushVq_land (s : State) (k : Fin 4) (x : LaneEntry) : (s.pushVq k x).core.land = s.core.land := rfl
@[simp] theorem State.pushVq_cp (s : State) (k : Fin 4) (x : LaneEntry) : (s.pushVq k x).core.cp = s.core.cp := rfl
@[simp] theorem State.pushVq_jig (s : State) (k : Fin 4) (x : LaneEntry) : (s.pushVq k x).core.jig = s.core.jig := rfl
@[simp] theorem State.pushVq_phase (s : State) (k : Fin 4) (x : LaneEntry) : (s.pushVq k x).core.phase = s.core.phase := rfl
@[simp] theorem State.pushVq_hook (s : State) (k : Fin 4) (x : LaneEntry) : (s.pushVq k x).core.hook = s.core.hook := rfl
@[simp] theorem State.pushVq_stall (s : State) (k : Fin 4) (x : LaneEntry) : (s.pushVq k x).core.stall = s.core.stall := rfl
@[simp] theorem State.pushVq_bench (s : State) (k : Fin 4) (x : LaneEntry) : (s.pushVq k x).core.bench = s.core.bench := rfl
@[simp] theorem State.pushVq_store (s : State) (k : Fin 4) (x : LaneEntry) : (s.pushVq k x).core.store = s.core.store := rfl
@[simp] theorem State.pushVq_others (s : State) (k : Fin 4) (x : LaneEntry) : (s.pushVq k x).others = s.others := rfl
@[simp] theorem State.pushVq_sys (s : State) (k : Fin 4) (x : LaneEntry) : (s.pushVq k x).sys = s.sys := rfl
@[simp] theorem State.pushVq_eng (s : State) (k : Fin 4) (x : LaneEntry) (e : Engine) :
    (s.pushVq k x).core.eng e = s.core.eng e := by cases e <;> rfl
@[simp] theorem State.popVq_id (s : State) (k : Fin 4) : (s.popVq k).core.id = s.core.id := by
  simp [State.popVq, State.updQ]
@[simp] theorem State.popVq_tick (s : State) (k : Fin 4) : (s.popVq k).core.tick = s.core.tick := by
  simp [State.popVq, State.updQ]
@[simp] theorem State.popVq_gtick (s : State) (k : Fin 4) : (s.popVq k).core.gtick = s.core.gtick := by
  simp [State.popVq, State.updQ]
@[simp] theorem State.popVq_ctl (s : State) (k : Fin 4) : (s.popVq k).core.ctl = s.core.ctl := by
  simp [State.popVq, State.updQ]
@[simp] theorem State.popVq_load (s : State) (k : Fin 4) : (s.popVq k).core.load = s.core.load := by
  simp [State.popVq, State.updQ]
@[simp] theorem State.popVq_matrix (s : State) (k : Fin 4) : (s.popVq k).core.matrix = s.core.matrix := by
  simp [State.popVq, State.updQ]
@[simp] theorem State.popVq_vector (s : State) (k : Fin 4) : (s.popVq k).core.vector = s.core.vector := by
  simp [State.popVq, State.updQ]
@[simp] theorem State.popVq_copy (s : State) (k : Fin 4) : (s.popVq k).core.copy = s.core.copy := by
  simp [State.popVq, State.updQ]
@[simp] theorem State.popVq_stream (s : State) (k : Fin 4) : (s.popVq k).core.stream = s.core.stream := by
  simp [State.popVq, State.updQ]
@[simp] theorem State.popVq_tok (s : State) (k : Fin 4) : (s.popVq k).core.tok = s.core.tok := by
  simp [State.popVq, State.updQ]
@[simp] theorem State.popVq_mx (s : State) (k : Fin 4) : (s.popVq k).core.mx = s.core.mx := by
  simp [State.popVq, State.updQ]
@[simp] theorem State.popVq_vec (s : State) (k : Fin 4) : (s.popVq k).core.vec = s.core.vec := by
  simp [State.popVq, State.updQ]
@[simp] theorem State.popVq_sd (s : State) (k : Fin 4) : (s.popVq k).core.sd = s.core.sd := by
  simp [State.popVq, State.updQ]
@[simp] theorem State.popVq_land (s : State) (k : Fin 4) : (s.popVq k).core.land = s.core.land := by
  simp [State.popVq, State.updQ]
@[simp] theorem State.popVq_cp (s : State) (k : Fin 4) : (s.popVq k).core.cp = s.core.cp := by
  simp [State.popVq, State.updQ]
@[simp] theorem State.popVq_jig (s : State) (k : Fin 4) : (s.popVq k).core.jig = s.core.jig := by
  simp [State.popVq, State.updQ]
@[simp] theorem State.popVq_phase (s : State) (k : Fin 4) : (s.popVq k).core.phase = s.core.phase := by
  simp [State.popVq, State.updQ]
@[simp] theorem State.popVq_hook (s : State) (k : Fin 4) : (s.popVq k).core.hook = s.core.hook := by
  simp [State.popVq, State.updQ]
@[simp] theorem State.popVq_stall (s : State) (k : Fin 4) : (s.popVq k).core.stall = s.core.stall := by
  simp [State.popVq, State.updQ]
@[simp] theorem State.popVq_bench (s : State) (k : Fin 4) : (s.popVq k).core.bench = s.core.bench := by
  simp [State.popVq, State.updQ]
@[simp] theorem State.popVq_store (s : State) (k : Fin 4) : (s.popVq k).core.store = s.core.store := by
  simp [State.popVq, State.updQ]
@[simp] theorem State.popVq_others (s : State) (k : Fin 4) : (s.popVq k).others = s.others := by
  simp [State.popVq, State.updQ]
@[simp] theorem State.popVq_sys (s : State) (k : Fin 4) : (s.popVq k).sys = s.sys := by
  simp [State.popVq, State.updQ]
@[simp] theorem State.popVq_eng (s : State) (k : Fin 4) (e : Engine) :
    (s.popVq k).core.eng e = s.core.eng e := by simp [State.popVq]
@[simp] theorem State.popVq_plain (s : State) (k : Fin 4) : (s.popVq k).core.vis.plain = s.core.vis.plain := by
  simp [State.popVq, State.updQ]
theorem State.popVq_q (s : State) (k : Fin 4) : (s.popVq k).core.q
    = { s.core.q with vq := s.core.q.vq.set k.val s.core.q.vq[k].tail k.isLt } := by
  simp [State.popVq, State.updQ, Queues.setVq]

end Sys2Proof.Machine
end

