-- ==== Sys2Proof/Laws/Engine.lean ====
section
/-! SUPPORT. One lemma for each way an engine word leaves its queue's head (R143 to R148): it runs its body,
waits, traps at the token check; and what its issue, its stay and its traps leave. -/

namespace Sys2Proof.Machine

/-! ### The head -/

/-- A queue with a word at its head that no register write follows. -/
theorem headWord_queue {e : Engine} {s : State} {x : Entry} {rest : List QItem}
    (h : headWord e s = some (x, rest)) : (s.core.eng e).queue = .word x :: rest := by
  unfold headWord at h
  split at h <;> simp_all

theorem headWord_rest {e : Engine} {s : State} {x : Entry} {rest : List QItem}
    (h : headWord e s = some (x, rest)) (sr : BitVec 12) (v : DWord) (t : List QItem) :
    rest ≠ .reg sr v :: t := by
  have hq := headWord_queue h
  rintro rfl
  unfold headWord at h
  rw [hq] at h
  simp at h

/-- Two changes of an engine that agree on it are one. -/
theorem Core.setEng_congr (c : Core) (e : Engine) {f g : Eng → Eng} (h : f (c.eng e) = g (c.eng e)) :
    c.setEng e f = c.setEng e g := by
  cases e <;> simp only [Core.setEng] <;> simp only [Core.eng] at h <;> rw [h]

/-- With no register write at the head of its queue, an engine flushes nothing (R88). -/
theorem Core.flushRegs_none {c : Core} {e : Engine}
    (h : ∀ sr v t, (c.eng e).queue ≠ .reg sr v :: t) : c.flushRegs e = c := by
  unfold Core.flushRegs
  cases hq : (c.eng e).queue with
  | nil =>
    simp only [List.takeWhile_nil, List.foldl_nil]
    refine Core.setEng_self _ _ _ ?_
    generalize c.eng e = g at hq
    cases g; simp_all
  | cons y t =>
    cases y with
    | reg sr v => exact absurd hq (h sr v t)
    | word x =>
      simp only [List.takeWhile_cons, Bool.false_eq_true, if_false, List.foldl_nil]
      refine Core.setEng_self _ _ _ ?_
      generalize c.eng e = g at hq
      cases g; simp_all

theorem headWord_flush {e : Engine} {s : State} {x : Entry} {rest : List QItem}
    (h : headWord e s = some (x, rest)) : s.core.flushRegs e = s.core :=
  Core.flushRegs_none fun sr v t hq => by rw [headWord_queue h] at hq; simp at hq

theorem headWord_headOf {e : Engine} {s : State} {x : Entry} {rest : List QItem}
    (h : headWord e s = some (x, rest)) (i : Instr) : s.core.headOf e i = x := by
  unfold Core.headOf; rw [headWord_queue h]

/-! ### The head's act -/

theorem State.upd_self {s : State} {f : Core → Core} (h : f s.core = s.core) : s.upd f = s := by
  unfold State.upd; rw [h]

/-- A word that has issued goes on, before a handler's first word only to issue or stay (R215); one that
may leave runs its body (R143). -/
theorem engWord_run {e : Engine} {tk : Tok} {i : Instr} {s : State} {x : Entry} {rest : List QItem}
    (body : Entry → State → ERes) (h : headWord e s = some (x, rest)) (hg : engGoes e tk x s = true) :
    engWord e tk i s body = engFinish e tk x s
      (if x.started && s.core.settlesNow e then (body x s).settle e s else body x s) := by
  unfold engWord
  simp only [State.upd_self (f := fun c => c.flushRegs e) (headWord_flush h), headWord_headOf h i]
  unfold engGoes engReady at hg
  cases hs : x.started
  · simp only [hs, Bool.false_and, Bool.false_or, Bool.not_false, Bool.and_true, Bool.and_eq_true,
      Bool.not_eq_true', Option.isNone_iff_eq_none, decide_eq_false_iff_not] at hg
    obtain ⟨⟨⟨⟨⟨⟨⟨h0, h1⟩, h2⟩, h3⟩, h7⟩, h4⟩, h5⟩, h6⟩ := hg
    simp [h0, h1, h2, h3, h4, h5, h6, h7]
  · simp only [hs, Bool.not_true, Bool.and_false, Bool.false_and, Bool.or_false, Bool.true_and,
      Bool.not_eq_true'] at hg
    simp [hg]

/-- Outside a handler a word that goes runs its body. -/
theorem engWord_goes {e : Engine} {tk : Tok} {i : Instr} {s : State} {x : Entry} {rest : List QItem}
    (body : Entry → State → ERes) (h : headWord e s = some (x, rest)) (hg : engGoes e tk x s = true)
    (hn : (x.started && s.core.settlesNow e) = false) :
    engWord e tk i s body = engFinish e tk x s (body x s) := by
  rw [engWord_run body h hg]; simp [hn]

/-- A word that goes and issues. -/
theorem engWord_issue {e : Engine} {tk : Tok} {i : Instr} {s u : State} {x : Entry} {rest : List QItem}
    {body : Entry → State → ERes} {w : Issued} (h : headWord e s = some (x, rest))
    (hg : engGoes e tk x s = true) (hb : body x s = .issue u w) :
    engWord e tk i s body = .next (issueWord e tk x w u).pass := by
  rw [engWord_run body h hg, hb]; split <;> rfl

/-- What the body of a word that stays leaves, before a handler's first word with the engine stopped unless the
word goes on (R215, R216). -/
def settled (e : Engine) (x y : Entry) (s u : State) : State :=
  if x.started && s.core.settlesNow e && !y.goesOn then stopSettling e u else u

/-- A word that goes and stays at a progress point. -/
theorem engWord_part {e : Engine} {tk : Tok} {i : Instr} {s u : State} {x y : Entry} {rest : List QItem}
    {body : Entry → State → ERes} (h : headWord e s = some (x, rest)) (hg : engGoes e tk x s = true)
    (hb : body x s = .part u y) :
    engWord e tk i s body = .next (stayWord e tk x y (settled e x y s u)).pass := by
  rw [engWord_run body h hg, hb]
  unfold settled
  cases x.started && s.core.settlesNow e <;> cases hy : y.goesOn <;> simp [hy, ERes.settle, engFinish]

/-- A word that may not leave for want of a token waits. -/
theorem engWord_waits {e : Engine} {tk : Tok} {i : Instr} {s : State} {x : Entry} {rest : List QItem}
    (body : Entry → State → ERes) (h : headWord e s = some (x, rest)) (hs : x.started = false)
    (ha : x.agrees = true) (ho : s.core.tokOver e tk = none) (ht : s.core.tokReady e tk = false) :
    engWord e tk i s body = .next s.pass := by
  unfold engWord
  simp only [State.upd_self (f := fun c => c.flushRegs e) (headWord_flush h), headWord_headOf h i, hs,
    ho, ht, ha]
  simp

/-- A word whose push would be the sixteenth token traps (R147). -/
theorem engWord_over {e : Engine} {tk : Tok} {i : Instr} {s : State} {x : Entry} {rest : List QItem}
    (body : Entry → State → ERes) (h : headWord e s = some (x, rest)) (hs : x.started = false)
    (hd : (s.core.eng e).late = false) (ha : x.agrees = true) (hr : s.core.phase.rollback = false) (hl : (s.core.eng e).last ≠ some s.core.tick)
    (hm : s.core.lagMet x = true) (hb : s.core.heldByBreak x = false) {k : Nat}
    (ho : s.core.tokOver e tk = some k) :
    engWord e tk i s body = .next (takeTrap { cause := 0x09, info := BitVec.ofNat 64 k, addr := x.addr
                                              origin := BitVec.ofNat 3 (engNum e) } s).pass := by
  unfold engWord
  simp only [State.upd_self (f := fun c => c.flushRegs e) (headWord_flush h), headWord_headOf h i, hs,
    ho, hr, hm, hb, hd, ha]
  simp [hl, engFinish]

/-! ### What a body may change -/

/-- What the body of an engine word keeps: what `EngFrame` says, its own engine and the tokens. -/
structure EngBody (e : Engine) (s u : State) : Prop extends EngFrame e s u where
  eng : u.core.eng e = s.core.eng e
  tok : u.core.tok = s.core.tok

/-- What stops an engine that settles keeps (R216). -/
theorem stopSettling_ctl (e : Engine) {s u : State} (h : u.core.ctl = s.core.ctl) :
    (stopSettling e u).core.ctl = (stopSettling e s).core.ctl := by
  unfold stopSettling; simp [State.updCtl, h]

theorem EngBody.refl (e : Engine) (s : State) : EngBody e s s :=
  { others := fun _ _ => rfl, ctl := rfl, tick := rfl, gtick := rfl, jig := rfl, vis := rfl, hook := rfl
    eng := rfl, tok := rfl }

theorem EngFrame.trans {e : Engine} {s t u : State} (a : EngFrame e s t) (b : EngFrame e t u) : EngFrame e s u where
  others := fun e' h => (b.others e' h).trans (a.others e' h)
  ctl := b.ctl.trans a.ctl
  tick := b.tick.trans a.tick
  gtick := b.gtick.trans a.gtick
  jig := b.jig.trans a.jig
  vis := b.vis.trans a.vis
  hook := b.hook.trans a.hook

theorem EngBody.trans {e : Engine} {s t u : State} (a : EngBody e s t) (b : EngBody e t u) : EngBody e s u where
  toEngFrame := a.toEngFrame.trans b.toEngFrame
  eng := b.eng.trans a.eng
  tok := b.tok.trans a.tok

/-- A change of the core that leaves the control side and the engines alone. -/
theorem EngBody.upd {e : Engine} {s : State} {f : Core → Core} (h1 : (f s.core).ctl = s.core.ctl)
    (h2 : (f s.core).tick = s.core.tick) (h3 : (f s.core).gtick = s.core.gtick)
    (h4 : (f s.core).jig = s.core.jig) (h5 : (f s.core).vis.plain = s.core.vis.plain)
    (h6 : (f s.core).hook = s.core.hook) (h7 : ∀ e', (f s.core).eng e' = s.core.eng e')
    (h8 : (f s.core).tok = s.core.tok) : EngBody e s (s.upd f) :=
  { others := fun e' _ => h7 e', ctl := h1, tick := h2, gtick := h3, jig := h4, vis := h5, hook := h6
    eng := h7 e, tok := h8 }

theorem EngBody.mx (e : Engine) (s : State) (f : Core → Matrix) :
    EngBody e s (s.upd fun c => { c with mx := f c }) := by
  refine EngBody.upd ?_ ?_ ?_ ?_ ?_ ?_ ?_ ?_ <;> first | rfl | (intro e'; cases e' <;> rfl)

theorem EngBody.vec (e : Engine) (s : State) (f : Core → Vec) :
    EngBody e s (s.upd fun c => { c with vec := f c }) := by
  refine EngBody.upd ?_ ?_ ?_ ?_ ?_ ?_ ?_ ?_ <;> first | rfl | (intro e'; cases e' <;> rfl)

theorem EngBody.cp (e : Engine) (s : State) (f : Core → CopyEng) :
    EngBody e s (s.upd fun c => { c with cp := f c }) := by
  refine EngBody.upd ?_ ?_ ?_ ?_ ?_ ?_ ?_ ?_ <;> first | rfl | (intro e'; cases e' <;> rfl)

theorem EngBody.updQ (e : Engine) (s : State) (f : Queues → Queues) : EngBody e s (s.updQ f) := by
  refine EngBody.upd (f := fun c => { c with q := f c.q }) ?_ ?_ ?_ ?_ ?_ ?_ ?_ ?_ <;>
    first | rfl | (intro e'; cases e' <;> rfl)

theorem EngBody.setIrrev (e : Engine) (s : State) : EngBody e s s.setIrrev := by
  constructor
  · constructor <;> simp
  · simp
  · simp

theorem EngBody.readsIf (e : Engine) (s : State) (b : Bool) : EngBody e s (s.readsIf b) := by
  constructor
  · constructor <;> simp
  · simp
  · simp

theorem EngBody.updCarried (e : Engine) (s : State) (f : Carried → Carried) : EngBody e s (s.updCarried f) := by
  constructor
  · constructor <;> simp
  · simp
  · simp

theorem EngBody.pushVq (e : Engine) (s : State) (k : Fin 4) (x : LaneEntry) : EngBody e s (s.pushVq k x) := by
  constructor
  · constructor <;> simp
  · simp
  · simp

theorem EngBody.popVq (e : Engine) (s : State) (k : Fin 4) : EngBody e s (s.popVq k) := by
  constructor
  · constructor <;> simp
  · simp
  · simp

/-- The rest of a queue after its head has left is not flushed. -/
theorem headWord_dropFlush {e : Engine} {s : State} {x : Entry} {rest : List QItem}
    (h : headWord e s = some (x, rest)) {c : Core} (hq : (c.eng e).queue = rest) : c.flushRegs e = c :=
  Core.flushRegs_none fun sr v t ht => headWord_rest h sr v t (hq.symm.trans ht)

/-- The state after an issue, as one record. -/
theorem issueWord_eq {e : Engine} {tk : Tok} {s u : State} {x : Entry} {rest : List QItem} (w : Issued)
    (h : headWord e s = some (x, rest)) (he : u.core.eng e = s.core.eng e) :
    issueWord e tk x w u = { u with core := { (u.core.setEng e fun g =>
      { g with queue := rest, issued := g.issued ++ [{ w with gl := tk.gl, gr := tk.gr, hooked := u.core.ctl.regs.hook }]
               last := some u.core.tick }) with
      tok := if x.started then u.core.tok else u.core.popToks e tk
      stall := { u.core.stall with progress := u.core.tick } } } := by
  have hf : (u.core.setEng e fun g => { g.dropHead with
        issued := g.issued ++ [{ w with gl := tk.gl, gr := tk.gr, hooked := u.core.ctl.regs.hook }], last := some u.core.tick })
      = u.core.setEng e fun g => { g with
        queue := rest, issued := g.issued ++ [{ w with gl := tk.gl, gr := tk.gr, hooked := u.core.ctl.regs.hook }], last := some u.core.tick } :=
    Core.setEng_congr _ _ (by simp [Eng.dropHead, he, headWord_queue h])
  unfold issueWord State.upd
  simp only
  rw [headWord_dropFlush h]
  · simp only [hf, Core.setEng_stall, Core.setEng_tick]
  · rw [hf]
    cases e <;> rfl

/-- What an issue and a stay leave as the body left it: all but their own engine, the tokens and the
progress count. -/
structure EngLeaves (u t : State) : Prop where
  id : t.core.id = u.core.id
  vis : t.core.vis = u.core.vis
  q : t.core.q = u.core.q
  mx : t.core.mx = u.core.mx
  vec : t.core.vec = u.core.vec
  sd : t.core.sd = u.core.sd
  land : t.core.land = u.core.land
  cp : t.core.cp = u.core.cp
  phase : t.core.phase = u.core.phase
  bench : t.core.bench = u.core.bench
  store : t.core.store = u.core.store
  others : t.others = u.others
  sys : t.sys = u.sys

theorem EngLeaves.mem {u t : State} (h : EngLeaves u t) (sp : Space) : t.mem sp = u.mem sp :=
  State.mem_congr h.id h.bench h.others h.sys sp

theorem EngLeaves.restSame {s u t : State} (h : EngLeaves u t) (r : RestSame s u) : RestSame s t := by
  obtain ⟨r1, r2, r3, r4, r5, r6⟩ := r
  exact ⟨h.land.trans r1, h.cp.trans r2, h.sd.trans r3, h.others.trans r4, h.sys.trans r5,
    fun sp a => by rw [h.mem sp]; exact r6 sp a⟩

theorem EngLeaves.memSame {s u t : State} (h : EngLeaves u t) (r : MemSame s u) : MemSame s t :=
  fun sp a => by rw [h.mem sp]; exact r sp a

/-- An issue (R143, R144): what its statement says, and the rest as the body left it. -/
theorem issueWord_spec {e : Engine} {tk : Tok} {s u : State} {x : Entry} {rest : List QItem} (w : Issued)
    (h : headWord e s = some (x, rest)) (hb : EngBody e s u) :
    EngIssues e tk x rest s (issueWord e tk x w u).pass ∧ EngLeaves u (issueWord e tk x w u).pass ∧
      (((issueWord e tk x w u).pass).core.eng e).issued
        = (s.core.eng e).issued ++ [{ w with gl := tk.gl, gr := tk.gr, hooked := u.core.ctl.regs.hook }] := by
  rw [issueWord_eq w h hb.eng]
  have hs : ∀ (e' : Engine) (c : Core) (t : Vector Nat 8) (k : Stall),
      ({ c with tok := t, stall := k } : Core).eng e' = c.eng e' := fun e' _ _ _ => by cases e' <;> rfl
  refine ⟨{ others := fun e' he => ?_, ctl := ?_, tick := ?_, gtick := ?_, jig := ?_, vis := ?_, hook := ?_,
            queue := ?_, issued := ⟨{ w with gl := tk.gl, gr := tk.gr, hooked := u.core.ctl.regs.hook }, ?_, rfl, rfl⟩, last := ?_, tok := ?_ },
          by constructor <;> simp, ?_⟩
  · simp only [State.pass_core]
    rw [hs, Core.eng_setEng_ne _ _ he, hb.others e' he]
  · simp [hb.ctl]
  · simp [hb.tick]
  · simp [hb.gtick]
  · simp [hb.jig]
  · simp [hb.vis]
  · simp [hb.hook]
  · simp only [State.pass_core]; rw [hs, Core.eng_setEng_self]
  · simp only [State.pass_core]; rw [hs, Core.eng_setEng_self, hb.eng]
  · simp only [State.pass_core]; rw [hs, Core.eng_setEng_self, hb.tick]
  · simp only [State.pass_core]
    split
    · exact hb.tok
    · unfold Core.popToks; rw [hb.tok]
  · simp only [State.pass_core]; rw [hs, Core.eng_setEng_self, hb.eng]

/-- A stay at a progress point (R143). -/
theorem stayWord_spec {e : Engine} {tk : Tok} {s u : State} {x y : Entry} {rest : List QItem}
    (h : headWord e s = some (x, rest)) (hb : EngBody e s u) (hw : y.word = x.word) (hn : y.snap = x.snap)
    (ha : y.addr = x.addr) :
    let t := (stayWord e tk x y (settled e x y s u)).pass
    EngStays e tk x rest y.prog s t ∧ EngLeaves u t ∧
      (t.core.eng e).queue = .word { y with started := true, first := if x.started then y.first else u.core.tick } :: rest := by
  have hq := headWord_queue h
  have hc : (settled e x y s u).core.ctl = if x.started && s.core.settlesNow e && !y.goesOn then
      (stopSettling e s).core.ctl else s.core.ctl := by
    unfold settled; split
    · exact stopSettling_ctl e hb.ctl
    · exact hb.ctl
  have hr : settled e x y s u = { u with core := { u.core with ctl := (settled e x y s u).core.ctl } } := by
    unfold settled; split <;> rfl
  rw [hr]
  unfold stayWord State.upd
  have hs : ∀ (e' : Engine) (c : Core) (t : Vector Nat 8) (k : Stall),
      ({ c with tok := t, stall := k } : Core).eng e' = c.eng e' := fun e' _ _ _ => by cases e' <;> rfl
  have hx : ∀ (e' : Engine) (c : Ctl), ({ u.core with ctl := c } : Core).eng e' = u.core.eng e' :=
    fun e' _ => by cases e' <;> rfl
  refine ⟨{ others := fun e' he => ?_, tick := ?_, gtick := ?_, jig := ?_, vis := ?_, hook := ?_,
            queue := ⟨{ y with started := true, first := if x.started then y.first else u.core.tick }, ?_, rfl, rfl, hw, hn, ha, ?_⟩, issued := ?_, tok := ?_ },
          by constructor <;> simp, ?_⟩
  · simp only [State.pass_core]
    rw [hs, Core.eng_setEng_ne _ _ he, hx, hb.others e' he]
  · simp [hb.tick]
  · simp [hb.gtick]
  · simp [hb.jig]
  · simp [hb.vis]
  · simp [hb.hook]
  · simp only [State.pass_core]; rw [hs, Core.eng_setEng_self, hx, hb.eng, hq]; rfl
  · simp [hc, Entry.goesOn]
  · simp only [State.pass_core]; rw [hs, Core.eng_setEng_self, hx, hb.eng]
  · simp only [State.pass_core]
    split
    · exact hb.tok
    · unfold Core.popToks; rw [hb.tok]
  · simp only [State.pass_core]; rw [hs, Core.eng_setEng_self, hx, hb.eng, hq]; rfl

end Sys2Proof.Machine
end

