-- ==== Sys2Proof/Laws/Memory.lean ====
section
/-! SUPPORT. The laws of memories: every operation keeps the canonical form, a read after a write gives
the bytes written, and a write leaves every other address alone (R10, R48). -/

namespace Sys2Proof.Machine

/-! ### The canonical form -/

/-- A memory is canonical when no byte it lists is 0 and its addresses rise. -/
theorem Mem.wf_iff (m : Mem) :
    m.wf = true ↔ (∀ c ∈ m, c.2 ≠ 0) ∧ m.Pairwise (fun a b => a.1 < b.1) := by
  induction m with
  | nil => simp [Mem.wf]
  | cons c t ih =>
    obtain ⟨a, v⟩ := c
    simp only [Mem.wf, Bool.and_eq_true, List.pairwise_cons, List.forall_mem_cons, ih, bne_iff_ne,
      List.all_eq_true, decide_eq_true_eq]
    grind

@[simp] theorem Mem.wf_nil : Mem.wf [] = true := rfl

theorem Mem.wf_filter {m : Mem} (p : Host.Cell → Bool) (h : m.wf = true) : Mem.wf (m.filter p) = true := by
  rw [Mem.wf_iff] at h ⊢
  exact ⟨fun c hc => h.1 c (List.mem_filter.mp hc).1, h.2.filter p⟩

/-- Two canonical memories, the second past the first, are one. -/
theorem Mem.wf_append {m n : Mem} (hm : m.wf = true) (hn : n.wf = true)
    (h : ∀ a ∈ m, ∀ b ∈ n, a.1 < b.1) : Mem.wf (m ++ n) = true := by
  rw [Mem.wf_iff] at hm hn ⊢
  refine ⟨fun c hc => ?_, List.pairwise_append.mpr ⟨hm.2, hn.2, h⟩⟩
  rcases List.mem_append.mp hc with h | h
  · exact hm.1 c h
  · exact hn.1 c h

/-- What the pairs of a list of bytes are. -/
theorem Mem.mem_listed {a : Nat} {bs : List Byte} {c : Host.Cell} (h : c ∈ Mem.listed a bs) :
    a ≤ c.1 ∧ c.1 < a + bs.length ∧ c.2 ≠ 0 := by
  induction bs generalizing a with
  | nil => simp [Mem.listed] at h
  | cons b bs ih =>
    simp only [Mem.listed] at h
    split at h
    · have := ih h; simp only [List.length_cons]; grind
    · rcases List.mem_cons.mp h with rfl | h
      · simp; assumption
      · have := ih h; simp only [List.length_cons]; grind

theorem Mem.wf_listed (a : Nat) (bs : List Byte) : (Mem.listed a bs).wf = true := by
  induction bs generalizing a with
  | nil => rfl
  | cons b bs ih =>
    simp only [Mem.listed]
    split
    · exact ih _
    · rename_i hb
      simp only [Mem.wf, Bool.and_eq_true, bne_iff_ne, ih, and_true, List.all_eq_true, decide_eq_true_eq]
      exact ⟨hb, fun c hc => by have := Mem.mem_listed hc; omega⟩

/-- A write keeps the canonical form. -/
theorem Mem.wf_write {m : Mem} (h : m.wf = true) (a : Nat) (bs : List Byte) : (m.write a bs).wf = true := by
  refine Mem.wf_append (Mem.wf_append (Mem.wf_filter _ h) (Mem.wf_listed a bs) ?_) (Mem.wf_filter _ h) ?_
  · intro x hx y hy
    have := Mem.mem_listed hy
    have := (List.mem_filter.mp hx).2
    simp only [decide_eq_true_eq] at this; omega
  · intro x hx y hy
    have hy := (List.mem_filter.mp hy).2
    simp only [decide_eq_true_eq] at hy
    rcases List.mem_append.mp hx with h | h
    · have h := (List.mem_filter.mp h).2
      simp only [decide_eq_true_eq] at h; omega
    · have := Mem.mem_listed h; omega

/-- A copy keeps the canonical form. -/
theorem Mem.wf_blit {m src : Mem} (h : m.wf = true) (hs : src.wf = true) (a n dst : Nat) :
    (m.blit src a n dst).wf = true := by
  have key : ∀ x ∈ (src.filter (fun c => decide (a ≤ c.1) && decide (c.1 < a + n))).map
      (fun c : Host.Cell => (c.1 - a + dst, c.2)), dst ≤ x.1 ∧ x.1 < dst + n := by
    intro x hx
    obtain ⟨c, hc, rfl⟩ := List.mem_map.mp hx
    have := (List.mem_filter.mp hc).2
    simp only [Bool.and_eq_true, decide_eq_true_eq] at this
    simp only; omega
  have mid : Mem.wf ((src.filter (fun c => decide (a ≤ c.1) && decide (c.1 < a + n))).map
      (fun c : Host.Cell => (c.1 - a + dst, c.2))) = true := by
    have hf := Mem.wf_filter (fun c => decide (a ≤ c.1) && decide (c.1 < a + n)) hs
    rw [Mem.wf_iff] at hf ⊢
    refine ⟨fun c hc => ?_, List.pairwise_map.mpr ?_⟩
    · obtain ⟨d, hd, rfl⟩ := List.mem_map.mp hc
      exact hf.1 d hd
    · refine hf.2.imp_of_mem ?_
      intro x y hx hy hxy
      have hx := (List.mem_filter.mp hx).2
      have hy := (List.mem_filter.mp hy).2
      simp only [Bool.and_eq_true, decide_eq_true_eq] at hx hy
      simp only; omega
  refine Mem.wf_append (Mem.wf_append (Mem.wf_filter _ h) mid ?_) (Mem.wf_filter _ h) ?_
  · intro x hx y hy
    have := key y hy
    have := (List.mem_filter.mp hx).2
    simp only [decide_eq_true_eq] at this; omega
  · intro x hx y hy
    have hy := (List.mem_filter.mp hy).2
    simp only [decide_eq_true_eq] at hy
    rcases List.mem_append.mp hx with h | h
    · have h := (List.mem_filter.mp h).2
      simp only [decide_eq_true_eq] at h; omega
    · have := key x h; omega

/-! ### Reading -/

@[simp] theorem Mem.read_nil (a : Nat) : Mem.read [] a = 0 := rfl

theorem Mem.read_cons (c : Host.Cell) (m : Mem) (a : Nat) :
    Mem.read (c :: m) a = if c.1 = a then c.2 else Mem.read m a := by
  unfold Mem.read
  by_cases h : c.1 = a
  · simp [h]
  · have hb : (c.1 == a) = false := by simp [h]
    simp [hb, h]

/-- An address that a memory does not list reads 0 (log 6). -/
theorem Mem.read_none {m : Mem} {a : Nat} (h : ∀ c ∈ m, c.1 ≠ a) : m.read a = 0 := by
  induction m with
  | nil => rfl
  | cons c t ih =>
    rw [Mem.read_cons, if_neg (h c (by simp)), ih fun c hc => h c (by simp [hc])]

theorem Mem.read_append (m n : Mem) (a : Nat) :
    Mem.read (m ++ n) a = if ∃ c ∈ m, c.1 = a then Mem.read m a else Mem.read n a := by
  induction m with
  | nil => simp
  | cons c t ih =>
    rw [List.cons_append, Mem.read_cons, Mem.read_cons, ih]
    by_cases h : c.1 = a <;> simp [h]

/-- Keeping the cells of some addresses: those read as before, the others read 0. -/
theorem Mem.read_filter (m : Mem) (p : Nat → Bool) (a : Nat) :
    Mem.read (m.filter fun c => p c.1) a = if p a then m.read a else 0 := by
  induction m with
  | nil => simp
  | cons c t ih =>
    rw [List.filter_cons]
    split
    · rw [Mem.read_cons, Mem.read_cons, ih]
      by_cases h : c.1 = a
      · subst h; simp_all
      · simp [h]
    · rw [Mem.read_cons, ih]
      by_cases h : c.1 = a
      · subst h; simp_all
      · simp [h]

theorem Mem.read_listed (a : Nat) (bs : List Byte) (x : Nat) :
    Mem.read (Mem.listed a bs) x = if a ≤ x then bs.getD (x - a) 0 else 0 := by
  induction bs generalizing a with
  | nil => simp [Mem.listed]
  | cons b bs ih =>
    simp only [Mem.listed]
    by_cases hx : a = x
    · subst hx
      split
      · rename_i hb; rw [ih, if_neg (by omega)]; simp [hb]
      · rw [Mem.read_cons]; simp
    · have hg : (if a ≤ x then (b :: bs).getD (x - a) 0 else 0)
          = if a + 1 ≤ x then bs.getD (x - (a + 1)) 0 else 0 := by
        by_cases h : a ≤ x
        · obtain ⟨k, rfl⟩ : ∃ k, x = a + (k + 1) := ⟨x - a - 1, by omega⟩
          rw [if_pos (by omega), if_pos (by omega)]
          have h1 : a + (k + 1) - a = k + 1 := by omega
          have h2 : a + (k + 1) - (a + 1) = k := by omega
          rw [h1, h2]; simp
        · rw [if_neg h, if_neg (by omega)]
      rw [hg]
      split
      · exact ih _
      · rw [Mem.read_cons, if_neg hx, ih]

/-- A read after a write: the bytes written, and every other byte as before. -/
theorem Mem.read_write (m : Mem) (a : Nat) (bs : List Byte) (x : Nat) :
    (m.write a bs).read x = if a ≤ x ∧ x < a + bs.length then bs.getD (x - a) 0 else m.read x := by
  have hlow := Mem.read_filter m (fun k => decide (k < a)) x
  have hhigh := Mem.read_filter m (fun k => decide (a + bs.length ≤ k)) x
  have hmid := Mem.read_listed a bs x
  simp only [decide_eq_true_eq] at hlow hhigh
  unfold Mem.write
  rw [Mem.read_append, Mem.read_append, hlow, hhigh, hmid]
  by_cases h1 : x < a
  · rw [if_neg (by omega : ¬(a ≤ x ∧ x < a + bs.length)), if_pos h1]
    by_cases hm : ∃ c ∈ m.filter (fun c => decide (c.1 < a)), c.1 = x
    · obtain ⟨c, hc, hx⟩ := hm
      rw [if_pos ⟨c, List.mem_append_left _ hc, hx⟩, if_pos ⟨c, hc, hx⟩]
    · have h0 : m.read x = 0 := by
        apply Mem.read_none
        intro c hc hx
        exact hm ⟨c, List.mem_filter.mpr ⟨hc, by simp; omega⟩, hx⟩
      rw [if_neg hm, if_neg (by omega : ¬ a ≤ x), if_neg (by omega : ¬ a + bs.length ≤ x), h0]
      simp
  · have hn : ¬ ∃ c ∈ m.filter (fun c => decide (c.1 < a)), c.1 = x := by
      rintro ⟨c, hc, hx⟩
      have := (List.mem_filter.mp hc).2
      simp only [decide_eq_true_eq] at this; omega
    by_cases h2 : x < a + bs.length
    · rw [if_pos (by omega : a ≤ x ∧ x < a + bs.length), if_neg hn, if_pos (by omega : a ≤ x),
        if_neg (by omega : ¬ a + bs.length ≤ x)]
      by_cases hm : ∃ c ∈ Mem.listed a bs, c.1 = x
      · obtain ⟨c, hc, hx⟩ := hm
        rw [if_pos ⟨c, List.mem_append_right _ hc, hx⟩]
      · have h0 : bs.getD (x - a) 0 = 0 := by
          have h0 := Mem.read_none (m := Mem.listed a bs) (a := x) fun c hc hx => hm ⟨c, hc, hx⟩
          rw [hmid, if_pos (by omega : a ≤ x)] at h0
          exact h0
        rw [h0]; simp
    · have hm : ¬ ∃ c ∈ m.filter (fun c => decide (c.1 < a)) ++ Mem.listed a bs, c.1 = x := by
        rintro ⟨c, hc, hx⟩
        rcases List.mem_append.mp hc with h | h
        · exact hn ⟨c, h, hx⟩
        · have := Mem.mem_listed h; omega
      rw [if_neg (by omega : ¬(a ≤ x ∧ x < a + bs.length)), if_neg hm, if_pos (by omega)]

/-- A read after a copy: the bytes copied, and every other byte as before. -/
theorem Mem.read_blit (m src : Mem) (a n dst x : Nat) :
    (m.blit src a n dst).read x
      = if dst ≤ x ∧ x < dst + n then src.read (x - dst + a) else m.read x := by
  have hmid : ∀ l : Mem, Mem.read ((l.filter (fun c => decide (a ≤ c.1) && decide (c.1 < a + n))).map
      (fun c => (c.1 - a + dst, c.2))) x = if dst ≤ x ∧ x < dst + n then l.read (x - dst + a) else 0 := by
    intro l
    induction l with
    | nil => simp
    | cons c t ih =>
      rw [List.filter_cons]
      split
      · rename_i h
        simp only [Bool.and_eq_true, decide_eq_true_eq] at h
        rw [List.map_cons, Mem.read_cons, ih, Mem.read_cons]
        by_cases hx : c.1 - a + dst = x
        · subst hx
          have h1 : c.1 = c.1 - a + dst - dst + a := by omega
          rw [if_pos rfl, if_pos (by omega), if_pos h1]
        · rw [if_neg hx]
          split
          · rw [if_neg (by omega)]
          · rfl
      · rename_i h
        simp only [Bool.and_eq_true, decide_eq_true_eq, not_and] at h
        rw [ih, Mem.read_cons]
        split
        · rw [if_neg (by omega)]
        · rfl
  have hkey : ∀ c ∈ (src.filter (fun c => decide (a ≤ c.1) && decide (c.1 < a + n))).map
      (fun c : Host.Cell => (c.1 - a + dst, c.2)), dst ≤ c.1 ∧ c.1 < dst + n := by
    intro c hc
    obtain ⟨d, hd, rfl⟩ := List.mem_map.mp hc
    have := (List.mem_filter.mp hd).2
    simp only [Bool.and_eq_true, decide_eq_true_eq] at this
    simp only; omega
  have hlow := Mem.read_filter m (fun k => decide (k < dst)) x
  have hhigh := Mem.read_filter m (fun k => decide (dst + n ≤ k)) x
  simp only [decide_eq_true_eq] at hlow hhigh
  have hmid' := hmid src
  unfold Mem.blit
  rw [Mem.read_append, Mem.read_append, hlow, hhigh, hmid']
  have hnlow : ¬ x < dst → ¬ ∃ c ∈ m.filter (fun c => decide (c.1 < dst)), c.1 = x := by
    rintro h ⟨c, hc, hx⟩
    have := (List.mem_filter.mp hc).2
    simp only [decide_eq_true_eq] at this; omega
  by_cases h1 : x < dst
  · have hc : ¬(dst ≤ x ∧ x < dst + n) := by omega
    have hh : ¬ dst + n ≤ x := by omega
    simp only [hc, h1, hh, if_false, if_true]
    by_cases hm : ∃ c ∈ m.filter (fun c => decide (c.1 < dst)), c.1 = x
    · obtain ⟨c, hc, hx⟩ := hm
      rw [if_pos ⟨c, List.mem_append_left _ hc, hx⟩, if_pos ⟨c, hc, hx⟩]
    · have h0 : m.read x = 0 := by
        apply Mem.read_none
        intro c hc hx
        exact hm ⟨c, List.mem_filter.mpr ⟨hc, by simp; omega⟩, hx⟩
      rw [if_neg hm, h0]; simp
  · by_cases h2 : x < dst + n
    · have hc : dst ≤ x ∧ x < dst + n := by omega
      have hh : ¬ dst + n ≤ x := by omega
      rw [if_pos hc] at hmid'
      rw [if_neg (hnlow h1)]
      simp only [hc, hh, if_false, if_true, and_self]
      split
      · rfl
      · rename_i hm
        have h0 := Mem.read_none (m := (src.filter (fun c => decide (a ≤ c.1) && decide (c.1 < a + n))).map
          (fun c => (c.1 - a + dst, c.2))) (a := x)
          fun c hc hx => hm ⟨c, List.mem_append_right _ hc, hx⟩
        rw [hmid'] at h0
        exact h0.symm
    · have hc : ¬(dst ≤ x ∧ x < dst + n) := by omega
      have hh : dst + n ≤ x := by omega
      simp only [hc, hh, if_false, if_true]
      rw [if_neg]
      rintro ⟨c, hc, hx⟩
      rcases List.mem_append.mp hc with h | h
      · exact hnlow h1 ⟨c, h, hx⟩
      · have := hkey c h; omega

/-! ### Reading several bytes -/

@[simp] theorem Mem.scan_length (n a : Nat) (m : Mem) : (Mem.scan n a m).length = n := by
  induction n generalizing a m with
  | zero => rfl
  | succ n ih =>
    cases m with
    | nil => simp [Mem.scan, ih]
    | cons c t => obtain ⟨b, v⟩ := c; simp only [Mem.scan]; split <;> simp [ih]

@[simp] theorem Mem.readN_length (m : Mem) (a n : Nat) : (m.readN a n).length = n := by simp [Mem.readN]

theorem Mem.scan_eq (n a : Nat) (m : Mem) (h : m.Pairwise (fun a b => a.1 < b.1)) (ha : ∀ c ∈ m, a ≤ c.1) :
    Mem.scan n a m = (List.range n).map fun i => m.read (a + i) := by
  induction n generalizing a m with
  | zero => rfl
  | succ n ih =>
    rw [List.range_succ_eq_map, List.map_cons, List.map_map]
    cases m with
    | nil =>
      simp only [Mem.scan]
      rw [ih _ [] List.Pairwise.nil (by simp)]; simp [Function.comp_def]
    | cons c t =>
      obtain ⟨b, v⟩ := c
      have hp := List.pairwise_cons.mp h
      have hb := ha (b, v) (by simp)
      simp only [Mem.scan]
      split
      · rename_i hba; subst hba
        rw [ih _ t hp.2 fun c hc => hp.1 c hc]
        congr 1
        · simp [Mem.read_cons]
        · refine List.map_congr_left fun i _ => ?_
          simp only [Function.comp, Mem.read_cons]
          rw [if_neg (by omega)]; congr 1; omega
      · rename_i hba
        rw [ih _ _ h ?_]
        · congr 1
          · symm; apply Mem.read_none
            intro c hc
            rcases List.mem_cons.mp hc with rfl | hc
            · simpa using hba
            · have := hp.1 c hc; simp only at this hb; omega
          · refine List.map_congr_left fun i _ => ?_
            simp only [Function.comp]; congr 1; omega
        · intro c hc
          rcases List.mem_cons.mp hc with rfl | hc
          · simp only at hb ⊢; omega
          · have := hp.1 c hc; simp only at this hb; omega

/-- Reading n bytes reads each of them. -/
theorem Mem.readN_eq {m : Mem} (h : m.wf = true) (a n : Nat) :
    m.readN a n = (List.range n).map fun i => m.read (a + i) := by
  have hw := (Mem.wf_iff m).mp h
  unfold Mem.readN
  rw [Mem.scan_eq n a _ (hw.2.filter _)]
  · refine List.map_congr_left fun i hi => ?_
    have hr := Mem.read_filter m (fun k => decide (a ≤ k) && decide (k < a + n)) (a + i)
    rw [hr, if_pos]
    have := List.mem_range.mp hi
    simp; omega
  · intro c hc
    have := (List.mem_filter.mp hc).2
    simp only [Bool.and_eq_true, decide_eq_true_eq] at this
    exact this.1

theorem Mem.readN_getD {m : Mem} (h : m.wf = true) (a n i : Nat) (hi : i < n) :
    (m.readN a n).getD i 0 = m.read (a + i) := by
  rw [Mem.readN_eq h]; simp [hi]

/-- Equal memories are equal data: two canonical memories that read alike are one (log 6). -/
theorem Mem.ext_read {m n : Mem} (hm : m.wf = true) (hn : n.wf = true) (h : ∀ a, m.read a = n.read a) :
    m = n := by
  induction m generalizing n with
  | nil =>
    cases n with
    | nil => rfl
    | cons c t =>
      have h0 := h c.1
      rw [Mem.read_cons, if_pos rfl] at h0
      exact absurd h0.symm (((Mem.wf_iff _).mp hn).1 c (by simp))
  | cons c t ih =>
    obtain ⟨hc0, hcp⟩ := (Mem.wf_iff _).mp hm
    cases n with
    | nil =>
      have h0 := h c.1
      rw [Mem.read_cons, if_pos rfl] at h0
      exact absurd h0 (hc0 c (by simp))
    | cons d u =>
      obtain ⟨hd0, hdp⟩ := (Mem.wf_iff _).mp hn
      have hcp' := List.pairwise_cons.mp hcp
      have hdp' := List.pairwise_cons.mp hdp
      have htz : ∀ a, a ≤ c.1 → Mem.read t a = 0 := fun a ha => Mem.read_none fun x hx => by
        have := hcp'.1 x hx; omega
      have huz : ∀ a, a ≤ d.1 → Mem.read u a = 0 := fun a ha => Mem.read_none fun x hx => by
        have := hdp'.1 x hx; omega
      have hk : c.1 = d.1 := by
        rcases Nat.lt_trichotomy c.1 d.1 with hlt | heq | hlt
        · have h0 := h c.1
          rw [Mem.read_cons, Mem.read_cons, if_pos rfl, if_neg (by omega), huz _ (by omega)] at h0
          exact absurd h0 (hc0 c (by simp))
        · exact heq
        · have h0 := h d.1
          rw [Mem.read_cons, Mem.read_cons, if_pos rfl, if_neg (by omega), htz _ (by omega)] at h0
          exact absurd h0.symm (hd0 d (by simp))
      have hv : c.2 = d.2 := by
        have h0 := h c.1
        rw [Mem.read_cons, Mem.read_cons, if_pos rfl, if_pos hk.symm] at h0
        exact h0
      have ht : t = u := by
        refine ih ((Mem.wf_iff _).mpr ⟨fun x hx => hc0 x (by simp [hx]), hcp'.2⟩)
          ((Mem.wf_iff _).mpr ⟨fun x hx => hd0 x (by simp [hx]), hdp'.2⟩) fun a => ?_
        by_cases ha : a ≤ c.1
        · rw [htz a ha, huz a (by omega)]
        · have h0 := h a
          rw [Mem.read_cons, Mem.read_cons, if_neg (by omega), if_neg (by omega)] at h0
          exact h0
      rw [ht, Prod.ext hk hv]

/-! ### Byte order (R10) -/

@[simp] theorem leBytes_length (n v : Nat) : (leBytes n v).length = n := by
  induction n generalizing v with
  | zero => rfl
  | succ n ih => simp [leBytes, ih]

theorem leBytes_getD (n v j : Nat) (h : j < n) : (leBytes n v).getD j 0 = BitVec.ofNat 8 (v / 256 ^ j) := by
  induction n generalizing v j with
  | zero => omega
  | succ n ih =>
    cases j with
    | zero => simp [leBytes]
    | succ j =>
      simp only [leBytes, List.getD_cons_succ]
      rw [ih _ _ (by omega), Nat.div_div_eq_div_mul, Nat.pow_succ']

theorem leNat_leBytes (n v : Nat) : leNat (leBytes n v) = v % 256 ^ n := by
  induction n generalizing v with
  | zero => simp [leBytes, leNat, Nat.mod_one]
  | succ n ih =>
    simp only [leBytes, leNat, ih, BitVec.toNat_ofNat]
    have e : 256 ^ (n + 1) = 256 * 256 ^ n := Nat.pow_succ'
    rw [e]; exact Nat.mod_mul.symm

theorem leNat_lt (bs : List Byte) : leNat bs < 256 ^ bs.length := by
  induction bs with
  | nil => simp [leNat]
  | cons b bs ih =>
    simp only [leNat, List.length_cons, Nat.pow_succ']
    have := b.isLt; omega

/-- The little-endian value of n bytes of a canonical memory. -/
theorem leNat_readN {m : Mem} (h : m.wf = true) (a n : Nat) : leNat (m.readN a n) = leValue m a n := by
  rw [Mem.readN_eq h]
  induction n generalizing a with
  | zero => rfl
  | succ n ih =>
    rw [List.range_succ_eq_map, List.map_cons, List.map_map]
    simp only [leNat, leValue, Nat.add_zero]
    rw [← ih (a + 1)]
    congr 2
    congr 1
    refine List.map_congr_left fun i _ => ?_
    simp only [Function.comp]; congr 1; omega

theorem leValue_lt (m : Mem) (a n : Nat) : leValue m a n < 256 ^ n := by
  induction n generalizing a with
  | zero => simp [leValue]
  | succ n ih =>
    simp only [leValue, Nat.pow_succ']
    have := (m.read a).isLt
    have := ih (a + 1); omega

/-- The value of bytes just written. -/
theorem leValue_write (m : Mem) (a : Nat) (bs : List Byte) : leValue (m.write a bs) a bs.length = leNat bs := by
  have key : ∀ (n k : Nat), k + n = bs.length →
      leValue (m.write a bs) (a + k) n = leNat (bs.drop k) := by
    intro n
    induction n with
    | zero => intro k hk; simp [leValue, List.drop_eq_nil_of_le (by omega : bs.length ≤ k), leNat]
    | succ n ih =>
      intro k hk
      rw [leValue, Mem.read_write, if_pos (by omega), List.drop_eq_getElem_cons (by omega : k < bs.length)]
      rw [leNat, show a + k + 1 = a + (k + 1) by omega, ih (k + 1) (by omega)]
      congr 2
      rw [show a + k - a = k by omega, List.getD_eq_getElem?_getD, List.getElem?_eq_getElem (by omega)]
      rfl
  simpa using key bs.length 0 (by omega)

end Sys2Proof.Machine
end

