-- ==== Sys2Proof/Laws/Homes.lean ====
section
/-! SUPPORT. The laws of homes (R47, R48): what a write at a home does to every home's bytes and to the
rest of the state, and that it keeps every memory canonical. -/

namespace Sys2Proof.Machine

/-! ### Changing one core -/

/-- The cores after a change of one that keeps its number. -/
theorem State.coreAt_modCore (s : State) (k j : Nat) (f : Core → Core) (hf : ∀ c, (f c).id = c.id) :
    (s.modCore k f).coreAt j = (s.coreAt j).map fun c => if j = k then f c else c := by
  have hfind : ∀ l : List Core, (l.map fun c => if c.id.num = k then f c else c).find? (fun c => c.id.num == j)
      = (l.find? fun c => c.id.num == j).map fun c => if j = k then f c else c := by
    intro l
    induction l with
    | nil => rfl
    | cons c t ih =>
      have hid : (if c.id.num = k then f c else c).id = c.id := by split <;> simp [hf]
      rw [List.map_cons, List.find?_cons, List.find?_cons, hid, ih]
      by_cases h : c.id.num = j
      · subst h; simp
      · have hb : (c.id.num == j) = false := by simp [h]
        simp [hb]
  unfold State.modCore State.coreAt
  split
  · rename_i hk
    simp only [hf]
    by_cases hj : s.core.id.num = j
    · subst hk; subst hj; simp
    · have : j ≠ k := by omega
      simp [hj, this]
  · rename_i hk
    simp only [hfind]
    by_cases hj : s.core.id.num = j
    · have : j ≠ k := by omega
      simp [hj, this]
    · simp [hj]

@[simp] theorem State.modCore_sys (s : State) (k : Nat) (f : Core → Core) : (s.modCore k f).sys = s.sys := by
  unfold State.modCore; split <;> rfl
@[simp] theorem State.modCore_turn (s : State) (k : Nat) (f : Core → Core) : (s.modCore k f).turn = s.turn := by
  unfold State.modCore; split <;> rfl
@[simp] theorem State.modCore_free (s : State) (k : Nat) (f : Core → Core) : (s.modCore k f).free = s.free := by
  unfold State.modCore; split <;> rfl
@[simp] theorem State.modCore_inputs (s : State) (k : Nat) (f : Core → Core) :
    (s.modCore k f).inputs = s.inputs := by
  unfold State.modCore; split <;> rfl

/-- The acting core after a change of the core with a number. -/
theorem State.modCore_core (s : State) (k : Nat) (f : Core → Core) :
    (s.modCore k f).core = if s.core.id.num = k then f s.core else s.core := by
  unfold State.modCore; split <;> rfl

/-! ### Writing a home -/

/-- The memories after the memory of a home is changed. -/
theorem State.mem_setMem (s : State) (sp sp' : Space) (m : Mem) (h : s.hasHome sp = true) :
    (s.setMem sp m).mem sp' = if sp' = sp then m else s.mem sp' := by
  cases sp with
  | bench k =>
    cases sp' with
    | bench j =>
      simp only [State.setMem, State.mem]
      rw [State.coreAt_modCore s k j (fun c => { c with bench := m }) fun _ => rfl]
      simp only [State.hasHome, Option.isSome_iff_exists] at h
      obtain ⟨c, hc⟩ := h
      by_cases hj : j = k
      · subst hj; simp [hc]
      · have : ¬ (Space.bench j = Space.bench k) := by simpa using hj
        simp only [this, if_false, hj]
        cases s.coreAt j <;> rfl
    | loft d => simp [State.setMem, State.mem]
    | hbm => simp [State.setMem, State.mem]
    | host => simp [State.setMem, State.mem]
    | hold _ => rfl
    | slot _ => rfl
    | jig _ => rfl
    | store _ => rfl
  | loft d =>
    cases sp' with
    | loft e =>
      simp only [State.setMem, State.mem, State.modDie]
      by_cases hd : e = d
      · subst hd; simp
      · have : ¬ (Space.loft e = Space.loft d) := by simpa using hd
        have hv : ¬ d.val = e.val := fun h => hd (Fin.ext h.symm)
        simp [this, hv]
    | bench j => rfl
    | hbm => simp [State.setMem, State.mem, State.modDie]
    | host => simp [State.setMem, State.mem, State.modDie]
    | hold _ => rfl
    | slot _ => rfl
    | jig _ => rfl
    | store _ => rfl
  | hbm => cases sp' <;> rfl
  | host => cases sp' <;> rfl
  | hold _ => simp [State.hasHome] at h
  | slot _ => simp [State.hasHome] at h
  | jig _ => simp [State.hasHome] at h
  | store _ => simp [State.hasHome] at h

/-- A home that is no memory of the machine holds no byte. -/
theorem State.mem_noHome (s : State) (sp : Space) (h : s.hasHome sp = false) : s.mem sp = [] := by
  cases sp <;> simp_all [State.hasHome, State.mem]

/-- A change of a home that is no memory changes no memory. -/
theorem State.mem_setMem_noHome (s : State) (sp sp' : Space) (m : Mem) (h : s.hasHome sp = false) :
    (s.setMem sp m).mem sp' = s.mem sp' := by
  cases sp with
  | bench k =>
    cases sp' with
    | bench j =>
      simp only [State.setMem, State.mem]
      rw [State.coreAt_modCore s k j (fun c => { c with bench := m }) fun _ => rfl]
      simp only [State.hasHome, Option.isSome_eq_false_iff, Option.isNone_iff_eq_none] at h
      by_cases hj : j = k
      · subst hj; simp [h]
      · cases s.coreAt j <;> simp [hj]
    | loft d => simp [State.setMem, State.mem]
    | hbm => simp [State.setMem, State.mem]
    | host => simp [State.setMem, State.mem]
    | hold _ => rfl
    | slot _ => rfl
    | jig _ => rfl
    | store _ => rfl
  | loft d => simp [State.hasHome] at h
  | hbm => simp [State.hasHome] at h
  | host => simp [State.hasHome] at h
  | hold _ => rfl
  | slot _ => rfl
  | jig _ => rfl
  | store _ => rfl

/-- Correcting locations changes the list of bad ones alone. -/
theorem State.mend_eq (s : State) (sp : Space) (off n : Nat) :
    s.mend sp off n = s ∨ ∃ l, s.mend sp off n = { s with sys := { s.sys with bad := l } } := by
  unfold State.mend; split
  · exact .inl rfl
  · exact .inr ⟨_, rfl⟩

@[simp] theorem State.mend_core (s : State) (sp : Space) (off n : Nat) : (s.mend sp off n).core = s.core := by
  rcases s.mend_eq sp off n with h | ⟨l, h⟩ <;> rw [h]
@[simp] theorem State.mend_others (s : State) (sp : Space) (off n : Nat) : (s.mend sp off n).others = s.others := by
  rcases s.mend_eq sp off n with h | ⟨l, h⟩ <;> rw [h]
@[simp] theorem State.mend_free (s : State) (sp : Space) (off n : Nat) : (s.mend sp off n).free = s.free := by
  rcases s.mend_eq sp off n with h | ⟨l, h⟩ <;> rw [h]
@[simp] theorem State.mend_inputs (s : State) (sp : Space) (off n : Nat) : (s.mend sp off n).inputs = s.inputs := by
  rcases s.mend_eq sp off n with h | ⟨l, h⟩ <;> rw [h]
@[simp] theorem State.mend_mem (s : State) (sp : Space) (off n : Nat) (sp' : Space) :
    (s.mend sp off n).mem sp' = s.mem sp' := by
  rcases s.mend_eq sp off n with h | ⟨l, h⟩ <;> rw [h]
  cases sp' <;> rfl

/-- The memories after a write at a home. -/
theorem State.mem_writeAt (s : State) (sp sp' : Space) (off : Nat) (bs : List Byte) :
    (s.writeAt sp off bs).mem sp'
      = if sp' = sp ∧ s.hasHome sp = true then (s.mem sp).write off bs else s.mem sp' := by
  have key : (s.setMem sp ((s.mem sp).write off bs)).mem sp'
      = if sp' = sp ∧ s.hasHome sp = true then (s.mem sp).write off bs else s.mem sp' := by
    cases h : s.hasHome sp
    · rw [State.mem_setMem_noHome _ _ _ _ h]; simp
    · rw [State.mem_setMem _ _ _ _ h]; simp
  unfold State.writeAt
  rw [State.mend_mem]; exact key

/-- A write at a home leaves every other byte. -/
theorem State.memBut_writeAt (s : State) (sp : Space) (off : Nat) (bs : List Byte) :
    MemBut sp off bs.length s (s.writeAt sp off bs) := by
  intro sp' a h
  rw [State.mem_writeAt]
  split
  · rename_i hs
    obtain ⟨rfl, -⟩ := hs
    rw [Mem.read_write, if_neg]
    intro hc; exact h ⟨rfl, hc⟩
  · rfl

/-- A byte of what was written at a home of the machine. -/
theorem State.read_writeAt (s : State) (sp : Space) (off : Nat) (bs : List Byte) (h : s.hasHome sp = true)
    (j : Nat) (hj : j < bs.length) : ((s.writeAt sp off bs).mem sp).read (off + j) = bs.getD j 0 := by
  rw [State.mem_writeAt, if_pos ⟨rfl, h⟩, Mem.read_write, if_pos (by omega), show off + j - off = j by omega]

/-- The value at a home after a write of a little-endian value. -/
theorem State.leValue_writeAt (s : State) (sp : Space) (off n v : Nat) (h : s.hasHome sp = true) :
    leValue ((s.writeAt sp off (leBytes n v)).mem sp) off n = v % 256 ^ n := by
  rw [State.mem_writeAt, if_pos ⟨rfl, h⟩]
  have := leValue_write (s.mem sp) off (leBytes n v)
  rwa [leBytes_length, leNat_leBytes] at this

/-- The memories after a copy between homes. -/
theorem State.mem_blitAt (s : State) (src : Space) (a n : Nat) (dst : Space) (b : Nat) (sp' : Space) :
    (s.blitAt src a n dst b).mem sp' = if sp' = dst ∧ s.hasHome dst = true
      then (s.mem dst).blit (s.mem src) a n b else s.mem sp' := by
  unfold State.blitAt
  simp only [State.mend_mem]
  cases h : s.hasHome dst
  · rw [State.mem_setMem_noHome _ _ _ _ h]; simp
  · rw [State.mem_setMem _ _ _ _ h]; simp

/-! ### What a write at a home leaves alone -/

/-- The acting core but for its bench. -/
theorem State.setMem_core (s : State) (sp : Space) (m : Mem) :
    (s.setMem sp m).core = if sp = .bench s.core.id.num then { s.core with bench := m } else s.core := by
  cases sp with
  | bench k =>
    simp only [State.setMem, State.modCore_core, Space.bench.injEq]
    by_cases h : s.core.id.num = k
    · simp [h]
    · have : ¬ k = s.core.id.num := fun e => h e.symm
      simp [h, this]
  | loft d => simp [State.setMem, State.modDie]
  | hbm => simp [State.setMem]
  | host => simp [State.setMem]
  | hold _ => simp [State.setMem]
  | slot _ => simp [State.setMem]
  | jig _ => simp [State.setMem]
  | store _ => simp [State.setMem]

/-- The acting core after a write at a home: its bench alone may change. -/
theorem State.writeAt_core (s : State) (sp : Space) (off : Nat) (bs : List Byte) :
    (s.writeAt sp off bs).core = if sp = .bench s.core.id.num
      then { s.core with bench := s.core.bench.write off bs } else s.core := by
  have key : (s.setMem sp ((s.mem sp).write off bs)).core = if sp = .bench s.core.id.num
      then { s.core with bench := s.core.bench.write off bs } else s.core := by
    rw [State.setMem_core]
    split
    · rename_i h; subst h; simp [State.mem, State.coreAt]
    · rfl
  unfold State.writeAt
  rw [State.mend_core]; exact key

@[simp] theorem State.setMem_turn (s : State) (sp : Space) (m : Mem) : (s.setMem sp m).turn = s.turn := by
  cases sp <;> simp [State.setMem, State.modDie]
@[simp] theorem State.setMem_free (s : State) (sp : Space) (m : Mem) : (s.setMem sp m).free = s.free := by
  cases sp <;> simp [State.setMem, State.modDie]
@[simp] theorem State.setMem_inputs (s : State) (sp : Space) (m : Mem) : (s.setMem sp m).inputs = s.inputs := by
  cases sp <;> simp [State.setMem, State.modDie]

end Sys2Proof.Machine
end

