-- ==== Sys2Proof/Laws/Invariant.lean ====
section
/-! SUPPORT. The laws of the invariant (R2, R10): each operation that changes memories, cores or what the
package shares keeps every memory canonical and all the cores. -/

namespace Sys2Proof.Machine

/-! ### What canonical memories say -/

theorem Core.memWf_iff (c : Core) : c.memWf = true ↔
    c.bench.wf = true ∧ c.store.wf = true ∧ c.mx.tiles.wf = true ∧ c.mx.acc.wf = true := by
  simp only [Core.memWf, Bool.and_eq_true, and_assoc]

/-- Every memory that the package's cores share is canonical, with those of the saved cores. -/
def Sys.memWf (y : Sys) : Prop :=
  (∀ d : Fin 4, y.die[d].loft.wf = true) ∧ y.hbm.wf = true ∧ y.host.wf = true
    ∧ ∀ t ∈ y.tasks, t.saved.all Core.memWf = true

theorem State.memWf_iff (s : State) : s.memWf = true ↔
    s.core.memWf = true ∧ (∀ c ∈ s.others, c.memWf = true) ∧ s.sys.memWf := by
  simp only [State.memWf, Sys.memWf, Bool.and_eq_true, List.all_eq_true, and_assoc, Vector.mem_toList_iff,
    Vector.forall_mem_iff_forall_getElem, Fin.getElem_fin]
  constructor
  · rintro ⟨h1, h2, h3, h⟩; exact ⟨h1, h2, fun d => h3 d.val d.isLt, h⟩
  · rintro ⟨h1, h2, h3, h⟩; exact ⟨h1, h2, fun i hi => h3 ⟨i, hi⟩, h⟩

/-- The memory of every home is canonical. -/
theorem State.mem_wf {s : State} (h : s.memWf = true) (sp : Space) : (s.mem sp).wf = true := by
  rw [State.memWf_iff] at h
  obtain ⟨hc, ho, hy⟩ := h
  cases sp with
  | bench k =>
    simp only [State.mem]
    split
    · rename_i c hk
      unfold State.coreAt at hk
      split at hk
      · cases hk; exact ((Core.memWf_iff _).mp hc).1
      · exact ((Core.memWf_iff _).mp (ho c (List.mem_of_find?_eq_some hk))).1
    · rfl
  | loft d => exact hy.1 d
  | hbm => exact hy.2.1
  | host => exact hy.2.2.1
  | hold _ => rfl
  | slot _ => rfl
  | jig _ => rfl
  | store _ => rfl

/-! ### Memories -/

/-- A change of one core that keeps its memories canonical keeps all of them so. -/
theorem State.memWf_modCore {s : State} (k : Nat) (f : Core → Core) (h : s.memWf = true)
    (hf : ∀ c, c.memWf = true → (f c).memWf = true) : (s.modCore k f).memWf = true := by
  rw [State.memWf_iff] at h ⊢
  unfold State.modCore
  split
  · exact ⟨hf _ h.1, h.2⟩
  · refine ⟨h.1, fun c hc => ?_, h.2.2⟩
    obtain ⟨d, hd, rfl⟩ := List.mem_map.mp hc
    split
    · exact hf _ (h.2.1 d hd)
    · exact h.2.1 d hd

/-- A change of the acting core alone. -/
theorem State.memWf_core {s : State} (c : Core) (h : s.memWf = true) (hc : c.memWf = true) :
    ({ s with core := c } : State).memWf = true := by
  rw [State.memWf_iff] at h ⊢; exact ⟨hc, h.2⟩

/-- A change of the other cores. -/
theorem State.memWf_others {s : State} (f : Core → Core) (h : s.memWf = true)
    (hf : ∀ c, c.memWf = true → (f c).memWf = true) :
    ({ s with others := s.others.map f } : State).memWf = true := by
  rw [State.memWf_iff] at h ⊢
  refine ⟨h.1, fun c hc => ?_, h.2.2⟩
  obtain ⟨d, hd, rfl⟩ := List.mem_map.mp hc
  exact hf _ (h.2.1 d hd)

/-- A change of what the package shares. -/
theorem State.memWf_sys {s : State} (y : Sys) (h : s.memWf = true) (hy : y.memWf) :
    ({ s with sys := y } : State).memWf = true := by
  rw [State.memWf_iff] at h ⊢; exact ⟨h.1, h.2.1, hy⟩

/-- A change of one die. -/
theorem State.memWf_modDie {s : State} (d : Fin 4) (f : Die → Die) (h : s.memWf = true)
    (hf : ∀ x : Die, x.loft.wf = true → (f x).loft.wf = true) : (s.modDie d f).memWf = true := by
  refine State.memWf_sys _ h ?_
  have hy := ((State.memWf_iff s).mp h).2.2
  refine ⟨fun e => ?_, hy.2⟩
  simp only [Fin.getElem_fin, Vector.getElem_set]
  split
  · exact hf _ (hy.1 d)
  · exact hy.1 e

theorem State.memWf_setMem {s : State} (sp : Space) {m : Mem} (h : s.memWf = true) (hm : m.wf = true) :
    (s.setMem sp m).memWf = true := by
  cases sp with
  | bench k =>
    refine State.memWf_modCore k _ h fun c hc => ?_
    rw [Core.memWf_iff] at hc ⊢; exact ⟨hm, hc.2⟩
  | loft d => exact State.memWf_modDie d _ h fun _ _ => hm
  | hbm => have hy := ((State.memWf_iff s).mp h).2.2; exact State.memWf_sys _ h ⟨hy.1, hm, hy.2.2⟩
  | host => have hy := ((State.memWf_iff s).mp h).2.2; exact State.memWf_sys _ h ⟨hy.1, hy.2.1, hm, hy.2.2.2⟩
  | hold _ => exact h
  | slot _ => exact h
  | jig _ => exact h
  | store _ => exact h

theorem State.memWf_mend {s : State} (sp : Space) (off n : Nat) (h : s.memWf = true) :
    (s.mend sp off n).memWf = true := by
  rcases s.mend_eq sp off n with e | ⟨l, e⟩ <;> rw [e]
  · exact h
  · exact State.memWf_sys _ h ((State.memWf_iff s).mp h).2.2

/-- A write at a home keeps every memory canonical. -/
theorem State.memWf_writeAt {s : State} (sp : Space) (off : Nat) (bs : List Byte) (h : s.memWf = true) :
    (s.writeAt sp off bs).memWf = true := by
  unfold State.writeAt
  exact State.memWf_mend _ _ _ (State.memWf_setMem sp h (Mem.wf_write (State.mem_wf h sp) off bs))

/-- A copy between homes keeps every memory canonical. -/
theorem State.memWf_blitAt {s : State} (src : Space) (a n : Nat) (dst : Space) (b : Nat) (h : s.memWf = true) :
    (s.blitAt src a n dst b).memWf = true :=
  State.memWf_mend _ _ _ (State.memWf_setMem dst h (Mem.wf_blit (State.mem_wf h dst) (State.mem_wf h src) a n b))

/-! ### Cores -/

theorem State.coreNums_modCore (s : State) (k : Nat) (f : Core → Core) (hf : ∀ c, (f c).id = c.id) :
    (s.modCore k f).coreNums = s.coreNums := by
  unfold State.modCore State.coreNums
  split
  · simp [hf]
  · simp only [List.map_map, List.cons.injEq, true_and]
    refine List.map_congr_left fun c _ => ?_
    simp only [Function.comp]
    split <;> simp [hf]

@[simp] theorem State.coreNums_modDie (s : State) (d : Fin 4) (f : Die → Die) :
    (s.modDie d f).coreNums = s.coreNums := rfl

@[simp] theorem State.coreNums_setMem (s : State) (sp : Space) (m : Mem) : (s.setMem sp m).coreNums = s.coreNums := by
  cases sp with
  | bench k => exact State.coreNums_modCore s k _ fun _ => rfl
  | _ => rfl

@[simp] theorem State.coreNums_mend (s : State) (sp : Space) (off n : Nat) :
    (s.mend sp off n).coreNums = s.coreNums := by unfold State.coreNums; simp

@[simp] theorem State.coreNums_writeAt (s : State) (sp : Space) (off : Nat) (bs : List Byte) :
    (s.writeAt sp off bs).coreNums = s.coreNums := by
  unfold State.writeAt; rw [State.coreNums_mend]; exact State.coreNums_setMem s sp _

@[simp] theorem State.coreNums_blitAt (s : State) (src : Space) (a n : Nat) (dst : Space) (b : Nat) :
    (s.blitAt src a n dst b).coreNums = s.coreNums := by
  unfold State.blitAt; rw [State.coreNums_mend]; exact State.coreNums_setMem s dst _

/-! ### The invariant -/

theorem State.Inv.distinct {s : State} (h : s.Inv) : s.distinct := by
  unfold State.distinct
  exact (List.Perm.nodup_iff h.whole).mpr List.nodup_range

theorem State.Inv.writeAt {s : State} (h : s.Inv) (sp : Space) (off : Nat) (bs : List Byte) :
    (s.writeAt sp off bs).Inv :=
  ⟨State.memWf_writeAt sp off bs h.mem, by simpa [State.whole] using h.whole⟩

theorem State.Inv.blitAt {s : State} (h : s.Inv) (src : Space) (a n : Nat) (dst : Space) (b : Nat) :
    (s.blitAt src a n dst b).Inv :=
  ⟨State.memWf_blitAt src a n dst b h.mem, by simpa [State.whole] using h.whole⟩

theorem State.Inv.modCore {s : State} (h : s.Inv) (k : Nat) (f : Core → Core)
    (hf : ∀ c, c.memWf = true → (f c).memWf = true) (hi : ∀ c, (f c).id = c.id) : (s.modCore k f).Inv :=
  ⟨State.memWf_modCore k f h.mem hf, by simpa [State.whole, State.coreNums_modCore s k f hi] using h.whole⟩

theorem State.Inv.modDie {s : State} (h : s.Inv) (d : Fin 4) (f : Die → Die)
    (hf : ∀ x : Die, x.loft.wf = true → (f x).loft.wf = true) : (s.modDie d f).Inv :=
  ⟨State.memWf_modDie d f h.mem hf, h.whole⟩

theorem State.Inv.sys {s : State} (h : s.Inv) (y : Sys) (hy : y.memWf) : ({ s with sys := y } : State).Inv :=
  ⟨State.memWf_sys y h.mem hy, h.whole⟩

theorem State.Inv.core {s : State} (h : s.Inv) (c : Core) (hc : c.memWf = true) (hi : c.id = s.core.id) :
    ({ s with core := c } : State).Inv :=
  ⟨State.memWf_core c h.mem hc, by simpa [State.whole, State.coreNums, hi] using h.whole⟩

theorem State.Inv.others {s : State} (h : s.Inv) (f : Core → Core)
    (hf : ∀ c, c.memWf = true → (f c).memWf = true) (hi : ∀ c, (f c).id = c.id) :
    ({ s with others := s.others.map f } : State).Inv := by
  refine ⟨State.memWf_others f h.mem hf, ?_⟩
  have : (s.others.map f).map (·.id.num) = s.others.map (·.id.num) := by
    rw [List.map_map]; exact List.map_congr_left fun c _ => by simp [hi]
  simpa [State.whole, State.coreNums, this] using h.whole

/-- A fold keeps the invariant when each of its acts does. -/
theorem State.Inv.foldl {α : Type} {s : State} (h : s.Inv) (l : List α) (f : State → α → State)
    (hf : ∀ u x, x ∈ l → u.Inv → (f u x).Inv) : (l.foldl f s).Inv := by
  induction l generalizing s with
  | nil => exact h
  | cons x l ih => exact ih (hf s x (by simp) h) fun u y hy => hf u y (by simp [hy])

/-- Exchanging the first of a list with a later one. -/
theorem perm_exchange {α : Type} (a : α) (l : List α) (k : Nat) (h : k < l.length) :
    (l[k] :: l.set k a).Perm (a :: l) := by
  induction l generalizing k with
  | nil => simp at h
  | cons b t ih =>
    cases k with
    | zero => exact List.Perm.swap _ _ _
    | succ k =>
      have h' : k < t.length := by simpa using h
      calc (t[k] :: b :: t.set k a).Perm (b :: t[k] :: t.set k a) := List.Perm.swap _ _ _
        _ |>.Perm (b :: a :: t) := (ih k h').cons b
        _ |>.Perm (a :: b :: t) := List.Perm.swap _ _ _

/-- Exchanging the first of a list of numbers with the one that equals n. -/
theorem perm_replace (n m : Nat) (l : List Nat) (hn : n ∈ l) (hd : l.Nodup) :
    (n :: l.map fun x => if x = n then m else x).Perm (m :: l) := by
  induction l with
  | nil => simp at hn
  | cons b t ih =>
    obtain ⟨hb, ht⟩ := List.nodup_cons.mp hd
    by_cases h : b = n
    · subst h
      have : (t.map fun x => if x = b then m else x) = t := by
        conv => rhs; rw [← List.map_id t]
        refine List.map_congr_left fun x hx => ?_
        rw [if_neg (by rintro rfl; exact hb hx)]; rfl
      simp only [List.map_cons, if_true, this]
      exact List.Perm.swap _ _ _
    · have hm : n ∈ t := by
        rcases List.mem_cons.mp hn with e | e
        · exact absurd e.symm h
        · exact e
      simp only [List.map_cons, if_neg h]
      exact (List.Perm.swap _ _ _).trans (((ih hm ht).cons b).trans (List.Perm.swap _ _ _))

/-- The cores after the first is exchanged with the one that has a number. -/
theorem perm_cores (a c : Core) (l : List Core) (hc : c ∈ l) (hd : (l.map (·.id.num)).Nodup) :
    (c.id.num :: (l.map fun d => if d.id.num = c.id.num then a else d).map (·.id.num)).Perm
      (a.id.num :: l.map (·.id.num)) := by
  have := perm_replace c.id.num a.id.num (l.map (·.id.num)) (List.mem_map.mpr ⟨c, hc, rfl⟩) hd
  rw [List.map_map] at this ⊢
  have e : ((fun x : Core => x.id.num) ∘ fun d => if d.id.num = c.id.num then a else d)
      = ((fun x => if x = c.id.num then a.id.num else x) ∘ fun x : Core => x.id.num) := by
    funext d
    simp only [Function.comp]
    split <;> rfl
  rw [e]; exact this

/-- Another core that acts leaves every core in place. -/
theorem State.Inv.swapTo {s : State} (h : s.Inv) (k : Nat) : (swapTo k s).Inv := by
  unfold Machine.swapTo
  split
  · exact h
  · rename_i c hk
    obtain ⟨hlt, rfl⟩ := List.getElem?_eq_some_iff.mp hk
    refine ⟨?_, ?_⟩
    · have hm := (State.memWf_iff s).mp h.mem
      rw [State.memWf_iff]
      refine ⟨hm.2.1 _ (List.getElem_mem hlt), fun c hc => ?_, hm.2.2⟩
      rcases List.mem_or_eq_of_mem_set hc with hc | rfl
      · exact hm.2.1 c hc
      · exact hm.1
    · have := (perm_exchange s.core s.others k hlt).map (·.id.num)
      exact List.Perm.trans this h.whole

/-- Acting as another core keeps the invariant when the act does. -/
theorem State.Inv.asCore {s : State} (h : s.Inv) (k : Nat) (f : State → State)
    (hf : ∀ u, u.Inv → (f u).Inv) : (s.asCore k f).Inv := by
  unfold State.asCore
  split
  · exact hf s h
  · split
    · exact h
    · rename_i c hfind
      have hc := List.mem_of_find?_eq_some hfind
      have hk : c.id.num = k := by simpa using List.find?_some hfind
      subst hk
      have hm := (State.memWf_iff s).mp h.mem
      have hd := List.nodup_cons.mp h.distinct
      have hu : ({ s with core := c, others := s.others.map fun d =>
          if d.id.num = c.id.num then s.core else d } : State).Inv := by
        refine ⟨(State.memWf_iff _).mpr ⟨hm.2.1 c hc, fun d hd => ?_, hm.2.2⟩,
          (perm_cores s.core c s.others hc hd.2).trans h.whole⟩
        obtain ⟨x, hx, rfl⟩ := List.mem_map.mp hd
        split
        · exact hm.1
        · exact hm.2.1 x hx
      have ht := hf _ hu
      simp only
      split
      · exact h
      · rename_i mine hfm
        have hmem := List.mem_of_find?_eq_some hfm
        have hmine : mine.id.num = s.core.id.num := by simpa using List.find?_some hfm
        have htm := (State.memWf_iff _).mp ht.mem
        have htd := List.nodup_cons.mp ht.distinct
        refine ⟨(State.memWf_iff _).mpr ⟨htm.2.1 mine hmem, fun d hd => ?_, htm.2.2⟩, ?_⟩
        · obtain ⟨x, hx, rfl⟩ := List.mem_map.mp hd
          split
          · exact htm.1
          · exact htm.2.1 x hx
        · rw [← hmine]
          exact (perm_cores _ mine _ hmem htd.2).trans ht.whole

end Sys2Proof.Machine
end

