-- ==== Sys2Proof/Laws/PerInstr.lean ====
section
/-! SUPPORT. Encoding, one lemma per instruction: the words the encoder gives a well-formed instruction
decode to that instruction (R52 to R68). An event has no words. -/

namespace Sys2Proof.Laws

open Sys2Proof

/-- Decoding the words of a well-formed instruction gives it back. -/
def RoundTrip.Statement (i : Instr) : Prop :=
  ∀ w c, wellFormed i = true → encode i = some (w, c) → decode w c = .ok i

theorem RoundTrip.add (d a b : Fin 32) : RoundTrip.Statement (.add d a b) := by
  intro w cw _ h
  obtain ⟨hw, rfl⟩ := word_eq h
  obtain ⟨e, f, hd, ha, hb, -⟩ := alu_word hw (by decide)
  rw [e, decodeAlu, f]
  show (.ok (.add (fin32 w 18) (fin32 w 13) (fin32 w 8)) : Except Nat Instr) = _
  simp only [hd, ha, hb]

theorem RoundTrip.sub (d a b : Fin 32) : RoundTrip.Statement (.sub d a b) := by
  intro w cw _ h
  obtain ⟨hw, rfl⟩ := word_eq h
  obtain ⟨e, f, hd, ha, hb, -⟩ := alu_word hw (by decide)
  rw [e, decodeAlu, f]
  show (.ok (.sub (fin32 w 18) (fin32 w 13) (fin32 w 8)) : Except Nat Instr) = _
  simp only [hd, ha, hb]

theorem RoundTrip.and (d a b : Fin 32) : RoundTrip.Statement (.and d a b) := by
  intro w cw _ h
  obtain ⟨hw, rfl⟩ := word_eq h
  obtain ⟨e, f, hd, ha, hb, -⟩ := alu_word hw (by decide)
  rw [e, decodeAlu, f]
  show (.ok (.and (fin32 w 18) (fin32 w 13) (fin32 w 8)) : Except Nat Instr) = _
  simp only [hd, ha, hb]

theorem RoundTrip.or (d a b : Fin 32) : RoundTrip.Statement (.or d a b) := by
  intro w cw _ h
  obtain ⟨hw, rfl⟩ := word_eq h
  obtain ⟨e, f, hd, ha, hb, -⟩ := alu_word hw (by decide)
  rw [e, decodeAlu, f]
  show (.ok (.or (fin32 w 18) (fin32 w 13) (fin32 w 8)) : Except Nat Instr) = _
  simp only [hd, ha, hb]

theorem RoundTrip.xor (d a b : Fin 32) : RoundTrip.Statement (.xor d a b) := by
  intro w cw _ h
  obtain ⟨hw, rfl⟩ := word_eq h
  obtain ⟨e, f, hd, ha, hb, -⟩ := alu_word hw (by decide)
  rw [e, decodeAlu, f]
  show (.ok (.xor (fin32 w 18) (fin32 w 13) (fin32 w 8)) : Except Nat Instr) = _
  simp only [hd, ha, hb]

theorem RoundTrip.andn (d a b : Fin 32) : RoundTrip.Statement (.andn d a b) := by
  intro w cw _ h
  obtain ⟨hw, rfl⟩ := word_eq h
  obtain ⟨e, f, hd, ha, hb, -⟩ := alu_word hw (by decide)
  rw [e, decodeAlu, f]
  show (.ok (.andn (fin32 w 18) (fin32 w 13) (fin32 w 8)) : Except Nat Instr) = _
  simp only [hd, ha, hb]

theorem RoundTrip.sll (d a b : Fin 32) : RoundTrip.Statement (.sll d a b) := by
  intro w cw _ h
  obtain ⟨hw, rfl⟩ := word_eq h
  obtain ⟨e, f, hd, ha, hb, -⟩ := alu_word hw (by decide)
  rw [e, decodeAlu, f]
  show (.ok (.sll (fin32 w 18) (fin32 w 13) (fin32 w 8)) : Except Nat Instr) = _
  simp only [hd, ha, hb]

theorem RoundTrip.srl (d a b : Fin 32) : RoundTrip.Statement (.srl d a b) := by
  intro w cw _ h
  obtain ⟨hw, rfl⟩ := word_eq h
  obtain ⟨e, f, hd, ha, hb, -⟩ := alu_word hw (by decide)
  rw [e, decodeAlu, f]
  show (.ok (.srl (fin32 w 18) (fin32 w 13) (fin32 w 8)) : Except Nat Instr) = _
  simp only [hd, ha, hb]

theorem RoundTrip.sra (d a b : Fin 32) : RoundTrip.Statement (.sra d a b) := by
  intro w cw _ h
  obtain ⟨hw, rfl⟩ := word_eq h
  obtain ⟨e, f, hd, ha, hb, -⟩ := alu_word hw (by decide)
  rw [e, decodeAlu, f]
  show (.ok (.sra (fin32 w 18) (fin32 w 13) (fin32 w 8)) : Except Nat Instr) = _
  simp only [hd, ha, hb]

theorem RoundTrip.rotl (d a b : Fin 32) : RoundTrip.Statement (.rotl d a b) := by
  intro w cw _ h
  obtain ⟨hw, rfl⟩ := word_eq h
  obtain ⟨e, f, hd, ha, hb, -⟩ := alu_word hw (by decide)
  rw [e, decodeAlu, f]
  show (.ok (.rotl (fin32 w 18) (fin32 w 13) (fin32 w 8)) : Except Nat Instr) = _
  simp only [hd, ha, hb]

theorem RoundTrip.mul (d a b : Fin 32) : RoundTrip.Statement (.mul d a b) := by
  intro w cw _ h
  obtain ⟨hw, rfl⟩ := word_eq h
  obtain ⟨e, f, hd, ha, hb, -⟩ := alu_word hw (by decide)
  rw [e, decodeAlu, f]
  show (.ok (.mul (fin32 w 18) (fin32 w 13) (fin32 w 8)) : Except Nat Instr) = _
  simp only [hd, ha, hb]

theorem RoundTrip.mulh (d a b : Fin 32) : RoundTrip.Statement (.mulh d a b) := by
  intro w cw _ h
  obtain ⟨hw, rfl⟩ := word_eq h
  obtain ⟨e, f, hd, ha, hb, -⟩ := alu_word hw (by decide)
  rw [e, decodeAlu, f]
  show (.ok (.mulh (fin32 w 18) (fin32 w 13) (fin32 w 8)) : Except Nat Instr) = _
  simp only [hd, ha, hb]

theorem RoundTrip.mulhu (d a b : Fin 32) : RoundTrip.Statement (.mulhu d a b) := by
  intro w cw _ h
  obtain ⟨hw, rfl⟩ := word_eq h
  obtain ⟨e, f, hd, ha, hb, -⟩ := alu_word hw (by decide)
  rw [e, decodeAlu, f]
  show (.ok (.mulhu (fin32 w 18) (fin32 w 13) (fin32 w 8)) : Except Nat Instr) = _
  simp only [hd, ha, hb]

theorem RoundTrip.div (d a b : Fin 32) : RoundTrip.Statement (.div d a b) := by
  intro w cw _ h
  obtain ⟨hw, rfl⟩ := word_eq h
  obtain ⟨e, f, hd, ha, hb, -⟩ := alu_word hw (by decide)
  rw [e, decodeAlu, f]
  show (.ok (.div (fin32 w 18) (fin32 w 13) (fin32 w 8)) : Except Nat Instr) = _
  simp only [hd, ha, hb]

theorem RoundTrip.divu (d a b : Fin 32) : RoundTrip.Statement (.divu d a b) := by
  intro w cw _ h
  obtain ⟨hw, rfl⟩ := word_eq h
  obtain ⟨e, f, hd, ha, hb, -⟩ := alu_word hw (by decide)
  rw [e, decodeAlu, f]
  show (.ok (.divu (fin32 w 18) (fin32 w 13) (fin32 w 8)) : Except Nat Instr) = _
  simp only [hd, ha, hb]

theorem RoundTrip.rem (d a b : Fin 32) : RoundTrip.Statement (.rem d a b) := by
  intro w cw _ h
  obtain ⟨hw, rfl⟩ := word_eq h
  obtain ⟨e, f, hd, ha, hb, -⟩ := alu_word hw (by decide)
  rw [e, decodeAlu, f]
  show (.ok (.rem (fin32 w 18) (fin32 w 13) (fin32 w 8)) : Except Nat Instr) = _
  simp only [hd, ha, hb]

theorem RoundTrip.remu (d a b : Fin 32) : RoundTrip.Statement (.remu d a b) := by
  intro w cw _ h
  obtain ⟨hw, rfl⟩ := word_eq h
  obtain ⟨e, f, hd, ha, hb, -⟩ := alu_word hw (by decide)
  rw [e, decodeAlu, f]
  show (.ok (.remu (fin32 w 18) (fin32 w 13) (fin32 w 8)) : Except Nat Instr) = _
  simp only [hd, ha, hb]

theorem RoundTrip.min (d a b : Fin 32) : RoundTrip.Statement (.min d a b) := by
  intro w cw _ h
  obtain ⟨hw, rfl⟩ := word_eq h
  obtain ⟨e, f, hd, ha, hb, -⟩ := alu_word hw (by decide)
  rw [e, decodeAlu, f]
  show (.ok (.min (fin32 w 18) (fin32 w 13) (fin32 w 8)) : Except Nat Instr) = _
  simp only [hd, ha, hb]

theorem RoundTrip.max (d a b : Fin 32) : RoundTrip.Statement (.max d a b) := by
  intro w cw _ h
  obtain ⟨hw, rfl⟩ := word_eq h
  obtain ⟨e, f, hd, ha, hb, -⟩ := alu_word hw (by decide)
  rw [e, decodeAlu, f]
  show (.ok (.max (fin32 w 18) (fin32 w 13) (fin32 w 8)) : Except Nat Instr) = _
  simp only [hd, ha, hb]

theorem RoundTrip.minu (d a b : Fin 32) : RoundTrip.Statement (.minu d a b) := by
  intro w cw _ h
  obtain ⟨hw, rfl⟩ := word_eq h
  obtain ⟨e, f, hd, ha, hb, -⟩ := alu_word hw (by decide)
  rw [e, decodeAlu, f]
  show (.ok (.minu (fin32 w 18) (fin32 w 13) (fin32 w 8)) : Except Nat Instr) = _
  simp only [hd, ha, hb]

theorem RoundTrip.maxu (d a b : Fin 32) : RoundTrip.Statement (.maxu d a b) := by
  intro w cw _ h
  obtain ⟨hw, rfl⟩ := word_eq h
  obtain ⟨e, f, hd, ha, hb, -⟩ := alu_word hw (by decide)
  rw [e, decodeAlu, f]
  show (.ok (.maxu (fin32 w 18) (fin32 w 13) (fin32 w 8)) : Except Nat Instr) = _
  simp only [hd, ha, hb]

theorem RoundTrip.clz (d a : Fin 32) : RoundTrip.Statement (.clz d a) := by
  intro w cw _ h
  obtain ⟨hw, rfl⟩ := word_eq h
  obtain ⟨e, f, hd, ha, -, z⟩ := alu_word hw (by decide)
  rw [e, decodeAlu, f]
  show (accept [nz w 8 5] (.clz (fin32 w 18) (fin32 w 13)) : Except Nat Instr) = _
  simp only [hd, ha, nz_ok z, accept_passed, accept_nil]

theorem RoundTrip.ctz (d a : Fin 32) : RoundTrip.Statement (.ctz d a) := by
  intro w cw _ h
  obtain ⟨hw, rfl⟩ := word_eq h
  obtain ⟨e, f, hd, ha, -, z⟩ := alu_word hw (by decide)
  rw [e, decodeAlu, f]
  show (accept [nz w 8 5] (.ctz (fin32 w 18) (fin32 w 13)) : Except Nat Instr) = _
  simp only [hd, ha, nz_ok z, accept_passed, accept_nil]

theorem RoundTrip.popc (d a : Fin 32) : RoundTrip.Statement (.popc d a) := by
  intro w cw _ h
  obtain ⟨hw, rfl⟩ := word_eq h
  obtain ⟨e, f, hd, ha, -, z⟩ := alu_word hw (by decide)
  rw [e, decodeAlu, f]
  show (accept [nz w 8 5] (.popc (fin32 w 18) (fin32 w 13)) : Except Nat Instr) = _
  simp only [hd, ha, nz_ok z, accept_passed, accept_nil]

theorem RoundTrip.addi (d a : Fin 32) (imm : BitVec 13) : RoundTrip.Statement (.addi d a imm) := by
  intro w cw _ h
  obtain ⟨hw, rfl⟩ := word_eq h
  obtain ⟨e, f, hd, ha, hi⟩ := imm_word hw imm.isLt (by decide)
  rw [e, decodeControl, f]
  show (.ok (.addi (fin32 w 18) (fin32 w 13) (immf w 0 13)) : Except Nat Instr) = _
  simp only [hd, ha, immf_eq hi]

theorem RoundTrip.andi (d a : Fin 32) (imm : BitVec 13) : RoundTrip.Statement (.andi d a imm) := by
  intro w cw _ h
  obtain ⟨hw, rfl⟩ := word_eq h
  obtain ⟨e, f, hd, ha, hi⟩ := imm_word hw imm.isLt (by decide)
  rw [e, decodeControl, f]
  show (.ok (.andi (fin32 w 18) (fin32 w 13) (immf w 0 13)) : Except Nat Instr) = _
  simp only [hd, ha, immf_eq hi]

theorem RoundTrip.ori (d a : Fin 32) (imm : BitVec 13) : RoundTrip.Statement (.ori d a imm) := by
  intro w cw _ h
  obtain ⟨hw, rfl⟩ := word_eq h
  obtain ⟨e, f, hd, ha, hi⟩ := imm_word hw imm.isLt (by decide)
  rw [e, decodeControl, f]
  show (.ok (.ori (fin32 w 18) (fin32 w 13) (immf w 0 13)) : Except Nat Instr) = _
  simp only [hd, ha, immf_eq hi]

theorem RoundTrip.xori (d a : Fin 32) (imm : BitVec 13) : RoundTrip.Statement (.xori d a imm) := by
  intro w cw _ h
  obtain ⟨hw, rfl⟩ := word_eq h
  obtain ⟨e, f, hd, ha, hi⟩ := imm_word hw imm.isLt (by decide)
  rw [e, decodeControl, f]
  show (.ok (.xori (fin32 w 18) (fin32 w 13) (immf w 0 13)) : Except Nat Instr) = _
  simp only [hd, ha, immf_eq hi]

theorem RoundTrip.slli (d a : Fin 32) (sh : Fin 64) : RoundTrip.Statement (.slli d a sh) := by
  intro w cw _ h
  obtain ⟨hw, rfl⟩ := word_eq h
  obtain ⟨e, f, hd, ha, hi⟩ := imm_word hw (by omega) (by decide)
  simp only [fld] at hi
  rw [e, decodeControl, f]
  show (accept [nz w 6 7] (.slli (fin32 w 18) (fin32 w 13) (fin64 w 0)) : Except Nat Instr) = _
  simp only [hd, ha, fin64_eq (w := w) (lo := 0) (d := sh) (fld_eq (by omega)), nz_ok (w := w) (lo := 6) (n :=
    7) (fld_eq (by omega)), accept_passed, accept_nil]

theorem RoundTrip.srli (d a : Fin 32) (sh : Fin 64) : RoundTrip.Statement (.srli d a sh) := by
  intro w cw _ h
  obtain ⟨hw, rfl⟩ := word_eq h
  obtain ⟨e, f, hd, ha, hi⟩ := imm_word hw (by omega) (by decide)
  simp only [fld] at hi
  rw [e, decodeControl, f]
  show (accept [nz w 6 7] (.srli (fin32 w 18) (fin32 w 13) (fin64 w 0)) : Except Nat Instr) = _
  simp only [hd, ha, fin64_eq (w := w) (lo := 0) (d := sh) (fld_eq (by omega)), nz_ok (w := w) (lo := 6) (n :=
    7) (fld_eq (by omega)), accept_passed, accept_nil]

theorem RoundTrip.srai (d a : Fin 32) (sh : Fin 64) : RoundTrip.Statement (.srai d a sh) := by
  intro w cw _ h
  obtain ⟨hw, rfl⟩ := word_eq h
  obtain ⟨e, f, hd, ha, hi⟩ := imm_word hw (by omega) (by decide)
  simp only [fld] at hi
  rw [e, decodeControl, f]
  show (accept [nz w 6 7] (.srai (fin32 w 18) (fin32 w 13) (fin64 w 0)) : Except Nat Instr) = _
  simp only [hd, ha, fin64_eq (w := w) (lo := 0) (d := sh) (fld_eq (by omega)), nz_ok (w := w) (lo := 6) (n :=
    7) (fld_eq (by omega)), accept_passed, accept_nil]

theorem RoundTrip.lui (d : Fin 32) (imm : BitVec 18) : RoundTrip.Statement (.lui d imm) := by
  intro w cw _ h
  obtain ⟨hw, rfl⟩ := word_eq h
  obtain ⟨e, f, hd, hi, -⟩ := upper_word hw (by decide)
  rw [e, decodeControl, f]
  show (.ok (.lui (fin32 w 18) (immf w 0 18)) : Except Nat Instr) = _
  simp only [hd, hi]

theorem RoundTrip.adrp (d : Fin 32) (imm : BitVec 18) : RoundTrip.Statement (.adrp d imm) := by
  intro w cw _ h
  obtain ⟨hw, rfl⟩ := word_eq h
  obtain ⟨e, f, hd, hi, -⟩ := upper_word hw (by decide)
  rw [e, decodeControl, f]
  show (.ok (.adrp (fin32 w 18) (immf w 0 18)) : Except Nat Instr) = _
  simp only [hd, hi]

theorem RoundTrip.ceq (s : Fin 16) (a b : Fin 32) : RoundTrip.Statement (.ceq s a b) := by
  intro w cw hwf h
  obtain ⟨hw, rfl⟩ := word_eq h
  obtain ⟨e, f, hs, ha, hb, z, ok⟩ := cmp_word hw (by decide) hwf
  rw [e, decodeCmp, f]
  show (accept [nz w 18 1, badS w 19] (.ceq (fin16 w 19) (fin32 w 13) (fin32 w 8)) : Except Nat Instr) = _
  simp only [hs, ha, hb, z, ok, accept_passed, accept_nil]

theorem RoundTrip.cne (s : Fin 16) (a b : Fin 32) : RoundTrip.Statement (.cne s a b) := by
  intro w cw hwf h
  obtain ⟨hw, rfl⟩ := word_eq h
  obtain ⟨e, f, hs, ha, hb, z, ok⟩ := cmp_word hw (by decide) hwf
  rw [e, decodeCmp, f]
  show (accept [nz w 18 1, badS w 19] (.cne (fin16 w 19) (fin32 w 13) (fin32 w 8)) : Except Nat Instr) = _
  simp only [hs, ha, hb, z, ok, accept_passed, accept_nil]

theorem RoundTrip.clt (s : Fin 16) (a b : Fin 32) : RoundTrip.Statement (.clt s a b) := by
  intro w cw hwf h
  obtain ⟨hw, rfl⟩ := word_eq h
  obtain ⟨e, f, hs, ha, hb, z, ok⟩ := cmp_word hw (by decide) hwf
  rw [e, decodeCmp, f]
  show (accept [nz w 18 1, badS w 19] (.clt (fin16 w 19) (fin32 w 13) (fin32 w 8)) : Except Nat Instr) = _
  simp only [hs, ha, hb, z, ok, accept_passed, accept_nil]

theorem RoundTrip.cge (s : Fin 16) (a b : Fin 32) : RoundTrip.Statement (.cge s a b) := by
  intro w cw hwf h
  obtain ⟨hw, rfl⟩ := word_eq h
  obtain ⟨e, f, hs, ha, hb, z, ok⟩ := cmp_word hw (by decide) hwf
  rw [e, decodeCmp, f]
  show (accept [nz w 18 1, badS w 19] (.cge (fin16 w 19) (fin32 w 13) (fin32 w 8)) : Except Nat Instr) = _
  simp only [hs, ha, hb, z, ok, accept_passed, accept_nil]

theorem RoundTrip.cltu (s : Fin 16) (a b : Fin 32) : RoundTrip.Statement (.cltu s a b) := by
  intro w cw hwf h
  obtain ⟨hw, rfl⟩ := word_eq h
  obtain ⟨e, f, hs, ha, hb, z, ok⟩ := cmp_word hw (by decide) hwf
  rw [e, decodeCmp, f]
  show (accept [nz w 18 1, badS w 19] (.cltu (fin16 w 19) (fin32 w 13) (fin32 w 8)) : Except Nat Instr) = _
  simp only [hs, ha, hb, z, ok, accept_passed, accept_nil]

theorem RoundTrip.cgeu (s : Fin 16) (a b : Fin 32) : RoundTrip.Statement (.cgeu s a b) := by
  intro w cw hwf h
  obtain ⟨hw, rfl⟩ := word_eq h
  obtain ⟨e, f, hs, ha, hb, z, ok⟩ := cmp_word hw (by decide) hwf
  rw [e, decodeCmp, f]
  show (accept [nz w 18 1, badS w 19] (.cgeu (fin16 w 19) (fin32 w 13) (fin32 w 8)) : Except Nat Instr) = _
  simp only [hs, ha, hb, z, ok, accept_passed, accept_nil]

theorem RoundTrip.cbs (s : Fin 16) (a b : Fin 32) : RoundTrip.Statement (.cbs s a b) := by
  intro w cw hwf h
  obtain ⟨hw, rfl⟩ := word_eq h
  obtain ⟨e, f, hs, ha, hb, z, ok⟩ := cmp_word hw (by decide) hwf
  rw [e, decodeCmp, f]
  show (accept [nz w 18 1, badS w 19] (.cbs (fin16 w 19) (fin32 w 13) (fin32 w 8)) : Except Nat Instr) = _
  simp only [hs, ha, hb, z, ok, accept_passed, accept_nil]

theorem RoundTrip.cbc (s : Fin 16) (a b : Fin 32) : RoundTrip.Statement (.cbc s a b) := by
  intro w cw hwf h
  obtain ⟨hw, rfl⟩ := word_eq h
  obtain ⟨e, f, hs, ha, hb, z, ok⟩ := cmp_word hw (by decide) hwf
  rw [e, decodeCmp, f]
  show (accept [nz w 18 1, badS w 19] (.cbc (fin16 w 19) (fin32 w 13) (fin32 w 8)) : Except Nat Instr) = _
  simp only [hs, ha, hb, z, ok, accept_passed, accept_nil]

theorem RoundTrip.ceqi (s : Fin 16) (a : Fin 32) (imm : BitVec 14) : RoundTrip.Statement (.ceqi s a imm) := by
  intro w cw hwf h
  obtain ⟨hw, rfl⟩ := word_eq h
  obtain ⟨e, f, hs, ha, hi, ok⟩ := cmpi_word hw (by decide) hwf
  rw [e, decodeControl, f]
  show (accept [badS w 19] (.ceqi (fin16 w 19) (fin32 w 14) (immf w 0 14)) : Except Nat Instr) = _
  simp only [hs, ha, hi, ok, accept_passed, accept_nil]

theorem RoundTrip.cnei (s : Fin 16) (a : Fin 32) (imm : BitVec 14) : RoundTrip.Statement (.cnei s a imm) := by
  intro w cw hwf h
  obtain ⟨hw, rfl⟩ := word_eq h
  obtain ⟨e, f, hs, ha, hi, ok⟩ := cmpi_word hw (by decide) hwf
  rw [e, decodeControl, f]
  show (accept [badS w 19] (.cnei (fin16 w 19) (fin32 w 14) (immf w 0 14)) : Except Nat Instr) = _
  simp only [hs, ha, hi, ok, accept_passed, accept_nil]

theorem RoundTrip.clti (s : Fin 16) (a : Fin 32) (imm : BitVec 14) : RoundTrip.Statement (.clti s a imm) := by
  intro w cw hwf h
  obtain ⟨hw, rfl⟩ := word_eq h
  obtain ⟨e, f, hs, ha, hi, ok⟩ := cmpi_word hw (by decide) hwf
  rw [e, decodeControl, f]
  show (accept [badS w 19] (.clti (fin16 w 19) (fin32 w 14) (immf w 0 14)) : Except Nat Instr) = _
  simp only [hs, ha, hi, ok, accept_passed, accept_nil]

theorem RoundTrip.cgei (s : Fin 16) (a : Fin 32) (imm : BitVec 14) : RoundTrip.Statement (.cgei s a imm) := by
  intro w cw hwf h
  obtain ⟨hw, rfl⟩ := word_eq h
  obtain ⟨e, f, hs, ha, hi, ok⟩ := cmpi_word hw (by decide) hwf
  rw [e, decodeControl, f]
  show (accept [badS w 19] (.cgei (fin16 w 19) (fin32 w 14) (immf w 0 14)) : Except Nat Instr) = _
  simp only [hs, ha, hi, ok, accept_passed, accept_nil]

theorem RoundTrip.cltui (s : Fin 16) (a : Fin 32) (imm : BitVec 14) : RoundTrip.Statement (.cltui s a imm) := by
  intro w cw hwf h
  obtain ⟨hw, rfl⟩ := word_eq h
  obtain ⟨e, f, hs, ha, hi, ok⟩ := cmpi_word hw (by decide) hwf
  rw [e, decodeControl, f]
  show (accept [badS w 19] (.cltui (fin16 w 19) (fin32 w 14) (immf w 0 14)) : Except Nat Instr) = _
  simp only [hs, ha, hi, ok, accept_passed, accept_nil]

theorem RoundTrip.sand (sd sa sb : Fin 16) : RoundTrip.Statement (.sand sd sa sb) := by
  intro w cw hwf h
  obtain ⟨hw, rfl⟩ := word_eq h
  simp only [wellFormed, Bool.and_eq_true] at hwf
  obtain ⟨e, f, hd, ha, hb, z, k1, k2, k3, -⟩ := steer_word hw (by decide) hwf.1.1 hwf.1.2 hwf.2
  rw [e, decodeSteer, f]
  show (accept [nz w 0 8, badS w 19, badS w 15, badS w 11] (.sand (fin16 w 19) (fin16 w 15) (fin16 w 11)) :
    Except Nat Instr) = _
  simp only [hd, ha, hb, z, k1, k2, k3, accept_passed, accept_nil]

theorem RoundTrip.sor (sd sa sb : Fin 16) : RoundTrip.Statement (.sor sd sa sb) := by
  intro w cw hwf h
  obtain ⟨hw, rfl⟩ := word_eq h
  simp only [wellFormed, Bool.and_eq_true] at hwf
  obtain ⟨e, f, hd, ha, hb, z, k1, k2, k3, -⟩ := steer_word hw (by decide) hwf.1.1 hwf.1.2 hwf.2
  rw [e, decodeSteer, f]
  show (accept [nz w 0 8, badS w 19, badS w 15, badS w 11] (.sor (fin16 w 19) (fin16 w 15) (fin16 w 11)) :
    Except Nat Instr) = _
  simp only [hd, ha, hb, z, k1, k2, k3, accept_passed, accept_nil]

theorem RoundTrip.sxor (sd sa sb : Fin 16) : RoundTrip.Statement (.sxor sd sa sb) := by
  intro w cw hwf h
  obtain ⟨hw, rfl⟩ := word_eq h
  simp only [wellFormed, Bool.and_eq_true] at hwf
  obtain ⟨e, f, hd, ha, hb, z, k1, k2, k3, -⟩ := steer_word hw (by decide) hwf.1.1 hwf.1.2 hwf.2
  rw [e, decodeSteer, f]
  show (accept [nz w 0 8, badS w 19, badS w 15, badS w 11] (.sxor (fin16 w 19) (fin16 w 15) (fin16 w 11)) :
    Except Nat Instr) = _
  simp only [hd, ha, hb, z, k1, k2, k3, accept_passed, accept_nil]

theorem RoundTrip.snot (sd sa : Fin 16) : RoundTrip.Statement (.snot sd sa) := by
  intro w cw hwf h
  obtain ⟨hw, rfl⟩ := word_eq h
  simp only [wellFormed, Bool.and_eq_true] at hwf
  obtain ⟨e, f, hd, ha, -, z, k1, k2, -, -, z1⟩ := steer_word (b := 0) hw (by decide) hwf.1 hwf.2 rfl
  rw [e, decodeSteer, f]
  show (accept [nz w 0 8, nz w 11 4, badS w 19, badS w 15] (.snot (fin16 w 19) (fin16 w 15)) : Except Nat
    Instr) = _
  simp only [hd, ha, z, k1, k2, nz_ok z1, accept_passed, accept_nil]

theorem RoundTrip.smov (sd sa : Fin 16) : RoundTrip.Statement (.smov sd sa) := by
  intro w cw hwf h
  obtain ⟨hw, rfl⟩ := word_eq h
  simp only [wellFormed, Bool.and_eq_true] at hwf
  obtain ⟨e, f, hd, ha, -, z, k1, k2, -, -, z1⟩ := steer_word (b := 0) hw (by decide) hwf.1 hwf.2 rfl
  rw [e, decodeSteer, f]
  show (accept [nz w 0 8, nz w 11 4, badS w 19, badS w 15] (.smov (fin16 w 19) (fin16 w 15)) : Except Nat
    Instr) = _
  simp only [hd, ha, z, k1, k2, nz_ok z1, accept_passed, accept_nil]

theorem RoundTrip.sset (sd : Fin 16) : RoundTrip.Statement (.sset sd) := by
  intro w cw hwf h
  obtain ⟨hw, rfl⟩ := word_eq h
  obtain ⟨e, f, hd, -, -, z, k1, -, -, z2, z1⟩ := steer_word (a := 0) (b := 0) hw (by decide) hwf rfl rfl
  rw [e, decodeSteer, f]
  show (accept [nz w 0 8, nz w 11 4, nz w 15 4, badS w 19] (.sset (fin16 w 19)) : Except Nat Instr) = _
  simp only [hd, z, k1, nz_ok z1, nz_ok z2, accept_passed, accept_nil]

theorem RoundTrip.sclr (sd : Fin 16) : RoundTrip.Statement (.sclr sd) := by
  intro w cw hwf h
  obtain ⟨hw, rfl⟩ := word_eq h
  obtain ⟨e, f, hd, -, -, z, k1, -, -, z2, z1⟩ := steer_word (a := 0) (b := 0) hw (by decide) hwf rfl rfl
  rw [e, decodeSteer, f]
  show (accept [nz w 0 8, nz w 11 4, nz w 15 4, badS w 19] (.sclr (fin16 w 19)) : Except Nat Instr) = _
  simp only [hd, z, k1, nz_ok z1, nz_ok z2, accept_passed, accept_nil]

theorem RoundTrip.prep (s : Fin 16) (off : BitVec 19) : RoundTrip.Statement (.prep s off) := by
  intro w cw hwf h
  obtain ⟨hw, rfl⟩ := word_eq h
  have e : decode w none = decodeControl w := decode_control (by omega)
  have f : fld w 23 6 = 0x11 := fld_eq (by omega)
  have hs19 : fin16 w 19 = s := fin16_eq (fld_eq (by omega))
  have hoff0 : immf w 0 19 = off := immf_eq (fld_eq (by omega))
  have k19 : badS w 19 = (0x09, false) := badS_ok (s := s) (fld_eq (by omega)) hwf
  rw [e, decodeControl, f]
  show (accept [badS w 19] (.prep (fin16 w 19) (immf w 0 19)) : Except Nat Instr) = _
  simp only [hs19, hoff0, k19, accept_passed, accept_nil]

theorem RoundTrip.prepr (s : Fin 16) (a : Fin 32) : RoundTrip.Statement (.prepr s a) := by
  intro w cw hwf h
  obtain ⟨hw, rfl⟩ := word_eq h
  have e : decode w none = decodeControl w := decode_control (by omega)
  have f : fld w 23 6 = 0x12 := fld_eq (by omega)
  have hs19 : fin16 w 19 = s := fin16_eq (fld_eq (by omega))
  have ha13 : fin32 w 13 = a := fin32_eq (fld_eq (by omega))
  have z18 : nz w 18 1 = (0x04, false) := nz_ok (fld_eq (by omega))
  have z0 : nz w 0 13 = (0x04, false) := nz_ok (fld_eq (by omega))
  have k19 : badS w 19 = (0x09, false) := badS_ok (s := s) (fld_eq (by omega)) hwf
  rw [e, decodeControl, f]
  show (accept [nz w 18 1, nz w 0 13, badS w 19] (.prepr (fin16 w 19) (fin32 w 13)) : Except Nat Instr) = _
  simp only [hs19, ha13, z18, z0, k19, accept_passed, accept_nil]

theorem RoundTrip.bt (s : Fin 16) (null : NullMode) : RoundTrip.Statement (.bt s null) := by
  intro w cw hwf h
  obtain ⟨hw, rfl⟩ := word_eq h
  exact branch_word hw (by decide) hwf

theorem RoundTrip.bf (s : Fin 16) (null : NullMode) : RoundTrip.Statement (.bf s null) := by
  intro w cw hwf h
  obtain ⟨hw, rfl⟩ := word_eq h
  exact branch_word hw (by decide) hwf

theorem RoundTrip.ba (s : Fin 16) (null : NullMode) : RoundTrip.Statement (.ba s null) := by
  intro w cw hwf h
  obtain ⟨hw, rfl⟩ := word_eq h
  exact branch_word hw (by decide) hwf

theorem RoundTrip.bl (s : Fin 16) (null : NullMode) : RoundTrip.Statement (.bl s null) := by
  intro w cw hwf h
  obtain ⟨hw, rfl⟩ := word_eq h
  exact branch_word hw (by decide) hwf

theorem RoundTrip.ldb (d a : Fin 32) (cls : Fin 16) (imm : BitVec 9) : RoundTrip.Statement (.ldb d a cls imm) := by
  intro w cw _ h
  obtain ⟨hw, rfl⟩ := word_eq h
  obtain ⟨e, f, hd, ha, hc, hi⟩ := mem_word hw (by decide)
  rw [e, decodeControl, f]
  show (.ok (.ldb (fin32 w 18) (fin32 w 13) (fin16 w 9) (immf w 0 9)) : Except Nat Instr) = _
  simp only [hd, ha, hc, hi]

theorem RoundTrip.ldbu (d a : Fin 32) (cls : Fin 16) (imm : BitVec 9) : RoundTrip.Statement (.ldbu d a cls imm) := by
  intro w cw _ h
  obtain ⟨hw, rfl⟩ := word_eq h
  obtain ⟨e, f, hd, ha, hc, hi⟩ := mem_word hw (by decide)
  rw [e, decodeControl, f]
  show (.ok (.ldbu (fin32 w 18) (fin32 w 13) (fin16 w 9) (immf w 0 9)) : Except Nat Instr) = _
  simp only [hd, ha, hc, hi]

theorem RoundTrip.ldh (d a : Fin 32) (cls : Fin 16) (imm : BitVec 9) : RoundTrip.Statement (.ldh d a cls imm) := by
  intro w cw _ h
  obtain ⟨hw, rfl⟩ := word_eq h
  obtain ⟨e, f, hd, ha, hc, hi⟩ := mem_word hw (by decide)
  rw [e, decodeControl, f]
  show (.ok (.ldh (fin32 w 18) (fin32 w 13) (fin16 w 9) (immf w 0 9)) : Except Nat Instr) = _
  simp only [hd, ha, hc, hi]

theorem RoundTrip.ldhu (d a : Fin 32) (cls : Fin 16) (imm : BitVec 9) : RoundTrip.Statement (.ldhu d a cls imm) := by
  intro w cw _ h
  obtain ⟨hw, rfl⟩ := word_eq h
  obtain ⟨e, f, hd, ha, hc, hi⟩ := mem_word hw (by decide)
  rw [e, decodeControl, f]
  show (.ok (.ldhu (fin32 w 18) (fin32 w 13) (fin16 w 9) (immf w 0 9)) : Except Nat Instr) = _
  simp only [hd, ha, hc, hi]

theorem RoundTrip.ldw (d a : Fin 32) (cls : Fin 16) (imm : BitVec 9) : RoundTrip.Statement (.ldw d a cls imm) := by
  intro w cw _ h
  obtain ⟨hw, rfl⟩ := word_eq h
  obtain ⟨e, f, hd, ha, hc, hi⟩ := mem_word hw (by decide)
  rw [e, decodeControl, f]
  show (.ok (.ldw (fin32 w 18) (fin32 w 13) (fin16 w 9) (immf w 0 9)) : Except Nat Instr) = _
  simp only [hd, ha, hc, hi]

theorem RoundTrip.ldwu (d a : Fin 32) (cls : Fin 16) (imm : BitVec 9) : RoundTrip.Statement (.ldwu d a cls imm) := by
  intro w cw _ h
  obtain ⟨hw, rfl⟩ := word_eq h
  obtain ⟨e, f, hd, ha, hc, hi⟩ := mem_word hw (by decide)
  rw [e, decodeControl, f]
  show (.ok (.ldwu (fin32 w 18) (fin32 w 13) (fin16 w 9) (immf w 0 9)) : Except Nat Instr) = _
  simp only [hd, ha, hc, hi]

theorem RoundTrip.ldd (d a : Fin 32) (cls : Fin 16) (imm : BitVec 9) : RoundTrip.Statement (.ldd d a cls imm) := by
  intro w cw _ h
  obtain ⟨hw, rfl⟩ := word_eq h
  obtain ⟨e, f, hd, ha, hc, hi⟩ := mem_word hw (by decide)
  rw [e, decodeControl, f]
  show (.ok (.ldd (fin32 w 18) (fin32 w 13) (fin16 w 9) (immf w 0 9)) : Except Nat Instr) = _
  simp only [hd, ha, hc, hi]

theorem RoundTrip.stb (d a : Fin 32) (cls : Fin 16) (imm : BitVec 9) : RoundTrip.Statement (.stb d a cls imm) := by
  intro w cw _ h
  obtain ⟨hw, rfl⟩ := word_eq h
  obtain ⟨e, f, hd, ha, hc, hi⟩ := mem_word hw (by decide)
  rw [e, decodeControl, f]
  show (.ok (.stb (fin32 w 18) (fin32 w 13) (fin16 w 9) (immf w 0 9)) : Except Nat Instr) = _
  simp only [hd, ha, hc, hi]

theorem RoundTrip.sth (d a : Fin 32) (cls : Fin 16) (imm : BitVec 9) : RoundTrip.Statement (.sth d a cls imm) := by
  intro w cw _ h
  obtain ⟨hw, rfl⟩ := word_eq h
  obtain ⟨e, f, hd, ha, hc, hi⟩ := mem_word hw (by decide)
  rw [e, decodeControl, f]
  show (.ok (.sth (fin32 w 18) (fin32 w 13) (fin16 w 9) (immf w 0 9)) : Except Nat Instr) = _
  simp only [hd, ha, hc, hi]

theorem RoundTrip.stw (d a : Fin 32) (cls : Fin 16) (imm : BitVec 9) : RoundTrip.Statement (.stw d a cls imm) := by
  intro w cw _ h
  obtain ⟨hw, rfl⟩ := word_eq h
  obtain ⟨e, f, hd, ha, hc, hi⟩ := mem_word hw (by decide)
  rw [e, decodeControl, f]
  show (.ok (.stw (fin32 w 18) (fin32 w 13) (fin16 w 9) (immf w 0 9)) : Except Nat Instr) = _
  simp only [hd, ha, hc, hi]

theorem RoundTrip.std (d a : Fin 32) (cls : Fin 16) (imm : BitVec 9) : RoundTrip.Statement (.std d a cls imm) := by
  intro w cw _ h
  obtain ⟨hw, rfl⟩ := word_eq h
  obtain ⟨e, f, hd, ha, hc, hi⟩ := mem_word hw (by decide)
  rw [e, decodeControl, f]
  show (.ok (.std (fin32 w 18) (fin32 w 13) (fin16 w 9) (immf w 0 9)) : Except Nat Instr) = _
  simp only [hd, ha, hc, hi]

theorem RoundTrip.ldl (d : Fin 32) (imm : BitVec 18) : RoundTrip.Statement (.ldl d imm) := by
  intro w cw _ h
  obtain ⟨hw, rfl⟩ := word_eq h
  obtain ⟨e, f, hd, hi, -⟩ := upper_word hw (by decide)
  rw [e, decodeControl, f]
  show (.ok (.ldl (fin32 w 18) (immf w 0 18)) : Except Nat Instr) = _
  simp only [hd, hi]

theorem RoundTrip.lpool (imm : BitVec 18) : RoundTrip.Statement (.lpool imm) := by
  intro w cw _ h
  obtain ⟨hw, rfl⟩ := word_eq h
  obtain ⟨e, f, -, hi, z⟩ := upper_word hw (by decide)
  rw [e, decodeControl, f]
  show (accept [nz w 18 5] (.lpool (immf w 0 18)) : Except Nat Instr) = _
  simp only [nz_ok z, hi, accept_passed, accept_nil]

theorem RoundTrip.amow (d a b : Fin 32) (fn : AtomFn) (ord : AtomOrd) (scope : Scope) : RoundTrip.Statement (.amow d a b fn ord scope) := by
  intro w cw _ h
  obtain ⟨hw, rfl⟩ := word_eq h
  obtain ⟨e, f, hd, ha, hb, hf, ho, hs⟩ := atom_word hw (by decide)
  rw [e, decodeControl, f]
  show decodeAtomic false w = _
  simp [decodeAtomic, hf, hd, ha, hb, ho, hs]

theorem RoundTrip.amod (d a b : Fin 32) (fn : AtomFn) (ord : AtomOrd) (scope : Scope) : RoundTrip.Statement (.amod d a b fn ord scope) := by
  intro w cw _ h
  obtain ⟨hw, rfl⟩ := word_eq h
  obtain ⟨e, f, hd, ha, hb, hf, ho, hs⟩ := atom_word hw (by decide)
  rw [e, decodeControl, f]
  show decodeAtomic true w = _
  simp [decodeAtomic, hf, hd, ha, hb, ho, hs]

theorem RoundTrip.fence (scope : Scope) (kind : FenceKind) (mask : BitVec 16) : RoundTrip.Statement (.fence scope kind mask) := by
  intro w cw _ h
  obtain ⟨hw, rfl⟩ := word_eq h
  obtain ⟨hs, hs'⟩ := scope_back scope
  cases kind <;>
  · simp only at hw
    have e : decode w none = decodeControl w := decode_control (by omega)
    have f : fld w 23 6 = 0x23 := fld_eq (by omega)
    have hm : immf w 0 16 = mask := immf_eq (fld_eq (by omega))
    have hsc : fld w 18 2 = scopeNum scope := fld_eq (by omega)
    have z : nz w 20 3 = (0x04, false) := nz_ok (fld_eq (by omega))
    first
      | have k : fld w 16 2 = 0 := fld_eq (by omega)
        rw [e, decodeControl, f]
        show decodeFence w = _
        simp [decodeFence, hm, hsc, hs, z, k]
      | have k : fld w 16 2 = 1 := fld_eq (by omega)
        rw [e, decodeControl, f]
        show decodeFence w = _
        simp [decodeFence, hm, hsc, hs, z, k]
      | have k : fld w 16 2 = 2 := fld_eq (by omega)
        rw [e, decodeControl, f]
        show decodeFence w = _
        simp [decodeFence, hm, hsc, hs, z, k]

theorem RoundTrip.mfs (d : Fin 32) (sr : BitVec 12) : RoundTrip.Statement (.mfs d sr) := by
  intro w cw _ h
  obtain ⟨hw, rfl⟩ := word_eq h
  have e : decode w none = decodeControl w := decode_control (by omega)
  have f : fld w 23 6 = 0x24 := fld_eq (by omega)
  have hd18 : fin32 w 18 = d := fin32_eq (fld_eq (by omega))
  have hsr0 : immf w 0 12 = sr := immf_eq (fld_eq (by omega))
  have z12 : nz w 12 6 = (0x04, false) := nz_ok (fld_eq (by omega))
  rw [e, decodeControl, f]
  show (accept [nz w 12 6] (.mfs (fin32 w 18) (immf w 0 12)) : Except Nat Instr) = _
  simp only [hd18, hsr0, z12, accept_passed, accept_nil]

theorem RoundTrip.mts (a : Fin 32) (sr : BitVec 12) : RoundTrip.Statement (.mts a sr) := by
  intro w cw _ h
  obtain ⟨hw, rfl⟩ := word_eq h
  have e : decode w none = decodeControl w := decode_control (by omega)
  have f : fld w 23 6 = 0x25 := fld_eq (by omega)
  have ha13 : fin32 w 13 = a := fin32_eq (fld_eq (by omega))
  have hsr0 : immf w 0 12 = sr := immf_eq (fld_eq (by omega))
  have z18 : nz w 18 5 = (0x04, false) := nz_ok (fld_eq (by omega))
  have z12 : nz w 12 1 = (0x04, false) := nz_ok (fld_eq (by omega))
  rw [e, decodeControl, f]
  show (accept [nz w 18 5, nz w 12 1] (.mts (fin32 w 13) (immf w 0 12)) : Except Nat Instr) = _
  simp only [ha13, hsr0, z18, z12, accept_passed, accept_nil]

theorem RoundTrip.mtsi (sr : BitVec 12) (imm : BitVec 11) : RoundTrip.Statement (.mtsi sr imm) := by
  intro w cw _ h
  obtain ⟨hw, rfl⟩ := word_eq h
  have e : decode w none = decodeControl w := decode_control (by omega)
  have f : fld w 23 6 = 0x26 := fld_eq (by omega)
  have hsr11 : immf w 11 12 = sr := immf_eq (fld_eq (by omega))
  have himm0 : immf w 0 11 = imm := immf_eq (fld_eq (by omega))
  rw [e, decodeControl, f]
  show (.ok (.mtsi (immf w 11 12) (immf w 0 11)) : Except Nat Instr) = _
  simp only [hsr11, himm0]

theorem RoundTrip.mtsr (k : Fin 16) (a : Fin 32) (sr : BitVec 12) : RoundTrip.Statement (.mtsr k a sr) := by
  intro w cw _ h
  obtain ⟨hw, rfl⟩ := word_eq h
  have e : decode w none = decodeControl w := decode_control (by omega)
  have f : fld w 23 6 = 0x31 := fld_eq (by omega)
  have hk19 : fin16 w 19 = k := fin16_eq (fld_eq (by omega))
  have ha13 : fin32 w 13 = a := fin32_eq (fld_eq (by omega))
  have hsr0 : immf w 0 12 = sr := immf_eq (fld_eq (by omega))
  have z18 : nz w 18 1 = (0x04, false) := nz_ok (fld_eq (by omega))
  have z12 : nz w 12 1 = (0x04, false) := nz_ok (fld_eq (by omega))
  rw [e, decodeControl, f]
  show (accept [nz w 18 1, nz w 12 1] (.mtsr (fin16 w 19) (fin32 w 13) (immf w 0 12)) : Except Nat Instr) = _
  simp only [hk19, ha13, hsr0, z18, z12, accept_passed, accept_nil]

theorem RoundTrip.qpush (a : Fin 32) (q : PushQ) : RoundTrip.Statement (.qpush a q) := by
  intro w cw _ h
  obtain ⟨hw, rfl⟩ := word_eq h
  have key : ∀ k, 0x27 * 8388608 + a.val * 8192 + k = w → k < 2 →
      decode w none = decodePush w ∧ fld w 0 4 = k ∧ fin32 w 13 = a ∧ nz w 18 5 = (0x04, false) ∧
      nz w 4 9 = (0x04, false) := by
    intro k hk h2
    have f : fld w 23 6 = 0x27 := fld_eq (by omega)
    exact ⟨by rw [decode_control (by omega)]; rw [decodeControl, f]; rfl, fld_eq (by omega),
      fin32_eq (fld_eq (by omega)), nz_ok (fld_eq (by omega)), nz_ok (fld_eq (by omega))⟩
  cases q with
  | xq => obtain ⟨e, f, ha, z, z'⟩ := key 0 hw (by decide); rw [e, decodePush, f]; simp [ha, z, z']
  | mbox => obtain ⟨e, f, ha, z, z'⟩ := key 1 hw (by decide); rw [e, decodePush, f]; simp [ha, z, z']

theorem RoundTrip.qpop (d : Fin 32) (q : PopQ) : RoundTrip.Statement (.qpop d q) := by
  intro w cw _ h
  obtain ⟨hw, rfl⟩ := word_eq h
  obtain ⟨hb, hb'⟩ := popQ_back q
  have e : decode w none = decodeControl w := decode_control (by omega)
  have f : fld w 23 6 = 0x28 := fld_eq (by omega)
  have hd18 : fin32 w 18 = d := fin32_eq (fld_eq (by omega))
  have hq : fld w 0 4 = popQNum q := fld_eq (by omega)
  have z13 : nz w 13 5 = (0x04, false) := nz_ok (fld_eq (by omega))
  have z4 : nz w 4 9 = (0x04, false) := nz_ok (fld_eq (by omega))
  rw [e, decodeControl, f]
  show decodePop false w = _
  simp [hd18, hq, z13, z4, decodePop, hb]

theorem RoundTrip.qcnt (d : Fin 32) (q : PopQ) : RoundTrip.Statement (.qcnt d q) := by
  intro w cw _ h
  obtain ⟨hw, rfl⟩ := word_eq h
  obtain ⟨hb, hb'⟩ := popQ_back q
  have e : decode w none = decodeControl w := decode_control (by omega)
  have f : fld w 23 6 = 0x29 := fld_eq (by omega)
  have hd18 : fin32 w 18 = d := fin32_eq (fld_eq (by omega))
  have hq : fld w 0 4 = popQNum q := fld_eq (by omega)
  have z13 : nz w 13 5 = (0x04, false) := nz_ok (fld_eq (by omega))
  have z4 : nz w 4 9 = (0x04, false) := nz_ok (fld_eq (by omega))
  rw [e, decodeControl, f]
  show decodePop true w = _
  simp [hd18, hq, z13, z4, decodePop, hb]

theorem RoundTrip.bar (id : Fin 16) : RoundTrip.Statement (.bar id) := by
  intro w cw _ h
  obtain ⟨hw, rfl⟩ := word_eq h
  have e : decode w none = decodeControl w := decode_control (by omega)
  have f : fld w 23 6 = 0x2A := fld_eq (by omega)
  have hid0 : fin16 w 0 = id := fin16_eq (fld_eq (by omega))
  have z16 : nz w 16 7 = (0x04, false) := nz_ok (fld_eq (by omega))
  have z4 : nz w 4 12 = (0x04, false) := nz_ok (fld_eq (by omega))
  rw [e, decodeControl, f]
  show (accept [nz w 16 7, nz w 4 12] (.bar (fin16 w 0)) : Except Nat Instr) = _
  simp only [hid0, z16, z4, accept_passed, accept_nil]

theorem RoundTrip.plumb (mark : BitVec 16) : RoundTrip.Statement (.plumb mark) := by
  intro w cw _ h
  obtain ⟨hw, rfl⟩ := word_eq h
  have e : decode w none = decodeControl w := decode_control (by omega)
  have f : fld w 23 6 = 0x2B := fld_eq (by omega)
  have hmark0 : immf w 0 16 = mark := immf_eq (fld_eq (by omega))
  have z16 : nz w 16 7 = (0x04, false) := nz_ok (fld_eq (by omega))
  rw [e, decodeControl, f]
  show (accept [nz w 16 7] (.plumb (immf w 0 16)) : Except Nat Instr) = _
  simp only [hmark0, z16, accept_passed, accept_nil]

theorem RoundTrip.twait (a : Fin 32) : RoundTrip.Statement (.twait a) := by
  intro w cw _ h
  obtain ⟨hw, rfl⟩ := word_eq h
  have e : decode w none = decodeControl w := decode_control (by omega)
  have f : fld w 23 6 = 0x2C := fld_eq (by omega)
  have ha13 : fin32 w 13 = a := fin32_eq (fld_eq (by omega))
  have z18 : nz w 18 5 = (0x04, false) := nz_ok (fld_eq (by omega))
  have z0 : nz w 0 13 = (0x04, false) := nz_ok (fld_eq (by omega))
  rw [e, decodeControl, f]
  show (accept [nz w 18 5, nz w 0 13] (.twait (fin32 w 13)) : Except Nat Instr) = _
  simp only [ha13, z18, z0, accept_passed, accept_nil]

theorem RoundTrip.sigev (ev : EvOp) : RoundTrip.Statement (.sigev ev) := by
  intro w cw _ h
  obtain ⟨hw, rfl⟩ := word_eq h
  obtain ⟨e, f, h⟩ := event_word hw (by decide)
  rw [e, decodeControl, f]
  exact h true

theorem RoundTrip.waitev (ev : EvOp) : RoundTrip.Statement (.waitev ev) := by
  intro w cw _ h
  obtain ⟨hw, rfl⟩ := word_eq h
  obtain ⟨e, f, h⟩ := event_word hw (by decide)
  rw [e, decodeControl, f]
  exact h false

theorem RoundTrip.phsw (p : Fin 8) : RoundTrip.Statement (.phsw p) := by
  intro w cw _ h
  obtain ⟨hw, rfl⟩ := word_eq h
  have e : decode w none = decodeControl w := decode_control (by omega)
  have f : fld w 23 6 = 0x2F := fld_eq (by omega)
  have hp0 : fin8 w 0 = p := fin8_eq (fld_eq (by omega))
  have z16 : nz w 16 7 = (0x04, false) := nz_ok (fld_eq (by omega))
  have z3 : nz w 3 13 = (0x04, false) := nz_ok (fld_eq (by omega))
  rw [e, decodeControl, f]
  show (accept [nz w 16 7, nz w 3 13] (.phsw (fin8 w 0)) : Except Nat Instr) = _
  simp only [hp0, z16, z3, accept_passed, accept_nil]

theorem RoundTrip.jigRec (j : Fin 4) : RoundTrip.Statement (.jigRec j) := by
  intro w cw _ h
  obtain ⟨hw, rfl⟩ := word_eq h
  obtain ⟨e, f, g, h15, h10, h5, h0, hj, hz⟩ := jig_word hw (by decide) (by decide) (by decide) (by decide) (by omega) (by decide)
  rw [e, decodeControl, f]
  show decodeJig w = _
  rw [decodeJig, g]
  show (accept [(nz w 2 3), nz w 5 15] (.jigRec (fin4 w 0)) : Except Nat Instr) = _
  simp only [fin4_eq (hj j.isLt).1, nz_ok (hj j.isLt).2, nz_ok ((hz rfl rfl).2 rfl), accept_passed,
    accept_nil]

theorem RoundTrip.jigEnd (d : Fin 32) : RoundTrip.Statement (.jigEnd d) := by
  intro w cw _ h
  obtain ⟨hw, rfl⟩ := word_eq h
  obtain ⟨e, f, g, h15, h10, h5, h0, hj, hz⟩ := jig_word hw (by decide) d.isLt (by decide) (by decide) (by decide) (by decide)
  rw [e, decodeControl, f]
  show decodeJig w = _
  rw [decodeJig, g]
  show (accept [(nz w 2 3), nz w 5 10, nz w 0 2] (.jigEnd (fin32 w 15)) : Except Nat Instr) = _
  simp only [fin32_eq h15, nz_ok (hj (by decide)).1, nz_ok (hj (by decide)).2, nz_ok (hz rfl rfl).1,
    accept_passed, accept_nil]

theorem RoundTrip.jigPlay (d : Fin 32) (j : Fin 4) : RoundTrip.Statement (.jigPlay d j) := by
  intro w cw _ h
  obtain ⟨hw, rfl⟩ := word_eq h
  obtain ⟨e, f, g, h15, h10, h5, h0, hj, hz⟩ := jig_word hw (by decide) d.isLt (by decide) (by decide) (by omega) (by decide)
  rw [e, decodeControl, f]
  show decodeJig w = _
  rw [decodeJig, g]
  show (accept [(nz w 2 3), nz w 5 10] (.jigPlay (fin32 w 15) (fin4 w 0)) : Except Nat Instr) = _
  simp only [fin32_eq h15, fin4_eq (hj j.isLt).1, nz_ok (hj j.isLt).2, nz_ok (hz rfl rfl).1, accept_passed,
    accept_nil]

theorem RoundTrip.jigStop (a b : Fin 32) : RoundTrip.Statement (.jigStop a b) := by
  intro w cw _ h
  obtain ⟨hw, rfl⟩ := word_eq h
  obtain ⟨e, f, g, h15, h10, h5, h0, hj, hz⟩ := jig_word hw (by decide) (by decide) a.isLt b.isLt (by decide) (by decide)
  rw [e, decodeControl, f]
  show decodeJig w = _
  rw [decodeJig, g]
  show (accept [(nz w 2 3), nz w 15 5, nz w 0 2] (.jigStop (fin32 w 10) (fin32 w 5)) : Except Nat Instr) = _
  simp only [fin32_eq h10, fin32_eq h5, nz_ok (hj (by decide)).1, nz_ok (hj (by decide)).2, nz_ok h15,
    accept_passed, accept_nil]

theorem RoundTrip.jigDrop (j : Fin 4) : RoundTrip.Statement (.jigDrop j) := by
  intro w cw _ h
  obtain ⟨hw, rfl⟩ := word_eq h
  obtain ⟨e, f, g, h15, h10, h5, h0, hj, hz⟩ := jig_word hw (by decide) (by decide) (by decide) (by decide) (by omega) (by decide)
  rw [e, decodeControl, f]
  show decodeJig w = _
  rw [decodeJig, g]
  show (accept [(nz w 2 3), nz w 5 15] (.jigDrop (fin4 w 0)) : Except Nat Instr) = _
  simp only [fin4_eq (hj j.isLt).1, nz_ok (hj j.isLt).2, nz_ok ((hz rfl rfl).2 rfl), accept_passed,
    accept_nil]

theorem RoundTrip.pqpush (a b : Fin 32) : RoundTrip.Statement (.pqpush a b) := by
  intro w cw _ h
  obtain ⟨hw, rfl⟩ := word_eq h
  obtain ⟨e, f, g, h15, h10, h5, h0, hj, hz⟩ := jig_word hw (by decide) (by decide) a.isLt b.isLt (by decide) (by decide)
  rw [e, decodeControl, f]
  show decodePq w = _
  rw [decodePq, g]
  show (accept [(nz w 0 5), nz w 15 5] (.pqpush (fin32 w 10) (fin32 w 5)) : Except Nat Instr) = _
  simp only [fin32_eq h10, fin32_eq h5, nz_ok h0, nz_ok h15, accept_passed, accept_nil]

theorem RoundTrip.pqpop (d b : Fin 32) : RoundTrip.Statement (.pqpop d b) := by
  intro w cw _ h
  obtain ⟨hw, rfl⟩ := word_eq h
  obtain ⟨e, f, g, h15, h10, h5, h0, hj, hz⟩ := jig_word hw (by decide) d.isLt (by decide) b.isLt (by decide) (by decide)
  rw [e, decodeControl, f]
  show decodePq w = _
  rw [decodePq, g]
  show (accept [(nz w 0 5), nz w 10 5] (.pqpop (fin32 w 15) (fin32 w 5)) : Except Nat Instr) = _
  simp only [fin32_eq h15, fin32_eq h5, nz_ok h0, nz_ok h10, accept_passed, accept_nil]

theorem RoundTrip.pqtop (d b : Fin 32) : RoundTrip.Statement (.pqtop d b) := by
  intro w cw _ h
  obtain ⟨hw, rfl⟩ := word_eq h
  obtain ⟨e, f, g, h15, h10, h5, h0, hj, hz⟩ := jig_word hw (by decide) d.isLt (by decide) b.isLt (by decide) (by decide)
  rw [e, decodeControl, f]
  show decodePq w = _
  rw [decodePq, g]
  show (accept [(nz w 0 5), nz w 10 5] (.pqtop (fin32 w 15) (fin32 w 5)) : Except Nat Instr) = _
  simp only [fin32_eq h15, fin32_eq h5, nz_ok h0, nz_ok h10, accept_passed, accept_nil]

theorem RoundTrip.pqclr : RoundTrip.Statement (.pqclr) := by
  intro w cw _ h
  obtain ⟨hw, rfl⟩ := word_eq h
  obtain ⟨e, f, g, h15, h10, h5, h0, hj, hz⟩ := jig_word hw (by decide) (by decide) (by decide) (by decide) (by decide) (by decide)
  rw [e, decodeControl, f]
  show decodePq w = _
  rw [decodePq, g]
  show (accept [(nz w 0 5), nz w 5 15] .pqclr : Except Nat Instr) = _
  simp only [nz_ok h0, nz_ok ((hz rfl rfl).2 rfl), accept_passed, accept_nil]

theorem RoundTrip.pqcnt (d : Fin 32) : RoundTrip.Statement (.pqcnt d) := by
  intro w cw _ h
  obtain ⟨hw, rfl⟩ := word_eq h
  obtain ⟨e, f, g, h15, h10, h5, h0, hj, hz⟩ := jig_word hw (by decide) d.isLt (by decide) (by decide) (by decide) (by decide)
  rw [e, decodeControl, f]
  show decodePq w = _
  rw [decodePq, g]
  show (accept [(nz w 0 5), nz w 5 10] (.pqcnt (fin32 w 15)) : Except Nat Instr) = _
  simp only [fin32_eq h15, nz_ok h0, nz_ok (hz rfl rfl).1, accept_passed, accept_nil]

theorem RoundTrip.ngo (k : Fin 2) (n : BitVec 12) : RoundTrip.Statement (.ngo k n) := by
  intro w cw hwf h
  obtain ⟨hw, rfl⟩ := word_eq h
  simp only [wellFormed, Bool.and_eq_true, decide_eq_true_eq] at hwf
  have e : decode w none = decodeControl w := decode_control (by omega)
  have f : fld w 23 6 = 0x33 := fld_eq (by omega)
  have hk0 : fin2 w 0 = k := fin2_eq (fld_eq (by omega))
  have hn1 : immf w 1 12 = n := immf_eq (fld_eq (by omega))
  have z13 : nz w 13 10 = (0x04, false) := nz_ok (fld_eq (by omega))
  have hn : fld w 1 12 = n.toNat := fld_eq (by omega)
  have h1 : ¬ (n.toNat = 0 ∨ 64 < n.toNat) := by omega
  rw [e, decodeControl, f]
  show (accept [nz w 13 10, (0x03, decide (fld w 1 12 = 0 ∨ 64 < fld w 1 12))] (.ngo (fin2 w 0) (immf w 1 12))
    : Except Nat Instr) = _
  simp only [hk0, hn1, z13, hn, h1, decide_false, accept_passed, accept_nil]

theorem RoundTrip.nbrk (s : Fin 16) (k : Fin 2) : RoundTrip.Statement (.nbrk s k) := by
  intro w cw hwf h
  obtain ⟨hw, rfl⟩ := word_eq h
  have e : decode w none = decodeControl w := decode_control (by omega)
  have f : fld w 23 6 = 0x34 := fld_eq (by omega)
  have hs19 : fin16 w 19 = s := fin16_eq (fld_eq (by omega))
  have hk0 : fin2 w 0 = k := fin2_eq (fld_eq (by omega))
  have z1 : nz w 1 18 = (0x04, false) := nz_ok (fld_eq (by omega))
  have k19 : badS w 19 = (0x09, false) := badS_ok (s := s) (fld_eq (by omega)) hwf
  rw [e, decodeControl, f]
  show (accept [nz w 1 18, badS w 19] (.nbrk (fin16 w 19) (fin2 w 0)) : Except Nat Instr) = _
  simp only [hs19, hk0, z1, k19, accept_passed, accept_nil]

theorem RoundTrip.waitq (mask : BitVec 5) : RoundTrip.Statement (.waitq mask) := by
  intro w cw _ h
  obtain ⟨hw, rfl⟩ := word_eq h
  have e : decode w none = decodeControl w := decode_control (by omega)
  have f : fld w 23 6 = 0x35 := fld_eq (by omega)
  have hmask0 : immf w 0 5 = mask := immf_eq (fld_eq (by omega))
  have z16 : nz w 16 7 = (0x04, false) := nz_ok (fld_eq (by omega))
  have z5 : nz w 5 11 = (0x04, false) := nz_ok (fld_eq (by omega))
  rw [e, decodeControl, f]
  show (accept [nz w 16 7, nz w 5 11] (.waitq (immf w 0 5)) : Except Nat Instr) = _
  simp only [hmask0, z16, z5, accept_passed, accept_nil]

theorem RoundTrip.trap (imm : BitVec 16) : RoundTrip.Statement (.trap imm) := by
  intro w cw _ h
  obtain ⟨hw, rfl⟩ := word_eq h
  have e : decode w none = decodeControl w := decode_control (by omega)
  have f : fld w 23 6 = 0x36 := fld_eq (by omega)
  have himm0 : immf w 0 16 = imm := immf_eq (fld_eq (by omega))
  have z16 : nz w 16 7 = (0x04, false) := nz_ok (fld_eq (by omega))
  rw [e, decodeControl, f]
  show (accept [nz w 16 7] (.trap (immf w 0 16)) : Except Nat Instr) = _
  simp only [himm0, z16, accept_passed, accept_nil]

theorem RoundTrip.rft : RoundTrip.Statement (.rft) := by
  intro w cw _ h
  obtain ⟨hw, rfl⟩ := word_eq h
  have e : decode w none = decodeControl w := decode_control (by omega)
  have f : fld w 23 6 = 0x37 := fld_eq (by omega)
  have z0 : nz w 0 23 = (0x04, false) := nz_ok (fld_eq (by omega))
  rw [e, decodeControl, f]
  show (accept [nz w 0 23] .rft : Except Nat Instr) = _
  simp only [z0, accept_passed, accept_nil]

theorem RoundTrip.retire : RoundTrip.Statement (.retire) := by
  intro w cw _ h
  obtain ⟨hw, rfl⟩ := word_eq h
  have e : decode w none = decodeControl w := decode_control (by omega)
  have f : fld w 23 6 = 0x38 := fld_eq (by omega)
  have z0 : nz w 0 23 = (0x04, false) := nz_ok (fld_eq (by omega))
  rw [e, decodeControl, f]
  show (accept [nz w 0 23] .retire : Except Nat Instr) = _
  simp only [z0, accept_passed, accept_nil]

theorem RoundTrip.nop (x : BitVec 23) : RoundTrip.Statement (.nop x) := by
  intro w cw _ h
  obtain ⟨hw, rfl⟩ := word_eq h
  have e : decode w none = decodeControl w := decode_control (by omega)
  have f : fld w 23 6 = 0x39 := fld_eq (by omega)
  have hx0 : immf w 0 23 = x := immf_eq (fld_eq (by omega))
  rw [e, decodeControl, f]
  show (.ok (.nop (immf w 0 23)) : Except Nat Instr) = _
  simp only [hx0]

theorem RoundTrip.brk : RoundTrip.Statement (.brk) := by
  intro w cw _ h
  obtain ⟨hw, rfl⟩ := word_eq h
  have e : decode w none = decodeControl w := decode_control (by omega)
  have f : fld w 23 6 = 0x3A := fld_eq (by omega)
  have z0 : nz w 0 23 = (0x04, false) := nz_ok (fld_eq (by omega))
  rw [e, decodeControl, f]
  show (accept [nz w 0 23] .brk : Except Nat Instr) = _
  simp only [z0, accept_passed, accept_nil]

theorem RoundTrip.ldt (t : Tok) (d : Fin 16) (st : Fin 16) (z tr : Bool) : RoundTrip.Statement (.ldt t d st z tr) := by
  intro w cw _ h
  obtain ⟨hw, rfl⟩ := word_eq h
  have lz := b2n_lt z
  have ltr := b2n_lt tr
  obtain ⟨he, ho, ht, hr⟩ := eng_word (r := d.val * 32768 + st.val * 2048 + b2n z * 1024 + b2n tr * 512) (e := 1) (op := 0) (t := t) (w := w)
    (by omega) (by omega) (by decide) (by decide)
  have hd15 : fin16 w 15 = d := fin16_eq (fld_eq (by omega))
  have hst11 : fin16 w 11 = st := fin16_eq (fld_eq (by omega))
  have hz10 : bit w 10 = z := bit_eq (fld_eq (by omega))
  have htr9 : bit w 9 = tr := bit_eq (fld_eq (by omega))
  have z0 : nz w 0 9 = (0x04, false) := nz_ok (fld_eq (by omega))
  rw [decode_load he, decodeLoad, ho]
  show (accept [nz w 0 9] (.ldt (tokOf w) (fin16 w 15) (fin16 w 11) (bit w 10) (bit w 9)) : Except Nat Instr)
    = _
  simp only [ht, hd15, hst11, hz10, htr9, z0, accept_passed, accept_nil]

theorem RoundTrip.ldq (t : Tok) (q : Fin 4) (st : Fin 16) : RoundTrip.Statement (.ldq t q st) := by
  intro w cw _ h
  obtain ⟨hw, rfl⟩ := word_eq h
  obtain ⟨he, ho, ht, hr⟩ := eng_word (r := q.val * 131072 + st.val * 2048) (e := 1) (op := 1) (t := t) (w := w)
    (by omega) (by omega) (by decide) (by decide)
  have hq17 : fin4 w 17 = q := fin4_eq (fld_eq (by omega))
  have hst11 : fin16 w 11 = st := fin16_eq (fld_eq (by omega))
  have z15 : nz w 15 2 = (0x04, false) := nz_ok (fld_eq (by omega))
  have z0 : nz w 0 11 = (0x04, false) := nz_ok (fld_eq (by omega))
  rw [decode_load he, decodeLoad, ho]
  show (accept [nz w 15 2, nz w 0 11] (.ldq (tokOf w) (fin4 w 17) (fin16 w 11)) : Except Nat Instr) = _
  simp only [ht, hq17, hst11, z15, z0, accept_passed, accept_nil]

theorem RoundTrip.ldsc (t : Tok) (target : Bool) (st : Fin 16) : RoundTrip.Statement (.ldsc t target st) := by
  intro w cw _ h
  obtain ⟨hw, rfl⟩ := word_eq h
  have ltarget := b2n_lt target
  obtain ⟨he, ho, ht, hr⟩ := eng_word (r := b2n target * 262144 + st.val * 2048) (e := 1) (op := 2) (t := t) (w := w)
    (by omega) (by omega) (by decide) (by decide)
  have htarget18 : bit w 18 = target := bit_eq (fld_eq (by omega))
  have hst11 : fin16 w 11 = st := fin16_eq (fld_eq (by omega))
  have z15 : nz w 15 3 = (0x04, false) := nz_ok (fld_eq (by omega))
  have z0 : nz w 0 11 = (0x04, false) := nz_ok (fld_eq (by omega))
  rw [decode_load he, decodeLoad, ho]
  show (accept [nz w 15 3, nz w 0 11] (.ldsc (tokOf w) (bit w 18) (fin16 w 11)) : Except Nat Instr) = _
  simp only [ht, htarget18, hst11, z15, z0, accept_passed, accept_nil]

theorem RoundTrip.ldx (t : Tok) (d : LDest) (st : Fin 16) (rq : Fin 2) (rows : BitVec 9) : RoundTrip.Statement (.ldx t d st rq rows) := by
  intro w cw hwf h
  obtain ⟨hw, rfl⟩ := word_eq h
  simp only [wellFormed, Bool.and_eq_true, decide_eq_true_eq] at hwf
  have ld := ldestNum_lt d
  obtain ⟨he, ho, ht, hr⟩ := eng_word (r := ldestNum d * 16384 + st.val * 1024 + rq.val * 512 + rows.toNat) (e := 1) (op := 3) (t := t) (w := w)
    (by omega) (by omega) (by decide) (by decide)
  have hd := ldest_back (w := w) (d := d) (fld_eq (by omega))
  have hst10 : fin16 w 10 = st := fin16_eq (fld_eq (by omega))
  have hrq9 : fin2 w 9 = rq := fin2_eq (fld_eq (by omega))
  have hrows0 : immf w 0 9 = rows := immf_eq (fld_eq (by omega))
  have hn : fld w 0 9 = rows.toNat := fld_eq (by omega)
  have h1 : ¬ (rows.toNat = 0 ∨ 64 < rows.toNat) := by omega
  rw [decode_load he, decodeLoad, ho]
  show (accept [badDest w, (0x03, decide (fld w 0 9 = 0 ∨ 64 < fld w 0 9))] (.ldx (tokOf w) (ldestOf w) (fin16
    w 10) (fin2 w 9) (immf w 0 9)) : Except Nat Instr) = _
  simp only [ht, hd, hst10, hrq9, hrows0, hn, h1, decide_false, accept_passed, accept_nil]

theorem RoundTrip.lgath (t : Tok) (d : LDest) (st : Fin 16) (q : Fin 4) : RoundTrip.Statement (.lgath t d st q) := by
  intro w cw _ h
  obtain ⟨hw, rfl⟩ := word_eq h
  have ld := ldestNum_lt d
  obtain ⟨he, ho, ht, hr⟩ := eng_word (r := ldestNum d * 16384 + st.val * 1024 + q.val * 256) (e := 1) (op := 4) (t := t) (w := w)
    (by omega) (by omega) (by decide) (by decide)
  have hd := ldest_back (w := w) (d := d) (fld_eq (by omega))
  have hst10 : fin16 w 10 = st := fin16_eq (fld_eq (by omega))
  have hq8 : fin4 w 8 = q := fin4_eq (fld_eq (by omega))
  have z0 : nz w 0 8 = (0x04, false) := nz_ok (fld_eq (by omega))
  rw [decode_load he, decodeLoad, ho]
  show (accept [badDest w, nz w 0 8] (.lgath (tokOf w) (ldestOf w) (fin16 w 10) (fin4 w 8)) : Except Nat
    Instr) = _
  simp only [ht, hd, hst10, hq8, z0, accept_passed, accept_nil]

theorem RoundTrip.lland (t : Tok) (d : LDest) (slot : Fin 64) : RoundTrip.Statement (.lland t d slot) := by
  intro w cw _ h
  obtain ⟨hw, rfl⟩ := word_eq h
  have ld := ldestNum_lt d
  obtain ⟨he, ho, ht, hr⟩ := eng_word (r := ldestNum d * 16384 + slot.val * 16) (e := 1) (op := 5) (t := t) (w := w)
    (by omega) (by omega) (by decide) (by decide)
  have hd := ldest_back (w := w) (d := d) (fld_eq (by omega))
  have hslot4 : fin64 w 4 = slot := fin64_eq (fld_eq (by omega))
  have z10 : nz w 10 4 = (0x04, false) := nz_ok (fld_eq (by omega))
  have z0 : nz w 0 4 = (0x04, false) := nz_ok (fld_eq (by omega))
  rw [decode_load he, decodeLoad, ho]
  show (accept [badDest w, nz w 10 4, nz w 0 4] (.lland (tokOf w) (ldestOf w) (fin64 w 4)) : Except Nat Instr)
    = _
  simp only [ht, hd, hslot4, z10, z0, accept_passed, accept_nil]

theorem RoundTrip.ladv (t : Tok) (st : Fin 16) (level : Fin 8) : RoundTrip.Statement (.ladv t st level) := by
  intro w cw hwf h
  obtain ⟨hw, rfl⟩ := word_eq h
  simp only [wellFormed, decide_eq_true_eq] at hwf
  obtain ⟨he, ho, ht, hr⟩ := eng_word (r := st.val * 2048 + level.val) (e := 1) (op := 6) (t := t) (w := w)
    (by omega) (by omega) (by decide) (by decide)
  have hst11 : fin16 w 11 = st := fin16_eq (fld_eq (by omega))
  have hlevel0 : fin8 w 0 = level := fin8_eq (fld_eq (by omega))
  have z15 : nz w 15 4 = (0x04, false) := nz_ok (fld_eq (by omega))
  have z3 : nz w 3 8 = (0x04, false) := nz_ok (fld_eq (by omega))
  have hl : fld w 0 3 = level.val := fld_eq (by omega)
  have h1 : ¬ 6 ≤ level.val := by omega
  rw [decode_load he, decodeLoad, ho]
  show (accept [nz w 15 4, nz w 3 8, (0x03, decide (6 ≤ fld w 0 3))] (.ladv (tokOf w) (fin16 w 11) (fin8 w 0))
    : Except Nat Instr) = _
  simp only [ht, hst11, hlevel0, z15, z3, hl, h1, decide_false, accept_passed, accept_nil]

theorem RoundTrip.lnop (t : Tok) : RoundTrip.Statement (.lnop t) := by
  intro w cw _ h
  obtain ⟨hw, rfl⟩ := word_eq h
  obtain ⟨he, ho, ht, hr⟩ := eng_word (r := 0) (e := 1) (op := 7) (t := t) (w := w)
    (by omega) (by omega) (by decide) (by decide)
  have z0 : nz w 0 19 = (0x04, false) := nz_ok (fld_eq (by omega))
  rw [decode_load he, decodeLoad, ho]
  show (accept [nz w 0 19] (.lnop (tokOf w)) : Except Nat Instr) = _
  simp only [ht, z0, accept_passed, accept_nil]

theorem RoundTrip.mma (t : Tok) (o : MmaOps) (c : MmaCont) : RoundTrip.Statement (.mma t o c) := by
  intro w cw hwf h
  obtain ⟨hw, rfl⟩ := word_eq h
  simp only [wellFormed, Bool.and_eq_true] at hwf
  obtain ⟨hc, hk, htb, hacc⟩ := mmaCont_back hwf.1
  generalize encMmaCont c = cc at *
  obtain ⟨a, ta, b, sa, sb, z, ck⟩ := o
  have l1 := bsrcNum_lt b
  have l2 := b2n_lt sa
  have l3 := bscaleNum_lt sb
  have l4 := b2n_lt z
  have l5 := b2n_lt ck
  simp only at hw
  obtain ⟨he, ho, ht, hr⟩ := eng_word (r := a.val * 131072 + ta.val * 8192 + bsrcNum b * 256 + b2n sa * 64
    + bscaleNum sb * 16 + b2n z * 8 + b2n ck * 4) (e := 2) (op := 0) (t := t) (w := w)
    (by omega) (by omega) (by decide) (by decide)
  have ha : fin4 w 17 = a := fin4_eq (fld_eq (by omega))
  have hta : fin16 w 13 = ta := fin16_eq (fld_eq (by omega))
  have hb : fld w 8 5 = bsrcNum b := fld_eq (by omega)
  have hsa : bit w 6 = sa := bit_eq (fld_eq (by omega))
  have hsa' : fld w 6 2 = b2n sa := fld_eq (by omega)
  have hsb : fld w 4 2 = bscaleNum sb := fld_eq (by omega)
  have hz : bit w 3 = z := bit_eq (fld_eq (by omega))
  have hck : bit w 2 = ck := bit_eq (fld_eq (by omega))
  have z0 : nz w 0 2 = (0x04, false) := nz_ok (fld_eq (by omega))
  have e1 : ¬ 17 ≤ bsrcNum b := by omega
  have e2 : ¬ 2 ≤ b2n sa := by omega
  have e3 : ¬ bscaleNum sb = 3 := by omega
  rw [decode_matrix_long he ho (by decide) hc, decodeMatrix, ho]
  show accept (mmaChecks w cc ++ mmaContChecks cc) (.mma (tokOf w) (mmaOpsOf w) (mmaContOf cc)) = _
  simp only [ht, hacc, hk, mmaOpsOf, ha, hta, hsa, hz, hck, bsrcOf, bscaleOf, mmaChecks, z0, hb,
    hsa', hsb, htb, e1, e2, e3, decide_false, accept_passed]
  have hops := hwf.2
  cases b with
  | tile k =>
    have h8 : fin16 w 8 = k := fin16_eq (fld_eq (by simp only [bsrcNum] at hr; omega))
    have k16 := k.isLt
    have n17 : ¬ k.val = 16 := by omega
    cases sb with
    | scf => simp [mmaOpsOk] at hops
    | _ => simp [bsrcNum, bscaleNum, h8, k16, n17]
  | wsf =>
    simp only [mmaOpsOk] at hops
    cases sb with
    | bf => simp at hops
    | _ => simp_all [bsrcNum, bscaleNum, b2n]

theorem RoundTrip.mrun (t : Tok) (k : Fin 2) (c : MmaCont) : RoundTrip.Statement (.mrun t k c) := by
  intro w cw hwf h
  obtain ⟨hw, rfl⟩ := word_eq h
  obtain ⟨hc, hk, -, hacc⟩ := mmaCont_back (k := c) hwf
  obtain ⟨he, ho, ht, hr⟩ := eng_word (r := k.val * 262144) (e := 2) (op := 1) (t := t) (w := w)
    (by omega) (by omega) (by decide) (by decide)
  generalize encMmaCont c = cc at *
  have hk2 : fin2 w 18 = k := fin2_eq (fld_eq (by omega))
  have z0 : nz w 0 18 = (0x04, false) := nz_ok (fld_eq (by omega))
  have ha := fun i => hacc i []
  simp only [List.nil_append] at ha
  rw [decode_matrix_long he ho (by decide) hc, decodeMatrix, ho]
  show accept (nz w 0 18 :: mmaContChecks cc) (.mrun (tokOf w) (fin2 w 18) (mmaContOf cc)) = _
  rw [ht, hk, hk2, z0, accept_passed, ha]
  rfl

theorem RoundTrip.mdrain (t : Tok) (a : Fin 4) (d : DrainDest) (slot : Fin 8) (ac : Bool) : RoundTrip.Statement (.mdrain t a d slot ac) := by
  intro w cw _ h
  obtain ⟨hw, rfl⟩ := word_eq h
  have lac := b2n_lt ac
  have ld := drainNum_lt d
  obtain ⟨he, ho, ht, hr⟩ := eng_word (r := a.val * 131072 + drainNum d * 4096 + slot.val * 512 + b2n ac * 256) (e := 2) (op := 2) (t := t) (w := w)
    (by omega) (by omega) (by decide) (by decide)
  have ha17 : fin4 w 17 = a := fin4_eq (fld_eq (by omega))
  have hslot9 : fin8 w 9 = slot := fin8_eq (fld_eq (by omega))
  have hac8 : bit w 8 = ac := bit_eq (fld_eq (by omega))
  have z0 : nz w 0 8 = (0x04, false) := nz_ok (fld_eq (by omega))
  have hd := drain_back (w := w) (d := d) (fld_eq (by omega))
  rw [decode_matrix he ho (by decide), decodeMatrix, ho]
  show (accept [nz w 0 8, (0x03, decide (fld w 12 5 < 24 ∨ fld w 12 5 = 29 ∨ fld w 12 5 = 30))] (.mdrain
    (tokOf w) (fin4 w 17) (drainDestOf w) (fin8 w 9) (bit w 8)) : Except Nat Instr) = _
  simp only [ht, ha17, hslot9, hac8, z0, hd, decide_false, accept_passed, accept_nil]

theorem RoundTrip.azero (t : Tok) (a : Fin 4) : RoundTrip.Statement (.azero t a) := by
  intro w cw _ h
  obtain ⟨hw, rfl⟩ := word_eq h
  obtain ⟨he, ho, ht, hr⟩ := eng_word (r := a.val * 131072) (e := 2) (op := 3) (t := t) (w := w)
    (by omega) (by omega) (by decide) (by decide)
  have ha17 : fin4 w 17 = a := fin4_eq (fld_eq (by omega))
  have z0 : nz w 0 17 = (0x04, false) := nz_ok (fld_eq (by omega))
  rw [decode_matrix he ho (by decide), decodeMatrix, ho]
  show (accept [nz w 0 17] (.azero (tokOf w) (fin4 w 17)) : Except Nat Instr) = _
  simp only [ht, ha17, z0, accept_passed, accept_nil]

theorem RoundTrip.aread (t : Tok) (a : Fin 4) (row : Fin 64) (q : Fin 4) : RoundTrip.Statement (.aread t a row q) := by
  intro w cw _ h
  obtain ⟨hw, rfl⟩ := word_eq h
  obtain ⟨he, ho, ht, hr⟩ := eng_word (r := a.val * 131072 + row.val * 2048 + q.val * 512) (e := 2) (op := 4) (t := t) (w := w)
    (by omega) (by omega) (by decide) (by decide)
  have ha17 : fin4 w 17 = a := fin4_eq (fld_eq (by omega))
  have hrow11 : fin64 w 11 = row := fin64_eq (fld_eq (by omega))
  have hq9 : fin4 w 9 = q := fin4_eq (fld_eq (by omega))
  have z0 : nz w 0 9 = (0x04, false) := nz_ok (fld_eq (by omega))
  rw [decode_matrix he ho (by decide), decodeMatrix, ho]
  show (accept [nz w 0 9] (.aread (tokOf w) (fin4 w 17) (fin64 w 11) (fin4 w 9)) : Except Nat Instr) = _
  simp only [ht, ha17, hrow11, hq9, z0, accept_passed, accept_nil]

theorem RoundTrip.apatch (t : Tok) (a : Fin 4) (row : Fin 64) (mode : PatchMode) : RoundTrip.Statement (.apatch t a row mode) := by
  intro w cw _ h
  obtain ⟨hw, rfl⟩ := word_eq h
  have key : ∀ m, eword 2 5 t + a.val * 131072 + row.val * 2048 + m * 512 = w → m < 3 →
      decode w none = decodeMatrix w 0 ∧ fld w 19 6 = 5 ∧ tokOf w = t ∧ fin4 w 17 = a ∧ fin64 w 11 = row ∧
      nz w 0 9 = (0x04, false) ∧ fld w 9 2 = m := by
    intro m hm h3
    obtain ⟨he, ho, ht, hr⟩ := eng_word (r := a.val * 131072 + row.val * 2048 + m * 512) (w := w)
      (by rw [← hm, Nat.add_assoc, Nat.add_assoc, Nat.add_assoc]) (by omega) (by decide) (by decide)
    exact ⟨decode_matrix he ho (by decide), ho, ht, fin4_eq (fld_eq (by omega)), fin64_eq (fld_eq (by omega)),
      nz_ok (fld_eq (by omega)), fld_eq (by omega)⟩
  cases mode with
  | set =>
    obtain ⟨e, ho, ht, ha, hrow, z, hm⟩ := key 0 hw (by decide)
    rw [e, decodeMatrix, ho]
    simp [ht, ha, hrow, z, hm]
  | add =>
    obtain ⟨e, ho, ht, ha, hrow, z, hm⟩ := key 1 hw (by decide)
    rw [e, decodeMatrix, ho]
    simp [ht, ha, hrow, z, hm]
  | mset =>
    obtain ⟨e, ho, ht, ha, hrow, z, hm⟩ := key 2 hw (by decide)
    rw [e, decodeMatrix, ho]
    simp [ht, ha, hrow, z, hm]

theorem RoundTrip.epset (t : Tok) (slot : Fin 8) (st : Fin 16) : RoundTrip.Statement (.epset t slot st) := by
  intro w cw _ h
  obtain ⟨hw, rfl⟩ := word_eq h
  obtain ⟨he, ho, ht, hr⟩ := eng_word (r := slot.val * 65536 + st.val * 2048) (e := 2) (op := 6) (t := t) (w := w)
    (by omega) (by omega) (by decide) (by decide)
  have hslot16 : fin8 w 16 = slot := fin8_eq (fld_eq (by omega))
  have hst11 : fin16 w 11 = st := fin16_eq (fld_eq (by omega))
  have z15 : nz w 15 1 = (0x04, false) := nz_ok (fld_eq (by omega))
  have z0 : nz w 0 11 = (0x04, false) := nz_ok (fld_eq (by omega))
  rw [decode_matrix he ho (by decide), decodeMatrix, ho]
  show (accept [nz w 15 1, nz w 0 11] (.epset (tokOf w) (fin8 w 16) (fin16 w 11)) : Except Nat Instr) = _
  simp only [ht, hslot16, hst11, z15, z0, accept_passed, accept_nil]

theorem RoundTrip.epcon (t : Tok) (bank : Fin 8) (st : Fin 16) : RoundTrip.Statement (.epcon t bank st) := by
  intro w cw _ h
  obtain ⟨hw, rfl⟩ := word_eq h
  obtain ⟨he, ho, ht, hr⟩ := eng_word (r := bank.val * 65536 + st.val * 2048) (e := 2) (op := 7) (t := t) (w := w)
    (by omega) (by omega) (by decide) (by decide)
  have hbank16 : fin8 w 16 = bank := fin8_eq (fld_eq (by omega))
  have hst11 : fin16 w 11 = st := fin16_eq (fld_eq (by omega))
  have z15 : nz w 15 1 = (0x04, false) := nz_ok (fld_eq (by omega))
  have z0 : nz w 0 11 = (0x04, false) := nz_ok (fld_eq (by omega))
  rw [decode_matrix he ho (by decide), decodeMatrix, ho]
  show (accept [nz w 15 1, nz w 0 11] (.epcon (tokOf w) (fin8 w 16) (fin16 w 11)) : Except Nat Instr) = _
  simp only [ht, hbank16, hst11, z15, z0, accept_passed, accept_nil]

theorem RoundTrip.heaprd (t : Tok) (q : Fin 4) (part : Bool) : RoundTrip.Statement (.heaprd t q part) := by
  intro w cw _ h
  obtain ⟨hw, rfl⟩ := word_eq h
  have lpart := b2n_lt part
  obtain ⟨he, ho, ht, hr⟩ := eng_word (r := q.val * 131072 + b2n part * 65536) (e := 2) (op := 8) (t := t) (w := w)
    (by omega) (by omega) (by decide) (by decide)
  have hq17 : fin4 w 17 = q := fin4_eq (fld_eq (by omega))
  have hpart16 : bit w 16 = part := bit_eq (fld_eq (by omega))
  have z0 : nz w 0 16 = (0x04, false) := nz_ok (fld_eq (by omega))
  rw [decode_matrix he ho (by decide), decodeMatrix, ho]
  show (accept [nz w 0 16] (.heaprd (tokOf w) (fin4 w 17) (bit w 16)) : Except Nat Instr) = _
  simp only [ht, hq17, hpart16, z0, accept_passed, accept_nil]

theorem RoundTrip.heapclr (t : Tok) (k : Fin 64) : RoundTrip.Statement (.heapclr t k) := by
  intro w cw _ h
  obtain ⟨hw, rfl⟩ := word_eq h
  obtain ⟨he, ho, ht, hr⟩ := eng_word (r := k.val * 8192) (e := 2) (op := 9) (t := t) (w := w)
    (by omega) (by omega) (by decide) (by decide)
  have hk13 : fin64 w 13 = k := fin64_eq (fld_eq (by omega))
  have z0 : nz w 0 13 = (0x04, false) := nz_ok (fld_eq (by omega))
  rw [decode_matrix he ho (by decide), decodeMatrix, ho]
  show (accept [nz w 0 13] (.heapclr (tokOf w) (fin64 w 13)) : Except Nat Instr) = _
  simp only [ht, hk13, z0, accept_passed, accept_nil]

theorem RoundTrip.mchk (t : Tok) (q : Fin 4) : RoundTrip.Statement (.mchk t q) := by
  intro w cw _ h
  obtain ⟨hw, rfl⟩ := word_eq h
  obtain ⟨he, ho, ht, hr⟩ := eng_word (r := q.val * 131072) (e := 2) (op := 10) (t := t) (w := w)
    (by omega) (by omega) (by decide) (by decide)
  have hq17 : fin4 w 17 = q := fin4_eq (fld_eq (by omega))
  have z0 : nz w 0 17 = (0x04, false) := nz_ok (fld_eq (by omega))
  rw [decode_matrix he ho (by decide), decodeMatrix, ho]
  show (accept [nz w 0 17] (.mchk (tokOf w) (fin4 w 17)) : Except Nat Instr) = _
  simp only [ht, hq17, z0, accept_passed, accept_nil]

theorem RoundTrip.mnop (t : Tok) : RoundTrip.Statement (.mnop t) := by
  intro w cw _ h
  obtain ⟨hw, rfl⟩ := word_eq h
  obtain ⟨he, ho, ht, hr⟩ := eng_word (r := 0) (e := 2) (op := 11) (t := t) (w := w)
    (by omega) (by omega) (by decide) (by decide)
  have z0 : nz w 0 19 = (0x04, false) := nz_ok (fld_eq (by omega))
  rw [decode_matrix he ho (by decide), decodeMatrix, ho]
  show (accept [nz w 0 19] (.mnop (tokOf w)) : Except Nat Instr) = _
  simp only [ht, z0, accept_passed, accept_nil]

theorem RoundTrip.sdopen (st : Fin 16) : RoundTrip.Statement (.sdopen st) := by
  intro w cw _ h
  obtain ⟨hw, rfl⟩ := word_eq h
  have he : fld w 29 3 = 5 := fld_eq (by omega)
  have ho : fld w 19 6 = 0 := fld_eq (by omega)
  have hk : fld w 25 4 = 0 := fld_eq (by omega)
  have hst11 : fin16 w 11 = st := fin16_eq (fld_eq (by omega))
  have z15 : nz w 15 4 = (0x04, false) := nz_ok (fld_eq (by omega))
  have z0 : nz w 0 11 = (0x04, false) := nz_ok (fld_eq (by omega))
  rw [decode_stream he, decodeStream, ho]
  simp [hk, hst11, z15, z0]

theorem RoundTrip.sdrun (n : BitVec 12) : RoundTrip.Statement (.sdrun n) := by
  intro w cw hwf h
  obtain ⟨hw, rfl⟩ := word_eq h
  simp only [wellFormed, decide_eq_true_eq] at hwf
  have he : fld w 29 3 = 5 := fld_eq (by omega)
  have ho : fld w 19 6 = 1 := fld_eq (by omega)
  have hk : fld w 25 4 = 0 := fld_eq (by omega)
  have hn0 : immf w 0 12 = n := immf_eq (fld_eq (by omega))
  have z12 : nz w 12 7 = (0x04, false) := nz_ok (fld_eq (by omega))
  have hn : fld w 0 12 = n.toNat := fld_eq (by omega)
  have h1 : ¬ n.toNat = 0 := by omega
  rw [decode_stream he, decodeStream, ho]
  simp [hk, hn0, z12, hn, h1]

theorem RoundTrip.sdclose : RoundTrip.Statement (.sdclose) := by
  intro w cw _ h
  obtain ⟨hw, rfl⟩ := word_eq h
  have he : fld w 29 3 = 5 := fld_eq (by omega)
  have ho : fld w 19 6 = 2 := fld_eq (by omega)
  have hk : fld w 25 4 = 0 := fld_eq (by omega)
  have z0 : nz w 0 19 = (0x04, false) := nz_ok (fld_eq (by omega))
  rw [decode_stream he, decodeStream, ho]
  simp [hk, z0]

theorem RoundTrip.sdstat : RoundTrip.Statement (.sdstat) := by
  intro w cw _ h
  obtain ⟨hw, rfl⟩ := word_eq h
  have he : fld w 29 3 = 5 := fld_eq (by omega)
  have ho : fld w 19 6 = 3 := fld_eq (by omega)
  have hk : fld w 25 4 = 0 := fld_eq (by omega)
  have z0 : nz w 0 19 = (0x04, false) := nz_ok (fld_eq (by omega))
  rw [decode_stream he, decodeStream, ho]
  simp [hk, z0]

theorem RoundTrip.vadd (t : Tok) (d : VDst) (a b : VSrc) (p : Fin 16) : RoundTrip.Statement (.vadd t d a b p) := by
  intro w cw _ h
  obtain ⟨hw, rfl⟩ := word_eq h
  obtain ⟨e, f, h⟩ := vr3_word hw (by decide)
  rw [e, decodeVector, f]
  exact h _

theorem RoundTrip.vsub (t : Tok) (d : VDst) (a b : VSrc) (p : Fin 16) : RoundTrip.Statement (.vsub t d a b p) := by
  intro w cw _ h
  obtain ⟨hw, rfl⟩ := word_eq h
  obtain ⟨e, f, h⟩ := vr3_word hw (by decide)
  rw [e, decodeVector, f]
  exact h _

theorem RoundTrip.vmul (t : Tok) (d : VDst) (a b : VSrc) (p : Fin 16) : RoundTrip.Statement (.vmul t d a b p) := by
  intro w cw _ h
  obtain ⟨hw, rfl⟩ := word_eq h
  obtain ⟨e, f, h⟩ := vr3_word hw (by decide)
  rw [e, decodeVector, f]
  exact h _

theorem RoundTrip.vfma (t : Tok) (d : VDst) (a b : VSrc) (p : Fin 16) : RoundTrip.Statement (.vfma t d a b p) := by
  intro w cw _ h
  obtain ⟨hw, rfl⟩ := word_eq h
  obtain ⟨e, f, h⟩ := vr3_word hw (by decide)
  rw [e, decodeVector, f]
  exact h _

theorem RoundTrip.vmin (t : Tok) (d : VDst) (a b : VSrc) (p : Fin 16) : RoundTrip.Statement (.vmin t d a b p) := by
  intro w cw _ h
  obtain ⟨hw, rfl⟩ := word_eq h
  obtain ⟨e, f, h⟩ := vr3_word hw (by decide)
  rw [e, decodeVector, f]
  exact h _

theorem RoundTrip.vmax (t : Tok) (d : VDst) (a b : VSrc) (p : Fin 16) : RoundTrip.Statement (.vmax t d a b p) := by
  intro w cw _ h
  obtain ⟨hw, rfl⟩ := word_eq h
  obtain ⟨e, f, h⟩ := vr3_word hw (by decide)
  rw [e, decodeVector, f]
  exact h _

theorem RoundTrip.vabs (t : Tok) (d : VDst) (a : VSrc) (p : Fin 16) : RoundTrip.Statement (.vabs t d a p) := by
  intro w cw _ h
  obtain ⟨hw, rfl⟩ := word_eq h
  obtain ⟨e, f, h⟩ := vr2_word hw (by decide)
  rw [e, decodeVector, f]
  exact h _

theorem RoundTrip.vneg (t : Tok) (d : VDst) (a : VSrc) (p : Fin 16) : RoundTrip.Statement (.vneg t d a p) := by
  intro w cw _ h
  obtain ⟨hw, rfl⟩ := word_eq h
  obtain ⟨e, f, h⟩ := vr2_word hw (by decide)
  rw [e, decodeVector, f]
  exact h _

theorem RoundTrip.vrcp (t : Tok) (d : VDst) (a : VSrc) (p : Fin 16) : RoundTrip.Statement (.vrcp t d a p) := by
  intro w cw _ h
  obtain ⟨hw, rfl⟩ := word_eq h
  obtain ⟨e, f, h⟩ := vr2_word hw (by decide)
  rw [e, decodeVector, f]
  exact h _

theorem RoundTrip.vrsq (t : Tok) (d : VDst) (a : VSrc) (p : Fin 16) : RoundTrip.Statement (.vrsq t d a p) := by
  intro w cw _ h
  obtain ⟨hw, rfl⟩ := word_eq h
  obtain ⟨e, f, h⟩ := vr2_word hw (by decide)
  rw [e, decodeVector, f]
  exact h _

theorem RoundTrip.vexp2 (t : Tok) (d : VDst) (a : VSrc) (p : Fin 16) : RoundTrip.Statement (.vexp2 t d a p) := by
  intro w cw _ h
  obtain ⟨hw, rfl⟩ := word_eq h
  obtain ⟨e, f, h⟩ := vr2_word hw (by decide)
  rw [e, decodeVector, f]
  exact h _

theorem RoundTrip.vlog2 (t : Tok) (d : VDst) (a : VSrc) (p : Fin 16) : RoundTrip.Statement (.vlog2 t d a p) := by
  intro w cw _ h
  obtain ⟨hw, rfl⟩ := word_eq h
  obtain ⟨e, f, h⟩ := vr2_word hw (by decide)
  rw [e, decodeVector, f]
  exact h _

theorem RoundTrip.viadd (t : Tok) (d : VDst) (a b : VSrc) (p : Fin 16) : RoundTrip.Statement (.viadd t d a b p) := by
  intro w cw _ h
  obtain ⟨hw, rfl⟩ := word_eq h
  obtain ⟨e, f, h⟩ := vr3_word hw (by decide)
  rw [e, decodeVector, f]
  exact h _

theorem RoundTrip.visub (t : Tok) (d : VDst) (a b : VSrc) (p : Fin 16) : RoundTrip.Statement (.visub t d a b p) := by
  intro w cw _ h
  obtain ⟨hw, rfl⟩ := word_eq h
  obtain ⟨e, f, h⟩ := vr3_word hw (by decide)
  rw [e, decodeVector, f]
  exact h _

theorem RoundTrip.vimul (t : Tok) (d : VDst) (a b : VSrc) (p : Fin 16) : RoundTrip.Statement (.vimul t d a b p) := by
  intro w cw _ h
  obtain ⟨hw, rfl⟩ := word_eq h
  obtain ⟨e, f, h⟩ := vr3_word hw (by decide)
  rw [e, decodeVector, f]
  exact h _

theorem RoundTrip.vimin (t : Tok) (d : VDst) (a b : VSrc) (p : Fin 16) : RoundTrip.Statement (.vimin t d a b p) := by
  intro w cw _ h
  obtain ⟨hw, rfl⟩ := word_eq h
  obtain ⟨e, f, h⟩ := vr3_word hw (by decide)
  rw [e, decodeVector, f]
  exact h _

theorem RoundTrip.vimax (t : Tok) (d : VDst) (a b : VSrc) (p : Fin 16) : RoundTrip.Statement (.vimax t d a b p) := by
  intro w cw _ h
  obtain ⟨hw, rfl⟩ := word_eq h
  obtain ⟨e, f, h⟩ := vr3_word hw (by decide)
  rw [e, decodeVector, f]
  exact h _

theorem RoundTrip.viminu (t : Tok) (d : VDst) (a b : VSrc) (p : Fin 16) : RoundTrip.Statement (.viminu t d a b p) := by
  intro w cw _ h
  obtain ⟨hw, rfl⟩ := word_eq h
  obtain ⟨e, f, h⟩ := vr3_word hw (by decide)
  rw [e, decodeVector, f]
  exact h _

theorem RoundTrip.vimaxu (t : Tok) (d : VDst) (a b : VSrc) (p : Fin 16) : RoundTrip.Statement (.vimaxu t d a b p) := by
  intro w cw _ h
  obtain ⟨hw, rfl⟩ := word_eq h
  obtain ⟨e, f, h⟩ := vr3_word hw (by decide)
  rw [e, decodeVector, f]
  exact h _

theorem RoundTrip.vand (t : Tok) (d : VDst) (a b : VSrc) (p : Fin 16) : RoundTrip.Statement (.vand t d a b p) := by
  intro w cw _ h
  obtain ⟨hw, rfl⟩ := word_eq h
  obtain ⟨e, f, h⟩ := vr3_word hw (by decide)
  rw [e, decodeVector, f]
  exact h _

theorem RoundTrip.vor (t : Tok) (d : VDst) (a b : VSrc) (p : Fin 16) : RoundTrip.Statement (.vor t d a b p) := by
  intro w cw _ h
  obtain ⟨hw, rfl⟩ := word_eq h
  obtain ⟨e, f, h⟩ := vr3_word hw (by decide)
  rw [e, decodeVector, f]
  exact h _

theorem RoundTrip.vxor (t : Tok) (d : VDst) (a b : VSrc) (p : Fin 16) : RoundTrip.Statement (.vxor t d a b p) := by
  intro w cw _ h
  obtain ⟨hw, rfl⟩ := word_eq h
  obtain ⟨e, f, h⟩ := vr3_word hw (by decide)
  rw [e, decodeVector, f]
  exact h _

theorem RoundTrip.vshl (t : Tok) (d : VDst) (a b : VSrc) (p : Fin 16) : RoundTrip.Statement (.vshl t d a b p) := by
  intro w cw _ h
  obtain ⟨hw, rfl⟩ := word_eq h
  obtain ⟨e, f, h⟩ := vr3_word hw (by decide)
  rw [e, decodeVector, f]
  exact h _

theorem RoundTrip.vshr (t : Tok) (d : VDst) (a b : VSrc) (p : Fin 16) : RoundTrip.Statement (.vshr t d a b p) := by
  intro w cw _ h
  obtain ⟨hw, rfl⟩ := word_eq h
  obtain ⟨e, f, h⟩ := vr3_word hw (by decide)
  rw [e, decodeVector, f]
  exact h _

theorem RoundTrip.vsra (t : Tok) (d : VDst) (a b : VSrc) (p : Fin 16) : RoundTrip.Statement (.vsra t d a b p) := by
  intro w cw _ h
  obtain ⟨hw, rfl⟩ := word_eq h
  obtain ⟨e, f, h⟩ := vr3_word hw (by decide)
  rw [e, decodeVector, f]
  exact h _

theorem RoundTrip.vcmp (t : Tok) (cc : VCc) (ty : VTy) (pd : Fin 16) (a b : VSrc) : RoundTrip.Statement (.vcmp t cc ty pd a b) := by
  intro w cw hwf h
  obtain ⟨hw, rfl⟩ := word_eq h
  obtain ⟨hc1, hc2⟩ := vcc_back cc
  have la := vsrcNum_lt a
  have lb := vsrcNum_lt b
  have key : ∀ k, vtyNum ty = k → k < 3 →
      decode w none = decodeVcmp w ∧ tokOf w = t ∧ fld w 16 3 = vccNum cc ∧ fin16 w 12 = pd ∧
      fld w 7 5 = vsrcNum a ∧ fld w 2 5 = vsrcNum b ∧ fld w 0 2 = k := by
    intro k hk h3
    obtain ⟨he, ho, ht, hr⟩ := eng_word (r := vccNum cc * 65536 + pd.val * 4096 + vsrcNum a * 128
      + vsrcNum b * 4 + vtyNum ty) (e := 3) (op := 0x19) (t := t) (w := w)
      (by omega) (by omega) (by decide) (by decide)
    exact ⟨by rw [decode_vector he, decodeVector, ho]; rfl, ht, fld_eq (by omega),
      fin16_eq (fld_eq (by omega)), fld_eq (by omega), fld_eq (by omega), fld_eq (by omega)⟩
  obtain ⟨e, ht, hcc, hp, ha, hb, hk⟩ := key _ rfl (by cases ty <;> decide)
  cases ty <;> cases cc <;>
    simp_all [wellFormed, decodeVcmp, vtyNum, vccNum, vsrc_back ha, vsrc_back hb]

theorem RoundTrip.vsel (t : Tok) (d : VDst) (a b : VSrc) (p : Fin 16) : RoundTrip.Statement (.vsel t d a b p) := by
  intro w cw _ h
  obtain ⟨hw, rfl⟩ := word_eq h
  obtain ⟨e, f, h⟩ := vr3_word hw (by decide)
  rw [e, decodeVector, f]
  exact h _

theorem RoundTrip.plog (t : Tok) (fn : PFn) (pd pa pb : Fin 16) : RoundTrip.Statement (.plog t fn pd pa pb) := by
  intro w cw hwf h
  obtain ⟨hw, rfl⟩ := word_eq h
  obtain ⟨hf1, hf2⟩ := pfn_back fn
  obtain ⟨he, ho, ht, hr⟩ := eng_word (r := pd.val * 32768 + pa.val * 2048 + pb.val * 128 + pfnNum fn * 16)
    (e := 3) (op := 0x1b) (t := t) (w := w) (by omega) (by omega) (by decide) (by decide)
  have hd : fin16 w 15 = pd := fin16_eq (fld_eq (by omega))
  have ha : fld w 11 4 = pa.val := fld_eq (by omega)
  have hb : fld w 7 4 = pb.val := fld_eq (by omega)
  have hf : fld w 4 3 = pfnNum fn := fld_eq (by omega)
  have z : nz w 0 4 = (0x04, false) := nz_ok (fld_eq (by omega))
  rw [decode_vector he, decodeVector, ho]
  show decodePlog w = _
  cases fn <;> simp_all [wellFormed, decodePlog, fin16_eq ha, fin16_eq hb, pfnNum]

theorem RoundTrip.vcvt (t : Tok) (d : VDst) (a : VSrc) (conv : Conv) (rnd : Rnd) (sat : Bool) : RoundTrip.Statement (.vcvt t d a conv rnd sat) := by
  intro w cw _ h
  obtain ⟨hw, rfl⟩ := word_eq h
  obtain ⟨hc1, hc2⟩ := conv_back conv
  obtain ⟨hr1, hr2⟩ := rnd_back rnd
  have hs := b2n_lt sat
  have la := vsrcNum_lt a
  have ld := vdstNum_lt d
  obtain ⟨he, ho, ht, hr⟩ := eng_word (r := vdstNum d * 16384 + vsrcNum a * 512 + convNum conv * 32
    + rndNum rnd * 4 + b2n sat * 2) (e := 3) (op := 0x1c) (t := t) (w := w)
    (by omega) (by omega) (by decide) (by decide)
  have hd := vdst_back (w := w) (x := d) (fld_eq (by omega))
  have ha := vsrc_back (w := w) (lo := 9) (x := a) (fld_eq (by omega))
  have hc : fld w 5 4 = convNum conv := fld_eq (by omega)
  have hn : fld w 2 3 = rndNum rnd := fld_eq (by omega)
  have hsat : bit w 1 = sat := bit_eq (fld_eq (by omega))
  have z : nz w 0 1 = (0x04, false) := nz_ok (fld_eq (by omega))
  rw [decode_vector he, decodeVector, ho]
  show decodeVcvt w = _
  simp [ht, decodeVcvt, hc, hn, hc1, hr1, hd, ha, hsat, z]

theorem RoundTrip.vpack (t : Tok) (d : VDst) (a b : VSrc) (pw : PackW) : RoundTrip.Statement (.vpack t d a b pw) := by
  intro w cw _ h
  obtain ⟨hw, rfl⟩ := word_eq h
  obtain ⟨hk1, hk2⟩ := packW_back pw
  obtain ⟨e, f, ht, hd, ha, hb, hp⟩ := vec_word hw (by decide) (vdstNum_lt d) (vsrcNum_lt a) (vsrcNum_lt b) hk2
  rw [e, decodeVector, f]
  show (decodePack w .vpack : Except Nat Instr) = _
  simp [ht, decodePack, vdst_back hd, vsrc_back ha, vsrc_back hb, hp, hk1]

theorem RoundTrip.vunpk (t : Tok) (d : VDst) (a b : VSrc) (pw : PackW) : RoundTrip.Statement (.vunpk t d a b pw) := by
  intro w cw _ h
  obtain ⟨hw, rfl⟩ := word_eq h
  obtain ⟨hk1, hk2⟩ := packW_back pw
  obtain ⟨e, f, ht, hd, ha, hb, hp⟩ := vec_word hw (by decide) (vdstNum_lt d) (vsrcNum_lt a) (vsrcNum_lt b) hk2
  rw [e, decodeVector, f]
  show (decodePack w .vunpk : Except Nat Instr) = _
  simp [ht, decodePack, vdst_back hd, vsrc_back ha, vsrc_back hb, hp, hk1]

theorem RoundTrip.vquant (t : Tok) (d : VDst) (a : VSrc) (f : QFmt) : RoundTrip.Statement (.vquant t d a f) := by
  intro w cw _ h
  obtain ⟨hw, rfl⟩ := word_eq h
  obtain ⟨hk1, hk2⟩ := qfmt_back f
  obtain ⟨e, f, ht, hd, ha, hb, hp⟩ := vec_word hw (by decide) (vdstNum_lt d) (vsrcNum_lt a) (by decide) hk2
  rw [e, decodeVector, f]
  show (decodeQuant w .vquant : Except Nat Instr) = _
  simp [ht, decodeQuant, vdst_back hd, vsrc_back ha, un31_ok hb, hp, hk1]

theorem RoundTrip.vdeq (t : Tok) (d : VDst) (a : VSrc) (f : QFmt) : RoundTrip.Statement (.vdeq t d a f) := by
  intro w cw _ h
  obtain ⟨hw, rfl⟩ := word_eq h
  obtain ⟨hk1, hk2⟩ := qfmt_back f
  obtain ⟨e, f, ht, hd, ha, hb, hp⟩ := vec_word hw (by decide) (vdstNum_lt d) (vsrcNum_lt a) (by decide) hk2
  rw [e, decodeVector, f]
  show (decodeQuant w .vdeq : Except Nat Instr) = _
  simp [ht, decodeQuant, vdst_back hd, vsrc_back ha, un31_ok hb, hp, hk1]

theorem RoundTrip.vrsum (t : Tok) (d : VDst) (a : VSrc) (p : Fin 16) : RoundTrip.Statement (.vrsum t d a p) := by
  intro w cw _ h
  obtain ⟨hw, rfl⟩ := word_eq h
  obtain ⟨e, f, h⟩ := vr2_word hw (by decide)
  rw [e, decodeVector, f]
  exact h _

theorem RoundTrip.vrmax (t : Tok) (d : VDst) (a : VSrc) (nn : Bool) (p : Fin 16) : RoundTrip.Statement (.vrmax t d a nn p) := by
  intro w cw _ h
  obtain ⟨hw, rfl⟩ := word_eq h
  obtain ⟨e, f, h⟩ := vrN_word hw (by decide)
  rw [e, decodeVector, f]
  exact h _

theorem RoundTrip.vrmin (t : Tok) (d : VDst) (a : VSrc) (nn : Bool) (p : Fin 16) : RoundTrip.Statement (.vrmin t d a nn p) := by
  intro w cw _ h
  obtain ⟨hw, rfl⟩ := word_eq h
  obtain ⟨e, f, h⟩ := vrN_word hw (by decide)
  rw [e, decodeVector, f]
  exact h _

theorem RoundTrip.vperm (t : Tok) (d : VDst) (a b : VSrc) (p : Fin 16) : RoundTrip.Statement (.vperm t d a b p) := by
  intro w cw _ h
  obtain ⟨hw, rfl⟩ := word_eq h
  obtain ⟨e, f, h⟩ := vr3_word hw (by decide)
  rw [e, decodeVector, f]
  exact h _

theorem RoundTrip.vbcst (t : Tok) (d : VDst) (a : VSrc) (lane : Fin 64) : RoundTrip.Statement (.vbcst t d a lane) := by
  intro w cw _ h
  obtain ⟨hw, rfl⟩ := word_eq h
  have ld := vdstNum_lt d
  have la := vsrcNum_lt a
  obtain ⟨he, ho, ht, hr⟩ := eng_word (r := vdstNum d * 16384 + vsrcNum a * 512 + lane.val * 8) (e := 3) (op := 0x25) (t := t) (w := w)
    (by omega) (by omega) (by decide) (by decide)
  have hd := vdst_back (w := w) (x := d) (fld_eq (by omega))
  have ha := vsrc_back (w := w) (lo := 9) (x := a) (fld_eq (by omega))
  have hlane3 : fin64 w 3 = lane := fin64_eq (fld_eq (by omega))
  have z0 : nz w 0 3 = (0x04, false) := nz_ok (fld_eq (by omega))
  rw [decode_vector he, decodeVector, ho]
  show (accept [badDst w, badSrc w 9, nz w 0 3] (.vbcst (tokOf w) (vdstOf w) (vsrcOf w 9) (fin64 w 3)) :
    Except Nat Instr) = _
  simp only [ht, hd, ha, hlane3, z0, accept_passed, accept_nil]

theorem RoundTrip.vmov (t : Tok) (d : VDst) (a : VSrc) (p : Fin 16) : RoundTrip.Statement (.vmov t d a p) := by
  intro w cw _ h
  obtain ⟨hw, rfl⟩ := word_eq h
  obtain ⟨e, f, h⟩ := vr2_word hw (by decide)
  rw [e, decodeVector, f]
  exact h _

theorem RoundTrip.vsplt (t : Tok) (d : VDst) (imm : BitVec 14) : RoundTrip.Statement (.vsplt t d imm) := by
  intro w cw _ h
  obtain ⟨hw, rfl⟩ := word_eq h
  have ld := vdstNum_lt d
  obtain ⟨he, ho, ht, hr⟩ := eng_word (r := vdstNum d * 16384 + imm.toNat) (e := 3) (op := 0x27) (t := t) (w := w)
    (by omega) (by omega) (by decide) (by decide)
  have hd := vdst_back (w := w) (x := d) (fld_eq (by omega))
  have himm0 : immf w 0 14 = imm := immf_eq (fld_eq (by omega))
  rw [decode_vector he, decodeVector, ho]
  show (accept [badDst w] (.vsplt (tokOf w) (vdstOf w) (immf w 0 14)) : Except Nat Instr) = _
  simp only [ht, hd, himm0, accept_passed, accept_nil]

theorem RoundTrip.vsplf (t : Tok) (d : VDst) (imm : BitVec 14) : RoundTrip.Statement (.vsplf t d imm) := by
  intro w cw _ h
  obtain ⟨hw, rfl⟩ := word_eq h
  have ld := vdstNum_lt d
  obtain ⟨he, ho, ht, hr⟩ := eng_word (r := vdstNum d * 16384 + imm.toNat) (e := 3) (op := 0x28) (t := t) (w := w)
    (by omega) (by omega) (by decide) (by decide)
  have hd := vdst_back (w := w) (x := d) (fld_eq (by omega))
  have himm0 : immf w 0 14 = imm := immf_eq (fld_eq (by omega))
  rw [decode_vector he, decodeVector, ho]
  show (accept [badDst w] (.vsplf (tokOf w) (vdstOf w) (immf w 0 14)) : Except Nat Instr) = _
  simp only [ht, hd, himm0, accept_passed, accept_nil]

theorem RoundTrip.vsplx (t : Tok) (d : VDst) (p : Fin 16) : RoundTrip.Statement (.vsplx t d p) := by
  intro w cw _ h
  obtain ⟨hw, rfl⟩ := word_eq h
  obtain ⟨e, f, h⟩ := vr1_word hw (by decide)
  rw [e, decodeVector, f]
  exact h _

theorem RoundTrip.vrand (t : Tok) (d : VDst) (p : Fin 16) : RoundTrip.Statement (.vrand t d p) := by
  intro w cw _ h
  obtain ⟨hw, rfl⟩ := word_eq h
  obtain ⟨e, f, h⟩ := vr1_word hw (by decide)
  rw [e, decodeVector, f]
  exact h _

theorem RoundTrip.vrset (t : Tok) (a : VSrc) : RoundTrip.Statement (.vrset t a) := by
  intro w cw _ h
  obtain ⟨hw, rfl⟩ := word_eq h
  obtain ⟨e, f, ht, hd, ha, hb, hp⟩ := vec_word hw (by decide) (by decide) (vsrcNum_lt a) (by decide) (by decide)
  rw [e, decodeVector, f]
  show (accept [un31 w 14, badSrc w 9, un31 w 4, nz w 0 4] (.vrset (tokOf w) (vsrcOf w 9)) : Except Nat Instr)
    = _
  simp [ht, un31_ok hd, vsrc_back ha, un31_ok hb, nz_ok hp]

theorem RoundTrip.vrskip (t : Tok) (a : VSrc) : RoundTrip.Statement (.vrskip t a) := by
  intro w cw _ h
  obtain ⟨hw, rfl⟩ := word_eq h
  obtain ⟨e, f, ht, hd, ha, hb, hp⟩ := vec_word hw (by decide) (by decide) (vsrcNum_lt a) (by decide) (by decide)
  rw [e, decodeVector, f]
  show (accept [un31 w 14, badSrc w 9, un31 w 4, nz w 0 4] (.vrskip (tokOf w) (vsrcOf w 9)) : Except Nat
    Instr) = _
  simp [ht, un31_ok hd, vsrc_back ha, un31_ok hb, nz_ok hp]

theorem RoundTrip.vrget (t : Tok) (d : VDst) : RoundTrip.Statement (.vrget t d) := by
  intro w cw _ h
  obtain ⟨hw, rfl⟩ := word_eq h
  obtain ⟨e, f, ht, hd, ha, hb, hp⟩ := vec_word hw (by decide) (vdstNum_lt d) (by decide) (by decide) (by decide)
  rw [e, decodeVector, f]
  show (accept [badDst w, un31 w 9, un31 w 4, nz w 0 4] (.vrget (tokOf w) (vdstOf w)) : Except Nat Instr) = _
  simp [ht, vdst_back hd, un31_ok ha, un31_ok hb, nz_ok hp]

theorem RoundTrip.vdefer (t : Tok) (a b : VSrc) (p : Fin 16) : RoundTrip.Statement (.vdefer t a b p) := by
  intro w cw _ h
  obtain ⟨hw, rfl⟩ := word_eq h
  obtain ⟨e, f, ht, hd, ha, hb, hp⟩ := vec_word hw (by decide) (by decide) (vsrcNum_lt a) (vsrcNum_lt b) p.isLt
  rw [e, decodeVector, f]
  show (accept [un31 w 14, badSrc w 9, badSrc w 4] (.vdefer (tokOf w) (vsrcOf w 9) (vsrcOf w 4) (fin16 w 0)) :
    Except Nat Instr) = _
  simp [ht, un31_ok hd, vsrc_back ha, vsrc_back hb, fin16_eq hp]

theorem RoundTrip.vdrain (t : Tok) (d : Fin 32) (fl : Bool) (p : Fin 16) : RoundTrip.Statement (.vdrain t d fl p) := by
  intro w cw hwf h
  obtain ⟨hw, rfl⟩ := word_eq h
  have hfl := b2n_lt fl
  simp only [wellFormed, decide_eq_true_eq] at hwf
  obtain ⟨e, f, ht, hd, ha, hb, hp⟩ := vec_word hw (by decide) d.isLt (by decide) (by omega) p.isLt
  have h1 : ¬ 22 ≤ d.val := by omega
  have h2 : ¬ 2 ≤ b2n fl := by omega
  have h3 : bit w 4 = fl := bit_eq (by simp only [fld] at hb ⊢; omega)
  rw [e, decodeVector, f]
  simp [ht, fin32_eq hd, hd, un31_ok ha, hb, h1, h2, h3, fin16_eq hp]

theorem RoundTrip.vdqn (t : Tok) (d : VDst) : RoundTrip.Statement (.vdqn t d) := by
  intro w cw _ h
  obtain ⟨hw, rfl⟩ := word_eq h
  obtain ⟨e, f, ht, hd, ha, hb, hp⟩ := vec_word hw (by decide) (vdstNum_lt d) (by decide) (by decide) (by decide)
  rw [e, decodeVector, f]
  show (accept [badDst w, un31 w 9, un31 w 4, nz w 0 4] (.vdqn (tokOf w) (vdstOf w)) : Except Nat Instr) = _
  simp [ht, vdst_back hd, un31_ok ha, un31_ok hb, nz_ok hp]

theorem RoundTrip.vloop (t : Tok) : RoundTrip.Statement (.vloop t) := by
  intro w cw _ h
  obtain ⟨hw, rfl⟩ := word_eq h
  obtain ⟨e, f, ht, hd, ha, hb, hp⟩ := vec_word hw (by decide) (by decide) (by decide) (by decide) (by decide)
  rw [e, decodeVector, f]
  show (accept [un31 w 14, un31 w 9, un31 w 4, nz w 0 4] (.vloop (tokOf w)) : Except Nat Instr) = _
  simp [ht, un31_ok hd, un31_ok ha, un31_ok hb, nz_ok hp]

theorem RoundTrip.vrply (t : Tok) (a : VSrc) (rq : Fin 2) (lane : Fin 64) : RoundTrip.Statement (.vrply t a rq lane) := by
  intro w cw _ h
  obtain ⟨hw, rfl⟩ := word_eq h
  have la := vsrcNum_lt a
  obtain ⟨he, ho, ht, hr⟩ := eng_word (r := vsrcNum a * 16384 + rq.val * 512 + lane.val * 8) (e := 3) (op := 0x32) (t := t) (w := w)
    (by omega) (by omega) (by decide) (by decide)
  have ha := vsrc_back (w := w) (lo := 14) (x := a) (fld_eq (by omega))
  have hrq9 : fin2 w 9 = rq := fin2_eq (fld_eq (by omega))
  have hlane3 : fin64 w 3 = lane := fin64_eq (fld_eq (by omega))
  have z10 : nz w 10 4 = (0x04, false) := nz_ok (fld_eq (by omega))
  have z0 : nz w 0 3 = (0x04, false) := nz_ok (fld_eq (by omega))
  rw [decode_vector he, decodeVector, ho]
  show (accept [badSrc w 14, nz w 10 4, nz w 0 3] (.vrply (tokOf w) (vsrcOf w 14) (fin2 w 9) (fin64 w 3)) :
    Except Nat Instr) = _
  simp only [ht, ha, hrq9, hlane3, z10, z0, accept_passed, accept_nil]

theorem RoundTrip.vflag (t : Tok) (d : VDst) (clr : Bool) : RoundTrip.Statement (.vflag t d clr) := by
  intro w cw _ h
  obtain ⟨hw, rfl⟩ := word_eq h
  have hfl := b2n_lt clr
  obtain ⟨e, f, ht, hd, ha, hb, hp⟩ := vec_word hw (by decide) (vdstNum_lt d) (by decide) (by omega) (by decide)
  have h2 : ¬ 2 ≤ b2n clr := by omega
  have h3 : bit w 4 = clr := bit_eq (by simp only [fld] at hb ⊢; omega)
  rw [e, decodeVector, f]
  simp [ht, vdst_back hd, un31_ok ha, hb, h2, h3, nz_ok hp]

theorem RoundTrip.vnop (t : Tok) : RoundTrip.Statement (.vnop t) := by
  intro w cw _ h
  obtain ⟨hw, rfl⟩ := word_eq h
  obtain ⟨e, f, ht, hd, ha, hb, hp⟩ := vec_word hw (by decide) (by decide) (by decide) (by decide) (by decide)
  rw [e, decodeVector, f]
  show (accept [un31 w 14, un31 w 9, un31 w 4, nz w 0 4] (.vnop (tokOf w)) : Except Nat Instr) = _
  simp [ht, un31_ok hd, un31_ok ha, un31_ok hb, nz_ok hp]

theorem RoundTrip.copy (t : Tok) (d s : Fin 16) : RoundTrip.Statement (.copy t d s) := by
  intro w cw _ h
  obtain ⟨hw, rfl⟩ := word_eq h
  obtain ⟨he, ho, ht, hr⟩ := eng_word (r := d.val * 32768 + s.val * 2048) (e := 4) (op := 0) (t := t) (w := w)
    (by omega) (by omega) (by decide) (by decide)
  have hd15 : fin16 w 15 = d := fin16_eq (fld_eq (by omega))
  have hs11 : fin16 w 11 = s := fin16_eq (fld_eq (by omega))
  have z0 : nz w 0 11 = (0x04, false) := nz_ok (fld_eq (by omega))
  rw [decode_copy he ho (by decide), decodeCopy, ho]
  show (accept [nz w 0 11] (.copy (tokOf w) (fin16 w 15) (fin16 w 11)) : Except Nat Instr) = _
  simp only [ht, hd15, hs11, z0, accept_passed, accept_nil]

theorem RoundTrip.sqst (t : Tok) (d : Fin 16) : RoundTrip.Statement (.sqst t d) := by
  intro w cw _ h
  obtain ⟨hw, rfl⟩ := word_eq h
  obtain ⟨he, ho, ht, hr⟩ := eng_word (r := d.val * 32768) (e := 4) (op := 1) (t := t) (w := w)
    (by omega) (by omega) (by decide) (by decide)
  have hd15 : fin16 w 15 = d := fin16_eq (fld_eq (by omega))
  have z0 : nz w 0 15 = (0x04, false) := nz_ok (fld_eq (by omega))
  rw [decode_copy he ho (by decide), decodeCopy, ho]
  show (accept [nz w 0 15] (.sqst (tokOf w) (fin16 w 15)) : Except Nat Instr) = _
  simp only [ht, hd15, z0, accept_passed, accept_nil]

theorem RoundTrip.xsend (t : Tok) (s : Fin 16) (nb : Bool) (slot : Fin 64) (off : BitVec 23) : RoundTrip.Statement (.xsend t s nb slot off) := by
  intro w cw _ h
  obtain ⟨hw, rfl⟩ := word_eq h
  have lnb := b2n_lt nb
  obtain ⟨he, ho, ht, hr⟩ := eng_word (r := s.val * 2048 + b2n nb * 1024) (e := 4) (op := 2) (t := t) (w := w)
    (by omega) (by omega) (by decide) (by decide)
  obtain ⟨c, hc⟩ : ∃ c, c = 7 * 536870912 + slot.val * 8388608 + off.toNat := ⟨_, rfl⟩
  rw [← hc]
  have h7 : fld c 29 3 = 7 := fld_eq (by omega)
  have hs11 : fin16 w 11 = s := fin16_eq (fld_eq (by omega))
  have hnb10 : bit w 10 = nb := bit_eq (fld_eq (by omega))
  have z15 : nz w 15 4 = (0x04, false) := nz_ok (fld_eq (by omega))
  have z0 : nz w 0 10 = (0x04, false) := nz_ok (fld_eq (by omega))
  have hslot23 : fin64 c 23 = slot := fin64_eq (fld_eq (by omega))
  have hoff0 : immf c 0 23 = off := immf_eq (fld_eq (by omega))
  rw [decode_copy_long he ho (by decide) (by decide) h7, decodeCopy, ho]
  simp [ht, hs11, hnb10, z15, z0, hslot23, hoff0]

theorem RoundTrip.rsend (t : Tok) (s : Fin 16) (peer : BitVec 13) (tag : BitVec 16) : RoundTrip.Statement (.rsend t s peer tag) := by
  intro w cw _ h
  obtain ⟨hw, rfl⟩ := word_eq h
  obtain ⟨he, ho, ht, hr⟩ := eng_word (r := s.val * 2048) (e := 4) (op := 3) (t := t) (w := w)
    (by omega) (by omega) (by decide) (by decide)
  obtain ⟨c, hc⟩ : ∃ c, c = 7 * 536870912 + peer.toNat * 65536 + tag.toNat := ⟨_, rfl⟩
  rw [← hc]
  have h7 : fld c 29 3 = 7 := fld_eq (by omega)
  have hs11 : fin16 w 11 = s := fin16_eq (fld_eq (by omega))
  have z15 : nz w 15 4 = (0x04, false) := nz_ok (fld_eq (by omega))
  have z0 : nz w 0 11 = (0x04, false) := nz_ok (fld_eq (by omega))
  have hpeer16 : immf c 16 13 = peer := immf_eq (fld_eq (by omega))
  have htag0 : immf c 0 16 = tag := immf_eq (fld_eq (by omega))
  rw [decode_copy_long he ho (by decide) (by decide) h7, decodeCopy, ho]
  simp [ht, hs11, z15, z0, hpeer16, htag0]

theorem RoundTrip.rrecv (t : Tok) (d : Fin 16) (red : Reduce) (peer : BitVec 13) (tag : BitVec 16) : RoundTrip.Statement (.rrecv t d red peer tag) := by
  intro w cw _ h
  obtain ⟨hw, rfl⟩ := word_eq h
  obtain ⟨hq1, hq2⟩ := reduce_back red
  obtain ⟨he, ho, ht, hr⟩ := eng_word (r := d.val * 32768 + reduceNum red * 256) (e := 4) (op := 4) (t := t) (w := w)
    (by omega) (by omega) (by decide) (by decide)
  obtain ⟨c, hc⟩ : ∃ c, c = 7 * 536870912 + peer.toNat * 65536 + tag.toNat := ⟨_, rfl⟩
  rw [← hc]
  have h7 : fld c 29 3 = 7 := fld_eq (by omega)
  have hd15 : fin16 w 15 = d := fin16_eq (fld_eq (by omega))
  have hred : fld w 8 3 = reduceNum red := fld_eq (by omega)
  have z11 : nz w 11 4 = (0x04, false) := nz_ok (fld_eq (by omega))
  have z0 : nz w 0 8 = (0x04, false) := nz_ok (fld_eq (by omega))
  have hpeer16 : immf c 16 13 = peer := immf_eq (fld_eq (by omega))
  have htag0 : immf c 0 16 = tag := immf_eq (fld_eq (by omega))
  rw [decode_copy_long he ho (by decide) (by decide) h7, decodeCopy, ho]
  simp [ht, hd15, hred, z11, z0, hpeer16, htag0, hq1]

theorem RoundTrip.rfence (t : Tok) : RoundTrip.Statement (.rfence t) := by
  intro w cw _ h
  obtain ⟨hw, rfl⟩ := word_eq h
  obtain ⟨he, ho, ht, hr⟩ := eng_word (r := 0) (e := 4) (op := 5) (t := t) (w := w)
    (by omega) (by omega) (by decide) (by decide)
  have z0 : nz w 0 19 = (0x04, false) := nz_ok (fld_eq (by omega))
  rw [decode_copy he ho (by decide), decodeCopy, ho]
  show (accept [nz w 0 19] (.rfence (tokOf w)) : Except Nat Instr) = _
  simp only [ht, z0, accept_passed, accept_nil]

theorem RoundTrip.atomv (t : Tok) (st : Fin 16) (iq : Fin 4) (fn : AtomV) (fin : Bool) : RoundTrip.Statement (.atomv t st iq fn fin) := by
  intro w cw _ h
  obtain ⟨hw, rfl⟩ := word_eq h
  have lfin := b2n_lt fin
  obtain ⟨hq1, hq2⟩ := atomv_back fn
  obtain ⟨he, ho, ht, hr⟩ := eng_word (r := st.val * 32768 + iq.val * 512 + atomvNum fn * 32 + b2n fin * 16) (e := 4) (op := 6) (t := t) (w := w)
    (by omega) (by omega) (by decide) (by decide)
  have hst15 : fin16 w 15 = st := fin16_eq (fld_eq (by omega))
  have hiq9 : fin4 w 9 = iq := fin4_eq (fld_eq (by omega))
  have hfn : fld w 5 4 = atomvNum fn := fld_eq (by omega)
  have hfin4 : bit w 4 = fin := bit_eq (fld_eq (by omega))
  have z11 : nz w 11 4 = (0x04, false) := nz_ok (fld_eq (by omega))
  have z0 : nz w 0 4 = (0x04, false) := nz_ok (fld_eq (by omega))
  rw [decode_copy he ho (by decide), decodeCopy, ho]
  simp [ht, hst15, hiq9, hfn, hfin4, z11, z0, hq1]

theorem RoundTrip.snop (t : Tok) : RoundTrip.Statement (.snop t) := by
  intro w cw _ h
  obtain ⟨hw, rfl⟩ := word_eq h
  obtain ⟨he, ho, ht, hr⟩ := eng_word (r := 0) (e := 4) (op := 7) (t := t) (w := w)
    (by omega) (by omega) (by decide) (by decide)
  have z0 : nz w 0 19 = (0x04, false) := nz_ok (fld_eq (by omega))
  rw [decode_copy he ho (by decide), decodeCopy, ho]
  show (accept [nz w 0 19] (.snop (tokOf w)) : Except Nat Instr) = _
  simp only [ht, z0, accept_passed, accept_nil]

theorem RoundTrip.engineRetire (e : Engine) : RoundTrip.Statement (.engineRetire e) :=
  fun _ _ _ h => nomatch h

theorem RoundTrip.barrierRelease (id : Fin 16) : RoundTrip.Statement (.barrierRelease id) :=
  fun _ _ _ h => nomatch h

theorem RoundTrip.plumbRelease (mark : BitVec 16) : RoundTrip.Statement (.plumbRelease mark) :=
  fun _ _ _ h => nomatch h

theorem RoundTrip.remoteMatch (peer : BitVec 13) (tag : BitVec 16) (len : Nat) : RoundTrip.Statement (.remoteMatch peer tag len) :=
  fun _ _ _ h => nomatch h

theorem RoundTrip.remoteEnd (op : RemoteOp) (peer : BitVec 13) (tag : BitVec 16) (len : Nat) (data : List Byte) : RoundTrip.Statement (.remoteEnd op peer tag len data) :=
  fun _ _ _ h => nomatch h

theorem RoundTrip.roundAbandon (peer : BitVec 13) (tag : BitVec 16) : RoundTrip.Statement (.roundAbandon peer tag) :=
  fun _ _ _ h => nomatch h

theorem RoundTrip.dataFlit (port : Fin 32) (flit : List Byte) : RoundTrip.Statement (.dataFlit port flit) :=
  fun _ _ _ h => nomatch h

theorem RoundTrip.idleFlit (port : Fin 32) (flit : List Byte) : RoundTrip.Statement (.idleFlit port flit) :=
  fun _ _ _ h => nomatch h

theorem RoundTrip.retryRequest (port : Fin 32) (flit : List Byte) : RoundTrip.Statement (.retryRequest port flit) :=
  fun _ _ _ h => nomatch h

theorem RoundTrip.portDown (port : Fin 32) : RoundTrip.Statement (.portDown port) :=
  fun _ _ _ h => nomatch h

theorem RoundTrip.windowMigrated (die : Fin 4) (idx : Fin 3072) (pbase : BitVec 31) : RoundTrip.Statement (.windowMigrated die idx pbase) :=
  fun _ _ _ h => nomatch h

theorem RoundTrip.driftExchange (die : Fin 4) (fwd back : BitVec 32) : RoundTrip.Statement (.driftExchange die fwd back) :=
  fun _ _ _ h => nomatch h

theorem RoundTrip.eventWake (tn : Fin 16) (ev : BitVec 16) : RoundTrip.Statement (.eventWake tn ev) :=
  fun _ _ _ h => nomatch h

theorem RoundTrip.kick (tn : Fin 16) (q : Fin 8) (seq : BitVec 32) : RoundTrip.Statement (.kick tn q seq) :=
  fun _ _ _ h => nomatch h

theorem RoundTrip.entryReread (tn : Fin 16) (q : Fin 8) : RoundTrip.Statement (.entryReread tn q) :=
  fun _ _ _ h => nomatch h

theorem RoundTrip.ack (tn : Fin 16) (q : Fin 8) : RoundTrip.Statement (.ack tn q) :=
  fun _ _ _ h => nomatch h

theorem RoundTrip.qcfgWrite (tn : Fin 16) (q : Fin 8) (v : DWord) : RoundTrip.Statement (.qcfgWrite tn q v) :=
  fun _ _ _ h => nomatch h

theorem RoundTrip.ercfgWrite (tn : Fin 16) (v : DWord) : RoundTrip.Statement (.ercfgWrite tn v) :=
  fun _ _ _ h => nomatch h

theorem RoundTrip.hostRegisterWrite (tn : Fin 16) (off : BitVec 16) (v : DWord) : RoundTrip.Statement (.hostRegisterWrite tn off v) :=
  fun _ _ _ h => nomatch h

theorem RoundTrip.mbout (tn : Fin 16) (c : Fin 128) : RoundTrip.Statement (.mbout tn c) :=
  fun _ _ _ h => nomatch h

theorem RoundTrip.mbin (tn : Fin 16) (c : Fin 128) (v : DWord) : RoundTrip.Statement (.mbin tn c v) :=
  fun _ _ _ h => nomatch h

theorem RoundTrip.dropClear (tn : Fin 16) (c : Fin 128) : RoundTrip.Statement (.dropClear tn c) :=
  fun _ _ _ h => nomatch h

theorem RoundTrip.launch (tn : Fin 16) (q : Fin 8) (seq : BitVec 32) (w : Bool) (f : LaunchFields) : RoundTrip.Statement (.launch tn q seq w f) :=
  fun _ _ _ h => nomatch h

theorem RoundTrip.listWait (tn : Fin 16) (q : Fin 8) (w : Bool) (ev : BitVec 16) (clr : Bool) : RoundTrip.Statement (.listWait tn q w ev clr) :=
  fun _ _ _ h => nomatch h

theorem RoundTrip.listSignal (tn : Fin 16) (q : Fin 8) (w : Bool) (ev : BitVec 16) (addr addend : DWord) : RoundTrip.Statement (.listSignal tn q w ev addr addend) :=
  fun _ _ _ h => nomatch h

theorem RoundTrip.listSkipif (tn : Fin 16) (q : Fin 8) (w : Bool) (n : BitVec 16) (addr : DWord) : RoundTrip.Statement (.listSkipif tn q w n addr) :=
  fun _ _ _ h => nomatch h

theorem RoundTrip.listJump (tn : Fin 16) (q : Fin 8) (w : Bool) (target : DWord) : RoundTrip.Statement (.listJump tn q w target) :=
  fun _ _ _ h => nomatch h

theorem RoundTrip.listCall (tn : Fin 16) (q : Fin 8) (w : Bool) (target : DWord) : RoundTrip.Statement (.listCall tn q w target) :=
  fun _ _ _ h => nomatch h

theorem RoundTrip.listReturn (tn : Fin 16) (q : Fin 8) (w : Bool) : RoundTrip.Statement (.listReturn tn q w) :=
  fun _ _ _ h => nomatch h

theorem RoundTrip.listFence (tn : Fin 16) (q : Fin 8) (w : Bool) : RoundTrip.Statement (.listFence tn q w) :=
  fun _ _ _ h => nomatch h

theorem RoundTrip.listEnd (tn : Fin 16) (q : Fin 8) (w : Bool) : RoundTrip.Statement (.listEnd tn q w) :=
  fun _ _ _ h => nomatch h

theorem RoundTrip.gangStart (task : Nat) : RoundTrip.Statement (.gangStart task) :=
  fun _ _ _ h => nomatch h

theorem RoundTrip.taskComplete (task : Nat) : RoundTrip.Statement (.taskComplete task) :=
  fun _ _ _ h => nomatch h

theorem RoundTrip.preemptRequest (task : Nat) : RoundTrip.Statement (.preemptRequest task) :=
  fun _ _ _ h => nomatch h

theorem RoundTrip.taskResume (task : Nat) : RoundTrip.Statement (.taskResume task) :=
  fun _ _ _ h => nomatch h

theorem RoundTrip.taskDiscard (task : Nat) : RoundTrip.Statement (.taskDiscard task) :=
  fun _ _ _ h => nomatch h

theorem RoundTrip.hostMemAccess (write : Bool) (pa : Nat) (n : Nat) (data : List Byte) : RoundTrip.Statement (.hostMemAccess write pa n data) :=
  fun _ _ _ h => nomatch h

theorem RoundTrip.linkRateChange (rate : Nat) (lanes : Nat) : RoundTrip.Statement (.linkRateChange rate lanes) :=
  fun _ _ _ h => nomatch h

theorem RoundTrip.firmwareDownload (die : Fin 4) (image key signature : List Byte) : RoundTrip.Statement (.firmwareDownload die image key signature) :=
  fun _ _ _ h => nomatch h

theorem RoundTrip.trimRecord (die : Fin 4) (record signature : List Byte) : RoundTrip.Statement (.trimRecord die record signature) :=
  fun _ _ _ h => nomatch h

theorem RoundTrip.attestationReport (die : Fin 4) (nonce : List Byte) : RoundTrip.Statement (.attestationReport die nonce) :=
  fun _ _ _ h => nomatch h

theorem RoundTrip.illegalWord (e : Option Engine) (w : Word) (reason : BitVec 8) : RoundTrip.Statement (.illegalWord e w reason) :=
  fun _ _ _ h => nomatch h

theorem RoundTrip.fetchFault (addr : VAddr) : RoundTrip.Statement (.fetchFault addr) :=
  fun _ _ _ h => nomatch h

theorem RoundTrip.debugResume (task : Nat) : RoundTrip.Statement (.debugResume task) :=
  fun _ _ _ h => nomatch h

theorem RoundTrip.debugInterfaceWrite (c : Fin 128) (r : DbgReg) (v : DWord) : RoundTrip.Statement (.debugInterfaceWrite c r v) :=
  fun _ _ _ h => nomatch h

theorem RoundTrip.taskAbort (task : Nat) : RoundTrip.Statement (.taskAbort task) :=
  fun _ _ _ h => nomatch h

theorem RoundTrip.slotLoad (img : SlotImage) : RoundTrip.Statement (.slotLoad img) :=
  fun _ _ _ h => nomatch h

theorem RoundTrip.tenantCreate (tn : Fin 16) (grant : TenantGrant) : RoundTrip.Statement (.tenantCreate tn grant) :=
  fun _ _ _ h => nomatch h

theorem RoundTrip.tenantDestroy (tn : Fin 16) : RoundTrip.Statement (.tenantDestroy tn) :=
  fun _ _ _ h => nomatch h

theorem RoundTrip.placementRemoval (c : Fin 128) : RoundTrip.Statement (.placementRemoval c) :=
  fun _ _ _ h => nomatch h

theorem RoundTrip.phaseResume : RoundTrip.Statement (.phaseResume) :=
  fun _ _ _ h => nomatch h

theorem RoundTrip.gangStall : RoundTrip.Statement (.gangStall) :=
  fun _ _ _ h => nomatch h

theorem RoundTrip.stallResume : RoundTrip.Statement (.stallResume) :=
  fun _ _ _ h => nomatch h

theorem RoundTrip.slipLimit : RoundTrip.Statement (.slipLimit) :=
  fun _ _ _ h => nomatch h

theorem RoundTrip.deadStop : RoundTrip.Statement (.deadStop) :=
  fun _ _ _ h => nomatch h

theorem RoundTrip.plumbOverdue : RoundTrip.Statement (.plumbOverdue) :=
  fun _ _ _ h => nomatch h

theorem RoundTrip.slotLanding : RoundTrip.Statement (.slotLanding) :=
  fun _ _ _ h => nomatch h

theorem RoundTrip.lateLanding : RoundTrip.Statement (.lateLanding) :=
  fun _ _ _ h => nomatch h

theorem RoundTrip.sdopenRetire : RoundTrip.Statement (.sdopenRetire) :=
  fun _ _ _ h => nomatch h

theorem RoundTrip.streamBeat : RoundTrip.Statement (.streamBeat) :=
  fun _ _ _ h => nomatch h

theorem RoundTrip.blockRemoval : RoundTrip.Statement (.blockRemoval) :=
  fun _ _ _ h => nomatch h

theorem RoundTrip.blockRefetch : RoundTrip.Statement (.blockRefetch) :=
  fun _ _ _ h => nomatch h

theorem RoundTrip.blockPush : RoundTrip.Statement (.blockPush) :=
  fun _ _ _ h => nomatch h

theorem RoundTrip.remoteTimeout : RoundTrip.Statement (.remoteTimeout) :=
  fun _ _ _ h => nomatch h

theorem RoundTrip.cqRecord : RoundTrip.Statement (.cqRecord) :=
  fun _ _ _ h => nomatch h

theorem RoundTrip.batchClose : RoundTrip.Statement (.batchClose) :=
  fun _ _ _ h => nomatch h

theorem RoundTrip.trapEntry : RoundTrip.Statement (.trapEntry) :=
  fun _ _ _ h => nomatch h

theorem RoundTrip.companionStop : RoundTrip.Statement (.companionStop) :=
  fun _ _ _ h => nomatch h

theorem RoundTrip.breakRequest : RoundTrip.Statement (.breakRequest) :=
  fun _ _ _ h => nomatch h

theorem RoundTrip.jigEntryIssue : RoundTrip.Statement (.jigEntryIssue) :=
  fun _ _ _ h => nomatch h

theorem RoundTrip.gangStop : RoundTrip.Statement (.gangStop) :=
  fun _ _ _ h => nomatch h

theorem RoundTrip.powerUp : RoundTrip.Statement (.powerUp) :=
  fun _ _ _ h => nomatch h

theorem RoundTrip.warningTemperature : RoundTrip.Statement (.warningTemperature) :=
  fun _ _ _ h => nomatch h

theorem RoundTrip.criticalTemperature : RoundTrip.Statement (.criticalTemperature) :=
  fun _ _ _ h => nomatch h

theorem RoundTrip.valueLanded : RoundTrip.Statement (.valueLanded) :=
  fun _ _ _ h => nomatch h

end Sys2Proof.Laws
end

