-- ==== Sys2Proof/Laws/Vec.lean ====
section
/-! SUPPORT. One lemma for each shared operation of vector words: reading sources and predicates outside
shadows (R219), delivering results (R218), popping source queues (R65), and a word's whole act. -/

namespace Sys2Proof.Machine

theorem vget_fin {α : Type} {n : Nat} (v : Vector α n) (i : Fin n) (d : α) : vget v i.val d = v[i] := by
  simp [vget]

theorem vget_ofFn {α : Type} {n : Nat} (f : Fin n → α) (i : Nat) (h : i < n) (d : α) :
    vget (Vector.ofFn f) i d = f ⟨i, h⟩ := by
  simp [vget, h]

/-! ### What a vector word's body keeps -/

/-- The body of a vector word: the engine frame, every unit but the vector engine, and memory. -/
structure VBody (s u : State) : Prop extends EngBody .vector s u where
  rest : RestSame s u
  mx : u.core.mx = s.core.mx

theorem RestSame.refl (s : State) : RestSame s s := ⟨rfl, rfl, rfl, rfl, rfl, fun _ _ => rfl⟩

theorem RestSame.trans {s t u : State} (a : RestSame s t) (b : RestSame t u) : RestSame s u := by
  obtain ⟨a1, a2, a3, a4, a5, a6⟩ := a
  obtain ⟨b1, b2, b3, b4, b5, b6⟩ := b
  exact ⟨b1.trans a1, b2.trans a2, b3.trans a3, b4.trans a4, b5.trans a5, fun sp x => (b6 sp x).trans (a6 sp x)⟩

theorem VBody.refl (s : State) : VBody s s := ⟨EngBody.refl _ s, RestSame.refl s, rfl⟩

theorem VBody.trans {s t u : State} (a : VBody s t) (b : VBody t u) : VBody s u :=
  ⟨a.toEngBody.trans b.toEngBody, a.rest.trans b.rest, b.mx.trans a.mx⟩

theorem RestSame.of_eq {s u : State} (h1 : u.core.land = s.core.land) (h2 : u.core.cp = s.core.cp)
    (h3 : u.core.sd = s.core.sd) (h4 : u.others = s.others) (h5 : u.sys = s.sys)
    (h6 : u.core.id = s.core.id) (h7 : u.core.bench = s.core.bench) : RestSame s u :=
  ⟨h1, h2, h3, h4, h5, MemSame.of_eq h6 h7 h4 h5⟩

theorem VBody.updVec (s : State) (f : Core → Vec) : VBody s (s.upd fun c => { c with vec := f c }) :=
  ⟨EngBody.vec _ s f, RestSame.of_eq rfl rfl rfl rfl rfl rfl rfl, rfl⟩

theorem VBody.updQ (s : State) (f : Queues → Queues) : VBody s (s.updQ f) :=
  ⟨EngBody.updQ _ s f, RestSame.of_eq rfl rfl rfl rfl rfl rfl rfl, rfl⟩

theorem VBody.readsIf (s : State) (b : Bool) : VBody s (s.readsIf b) :=
  ⟨EngBody.readsIf _ s b, RestSame.of_eq (by simp) (by simp) (by simp) (by simp) (by simp) (by simp) (by simp),
    by simp⟩

theorem VBody.updCarried (s : State) (f : Carried → Carried) : VBody s (s.updCarried f) :=
  ⟨EngBody.updCarried _ s f,
    RestSame.of_eq (by simp) (by simp) (by simp) (by simp) (by simp) (by simp) (by simp), by simp⟩

theorem VBody.popVq (s : State) (k : Fin 4) : VBody s (s.popVq k) :=
  ⟨EngBody.popVq _ s k, RestSame.of_eq (by simp) (by simp) (by simp) (by simp) (by simp) (by simp) (by simp),
    by simp⟩

theorem VBody.writeV (s : State) (k : Fin 24) (v : Lanes) (b : Nat) : VBody s (s.writeV k v b) :=
  VBody.updVec s _

theorem VBody.writeP (s : State) (k : Fin 16) (v : BitVec 64) (b : Nat) : VBody s (s.writeP k v b) := by
  unfold State.writeP; split
  · exact VBody.refl s
  · exact VBody.updVec s _

theorem VBody.vflag (s : State) (f : FlagBits) (n : Nat) : VBody s (s.vflag f n) := VBody.updVec s _

/-! ### Reading outside shadows (R219) -/

theorem State.readV_calm {s : State} {k : Fin 24} (h : oldsOf s.core.vec.pendV k.val s.core.tick = []) :
    s.readV k = (s.core.vec.v[k], s) := by
  simp only [State.readV, h]

theorem State.readP_calm {s : State} {p : Fin 16}
    (h : oldsOf s.core.vec.pendP (s.core.vec.physP p).val s.core.tick = []) :
    s.readP (s.core.vec.physP p) = (predVal s p, s) := by
  unfold State.readP predVal
  simp only
  split
  · rfl
  · rw [h]

/-- A source outside every shadow gives its lanes and changes nothing. -/
theorem State.readSrc_calm {s : State} {a : VSrc}
    (h : ∀ k, a = .v k → oldsOf s.core.vec.pendV (s.core.vec.phys k).val s.core.tick = []) :
    s.readSrc a = (srcLanes s a, s) := by
  cases a with
  | v k =>
    rw [State.readSrc, State.readV_calm (h k rfl)]
    refine Prod.ext (Vector.ext fun i hi => ?_) rfl
    simp only [srcLanes, Vector.getElem_ofFn]; rfl
  | vq q =>
    refine Prod.ext (Vector.ext fun i hi => ?_) rfl
    simp only [srcLanes, Vector.getElem_ofFn, State.readSrc, srcLane]
    have key : ∀ l : List LaneEntry, ((l.head?.map (·.lanes)).getD (.replicate 64 0))[i]
        = match l with
          | x :: _ => x.lanes[(⟨i, hi⟩ : Fin 64)]
          | [] => 0 := by
      intro l; cases l <;> simp
    exact key _
  | lane =>
    refine Prod.ext (Vector.ext fun i hi => ?_) rfl
    simp only [srcLanes, Vector.getElem_ofFn, State.readSrc, srcLane]
  | vz =>
    refine Prod.ext (Vector.ext fun i hi => ?_) rfl
    simp only [srcLanes, Vector.getElem_ofFn, State.readSrc, srcLane, Vector.getElem_replicate]

theorem srcLanes_get (s : State) (a : VSrc) (i : Fin 64) : (srcLanes s a)[i] = srcLane s a i := by
  simp [srcLanes]

theorem vget_srcLanes (s : State) (a : VSrc) (i : Nat) (h : i < 64) (d : Word) :
    vget (srcLanes s a) i d = srcLane s a ⟨i, h⟩ := vget_ofFn _ _ _ _

/-- A source's lanes depend on the vector registers and the queues of sources. -/
theorem srcLane_congr {s u : State} (hv : u.core.vec = s.core.vec) (hq : u.core.q.vq = s.core.q.vq) (a : VSrc) :
    srcLane u a = srcLane s a := by
  funext i; cases a <;> simp [srcLane, hv, hq]

theorem srcLanes_congr {s u : State} (hv : u.core.vec = s.core.vec) (hq : u.core.q.vq = s.core.q.vq) (a : VSrc) :
    srcLanes u a = srcLanes s a := by unfold srcLanes; rw [srcLane_congr hv hq]

theorem predVal_congr {s u : State} (hv : u.core.vec = s.core.vec) (p : Fin 16) : predVal u p = predVal s p := by
  simp [predVal, hv]

/-! ### Popping the source queues (R65) -/

/-- Popping each of some queues once. -/
theorem popAll_spec (qs : List (Fin 4)) (hn : qs.Nodup) (s : State) :
    let t := qs.foldl (fun s q => s.popVq q) s
    VBody s t ∧ t.core.vec = s.core.vec ∧ t.core.q = { s.core.q with
      vq := Vector.ofFn fun q => if q ∈ qs then s.core.q.vq[q].tail else s.core.q.vq[q] } := by
  induction qs generalizing s with
  | nil =>
    refine ⟨VBody.refl s, rfl, ?_⟩
    simp only [List.foldl_nil, List.not_mem_nil, if_false]
    have hv : (Vector.ofFn fun q : Fin 4 => s.core.q.vq[q]) = s.core.q.vq :=
      Vector.ext fun i hi => by simp
    rw [hv]
  | cons a l ih =>
    have hn' := List.nodup_cons.mp hn
    obtain ⟨h1, h2, h3⟩ := ih hn'.2 (s.popVq a)
    refine ⟨(VBody.popVq s a).trans h1, h2.trans (by simp), ?_⟩
    rw [List.foldl_cons, h3, State.popVq_q]
    simp only
    congr 1
    refine Vector.ext fun i hi => ?_
    simp only [Vector.getElem_ofFn]
    by_cases hia : i = a.val
    · subst hia
      have h0 : ¬ ((⟨a.val, hi⟩ : Fin 4) ∈ l) := hn'.1
      rw [if_neg h0, if_pos (List.mem_cons_self ..)]
      simp
    · have hne : (⟨i, hi⟩ : Fin 4) ≠ a := fun e => hia (congrArg Fin.val e)
      have hne' : ¬ a.val = i := fun e => hia e.symm
      simp only [List.mem_cons, hne, false_or]
      simp [hne']

theorem mem_srcQueues (l : List VSrc) (q : Fin 4) : q ∈ srcQueues l ↔ VSrc.vq q ∈ l := by
  unfold srcQueues
  rw [List.mem_eraseDups, List.mem_filterMap]
  constructor
  · rintro ⟨a, ha, hb⟩
    split at hb <;> simp_all
  · intro h; exact ⟨_, h, rfl⟩

theorem nodup_eraseDups {α : Type} [DecidableEq α] (l : List α) : l.eraseDups.Nodup := by
  generalize hn : l.length = n
  induction n using Nat.strongRecOn generalizing l with
  | ind n ih =>
    cases l with
    | nil => simp
    | cons a t =>
      rw [List.eraseDups_cons, List.nodup_cons]
      refine ⟨fun h => ?_, ih _ ?_ _ rfl⟩
      · have := (List.mem_filter.mp (List.mem_eraseDups.mp h)).2
        simp at this
      · have := List.length_filter_le (fun b => !b == a) t
        simp only [List.length_cons] at hn; omega

theorem nodup_srcQueues (l : List VSrc) : (srcQueues l).Nodup := nodup_eraseDups _

/-! ### Delivering results (R218) -/

theorem VBody.deliver (u : State) (d : VDst) (m : BitVec 64) (v : Lanes) (b : Nat) :
    VBody u (u.deliver d m v b) := by
  cases d with
  | v k =>
    simp only [State.deliver]
    split
    · exact (VBody.updCarried u _).trans (VBody.writeV _ _ _ _)
    · exact (VBody.readsIf u _).trans (VBody.writeV _ _ _ _)
  | wq => simp only [State.deliver]; exact VBody.updQ u _
  | mq => simp only [State.deliver]; exact VBody.updQ u _
  | discard => exact VBody.refl u

/-- The vector engine after results are delivered: only the lanes of a register move. -/
theorem State.deliver_vec (u : State) (d : VDst) (m : BitVec 64) (v : Lanes) (b : Nat) :
    ∃ p, (u.deliver d m v b).core.vec = { u.core.vec with
      v := (match d with
        | .v k => u.core.vec.v.set (u.core.vec.phys k).val (mergeLanes m v u.core.vec.v[u.core.vec.phys k])
            (u.core.vec.phys k).isLt
        | _ => u.core.vec.v)
      pendV := p } := by
  cases d with
  | v k =>
    refine ⟨(u.deliver (.v k) m v b).core.vec.pendV, ?_⟩
    simp only [State.deliver]
    split
    · rfl
    · simp only [State.writeV, State.upd, State.readsIf_vec]
  | wq => exact ⟨_, rfl⟩
  | mq => exact ⟨_, rfl⟩
  | discard => exact ⟨_, rfl⟩

theorem State.deliver_q (u : State) (d : VDst) (m : BitVec 64) (v : Lanes) (b : Nat) :
    (let e : LaneEntry := { lanes := mergeLanes m v (.replicate 64 0), mask := m }
     (u.deliver d m v b).core.q = { u.core.q with
       wq := u.core.q.wq ++ (if d = .wq then [e] else [])
       mq := u.core.q.mq ++ (if d = .mq then [e] else []) }) := by
  cases d with
  | v k =>
    simp only [State.deliver]
    split <;> simp [State.writeV, State.upd, State.wholeV]
  | wq => simp [State.deliver, State.updQ]
  | mq => simp [State.deliver, State.updQ]
  | discard => simp [State.deliver]

theorem mergeLanes_all (v o : Lanes) : mergeLanes (BitVec.allOnes 64) v o = v := by
  refine Vector.ext fun i hi => ?_
  simp only [mergeLanes, Vector.getElem_ofFn, BitVec.getLsbD_allOnes, hi, decide_true, if_true]
  rfl

/-! ### A vector word's act -/

theorem vShadow_none {c : Core} {vs : List (Fin 24)} {ps : List (Fin 16)}
    (hv : ∀ k ∈ vs, oldsOf c.vec.pendV k.val c.tick = [])
    (hp : ∀ k ∈ ps, oldsOf c.vec.pendP k.val c.tick = []) : vShadow c vs ps = none := by
  unfold vShadow
  split
  · rfl
  · have h1 : vs.find? (fun k => !(oldsOf c.vec.pendV k.val c.tick).isEmpty) = none :=
      List.find?_eq_none.mpr fun k hk => by simp [hv k hk]
    have h2 : ps.find? (fun k => k ≠ 0 && !(oldsOf c.vec.pendP k.val c.tick).isEmpty) = none :=
      List.find?_eq_none.mpr fun k hk => by simp [hp k hk]
    simp only [h1, h2]

/-- What `vecCalm` says of each source, predicate and queue. -/
theorem vecCalm_srcs {s : State} {srcs : List VSrc} {ps : List (Fin 16)} {d : VDst}
    (h : vecCalm s srcs ps d = true) {a : VSrc} (ha : a ∈ srcs) (k : Fin 24) (hk : a = .v k) :
    oldsOf s.core.vec.pendV (s.core.vec.phys k).val s.core.tick = [] := by
  subst hk
  simp only [vecCalm, Bool.and_eq_true, List.all_eq_true] at h
  exact List.isEmpty_iff.mp (h.1.2 _ (by
    unfold srcRegs; exact List.mem_filterMap.mpr ⟨_, ha, rfl⟩))

theorem vecCalm_preds {s : State} {srcs : List VSrc} {ps : List (Fin 16)} {d : VDst}
    (h : vecCalm s srcs ps d = true) {p : Fin 16} (hp : p ∈ ps) :
    oldsOf s.core.vec.pendP (s.core.vec.physP p).val s.core.tick = [] := by
  simp only [vecCalm, Bool.and_eq_true, List.all_eq_true] at h
  exact List.isEmpty_iff.mp (h.2 _ (List.mem_map_of_mem hp))

/-- A vector word that can issue: it issues with what its body leaves, its source queues popped. The body
runs on the state as it stands, a phase perhaps irreversible. -/
theorem vWord_spec {tk : Tok} {i : Instr} {srcs : List VSrc} {ps : List (Fin 16)} {vs : List (Fin 24)}
    {d : VDst} {s : State} {check : State → Option TrapRec} {body : State → State} {x : Entry}
    {rest : List QItem} (h : headWord .vector s = some (x, rest)) (hg : engGoes .vector tk x s = true)
    (hc : vecCalm s srcs ps d = true) (hvs : ∀ k ∈ vs, oldsOf s.core.vec.pendV k.val s.core.tick = [])
    (hck : check s = none) (hb : ∀ b, VBody (s.readsIf b) (body (s.readsIf b))) :
    ∃ b t, vWord tk i srcs ps vs d s check body = .next t ∧ EngIssues .vector tk x rest s t ∧
      RestSame s t ∧ t.core.mx = s.core.mx ∧ t.core.vec = (body (s.readsIf b)).core.vec ∧
      t.core.q = { (body (s.readsIf b)).core.q with
        vq := Vector.ofFn fun q => if VSrc.vq q ∈ srcs then (body (s.readsIf b)).core.q.vq[q].tail
          else (body (s.readsIf b)).core.q.vq[q] } := by
  have hq : ((srcQueues srcs).any (fun q => s.core.q.vq[q].isEmpty) || !s.core.dstRoom d) = false := by
    have h' := hc
    simp only [vecCalm, Bool.and_eq_true, List.all_eq_true] at h'
    simp only [Bool.or_eq_false_iff, List.any_eq_false, Bool.not_eq_false']
    exact ⟨fun q hq => by simpa using h'.1.1.1 q hq, h'.1.1.2⟩
  have hs : vShadow s.core (srcRegs s.core.vec srcs ++ vs) (ps.map s.core.vec.physP) = none := by
    refine vShadow_none (fun k hk => ?_) (fun k hk => ?_)
    · rcases List.mem_append.mp hk with hk | hk
      · simp only [vecCalm, Bool.and_eq_true, List.all_eq_true] at hc
        exact List.isEmpty_iff.mp (hc.1.2 k hk)
      · exact hvs k hk
    · simp only [vecCalm, Bool.and_eq_true, List.all_eq_true] at hc
      exact List.isEmpty_iff.mp (hc.2 k hk)
  obtain ⟨b, hbr⟩ : ∃ b, vReads (srcRegs s.core.vec srcs ++ vs) (ps.map s.core.vec.physP) s = s.readsIf b :=
    ⟨_, rfl⟩
  obtain ⟨p1, p2, p3⟩ := popAll_spec (srcQueues srcs) (nodup_srcQueues srcs) (body (s.readsIf b))
  have hB := ((VBody.readsIf s b).trans (hb b)).trans p1
  obtain ⟨i1, i2, -⟩ := issueWord_spec (tk := tk) {} h hB.toEngBody
  refine ⟨b, _, ?_, i1, i2.restSame hB.rest, i2.mx.trans hB.mx, i2.vec.trans p2, i2.q.trans ?_⟩
  · unfold vWord
    refine engWord_issue h hg ?_
    simp only [hq, hs, hck, hbr, Bool.false_eq_true, if_false]
  · rw [p3]
    simp only [mem_srcQueues]

/-! ### Lane by lane (R137, R218) -/

theorem finRange_val : (List.finRange 64).map (fun i : Fin 64 => i.val) = List.range 64 := by decide

theorem lanesBy_lane (m : BitVec 64) (f : Nat → Word × FlagBits) (nan : Nat → Bool) (i : Fin 64) :
    (lanesBy m f nan).1[i] = (f i.val).1 := by
  simp [lanesBy]

theorem lanesBy_flags (m : BitVec 64) (f : Nat → Word × FlagBits) (nan : Nat → Bool) :
    (lanesBy m f nan).2.1 = laneFlags m fun i => (f i.val).2 := by
  simp only [lanesBy, laneFlags]
  rw [← finRange_val, List.filter_map, List.foldl_map, List.foldl_filter]
  congr 1
  funext a i
  simp

theorem lanesBy_count (m : BitVec 64) (f : Nat → Word × FlagBits) (nan : Nat → Bool) :
    (lanesBy m f nan).2.2 = laneCount m fun i => nan i.val := by
  simp only [lanesBy, laneCount]
  rw [← finRange_val, List.filter_map, List.filter_map, List.length_map, List.filter_filter]
  congr 1
  refine List.filter_congr fun i _ => ?_
  simp [Function.comp, Bool.and_comm]

/-- The delivery that ends a word's body gives what `Delivers` says. -/
theorem delivers_of {s u t : State} {d : VDst} {srcs : List VSrc} {m : BitVec 64} {v : Lanes}
    {f : Fin 64 → Word} {n : Nat} (hv : u.core.vec.v = s.core.vec.v) (hb : u.core.vec.vb = s.core.vec.vb)
    (hq : u.core.q = s.core.q) (hf : ∀ i : Fin 64, v[i] = f i)
    (tv : t.core.vec.v = (u.deliver d m v n).core.vec.v)
    (tq : t.core.q = { (u.deliver d m v n).core.q with
      vq := Vector.ofFn fun q => if VSrc.vq q ∈ srcs then (u.deliver d m v n).core.q.vq[q].tail
        else (u.deliver d m v n).core.q.vq[q] }) : Delivers d srcs m f s t := by
  obtain ⟨p, hp⟩ := State.deliver_vec u d m v n
  have hph : ∀ k, u.core.vec.phys k = s.core.vec.phys k := fun k => by simp [Vec.phys, hb]
  refine ⟨fun r => ?_, ?_⟩
  · have e : t.core.vec.v[r] = (match d with
        | .v k => u.core.vec.v.set (u.core.vec.phys k).val (mergeLanes m v u.core.vec.v[u.core.vec.phys k])
            (u.core.vec.phys k).isLt
        | _ => u.core.vec.v)[r] := by rw [tv, hp]
    rw [e]
    cases d with
    | v k =>
      simp only [hph, hv]
      by_cases hr : r = s.core.vec.phys k
      · subst hr
        rw [if_pos rfl]
        refine Vector.ext fun i hi => ?_
        simp only [Fin.getElem_fin, Vector.getElem_set_self, mergeLanes, Vector.getElem_ofFn]
        split
        · exact hf ⟨i, hi⟩
        · rfl
      · rw [if_neg hr]
        have : (s.core.vec.phys k).val ≠ r.val := fun e => hr (Fin.ext e.symm)
        simp only [Fin.getElem_fin, Vector.getElem_set_ne _ _ this]
    | wq => simp only; rw [hv]
    | mq => simp only; rw [hv]
    | discard => simp only; rw [hv]
  · have e := State.deliver_q u d m v n
    simp only at e
    have he : mergeLanes m v (.replicate 64 0) = Vector.ofFn fun i => if m.getLsbD i.val then f i else 0 := by
      refine Vector.ext fun i hi => ?_
      simp only [mergeLanes, Vector.getElem_ofFn]
      split
      · exact hf ⟨i, hi⟩
      · simp
    rw [tq, e, hq, he]

/-- What a delivery with a word's flags leaves of the rest of the vector engine. -/
theorem vecRest_of {s u t : State} {d : VDst} {m : BitVec 64} {v : Lanes} {n k : Nat} {fl : FlagBits}
    (hu : u.core.vec = s.core.vec) (tv : t.core.vec = ((u.deliver d m v n).vflag fl k).core.vec) :
    VecRest fl k s t := by
  obtain ⟨p, hp⟩ := State.deliver_vec u d m v n
  have e : t.core.vec = { (u.deliver d m v n).core.vec with
      vflags := (u.deliver d m v n).core.vec.vflags.merge fl k } := tv
  rw [hp] at e
  unfold VecRest
  rw [e]
  simp only [hu, FlagReg.merge, addNanc, BitVec.toNat_ofNat, true_and]
  omega

/-- The same for a delivery without flags. -/
theorem vecRest_of' {s u t : State} {d : VDst} {m : BitVec 64} {v : Lanes} {n : Nat}
    (hu : u.core.vec = s.core.vec) (tv : t.core.vec = (u.deliver d m v n).core.vec) : VecRest 0 0 s t := by
  obtain ⟨p, hp⟩ := State.deliver_vec u d m v n
  rw [hp] at tv
  unfold VecRest
  rw [tv]
  have := s.core.vec.vflags.nanc.isLt
  simp only [hu, true_and]
  exact ⟨by simp, by omega⟩

/-- Reading a source, on the state that a word's body starts from. -/
theorem State.readsIf_readSrc {s : State} (b : Bool) {a : VSrc}
    (h : ∀ k, a = .v k → oldsOf s.core.vec.pendV (s.core.vec.phys k).val s.core.tick = []) :
    (s.readsIf b).readSrc a = (srcLanes s a, s.readsIf b) := by
  rw [State.readSrc_calm (by simpa using h), srcLanes_congr (s := s) (by simp) (by simp)]

theorem State.readsIf_readP {s : State} (b : Bool) {p : Fin 16}
    (h : oldsOf s.core.vec.pendP (s.core.vec.physP p).val s.core.tick = []) :
    (s.readsIf b).readP ((s.readsIf b).core.vec.physP p) = (predVal s p, s.readsIf b) := by
  rw [State.readP_calm (by simpa using h), predVal_congr (s := s) (by simp)]

/-- A word of two sources that works lane by lane (R218, R220, R222). -/
theorem vLane2_spec {mk : Tok → VDst → VSrc → VSrc → Fin 16 → Instr} {f : Word → Word → Word × FlagBits}
    {fp : Bool} {n : Nat}
    (he : ∀ tk d a b p s, exec (mk tk d a b p) s = vLane2 f fp n tk (mk tk d a b p) d a b p s) :
    lanewise2 mk f fp := by
  intro s tk d a b p x rest h hs hg hc
  have hgo : engGoes .vector tk x s = true := by simp [engGoes, hg]
  have r : ∀ c, (s.readsIf c).readSrc a = (srcLanes s a, s.readsIf c) ∧
      (s.readsIf c).readSrc b = (srcLanes s b, s.readsIf c) ∧
      (s.readsIf c).readP ((s.readsIf c).core.vec.physP p) = (predVal s p, s.readsIf c) := fun c =>
    ⟨State.readsIf_readSrc c (vecCalm_srcs hc (by simp)), State.readsIf_readSrc c (vecCalm_srcs hc (by simp)),
      State.readsIf_readP c (vecCalm_preds hc (by simp))⟩
  rw [he]
  unfold vLane2
  obtain ⟨c, t, h1, h2, h3, h4, h5, h6⟩ := vWord_spec (i := mk tk d a b p) (vs := []) (check := noCheck)
    (body := fun s0 =>
      let (x, s1) := s0.readSrc a
      let (y, s2) := s1.readSrc b
      let (m, s3) := s2.readP (s2.core.vec.physP p)
      let (v, fl, n') := lanesBy m (fun i => f (vget x i 0) (vget y i 0))
        fun i => fp && (isNaN (vget x i 0) || isNaN (vget y i 0))
      (s3.deliver d m v n).vflag fl n') h hgo hc (by simp) rfl (fun c => by
        simp only [r c]
        exact (VBody.deliver _ _ _ _ _).trans (VBody.vflag _ _ _))
  simp only [r c] at h5 h6
  refine ⟨t, h1, h2, h3, h4, ?_, ?_⟩
  · refine delivers_of (u := s.readsIf c) (v := (lanesBy (predVal s p)
      (fun i => f (vget (srcLanes s a) i 0) (vget (srcLanes s b) i 0))
      fun i => fp && (isNaN (vget (srcLanes s a) i 0) || isNaN (vget (srcLanes s b) i 0))).1) (n := n)
      (by simp) (by simp) (by simp) (fun i => ?_) (by rw [h5]; rfl) h6
    rw [lanesBy_lane]; simp only [vget_srcLanes _ _ _ i.isLt]
  · have := vecRest_of (s := s) (u := s.readsIf c) (by simp) h5
    rw [lanesBy_flags, lanesBy_count] at this
    simpa only [vget_srcLanes _ _ _ (Fin.isLt _)] using this

/-- A word of one source that works lane by lane. -/
theorem vLane1_spec {mk : Tok → VDst → VSrc → Fin 16 → Instr} {f : Word → Word × FlagBits} {fp : Bool} {n : Nat}
    (he : ∀ tk d a p s, exec (mk tk d a p) s = vLane1 f fp n tk (mk tk d a p) d a p s) :
    lanewise1 mk f fp := by
  intro s tk d a p x rest h hs hg hc
  have hgo : engGoes .vector tk x s = true := by simp [engGoes, hg]
  have r : ∀ c, (s.readsIf c).readSrc a = (srcLanes s a, s.readsIf c) ∧
      (s.readsIf c).readP ((s.readsIf c).core.vec.physP p) = (predVal s p, s.readsIf c) := fun c =>
    ⟨State.readsIf_readSrc c (vecCalm_srcs hc (by simp)), State.readsIf_readP c (vecCalm_preds hc (by simp))⟩
  rw [he]
  unfold vLane1
  obtain ⟨c, t, h1, h2, h3, h4, h5, h6⟩ := vWord_spec (i := mk tk d a p) (vs := []) (check := noCheck)
    (body := fun s0 =>
      let (x, s1) := s0.readSrc a
      let (m, s2) := s1.readP (s1.core.vec.physP p)
      let (v, fl, n') := lanesBy m (fun i => f (vget x i 0)) fun i => fp && isNaN (vget x i 0)
      (s2.deliver d m v n).vflag fl n') h hgo hc (by simp) rfl (fun c => by
        simp only [r c]
        exact (VBody.deliver _ _ _ _ _).trans (VBody.vflag _ _ _))
  simp only [r c] at h5 h6
  refine ⟨t, h1, h2, h3, h4, ?_, ?_⟩
  · refine delivers_of (u := s.readsIf c) (v := (lanesBy (predVal s p)
      (fun i => f (vget (srcLanes s a) i 0)) fun i => fp && isNaN (vget (srcLanes s a) i 0)).1) (n := n)
      (by simp) (by simp) (by simp) (fun i => ?_) (by rw [h5]; rfl) h6
    rw [lanesBy_lane]; simp only [vget_srcLanes _ _ _ i.isLt]
  · have := vecRest_of (s := s) (u := s.readsIf c) (by simp) h5
    rw [lanesBy_flags, lanesBy_count] at this
    simpa only [vget_srcLanes _ _ _ (Fin.isLt _)] using this

/-! ### Words that write every lane (R218) -/

/-- A word that delivers lanes under a full mask with flags. -/
theorem writesAll_of {i : Instr} {tk : Tok} {d : VDst} {srcs : List VSrc} {ps : List (Fin 16)} {s : State}
    {check : State → Option TrapRec} {body : State → State} {f : Fin 64 → Word} {fl : FlagBits} {nans n : Nat}
    (he : exec i s = vWord tk i srcs ps [] d s check body) (hck : vecCalm s srcs ps d = true → check s = none)
    (hb : vecCalm s srcs ps d = true → ∀ c, ∃ c' v, (∀ k : Fin 64, v[k] = f k) ∧
      body (s.readsIf c) = (((s.readsIf c).readsIf c').deliver d (BitVec.allOnes 64) v n).vflag fl nans) :
    writesAll i tk d srcs ps f fl nans s := by
  intro x rest h _ hg hc
  obtain ⟨c, t, h1, h2, h3, h4, h5, h6⟩ := vWord_spec (tk := tk) (i := i) (vs := []) (check := check) (body := body) h
    (by simp [engGoes, hg]) hc (by simp) (hck hc) (fun c => by
      obtain ⟨c', v, -, e⟩ := hb hc c
      rw [e]
      exact ((VBody.readsIf _ _).trans (VBody.deliver _ _ _ _ _)).trans (VBody.vflag _ _ _))
  obtain ⟨c', v, hv, e⟩ := hb hc c
  rw [e] at h5 h6
  exact ⟨t, he.trans h1, h2, h3, h4, delivers_of (u := (s.readsIf c).readsIf c') (n := n) (by simp) (by simp)
    (by simp) hv (by rw [h5]; rfl) h6, vecRest_of (u := (s.readsIf c).readsIf c') (by simp) h5⟩

/-- The same for a word without flags. -/
theorem writesAll_of' {i : Instr} {tk : Tok} {d : VDst} {srcs : List VSrc} {ps : List (Fin 16)} {s : State}
    {body : State → State} {f : Fin 64 → Word} {n : Nat}
    (he : exec i s = vWord tk i srcs ps [] d s noCheck body)
    (hb : vecCalm s srcs ps d = true → ∀ c, ∃ c' v, (∀ k : Fin 64, v[k] = f k) ∧
      body (s.readsIf c) = ((s.readsIf c).readsIf c').deliver d (BitVec.allOnes 64) v n) :
    writesAll i tk d srcs ps f 0 0 s := by
  intro x rest h _ hg hc
  obtain ⟨c, t, h1, h2, h3, h4, h5, h6⟩ := vWord_spec (tk := tk) (i := i) (vs := []) (check := noCheck) (body := body) h
    (by simp [engGoes, hg]) hc (by simp) rfl (fun c => by
      obtain ⟨c', v, -, e⟩ := hb hc c
      rw [e]
      exact (VBody.readsIf _ _).trans (VBody.deliver _ _ _ _ _))
  obtain ⟨c', v, hv, e⟩ := hb hc c
  rw [e] at h5 h6
  exact ⟨t, he.trans h1, h2, h3, h4, delivers_of (u := (s.readsIf c).readsIf c') (n := n) (by simp) (by simp)
    (by simp) hv (by rw [h5]) h6, vecRest_of' (u := (s.readsIf c).readsIf c') (by simp) h5⟩

end Sys2Proof.Machine
end

