-- ==== Sys2Proof/Tests/Slice0.lean ====
section
/-! SUPPORT. Tests: ill-formed terms, words written out from the spec's tables, and for every statement
with hypotheses a state and operands that meet them. -/

set_option maxRecDepth 20000

namespace Sys2Proof.Tests

open Sys2Proof Sys2Proof.Machine

set_option Elab.async false

/-! ### Ill-formed terms: one for each check of WellFormed -/

theorem test_bad_compare : wellFormed (.ceq 12 0 0) = false := by decide
theorem test_bad_compare_imm : wellFormed (.ceqi 12 0 0) = false := by decide
theorem test_bad_steer_logic : wellFormed (.sand 0 0 12) = false := by decide
theorem test_bad_steer_copy : wellFormed (.smov 0 12) = false := by decide
theorem test_bad_steer_set : wellFormed (.sset 12) = false := by decide
theorem test_bad_prepare : wellFormed (.prep 12 0) = false := by decide
theorem test_bad_branch : wellFormed (.bt 12 .none) = false := by decide
theorem test_bad_nest : wellFormed (.ngo 0 65) = false ∧ wellFormed (.ngo 0 0) = false := by decide
theorem test_bad_break : wellFormed (.nbrk 12 0) = false := by decide
theorem test_bad_gather_rows : wellFormed (.ldx ⟨false, false, false, false⟩ (.tile 0) 0 0 65) = false := by
  decide
theorem test_bad_advance_level : wellFormed (.ladv ⟨false, false, false, false⟩ 0 6) = false := by decide
theorem test_bad_product :
    wellFormed (.mma ⟨false, false, false, false⟩ ⟨0, 0, .tile 0, false, .scf, false, false⟩ ⟨0, 1, false⟩)
      = false ∧
    wellFormed (.mma ⟨false, false, false, false⟩ ⟨0, 0, .wsf, false, .none, false, false⟩ ⟨0, 1, true⟩)
      = false := by decide
theorem test_bad_product_run : wellFormed (.mrun ⟨false, false, false, false⟩ 0 ⟨8, 1, false⟩) = false ∧
    wellFormed (.mrun ⟨false, false, false, false⟩ 0 ⟨0, 33, false⟩) = false := by decide
theorem test_bad_grant : wellFormed (.sdrun 0) = false := by decide
theorem test_bad_vector_compare : wellFormed (.vcmp ⟨false, false, false, false⟩ .un .i 0 .vz .vz) = false := by
  decide
theorem test_bad_predicate_word : wellFormed (.plog ⟨false, false, false, false⟩ .not 0 0 1) = false ∧
    wellFormed (.plog ⟨false, false, false, false⟩ .all 0 1 0) = false := by decide
theorem test_bad_drain : wellFormed (.vdrain ⟨false, false, false, false⟩ 22 false 0) = false := by decide
theorem test_bad_skip : wellFormed (.listSkipif 0 0 false 256 0) = false := by decide
theorem test_bad_jump : wellFormed (.listJump 0 0 false 255) = false := by decide
theorem test_bad_call : wellFormed (.listCall 0 0 false 1) = false := by decide
theorem test_bad_launch : wellFormed (.launch 0 0 0 false
    ⟨0, 0, 0, 0, 0, 0, 0, false, false, 0, 0, 0, []⟩) = false := by decide
theorem test_bad_host_write : wellFormed (.hostMemAccess true 0 1 []) = false := by decide
theorem test_bad_flit : wellFormed (.dataFlit 0 []) = false := by decide
theorem test_bad_idle_flit : wellFormed (.idleFlit 0 []) = false := by decide
theorem test_bad_retry : wellFormed (.retryRequest 0 []) = false := by decide
theorem test_bad_debug_write : wellFormed (.debugInterfaceWrite 0 (.s 12) 0) = false := by decide
theorem test_bad_slot : wellFormed (.slotLoad ⟨0, [], 0, [], [], 0, 0, 0, [], [], 0, 0, [], []⟩) = false := by decide
theorem test_bad_report : wellFormed (.attestationReport 0 []) = false := by decide

/-! ### Decoding: a word written out from the table's fields for every word of the table -/

theorem test_decode_alu_1 :
    decode 0x002FE500 none = .ok (.add 11 31 5) ∧
    decode 0x0036A201 none = .ok (.sub 13 21 2) ∧
    decode 0x000F7202 none = .ok (.and 3 27 18) ∧
    decode 0x00119303 none = .ok (.or 4 12 19) ∧
    decode 0x000BD104 none = .ok (.xor 2 30 17) ∧
    decode 0x001C4305 none = .ok (.andn 7 2 3) ∧
    decode 0x0039C306 none = .ok (.sll 14 14 3) ∧
    decode 0x00207207 none = .ok (.srl 8 3 18) ∧
    decode 0x00385B08 none = .ok (.sra 14 2 27) ∧
    decode 0x004C9F09 none = .ok (.rotl 19 4 31) ∧
    decode 0x0022B50A none = .ok (.mul 8 21 21) ∧
    decode 0x004FE20B none = .ok (.mulh 19 31 2) ∧
    decode 0x004E6D0C none = .ok (.mulhu 19 19 13) ∧
    decode 0x0009020D none = .ok (.div 2 8 2) ∧
    decode 0x004B850E none = .ok (.divu 18 28 5) ∧
    decode 0x0029C50F none = .ok (.rem 10 14 5) ∧
    decode 0x00489310 none = .ok (.remu 18 4 19) ∧
    decode 0x002A5B11 none = .ok (.min 10 18 27) ∧
    decode 0x0058C412 none = .ok (.max 22 6 4) ∧
    decode 0x004E7513 none = .ok (.minu 19 19 21) := by
  and_intros <;> rfl

theorem test_decode_alu_2 :
    decode 0x001D8414 none = .ok (.maxu 7 12 4) ∧
    decode 0x004AE015 none = .ok (.clz 18 23) ∧
    decode 0x000E6016 none = .ok (.ctz 3 19) ∧
    decode 0x000A8017 none = .ok (.popc 2 20) := by
  and_intros <;> rfl

theorem test_decode_immediate :
    decode 0x009E15C6 none = .ok (.addi 7 16 5574) ∧
    decode 0x0149D8E0 none = .ok (.andi 18 14 6368) ∧
    decode 0x01ADF2BD none = .ok (.ori 11 15 4797) ∧
    decode 0x0279EB93 none = .ok (.xori 30 15 2963) ∧
    decode 0x02A90033 none = .ok (.slli 10 8 51) ∧
    decode 0x031AE032 none = .ok (.srli 6 23 50) ∧
    decode 0x03A06025 none = .ok (.srai 8 3 37) ∧
    decode 0x042A19CE none = .ok (.lui 10 137678) ∧
    decode 0x04C38025 none = .ok (.adrp 16 229413) := by
  and_intros <;> rfl

theorem test_decode_compare :
    decode 0x05330F00 none = .ok (.ceq 6 24 15) ∧
    decode 0x052A8301 none = .ok (.cne 5 20 3) ∧
    decode 0x05122E02 none = .ok (.clt 2 17 14) ∧
    decode 0x051B2B03 none = .ok (.cge 3 25 11) ∧
    decode 0x051BD004 none = .ok (.cltu 3 30 16) ∧
    decode 0x05385F05 none = .ok (.cgeu 7 2 31) ∧
    decode 0x05587906 none = .ok (.cbs 11 3 25) ∧
    decode 0x054A7A07 none = .ok (.cbc 9 19 26) ∧
    decode 0x05B2EC80 none = .ok (.ceqi 6 11 11392) ∧
    decode 0x06351FCA none = .ok (.cnei 6 20 8138) ∧
    decode 0x06D69D33 none = .ok (.clti 10 26 7475) ∧
    decode 0x0716C5FE none = .ok (.cgei 2 27 1534) ∧
    decode 0x07AC2C9D none = .ok (.cltui 5 16 11421) := by
  and_intros <;> rfl

theorem test_decode_steer :
    decode 0x08590800 none = .ok (.sand 11 2 1) ∧
    decode 0x082DD100 none = .ok (.sor 5 11 10) ∧
    decode 0x085C2A00 none = .ok (.sxor 11 8 5) ∧
    decode 0x083D8300 none = .ok (.snot 7 11) ∧
    decode 0x08308400 none = .ok (.smov 6 1) ∧
    decode 0x08400500 none = .ok (.sset 8) ∧
    decode 0x08300600 none = .ok (.sclr 6) ∧
    decode 0x089CE32A none = .ok (.prep 3 320298) ∧
    decode 0x09120000 none = .ok (.prepr 2 16) ∧
    decode 0x09888000 none = .ok (.bt 1 .nt) ∧
    decode 0x09AA8000 none = .ok (.bf 5 .nt) ∧
    decode 0x09A50000 none = .ok (.ba 4 .tk) ∧
    decode 0x09BF0000 none = .ok (.bl 7 .tk) := by
  and_intros <;> rfl

theorem test_decode_memory :
    decode 0x0A0CD0CE none = .ok (.ldb 3 6 8 206) ∧
    decode 0x0AC93E47 none = .ok (.ldbu 18 9 15 71) ∧
    decode 0x0B6DDD1A none = .ok (.ldh 27 14 14 282) ∧
    decode 0x0BA6EFFA none = .ok (.ldhu 9 23 7 506) ∧
    decode 0x0C32DEC3 none = .ok (.ldw 12 22 15 195) ∧
    decode 0x0CFD062B none = .ok (.ldwu 31 8 3 43) ∧
    decode 0x0D18A952 none = .ok (.ldd 6 5 4 338) ∧
    decode 0x0DA031AA none = .ok (.stb 8 1 8 426) ∧
    decode 0x0E4CCA91 none = .ok (.sth 19 6 5 145) ∧
    decode 0x0E84AF12 none = .ok (.stw 1 5 7 274) ∧
    decode 0x0F3294A4 none = .ok (.std 12 20 10 164) ∧
    decode 0x0FFC8081 none = .ok (.ldl 31 32897) ∧
    decode 0x1002C311 none = .ok (.lpool 181009) ∧
    decode 0x10F23F1B none = .ok (.amow 28 17 31 .swap .rel .sys) ∧
    decode 0x116A4D7A none = .ok (.amod 26 18 13 .max .rel .dev) ∧
    decode 0x1186A261 none = .ok (.fence .die .full 41569) := by
  and_intros <;> rfl

theorem test_decode_special :
    decode 0x123400FF none = .ok (.mfs 13 255) ∧
    decode 0x1280E114 none = .ok (.mts 7 276) ∧
    decode 0x137E11AC none = .ok (.mtsi 4034 428) ∧
    decode 0x18C0C1C3 none = .ok (.mtsr 8 6 451) := by
  and_intros <;> rfl

theorem test_decode_queue :
    decode 0x13816001 none = .ok (.qpush 11 .mbox) ∧
    decode 0x14100001 none = .ok (.qpop 4 .rq1) ∧
    decode 0x14CC0003 none = .ok (.qcnt 19 .wsq) ∧
    decode 0x18000003 none = .ok (.jigRec 3) ∧
    decode 0x18108000 none = .ok (.jigEnd 1) ∧
    decode 0x18218001 none = .ok (.jigPlay 3 1) ∧
    decode 0x183051A0 none = .ok (.jigStop 20 13) ∧
    decode 0x18400001 none = .ok (.jigDrop 1) ∧
    decode 0x19005520 none = .ok (.pqpush 21 9) ∧
    decode 0x191F8180 none = .ok (.pqpop 31 12) ∧
    decode 0x192A0180 none = .ok (.pqtop 20 12) ∧
    decode 0x19300000 none = .ok (.pqclr) ∧
    decode 0x19480000 none = .ok (.pqcnt 16) := by
  and_intros <;> rfl

theorem test_decode_sync :
    decode 0x15000009 none = .ok (.bar 9) ∧
    decode 0x158019FA none = .ok (.plumb 6650) ∧
    decode 0x1603E000 none = .ok (.twait 31) ∧
    decode 0x1680BEEF none = .ok (.sigev (.imm 0xBEEF)) ∧
    decode 0x16CD0000 none = .ok (.sigev (.reg 19)) ∧
    decode 0x1700BEEF none = .ok (.waitev (.imm 0xBEEF)) ∧
    decode 0x174D0000 none = .ok (.waitev (.reg 19)) ∧
    decode 0x17800003 none = .ok (.phsw 3) := by
  and_intros <;> rfl

theorem test_decode_system :
    decode 0x19800011 none = .ok (.ngo 1 8) ∧
    decode 0x1A400001 none = .ok (.nbrk 8 1) ∧
    decode 0x1A80001E none = .ok (.waitq 30) ∧
    decode 0x1B00A72A none = .ok (.trap 42794) ∧
    decode 0x1B800000 none = .ok (.rft) ∧
    decode 0x1C000000 none = .ok (.retire) ∧
    decode 0x1CAC086C none = .ok (.nop 2885740) ∧
    decode 0x1D000000 none = .ok (.brk) := by
  and_intros <;> rfl

theorem test_decode_load :
    decode 0x3A059600 none = .ok (.ldt ⟨true, true, false, true⟩ 11 2 true true) ∧
    decode 0x3C0E1000 none = .ok (.ldq ⟨true, true, true, false⟩ 3 2) ∧
    decode 0x3E143800 none = .ok (.ldsc ⟨true, true, true, true⟩ true 7) ∧
    decode 0x3A19E22D none = .ok (.ldx ⟨true, true, false, true⟩ (.tile 7) 8 1 45) ∧
    decode 0x3A236200 none = .ok (.lgath ⟨true, true, false, true⟩ (.tile 13) 8 2) ∧
    decode 0x3828C2F0 none = .ok (.lland ⟨true, true, false, false⟩ (.tile 3) 47) ∧
    decode 0x26301802 none = .ok (.ladv ⟨false, false, true, true⟩ 3 2) ∧
    decode 0x22380000 none = .ok (.lnop ⟨false, false, false, true⟩) := by
  and_intros <;> rfl

theorem test_decode_matrix :
    decode 0x4617AD00 none = .ok (.mdrain ⟨false, false, true, true⟩ 3 (.vq 2) 6 true) ∧
    decode 0x461E0000 none = .ok (.azero ⟨false, false, true, true⟩ 3) ∧
    decode 0x5C27FC00 none = .ok (.aread ⟨true, true, true, false⟩ 3 63 2) ∧
    decode 0x562C5200 none = .ok (.apatch ⟨true, false, true, true⟩ 2 10 .add) ∧
    decode 0x42316800 none = .ok (.epset ⟨false, false, false, true⟩ 1 13) ∧
    decode 0x583E1000 none = .ok (.epcon ⟨true, true, false, false⟩ 6 2) ∧
    decode 0x52470000 none = .ok (.heaprd ⟨true, false, false, true⟩ 3 true) ∧
    decode 0x5E492000 none = .ok (.heapclr ⟨true, true, true, true⟩ 9) ∧
    decode 0x4E520000 none = .ok (.mchk ⟨false, true, true, true⟩ 1) ∧
    decode 0x5C580000 none = .ok (.mnop ⟨true, true, true, false⟩) := by
  and_intros <;> rfl

theorem test_decode_stream :
    decode 0xA0007000 none = .ok (.sdopen 14) ∧
    decode 0xA0080361 none = .ok (.sdrun 865) ∧
    decode 0xA0100000 none = .ok (.sdclose) ∧
    decode 0xA0180000 none = .ok (.sdstat) := by
  and_intros <;> rfl

theorem test_decode_vector_1 :
    decode 0x62024EA9 none = .ok (.vadd ⟨false, false, false, true⟩ (.v 9) (.v 7) (.v 10) 9) ∧
    decode 0x680CD699 none = .ok (.vsub ⟨false, true, false, false⟩ (.v 19) (.v 11) (.v 9) 9) ∧
    decode 0x6E1145EC none = .ok (.vmul ⟨false, true, true, true⟩ (.v 5) (.v 2) .lane 12) ∧
    decode 0x6C1F5F6A none = .ok (.vfma ⟨false, true, true, false⟩ .mq (.v 15) (.v 22) 10) ∧
    decode 0x7C2762EE none = .ok (.vmin ⟨true, true, true, false⟩ .mq (.v 17) (.v 14) 14) ∧
    decode 0x7E2F6259 none = .ok (.vmax ⟨true, true, true, true⟩ .mq (.v 17) (.v 5) 9) ∧
    decode 0x663463F1 none = .ok (.vabs ⟨false, false, true, true⟩ (.v 17) (.v 17) 1) ∧
    decode 0x7C3BF3F3 none = .ok (.vneg ⟨true, true, true, false⟩ (.v 15) (.vq 1) 3) ∧
    decode 0x744073FD none = .ok (.vrcp ⟨true, false, true, false⟩ (.v 1) (.vq 1) 13) ∧
    decode 0x66498BF8 none = .ok (.vrsq ⟨false, false, true, true⟩ (.v 6) (.v 5) 8) ∧
    decode 0x745125F1 none = .ok (.vexp2 ⟨true, false, true, false⟩ (.v 4) (.v 18) 1) ∧
    decode 0x6C5DA3F9 none = .ok (.vlog2 ⟨false, true, true, false⟩ (.v 22) (.v 17) 9) ∧
    decode 0x72643592 none = .ok (.viadd ⟨true, false, false, true⟩ (.v 16) (.vq 2) (.vq 1) 2) ∧
    decode 0x7E6C8484 none = .ok (.visub ⟨true, true, true, true⟩ (.v 18) (.v 2) (.v 8) 4) ∧
    decode 0x6A70B249 none = .ok (.vimul ⟨false, true, false, true⟩ (.v 2) (.vq 1) (.v 4) 9) ∧
    decode 0x707C839F none = .ok (.vimin ⟨true, false, false, false⟩ (.v 18) (.v 1) (.vq 1) 15) ∧
    decode 0x7E80DEBA none = .ok (.vimax ⟨true, true, true, true⟩ (.v 3) (.v 15) (.v 11) 10) ∧
    decode 0x728D227C none = .ok (.viminu ⟨true, false, false, true⟩ (.v 20) (.v 17) (.v 7) 12) ∧
    decode 0x6A93E32D none = .ok (.vimaxu ⟨false, true, false, true⟩ (.v 15) (.v 17) (.v 18) 13) ∧
    decode 0x709C7E8C none = .ok (.vand ⟨true, false, false, false⟩ (.v 17) .vz (.v 8) 12) := by
  and_intros <;> rfl

theorem test_decode_vector_2 :
    decode 0x72A77FE5 none = .ok (.vor ⟨true, false, false, true⟩ .mq .vz .lane 5) ∧
    decode 0x7EACBE7E none = .ok (.vxor ⟨true, true, true, true⟩ (.v 18) .vz (.v 7) 14) ∧
    decode 0x70B15C47 none = .ok (.vshl ⟨true, false, false, false⟩ (.v 5) (.v 14) (.v 4) 7) ∧
    decode 0x70BAC764 none = .ok (.vshr ⟨true, false, false, false⟩ (.v 11) (.v 3) (.v 22) 4) ∧
    decode 0x6EC0CF65 none = .ok (.vsra ⟨false, true, true, true⟩ (.v 3) (.v 7) (.v 22) 5) ∧
    decode 0x7AC9CAD9 none = .ok (.vcmp ⟨true, true, false, true⟩ .ne .i 12 (.v 21) (.v 22)) ∧
    decode 0x6CD15258 none = .ok (.vsel ⟨false, true, true, false⟩ (.v 5) (.v 9) (.v 5) 8) ∧
    decode 0x68DBFC10 none = .ok (.plog ⟨false, true, false, false⟩ .or 7 15 8) ∧
    decode 0x66E5B68A none = .ok (.vcvt ⟨false, false, true, true⟩ (.v 22) (.vq 3) .b2f .rdn true) ∧
    decode 0x78EBA2D2 none = .ok (.vpack ⟨true, true, false, false⟩ (.v 14) (.v 17) (.v 13) .w8) ∧
    decode 0x78F302B1 none = .ok (.vunpk ⟨true, true, false, false⟩ (.v 12) (.v 1) (.v 11) .w16) ∧
    decode 0x6EFAE3F2 none = .ok (.vquant ⟨false, true, true, true⟩ (.v 11) (.v 17) .e5) ∧
    decode 0x650209F2 none = .ok (.vdeq ⟨false, false, true, false⟩ (.v 8) (.v 4) .e5) ∧
    decode 0x6B0A45FF none = .ok (.vrsum ⟨false, true, false, true⟩ (.v 9) (.v 2) 15) ∧
    decode 0x7B11921D none = .ok (.vrmax ⟨true, true, false, true⟩ (.v 6) (.v 9) true 13) ∧
    decode 0x671BBC1B none = .ok (.vrmin ⟨false, false, true, true⟩ (.v 14) .lane true 11) ∧
    decode 0x7D27D2D3 none = .ok (.vperm ⟨true, true, true, false⟩ .discard (.v 9) (.v 13) 3) ∧
    decode 0x732C6700 none = .ok (.vbcst ⟨true, false, false, true⟩ (.v 17) (.v 19) 32) ∧
    decode 0x7932C7F5 none = .ok (.vmov ⟨true, true, false, false⟩ (.v 11) (.v 3) 5) ∧
    decode 0x633DCBBC none = .ok (.vsplt ⟨false, false, false, true⟩ (.v 23) 3004) := by
  and_intros <;> rfl

theorem test_decode_vector_3 :
    decode 0x6F4744A3 none = .ok (.vsplf ⟨false, true, true, true⟩ .mq 1187) ∧
    decode 0x6B4FFFF1 none = .ok (.vsplx ⟨false, true, false, true⟩ .discard 1) ∧
    decode 0x7750FFFD none = .ok (.vrand ⟨true, false, true, true⟩ (.v 3) 13) ∧
    decode 0x6B5FC7F0 none = .ok (.vrset ⟨false, true, false, true⟩ (.v 3)) ∧
    decode 0x7567D1F0 none = .ok (.vrskip ⟨true, false, true, false⟩ (.v 8)) ∧
    decode 0x656A7FF0 none = .ok (.vrget ⟨false, false, true, false⟩ (.v 9)) ∧
    decode 0x7D77C8F1 none = .ok (.vdefer ⟨true, true, true, false⟩ (.v 4) (.v 15) 1) ∧
    decode 0x6D7CBE17 none = .ok (.vdrain ⟨false, true, true, false⟩ 18 true 7) ∧
    decode 0x7F827FF0 none = .ok (.vdqn ⟨true, true, true, true⟩ (.v 9)) ∧
    decode 0x758FFFF0 none = .ok (.vloop ⟨true, false, true, false⟩) ∧
    decode 0x67908310 none = .ok (.vrply ⟨false, false, true, true⟩ (.v 2) 1 34) ∧
    decode 0x799A3E10 none = .ok (.vflag ⟨true, true, false, false⟩ (.v 8) true) ∧
    decode 0x65A7FFF0 none = .ok (.vnop ⟨false, false, true, false⟩) := by
  and_intros <;> rfl

theorem test_decode_copy :
    decode 0x86028800 none = .ok (.copy ⟨false, false, true, true⟩ 5 1) ∧
    decode 0x860A0000 none = .ok (.sqst ⟨false, false, true, true⟩ 4) ∧
    decode 0x9E280000 none = .ok (.rfence ⟨true, true, true, true⟩) ∧
    decode 0x8A358490 none = .ok (.atomv ⟨false, true, false, true⟩ 11 2 .addfs true) ∧
    decode 0x8A380000 none = .ok (.snop ⟨false, true, false, true⟩) := by
  and_intros <;> rfl

theorem test_decode_long_forms :
    decode 0x50007028 (some 0xE0204000)
      = .ok (.mma ⟨true, false, false, false⟩ ⟨0, 3, .wsf, false, .scf, true, false⟩ ⟨1, 4, false⟩) ∧
    decode 0x400C0000 (some 0xE0204000) = .ok (.mrun ⟨false, false, false, false⟩ 1 ⟨1, 4, false⟩) ∧
    decode 0x80102000 (some 0xE18000C8) = .ok (.xsend ⟨false, false, false, false⟩ 4 false 3 200) ∧
    decode 0x80181000 (some 0xE0050009) = .ok (.rsend ⟨false, false, false, false⟩ 2 5 9) ∧
    decode 0x80230100 (some 0xFFFF0009) = .ok (.rrecv ⟨false, false, false, false⟩ 6 .addf 0x1FFF 9) := by
  and_intros <;> rfl

/-- The refusals of R56, each with its REASON. -/
theorem test_decode_refusals :
    decode 0x1D800000 none = .error 0x01 ∧ decode 0x00000018 none = .error 0x02 ∧
    decode 0x19800082 none = .error 0x03 ∧ decode 0x1B800001 none = .error 0x04 ∧
    decode 0xE0000000 none = .error 0x05 ∧ decode 0xC0000000 none = .error 0x06 ∧
    decode 0x50007028 (some 0) = .error 0x07 ∧ decode 0x601E3FF9 none = .error 0x08 ∧
    decode 0x08E0001A none = .error 0x09 ∧ decode 0xB0100000 none = .error 0x0A := by
  and_intros <;> rfl

/-! ### Small states -/

/-- One core that runs in bank 0, alone in its gang. -/
def solo : State where
  core := { id := CoreId.ofNat 0, ctl := { run := .running } }
  others := []
  sys := {}
  turn := .control
  free := 0
  inputs := []

/-- The same with a second core in its gang. -/
def pair : State := { solo with others := [{ id := CoreId.ofNat 1, ctl := { run := .running } }] }

/-- General registers 1 to 3 hold values. -/
def withG (s : State) (x y z : DWord) : State :=
  s.updCtl fun c => { c with b0 := { c.b0 with g := ((c.b0.g.set 1 x).set 2 y).set 3 z } }

/-- A code image at address 0. -/
def withCode (s : State) (bs : List Byte) : State := s.updCtl fun c => { c with code := bs }

/-- A word without effect, four times. -/
def nops : List Byte := [0, 0, 0x80, 0x1C, 0, 0, 0x80, 0x1C, 0, 0, 0x80, 0x1C, 0, 0, 0x80, 0x1C]

/-- A head word that has been checked. -/
def head : Entry := { word := 0, matched := true }
/-- An engine with one word, or a word and what stands behind it. -/
def queued (s : State) (e : Engine) (q : List QItem) : State :=
  s.upd fun c => c.setEng e fun x => { x with queue := q }

/-- A phase has begun that can be retried. -/
def rollable (s : State) : State := s.upd fun c => c.commit c.ctl.pcq none

/-- g1 is in a shadow that ends at tick 5. -/
def shadowed : State := solo.updCtl fun c => { c with pend := [⟨1, 7, 5⟩] }

/-- Bank 1 runs. -/
def handler : State := solo.updCtl fun c => { c with bank1 := true }

/-- A user debug hook runs. -/
def hooked : State := solo.updRegs fun r => { r with hook := true }

/-- s1 holds a condition and a prepared target in the code image. -/
def prepared (c v h : Bool) (at' : Option Nat) (t : BitVec 46) : State :=
  (withCode solo nops).setSteer 1 fun _ => { cond := c, valid := v, held := h, setAt := at', target := t }

/-! ### Witnesses: hypotheses of the statements met -/

theorem test_met_register_words : ctlGoes solo [1, 2] = true ∧ ctlGoes shadowed [1, 2] = true ∧
    shadowed.core.mayRead 1 = [0, 7] ∧ ctlGoes handler [1, 2] = true ∧ (1 : Fin 16).val < 12 := by decide

theorem test_met_divide_corners :
    (withG solo 5 0 0).core.mayRead 2 = [0] ∧
    (withG solo 0x8000000000000000 0xFFFFFFFFFFFFFFFF 0).core.mayRead 1 = [0x8000000000000000] ∧
    (withG solo 0x8000000000000000 0xFFFFFFFFFFFFFFFF 0).core.mayRead 2 = [0xFFFFFFFFFFFFFFFF] ∧
    ctlGoes (withG solo 0x8000000000000000 0xFFFFFFFFFFFFFFFF 0) [1, 2] = true := by decide

theorem test_met_prepr : (8 : DWord) ∈ (withG solo 8 0 0).core.mayRead 1 ∧ (8 : DWord).toNat % 4 = 0 ∧
    (9 : DWord) ∈ (withG solo 9 0 0).core.mayRead 1 ∧ (9 : DWord).toNat % 4 ≠ 0 ∧
    ctlGoes (withG solo 9 0 0) [1] = true := by decide

theorem test_met_branch_taken : branchForm (.bt 1 .tk) = some (1, .tk, fun c => c, false) ∧
    ctlGoes (prepared true true false (some 0) 1) [] = true ∧
    fetchWaits { prepared true true false none 1 with turn := .control }.core
      ((prepared true true false none 1).core.steer 1) = false ∧
    plainStream (prepared true true false none 1) = true ∧
    ((prepared true true false none 1).core.fetch (targetAddr 1)).isSome = true := ⟨rfl, by decide⟩

theorem test_met_branch_not_taken : branchForm (.bf 1 .nt) = some (1, .nt, fun c => !c, false) ∧
    fetchWaits (prepared true false false none 1).core ((prepared true false false none 1).core.steer 1)
      = false ∧ (!((prepared true false false none 1).core.steer 1).cond) = false := ⟨rfl, by decide⟩

theorem test_met_branch_waits : fetchWaits (prepared true true false (some 0) 1).core
    ((prepared true true false (some 0) 1).core.steer 1) = true := by decide

theorem test_met_branch_invalid :
    ((prepared true false false none 1).core.steer 1).valid = false ∧
    ((prepared true true true none 1).core.steer 1).held = true ∧
    (prepared true true false none 9).core.fetch (targetAddr 9) = none := by decide

/-- A bench word at offset 16, and its address in g1. -/
def benched : State :=
  (withG solo 0xFF0000000010 0x80 0).upd fun c => { c with bench := [(16, 0x80), (17, 0xFF)] }

theorem test_met_load : loadForm (.ldh 3 1 0 0) = some (3, 1, 0, 2, true) ∧ ctlCalm benched [1] = true ∧
    (match ctlAccess (.ldh 3 1 0 0) .read (effAddr benched 1 0 2) 2 benched with
      | .ok x => decide (x = (.bench 0, 16))
      | .error _ => false) = true ∧
    (benched.mem (.bench 0)).wf = true := by decide

/-- g1 holds a loft address. -/
def lofted : State := withG solo 0xFE0000000008 1 0

theorem test_met_load_outside :
    (match ctlAccess (.ldd 3 1 0 0) .read (effAddr lofted 1 0 8) 8 lofted with
      | .ok x => decide (x = (.loft 0, 8))
      | .error _ => false) = true ∧ (lofted.mem (.loft 0)).wf = true := by decide

theorem test_met_literal : ((withCode solo nops).core.nowAddr + (1 : BitVec 18).signExtend 48 * 4).toNat % 8 ≠ 0 ∧
    ((withCode solo nops).core.nowAddr + (2 : BitVec 18).signExtend 48 * 4).toNat % 8 = 0 ∧
    (withCode solo nops).core.fetch 8 = some 0x1C800000 ∧ (withCode solo nops).core.fetch 12 = some 0x1C800000 ∧
    (withCode solo nops).core.fetch 16 = none ∧ (withCode solo nops).storeBad 8 8 = false := by decide

theorem test_met_store : storeForm (.stb 2 1 0 0x1FF) = some (2, 1, 0x1FF, 1) ∧ ctlCalm benched [1, 2] = true ∧
    (match ctlAccess (.stb 2 1 0 0x1FF) .write (effAddr benched 1 0x1FF 1) 1 benched with
      | .ok x => decide (x = (.bench 0, 15))
      | .error _ => false) = true := by decide

theorem test_met_atomic : ctlCalm benched [1, 2, 3] = true ∧
    (match ctlAccess (.amow 3 1 2 .add .rlx .core) .atomic (benched.core.g 1) 4 benched with
      | .ok x => decide (x = (.bench 0, 16))
      | .error _ => false) = true ∧ benched.hasHome (.bench 0) = true ∧
    (match ctlAccess (.amod 3 1 2 .cas .ar .sys) .atomic (benched.core.g 1) 8 benched with
      | .ok x => decide (x = (.bench 0, 16))
      | .error _ => false) = true := by decide

theorem test_met_access_traps :
    accessForm (withG solo 0x1000000000000 0 0) (.ldd 3 1 0 0) = some (.read, 0x1000000000000, 8, [1]) ∧
    ctlCalm (withG solo 0xFF0000000007 0 0) [1] = true ∧
    effAddr (withG solo 0xFF0000000007 0 0) 1 0 8 = 0xFF0000000007 ∧
    (match locate (withG solo 0xFD0000000000 0 0) .control .read 0xFD0000000000 with
      | .error (.trap 0x02) => true
      | _ => false) = true := by decide

/-- A window that maps the lowest 2 MiB to HBM beyond its 48 GiB. -/
def gone : State := solo.modDie 0 fun d =>
  { d with win := [(0, BitVec.ofNat 128 (1 + 0x3C + 21 * 2 ^ 11 + 24576 * 2 ^ 85))] }

theorem test_met_no_such_hbm : (match locate gone .control .read 0 with
    | .error (.gone pa) => decide (pa = 24576 * 2 ^ 21)
    | _ => false) = true := by decide

theorem test_met_twait : ctlCalm (withG solo 0 1 0) [1] = true ∧ noHook (withG solo 0 1 0) = true ∧
    ((withG solo 0 1 0).core.g 1).toNat ≤ (withG solo 0 1 0).core.gtick ∧
    (withG solo 0 1 0).core.gtick < ((withG solo 0 1 0).core.g 2).toNat := by decide

/-- The copy engine has an issued word that has not retired. -/
def copying : State := solo.upd fun c => { c with copy := { issued := [{}] } }

theorem test_met_waitq : ctlGoes copying [] = true ∧ copying.core.engIdle .load = true ∧
    (8 : BitVec 5).getLsbD (engNum .copy - 1) = true ∧ copying.core.engIdle .copy = false := by decide

/-- Queues filled to their limits. -/
def full : State := solo.updQ fun q => { q with xq := List.replicate 16 { value := 0 }, mboxOut := List.replicate 16 0 }

theorem test_met_full_queues : ctlGoes full [1] = true ∧ 16 ≤ full.core.q.xq.length ∧
    16 ≤ full.core.q.mboxOut.length ∧ solo.core.q.entries .cq = [] := by decide

theorem test_met_special_read : srAssigned 0x040 = true ∧ srMayRead false 0x040 = true ∧
    (∀ e ∈ srWaits 0x040, solo.core.engIdle e = true) ∧ srAssigned 0x300 = true ∧
    (∃ e ∈ srWaits 0x300, (solo.upd fun c => { c with matrix := { issued := [{}] } }).core.engIdle e = false) :=
  by decide

theorem test_met_special_rights : mtsForm solo (.mts 1 0x7FF) = some (0x7FF, 0, [1]) ∧
    srAssigned 0x7FF = false ∧ srAssigned 0x020 = true ∧ solo.core.ctl.bank1 = false ∧
    srMayWrite false 0x001 = false ∧ srAssigned 0x001 = true := by decide

theorem test_met_special_write : mtsForm solo (.mtsi 0x123 64) = some (0x123, 64, []) ∧
    srAssigned 0x123 = true ∧ srMayWrite false 0x123 = true ∧ srQueue 0x123 = none ∧
    mtsForm handler (.mtsr 3 1 0x020) = some (0x020, 0, [1]) ∧ srMayWrite true 0x020 = true := by decide

/-- Core 0 in a user debug hook, entered from its handler. -/
def inHook : State := handler.upd fun c => { c.enterHook with ctl := { c.enterHook.ctl with
  regs := { c.enterHook.ctl.regs with hook := true } } }
/-- A word of the hook has not completed. -/
def hookBusy : State := inHook.upd fun c => { c with load := { c.load with issued := [{}] } }

theorem test_met_hook_write : mtsForm handler (.mtsi 0x028 16) = some (0x028, 16, []) ∧
    ctlCalm handler [] = true ∧ handler.core.slips = false ∧ srAssigned 0x028 = true ∧ srMayWrite true 0x028 = true ∧
    handler.core.ctl.regs.hook = false ∧ (16 : DWord).getLsbD 4 = true ∧ (0 : DWord).getLsbD 4 = false ∧
    inHook.core.ctl.regs.hook = true ∧ inHook.core.hookDone = true ∧ inHook.core.hook.isSome = true ∧
    inHook.core.slips = false ∧ hookBusy.core.ctl.regs.hook = true ∧ hookBusy.core.hookDone = false ∧
    ctlCalm inHook [] = true ∧ ctlCalm hookBusy [] = true := by decide

theorem test_met_dqcount_write : mtsForm handler (.mtsi 0x312 64) = some (0x312, 64, []) ∧
    srAssigned 0x312 = true ∧ srMayWrite true 0x312 = true ∧ handler.core.vector.queue = [] ∧
    handler.core.q.dq.length ≤ 4096 := by decide

theorem test_met_queued_write : ctlCalm (queued solo .matrix [.word head]) [1] = true ∧
    srQueue 0x302 = some .matrix ∧ ((queued solo .matrix [.word head]).core.eng .matrix).queue ≠ [] ∧
    (queued solo .matrix [.word head]).core.slips = false ∧ srMayWrite false 0x302 = true ∧
    ctlCalm solo [1] = true ∧ srQueue 0x123 = none ∧ srAssigned 0x123 = true ∧ srMayWrite false 0x123 = true ∧
    engReady .matrix ⟨false, false, false, false⟩ head (queued solo .matrix [.word head, .reg 0x300 5]) = true ∧
    engReady .vector ⟨false, false, false, false⟩ head (queued solo .vector [.word head, .reg 0x310 5]) = true :=
  by decide

theorem test_met_queue_words : ctlGoes solo [1] = true ∧ solo.core.q.xq.length < 16 ∧
    solo.core.q.mboxOut.length < 16 ∧
    (solo.updQ fun q => { q with rq1 := [5, 6] }).core.q.entries .rq1 = [5, 6] := by decide

/-- A priority queue of two pairs, and one of 256. -/
def pqd (n : Nat) : State := solo.updQ fun q => { q with pq := List.replicate n (3, 4) }

theorem test_met_priority : (pqd 2).core.q.pq.length < 256 ∧ ctlCalm (pqd 2) [1, 2] = true ∧
    256 ≤ (pqd 256).core.q.pq.length ∧
    (pqd 2).core.q.pq.Pairwise (fun x y => pqBefore x y = true) := by decide

/-- The core waits where an arrival says. -/
def arrived (a : Arrival) : State := solo.updCtl fun c => { c with arrival := some a }

theorem test_met_marks : solo.gangOthers = [] ∧ pair.gangOthers ≠ [] ∧ noHook pair = true ∧
    solo.core.ctl.arrival = none ∧ (solo.updCtl fun c => { c with lastMark := some 4 }).core.ctl.lastMark = some 4 ∧
    (4 : BitVec 16) < 5 ∧ (4 : BitVec 16) ≤ 4 ∧ (arrived (.bar 3 (some 0))).core.reached 0 = true ∧
    (arrived (.bar 3 (some 1))).core.reached 1 = false ∧
    (arrived (.plumb 7 0 (some 64))).core.ctl.arrival = some (.plumb 7 0 (some 64)) := by decide

theorem test_met_events : ctlCalm solo (evReads (.reg 1)) = true ∧
    solo.sys.tenants[0].signalled 5 = false ∧ solo.core.ctl.arrival ≠ some (.waitev 5 true) ∧
    (arrived (.waitev 5 true)).core.ctl.arrival = some (.waitev 5 true) ∧ eventOf solo (.imm 5) = 5 ∧
    (solo.modTenant 0 fun x => { x with events := [5] }).sys.tenants[0].signalled 5 = true := by decide

/-- Pair 1 has halves of two lines. -/
def phased : State := solo.updVis fun v => { v with ph := v.ph.set 1 { base := 4, len := 2 } }

theorem test_met_phase : solo.core.vis.ph[1].len = 0 ∧ phased.core.vis.ph[1].len ≠ 0 ∧
    phased.core.vis.ph[1].base.toNat * 64 + 128 * phased.core.vis.ph[1].len.toNat ≤ benchSize ∧
    phased.core.commitReady = true ∧ phased.core.cp.hold = [] ∧ phased.core.ctl.regs.retried = false := by
  decide

/-- A recording into jig 2, its last entry at gang tick 0. -/
def recording : State := solo.upd fun c => { c with jig := { c.jig with recording := some ⟨2, 0, none, false, false, false⟩ } }

theorem test_met_jig : solo.isRecording = false ∧ recording.isRecording = true ∧
    (solo.savedPlay solo.core.ctl.pcq.q0.addr 3 1).isNone = true ∧ jigOk solo 1 = false ∧
    jigOwn solo 1 = false ∧ jigBad solo 1 = false ∧ noHook recording = true := by decide

/-- A trap stopped the replay of jig 1 into g3 at its entry 2. -/
def resuming : State := solo.upd fun c => { c with jig := { c.jig with play := some ⟨1, 0, 3, 2, 0, false⟩ } }

theorem test_met_jig_resumes : (resuming.savedPlay 0 3 1) = some ⟨1, 0, 3, 2, 0, false⟩ := by decide

/-- A window that maps the lowest 2 MiB to HBM stack 0. -/
def mapped (s : State) : State := s.modDie 0 fun d =>
  { d with win := [(0, BitVec.ofNat 128 (1 + 0x3C + 21 * 2 ^ 11))] }

/-- Jig 1 is valid under the key of the state, but an entry of it holds an uncorrectable error. -/
def spoiled : State :=
  let s := solo.upd fun c => { c with jig := { c.jig with
    jig := c.jig.jig.set 1 { state := .valid, key := jigKey solo, entries := [0] } } }
  { s with sys := { s.sys with bad := [(.jig 0, 16384)] } }

theorem test_met_jig_spoiled : jigOwn spoiled 1 = true ∧ jigBad spoiled 1 = true := by decide

/-- Jig 1 is valid and holds a stop whose value in memory holds an uncorrectable error. -/
def stopSpoiled : State :=
  let s := (rollable (mapped solo)).upd fun c => { c with jig := { c.jig with
    jig := c.jig.jig.set 1 { state := .valid, key := jigKey (mapped solo), entries := [4] } } }
  { s with sys := { s.sys with bad := [(.hbm, 0)] } }

theorem test_met_jig_stop_spoiled : jigBad stopSpoiled 1 = false ∧ (jigStopError stopSpoiled 1).isSome = true ∧
    stopSpoiled.core.canRetry = true ∧ stopSpoiled.savedPlay 0 3 1 = none ∧ jigStopError solo 1 = none ∧
    jigStopPending solo 1 = none := by
  decide +kernel

/-- Jig 1 is valid and holds a stop whose value lies in the core's own bench, where a write is pending, under
SHADOW. -/
def stopPending : State :=
  let s := (solo.updRegs fun r => { r with shadow := true }).upd fun c => { c with
    copy := { issued := [{ lines := [1] }] } }
  s.upd fun c => { c with jig := { c.jig with
    jig := c.jig.jig.set 1 { state := .valid, key := jigKey s, entries := [BitVec.ofNat 128 (4 + 0xFF0000000040 * 2 ^ 16)] } } }

theorem test_met_jig_stop_pending : jigBad stopPending 1 = false ∧ jigStopError stopPending 1 = none ∧
    (jigStopPending stopPending 1).isSome = true ∧ stopPending.isRecording = false ∧
    ctlGoes stopPending [] = true ∧ noHook stopPending = true := by decide +kernel

theorem test_met_jig_valid : jigOk (solo.upd fun c => { c with jig := { c.jig with
    jig := c.jig.jig.set 1 { state := .valid, key := jigKey solo } } }) 1 = true := by decide

theorem test_met_recording : (recording.recordingOn.map (·.differs)) = some false ∧ recording.recordingOn = some ⟨2, 0, none, false, false, false⟩ ∧
    recording.core.jig.used < 16384 ∧ ctlCalm recording [1, 2] = true ∧
    (recording.core.g 1).toNat % 8 = 0 ∧ ((withG recording 4 0 0).core.g 1).toNat % 8 ≠ 0 ∧
    recording.core.q.xq.length < 16 ∧ (0 : Nat) ≤ recording.core.gtick := by decide

/-- Nest table 0 counts 2 by 3, level 0 moving stream register 4. -/
def nested : State := (withCode solo nops).updVis fun v => { v with nest := v.nest.set 0 { v.nest[0] with
  level := Vector.ofFn fun l => if l = 0 then { trips := 2, smask := 16 } else if l = 1 then { trips := 3 }
    else { trips := 1 } } }

/-- A nest of that table at the end of its body. -/
def nesting : NestRun := { table := 0, addr := 0, n := 2, iter := 0, cur := [0, 0, 0, 0, 0, 0], next := 3
                           snap := nested.core.vis.nest[0], steps := .replicate 16 (.replicate 6 8) }

theorem test_met_nest_start : nested.core.ctl.nest = none ∧ nestInvalid nested.core 0 0 2 = none ∧
    nestInvalid solo.core 0 0 2 = some 0x211 ∧ nested.storeBad (0 + 4) (4 * (2 : BitVec 12).toNat) = false ∧
    solo.storeBad (0 + 4) (4 * (2 : BitVec 12).toNat) = false ∧ nested.core.savedAt 0 0 = none := by decide

/-- That nest runs. -/
def inNest (s : State) (r : NestRun) : State := s.updCtl fun c => { c with nest := some r }

theorem test_met_nest_move : (inNest nested nesting).core.nestItem nesting = .move ∧ nesting.n ≤ nesting.next ∧
    (odometer nesting.cur nesting.snap.trips).isSome = true ∧ nesting.broken = false ∧
    (inNest nested nesting).core.nestItem { nesting with broken := true } = .move ∧
    odometer [1, 2, 0, 0, 0, 0] nesting.snap.trips = none ∧ noStep nested = true ∧
    nested.core.livePlay = none := by decide

/-- The body holds LNOP, then NOP. -/
def pushing : State := withCode nested [0, 0, 0x80, 0x19, 0, 0, 0x38, 0x20, 0, 0, 0x80, 0x1C]
/-- Its first word is next. -/
def atBody : NestRun := { nesting with next := 0 }
/-- Its first word has been pushed. -/
def atSecond : NestRun := { nesting with next := 1, ahead := some ⟨0, [0, 0, 0, 0, 0, 0], 1⟩ }

theorem test_met_nest_push : (inNest pushing atBody).core.nestItem atBody
      = .push ⟨0, [0, 0, 0, 0, 0, 0], 0⟩ .load 0x20380000 none ∧
    (inNest (queued pushing .load (List.replicate 64 (.word head))) atBody).core.nestItem atBody = .full ∧
    (inNest pushing { atSecond with next := 0 }).core.nestItem { atSecond with next := 0 } = .move ∧
    (inNest pushing atSecond).core.nestItem atSecond = .word 0x1C800000 := by decide

/-- The body's first word is a long form, with no continuation behind it. -/
def longBody : State := withCode nested [0, 0, 0x80, 0x19, 0, 0, 0, 0x50, 0, 0, 0x80, 0x1C]

theorem test_met_nest_bad : (inNest longBody atBody).core.nestItem atBody
      = .bad ⟨0, [0, 0, 0, 0, 0, 0], 0⟩ 0x50000000 ∧ noStep longBody = true ∧ longBody.core.livePlay = none := by
  decide

/-- The word of a later iteration stands in the vector queue. -/
def breaking : State := queued (inNest nested nesting) .vector [.word { head with tag := some (0, 1) }]

theorem test_met_nest_break_queue : breaking.core.vector.queue = [.word { head with tag := some (0, 1) }] ∧
    ∀ e, ((inNest nested nesting).core.eng e).queue = [] := ⟨rfl, fun e => by cases e <;> rfl⟩

theorem test_met_nest_saved : ((nested.updVis fun v => { v with nest := v.nest.set 0 { v.nest[0] with saved := true } })
      |>.updCtl fun c => { c with nestSaved := c.nestSaved.set 0 (some nesting) }).core.savedAt 0 0
        = some nesting ∧ nesting.table = 0 ∧
    (nested.core.savedAt 0 0).isNone = true := by decide

theorem test_met_odometer : ([1, 0, 0] : List Nat).length = [2, 3, 1].length ∧
    (∀ p ∈ ([1, 0, 0] : List Nat).zip [2, 3, 1], p.1 < p.2) ∧ odometer [1, 0, 0] [2, 3, 1] = some [0, 1, 0] := by
  decide

theorem test_met_nest_break : ((nested.updCtl fun c => { c with nest := some nesting }).setSteer 1 fun _ =>
      { cond := true }).core.ctl.nest = some nesting ∧
    (((nested.updCtl fun c => { c with nest := some nesting }).setSteer 1 fun _ =>
      { cond := true }).core.steer 1).cond = true ∧ nesting.table = 0 ∧ nested.core.livePlay = none := by decide

theorem test_met_trap_words : inUser pair = true ∧ plainStream pair = true ∧ plainStream hooked = true := by decide

theorem test_met_boundary : inUser solo = true ∧ solo.core.livePlay = none ∧ solo.core.ctl.nest = none ∧
    ((queued solo .copy [.word head]).core.eng .copy).queue = [.word head] ∧
    (solo.updCtl fun c => { c with posted := some { cause := 0x0E } }).core.ctl.posted = some { cause := 0x0E } ∧
    (solo.updStall fun x => { x with companion := some (1, 8) }).core.stall.companion = some (1, 8) := by decide

theorem test_met_handler_and_hook : handler.core.ctl.bank1 = true ∧ handler.core.ctl.held16 = none ∧
    handler.core.ctl.held17 = [] ∧ handler.core.ctl.run = .running ∧
    (handler.updCtl fun c => { c with posted := some { cause := 0x16 } }).core.ctl.posted = some { cause := 0x16 } ∧
    hooked.core.ctl.bank1 = false ∧ hooked.core.ctl.regs.hook = true := by decide

/-- Both cores run their handlers; the second stands at RFT. -/
def handlers (atRft : Bool) : State := { handler with others := [{ id := CoreId.ofNat 1, ctl := {
  run := .running, bank1 := true, arrival := if atRft then some (.rft 0 none) else none } }] }

theorem test_met_return : handler.core.ctl.regs.epc0.toNat % 4 = 0 ∧ handler.core.ctl.regs.hook = false ∧
    handler.core.ends = false ∧ handler.gangOthers = [] ∧ handler.core.ctl.run = .running ∧
    (handler.updRegs fun r => { r with epc1 := 2 }).core.ctl.regs.epc1.toNat % 4 ≠ 0 ∧
    (handler.updCtl fun c => { c with arrival := some (.rft 0 (some 64)) }).core.ctl.arrival
      = some (.rft 0 (some 64)) ∧
    (∃ c ∈ (handlers false).gangOthers, c.ctl.run ≠ .retired ∧
      (c.preempted = false ∨ c.ctl.run ≠ .running) ∧ (c.atRft = false ∨ c.ends = true)) ∧
    (handler.updRegs fun r => { r with ecause := 0x0E }).core.ends = true := by decide

/-- A copy is held for pair 0, a byte of it changed since it issued. -/
def heldBad : State := (rollable solo).upd fun c => { c with cp := { c.cp with
  hold := [{ pair := 0, writes := [⟨0xFE0000000000, [1, 2], some 0⟩], entry := head }] } }

theorem test_met_retire : solo.core.ctl.bank1 = false ∧ copying.core.commitReady = false ∧
    solo.core.commitReady = true ∧ solo.core.cp.hold = [] ∧ heldBad.core.commitReady = true ∧
    (holdError heldBad (List.finRange 8)).isSome = true ∧ heldBad.core.canRetry = true := by decide +kernel

/-- The handler of a pre-emption, on core 0. -/
def preempting : State := handler.updRegs fun r => { r with ecause := 0x16, einfo := 2 ^ 33 }

/-- A transfer is on its way to that core, whose second mate has not left bank 1. -/
def saving : State := preempting.upd fun c => { c with land := { c.land with flights := [⟨5, 8, [], 0, false⟩] } }

theorem test_met_handler_retires : (∀ e, (preempting.core.eng e).over = true) ∧
    (∃ e, ((preempting.upd fun c => { c with copy := { issued := [{}] } }).core.eng e).over = false) :=
  ⟨fun e => by cases e <;> rfl, .copy, rfl⟩

theorem test_met_handler_saves : handler.core.preempted = false ∧ preempting.core.preempted = true ∧
    saveReady preempting = true ∧ saveReady saving = false := by decide

theorem test_met_step_control : stepsControl (withCode solo nops) = true ∧
    (withCode solo nops).core.ctl.nest = none ∧ (withCode solo nops).core.ctl.pcq.q0.nul = false ∧
    (withCode solo nops).core.fetch (withCode solo nops).core.ctl.pcq.q0.addr = some 0x1C800000 ∧
    (withCode solo nops).storeBad (withCode solo nops).core.ctl.pcq.q0.addr 4 = false ∧
    (inNest pushing atSecond).storeBad (inNest pushing atSecond).core.nowAddr 4 = false ∧
    itemBad atBody (inNest pushing atBody) ((inNest pushing atBody).core.nestItem atBody) = false ∧
    (0x1C800000 : Word).toNat / 2 ^ 29 = 0 ∧ stepsControl (inNest pushing atSecond) = true ∧
    stepsControl (inNest pushing atBody) = true := by decide

theorem test_met_step_trap : traps (withCode solo nops) (exec .brk (withCode solo nops)) = true ∧
    headFault exec engines (withCode solo nops) = none := by decide +kernel

theorem test_step_runs_nop : decode (0x1C800000 : Word).toNat none = .ok (.nop 0) := rfl

/-- An engine's turn with a word at its head. -/
def engTurn : State := { queued solo .load [.word { head with word := 0x20380000 }] with turn := .engine .load }

theorem test_met_step_engine : noticed engTurn = none ∧ dueEvent engTurn = none ∧ engTurn.turn = .engine .load ∧
    engTurn.core.engRuns .load = true ∧
    firstWord (engTurn.core.eng .load).queue = some { head with word := 0x20380000 } := by decide

theorem test_step_runs_lnop : decode (0x20380000 : Word).toNat none = .ok (.lnop ⟨false, false, false, false⟩) := rfl

/-- A traps's rank: LNOP at the load engine's head would overflow a FIFO while BREAK stands in the stream. -/
def twoFaults : State := { (withCode (queued solo .load [.word { head with
    word := BitVec.ofNat 32 (((encode (.lnop ⟨false, false, true, false⟩)).map (·.1)).getD 0) }])
  [0, 0, 0, 0x1D]) with }

theorem test_met_two_faults : stepsControl (twoFaults.upd fun c => { c with tok := .replicate 8 15 }) = true ∧
    traps (twoFaults.upd fun c => { c with tok := .replicate 8 15 })
      (exec .brk (twoFaults.upd fun c => { c with tok := .replicate 8 15 })) = true ∧
    (headFault exec engines (twoFaults.upd fun c => { c with tok := .replicate 8 15 })).isSome = true := by
  decide +kernel

/-- An engine word stands in the code. -/
def routed : State := withCode solo [0, 0, 0x38, 0x20]

theorem test_met_routing : stepsControl routed = true ∧ routed.core.fetch routed.core.ctl.pcq.q0.addr
      = some 0x20380000 ∧ plainStream routed = true ∧ routed.storeBad routed.core.ctl.pcq.q0.addr 4 = false ∧
    noStep routed = true ∧
    engineOf ((0x20380000 : Word).toNat / 2 ^ 29) = some .load ∧ isLong (0x20380000 : Word).toNat = false ∧
    (routed.core.eng .load).words < 64 ∧
    64 ≤ ((queued routed .load (List.replicate 64 (.word head))).core.eng .load).words := by decide
/-! ### Engine words -/

/-- No token bits. -/
def t0 : Tok := ⟨false, false, false, false⟩
/-- WL and GR set. -/
def t1 : Tok := ⟨true, false, false, true⟩

theorem test_met_tokens : nopForm solo (.rfence t1) = some (.copy, t1) ∧ nopForm solo (.ladv t0 1 5) = some (.load, t0) ∧
    headWord .copy (queued solo .copy [.word head]) = some (head, []) ∧ head.started = false ∧
    engReady .copy t1 head ((queued solo .copy [.word head]).upd fun c => { c with tok := .replicate 8 1 }) = true ∧
    (queued solo .copy [.word head]).core.tokOver .copy t1 = none ∧
    (queued solo .copy [.word head]).core.tokReady .copy t1 = false ∧
    ((queued solo .copy [.word head]).upd fun c => { c with tok := .replicate 8 15 }).core.tokOver .copy t1
      = some 1 := by decide

/-- The checker's copy of the head word differs. -/
def differing : Entry := { head with matched := false, copy := { head.copy with word := 1 } }

/-- It stands at the copy engine's head, 6 ticks after its push. -/
def differs : State := (queued solo .copy [.word differing]).upd fun c => { c with tick := 6 }

theorem test_met_divergence : differing.agrees = false ∧ differs.core.lagMet differing = true ∧
    (queued solo .copy [.word { head with matched := false }]).core.lagMet { head with matched := false } = false ∧
    (rollable differs).core.canRetry = true ∧ differs.core.canRetry = false ∧
    differs.core.heldByBreak differing = false ∧ inUser differs = true := by decide +kernel

theorem test_met_retirement : (copying.core.eng .copy).issued = [{}] ∧ copying.core.mayRetire {} = true := by
  decide

/-- A stream register over two rows of the bench, 64 bytes apart. -/
def rows (fmt : BitVec 4) (n : BitVec 16) (bytes : BitVec 24) : StReg :=
  { base := 0xFF0000001000, fmt := fmt, rows := n, rbytes := bytes, pitch := 64 }
/-- A head word whose stream register 2 names rows. -/
def reading (r : StReg) : Entry := { head with snap := { head.snap with st := head.snap.st.set 2 r } }
/-- The state in which it stands at an engine's head. -/
def atHead (e : Engine) (x : Entry) : State := queued solo e [.word x]

theorem test_met_ldt : headWord .load (atHead .load (reading (rows 8 2 8))) = some (reading (rows 8 2 8), []) ∧
    engGoes .load t0 (reading (rows 8 2 8)) (atHead .load (reading (rows 8 2 8))) = true ∧
    (atHead .load (reading (rows 8 2 8))).core.mx.tiles.wf = true ∧
    ldtBadGeo (reading (rows 8 2 8)).snap.st[2] false = false ∧
    ldtBadGeo (reading (rows 8 2 8)).snap.st[2] true = false ∧ quantised 8 = false ∧
    q4xFault 8 [(0, [])] = none := by decide

theorem test_met_ldt_refused : ldtBadGeo (reading (rows 8 65 8)).snap.st[2] false = true ∧
    ldtBadGeo (reading (rows 2 64 32)).snap.st[2] true = false ∧ quantised 2 = true := by decide

theorem test_met_ldt_checks : (readChecks (.ldt t0 3 2 true false) .load (reading (rows 8 2 8))
    (solo.core.rowRanges (rows 8 2 8) 0 2) (atHead .load (reading (rows 8 2 8)))).isNone = true := by decide

/-- The first row of LDX, its one index in rq1. -/
def indexed : State := (atHead .load (reading (rows 8 2 8))).updQ fun q => { q with rq1 := [1] }

theorem test_met_ldx : indexed.core.q.rq 1 = [1] ∧ engGoes .load t0 (reading (rows 8 2 8)) indexed = true ∧
    (rows 8 2 8).emptyGeo = false ∧ (rows 8 2 8).badFmt = false ∧ (rows 8 2 8).rbytes.toNat ≤ 256 ∧
    (1 : BitVec 9).toNat ≤ (reading (rows 8 2 8)).prog + 1 ∧ (1 : Word).toNat < (rows 8 2 8).rows.toNat ∧
    (ldxRow indexed (reading (rows 8 2 8)) (rows 8 2 8) 1).length = 8 ∧
    (readChecks (.ldx t0 (.tile 3) 2 1 1) .load (reading (rows 8 2 8))
      (indexed.core.rowRanges (rows 8 2 8) 1 1) indexed).isNone = true ∧
    q4xFault 8 [(1, ldxRow indexed (reading (rows 8 2 8)) (rows 8 2 8) 1)] = none := by decide

/-- Indices 0 in every lane. -/
def zeros : LaneEntry := { lanes := .replicate 64 0, mask := BitVec.allOnes 64 }
/-- LGATH at its last lane. -/
def gathering : Entry := { reading (rows 8 2 8) with
  started := true, prog := 63, index := some zeros, rows := List.replicate 63 (0, []) }

theorem test_met_lgath_queue : (atHead .load gathering).core.q.vq[2].length < 8 ∧
    8 ≤ ((atHead .load gathering).updQ fun q => { q with vq := q.vq.set 2 (List.replicate 8 zeros) }).core.q.vq[2].length
    ∧ (atHead .load gathering).core.ctl.bank1 = false := by decide

theorem test_met_lgath_last : engGoes .load t0 gathering (atHead .load gathering) = true ∧
    gathering.index = some zeros ∧ gathering.rows.length = 63 ∧ gathFmt 8 = true ∧
    (gathRange (atHead .load gathering).core (rows 8 2 8) zeros 63) = some (0xFF0000001000, 4) ∧
    (readChecks (.lgath t0 (.tile 3) 2 1) .load gathering [(0xFF0000001000, 4)]
      (atHead .load gathering)).isNone = true := by decide

/-- A slot full of F32 zeros. -/
def landed : State := (atHead .load head).upd fun c => { c with land := { c.land with
  slot := c.land.slot.set 5 (some (8, List.replicate 4096 0)) } }

theorem test_met_lland : landed.core.land.slot[5] = some (8, List.replicate 4096 0) ∧
    landed.badAt (.slot landed.core.id.num) (5 * 4096) 4096 = false ∧
    (∀ w ∈ landed.core.load.issued, w.frees.map (·.1) ≠ some 5) ∧ engGoes .load t0 head landed = true ∧
    landed.core.q.vq[1].length < 8 ∧ head.prog < 16 :=
  ⟨rfl, rfl, nofun, rfl, by decide, by decide⟩

theorem test_lland_length : (List.replicate 4096 (0 : Byte)).length = 4096 := List.length_replicate

theorem test_met_ldq : (atHead .load (reading (rows 8 2 8))).core.q.vq[1].length < 8 ∧
    (readChecks (.ldq t0 1 2) .load (reading (rows 8 2 8)) (solo.core.rowRanges (rows 8 2 8) 0 2)
      (atHead .load (reading (rows 8 2 8)))).isNone = true ∧
    (rowAgain (.ldq t0 1 2) .load { reading (rows 8 2 8) with started := true, prog := 1 }
      (solo.core.rowRanges (rows 8 2 8) 1 1) (atHead .load (reading (rows 8 2 8)))).isNone = true := by decide

theorem test_met_ldsc : 0 < (rows 6 32 64).rows.toNat ∧ (rows 6 32 64).rows.toNat ≤ 32 ∧ (rows 6 32 64).fmt = 6 ∧
    (rows 6 32 64).rbytes = 64 ∧
    (((atHead .load (reading (rows 6 32 64))).core.mx.ascale.map (·.length)).sum + 64 * 32 ≤ 2048) ∧
    (readChecks (.ldsc t0 true 2) .load (reading (rows 6 1 64)) (solo.core.rowRanges (rows 6 1 64) 0 1)
      (atHead .load (reading (rows 6 1 64)))).isNone = true := by decide

theorem test_met_lgath_first : ((reading (rows 8 2 8)).index.or
      ((atHead .load (reading (rows 8 2 8))).updQ fun q => { q with vq := q.vq.set 1 [zeros] }).core.q.vq[1].head?)
      = some zeros ∧ (reading (rows 8 2 8)).prog < 63 ∧
    (atHead .load (reading (rows 8 2 8))).core.destRoom (.tile 3) = true ∧
    (reading (rows 8 2 8)).index = none := by decide

/-! ### The matrix engine -/

/-- Tile 1 and tile 2 hold 64 rows of 8 F32 elements. -/
def tiled : State := (atHead .matrix head).upd fun c => { c with mx := { c.mx with
  shape := (c.mx.shape.set 1 { fmt := 4, rows := 64, elems := 8 }).set 2 { fmt := 4, rows := 64, elems := 64 } } }
/-- BF16 by BF16, K = 8. -/
def mm : MStep := ⟨⟨0, 1, .tile 2, false, .none, true, false⟩, ⟨0, 1, true⟩, 0⟩

theorem test_met_mma_refused : mm.ready head solo.core = true ∧ (mm.refused head (mm.sees solo.core 0)).isSome = true ∧
    headWord .matrix (atHead .matrix head) = some (head, []) ∧ solo.core.phase.rollback = false ∧
    engGoes .matrix t0 head (atHead .matrix head) = true ∧ (atHead .matrix head).core.mx.acc.wf = true := by decide

/-- The weight FIFO as B, K = 32 or 256. -/
def mmw (n : BitVec 9) : MStep := ⟨⟨0, 1, .wsf, false, .none, true, false⟩, ⟨0, n, false⟩, 0⟩
/-- Four blocks of a format that profile 0 takes, with their batches; tile 1 holds 64 rows of 256 elements. -/
def fed : State := (atHead .matrix head).upd fun c => { c with mx := { c.mx with
  wfifo := List.replicate 4 ⟨2, [], [], 64, []⟩, scf := List.replicate 4 (64, [])
  shape := c.mx.shape.set 1 { fmt := 2, rows := 64, elems := 256 } } }

theorem test_met_mma_waits : (mmw 4).ready head solo.core = false ∧ (mmw 4).more head solo.core = false ∧
    solo.core.ctl.bank1 = false := by decide

theorem test_met_mma_pops : (mmw 32).ready head fed.core = false ∧ (mmw 32).more head fed.core = true ∧
    (mmw 32).refused head ((mmw 32).sees fed.core 0) = none := by decide

/-- Tile 1 and tile 2 hold rows of format 2; two half batches of A scales wait. -/
def scaled : State := (atHead .matrix head).upd fun c => { c with mx := { c.mx with
  ascale := List.replicate 2 (List.replicate 32 0)
  shape := (c.mx.shape.set 1 { fmt := 2, rows := 64, elems := 32 }).set 2 { fmt := 2, rows := 64, elems := 64 } } }
/-- A step that takes them. -/
def mms : MStep := ⟨⟨0, 1, .tile 2, true, .none, true, false⟩, ⟨0, 4, false⟩, 0⟩

theorem test_met_mma_scales : mms.ready head scaled.core = true ∧ mms.refused head (mms.sees scaled.core 0) = none ∧
    ((mms.take head (mms.sees scaled.core 0)).fail).isSome = true ∧ inUser scaled = true := by decide

theorem test_met_heap : ([(5, 1), (3, 2)] : List (Word × Word)).Pairwise (fun a b => heapBefore a b = true) := by
  decide

theorem test_met_aread : (atHead .matrix head).core.q.vq[1].length < 8 ∧ head.started = false ∧
    ((atHead .matrix head).updQ fun q => { q with mq := [zeros] }).core.q.mq = [zeros] ∧
    (atHead .matrix head).core.drainRoom .heap = true ∧ (atHead .matrix head).core.drainRoom (.vq 1) = true ∧
    engReady .matrix t0 head (atHead .matrix head) = true := by decide

theorem test_met_epset : (readChecks (.epset t0 1 2) .matrix (reading (rows 8 2 8)) [(0xFF0000001000, 32)]
      (atHead .matrix (reading (rows 8 2 8)))).isNone = true ∧
    (atHead .matrix (reading (rows 8 2 8))).core.rowAddr (reading (rows 8 2 8)).snap.st[2] 0 = 0xFF0000001000 ∧
    epiFail (List.replicate 16 0) = none ∧ (epiFail (List.replicate 16 0xFFFF)).isSome = true ∧
    (readChecks (.epcon t0 1 2) .matrix (reading (rows 8 2 8)) [(0xFF0000001000, 256)]
      (atHead .matrix (reading (rows 8 2 8)))).isNone = true := by decide


/-- Tile 1 and tile 2 as profile 4 needs them. -/
def mmGood : MStep := ⟨⟨0, 1, .tile 2, false, .none, true, false⟩, ⟨4, 1, true⟩, 0⟩

theorem test_met_mma : mmGood.ready head tiled.core = true ∧ mmGood.refused head (mmGood.sees tiled.core 0) = none ∧
    (mmGood.take head (mmGood.sees tiled.core 0)).fail = none ∧ mmGood.o.ck = false ∧ head.started = false ∧
    headWord .matrix tiled = some (head, []) ∧ engGoes .matrix t0 head tiled = true ∧ head.held = none ∧
    tiled.core.mx.acc.wf = true := by decide

/-- The head word once its step has issued. -/
def holding (m : MStep) (s : State) : Entry := { head with started := true, held := some (m.hold head s) }

theorem test_met_mma_held : (holding mmGood tiled).held = some (mmGood.hold head tiled) ∧
    headWord .matrix (putHead .matrix (holding mmGood tiled) tiled) = some (holding mmGood tiled, []) ∧
    engGoes .matrix t0 (holding mmGood tiled) (putHead .matrix (holding mmGood tiled) tiled) = true ∧
    (putHead .matrix (holding mmGood tiled) tiled).core.phase.rollback = false :=
  ⟨rfl, rfl, rfl, rfl⟩

/-- The same step compared; element 0 of tile 1 is 1, and the sums of tile 2 were recorded wrong. -/
def miscounted : State := (rollable tiled).upd fun c => { c with phase := { c.phase with carried := {} }, mx := { c.mx with
  tiles := Mem.write [] 16384 [0x80, 0x3F]
  sums := c.mx.sums.set 2 { rows := [], cols := [.fin 1 0] } } }
/-- The compared step. -/
def mmCk : MStep := ⟨{ mmGood.o with ck := true }, mmGood.c, 0⟩

theorem test_met_mma_check : miscounted.core.canRetry = true ∧ mmCk.ready head miscounted.core = true ∧
    mmCk.refused head (mmCk.sees miscounted.core 0) = none ∧
    (match runStep (holding mmCk miscounted) mmCk (mmCk.hold head miscounted) miscounted with
      | .check r u => decide (r = 0) && u.core.canRetry
      | _ => false) = true := by decide +kernel

/-- A head word of MRUN: table 0 runs one step of tile 1 by tile 2 into accumulator 0, zeroed. -/
def running : Entry := { head with snap := { head.snap with
  mrctl := BitVec.ofNat 26 (1 + 2 * 2 ^ 6 + 2 * 2 ^ 16)
  nest := head.snap.nest.map fun n => { n with level := n.level.map fun l => { l with trips := 1 } } } }

theorem test_met_mrun : mrBad running.snap.mrctl true = false ∧ (tripsBad running.snap.nest[0]).isNone = true ∧
    (mrStep running.snap.mrctl running.snap.nest[0] ⟨4, 1, true⟩ running.prog).ready running tiled.core = true ∧
    (mrStep running.snap.mrctl running.snap.nest[0] ⟨4, 1, true⟩ running.prog).refused running ((mrStep running.snap.mrctl running.snap.nest[0] ⟨4, 1, true⟩ running.prog).sees tiled.core 0) = none ∧
    ((mrStep running.snap.mrctl running.snap.nest[0] ⟨4, 1, true⟩ running.prog).take running ((mrStep running.snap.mrctl running.snap.nest[0] ⟨4, 1, true⟩ running.prog).sees tiled.core 0)).fail = none ∧
    running.held = none ∧
    (mrStep running.snap.mrctl running.snap.nest[0] ⟨4, 1, true⟩ running.prog).o.ck = false := by decide +kernel

theorem test_met_mrun_refused : mrBad (BitVec.ofNat 26 (3 * 2 ^ 11)) true = true ∧
    (tripsBad head.snap.nest[0]).isSome = true ∧
    (mrStep head.snap.mrctl head.snap.nest[0] ⟨4, 1, true⟩ 0).ready head tiled.core = true := by decide +kernel

theorem test_met_integer_profile : (⟨mmGood.o, ⟨6, 1, true⟩, 0⟩ : MStep).c.profile = 6 := rfl

/-! ### The stream engine -/

/-- A window that maps the lowest 2 MiB to HBM stack 0. -/
def windowed (s : State) : State := mapped s

/-- The header of an image of one block of 192 bytes, removed at stream tick 8. -/
def header : List Byte := [49, 83, 84, 87, 1, 7, 0, 0, 0, 2, 0, 0, 8, 0, 0, 0, 1, 0, 0, 0, 218, 42, 138, 192]
  ++ List.replicate 36 0 ++ [87, 219, 7, 61]
/-- Its removal table. -/
def table : List Byte := [8, 0, 0, 0, 192, 0, 0, 0]
/-- Its block, every record of mode 0 and scale 1. -/
def blockBytes : List Byte := [192, 0, 0, 16, 64, 0, 143, 254] ++ (List.replicate 64 ([0, 1] : List Byte)).flatten
  ++ [184, 62, 182, 126] ++ List.replicate 52 0

/-- The image at address 0x1000. -/
def imaged (s : State) : State :=
  (windowed s).setMem .hbm ((Mem.listed 0x1000 (header ++ table)).write 0x1080 blockBytes)

/-- A head word whose stream register 2 names the image. -/
def opening : Entry := reading { base := 0x1000, rows := 1, rbytes := 64 }
/-- The state in which SDOPEN stands at the head. -/
def opens : State := imaged (atHead .stream opening)

theorem test_met_open : headWord .stream opens = some (opening, []) ∧ opening.started = false ∧
    engReady .stream noTok opening opens = true ∧ opens.core.ctl.regs.hook = false ∧ opens.core.sd = none ∧
    opens.core.rowAddr opening.snap.st[2] 0 % 64 = 0 ∧ opens.core.watched opening = true ∧
    opening.snap.wpen = 0 := by decide

theorem test_met_open_good : (match openChecks opens (locOf opens opening.snap .stream .read) 0x1000 with
    | (_, .good h t, _) => decide (h = header) && decide (t = table)
    | _ => false) = true := by decide

theorem test_met_open_rejected : (match openChecks (windowed (atHead .stream opening))
      (locOf (windowed (atHead .stream opening)) opening.snap .stream .read) 0x1000 with
    | (_, .reject (0, 0, 0), _) => true
    | _ => false) = true := by decide

/-- The stream of that image, at stream tick 0. -/
def stream : Stream := { header := 0x1000, fmt := 1, rate := 128, bufB := 512, delay := 8
                         table := [⟨8, 192, 0⟩], g0 := 0 }
/-- SDOPEN after its checks, at its retirement tick. -/
def openDone : Entry := { opening with started := true, rows := [(0x1000, header), (0x1040, table)] }

theorem test_met_open_retires : openDone.started = true ∧ openDone.due ≤ (atHead .stream openDone).core.gtick ∧
    (atHead .stream openDone).core.ctl.bank1 = false ∧ (atHead .stream openDone).core.stream.late = false ∧
    openDone.rows = [(0x1000, header), (0x1040, table)] := by decide

/-- A state with an open stream at a gang tick. -/
def streaming (s : State) (d : Stream) (g : Nat) : State := s.upd fun c => { c with sd := some d, gtick := g }

theorem test_met_grant : (streaming (atHead .stream head) stream 8).core.sd = some stream ∧
    stream.granted + (1 : BitVec 12).toNat ≤ stream.table.length ∧
    (8 : Nat) ≤ stream.g0 + stream.tick stream.granted ∧ stream.g0 + stream.tick stream.granted < 9 ∧
    engReady .stream noTok head (streaming (atHead .stream head) stream 9) = true := by decide

/-- A grant that has not retired. -/
def granted : State := (atHead .stream head).upd fun c => { c with stream := { c.stream with
  issued := [{ upto := some 1 }] } }

theorem test_met_close : (∀ w ∈ (atHead .stream head).core.stream.issued, w.upto = none) ∧
    (∃ w ∈ granted.core.stream.issued, w.upto.isSome = true) ∧
    engReady .stream noTok head granted = true ∧ granted.core.q.wsq.length < 16 := by decide

/-- Stream tick 1: two beats have fallen due. -/
def beating : State := streaming (imaged solo) stream 1

theorem test_met_beat : stream.beatDue beating.core = true ∧
    (match locOf beating beating.core.vis .stream .read (stream.beatAddr % 2 ^ 48) with
      | .ok x => decide (x = (.hbm, 0x1080))
      | .error _ => false) = true ∧
    firstBad beating (locOf beating beating.core.vis .stream .read) [(stream.beatAddr % 2 ^ 48, 64)] = none ∧
    stream.late = false ∧ stream.beatFirst = true ∧
    ({ stream with late := true } : Stream).beatDue beating.core = true := by decide

theorem test_met_beat_held : ({ stream with slow := true } : Stream).slow = true ∧ beating.beatHeld stream = false ∧
    stream.slow = false ∧ beating.beatHeld { stream with refetch := [(0, 0)] } = true := by decide

/-- The block is in the buffer, its tick has come. -/
def whole : Stream := { stream with granted := 1, beats := 3, buf := blockBytes }
/-- The same with a byte of its payload CRC changed. -/
def broken : Stream := { whole with buf := blockBytes.take 136 ++ [0] ++ blockBytes.drop 137 }

theorem test_met_removal : whole.removeDue (streaming (imaged solo) whole 8).core = true ∧
    (streaming (imaged solo) whole 8).core.gheld = false ∧ whole.next < whole.granted ∧
    whole.beatDue (streaming (imaged solo) whole 8).core = false ∧ whole.buf.length = 192 ∧
    (streaming (imaged solo) whole 8).core.mx.wfifo.length + whole.out.length + whole.refetch.length < 4 := by
  decide

/-- No grant names the block; its bytes have not come; four blocks wait. -/
def ungranted : Stream := { whole with granted := 0 }
/-- Its bytes have not come: a beat is late. -/
def starved : Stream := { whole with beats := 0, buf := [], late := true }
/-- Four blocks have been decoded and wait. -/
def crowded : Stream := { whole with out := List.replicate 4 (0, ⟨1, [], [], 64, []⟩) }

theorem test_met_removal_traps : ungranted.removeDue (streaming (imaged solo) ungranted 8).core = true ∧
    ungranted.granted ≤ ungranted.next ∧ starved.buf.length < 192 ∧ starved.next < starved.granted ∧
    starved.removeDue (streaming (imaged solo) starved 8).core = true ∧ (!starved.late) = false ∧
    4 ≤ (streaming (imaged solo) crowded 8).core.mx.wfifo.length + crowded.out.length + crowded.refetch.length ∧
    (streaming (imaged solo) crowded 8).core.vis.strict = false := by decide

theorem test_met_removal_good : (match checkBlock whole 0 (whole.buf.take 192) with
    | .good b => decide (b.scnt = 64)
    | _ => false) = true := by decide +kernel

theorem test_met_removal_corrupt : (match checkBlock broken 0 (broken.buf.take 192) with
    | .corrupt 2 => true
    | _ => false) = true := by decide +kernel

/-- Block 0 is to be refetched. -/
def again : Stream := { whole with next := 1, buf := [], refetch := [(0, 0)] }

theorem test_met_refetch : again.refetch = [(0, 0)] ∧ 0 ≤ (streaming (imaged solo) again 8).core.tick ∧
    refetchFail (locOf (streaming (imaged solo) again 8) {} .stream .read) (again.blockAddr 0) 192 = none ∧
    goneAt (locOf (streaming (imaged solo) again 8) {} .stream .read) [(again.blockAddr 0 % 2 ^ 48, 192)] = none ∧
    firstBad (streaming (imaged solo) again 8) (locOf (streaming (imaged solo) again 8) {} .stream .read)
      [(again.blockAddr 0 % 2 ^ 48, 192)] = none := by decide

theorem test_met_refetch_good : (match checkBlock again 0 (readRange (streaming (imaged solo) again 8)
      (locOf (streaming (imaged solo) again 8) {} .stream .read) 0x1080 192) with
    | .good _ => true
    | _ => false) = true := by decide +kernel

/-- The block in memory has a byte of its payload CRC changed. -/
def badImage (s : State) : State :=
  (windowed s).setMem .hbm ((Mem.listed 0x1000 (header ++ table)).write 0x1080 broken.buf)

theorem test_met_refetch_corrupt : (match checkBlock again 0 (readRange (streaming (badImage solo) again 8)
      (locOf (streaming (badImage solo) again 8) {} .stream .read) 0x1080 192) with
    | .corrupt 2 => true
    | _ => false) = true := by decide +kernel

theorem test_met_push : ({ whole with out := [(0, ⟨1, [], [], 64, []⟩)] } : Stream).pushDue
    (streaming solo whole 16).core = true := by decide

/-! ### The vector engine -/

/-- A word at the vector engine's head, with entries in vq 0 and vq 1. -/
def vectors : State := (atHead .vector head).updQ fun q => { q with vq := (q.vq.set 0 [zeros]).set 1 [zeros, zeros] }

theorem test_met_vector_word : headWord .vector vectors = some (head, []) ∧ head.started = false ∧
    engReady .vector t0 head vectors = true ∧
    vecCalm vectors [.vq 0, .vq 1] [3] (.v 9) = true ∧ vecCalm vectors [.v 1, .lane] [0] .wq = true ∧
    vecCalm vectors [.vz, .vq 1] [15] .mq = true ∧ vectors.core.dstRoom .discard = true ∧
    oldsOf vectors.core.vec.pendV (vectors.core.vec.phys 9).val vectors.core.tick = [] := by decide

theorem test_met_dequantise : (deqBad .e4 (srcLanes vectors .vz)).isNone = true := by decide +kernel

theorem test_met_conversion_rounding : (.rne : Rnd) ≠ .sr ∧ engReady .vector t1 head
    (vectors.upd fun c => { c with tok := .replicate 8 1 }) = true := by decide

/-- The deferral queue holds n entries; xq holds one; the reply queues are full. -/
def deferred (n : Nat) : State := vectors.updQ fun q => { q with
  dq := List.replicate n (1, 2, 3), xq := [{ value := 7 }], rq0 := List.replicate 16 0 }

theorem test_met_deferral : (deferred 4032).core.q.dq.length + 64 ≤ 4096 ∧
    4096 < (deferred 4033).core.q.dq.length + 64 ∧
    ((List.finRange 64).filter fun i : Fin 64 => (predVal (deferred 0) 0).getLsbD i.val).length = 64 ∧
    vecCalm (deferred 0) [.v 1, .v 2] [0] .discard = true := by
  rw [show (deferred 4032).core.q.dq.length = 4032 from List.length_replicate,
    show (deferred 4033).core.q.dq.length = 4033 from List.length_replicate]
  decide

theorem test_met_vector_others : (deferred 3).core.q.xq = [{ value := 7 }] ∧ (21 : Fin 32).val < 22 ∧
    headWord .vector (deferred 63) = some (head, []) ∧ engReady .vector t0 head (deferred 64) = true ∧
    16 ≤ ((deferred 0).core.q.rq 0).length ∧ ((deferred 0).core.q.rq 1).length < 16 ∧
    (.lt : VCc) ≠ .un ∧ (.lt : VCc) ≠ .or ∧ vecCalm (deferred 0) [] (plogReads .andn 1 2) .discard = true := by
  decide

theorem test_met_xq_entry : ({ value := 7, matched := true } : XEntry).matched = true ∧
    (deferred 3).core.tick < ({ value := 7 } : XEntry).pushed + 6 ∧ ({ value := 7 } : XEntry).matched = false ∧
    ({ value := 7 } : XEntry).pushed + 6 ≤ (vectors.upd fun c => { c with tick := 6 }).core.tick ∧
    ({ value := 7 } : XEntry).copy = 7 ∧ ({ value := 7, copy := 8 } : XEntry).copy ≠ 7 ∧
    (rollable vectors).core.canRetry = true ∧ vectors.core.canRetry = false ∧ inUser vectors = true := by decide +kernel

/-! ### The copy engine -/

/-- A head word whose stream registers 2 and 3 name two rows of 64 bytes each, 8 KiB apart. -/
def moving : Entry := { reading (rows 4 2 64) with snap := { (reading (rows 4 2 64)).snap with
  st := (reading (rows 4 2 64)).snap.st.set 3 { rows 4 2 64 with base := 0xFF0000003000 } } }
/-- It stands at the copy engine's head. -/
def moves : State := atHead .copy moving
/-- Pair 0 covers its source; stream register 3 names the loft. -/
def heldMove : Entry := { moving with snap := { moving.snap with
  st := moving.snap.st.set 3 { rows 4 2 64 with base := 0xFE0000003000 }
  ph := moving.snap.ph.set 0 { base := 0x40, len := 2 } } }

theorem test_met_copy : headWord .copy moves = some (moving, []) ∧ engGoes .copy t0 moving moves = true ∧
    moving.snap.st[2].emptyGeo = false ∧ moving.snap.st[2].rows = moving.snap.st[3].rows ∧
    moving.snap.st[2].rbytes = moving.snap.st[3].rbytes ∧
    (copyRowChecks (.copy t0 3 2) moving (moves.core.rowRanges moving.snap.st[2] 0 1)
      (moves.core.rowRanges moving.snap.st[3] 0 1) moves).isNone = true ∧
    holder moves moving.snap (moves.core.rowRanges moving.snap.st[2] 0 2)
      (moves.core.rowRanges moving.snap.st[3] 0 2) = none := by decide

theorem test_met_copy_held : holder (atHead .copy heldMove) heldMove.snap
      (moves.core.rowRanges heldMove.snap.st[2] 0 2) (moves.core.rowRanges heldMove.snap.st[3] 0 2) = some 0 ∧
    (copyRowChecks (.copy t0 3 2) heldMove (moves.core.rowRanges heldMove.snap.st[2] 0 1)
      (moves.core.rowRanges heldMove.snap.st[3] 0 1) (atHead .copy heldMove)).isNone = true ∧
    (atHead .copy heldMove).core.heldBytes + 2 * 64 ≤ 0x40000 := by decide

/-- The hold has n bytes. -/
def heldFull (n : Nat) : State := (atHead .copy heldMove).upd fun c => { c with cp := { c.cp with
  hold := [{ pair := 0, writes := [⟨0, List.replicate n 0, none⟩], entry := head }] } }

theorem heldFull_bytes (n : Nat) : (heldFull n).core.heldBytes = n := by
  simp [heldFull, Core.heldBytes, HeldCopy.size, State.upd]

theorem test_met_copy_held_full : 0x40000 < (heldFull 0x3FF81).core.heldBytes + 2 * 64 := by
  rw [heldFull_bytes]; decide

/-- An entry waits in wq, every lane active; an entry with lane 1 alone. -/
def storing : State := moves.updQ fun q => { q with wq := [zeros] }
/-- Lane 1 alone is active. -/
def oneLane : LaneEntry := { zeros with mask := 2 }

theorem test_met_sqst : moving.index.or storing.core.q.wq.head? = some zeros ∧ moving.snap.st[3].emptyGeo = false ∧
    moving.snap.st[3].rbytes.toNat ≤ 256 ∧
    (copyRowChecks (.sqst t0 3) moving [] (((rowStores 0xFF0000003000 64 zeros).filter
      fun r => !r.2.isEmpty).map fun r => (r.1, r.2.length)) storing).isNone = true ∧
    sqstResidue 64 zeros (((rowStores 0xFF0000003000 64 zeros).filter fun r => !r.2.isEmpty).flatMap (·.2))
      = false ∧ oneLane.mask ≠ BitVec.allOnes 64 ∧ oneLane.mask.getLsbD 1 = true ∧
    laneWidth oneLane * 1 < 5 := by decide

/-- A head word whose stream register 2 names 64 rows of 64 bytes; the gang has a core on die 1. -/
def sendRow : Entry := reading (rows 4 64 64)
/-- XSEND stands at the head of core 0, core 32 in its gang. -/
def sends : State := { atHead .copy sendRow with others := [{ id := CoreId.ofNat 32, ctl := { run := .running } }] }

theorem test_met_xsend : sendDue sends.core sendRow.snap false 0 = true ∧ sendRow.snap.st[2].emptyGeo = false ∧
    sendRow.snap.st[2].badFmt = false ∧ sendRow.snap.st[2].rows.toNat * sendRow.snap.st[2].rbytes.toNat = 4096 ∧
    neighbour sends false = some 32 ∧ headWord .copy sends = some (sendRow, []) ∧
    engReady .copy t0 sendRow sends = true ∧ sends.core.ctl.regs.hook = false := by decide

theorem test_met_xsend_checks : (readChecks (.xsend t0 2 false 5 0) .copy sendRow
    (sends.core.rowRanges sendRow.snap.st[2] 0 64) sends).isNone = true := by decide +kernel

theorem test_met_xsend_refused : sendDue sends.core { sendRow.snap with tbase := 100 } false 0 = false ∧
    neighbour (atHead .copy sendRow) false = none ∧
    (rows 4 64 63).rows.toNat * (rows 4 64 63).rbytes.toNat ≠ 4096 := by decide

/-- The launch lets the task name peers 0 and 1; peer 1 has an entry. -/
def peering : Entry := { moving with snap := { moving.snap with peern := 2 } }
/-- It stands at the head, the table holds peer 1, a switch. -/
def peered : State := { atHead .copy peering with sys := { (atHead .copy peering).sys with
  peers := [(0, 1, 0x47)] } }

theorem test_met_remote : peerAllowed peered peering.snap 1 = true ∧ peerAllowed peered peering.snap 0 = false ∧
    headWord .copy peered = some (peering, []) ∧ engReady .copy t0 peering peered = true ∧
    peering.snap.st[2].rows.toNat * peering.snap.st[2].rbytes.toNat ≤ 2 ^ 24 ∧
    (sendChecks (.rsend t0 2 1 9) peering (peered.core.rowRanges peering.snap.st[2] 0 2) peered).isNone
      = true ∧
    128 % reduceSize .addf = 0 ∧
    (accessFail (.rrecv t0 2 .addf 1 9) .copy (recvFails peered peering .addf
        (peered.core.rowRanges peering.snap.st[2] 0 2))
      (goneAt (locOf peered peering.snap .copy .write) (peered.core.rowRanges peering.snap.st[2] 0 2))
      peered).isNone = true ∧ peering.snap.wpen = 0 := by decide

/-- The RSEND of peer 1 under tag 9 has arrived. -/
def peeredArrived (n : Nat) : State := peered.upd fun c => { c with cp := { c.cp with arrived := [(1, 9, n)] } }

theorem test_met_remote_arrived : (peeredArrived 128).core.cp.arrived.find?
      (fun a => decide (a.1 = 1) && decide (a.2.1 = 9)) = some (1, 9, 128) ∧
    (peeredArrived 128).core.hook = none ∧ peered.core.cp.arrived = [] ∧
    2 ^ 24 < (rows 8 0x101 0x10000).rows.toNat * (rows 8 0x101 0x10000).rbytes.toNat ∧
    129 % reduceSize .addf ≠ 0 := by decide +kernel

/-- An ATOMV over a row of HBM, its indices all 0. -/
def adding : Entry := reading { base := 0x2000, rows := 1, rbytes := 64, pitch := 64 }
/-- It stands at the head with its operands. -/
def adds : State := (windowed (atHead .copy adding)).updQ fun q => { q with
  vq := q.vq.set 1 [zeros], wq := [zeros] }

theorem test_met_atomv : adds.core.q.vq[1] = [zeros] ∧ adds.core.q.wq = [zeros] ∧
    headWord .copy adds = some (adding, []) ∧ engReady .copy t0 adding adds = true ∧
    adding.snap.st[2].emptyGeo = false ∧ adding.snap.st[2].rbytes.toNat % 4 = 0 ∧ adds.core.cp.seq < 256 ∧
    (.addi : AtomV) ≠ .addf ∧ adding.snap.wpen = 0 := by decide

theorem test_met_atomv_refused : adds.noSorting = false ∧
    ({ adds with sys := { adds.sys with nosort := true } }).core.q.wq ≠ [] ∧ moves.core.q.wq = [] ∧
    256 ≤ (adds.upd fun c => { c with cp := { c.cp with seq := 256 } }).core.cp.seq := by decide

theorem test_met_atomv_checks : (accessFail (.atomv t0 2 1 .addi true) .copy (atomFails adds adding.snap 4
      ((atomLanes adds.core adding.snap.st[2] 4 zeros).map (·.2)))
    (goneAt (locOf adds adding.snap .copy .atomic)
      (((atomLanes adds.core adding.snap.st[2] 4 zeros).map (·.2)).map fun a => (a, 4))) adds).isNone = true := by
  decide +kernel

theorem test_met_atomv_scaled : (accessFail (.atomv t0 2 1 .addfs true) .copy (atomFails adds adding.snap 8
      ((atomLanes adds.core adding.snap.st[2] 8 zeros).map (·.2)))
    (goneAt (locOf adds adding.snap .copy .atomic)
      (((atomLanes adds.core adding.snap.st[2] 8 zeros).map (·.2)).map fun a => (a, 8))) adds).isNone = true := by
  decide +kernel

/-- An element of that ATOMV of `.ADDFS` holds an uncorrectable error. -/
def addsSpoiled : State := let s := rollable adds; { s with sys := { s.sys with bad := [(.hbm, 0x2000)] } }

theorem test_met_atomv_error :
    let as := ((atomLanes addsSpoiled.core adding.snap.st[2] 8 zeros).map (·.2)).map fun a => (a, 8)
    (firstBad addsSpoiled (locOf addsSpoiled adding.snap .copy .atomic) as).isSome = true ∧
    addsSpoiled.core.canRetry = true ∧ firstBad adds (locOf adds adding.snap .copy .atomic) as = none := by
  decide +kernel

/-! ### Events -/

/-- An RRECV of 4 bytes from peer 1 over port 3, unmatched or matched; an RSEND. -/
def recv (b : Bool) : Remote := { op := .recv, peer := 1, tag := 9, len := 4, posted := 0, matched := b
                                  st := { rows 8 1 4 with rows := 1 }, port := some 3 }
/-- An RSEND to peer 1 that times out at 1024. -/
def send : Remote := { op := .send, peer := 1, tag := 9, len := 4, posted := 0, rto := 1 }
/-- A core with a remote word. -/
def remotes (r : Remote) : State := (solo.upd fun c => { c with tick := 1025, cp := { c.cp with remote := [r] } })
/-- The same, a timed-out word's end still awaited. -/
def awaiting (r g : Remote) : State := (remotes r).upd fun c => { c with cp := { c.cp with gone := [g] } }
/-- A flit with four bytes of data has come at port 3. -/
def fed3 (s : State) : State := s.modPort 3 fun p => { p with got := [[1, 2, 3, 4]] }

theorem test_met_remote_ends :
    (remotes (recv false)).core.cp.remote.find? (fun r => r.isFor .recv 1 9 && !r.matched) = some (recv false) ∧
    (recv false).len = 4 ∧ (recv false).len ≠ 5 ∧
    (remotes send).core.cp.remote.find? (fun r => r.isFor .send 1 9) = some send ∧
    (remotes (recv true)).core.cp.remote.find? (fun r => r.isFor .recv 1 9 && r.matched) = some (recv true) ∧
    (recv true).came (fed3 (remotes (recv true))) = some [1, 2, 3, 4] ∧
    (recv true).came (remotes (recv true)) ≠ some [1, 2, 3, 4] ∧
    (remotes send).core.cp.remote.find? (fun r => decide (r.rto ≠ 0) &&
      decide (r.posted + 1024 * r.rto.toNat < (remotes send).core.tick)) = some send ∧
    (∀ x ∈ [send], x.isFor .recv 1 9 = false) ∧ ({ send with sent := 4 } : Remote).sent = 4 := by decide

theorem test_met_remote_gone :
    firstPosted ((awaiting { send with posted := 5 } send).core.cp.gone.filter fun g => g.isFor .send 1 9) = some send ∧
    send.posted ≤ ({ send with posted := 5 } : Remote).posted ∧
    firstPosted ((awaiting send { send with posted := 5 }).core.cp.gone.filter fun g => g.isFor .send 1 9)
      = some { send with posted := 5 } ∧ ¬ (({ send with posted := 5 } : Remote).posted ≤ send.posted) ∧
    firstPosted ((awaiting (recv true) (recv true)).core.cp.gone.filter fun g => g.isFor .recv 1 9) = some (recv true) ∧
    (remotes { recv true with rto := 1 }).core.cp.remote.find? (fun r => decide (r.rto ≠ 0) &&
      decide (r.posted + 1024 * r.rto.toNat < (remotes { recv true with rto := 1 }).core.tick))
      = some { recv true with rto := 1 } ∧ ({ recv true with rto := 1 } : Remote).badOld (remotes send) = none := by
  decide

/-- The destination of that RRECV, now a reduction, holds an uncorrectable error. -/
def spoiledRecv : State :=
  let s := fed3 (rollable (remotes { recv true with reduce := .addf }))
  { s with sys := { s.sys with bad := [(.bench 0, 4096)] } }

theorem test_met_remote_error : (({ recv true with reduce := .addf } : Remote).badOld spoiledRecv).isSome = true ∧
    ({ recv true with reduce := .addf } : Remote).came spoiledRecv = some [1, 2, 3, 4] ∧
    spoiledRecv.core.canRetry = true := by decide +kernel

theorem test_met_round : peered.distinct ∧ (peered.peer peered.core.ctl.regs.tenant 1).getLsbD 1 = true ∧
    pair.distinct := by unfold State.distinct; decide

/-- A record waits. -/
def recorded : State := solo.updQ fun q => { q with cqPend := [5] }
/-- A closed batch of two requests for one element: of one function, of two. -/
def closedBatch (f : AtomV) : State := (windowed solo).upd fun c => { c with cp := { c.cp with
  closed := [[(0, ⟨.addi, 0x2000, 1⟩), (256, ⟨f, 0x2000, 2⟩)]] } }

theorem test_met_batch : recorded.core.q.cqPend = [5] ∧ recorded.core.q.cq.length < 64 ∧
    batchReady (closedBatch .addi) = true ∧
    mixed (sortReqs (coreReqs (closedBatch .addi) (closedBatch .addi).core)) = false ∧
    mixed (sortReqs (coreReqs (closedBatch .maxf) (closedBatch .maxf).core)) = true := by decide

/-- The element of that batch holds an uncorrectable error. -/
def spoiledBatch : State :=
  let s := rollable (closedBatch .addi)
  { s with sys := { s.sys with bad := [(.hbm, 0x2000)] } }

theorem test_met_batch_error :
    let l := sortReqs (coreReqs spoiledBatch spoiledBatch.core)
    batchReady spoiledBatch = true ∧ mixed l = false ∧ (badReq spoiledBatch l).isSome = true ∧
    ((badReq spoiledBatch l).bind (reqCore spoiledBatch)) = some spoiledBatch.core ∧
    spoiledBatch.core.canRetry = true ∧ spoiledBatch.distinct ∧
    badReq (closedBatch .addi) (sortReqs (coreReqs (closedBatch .addi) (closedBatch .addi).core)) = none := by
  unfold State.distinct; decide +kernel

theorem test_met_batch_refused : batchReady solo = false ∧ batchReady (closedBatch .maxf) = true := by decide

/-- A part of 65,537 requests; the union of the ranks' parts is as long. -/
theorem test_met_batch_long : ∃ l : List (Nat × AtomReq), 65536 < l.length :=
  ⟨List.replicate 65537 (0, ⟨.addi, 0x2000, 1⟩), by rw [List.length_replicate]; decide⟩

theorem test_met_reduction : ([1, 2, 3, 4] : List Byte).length = 1 * reduceSize .addf := by decide

/-- An idle flit of zeros with its check code. -/
def flit : List Byte := List.replicate 252 0 ++ leBytes 4 (crc32 (List.replicate 252 0)).toNat
/-- A port that has been asked for one flit 9 times. -/
def failing : State := solo.modPort 3 fun p => { p with retries := 9 }

theorem test_met_ports : (solo.sys.ports[3]).up = true ∧ failing.sys.ports[3].up = true ∧
    9 ≤ failing.sys.ports[3].retries ∧ solo.sys.ports[3].retries < 9 ∧ solo.sys.ports[3].failed < 8 ∧
    8 ≤ (solo.modPort 3 fun p => { p with failed := 8 }).sys.ports[3].failed ∧
    (solo.modPort 3 fun p => { p with failed := 8 }).sys.ports[3].up = true ∧ solo.sys.ports[3].txSeq < 2 ^ 16 ∧ failing.distinct ∧ (solo.modPort 3 fun p => { p with failed := 8 }).distinct := by
  unfold State.distinct; decide

theorem test_met_flit : leNat ((flit.drop 252).take 4) = (crc32 (flit.take 252)).toNat ∧
    leNat ((flit.drop 4).take 1) = 0 ∧
    leNat (((1 :: flit.drop 1).drop 252).take 4) ≠ (crc32 ((1 :: flit.drop 1).take 252)).toNat := by
  decide +kernel

/-- A flit of zeros but for its type. -/
def typed (k : Byte) : List Byte :=
  let b : List Byte := [0, 0, 0, 0, k] ++ List.replicate 247 0
  b ++ leBytes 4 (crc32 b).toNat

theorem test_met_data_flit : leNat (((typed 1).drop 252).take 4) = (crc32 ((typed 1).take 252)).toNat ∧
    leNat (((typed 1).drop 4).take 1) = 1 := by decide +kernel

theorem test_met_retry_flit : leNat (((typed 2).drop 252).take 4) = (crc32 ((typed 2).take 252)).toNat ∧
    leNat (((typed 2).drop 4).take 1) = 2 := by decide +kernel

theorem test_met_host : (solo.queue 0 1).state = .idle ∧ (solo.queue 0 1).en = false ∧
    ((solo.modQueue 0 1 fun x => { x with en := true, state := .error }).queue 0 1).en = true ∧
    (solo.modTenant 0 fun x => { x with cores := [0] }).sys.tenants[0].cores.contains 0 = true ∧
    0x2000 < 8 * 2 ^ 36 ∧ 0x2000 % 2 ^ 36 + 8 ≤ 48 * 2 ^ 30 ∧ (128 : Nat) ≤ 128 ∧ (8 = 16 ∨ 8 = 8 ∨ 8 = 4) := by
  decide

theorem test_met_host_page : (solo.modTenant 0 fun x => { x with eren := true }).sys.tenants[0].eren = true ∧
    (0x218 : BitVec 16).toNat ≠ 0x200 ∧ (0x128 : BitVec 16).toNat % 64 ≠ 0 ∧ (0x128 : BitVec 16).toNat % 64 ≠ 0x20 ∧
    solo.sys.tenants[1].cores.contains 0 = false ∧ 48 * 2 ^ 30 < (48 * 2 ^ 30 - 4) % 2 ^ 36 + 8 ∧
    (0x128 : BitVec 16).toNat % 64 = 0x28 ∧ solo.romDie = some 0 ∧ (1 : Fin 16) ≠ 0 ∧
    128 < 129 ∧ ((2 : Nat) ≠ 16 ∧ (2 : Nat) ≠ 8 ∧ (2 : Nat) ≠ 4) := by decide

/-- Queue 1 of tenant 0 waits for its next rereading; an event of it waits. -/
def timed : State := solo.modQueue 0 1 fun x => { x with timer := some 300, events := [.kick 4] }

theorem test_met_host_events : solo.booted = false ∧ (timed.queue 0 1).timer ≠ none ∧ timed.noEvents 0 1 = false ∧
    solo.noEvents 0 1 = true := by decide

/-- Every die has finished its boot. -/
def booting (s : State) : State := { s with sys := { s.sys with
  die := s.sys.die.map fun d => { d with boot := .trimmed } } }

/-- Queue 1 of tenant 0 runs; at ring level or at a position of a fixed list. -/
def listing (p : Option DWord) : State := (booting (windowed solo)).modQueue 0 1 fun x =>
  { x with en := true, state := .running, pos := p }

theorem test_met_list : ((listing none).queue 0 1).live = true ∧ (listing none).booted = true ∧
    ((listing none).queue 0 1).pos = none ∧
    ((listing (some 0x1000)).queue 0 1).live = true ∧ ((listing (some 0x1000)).queue 0 1).pos.isSome = true ∧
    (listing none).sys.tenants[0].signalled 5 = false ∧ ((listing none).queue 0 1).waitEv = none ∧
    ((listing none).modTenant 0 fun x => { x with events := [5] }).sys.tenants[0].signalled 5 = true ∧
    listWord (listing none) 0 .atomic 0x2000 = some (.hbm, 0x2000) ∧
    listWord (listing none) 0 .read 0x2000 = some (.hbm, 0x2000) ∧ ((listing none).mem .hbm).wf = true ∧
    ((listing none).queue 0 1).calls = [] ∧ ((listing none).queue 0 1).calls.length < 4 ∧
    (((listing none).modQueue 0 1 fun x => { x with calls := [none, none, none, none] }).queue 0 1).calls.length
      = 4 := by decide +kernel

theorem test_met_list_stops : listWord (listing none) 0 .atomic 0x400000 = none ∧
    listWord (listing none) 0 .read 0x400000 = none ∧
    (((listing none).modQueue 0 1 fun x => { x with waitEv := some (5, true) }).queue 0 1).waitEv = some (5, true) ∧
    (listing none).sys.tenants[0].eren = false ∧
    (((listing none).modQueue 0 1 fun x => { x with calls := [some 0x100] }).queue 0 1).calls = [some 0x100] ∧
    ((listing none).mem .host).wf = true :=
  ⟨by decide +kernel, by decide +kernel, by decide +kernel, by decide +kernel, by decide +kernel, by decide +kernel⟩

/-- A slot of one core with two words of code. -/
def image : SlotImage := { slot := 0, code := nops, entry := 0, bench := [], loft := [], loftBase := 0, dataPa := 0
                           dataWin := 8, data := [], epi := [], dieSet := 1, indexSet := 1, streams := []
                           range := [] }
/-- A launch of that slot. -/
def launchOf : LaunchFields := ⟨0, 0, 0, 0, 0, 0, 0, false, false, 0, 0, 0, []⟩
/-- A task of it. -/
def taskIn (st : TaskState) : Task := { id := 0, tn := 0, q := 1, seq := 1, w := false, f := launchOf, gen := 1
                                        state := st, img := some image }
/-- The package has finished its boot; tenant 0 owns core 0; slot 0 is loaded. -/
def ready : State := { listing none with sys := { (listing none).sys with
  slots := [(0, { gen := 1, image := some image })]
  tenants := (listing none).sys.tenants.set 0 { (listing none).sys.tenants[0] with cores := [0], live := true } } }

theorem test_met_launch : residencyOk ready 0 1 launchOf = true ∧ residencyOk (listing none) 0 1 launchOf = false ∧
    (ready.queue 0 1).live = true ∧ ready.romDie = none := by decide +kernel

theorem test_met_entries : seqOk ((listing none).queue 0 1) (readEntry (listing none) 0 1) = true ∧
    entryInstr 0 1 (readEntry (listing none) 0 1) = none ∧
    seqOk (((listing none).modQueue 0 1 fun x => { x with next := 7 }).queue 0 1)
      (readEntry ((listing none).modQueue 0 1 fun x => { x with next := 7 }) 0 1) = false := by decide +kernel

/-- A task on core 0 in a state of its own; the core runs, has retired, or is idle. -/
def tasked (t : Task) (r : RunState) : State := { ready with
  core := { ready.core with ctl := { ready.core.ctl with run := r } }
  sys := { ready.sys with tasks := [t] } }

theorem test_met_start : (tasked (taskIn .waiting) .idle).task 0 = some (taskIn .waiting) ∧
    (tasked (taskIn .waiting) .idle).distinct ∧
    (tasked (taskIn .waiting) .idle).imageOf (taskIn .waiting) = some image ∧
    startReady (tasked (taskIn .waiting) .idle) (taskIn .waiting) = true ∧ (shapeCores image)[0]? = some 0 := by
  unfold State.distinct; decide +kernel

/-- Its queue keeps a fixed order. -/
def ordered : State := (tasked (taskIn .waiting) .idle).modQueue 0 1 fun x => { x with order := true }

theorem test_met_start_judged : (unjudged ordered).isSome = true ∧
    startReady (tasked (taskIn .waiting) .running) (taskIn .waiting) = false := by decide +kernel

/-- It holds core 0. -/
def onCore (st : TaskState) : Task := { taskIn st with cores := [0] }

theorem test_met_complete : taskOver (tasked (onCore .running) .retired) (onCore .running) = true ∧
    (onCore .running).saved = [] ∧ (onCore .running).f.event ≠ 0xFFFF := by decide

/-- Core 0 has been saved. -/
def savedOne : Task := { onCore .stopping with saved := [{ id := CoreId.ofNat 0 }] }
theorem test_met_complete_saved : taskOver (tasked savedOne .retired) savedOne = true ∧ savedOne.saved ≠ [] := by
  decide

/-- A double fault has been reported of it. -/
def faulted : Task := { onCore .running with cause := 0x3F }
theorem test_met_abort : abortReport (tasked faulted .dead) faulted = some (0x3F, 0, 0) ∧ faulted.onCores = true ∧
    ((tasked faulted .dead).queue 0 1).state ≠ .error := by decide

theorem test_met_preempt : (onCore .running).state = .running ∧
    prioOf (tasked (onCore .running) .running) (onCore .running) ≠ 3 ∧
    (onCore .saved).state ≠ .running ∧
    (∃ c ∈ (tasked (onCore .running) .running).coresOf (onCore .running), c.ctl.run = .running) ∧
    prioOf ((tasked (onCore .running) .running).modQueue 0 1 fun x => { x with prio := 3 }) (onCore .running) = 3 ∧
    (tasked (onCore .running) .running).noEvents 0 1 = true ∧ timed.noEvents 0 1 = false ∧
    (tasked (onCore .running) .running).booted = true :=
  ⟨rfl, by decide, nofun, ⟨_, List.mem_singleton.2 rfl, rfl⟩, by decide, by decide, by decide, by decide +kernel⟩

/-- It has been saved, with core 0's record. -/
def savedTask : Task := { onCore .saved with saved := [{ id := CoreId.ofNat 0, ctl := { bank1 := true } }] }
theorem test_met_resume : (tasked savedTask .idle).task 0 = some savedTask ∧
    coresFree (tasked savedTask .idle) savedTask.cores = true ∧ (tasked savedTask .idle).booted = true ∧
    (∀ r ∈ savedTask.saved, (derivedFail r).isNone = true ∧ r.ctl.regs.badEpc = false) ∧ savedTask.state = .saved ∧
    inPlacement (tasked savedTask .idle) savedTask.cores = true ∧
    portsFree (tasked savedTask .idle) savedTask = true ∧ (tasked savedTask .idle).sys.thermal = .normal ∧
    coresFree (tasked savedTask .running) savedTask.cores = false ∧ savedTask.nosort = false ∧
    (tasked savedTask .idle).sys.nosort = false ∧
    ({ tasked savedTask .idle with sys := { (tasked savedTask .idle).sys with nosort := true } }).sys.nosort = true := by
  decide +kernel

/-- Its core's batch waits to close. -/
def batchTask : State := (tasked (onCore .running) .running).upd fun c => { c with cp := (closedBatch .addi).core.cp }
theorem test_met_batch_task : batchReady batchTask = true ∧
    batchTask.taskOf batchTask.core = some (onCore .running) := by decide +kernel

/-- Its core stands in its handler for a BREAK. -/
def stoppedTask : State := (tasked (onCore .running) .running).updCtl fun c =>
  { c with bank1 := true, regs := { c.regs with ecause := 0x17 } }
theorem test_met_debug : debugStopped stoppedTask (onCore .running) = true ∧
    (∀ c ∈ stoppedTask.coresOf (onCore .running), (c.ctl.bank1 = true ∨ c.ctl.run = .retired) ∧
      (c.ctl.run = .running → c.ctl.regs.badEpc = false)) ∧ (onCore .running).state ≠ .saved := by decide +kernel

/-- Its queue's turn has come, the debug event its first. -/
def debugTurn : State := { stoppedTask.modQueue 0 1 fun x => { x with events := [.debug 0] } with turn := .list 0 1 }
theorem test_met_debug_event : noticed debugTurn = none ∧ dueEvent debugTurn = none ∧ debugTurn.booted = true ∧
    debugTurn.eventsOf 0 1 = [.debug 0] ∧ debugStopped debugTurn (onCore .running) = true ∧
    debugTurn.task 0 = some (onCore .running) := by decide +kernel

/-! ### Time -/

theorem test_met_releases : barReady (arrived (.bar 3 none)) 3 = true ∧
    plumbReady (arrived (.plumb 7 0 none)) 7 = true ∧
    (arrived (.plumb 7 0 none)).core.stall.stopped = false ∧ solo.core.ctl.run = .running ∧
    ((arrived (.plumb 7 0 none)).updStall fun x => { x with stopped := true }).core.stall.stopped = true ∧
    plumbReady ((arrived (.plumb 7 0 none)).updStall fun x => { x with stopped := true }) 7 = true := by decide

/-- The core stands stopped, its delay over; with a signal on its way; or still delayed. -/
def stalled (x : Stall) : State := solo.updStall fun _ => x
/-- It stands for its rollback, or for an LLAND, past the limit. -/
def slipping (d : Delay) : State := (stalled { stopped := true, delays := [d], slip := 4097 }).upd fun c =>
  { c with phase := { c.phase with rollback := decide (d = .rollback) }
           stream := { c.stream with late := decide (d = .beat) } }

theorem test_met_stalls : (stalled { stopAt := some 0 }).core.stopDue = true ∧
    resumeReady (stalled { stopped := true }) = true ∧
    (stalled { stopped := true, resumeAt := some 0 }).core.stall.resumeAt = some 0 ∧
    (stalled { stopped := true, resumeAt := some 0 }).core.ctl.bank1 = false ∧
    (slipping .rollback).core.slipDue = true ∧ (slipping .rollback).core.heldBlock.isNone = true ∧
    (slipping .beat).core.slipDue = true ∧
    (solo.upd fun c => { c with tick := 65536 }).core.deadDue = true ∧ inUser solo = true := by decide

/-- The same while the block at the head has no bytes. -/
def slippingBlock : State := (slipping .underrun).upd fun c => { c with gtick := 8, sd := some starved }

theorem test_met_slip_block : slippingBlock.core.slipDue = true ∧ slippingBlock.core.heldBlock.isSome = true := by
  decide

/-- A flight to slot 5 that has come. -/
def flight : Flight := ⟨5, 8, [], 0, false⟩
/-- It is on its way. -/
def flying (full : Bool) : State := solo.upd fun c => { c with land := { c.land with
  flights := [flight], slot := if full then c.land.slot.set 5 (some (8, [])) else c.land.slot } }

theorem test_met_landing : nextFlight (flying false).core.land.flights = some flight ∧
    flight.ready (flying false).core = true ∧ ((flying false).core.land.slot[flight.slot]) = none ∧
    ((flying true).core.land.slot[flight.slot]).isSome = true := by decide

/-- LLAND of slot 5 waits since gang tick 0. -/
def waiting (strict : Bool) : Entry := { head with word := BitVec.ofNat 32 (((encode (.lland t0 (.tile 3) 5)).map (·.1)).getD 0), since := some 0
                                                   snap := { head.snap with strict := strict } }

/-- An LLAND waits at the head past the limit. -/
def slippingLand : State := ((queued (slipping .landing) .load [.word (waiting false)]).updStall fun x =>
  { x with lateSlot := some 5 })

theorem test_met_slip_landing : slippingLand.core.slipDue = true ∧ slippingLand.core.heldBlock.isNone = true ∧
    (slippingLand.core.headLand.any fun h => h.1.since.isSome && decide (slippingLand.core.stall.lateSlot = some h.2))
      = true ∧ (slipping .rollback).core.headLand = none := by decide +kernel

theorem test_met_late_landing : (match (atHead .load (waiting true)).core.headLand with
      | some (x, k) => decide (x = waiting true) && decide (k = 5)
      | none => false) = true ∧
    (((atHead .load (waiting true)).upd fun c => { c with gtick := 32 }).core.lateLand).isSome = true ∧
    (((atHead .load (waiting false)).upd fun c => { c with gtick := 32 }).core.lateLand).isSome = true ∧
    (waiting true).snap.strict = true ∧ (waiting false).snap.strict = false := by decide +kernel

/-- A rollback is under way: the snapshot is there, the gang stands. -/
def rolling : State := (rollable solo).upd fun c =>
  { c with phase := { c.phase with rollback := true }, stall := { c.stall with stopped := true } }

theorem test_met_phase_resume : rolling.core.phase.snap.isSome = true ∧ rolling.core.rollsBack = true ∧
    (match rolling.core.phase.snap with
      | some x => (refetches x.vis x.srcs).isEmpty
      | none => false) = true ∧
    (stalled { preempt := some (0, 0) }).preemptDue = true := by decide +kernel

theorem test_met_wake : solo.core.ctl.regs.tenant = 0 ∧
    (arrived (.waitev 5 false)).core.ctl.arrival = some (.waitev 5 false) := by decide

/-- A replay of an entry of kind 7 in jig 1, and one past the last. -/
def replaying (es : List (BitVec 128)) : State := solo.upd fun c => { c with jig := { c.jig with
  jig := c.jig.jig.set 1 { state := .valid, entries := es }, play := some ⟨1, 0, 3, 0, 0, true⟩ } }

/-- The first entry of that jig holds an uncorrectable error. -/
def replayBad : State := { replaying [7] with sys := { (replaying [7]).sys with bad := [(.jig 0, 16384)] } }

theorem test_met_replay_bad : replayBad.badAt (.jig 0) 16384 1 = true ∧
    (([7] : List (BitVec 128)).take 0).all isStop = true ∧ replayBad.core.ctl.nest = none ∧
    noStep replayBad = true := by decide

theorem test_met_replay : (match nextEntry (replaying [7]).core.jig.jig[1].entries 0 with
      | (k, some e) => k == 0 && entKind e == 7 && entBits e 4 16 == 0
      | _ => false) = true ∧ (replaying [7]).core.q.xq.length < 16 ∧
    (replaying [7]).badAt (.jig 0) 16384 1 = false ∧
    (match nextEntry (replaying [8, 16]).core.jig.jig[1].entries 0 with
      | (k, some e) => k == 0 && entKind e == 8
      | _ => false) = true ∧
    (match nextEntry (replaying [0x17]).core.jig.jig[1].entries 0 with
      | (k, some e) => k == 0 && entBits e 4 16 == 1
      | _ => false) = true ∧
    (match nextEntry (replaying []).core.jig.jig[1].entries 0 with
      | (_, none) => true
      | _ => false) = true ∧ noStep (replaying []) = true := by decide

/-! ### The package -/

theorem test_met_boot : solo.sys.die[1].boot = .rom ∧ ready.sys.die[1].boot = .trimmed ∧
    ((solo.modDie 1 fun d => { d with boot := .firmware }).sys.die[1]).boot = .firmware ∧
    ¬ (([] : List Byte).length = 32) ∧ ¬ (([] : List Byte).length = 7856) ∧
    (∀ x ∈ solo.sys.tasks, x.onCores = false) ∧ solo.sys.die[1].exchanges < 63 ∧
    63 ≤ ((solo.modDie 1 fun d => { d with exchanges := 63 }).sys.die[1]).exchanges := by decide +kernel

theorem test_met_slot_load : slotRefused (booting solo) image = false ∧ slotRefused solo image = true ∧
    (booting solo).booted = true ∧ solo.booted = false ∧ solo.sys.tenants[3].live = false ∧
    grantRefused solo { cores := [5], windows := [], peers := [], homeDie := 0, bufs := .replicate 4 1 } = false ∧
    grantRefused solo { cores := [5], windows := [], peers := [], homeDie := 0, bufs := .replicate 4 0 } = true ∧
    (∀ x ∈ solo.sys.tasks, x.tn = (3 : Fin 16) → x.onCores = false) ∧
    (∃ x ∈ (tasked (onCore .running) .running).sys.tasks, x.tn = 0 ∧ x.onCores = true) :=
  ⟨by decide +kernel, by decide +kernel, by decide +kernel, by decide +kernel, by decide +kernel,
    by decide +kernel, by decide +kernel, by decide +kernel,
    ⟨_, List.mem_singleton.2 rfl, rfl, rfl⟩⟩

/-- Window 4 of die 1 is absent, its bytes in host memory. -/
def absent : State := solo.modDie 1 fun d => { d with win := [(4, BitVec.ofNat 128 (2 + 0x3C + 21 * 2 ^ 11 + 2 ^ 64))] }

theorem test_met_migration : winBits (BitVec.ofNat 128 (2 + 0x3C + 21 * 2 ^ 11 + 2 ^ 64)) 0 2 = 2 ∧
    (absent.sys.die[1].win.find? (fun e => decide (e.1 = 4))).isSome = true ∧
    (8 : BitVec 31).toNat * 2 ^ 21 % 2 ^ winBits (BitVec.ofNat 128 (2 + 0x3C + 21 * 2 ^ 11 + 2 ^ 64)) 11 5 = 0 ∧
    (8 : BitVec 31).toNat * 2 ^ 21 < 8 * 2 ^ 36 := by decide

/-! ### Encoding, and the invariant -/

theorem test_met_encoding : wellFormed (.div 5 6 7) = true ∧ encode (.div 5 6 7) = some (0x0014C70D, none) ∧
    (0x0014C70D < 2 ^ 32) := by decide

theorem test_met_step : State.reset.memWf = true ∧ State.reset.whole ∧
    step State.reset = .next State.reset.ticked := by
  unfold State.whole
  exact ⟨by decide +kernel, by decide +kernel, rfl⟩

/-- The handler's next word lies on an uncorrectable error. -/
def storeError : State := { handler with turn := .control, sys := { handler.sys with bad := [(.store 0, 0)] } }

theorem test_met_store_error : stepsControl storeError = true ∧
    storeError.core.ctl.nest = none ∧ storeError.core.ctl.pcq.q0.nul = false ∧
    storeError.storeBad storeError.core.ctl.pcq.q0.addr 4 = true := by decide

/-- The handler's next word is a long form whose continuation lies on such an error; its nest pushes a word that
does. -/
def contError : State := { handler.upd (fun c => { c with store := [(3, 0x50)] }) with
  turn := .control, sys := { handler.sys with bad := [(.store 0, 4)] } }
def bodyError : State := { (inNest nested atBody).upd (fun c => { c with
    ctl := { c.ctl with bank1 := true }, store := [(6, 0x38), (7, 0x20)] }) with
  turn := .control, sys := { handler.sys with bad := [(.store 0, 4)] } }

theorem test_met_store_error_behind : stepsControl contError = true ∧ contError.core.ctl.nest = none ∧
    contError.core.ctl.pcq.q0.nul = false ∧ contError.core.fetch contError.core.ctl.pcq.q0.addr = some 0x50000000 ∧
    (engineOf ((0x50000000 : Word).toNat / 2 ^ 29)).isSome = true ∧ isLong (0x50000000 : Word).toNat = true ∧
    contError.storeBad (contError.core.ctl.pcq.q0.addr + 4) 4 = true ∧ stepsControl bodyError = true ∧
    bodyError.core.ctl.nest = some atBody ∧
    (match bodyError.core.nestItem atBody with
      | .push _ _ w _ => w == 0x20380000
      | _ => false) = true ∧
    itemBad atBody bodyError (bodyError.core.nestItem atBody) = true := by decide +kernel

theorem test_met_f32 : IsF32 0x3F800000 1 ∧ (0 : ℝ) < 1 ∧ (1 : ℝ) = (2 : ℝ) ^ (0 : ℤ) :=
  ⟨⟨false, 2 ^ 23, -23, rfl, by norm_num⟩, by norm_num, by norm_num⟩

end Sys2Proof.Tests
end

namespace Sys2Proof.Machine

/-! ### The state at reset -/

/-- The number of the k-th core is k (R2). -/
theorem CoreId.num_ofNat {k : Nat} (h : k < 128) : (CoreId.ofNat k).num = k := by
  simp only [CoreId.num, CoreId.ofNat]
  omega

/-- A core at reset lists no byte in any memory. -/
theorem Core.memWf_reset (k : Nat) : (Core.reset k).memWf = true := rfl

/-- What the package shares lists no byte at reset. -/
theorem Sys.memWf_reset : ({} : Sys).memWf :=
  ⟨fun d => by simp, rfl, rfl, fun _ h => absurd h (List.not_mem_nil)⟩

theorem State.memWf_reset : State.reset.memWf = true := by
  refine (State.memWf_iff _).mpr ⟨Core.memWf_reset 0, fun c hc => ?_, Sys.memWf_reset⟩
  obtain ⟨k, -, rfl⟩ := List.mem_map.mp hc
  exact Core.memWf_reset (k + 1)

/-- The cores at reset are numbered 0 to 127 in order (R2). -/
theorem State.coreNums_reset : State.reset.coreNums = List.range 128 := by
  have others : (List.range 127).map (fun k => (Core.reset (k + 1)).id.num) = (List.range 127).map Nat.succ :=
    List.map_congr_left fun k hk => CoreId.num_ofNat (by have := List.mem_range.mp hk; omega)
  rw [List.range_succ_eq_map (n := 127), ← others]
  simp only [State.coreNums, State.reset, List.map_map]
  rfl

/-- Settles O59: no memory lists a byte at reset, and the cores are numbered 0 to 127 in order. -/
theorem resetInvariant : Obligations.ResetInvariant :=
  ⟨State.memWf_reset, List.Perm.of_eq State.coreNums_reset⟩

/-! ### What a step runs -/

/-- A word's outcome stands unless an engine before it has a fault on the same tick (R360). -/
theorem outrank_of_none {run : Instr → State → Out} {l : List Engine} {s : State} {o : Out}
    (h : traps s o = false ∨ headFault run l s = none) : outrank run l s o = o := by
  unfold outrank
  rcases h with h | h <;> simp [h]

/-- Where a word traps, the fault of an engine before it is taken in its place (R360). -/
theorem outrank_of_some {run : Instr → State → Out} {l : List Engine} {s : State} {o f : Out}
    (ht : traps s o = true) (hf : headFault run l s = some f) : outrank run l s o = f := by
  simp [outrank, ht, hf]

/-- A word that issues is run, or the fault that comes before it (R360). -/
theorem step_of_issue {s : State} {l : List Engine} {i : Instr} (h : nextAct s = .issue l i s) :
    (traps s (exec i s) = false ∨ headFault exec l s = none → step s = exec i s) ∧
      ∀ o, traps s (exec i s) = true → headFault exec l s = some o → step s = o := by
  have hs : step s = outrank exec l s (exec i s) := by rw [step, h]
  exact ⟨fun hn => hs.trans (outrank_of_none hn), fun o ht ho => hs.trans (outrank_of_some ht ho)⟩

/-- With nothing noticed and nothing due, the next act is that of the agent whose turn it is. -/
theorem nextAct_of_turn {s : State} (hn : noticed s = none) (hd : dueEvent s = none) : nextAct s = turnAct s := by
  simp [nextAct, hn, hd]

/-- In the control core's turn, with nothing awaited, the next act is that of its stream (R9, R41, R104). -/
theorem nextAct_of_stepsControl {s : State} (h : stepsControl s = true) : nextAct s = streamAct s := by
  simp only [stepsControl, Bool.and_eq_true, Bool.not_eq_true', decide_eq_true_eq, Option.isNone_iff_eq_none,
    and_assoc] at h
  obtain ⟨hn, hd, hturn, htick, hruns, hstop, hsettle, hrft, hwait, hland, hplay⟩ := h
  have hplaying : s.core.playing = false := by
    unfold Core.playing Core.livePlay at *
    cases hp : s.core.jig.play <;> simp_all [Option.filter]
  rw [nextAct_of_turn hn hd]
  simp [turnAct, hturn, controlAct, htick, hruns, hstop, hsettle, hrft, hwait, hland, hplaying]

/-- A control word's act is the instruction that it decodes to (R45, R53). -/
theorem wordAct_control {s : State} {w : Word} {i : Instr} (h0 : w.toNat / 2 ^ 29 = 0)
    (hd : decode w.toNat none = .ok i) : wordAct w s = ctlAct i s := by
  unfold wordAct
  rw [h0, show engineOf 0 = none from rfl]
  simp only [hd]

/-- The act at the head of the PC queue is that of the word it fetches (R41, R392). -/
theorem streamAct_head {s : State} {w : Word} (hnest : s.core.ctl.nest = none)
    (hnul : s.core.ctl.pcq.q0.nul = false) (hbad : s.storeBad s.core.ctl.pcq.q0.addr 4 = false)
    (hw : s.core.fetch s.core.ctl.pcq.q0.addr = some w) : streamAct s = wordAct w s := by
  simp [streamAct, headAct, hnest, hnul, hbad, hw]

theorem streamAct_nest {s : State} {r : NestRun} (hnest : s.core.ctl.nest = some r) :
    streamAct s = nestAct r s := by
  rw [streamAct, hnest]

/-- At a control word of a nest's body the act is that word's (R104). -/
theorem streamAct_body {s : State} {r : NestRun} {w : Word} (hnest : s.core.ctl.nest = some r)
    (hw : s.core.nestItem r = .word w) (hbad : s.storeBad s.core.nowAddr 4 = false) :
    streamAct s = wordAct w s := by
  have hi : itemBad r s (.word w) = false := hbad
  rw [streamAct_nest hnest, nestAct, hw, hi, if_neg Bool.false_ne_true]

/-- At any other place of a nest the act is the sequencer's move (R104). -/
theorem streamAct_sequencer {s : State} {r : NestRun} (hnest : s.core.ctl.nest = some r)
    (hword : ∀ w, s.core.nestItem r ≠ .word w) (hout : s.core.nestItem r ≠ .outside)
    (hbad : itemBad r s (s.core.nestItem r) = false) :
    streamAct s = ctlAct (.ngo r.table (BitVec.ofNat 12 r.n)) s := by
  rw [streamAct_nest hnest]
  unfold nestAct
  cases hi : s.core.nestItem r with
  | word w => exact absurd hi (hword w)
  | outside => exact absurd hi hout
  | _ =>
    rw [hi] at hbad
    simp only [hbad, Bool.false_eq_true, if_false]

/-- The act of an engine that runs is the instruction at its queue's head (R143). -/
theorem engineAct_head {s : State} {e : Engine} {x : Entry} {i : Instr} (hr : s.core.engRuns e = true)
    (hq : firstWord (s.core.eng e).queue = some x)
    (hd : decode x.word.toNat (x.cont.map (·.toNat)) = .ok i) : engineAct e s = .issue (above e) i s := by
  simp [engineAct, hr, hq, hd]

/-- Settles O31: the next act is found, and `step_of_issue` runs it. -/
theorem stepRunsDecodedWord : Obligations.StepRunsDecodedWord := by
  refine ⟨fun s w i hs hplace h0 hd => step_of_issue ?_, fun s r hs hnest hword hout hbad => step_of_issue ?_,
    fun s e x i hn hdue hturn hr hq hd => step_of_issue ?_⟩
  · rw [nextAct_of_stepsControl hs, ← ctlAct, ← wordAct_control h0 hd]
    rcases hplace with ⟨hnest, hnul, hbad, hw⟩ | ⟨r, hnest, hw, hbad⟩
    · exact streamAct_head hnest hnul hbad hw
    · exact streamAct_body hnest hw hbad
  · rw [nextAct_of_stepsControl hs]
    exact streamAct_sequencer hnest hword hout hbad
  · rw [nextAct_of_turn hn hdue, turnAct, hturn]
    exact engineAct_head hr hq hd

end Sys2Proof.Machine

namespace Sys2Proof.Machine

/-! ### Flits at a port (R387) -/

/-- The flits that an acknowledgement leaves. -/
def Port.kept (p : Port) (a : Nat) : List (List Byte) :=
  p.unacked.filter fun f => decide (2 ^ 15 ≤ (a + 2 ^ 16 - flitSeq f) % 2 ^ 16)

/-- A port after an acknowledgement, whether or not it frees a flit. -/
theorem Port.acked_eq (p : Port) (a : Nat) : p.acked a =
    let freed := decide ((p.kept a).length < p.unacked.length)
    { p with unacked := p.kept a, retries := if freed then 0 else p.retries, resent := p.resent && !freed } := by
  change (if (p.kept a).length < p.unacked.length then
    { p with unacked := p.kept a, retries := 0, resent := false } else p) = _
  split
  next h => simp [h]
  next h =>
    have keeps : p.kept a = p.unacked := List.filter_eq_self.mpr (List.length_filter_eq_length_iff.mp
      (Nat.le_antisymm (List.length_filter_le ..) (Nat.le_of_not_lt h)))
    simp [keeps]

theorem flitOk_iff (b : List Byte) : flitOk b = true ↔ leNat ((b.drop 252).take 4) = (crc32 (b.take 252)).toNat :=
  decide_eq_true_iff

/-- An event that changes one port changes nothing else. -/
theorem onlyPort_modPort {s : State} {port : Fin 32} {f : Port → Port} {y : Port} (h : f s.sys.ports[port] = y) :
    OnlyPort port y s (s.modPort port f).pass := ⟨rfl, rfl, by rw [← h]; rfl⟩

/-- A flit of the type awaited whose check code holds goes to g; any other is lost. -/
theorem ifGood_eq {p : Port} (hup : p.up = true) (b : List Byte) (ty : Nat) (g : Port) :
    (if !p.up then p else if !flitOk b || decide (flitType b ≠ ty) then p.lost else g) =
      if flitOk b = true ∧ flitType b = ty then g else p.lost := by
  by_cases hok : flitOk b = true <;> by_cases hty : flitType b = ty <;> simp [hup, hok, hty]

/-- The parts of a flit: its header and payload, 252 bytes, and their check code. -/
theorem flitOf_parts (seq ack ty : Nat) (pay : List Byte) : ∃ h : List Byte,
    flitOf seq ack ty pay = h ++ leBytes 4 (crc32 h).toNat ∧ h.length = 252 ∧
      h = leBytes 2 seq ++ leBytes 2 ack ++ leBytes 1 ty ++ leBytes 3 0
        ++ (pay ++ List.replicate (244 - pay.length) 0).take 244 :=
  ⟨_, rfl, by simp; omega, rfl⟩

/-- What a receiver reads from a flit. -/
theorem flitOf_reads {seq ack ty : Nat} {pay : List Byte} (hseq : seq < 2 ^ 16) (hty : ty < 2 ^ 8)
    (hpay : pay.length ≤ 244) : let f := flitOf seq ack ty pay
    f.length = 256 ∧ flitSeq f = seq ∧ flitType f = ty ∧ (f.drop 8).take pay.length = pay ∧ flitOk f = true := by
  obtain ⟨h, hf, hlen, hparts⟩ := flitOf_parts seq ack ty pay
  dsimp only
  rw [hf, flitOk_iff]
  have htake : (h ++ leBytes 4 (crc32 h).toNat).take 252 = h := by rw [← hlen, List.take_left]
  have hdrop : (h ++ leBytes 4 (crc32 h).toNat).drop 252 = leBytes 4 (crc32 h).toNat := by rw [← hlen, List.drop_left]
  refine ⟨by simp [hlen], ?_, ?_, ?_, ?_⟩
  · have : (h ++ leBytes 4 (crc32 h).toNat).take 2 = leBytes 2 seq := by simp [hparts, List.take_append]
    rw [flitSeq, this, leNat_leBytes]
    omega
  · have : ((h ++ leBytes 4 (crc32 h).toNat).drop 4).take 1 = leBytes 1 ty := by
      simp [hparts, List.take_append, List.drop_append]
    rw [flitType, this, leNat_leBytes]
    omega
  · simp [hparts, List.drop_append, List.drop_eq_nil_of_le, List.take_of_length_le, hpay]
  · rw [htake, hdrop, List.take_of_length_le (by simp), leNat_leBytes]
    have := (crc32 h).isLt
    omega


/-! ### Cores by their numbers (R2) -/

theorem State.mem_coreNums {s : State} {k : Nat} : k ∈ s.coreNums ↔ ∃ c, c ∈ s.core :: s.others ∧ c.id.num = k :=
  List.mem_map (f := fun c : Core => c.id.num) (l := s.core :: s.others)

/-- The core with a number is the one of that number, when no two share one. -/
theorem State.coreAt_eq_some_iff {s : State} (hd : s.distinct) {k : Nat} {c : Core} :
    s.coreAt k = some c ↔ c ∈ s.core :: s.others ∧ c.id.num = k := by
  have hfind : s.coreAt k = (s.core :: s.others).find? fun c => c.id.num == k := by
    unfold State.coreAt
    by_cases h : s.core.id.num = k <;> simp [h]
  have hnodup : ((s.core :: s.others).map (·.id.num)).Nodup := hd
  rw [hfind]
  constructor
  · intro h
    exact ⟨List.mem_of_find?_eq_some h, by simpa using List.find?_some h⟩
  · rintro ⟨hm, rfl⟩
    obtain ⟨d, hd'⟩ := Option.isSome_iff_exists.mp
      (List.find?_isSome (p := fun d : Core => d.id.num == c.id.num).mpr ⟨c, hm, by simp⟩)
    have hnum : d.id.num = c.id.num := by simpa using List.find?_some hd'
    rw [hd', List.inj_on_of_nodup_map hnodup (List.mem_of_find?_eq_some hd') hm hnum]

/-- The cores after the first of a list changes places with the one of a number. -/
theorem cores_exchange {a c : Core} {l : List Core} (hc : c ∈ l) (hd : (l.map (·.id.num)).Nodup) :
    (c :: l.map fun d => if d.id.num = c.id.num then a else d).Perm (a :: l) := by
  induction l with
  | nil => simp at hc
  | cons b l ih =>
    obtain ⟨hb, hl⟩ := List.nodup_cons.mp hd
    by_cases h : b.id.num = c.id.num
    · obtain rfl : c = b := by
        rcases List.mem_cons.mp hc with e | hm
        · exact e
        · exact absurd (List.mem_map.mpr ⟨c, hm, h.symm⟩) hb
      have rest : (l.map fun d => if d.id.num = c.id.num then a else d) = l := by
        conv_rhs => rw [← List.map_id l]
        exact List.map_congr_left fun d hm => if_neg fun e => hb (List.mem_map.mpr ⟨d, hm, e⟩)
      rw [List.map_cons, if_pos rfl, rest]
      exact List.Perm.swap ..
    · have hm : c ∈ l := (List.mem_cons.mp hc).resolve_left fun e => h (by rw [e])
      rw [List.map_cons, if_neg h]
      exact (List.Perm.swap ..).trans (((ih hm hl).cons b).trans (List.Perm.swap ..))

/-- The state in which the core with a number acts: it and the acting core change places. -/
def State.acting (s : State) (c : Core) : State :=
  { s with core := c, others := s.others.map fun d => if d.id.num = c.id.num then s.core else d }

theorem State.acting_perm {s : State} (hd : s.distinct) {c : Core} (hc : c ∈ s.others) :
    ((s.acting c).core :: (s.acting c).others).Perm (s.core :: s.others) :=
  cores_exchange hc (List.nodup_cons.mp hd).2

/-- Two states of the same cores, in any order, agree on the core with a number. -/
theorem State.coreAt_congr {s t : State} (hp : (t.core :: t.others).Perm (s.core :: s.others)) (hd : s.distinct) :
    t.distinct ∧ ∀ k, t.coreAt k = s.coreAt k := by
  have ht : t.distinct := (hp.map fun c : Core => c.id.num).nodup_iff.mpr hd
  refine ⟨ht, fun k => Option.ext fun c => ?_⟩
  rw [State.coreAt_eq_some_iff ht, State.coreAt_eq_some_iff hd, hp.mem_iff]

end Sys2Proof.Machine

namespace Sys2Proof.Machine

/-! ### Remote words that end with their port (R319, R387) -/

/-- A core whose remote words l have ended with REASON 7; its clock, registers and engines stand. -/
structure CoreDrops (l : List Remote) (c d : Core) : Prop where
  id : d.id = c.id
  ctl : d.ctl = c.ctl
  vis : d.vis = c.vis
  eng : ∀ e, d.eng e = c.eng e
  cp : d.cp = { c.cp with remote := l.foldl List.erase c.cp.remote }
  records : d.q.records = c.q.records ++ l.map (·.record 2 7)

theorem CoreDrops.refl (c : Core) : CoreDrops [] c c := ⟨rfl, rfl, rfl, fun _ => rfl, rfl, by simp⟩

theorem CoreDrops.bench (c : Core) (m : Mem) : CoreDrops [] c { c with bench := m } :=
  ⟨rfl, rfl, rfl, fun e => by cases e <;> rfl, rfl, by simp⟩

theorem CoreDrops.trans {l m : List Remote} {c d e : Core} (h : CoreDrops l c d) (k : CoreDrops m d e) :
    CoreDrops (l ++ m) c e where
  id := k.id.trans h.id
  ctl := k.ctl.trans h.ctl
  vis := k.vis.trans h.vis
  eng x := (k.eng x).trans (h.eng x)
  cp := by rw [k.cp, h.cp, List.foldl_append]
  records := by rw [k.records, h.records, List.map_append, List.append_assoc]

theorem Queues.records_addRecord (q : Queues) (r : Record) : (q.addRecord r).records = q.records ++ [r] := by
  unfold Queues.addRecord Queues.records
  split
  next h => simp [List.isEmpty_iff.mp h.2]
  · simp

theorem CoreDrops.endRemote (c : Core) (r : Remote) : CoreDrops [r] c (c.endRemote r 2 7) where
  id := rfl
  ctl := rfl
  vis := rfl
  eng e := by cases e <;> rfl
  cp := rfl
  records := (Queues.records_addRecord ..).trans (by cases h : r.op <;> simp [Remote.record, opNum, h])

/-- What the package shares, but for the memories, the bad locations and what a port has got. -/
structure PortSys (port : Fin 32) (y z : Sys) : Prop where
  mlog : z.mlog = y.mlog
  boot : ∀ d : Fin 4, z.die[d].boot = y.die[d].boot
  other : ∀ k : Fin 32, k ≠ port → z.ports[k] = y.ports[k]
  port : z.ports[port] = { y.ports[port] with got := z.ports[port].got }

theorem PortSys.refl (port : Fin 32) (y : Sys) : PortSys port y y := ⟨rfl, fun _ => rfl, fun _ _ => rfl, rfl⟩

theorem PortSys.trans {port : Fin 32} {x y z : Sys} (h : PortSys port x y) (k : PortSys port y z) : PortSys port x z where
  mlog := k.mlog.trans h.mlog
  boot d := (k.boot d).trans (h.boot d)
  other p hp := (k.other p hp).trans (h.other p hp)
  port := by rw [k.port, h.port]

/-- From s to t each core's words that w names by its number end, the acting core stays the acting one, and nothing
of the package changes but memories and what the port has got. -/
structure Drops (port : Fin 32) (w : Nat → Core → List Remote) (s t : State) : Prop where
  acting : t.core.id.num = s.core.id.num
  nums : t.coreNums.Perm s.coreNums
  cores : ∀ j, AtCore j (fun c d => CoreDrops (w j c) c d) s t
  sys : PortSys port s.sys t.sys

/-- No core's words end. -/
def noWords : Nat → Core → List Remote := fun _ _ => []

/-- Words of one core end. -/
def onlyAt (k : Nat) (l : List Remote) : Nat → Core → List Remote := fun j _ => if j = k then l else []

theorem Drops.trans {port : Fin 32} {v w x : Nat → Core → List Remote} {s t u : State} (h : Drops port v s t)
    (k : Drops port w t u)
    (hx : ∀ j c d, s.coreAt j = some c → CoreDrops (v j c) c d → v j c ++ w j d = x j c) : Drops port x s u where
  acting := k.acting.trans h.acting
  nums := k.nums.trans h.nums
  cores j c hc := by
    obtain ⟨d, hd, hcd⟩ := h.cores j c hc
    obtain ⟨e, he, hde⟩ := k.cores j d hd
    refine ⟨e, he, ?_⟩
    show CoreDrops (x j c) c e
    rw [← hx j c d hc hcd]
    exact hcd.trans hde
  sys := h.sys.trans k.sys

theorem Drops.refl (port : Fin 32) (s : State) : Drops port noWords s s :=
  ⟨rfl, .refl _, fun _ c hc => ⟨c, hc, .refl c⟩, .refl ..⟩

theorem Drops.distinct {port : Fin 32} {w : Nat → Core → List Remote} {s t : State} (h : Drops port w s t)
    (hd : s.distinct) : t.distinct := h.nums.nodup_iff.mpr hd

/-- A change of the acting core alone. -/
theorem Drops.of_core {port : Fin 32} {l : List Remote} {s t : State} (hc : CoreDrops l s.core t.core)
    (ho : t.others = s.others) (hs : t.sys = s.sys) : Drops port (onlyAt s.core.id.num l) s t where
  acting := by rw [hc.id]
  nums := by simp [State.coreNums, hc.id, ho]
  cores j c h := by
    unfold State.coreAt at h ⊢
    rw [hc.id, ho]
    unfold onlyAt
    by_cases hj : s.core.id.num = j
    · rw [if_pos hj] at h ⊢
      obtain rfl : s.core = c := Option.some.inj h
      exact ⟨_, rfl, by simpa [hj] using hc⟩
    · rw [if_neg hj] at h ⊢
      exact ⟨c, h, by simpa [Ne.symm hj] using CoreDrops.refl c⟩
  sys := hs ▸ .refl ..

/-- A change of what the package shares alone. -/
theorem Drops.of_sys {port : Fin 32} {s t : State} (hc : t.core = s.core) (ho : t.others = s.others)
    (hs : PortSys port s.sys t.sys) : Drops port noWords s t where
  acting := by rw [hc]
  nums := by simp [State.coreNums, hc, ho]
  cores j c h := ⟨c, by rwa [State.coreAt, hc, ho], .refl c⟩
  sys := hs

/-- Two changes that end no word. -/
theorem Drops.still {port : Fin 32} {s t u : State} (h : Drops port noWords s t) (k : Drops port noWords t u) :
    Drops port noWords s u := h.trans k fun _ _ _ _ _ => rfl

/-- A write at a home ends no word: it changes a bench, or what the package shares. -/
theorem Drops.writeAt (port : Fin 32) (s : State) (sp : Space) (off : Nat) (bs : List Byte) :
    Drops port noWords s (s.writeAt sp off bs) := by
  have hset : Drops port noWords s (s.setMem sp ((s.mem sp).write off bs)) := by
    generalize (s.mem sp).write off bs = m
    cases sp with
    | bench k =>
      have hnums : (s.setMem (.bench k) m).coreNums = s.coreNums := State.coreNums_setMem ..
      refine ⟨List.head_eq_of_cons_eq hnums, .of_eq hnums, fun j c hc => ?_, ?_⟩
      · have hat := State.coreAt_modCore s k j (fun c => { c with bench := m }) fun _ => rfl
        rw [hc, Option.map_some] at hat
        refine ⟨_, hat, ?_⟩
        split
        · exact .bench c m
        · exact .refl c
      · rw [State.setMem, State.modCore_sys]
        exact .refl ..
    | loft d =>
      refine .of_sys rfl rfl ⟨rfl, fun e => ?_, fun _ _ => rfl, rfl⟩
      by_cases h : d = e
      · subst h
        simp [State.setMem, State.modDie]
      · have : d.val ≠ e.val := fun hv => h (Fin.ext hv)
        simp [State.setMem, State.modDie, Vector.getElem_set_ne, this]
    | hbm | host => exact .of_sys rfl rfl ⟨rfl, fun _ => rfl, fun _ _ => rfl, rfl⟩
    | hold | slot | jig | store => exact .refl ..
  unfold State.writeAt
  generalize s.setMem sp ((s.mem sp).write off bs) = t at hset
  rcases t.mend_eq sp off bs.length with h | ⟨l, h⟩ <;> rw [h]
  · exact hset
  · exact hset.still (.of_sys rfl rfl ⟨rfl, fun _ => rfl, fun _ _ => rfl, rfl⟩)

/-- A fold of changes that end no word, with something carried along. -/
theorem Drops.foldlPair {port : Fin 32} {α β : Type} (l : List α) (f : State × β → α → State × β) (p : State × β)
    (hf : ∀ q x, Drops port noWords q.1 (f q x).1) : Drops port noWords p.1 (l.foldl f p).1 := by
  induction l generalizing p with
  | nil => exact .refl ..
  | cons x l ih => exact (hf p x).still (ih (f p x))

theorem Drops.writeRange (port : Fin 32) (s : State) (l : Loc) (a : Nat) (bs : List Byte) :
    Drops port noWords s (writeRange s l a bs) := by
  refine Drops.foldlPair _ (writePiece l) (s, bs) fun q x => ?_
  unfold writePiece
  split
  · exact .writeAt ..
  · exact .refl ..

theorem Drops.writeRows (port : Fin 32) (s : State) (l : Loc) (st : StReg) (bs : List Byte) :
    Drops port noWords s (writeRows s l st bs) :=
  Drops.foldlPair _ _ (s, bs) fun _ _ => .writeRange ..

theorem Drops.partRecv (port : Fin 32) (s : State) (r : Remote) : Drops port noWords s (partRecv r s) := by
  unfold Machine.partRecv
  split
  · refine Drops.still (t := (s.pick (2 ^ r.len)).2) (.of_sys rfl rfl (.refl ..)) ?_
    exact .writeRows ..
  · exact .refl ..

theorem Drops.dropFlits {port : Fin 32} (s : State) {r : Remote} (hr : r.port = some port) :
    Drops port noWords s (dropFlits r s) := by
  unfold Machine.dropFlits
  rw [hr]
  refine .of_sys rfl rfl ⟨rfl, fun _ => rfl, fun k hk => ?_, ?_⟩
  · have : port.val ≠ k.val := fun hv => hk (Fin.ext hv.symm)
    simp [State.modPort, Vector.getElem_set_ne, this]
  · simp [State.modPort]

/-- One word that rides on the port ends. -/
theorem Drops.dropRemote (port : Fin 32) (s : State) (r : Remote) :
    Drops port (onlyAt s.core.id.num [r]) s (s.dropRemote r 2 7) := by
  have hp := Drops.partRecv port s r
  have he : Drops port (onlyAt (Machine.partRecv r s).core.id.num [r]) (Machine.partRecv r s) (s.dropRemote r 2 7) :=
    .of_core (.endRemote ..) rfl rfl
  refine hp.trans he fun j c d _ _ => ?_
  rw [hp.acting]
  rfl

/-- A list's elements that meet a test are erased from it: the others stay. -/
theorem foldl_erase_filter {α : Type} [DecidableEq α] (p : α → Bool) (l : List α) :
    (l.filter p).foldl List.erase l = l.filter (!p ·) := by
  have key : ∀ m a : List α, (∀ x ∈ a, p x = false) →
      (m.filter p).foldl List.erase (a ++ m) = a ++ m.filter (!p ·) := by
    intro m
    induction m with
    | nil => simp
    | cons x m ih =>
      intro a ha
      by_cases hx : p x = true
      · have hxa : x ∉ a := fun hm => by simp [ha x hm] at hx
        simp only [List.filter_cons, hx, if_true, List.foldl_cons, List.erase_append_right _ hxa, List.erase_cons_head]
        simpa using ih a ha
      · have hx' : p x = false := by simpa using hx
        have := ih (a ++ [x]) fun y hy => by
          rcases List.mem_append.mp hy with hy | hy
          · exact ha y hy
          · rw [List.mem_singleton.mp hy]
            exact hx'
        simpa [List.filter_cons, hx'] using this
  simpa using key l [] (by simp)

/-- The words of a core that ride on a port. -/
def Core.riders (port : Fin 32) (c : Core) : List Remote := c.cp.remote.filter (·.rides port)

theorem Drops.foldDrop {port : Fin 32} (l : List Remote) (hl : ∀ r ∈ l, r.rides port = true) (s : State) :
    Drops port (onlyAt s.core.id.num l) s (l.foldl (fun s r =>
      let t := s.dropRemote r 2 7
      if r.op = .recv ∧ r.matched then Machine.dropFlits r t else t) s) := by
  induction l generalizing s with
  | nil => exact .of_core (.refl _) rfl rfl
  | cons r l ih =>
    obtain ⟨hr, hl⟩ := List.forall_mem_cons.mp hl
    have hport : r.port = some port := by
      have := (Bool.and_eq_true _ _).mp hr
      exact of_decide_eq_true this.1
    have hone : Drops port (onlyAt s.core.id.num [r]) s (if r.op = .recv ∧ r.matched then
        Machine.dropFlits r (s.dropRemote r 2 7) else s.dropRemote r 2 7) := by
      split
      · exact (Drops.dropRemote port s r).trans (.dropFlits _ hport) fun _ _ _ _ _ => List.append_nil _
      · exact .dropRemote ..
    rw [List.foldl_cons]
    refine hone.trans (ih hl _) fun j c d _ _ => ?_
    rw [hone.acting]
    unfold onlyAt
    split <;> rfl

/-- The words of the acting core that ride on the port end. -/
theorem Drops.portLost (port : Fin 32) (s : State) :
    Drops port (onlyAt s.core.id.num (s.core.riders port)) s (s.portLost port) :=
  .foldDrop _ (fun _ hr => (List.mem_filter.mp hr).2) s

end Sys2Proof.Machine

namespace Sys2Proof.Machine

/-- Acting as the core with a number, which is back in its place afterwards. -/
theorem Drops.asCore {port : Fin 32} {s : State} (hd : s.distinct) {c : Core} {k : Nat} (hc : s.coreAt k = some c)
    {f : State → State} {l : List Remote} (hf : ∀ u : State, u.core = c → Drops port (onlyAt u.core.id.num l) u (f u)) :
    Drops port (onlyAt k l) s (s.asCore k f) := by
  obtain ⟨-, rfl⟩ := (State.coreAt_eq_some_iff hd).mp hc
  by_cases hk : s.core.id.num = c.id.num
  · have hs : s.core = c := by simpa [State.coreAt, hk] using hc
    rw [State.asCore, if_pos hk, ← hk]
    exact hf s hs
  have hfind : s.others.find? (fun d => d.id.num == c.id.num) = some c := by simpa [State.coreAt, hk] using hc
  have hperm := State.acting_perm hd (List.mem_of_find?_eq_some hfind)
  obtain ⟨hud, hucore⟩ := State.coreAt_congr hperm hd
  have hfu : Drops port (onlyAt c.id.num l) (s.acting c) (f (s.acting c)) := hf (s.acting c) rfl
  have htd := hfu.distinct hud
  obtain ⟨d, hdat, -⟩ := hfu.cores s.core.id.num s.core ((hucore _).trans (by simp [State.coreAt]))
  have hacting : (f (s.acting c)).core.id.num ≠ s.core.id.num := by
    rw [hfu.acting]
    exact fun h => hk h.symm
  have hfound : (f (s.acting c)).others.find? (fun e => e.id.num == s.core.id.num) = some d := by
    simpa [State.coreAt, hacting] using hdat
  have hnum : d.id.num = s.core.id.num := by simpa using List.find?_some hfound
  have hback : s.asCore c.id.num f = (f (s.acting c)).acting d := by
    rw [State.asCore, if_neg hk, hfind]
    dsimp only
    change (match (f (s.acting c)).others.find? (fun e => e.id.num == s.core.id.num) with
      | none => s
      | some mine => _) = _
    rw [hfound, State.acting, hnum]
    rfl
  have hperm' := State.acting_perm htd (List.mem_of_find?_eq_some hfound)
  obtain ⟨-, htcore⟩ := State.coreAt_congr hperm' htd
  rw [hback]
  refine ⟨hnum, ?_, fun j e he => ?_, hfu.sys⟩
  · exact ((hperm'.map fun c : Core => c.id.num).trans hfu.nums).trans (hperm.map fun c : Core => c.id.num)
  · obtain ⟨g, hg, heg⟩ := hfu.cores j e ((hucore j).trans he)
    exact ⟨g, (htcore j).trans hg, heg⟩

/-- The words that ride on the port, of the cores listed. -/
def ridersOf (port : Fin 32) (ks : List Nat) : Nat → Core → List Remote :=
  fun j c => if j ∈ ks then c.riders port else []

/-- A port that goes down ends the words of every core listed. -/
theorem Drops.foldCores (port : Fin 32) (ks : List Nat) {s : State} (hd : s.distinct) (hks : ∀ k ∈ ks, k ∈ s.coreNums)
    (hn : ks.Nodup) :
    Drops port (ridersOf port ks) s (ks.foldl (fun s k => s.asCore k fun s => s.portLost port) s) := by
  induction ks generalizing s with
  | nil => exact .refl ..
  | cons k ks ih =>
    obtain ⟨hk, hks⟩ := List.forall_mem_cons.mp hks
    obtain ⟨hkn, hn⟩ := List.nodup_cons.mp hn
    obtain ⟨c, hm⟩ := State.mem_coreNums.mp hk
    have hc := (State.coreAt_eq_some_iff hd).mpr hm
    have hone : Drops port (onlyAt k (c.riders port)) s (s.asCore k fun s => s.portLost port) :=
      .asCore hd hc fun u hu => hu ▸ .portLost port u
    refine hone.trans (ih (hone.distinct hd) (fun j hj => hone.nums.mem_iff.mpr (hks j hj)) hn) fun j b d hb hbd => ?_
    unfold onlyAt at hbd ⊢
    unfold ridersOf
    by_cases hj : j = k
    · subst hj
      obtain rfl : c = b := Option.some.inj (hc.symm.trans hb)
      simp [hkn]
    · rw [if_neg hj] at hbd ⊢
      have hcp : d.cp = b.cp := hbd.cp
      simp [hj, Core.riders, hcp]

end Sys2Proof.Machine

namespace Sys2Proof.Machine

/-- Whether every die has booted depends on their stages alone. -/
theorem State.booted_congr {s t : State} (h : ∀ d : Fin 4, t.sys.die[d].boot = s.sys.die[d].boot) : t.booted = s.booted := by
  rw [Bool.eq_iff_iff]
  simp only [State.booted, List.all_eq_true, Vector.mem_toList_iff, Vector.forall_mem_iff_forall_getElem,
    decide_eq_true_iff]
  constructor
  · exact fun ht i hi => (h ⟨i, hi⟩).symm.trans (ht i hi)
  · exact fun hs i hi => (h ⟨i, hi⟩).trans (hs i hi)

/-- Whether a retry request counts, as a test and as a proposition. -/
theorem Port.counts_eq (p : Port) :
    (if !p.unacked.isEmpty && (decide (p.retries = 0) || p.resent) then p.retries + 1 else p.retries) =
      if p.unacked ≠ [] ∧ (p.retries = 0 ∨ p.resent = true) then p.retries + 1 else p.retries := by
  refine if_congr ?_ rfl rfl
  simp

/-- Below the limits of R387 PORT_DOWN does nothing. -/
theorem idles_portDown {s : State} {port : Fin 32} (hr : s.sys.ports[port].retries < 9)
    (hf : s.sys.ports[port].failed < 8) : Idles (.portDown port) s := by
  have hb : s.sys.ports[port].broken = false := by
    unfold Port.broken
    rw [decide_eq_false (Nat.not_le_of_lt hr), decide_eq_false (Nat.not_le_of_lt hf), Bool.or_false, Bool.and_false]
  refine ⟨s.pass, ?_, rfl, rfl, rfl⟩
  show execPortDown port s = _
  rw [execPortDown, hb]
  rfl

/-- A port that goes down is closed, then the words that ride on it end core by core, then the event is noted. -/
theorem exec_portDown {s : State} {port : Fin 32} (hup : s.sys.ports[port].up = true)
    (h : 9 ≤ s.sys.ports[port].retries ∨ 8 ≤ s.sys.ports[port].failed) (hd : s.distinct) :
    ∃ u v bs, u = s.modPort port (fun p => { p with up := false, unacked := [], resend := [] }) ∧
      Drops port (ridersOf port s.coreNums) u v ∧ exec (.portDown port) s = .next (v.note bs).pass := by
  have hb : s.sys.ports[port].broken = true := by
    unfold Port.broken
    rw [hup, Bool.true_and, Bool.or_eq_true, decide_eq_true_iff, decide_eq_true_iff]
    exact h
  have hrun : exec (.portDown port) s = execPortDown port s := rfl
  rw [hrun, execPortDown, hb]
  exact ⟨_, _, _, rfl, Drops.foldCores port s.coreNums (s := s.modPort port _) hd (fun _ hk => hk) hd, rfl⟩

theorem coreAt_note (v : State) (bs : List Byte) (k : Nat) : (v.note bs).pass.coreAt k = v.coreAt k := by
  unfold State.note
  split <;> rfl

theorem mlog_note (v : State) (bs : List Byte) :
    (v.note bs).sys.mlog.length = v.sys.mlog.length + if v.booted then 1 else 0 := by
  unfold State.note
  split <;> simp [*]

theorem ports_note (v : State) (bs : List Byte) : (v.note bs).sys.ports = v.sys.ports := by
  unfold State.note
  split <;> rfl

/-- Settles O50: the events of a port are the cases of `Port.acked`, `Port.take` and `Port.lost`; the port's end goes
over the cores by `Drops.foldCores`. -/
theorem portEvents : Obligations.PortEvents := by
  intro s port b hup p ack keep freed a lost good type
  have hacked : p.acked (flitAck b) = a := Port.acked_eq p _
  have hok : flitOk b = true ↔ good := flitOk_iff b
  have hlost (ty : Nat) (g : Port) (h : ¬ (good ∧ type = ty)) :
      (if !p.up then p else if !flitOk b || decide (flitType b ≠ ty) then p.lost else g) = lost := by
    rw [ifGood_eq hup, if_neg fun hg => h ⟨hok.mp hg.1, hg.2⟩]
    rfl
  have hgood (ty : Nat) (g : Port) (hg : good) (ht : type = ty) :
      (if !p.up then p else if !flitOk b || decide (flitType b ≠ ty) then p.lost else g) = g := by
    rw [ifGood_eq hup, if_pos ⟨hok.mpr hg, ht⟩]
  refine ⟨fun hg ht => ⟨_, rfl, onlyPort_modPort ((hgood 1 _ hg ht).trans ?_)⟩,
    fun hg ht => ⟨_, rfl, onlyPort_modPort ((hgood 0 _ hg ht).trans hacked)⟩,
    fun hg ht => ⟨_, rfl, onlyPort_modPort ((hgood 2 _ hg ht).trans ?_)⟩,
    fun i ty hi hn => ?_, idles_portDown, fun h hd => ?_, fun pay hpay htx => ?_⟩
  · show (p.acked (flitAck b)).take b = _
    rw [hacked]
    rfl
  · rw [show s.sys.ports[port].acked (flitAck b) = a from hacked]
    exact congrArg (fun n => { a with resend := keep, resent := false, retries := n }) a.counts_eq
  · simp only [List.mem_cons, Prod.mk.injEq, List.not_mem_nil, or_false] at hi
    rcases hi with ⟨rfl, rfl⟩ | ⟨rfl, rfl⟩ | ⟨rfl, rfl⟩ <;>
      exact ⟨_, rfl, onlyPort_modPort (hlost _ _ hn)⟩
  · obtain ⟨u, v, bs, rfl, hv, ht⟩ := exec_portDown hup h hd
    refine ⟨_, ht, ?_, fun k hk => ?_, ?_, fun k c hc => ?_⟩
    · have hports : (v.note bs).pass.sys.ports = v.sys.ports := ports_note v bs
      rw [hports]
      refine hv.sys.port.trans ?_
      simp only [State.modPort, Fin.getElem_fin, Vector.getElem_set_self]
      rfl
    · show (v.note bs).sys.ports[k] = _
      have hval : port.val ≠ k.val := fun h => hk (Fin.ext h.symm)
      rw [ports_note, hv.sys.other k hk]
      exact Vector.getElem_set_ne port.isLt k.isLt hval
    · show (v.note bs).sys.mlog.length = _
      rw [mlog_note, hv.sys.mlog, State.booted_congr hv.sys.boot]
      rfl
    · obtain ⟨d, hd', hcd⟩ := hv.cores k c hc
      refine ⟨d, (coreAt_note ..).trans hd', ?_⟩
      have hk : ridersOf port s.coreNums k c = c.cp.remote.filter (·.rides port) :=
        if_pos (State.mem_coreNums.mpr ⟨c, (State.coreAt_eq_some_iff hd).mp hc⟩)
      rw [hk] at hcd
      exact ⟨hcd.ctl, hcd.vis, hcd.eng, by rw [hcd.cp, foldl_erase_filter]; rfl, hcd.records⟩
  · obtain ⟨hlen, hseq, hty, hpay', hcrc⟩ := flitOf_reads (ack := p.ack) htx (show 1 < 2 ^ 8 by decide) hpay
    exact ⟨rfl, rfl, hlen, hseq, hty, hpay', (flitOk_iff _).mp hcrc⟩

end Sys2Proof.Machine

namespace Sys2Proof.Machine

/-! ### The package's events in a state with two cores of one number

`Obligations.PackageEvents` speaks of every state. WINDOW_MIGRATED looks at each core in turn as the acting one and puts
the cores back by their numbers (`State.asCore`), which needs that no two cores share a number (R2). The statement does
not ask for that, so a state that no step from reset reaches refutes it. -/

/-- Three cores: the acting one of number 0, a second of number 0 that lists a byte of its bench, and one of number 1.
Die 0 has an absent window of one byte (STATE 2). -/
def State.doubled : State :=
  { State.reset with
    others := [{ Core.reset 0 with bench := [(0, 1)] }, Core.reset 1]
    sys := { die := .ofFn fun _ => { win := [(0, 2)] } } }

/-- What WINDOW_MIGRATED leaves: the second core of number 0 acts. -/
theorem exec_windowMigrated_doubled :
    ∃ t, exec (.windowMigrated 0 0 0) State.doubled = .next t ∧ t.core = { Core.reset 0 with bench := [(0, 1)] } :=
  ⟨_, rfl, rfl⟩

/-- Refutes O55: the migration changes byte 0 of the bench that the machine reads for core 0, which is outside the
window's bytes in HBM. -/
theorem not_packageEvents : ¬ Obligations.PackageEvents := by
  intro h
  obtain ⟨-, -, -, -, -, -, -, -, -, -, -, -, -, -, hmigrated, -⟩ := h State.doubled
  obtain ⟨t, ht, hmem, -⟩ := hmigrated 0 0 0 0 2 rfl rfl rfl (by decide) (by decide)
  obtain ⟨u, hu, hcore⟩ := exec_windowMigrated_doubled
  obtain rfl : t = u := Host.Outcome.next.inj (ht.symm.trans hu)
  have hread := hmem (.bench 0) 0 (by simp)
  have hbench : t.mem (.bench 0) = [(0, 1)] := by simp [State.mem, State.coreAt, hcore, CoreId.num, Core.reset, CoreId.ofNat]
  rw [hbench] at hread
  exact absurd hread (by decide)

end Sys2Proof.Machine

namespace Sys2Proof.Machine

/-! ### The invariant, operation by operation: cores

The invariant speaks of a core's number and of four memories alone. `b.Keeps c` says that c may stand in b's
place; each operation of a core has one lemma that says so, stated so that the lemmas chain. -/

/-- A core of the same number, whose memories are canonical when the first one's are. -/
structure Core.Keeps (b c : Core) : Prop where
  id : c.id = b.id
  mem : b.memWf = true → c.memWf = true

@[simp] theorem Core.Keeps.refl (c : Core) : c.Keeps c := ⟨rfl, fun h => h⟩

theorem Core.Keeps.trans {a b c : Core} (h : a.Keeps b) (k : b.Keeps c) : a.Keeps c :=
  ⟨k.id.trans h.id, fun m => k.mem (h.mem m)⟩

/-- Everything of a core but its number and its four memories may change. -/
@[simp] theorem Core.Keeps.fields {b c : Core} (h : b.Keeps c) (tick gtick : Nat) (ctl : Ctl) (vis : Vis)
    (q : Queues) (load matrix vector copy stream : Eng) (tok : Vector Nat 8) (vec : Vec) (sd : Option Stream)
    (land : Landing) (cp : CopyEng) (jig : JigStore) (phase : Phase) (hook : Option HookSave) (stall : Stall) :
    b.Keeps { c with
      tick, gtick, ctl, vis, q, load, matrix, vector, copy, stream, tok, vec, sd, land, cp, jig, phase, hook
      stall } := ⟨h.id, h.mem⟩

/-- So may the matrix path but for its tiles and accumulators. -/
@[simp] theorem Core.Keeps.matrixFields {b c : Core} (h : b.Keeps c) (tick gtick : Nat) (ctl : Ctl) (vis : Vis)
    (q : Queues) (load matrix vector copy stream : Eng) (tok : Vector Nat 8) (vec : Vec) (sd : Option Stream)
    (land : Landing) (cp : CopyEng) (jig : JigStore) (phase : Phase) (hook : Option HookSave) (stall : Stall)
    (shape : Vector Shape 16) (sums : Vector TileSums 16) (accI : Vector Bool 4)
    (epi : Vector (Vector (BitVec 16) 16) 8) (bank : Vector Lanes 8) (heap : List (Word × Word))
    (heapk : BitVec 7) (ascale bscale : List (List Byte)) (scf : List (Nat × List Byte)) (wfifo : List WBlock)
    (ck : List (BitVec 3)) (epcolbase : BitVec 32) (mflags : FlagReg) :
    b.Keeps { c with
      tick, gtick, ctl, vis, q, load, matrix, vector, copy, stream, tok, vec, sd, land, cp, jig, phase, hook
      stall
      mx := { c.mx with
        shape, sums, accI, epi, bank, heap, heapk, ascale, bscale, scf, wfifo, ck, epcolbase, mflags } } :=
  ⟨h.id, h.mem⟩

/-- The tiles and accumulators may be written, with canonical memories. -/
theorem Core.Keeps.matrixMems {b c : Core} (h : b.Keeps c) {tiles acc : Mem}
    (ht : c.mx.tiles.wf = true → tiles.wf = true) (ha : c.mx.acc.wf = true → acc.wf = true)
    (shape : Vector Shape 16) (sums : Vector TileSums 16) (accI : Vector Bool 4) (mflags : FlagReg) :
    b.Keeps { c with mx := { c.mx with tiles, acc, shape, sums, accI, mflags } } := by
  refine ⟨h.id, fun m => ?_⟩
  obtain ⟨hb, hs, hct, hca⟩ := (Core.memWf_iff c).mp (h.mem m)
  exact (Core.memWf_iff _).mpr ⟨hb, hs, ht hct, ha hca⟩

@[simp] theorem Core.keeps_ite {b c d : Core} {p : Prop} [Decidable p] :
    b.Keeps (if p then c else d) ↔ if p then b.Keeps c else b.Keeps d := by
  split <;> rfl

/-- A core whose memories are written, each with a canonical one. -/
theorem Core.Keeps.of_mems {b c : Core} (hid : c.id = b.id) (hbench : b.bench.wf = true → c.bench.wf = true)
    (hstore : b.store.wf = true → c.store.wf = true) (htiles : b.mx.tiles.wf = true → c.mx.tiles.wf = true)
    (hacc : b.mx.acc.wf = true → c.mx.acc.wf = true) : b.Keeps c := by
  refine ⟨hid, fun m => ?_⟩
  obtain ⟨mb, ms, mt, ma⟩ := (Core.memWf_iff b).mp m
  exact (Core.memWf_iff c).mpr ⟨hbench mb, hstore ms, htiles mt, hacc ma⟩

/-- A core whose number and memories stand. -/
theorem Core.Keeps.of_eq {b c : Core} (hid : c.id = b.id) (hbench : c.bench = b.bench) (hstore : c.store = b.store)
    (htiles : c.mx.tiles = b.mx.tiles) (hacc : c.mx.acc = b.mx.acc) : b.Keeps c :=
  .of_mems hid (hbench ▸ fun m => m) (hstore ▸ fun m => m) (htiles ▸ fun m => m) (hacc ▸ fun m => m)

/-- A fold of operations that each keep a core. -/
theorem Core.Keeps.foldl {α : Type} {b c : Core} (h : b.Keeps c) (l : List α) (f : Core → α → Core)
    (hf : ∀ (d : Core) (x : α), d.Keeps (f d x)) : b.Keeps (l.foldl f c) := by
  induction l generalizing c with
  | nil => exact h
  | cons x l ih => exact ih (h.trans (hf c x))

/-! ### The invariant, operation by operation: the package -/

/-- What the package shares, with canonical memories when the first one's are. -/
structure Sys.Keeps (y z : Sys) : Prop where
  mem : y.memWf → z.memWf

@[simp] theorem Sys.Keeps.refl (y : Sys) : y.Keeps y := ⟨fun h => h⟩

/-- Everything that the package shares but its memories, dies and tasks may change. -/
@[simp] theorem Sys.Keeps.fields {y z : Sys} (h : y.Keeps z) (peers : List (Fin 16 × BitVec 13 × DWord))
    (ports : Vector Port 32) (tenants : Vector Tenant 16) (slots : List (Fin 256 × Slot)) (maps : List SlotMap)
    (nextTask nextGang : Nat) (removed : List (Fin 128)) (bad : List (Space × Nat)) (linkRate linkLanes : Nat)
    (thermal : Thermal) (mlog : List (List Byte)) (report : List Byte) (poison : Bool) (hostRead : DWord)
    (msix : Vector MsixEntry 64) (pba : BitVec 64) (nosort : Bool) (sort : List SortBuf) :
    y.Keeps { z with
      peers, ports, tenants, slots, maps, nextTask, nextGang, removed, bad, linkRate, linkLanes, thermal, mlog
      report, poison, hostRead, msix, pba, nosort, sort } := ⟨h.mem⟩

/-- The dies may change in everything but their lofts. -/
theorem Sys.Keeps.mapDie {y z : Sys} (h : y.Keeps z) {f : Die → Die} (hf : ∀ d, (f d).loft = d.loft) :
    y.Keeps { z with die := z.die.map f } := by
  refine ⟨fun m => ?_⟩
  obtain ⟨hd, hh, ho, ht⟩ := h.mem m
  exact ⟨fun d => by simpa [hf] using hd d, hh, ho, ht⟩

theorem Sys.memWf.saved {y : Sys} (h : y.memWf) {t : Task} (ht : t ∈ y.tasks) : t.saved.all Core.memWf = true := by
  obtain ⟨-, -, -, hsaved⟩ := h
  exact hsaved t ht

/-- Tasks may change, when the cores that they save are canonical. -/
theorem Sys.Keeps.of_tasks {y z : Sys} (hdie : ∀ d : Fin 4, z.die[d].loft = y.die[d].loft) (hhbm : z.hbm = y.hbm)
    (hhost : z.host = y.host) (htasks : y.memWf → ∀ t ∈ z.tasks, t.saved.all Core.memWf = true) : y.Keeps z := by
  refine ⟨fun m => ?_⟩
  obtain ⟨hd, hh, ho, -⟩ := id m
  exact ⟨fun d => hdie d ▸ hd d, hhbm ▸ hh, hhost ▸ ho, htasks m⟩

@[simp] theorem Sys.keeps_ite {y z w : Sys} {p : Prop} [Decidable p] :
    y.Keeps (if p then z else w) ↔ if p then y.Keeps z else y.Keeps w := by
  split <;> rfl

/-! ### The invariant, operation by operation: states -/

@[simp] theorem State.inv_ite {s t : State} {p : Prop} [Decidable p] :
    (if p then s else t).Inv ↔ if p then s.Inv else t.Inv := by
  split <;> rfl

/-- A core that keeps the acting one may take its place, whatever becomes of the model's own fields. -/
@[simp] theorem State.Inv.setCore {s : State} {c : Core} (h : s.Inv) (k : s.core.Keeps c) (turn : Turn) (free : Nat)
    (inputs : List Input) : State.Inv { s with core := c, turn, free, inputs } := by
  have hc := ((State.memWf_iff s).mp h.mem).1
  have := h.core c (k.mem hc) k.id
  exact ⟨this.mem, this.whole⟩

/-- What the package shares may change, when it keeps its memories. -/
@[simp] theorem State.Inv.setSys {s : State} {y : Sys} (h : s.Inv) (k : s.sys.Keeps y) (turn : Turn) (free : Nat)
    (inputs : List Input) : State.Inv { s with sys := y, turn, free, inputs } := by
  have hy := ((State.memWf_iff s).mp h.mem).2.2
  have := h.sys y (k.mem hy)
  exact ⟨this.mem, this.whole⟩

@[simp] theorem State.Inv.upd {s : State} {f : Core → Core} (h : s.Inv) (k : s.core.Keeps (f s.core)) :
    (s.upd f).Inv := h.setCore k _ _ _
@[simp] theorem State.Inv.updCtl {s : State} (h : s.Inv) (f : Ctl → Ctl) : (s.updCtl f).Inv :=
  h.upd (f := fun c => { c with ctl := f c.ctl }) ⟨rfl, fun m => m⟩
@[simp] theorem State.Inv.updRegs {s : State} (h : s.Inv) (f : CtlRegs → CtlRegs) : (s.updRegs f).Inv :=
  h.upd (f := fun c => { c with ctl := { c.ctl with regs := f c.ctl.regs } }) ⟨rfl, fun m => m⟩
@[simp] theorem State.Inv.updQ {s : State} (h : s.Inv) (f : Queues → Queues) : (s.updQ f).Inv :=
  h.upd (f := fun c => { c with q := f c.q }) ⟨rfl, fun m => m⟩
@[simp] theorem State.Inv.updVis {s : State} (h : s.Inv) (f : Vis → Vis) : (s.updVis f).Inv :=
  h.upd (f := fun c => { c with vis := f c.vis }) ⟨rfl, fun m => m⟩
@[simp] theorem State.Inv.updStall {s : State} (h : s.Inv) (f : Stall → Stall) : (s.updStall f).Inv :=
  h.upd (f := fun c => { c with stall := f c.stall }) ⟨rfl, fun m => m⟩

/-- A change of one core that keeps it. -/
@[simp] theorem State.Inv.modCoreKeeps {s : State} (h : s.Inv) (k : Nat) {f : Core → Core} (hf : ∀ c : Core, c.Keeps (f c)) :
    (s.modCore k f).Inv := h.modCore k f (fun c => (hf c).mem) fun c => (hf c).id

/-- A change of the other cores that keeps each. -/
@[simp] theorem State.Inv.mapOthers {s : State} (h : s.Inv) {f : Core → Core} (hf : ∀ c : Core, c.Keeps (f c)) :
    State.Inv { s with others := s.others.map f } := h.others f (fun c => (hf c).mem) fun c => (hf c).id

/-- A change of every core that keeps each. -/
theorem State.Inv.mapCores {s : State} (h : s.Inv) {f : Core → Core} (hf : ∀ c : Core, c.Keeps (f c)) :
    State.Inv { s with core := f s.core, others := s.others.map f } :=
  (h.setCore (hf s.core) s.turn s.free s.inputs).mapOthers hf

/-- A change of a die that leaves its loft. -/
theorem State.Inv.modDieSame {s : State} (h : s.Inv) (d : Fin 4) (f : Die → Die)
    (hf : ∀ x, (f x).loft = x.loft := by intro; rfl) : (s.modDie d f).Inv :=
  h.modDie d f fun x hx => by rw [hf]; exact hx

theorem State.Inv.mem_core {s : State} (h : s.Inv) : s.core.memWf = true := ((State.memWf_iff s).mp h.mem).1
theorem State.Inv.mem_others {s : State} (h : s.Inv) {c : Core} (hc : c ∈ s.others) : c.memWf = true :=
  ((State.memWf_iff s).mp h.mem).2.1 c hc
theorem State.Inv.mem_sys {s : State} (h : s.Inv) : s.sys.memWf := ((State.memWf_iff s).mp h.mem).2.2

@[simp] theorem State.Inv.pick {s : State} (h : s.Inv) (n : Nat) : (s.pick n).2.Inv := h.setCore (.refl _) _ _ _
@[simp] theorem State.Inv.pass {s : State} (h : s.Inv) : s.pass.Inv := h.setCore (.refl _) _ _ _

/-- A fold that carries something beside the state. -/
theorem State.Inv.foldlPair {α β : Type} {p : State × β} (h : p.1.Inv) (l : List α) (f : State × β → α → State × β)
    (hf : ∀ q x, q.1.Inv → (f q x).1.Inv) : (l.foldl f p).1.Inv := by
  induction l generalizing p with
  | nil => exact h
  | cons x l ih => exact ih (hf p x h)

@[simp] theorem State.Inv.mend {s : State} (h : s.Inv) (sp : Space) (off n : Nat) : (s.mend sp off n).Inv := by
  unfold State.mend
  split
  · exact h
  · exact h.setSys (.fields (.refl _) ..) _ _ _

end Sys2Proof.Machine

namespace Sys2Proof.Machine

/-! ### Shared operations of a core (R12, R41, R43, R286) -/

@[simp] theorem Core.Keeps.tickOn {b c : Core} (h : b.Keeps c) : b.Keeps c.tickOn := h.fields ..
@[simp] theorem Core.Keeps.setEng {b c : Core} (h : b.Keeps c) (e : Engine) (f : Eng → Eng) : b.Keeps (c.setEng e f) := by
  cases e <;> exact h.fields ..
@[simp] theorem Core.Keeps.retireOne {b c : Core} (h : b.Keeps c) (e : Engine) (w : Issued) :
    b.Keeps (c.retireOne e w) := by
  unfold Core.retireOne
  dsimp only
  split <;> exact h.fields ..
@[simp] theorem Core.Keeps.retireAll {b c : Core} (h : b.Keeps c) (e : Engine) : b.Keeps (c.retireAll e) := by
  unfold Core.retireAll
  dsimp only
  exact (h.foldl _ _ fun d w => (Core.Keeps.refl d).retireOne e w).setEng e _
@[simp] theorem Core.Keeps.settle {b c : Core} (h : b.Keeps c) : b.Keeps c.settle := by
  unfold Core.settle
  dsimp only
  exact (h.foldl _ _ fun d e => (Core.Keeps.refl d).retireAll e).fields ..
@[simp] theorem Core.Keeps.saveNest {b c : Core} (h : b.Keeps c) : b.Keeps c.saveNest := by
  unfold Core.saveNest
  split
  · exact h
  · exact h.fields ..
@[simp] theorem Core.Keeps.waitTick {b c : Core} (h : b.Keeps c) : b.Keeps c.waitTick := by
  unfold Core.waitTick
  dsimp only
  split
  · exact h.tickOn.fields ..
  · exact h.tickOn

@[simp] theorem State.Inv.writeG {s : State} (h : s.Inv) (r : Fin 32) (v : DWord) (bound : Nat) (taint : Bool) :
    (s.writeG r v bound taint).Inv := h.upd ((Core.Keeps.refl _).fields ..)
@[simp] theorem State.Inv.writeGLocked {s : State} (h : s.Inv) (r : Fin 32) (v : DWord) (taint : Bool) :
    (s.writeGLocked r v taint).Inv := (h.writeG r v 1 taint).updCtl _
@[simp] theorem State.Inv.setSteer {s : State} (h : s.Inv) (r : Fin 16) (f : Steer → Steer) : (s.setSteer r f).Inv := by
  unfold State.setSteer
  split
  · exact h.updCtl _
  · exact h
@[simp] theorem State.Inv.setTaintC {s : State} (h : s.Inv) (r : Fin 16) (t : Bool) : (s.setTaintC r t).Inv := by
  unfold State.setTaintC
  split
  · exact h.updCtl _
  · exact h
@[simp] theorem State.Inv.setTaintT {s : State} (h : s.Inv) (r : Fin 16) (t : Bool) : (s.setTaintT r t).Inv := by
  unfold State.setTaintT
  split
  · exact h.updCtl _
  · exact h
@[simp] theorem State.Inv.writeCond {s : State} (h : s.Inv) (r : Fin 16) (v taint : Bool) :
    (s.writeCond r v taint).Inv := (h.setSteer r _).setTaintC r taint

/-- A read of a g register changes the counter of free values alone (log 8). -/
@[simp] theorem State.Inv.readG {s : State} (h : s.Inv) (r : Fin 32) : (s.readG r).2.Inv := by
  unfold State.readG
  split
  · exact h
  next o os _ => exact h.pick (os.length + 2)

/-! ### Traps (R14, R35, R362) -/

@[simp] theorem State.Inv.stopGang {s : State} (h : s.Inv) : s.stopGang.Inv :=
  h.mapOthers fun c => by split <;> simp

/-- A task may change in everything but its saved cores, which may only be fewer, or canonical. -/
theorem State.Inv.modTask {s : State} (h : s.Inv) (id : Nat) {f : Task → Task}
    (hf : ∀ t, t ∈ s.sys.tasks → t.saved.all Core.memWf = true → (f t).saved.all Core.memWf = true) :
    (s.modTask id f).Inv := by
  refine h.setSys ⟨fun hy => ?_⟩ _ _ _
  obtain ⟨hd, hh, ho, ht⟩ := hy
  refine ⟨hd, hh, ho, fun t htm => ?_⟩
  obtain ⟨u, hu, rfl⟩ := List.mem_map.mp htm
  split
  · exact hf u hu (ht u hu)
  · exact ht u hu

/-- A task whose saved cores stay. -/
@[simp] theorem State.Inv.modTaskSame {s : State} (h : s.Inv) (id : Nat) {f : Task → Task}
    (hf : ∀ t, (f t).saved = t.saved := by intro; rfl) : (s.modTask id f).Inv :=
  h.modTask id fun t _ ht => by rw [hf]; exact ht

/-- A task whose saved cores are forgotten. -/
@[simp] theorem State.Inv.modTaskNone {s : State} (h : s.Inv) (id : Nat) {f : Task → Task}
    (hf : ∀ t, (f t).saved = [] := by intro; rfl) : (s.modTask id f).Inv :=
  h.modTask id fun t _ _ => by rw [hf]; rfl

@[simp] theorem State.Inv.doubleFault {s : State} (h : s.Inv) (cause : Nat) (w : Word) : (doubleFault cause w s).Inv := by
  unfold Machine.doubleFault
  dsimp only
  split
  · exact (h.updCtl _).stopGang
  · exact (h.updCtl _).stopGang.modTaskSame _ fun _ => rfl

@[simp] theorem State.Inv.enterHandler {s : State} (h : s.Inv) (t : TrapRec) : (enterHandler t s).Inv := by
  unfold Machine.enterHandler
  refine h.upd ?_
  dsimp only
  exact (Core.Keeps.refl s.core).saveNest.settle.fields ..

@[simp] theorem State.Inv.takeTrap {s : State} (h : s.Inv) (t : TrapRec) : (takeTrap t s).Inv := by
  unfold Machine.takeTrap
  dsimp only
  split_ifs <;> simp [h]

/-! ### The shell of a control word (R72, R73) -/

@[simp] theorem State.Inv.ticked {s : State} (h : s.Inv) : s.ticked.Inv := (h.upd (by simp)).pass
@[simp] theorem State.Inv.advance {s : State} (h : s.Inv) : s.advance.Inv := by
  unfold State.advance
  split
  · exact h.upd ((Core.Keeps.refl _).fields ..)
  · split <;> exact h.updCtl _
@[simp] theorem State.Inv.ctlTick {s : State} (h : s.Inv) : (ctlTick s).Inv := by
  unfold Machine.ctlTick
  have ht := h.upd (f := fun c => { (Core.tickOn c) with stall := { (Core.tickOn c).stall with
    progress := c.tick + 1 } }) (((Core.Keeps.refl _).tickOn).fields ..)
  dsimp only
  split
  · exact (ht.takeTrap _).pass
  · exact ht.pass
@[simp] theorem State.Inv.ctlDoneWith {s : State} (h : s.Inv) (post : PcQueue → PcQueue) : (ctlDoneWith post s).Inv :=
  (h.advance.updCtl _).ctlTick
@[simp] theorem State.Inv.ctlDone {s : State} (h : s.Inv) : (ctlDone s).Inv := h.ctlDoneWith _
@[simp] theorem State.Inv.noteReach {s : State} (h : s.Inv) : s.noteReach.Inv := by
  unfold State.noteReach
  split
  · exact h
  · split
    · exact h
    · exact h.upd ((Core.Keeps.refl _).fields ..)
@[simp] theorem State.Inv.clearReach {s : State} (h : s.Inv) : s.clearReach.Inv := by
  unfold State.clearReach
  split
  · exact h
  · exact h.upd ((Core.Keeps.refl _).fields ..)
@[simp] theorem State.Inv.endSkip {s : State} (h : s.Inv) : s.endSkip.Inv := by
  unfold State.endSkip
  split
  · exact h.updCtl _
  · exact h

/-- An outcome whose next state, if it has one, meets the invariant. -/
structure Sound (o : Out) : Prop where
  inv : ∀ t, o = .next t → t.Inv

theorem next_sound {t : State} (h : t.Inv) : Sound (.next t) := ⟨fun _ e => by cases e; exact h⟩
theorem fault_sound (f : Fault) : Sound (.fault f) := ⟨fun _ e => by cases e⟩
@[simp] theorem sound_ite {o o' : Out} {p : Prop} [Decidable p] :
    Sound (if p then o else o') ↔ if p then Sound o else Sound o' := by
  split <;> rfl

/-- The states that a control word's body answers meet the invariant. -/
@[simp] def Res.Sound : Res → Prop
  | .issue s => s.Inv
  | .branch s _ => s.Inv
  | .wait s => s.Inv
  | .trap _ => True
  | .raw s => s.Inv
  | .stuck s => s.Inv
  | .trapAfter s _ => s.Inv
  | .fault _ => True

@[simp] theorem Res.sound_ite {r r' : Res} {p : Prop} [Decidable p] :
    (if p then r else r').Sound ↔ if p then r.Sound else r'.Sound := by
  split <;> rfl

theorem Res.Sound.shadowed {r : Res} (h : r.Sound) (t : TrapRec) : (r.shadowed t).Sound := by
  cases r with
  | issue | branch | trapAfter | trap | fault => exact trivial
  | wait | raw | stuck => exact h

@[simp] theorem finish_sound {s : State} {r : Res} (h : s.Inv) (hr : r.Sound) : Machine.Sound (finish s r) := by
  cases r with
  | trap t => exact next_sound (h.takeTrap t).pass
  | fault f => exact fault_sound f
  | issue u => exact next_sound (State.Inv.ctlDone (State.Inv.clearReach (State.Inv.endSkip hr)))
  | branch u post => exact next_sound ((State.Inv.clearReach (State.Inv.endSkip hr)).ctlDoneWith post)
  | wait u => exact next_sound (State.Inv.ticked (State.Inv.noteReach hr))
  | raw u => exact next_sound (State.Inv.pass hr)
  | stuck u =>
    have hu : u.Inv := hr
    refine next_sound ?_
    split
    · exact hu.pass
    · exact hu.ticked
  | trapAfter u t =>
    have hu : u.Inv := hr
    exact next_sound ((hu.endSkip.clearReach.advance.upd (Core.Keeps.refl _).tickOn).takeTrap t).pass

@[simp] theorem ctlWord_sound {s : State} {body : State → Res} (h : s.Inv) (reads : List (Fin 32))
    (hb : (body s).Sound) : Sound (ctlWord reads s body) := by
  unfold ctlWord
  split
  · exact finish_sound h (hb.shadowed _)
  · exact finish_sound h hb
@[simp] theorem ctlNoHook_sound {s : State} {body : State → Res} (h : s.Inv) (i : Instr) (reads : List (Fin 32))
    (hb : (body s).Sound) : Sound (ctlNoHook i reads s body) := by
  unfold ctlNoHook
  split
  · exact next_sound (h.takeTrap _).pass
  · exact ctlWord_sound h reads hb

end Sys2Proof.Machine

namespace Sys2Proof.Machine

/-- The states that an engine word's body answers meet the invariant. -/
@[simp] def ERes.Sound : ERes → Prop
  | .wait => True
  | .waitWith s => s.Inv
  | .trap _ s => s.Inv
  | .trapIn _ s => s.Inv
  | .raw s => s.Inv
  | .issue s _ => s.Inv
  | .part s _ => s.Inv
  | .trapAt _ s _ => s.Inv
  | .fault _ => True

@[simp] theorem ERes.sound_ite {r r' : ERes} {p : Prop} [Decidable p] :
    (if p then r else r').Sound ↔ if p then r.Sound else r'.Sound := by
  split <;> rfl

/-- What a failed check answers is sound. -/
structure CheckSound (r : Option ERes) : Prop where
  sound : ∀ x, r = some x → x.Sound

theorem none_sound : CheckSound none := ⟨fun _ e => by cases e⟩
theorem some_sound {x : ERes} (h : x.Sound) : CheckSound (some x) := ⟨fun _ e => by cases e; exact h⟩

end Sys2Proof.Machine

namespace Sys2Proof.Machine

/-! ### The invariant, operation by operation: memories -/

theorem State.Inv.mendAll {s : State} (h : s.Inv) (sp : Space) (l : List (Nat × Nat)) : (s.mendAll sp l).Inv :=
  h.foldl l _ fun _ p _ hu => hu.mend sp p.1 p.2

/-! ### The invariant, operation by operation: recording -/

theorem State.Inv.unreplayable {s : State} (h : s.Inv) : s.unreplayable.Inv := by
  unfold State.unreplayable
  dsimp only
  split
  · exact h
  · exact h.upd ((Core.Keeps.refl _).fields ..)

theorem State.Inv.unreplayableIf {s : State} (h : s.Inv) (b : Bool) : (s.unreplayableIf b).Inv := by
  unfold State.unreplayableIf
  split
  · exact h.unreplayable
  · exact h

theorem State.Inv.appendEntries {s : State} (h : s.Inv) (r : Recording) (es : List (BitVec 128)) :
    (s.appendEntries r es).Inv := by
  unfold State.appendEntries
  dsimp only
  refine (h.mend ..).upd ?_
  split
  · exact (Core.Keeps.refl _).fields ..
  · split <;> exact (Core.Keeps.refl _).fields ..

theorem State.Inv.recordAt {s : State} (h : s.Inv) (at_ : Recording → Nat) (bits : Nat) :
    (s.recordAt at_ bits).Inv := by
  unfold State.recordAt
  dsimp only
  split
  · exact h
  · exact h.appendEntries _ _

theorem State.Inv.record {s : State} (h : s.Inv) (bits : Nat) : (s.record bits).Inv := h.recordAt _ _

theorem State.Inv.recordStop {s : State} (h : s.Inv) (bits : Nat) : (s.recordStop bits).Inv := by
  unfold State.recordStop
  dsimp only
  split
  · exact h
  split
  · exact h.appendEntries _ _
  · exact (h.appendEntries _ _).upd ((Core.Keeps.refl _).fields ..)

theorem State.Inv.recordValue {s : State} (h : s.Inv) (sr : BitVec 12) (v : DWord) : (s.recordValue sr v).Inv :=
  h.record _

theorem State.Inv.recordShim {s : State} (h : s.Inv) (sr : BitVec 12) (k : Fin 16) (off : DWord) :
    (s.recordShim sr k off).Inv :=
  h.record _

theorem State.Inv.recordSync {s : State} (h : s.Inv) (op word : Nat) : (s.recordSync op word).Inv := h.recordAt _ _

theorem State.Inv.recordXq {s : State} (h : s.Inv) (v : DWord) : (s.recordXq v).Inv := h.record _

theorem State.Inv.recordEngine {s : State} (h : s.Inv) (w : Word) (c : Option Word) : (s.recordEngine w c).Inv := by
  unfold State.recordEngine
  split <;> exact h.record _

/-! ### The invariant, operation by operation: special registers -/

/-- A write of a register from 0x300 on leaves the number and the memories (R87). -/
theorem Core.Keeps.writeHigh {b c : Core} (h : b.Keeps c) (n : Nat) (v : DWord) : b.Keeps (c.writeHigh n v) := by
  unfold Core.writeHigh
  split
  case h_1 | h_2 | h_3 => exact h.matrixFields ..
  case h_18 => split <;> exact h.fields ..
  all_goals exact h.fields ..

/-- So does a write of any special register (R87). -/
theorem Core.Keeps.writeSR {b c : Core} (h : b.Keeps c) (bank1 : Bool) (n : Nat) (v : DWord) :
    b.Keeps (c.writeSR bank1 n v) := by
  unfold Core.writeSR
  dsimp only
  by_cases h1 : n < 0x020
  · rw [if_pos h1]; exact h
  by_cases h2 : n < 0x040
  · rw [if_neg h1, if_pos h2]; exact h.fields ..
  by_cases h3 : n < 0x060
  · rw [if_neg h1, if_neg h2, if_pos h3]; exact h.fields ..
  rw [if_neg h1, if_neg h2, if_neg h3]
  split
  · exact h.fields ..
  split
  · exact h.fields ..
  split
  · exact h.fields ..
  split
  · exact h.fields ..
  split
  · exact h.matrixFields ..
  split
  · exact h.fields ..
  split
  · exact h.fields ..
  · exact h.writeHigh n v

theorem State.Inv.writeSR {s : State} (h : s.Inv) (n : Nat) (v : DWord) : (s.writeSR n v).Inv := by
  unfold State.writeSR
  dsimp only
  split
  · exact (h.upd ((Core.Keeps.refl _).writeSR ..)).updCtl _
  split
  · exact h.upd ((Core.Keeps.refl _).writeSR ..)
  · exact h.upd ((Core.Keeps.refl _).setEng _ _)

/-- Register writes that take effect at the head of a queue (R88). -/
theorem Core.Keeps.flushRegs {b c : Core} (h : b.Keeps c) (e : Engine) : b.Keeps (c.flushRegs e) := by
  unfold Core.flushRegs
  dsimp only
  refine (h.foldl _ _ fun d x => ?_).setEng e _
  split
  · split
    · exact (Core.Keeps.refl d).writeSR ..
    · exact .refl d
  · exact .refl d

/-! ### The invariant, operation by operation: arithmetic words -/

theorem alu3_sound {s : State} (h : s.Inv) (f : DWord → DWord → DWord) (bound : Nat) (d a b : Fin 32) :
    Sound (alu3 f bound d a b s) :=
  ctlWord_sound h _ (((h.readG _).readG _).writeG ..)

theorem alu2_sound {s : State} (h : s.Inv) (f : DWord → DWord) (d a : Fin 32) : Sound (alu2 f d a s) :=
  ctlWord_sound h _ ((h.readG _).writeG ..)

theorem aluConst_sound {s : State} (h : s.Inv) (v : DWord) (d : Fin 32) : Sound (aluConst v d s) :=
  ctlWord_sound h _ (h.writeG ..)

theorem cmp3_sound {s : State} (h : s.Inv) (f : DWord → DWord → Bool) (sd : Fin 16) (a b : Fin 32) :
    Sound (cmp3 f sd a b s) :=
  ctlWord_sound h _ (((h.readG _).readG _).writeCond ..)

theorem cmpI_sound {s : State} (h : s.Inv) (f : DWord → DWord → Bool) (sd : Fin 16) (a : Fin 32) (imm : BitVec 14) :
    Sound (cmpI f sd a imm s) :=
  ctlWord_sound h _ ((h.readG _).writeCond ..)

theorem steer3_sound {s : State} (h : s.Inv) (f : Bool → Bool → Bool) (sd sa sb : Fin 16) :
    Sound (steer3 f sd sa sb s) :=
  ctlWord_sound h _ (h.writeCond ..)

theorem execSnot_sound {s : State} (h : s.Inv) (sd sa : Fin 16) : Sound (execSnot sd sa s) :=
  ctlWord_sound h _ (h.writeCond ..)

theorem execSmov_sound {s : State} (h : s.Inv) (sd sa : Fin 16) : Sound (execSmov sd sa s) :=
  ctlWord_sound h _ (((h.setSteer _ _).setTaintC _ _).setTaintT _ _)

theorem execSset_sound {s : State} (h : s.Inv) (sd : Fin 16) : Sound (execSset sd s) :=
  ctlWord_sound h _ (h.writeCond ..)

theorem execSclr_sound {s : State} (h : s.Inv) (sd : Fin 16) : Sound (execSclr sd s) :=
  ctlWord_sound h _ (h.writeCond ..)

/-! ### The invariant, operation by operation: rings and error records -/

theorem State.Inv.modTenant {s : State} (h : s.Inv) (t : Fin 16) (f : Tenant → Tenant) : (s.modTenant t f).Inv :=
  h.setSys ((Sys.Keeps.refl _).fields ..) ..

theorem State.Inv.raise {s : State} (h : s.Inv) (tn : Fin 16) (v : Fin 4) : (s.raise tn v).Inv := by
  unfold State.raise
  dsimp only
  split
  · exact h.setSys ((Sys.Keeps.refl _).fields ..) ..
  · exact h.modTenant _ _

theorem State.Inv.msixWrite {s : State} (h : s.Inv) (v : Fin 64) (e : MsixEntry) : (s.msixWrite v e).Inv := by
  unfold State.msixWrite
  dsimp only
  split
  · exact (h.setSys ((Sys.Keeps.refl _).fields ..) ..).modTenant _ _
  · exact h.setSys ((Sys.Keeps.refl _).fields ..) ..

theorem State.Inv.writeRecord {s : State} (h : s.Inv) (tn : Fin 16) (q : Option (Fin 8)) (vec : Fin 4)
    (bs : List Byte) : (s.writeRecord tn q vec bs).Inv := by
  unfold State.writeRecord
  dsimp only
  split
  · exact h
  split
  · exact h.modTenant _ _
  · exact ((h.writeAt ..).modTenant _ _).raise _ _

theorem State.Inv.note {s : State} (h : s.Inv) (bs : List Byte) : (s.note bs).Inv := by
  unfold State.note
  dsimp only
  split
  · exact h.setSys ((Sys.Keeps.refl _).fields ..) ..
  · exact h

theorem State.Inv.sendError {s : State} (h : s.Inv) (k : Nat) (bs : List Byte) : (s.sendError k bs).Inv := by
  unfold State.sendError
  split
  · split
    · exact h.writeRecord ..
    · exact h
  · exact h.note _

theorem State.Inv.logErrorAt {s : State} (h : s.Inv) (c : CoreId) (kind cause wh pa : Nat) (info : DWord)
    (tick : Nat) : (s.logErrorAt c kind cause wh pa info tick).Inv :=
  h.sendError _ _

theorem State.Inv.logErrorOf {s : State} (h : s.Inv) (c : CoreId) (kind cause wh pa : Nat) (info : DWord) :
    (s.logErrorOf c kind cause wh pa info).Inv :=
  h.logErrorAt ..

theorem State.Inv.logError {s : State} (h : s.Inv) (kind cause wh pa : Nat) (info : DWord) :
    (s.logError kind cause wh pa info).Inv :=
  h.logErrorOf ..

theorem Core.Keeps.wake {b c : Core} (h : b.Keeps c) (tn : Fin 16) (ev : Nat) : b.Keeps (c.wake tn ev) := by
  unfold Core.wake
  dsimp only
  split
  · exact h.fields ..
  · exact h

theorem State.Inv.signal {s : State} (h : s.Inv) (tn : Fin 16) (ev : Nat) : (s.signal tn ev).Inv := by
  have hm : ∀ f, (s.modTenant tn f).Inv := h.modTenant tn
  unfold State.signal
  exact ((hm _).setCore ((Core.Keeps.refl _).wake tn ev) _ _ _).mapOthers fun c => (Core.Keeps.refl c).wake tn ev

/-! ### The invariant, operation by operation: phases and delays -/

theorem State.Inv.beginDelay {s : State} (h : s.Inv) (d : Delay) : (s.beginDelay d).Inv := by
  unfold State.beginDelay
  dsimp only
  refine (h.mapOthers ?_).upd ?_
  · intro c
    split
    · split
      · exact .refl _
      · exact (Core.Keeps.refl _).fields ..
    · exact .refl _
  dsimp only
  split <;> exact (Core.Keeps.refl _).fields ..

theorem State.Inv.setIrrev {s : State} (h : s.Inv) : s.setIrrev.Inv := by
  unfold State.setIrrev
  split
  · exact h
  · exact h.updVis _

theorem State.Inv.silentError {s : State} (h : s.Inv) (t : TrapRec) : (silentError t s).Inv := by
  unfold Machine.silentError
  dsimp only
  split
  · exact (h.upd ((Core.Keeps.refl _).fields ..)).beginDelay _
  · exact (h.logError ..).takeTrap _

theorem State.Inv.storeError {s : State} (h : s.Inv) : (storeError s).Inv := (h.logError ..).doubleFault _ _

/-! ### The invariant, operation by operation: operands of engine words -/

theorem State.Inv.writeRange {s : State} (h : s.Inv) (l : Loc) (a : Nat) (bs : List Byte) :
    (writeRange s l a bs).Inv := by
  refine State.Inv.foldlPair (p := (s, bs)) h _ (writePiece l) fun q x hq => ?_
  unfold writePiece
  split
  · exact hq.writeAt ..
  · exact hq

/-! ### The invariant, operation by operation: queues -/

theorem State.Inv.of_push {s t : State} (h : s.Inv) {e : Engine} {w : Word} {cont : Option Word}
    {tag : Option (Fin 2 × Nat)} {a : VAddr} (hp : s.push e w cont tag a = some t) : t.Inv := by
  unfold State.push at hp
  split at hp
  · cases hp
  · cases hp
    exact h.upd (((Core.Keeps.refl _).setEng _ _).fields ..)

theorem State.Inv.pushXq {s : State} (h : s.Inv) (x : DWord) : (s.pushXq x).Inv :=
  h.upd ((Core.Keeps.refl _).fields ..)

theorem pushXq_sound {s : State} (h : s.Inv) (a : Fin 32) : Sound (pushXq a s) := by
  unfold Machine.pushXq
  dsimp only
  refine ctlWord_sound h _ ?_
  split
  · exact h
  · exact (((h.readG _).unreplayableIf _).recordXq _).pushXq _

theorem State.Inv.mboxVector {s : State} (h : s.Inv) : s.mboxVector.Inv := by
  unfold State.mboxVector
  split
  · exact h.raise _ _
  · exact h

theorem pushMbox_sound {s : State} (h : s.Inv) (a : Fin 32) : Sound (pushMbox a s) := by
  unfold Machine.pushMbox
  dsimp only
  refine ctlWord_sound h _ ?_
  split
  · exact h
  · exact (h.readG _).unreplayable.setIrrev.mboxVector.updQ _

theorem execQpush_sound {s : State} (h : s.Inv) (a : Fin 32) (q : PushQ) : Sound (execQpush a q s) := by
  unfold Machine.execQpush
  split
  · exact pushXq_sound h _
  · exact pushMbox_sound h _

theorem State.Inv.popCarried {s : State} (h : s.Inv) (q : PopQ) : (s.popCarried q).Inv := by
  unfold State.popCarried
  dsimp only
  split
  · split
    · exact h.setIrrev.upd ((Core.Keeps.refl _).fields ..)
    · exact h.upd ((Core.Keeps.refl _).fields ..)
  · split
    · exact h.setIrrev.upd ((Core.Keeps.refl _).fields ..)
    · exact h.upd ((Core.Keeps.refl _).fields ..)
  split
  · exact h.setIrrev.upd ((Core.Keeps.refl _).fields ..)
  · exact h.upd (.refl _)

theorem execQpop_sound {s : State} (h : s.Inv) (d : Fin 32) (q : PopQ) : Sound (execQpop d q s) := by
  unfold Machine.execQpop
  dsimp only
  refine ctlWord_sound h _ ?_
  split
  · exact h
  split
  · exact (h.setIrrev.unreplayable.updQ _).writeGLocked ..
  · exact ((h.popCarried _).unreplayable.updQ _).writeGLocked ..

theorem execQcnt_sound {s : State} (h : s.Inv) (d : Fin 32) (q : PopQ) : Sound (execQcnt d q s) :=
  ctlWord_sound h _ (h.unreplayable.writeGLocked ..)

theorem execPqpush_sound {s : State} (h : s.Inv) (a b : Fin 32) : Sound (execPqpush a b s) := by
  unfold Machine.execPqpush
  dsimp only
  refine ctlWord_sound h _ ?_
  split
  · exact trivial
  · exact ((h.readG _).readG _).updQ _

theorem execPqpop_sound {s : State} (h : s.Inv) (d b : Fin 32) : Sound (execPqpop d b s) :=
  ctlWord_sound h _ (((h.unreplayable.updQ _).writeGLocked ..).writeGLocked ..)

theorem execPqtop_sound {s : State} (h : s.Inv) (d b : Fin 32) : Sound (execPqtop d b s) :=
  ctlWord_sound h _ ((h.unreplayable.writeGLocked ..).writeGLocked ..)

theorem execPqclr_sound {s : State} (h : s.Inv) : Sound (execPqclr s) := ctlWord_sound h _ (h.updQ _)

theorem execPqcnt_sound {s : State} (h : s.Inv) (d : Fin 32) : Sound (execPqcnt d s) :=
  ctlWord_sound h _ (h.unreplayable.writeGLocked ..)

/-! ### The invariant, operation by operation: the user hook -/

theorem Core.Keeps.enterHook {b c : Core} (h : b.Keeps c) : b.Keeps c.enterHook :=
  (h.foldl _ _ (fun _ _ => (Core.Keeps.refl _).setEng _ _)).fields ..

theorem Core.Keeps.leaveHook {b c : Core} (h : b.Keeps c) : b.Keeps c.leaveHook := by
  unfold Core.leaveHook
  dsimp only
  split
  · exact h.fields ..
  · exact h.matrixFields ..

theorem Core.Keeps.writeEstat {b c : Core} (h : b.Keeps c) (v : DWord) : b.Keeps (c.writeEstat v) := by
  unfold Core.writeEstat
  dsimp only
  split
  · exact h.enterHook.fields ..
  split
  · exact h.leaveHook
  · exact h.fields ..

/-! ### The invariant, operation by operation: MTS and MFS -/

theorem execMfs_sound {s : State} (h : s.Inv) (d : Fin 32) (sr : BitVec 12) : Sound (execMfs d sr s) := by
  unfold Machine.execMfs
  dsimp only
  refine ctlWord_sound h _ ?_
  split
  · exact trivial
  split
  · exact trivial
  split
  · exact h.writeG ..
  split
  · exact h.writeGLocked ..
  · exact h

theorem mtsBody_sound {s : State} {note : State → State} (h : s.Inv) (i : Instr) (sr : BitVec 12) (v : DWord)
    (hn : (note s).Inv) : (mtsBody i sr v s note).Sound := by
  unfold mtsBody
  dsimp only
  split
  · trivial
  · split
    · trivial
    · split
      · split
        · exact h
        · exact h.upd ((Core.Keeps.refl _).writeEstat _)
      · exact hn.writeSR ..

theorem execMts_sound {s : State} (h : s.Inv) (a : Fin 32) (sr : BitVec 12) : Sound (execMts a sr s) := by
  unfold Machine.execMts
  dsimp only
  refine ctlWord_sound h _ ?_
  split
  · exact mtsBody_sound (h.readG _) _ _ _ (((h.readG _).unreplayableIf _).recordValue _ _)
  · exact mtsBody_sound (h.readG _) _ _ _ (h.readG _)

theorem execMtsi_sound {s : State} (h : s.Inv) (sr : BitVec 12) (imm : BitVec 11) : Sound (execMtsi sr imm s) := by
  unfold Machine.execMtsi
  refine ctlWord_sound h _ ?_
  split
  · exact mtsBody_sound h _ _ _ (h.recordValue _ _)
  · exact mtsBody_sound h _ _ _ h

theorem execMtsr_sound {s : State} (h : s.Inv) (k : Fin 16) (a : Fin 32) (sr : BitVec 12) :
    Sound (execMtsr k a sr s) := by
  unfold Machine.execMtsr
  dsimp only
  refine ctlWord_sound h _ ?_
  split
  · exact mtsBody_sound (h.readG _) _ _ _ (((h.readG _).unreplayableIf _).recordShim ..)
  · exact mtsBody_sound (h.readG _) _ _ _ (h.readG _)

theorem Core.Keeps.updCtl_core {s : State} (f : Ctl → Ctl) : s.core.Keeps (s.updCtl f).core := ⟨rfl, fun m => m⟩
theorem Core.Keeps.updStall_core {s : State} (f : Stall → Stall) : s.core.Keeps (s.updStall f).core :=
  ⟨rfl, fun m => m⟩
theorem Core.Keeps.upd_core {s : State} {f : Core → Core} (h : s.core.Keeps (f s.core)) :
    s.core.Keeps (s.upd f).core := h

/-! ### The invariant, operation by operation: barriers, events and phase ends -/

/-- A change of the acting core alone, made to every core of its gang that meets a test. -/
theorem State.Inv.onGang {s : State} (h : s.Inv) {f : State → State} (test : Core → Bool)
    (hk : ∀ u : State, u.core.Keeps (f u).core) (he : ∀ u : State, f u = { u with core := (f u).core }) :
    (s.onGang test f).Inv := by
  have hall : ∀ c : Core, c.Keeps (if sameGang s.core c && test c then s.via f c else c) := fun c => by
    split
    · exact hk { s with core := c }
    · exact .refl c
  unfold State.onGang
  dsimp only
  split
  · have hu : State.Inv { s with core := (f s).core, others := s.others.map fun c : Core =>
        if (sameGang s.core c && test c) = true then s.via f c else c } := (h.setCore (hk s) _ _ _).mapOthers hall
    rw [he s]
    exact hu
  · exact h.mapOthers hall

theorem State.Inv.barDone {s : State} (h : s.Inv) (id : Fin 16) : (barDone id s).Inv :=
  (h.setIrrev.recordSync _ _).updCtl _

theorem State.Inv.checkMismatch {s : State} (h : s.Inv) : (checkMismatch s).Inv := by
  unfold Machine.checkMismatch
  split
  · exact h.onGang _ (fun u => Core.Keeps.updCtl_core _) (fun u => rfl)
  · exact h

theorem execBar_sound {s : State} (h : s.Inv) (id : Fin 16) : Sound (execBar id s) := by
  unfold Machine.execBar
  refine ctlNoHook_sound h _ _ ?_
  split
  · split
    · exact h.barDone _
    · exact h
  split
  · exact h.barDone _
  · exact (h.updCtl _).checkMismatch

theorem execBarrierRelease_sound {s : State} (h : s.Inv) (id : Fin 16) : Sound (execBarrierRelease id s) := by
  unfold Machine.execBarrierRelease
  dsimp only
  split
  · exact next_sound (h.onGang _ (fun u => Core.Keeps.updCtl_core _) (fun u => rfl)).pass
  · exact next_sound h.pass

theorem State.Inv.leavePlumb {s : State} (h : s.Inv) (m : BitVec 16) (v : Nat) : (leavePlumb m v s).Inv := by
  unfold Machine.leavePlumb
  dsimp only
  split
  · exact (((h.noteReach.upd ((Core.Keeps.refl _).fields ..)).setIrrev.recordSync _ _).advance.clearReach.upd
      ((Core.Keeps.refl _).tickOn.fields ..)).updCtl _
  · exact ((h.noteReach.upd ((Core.Keeps.refl _).fields ..)).setIrrev.recordSync _ _).advance.clearReach.upd
      ((Core.Keeps.refl _).tickOn.fields ..)

theorem State.Inv.sendPulse {s : State} (h : s.Inv) (m : BitVec 16) : (sendPulse m s).Inv := by
  unfold Machine.sendPulse
  dsimp only
  exact (h.pick _).onGang _ (fun u => Core.Keeps.updStall_core _) (fun u => rfl)

theorem State.Inv.arriveAt {s : State} (h : s.Inv) (m : BitVec 16) : (arriveAt m s).Inv := by
  unfold Machine.arriveAt
  dsimp only
  split
  · exact (h.updCtl _).checkMismatch.sendPulse _
  · exact (h.updCtl _).checkMismatch

theorem execPlumb_sound {s : State} (h : s.Inv) (m : BitVec 16) : Sound (execPlumb m s) := by
  unfold Machine.execPlumb
  refine ctlNoHook_sound h _ _ ?_
  split
  · exact h.leavePlumb _ _
  split
  · exact trivial
  split
  · exact h.leavePlumb _ _
  · exact h.arriveAt _

end Sys2Proof.Machine

namespace Sys2Proof.Machine

theorem Core.Keeps.release {b c : Core} (h : b.Keeps c) (v : Nat) : b.Keeps (Core.release v c) := by
  unfold Core.release
  dsimp only
  split
  · exact h.fields ..
  · exact h

theorem execPlumbRelease_sound {s : State} (h : s.Inv) (m : BitVec 16) : Sound (execPlumbRelease m s) := by
  unfold Machine.execPlumbRelease
  dsimp only
  split
  · split
    · exact next_sound (h.onGang _ (fun u => Core.Keeps.updStall_core _) (fun u => rfl)).pass
    · exact next_sound (h.onGang _ (fun u => ((Core.Keeps.refl _).release _).upd_core) (fun u => rfl)).pass
  · exact next_sound h.pass

theorem execPlumbOverdue_sound {s : State} (h : s.Inv) : Sound (execPlumbOverdue s) :=
  next_sound (h.onGang _ (fun _ => Core.Keeps.updCtl_core _) (fun _ => rfl)).pass

theorem execTwait_sound {s : State} (h : s.Inv) (a : Fin 32) : Sound (execTwait a s) := by
  unfold Machine.execTwait
  dsimp only
  refine ctlNoHook_sound h _ _ ?_
  split
  · exact h.readG _
  · exact h

theorem State.Inv.evOf {s : State} (h : s.Inv) (e : EvOp) : (evOf s e).2.Inv := by
  unfold Machine.evOf
  split
  · exact h
  · exact h.readG _

theorem execSigev_sound {s : State} (h : s.Inv) (e : EvOp) : Sound (execSigev e s) :=
  ctlWord_sound h _ (((h.evOf _).setIrrev.recordSync _ _).signal _ _)

theorem execWaitev_sound {s : State} (h : s.Inv) (e : EvOp) : Sound (execWaitev e s) := by
  unfold Machine.execWaitev
  dsimp only
  refine ctlWord_sound h _ ?_
  split
  · exact ((h.evOf _).setIrrev.recordSync _ _).updCtl _
  · exact h.updCtl _

theorem execEventWake_sound {s : State} (h : s.Inv) (tn : Fin 16) (ev : BitVec 16) : Sound (execEventWake tn ev s) :=
  next_sound (h.signal _ _).pass

theorem execWaitq_sound {s : State} (h : s.Inv) (mask : BitVec 5) : Sound (execWaitq mask s) := by
  unfold Machine.execWaitq
  refine ctlWord_sound h _ ?_
  split <;> exact h

theorem State.Inv.releaseCopy {s : State} (h : s.Inv) (x : HeldCopy) : (releaseCopy s x).Inv :=
  h.foldl _ _ (fun _ _ => fun _ h2 => h2.writeRange ..)

theorem State.Inv.releaseHeld {s : State} (h : s.Inv) (p : Fin 8) : (s.releaseHeld p).Inv := by
  unfold State.releaseHeld
  dsimp only
  exact (h.foldl _ _ (fun u x => fun h1 h2 => h2.releaseCopy _)).upd ((Core.Keeps.refl _).fields ..)

theorem Core.Keeps.commit {b c : Core} (h : b.Keeps c) (pcq : PcQueue) (play : Option Replay) :
    b.Keeps (c.commit pcq play) :=
  h.fields ..

theorem State.Inv.logRetried {s : State} (h : s.Inv) : s.logRetried.Inv := by
  unfold State.logRetried
  dsimp only
  split
  · exact h.logErrorAt ..
  · exact h

theorem execPhsw_sound {s : State} (h : s.Inv) (p : Fin 8) : Sound (execPhsw p s) := by
  unfold Machine.execPhsw
  dsimp only
  refine ctlWord_sound h _ ?_
  split
  · exact trivial
  split
  · exact h
  split
  · exact h.silentError _
  · exact (((h.releaseHeld _).recordSync _ _).logRetried.updVis _).upd ((Core.Keeps.refl _).commit _ _)

/-! ### The invariant, operation by operation: nests and replays -/

theorem State.Inv.putNest {s : State} (h : s.Inv) (r : NestRun) : (s.putNest r).Inv := h.updCtl _

theorem nestPush_sound {s : State} (h : s.Inv) (r : NestRun) (p : NestPlace) (e : Engine) (w : Word)
    (cont : Option Word) : Sound (nestPush r p e w cont s) := by
  unfold Machine.nestPush
  dsimp only
  split
  next x1 e1 =>
    exact next_sound h.noteReach.ticked
  next x1 x2 e2 =>
    have hu := (h.updVis _).of_push e2
    exact next_sound (((hu.recordEngine _ _).clearReach.putNest _).ctlTick)

theorem nestNext_sound {s : State} (h : s.Inv) (r : NestRun) : Sound (nestNext r s) := by
  unfold Machine.nestNext
  dsimp only
  split
  · exact next_sound (((h.updVis _).updCtl _).ctlDone)
  · exact next_sound ((h.updVis _).putNest _).pass

theorem nestMove_sound {s : State} (h : s.Inv) (r : NestRun) : Sound (nestMove r s) := by
  unfold Machine.nestMove
  split
  · exact nestPush_sound h ..
  · exact next_sound (h.takeTrap _).pass
  · exact next_sound h.noteReach.ticked
  split
  · exact next_sound (h.putNest _).pass
  · exact nestNext_sound h _

theorem State.Inv.nestStart {s : State} (h : s.Inv) (k : Fin 2) (n : Nat) (a : VAddr) : (nestStart k n a s).Inv := by
  unfold Machine.nestStart
  dsimp only
  exact (h.updVis _).updCtl _

theorem State.Inv.nestResume {s : State} (h : s.Inv) (r : NestRun) : (nestResume r s).Inv := by
  unfold Machine.nestResume
  dsimp only
  exact (h.updVis _).updCtl _

theorem execNgo_sound {s : State} (h : s.Inv) (k : Fin 2) (n : BitVec 12) : Sound (execNgo k n s) := by
  unfold Machine.execNgo
  dsimp only
  split
  · exact nestMove_sound h _
  refine ctlWord_sound h _ ?_
  split
  · exact (h.nestResume _).upd ((Core.Keeps.refl _).tickOn)
  split
  · exact h.storeError
  split
  · exact trivial
  · exact (h.nestStart ..).upd ((Core.Keeps.refl _).tickOn)

theorem State.Inv.breakQueue {s : State} (h : s.Inv) (r : NestRun) (e : Engine) : (breakQueue r s e).Inv := by
  unfold Machine.breakQueue
  dsimp only
  exact (h.updVis _).upd (((Core.Keeps.refl _).setEng _ _).flushRegs _)

theorem execNbrk_sound {s : State} (h : s.Inv) (sd : Fin 16) (k : Fin 2) : Sound (execNbrk sd k s) := by
  unfold Machine.execNbrk
  dsimp only
  refine ctlWord_sound h _ ?_
  split
  · split
    · exact (((h.unreplayableIf _).foldl _ _ (fun u x => fun h1 h2 => h2.breakQueue _ _)).updVis _).putNest _
    · exact h.unreplayableIf _
  · exact h.unreplayableIf _

/-! ### The invariant, operation by operation: the shell of an engine word -/

theorem State.Inv.issueWord {s : State} (h : s.Inv) (e : Engine) (t : Tok) (x : Entry) (w : Issued) :
    (issueWord e t x w s).Inv :=
  h.upd ((((Core.Keeps.refl _).setEng _ _).fields ..).flushRegs _)

theorem State.Inv.stayWord {s : State} (h : s.Inv) (e : Engine) (t : Tok) (x y : Entry) : (stayWord e t x y s).Inv :=
  h.upd (((Core.Keeps.refl _).setEng _ _).fields ..)

theorem State.Inv.putHead {s : State} (h : s.Inv) (e : Engine) (y : Entry) : (putHead e y s).Inv :=
  h.upd ((Core.Keeps.refl _).setEng _ _)

theorem State.Inv.stopSettling {s : State} (h : s.Inv) (e : Engine) : (stopSettling e s).Inv := h.updCtl _

theorem ERes.Sound.settle {s : State} {r : ERes} (hr : r.Sound) (h : s.Inv) (e : Engine) : (r.settle e s).Sound := by
  unfold ERes.settle
  split
  · exact hr
  · simp only [ERes.Sound]
    split
    · exact hr
    · exact State.Inv.stopSettling hr e
  · trivial
  · exact h.stopSettling e

theorem engFinish_sound {s : State} {r : ERes} (h : s.Inv) (e : Engine) (t : Tok) (x : Entry) (hr : r.Sound) :
    Sound (engFinish e t x s r) := by
  cases r with
  | wait => exact next_sound h.pass
  | waitWith u => exact next_sound (State.Inv.pass hr)
  | trap r u => exact next_sound (State.Inv.takeTrap hr _).pass
  | trapIn r u => exact next_sound ((State.Inv.upd hr ((Core.Keeps.refl _).fields ..)).takeTrap _).pass
  | raw u => exact next_sound (State.Inv.pass hr)
  | issue u w => exact next_sound (State.Inv.issueWord hr e t x w).pass
  | part u y => exact next_sound (State.Inv.stayWord hr e t x y).pass
  | trapAt r u y =>
    have hu : u.Inv := hr
    unfold engFinish
    refine next_sound (State.Inv.takeTrap ?_ _).pass
    split
    · exact hu.putHead e y
    · exact hu.stayWord e t x y
  | fault f => exact fault_sound f

theorem engWord_sound {s : State} {body : Entry → State → ERes} (h : s.Inv) (e : Engine) (t : Tok) (i : Instr)
    (hb : ∀ x u, (hu : u.Inv) → (body x u).Sound) : Sound (engWord e t i s body) := by
  have hf : (s.upd fun c => c.flushRegs e).Inv := h.upd ((Core.Keeps.refl _).flushRegs e)
  unfold engWord
  dsimp only
  generalize s.upd (fun c => c.flushRegs e) = u at hf
  have hbody := hb (u.core.headOf e i) u hf
  split
  · exact next_sound hf.pass
  split
  · split
    · exact engFinish_sound hf _ _ _ (hbody.settle hf e)
    · exact engFinish_sound hf _ _ _ hbody
  split
  · exact next_sound hf.pass
  split
  · exact engFinish_sound hf _ _ _ (hf.silentError _)
  split
  · exact next_sound hf.pass
  split
  · exact engFinish_sound hf _ _ _ hf
  · split
    · exact engFinish_sound hf _ _ _ hbody
    · exact next_sound hf.pass

theorem hookTrap_sound {s : State} (h : s.Inv) (i : Instr) (e : Engine) : CheckSound (hookTrap i e s) := by
  unfold Machine.hookTrap
  split
  · exact some_sound h
  · exact none_sound

theorem orElse_sound {r : Option ERes} {k : ERes} (hr : CheckSound r) (hk : k.Sound) : (orElse r k).Sound := by
  unfold orElse
  split
  · exact hr.sound _ rfl
  · exact hk

theorem or_sound {r k : Option ERes} (hr : CheckSound r) (hk : CheckSound k) : CheckSound (r.or k) := by
  cases r with
  | none => exact hk
  | some x => exact hr

/-- A check whose answer is changed. -/
theorem checkMap_sound {r : Option ERes} {f : ERes → ERes} (hr : CheckSound r) (hf : ∀ x, x.Sound → (f x).Sound) :
    CheckSound (r.map f) := by
  refine ⟨fun x hx => ?_⟩
  obtain ⟨y, hy, rfl⟩ := Option.map_eq_some_iff.mp hx
  exact hf y (hr.sound y hy)

theorem map_sound {α : Type} {f : α → ERes} (o : Option α) (hf : ∀ x, (f x).Sound) : CheckSound (o.map f) := by
  refine ⟨fun x hx => ?_⟩
  obtain ⟨y, -, rfl⟩ := Option.map_eq_some_iff.mp hx
  exact hf y

theorem illegalIf_sound {s : State} (h : s.Inv) (b : Bool) (i : Instr) (e : Engine) (reason : Nat) (x : Entry) :
    CheckSound (illegalIf b i e reason x s) := by
  unfold Machine.illegalIf
  split
  · exact some_sound h
  · exact none_sound

theorem accessFail_sound {s : State} (h : s.Inv) (i : Instr) (e : Engine) (fs : List (Nat × Nat × Nat))
    (gone : Option Nat) : CheckSound (accessFail i e fs gone s) := by
  unfold Machine.accessFail
  split
  · exact some_sound h
  · exact map_sound _ (fun x => trivial)

theorem State.Inv.setHits {s : State} (h : s.Inv) (m : BitVec 16) : (s.setHits m).Inv := h.updRegs _

theorem watchFail_sound {s : State} (h : s.Inv) (i : Instr) (e : Engine) (x : Entry) (hits : List (Nat × Nat × Nat)) :
    CheckSound (watchFail i e x hits s) := by
  unfold Machine.watchFail
  split
  · exact map_sound _ (fun x1 => h.setHits _)
  · exact none_sound

theorem consumeError_sound {s : State} (h : s.Inv) (e : Engine) (b : Option (Space × Nat)) :
    CheckSound (consumeError e b s) :=
  map_sound _ (fun _ => h.silentError _)

theorem atProgress_sound {r : ERes} (h : r.Sound) (x : Entry) : (atProgress x r).Sound := by
  cases r with
  | trap t s =>
    show (if x.started then ERes.trapAt t s x else .trap t s).Sound
    split <;> exact h
  | wait | fault => trivial
  | waitWith | trapIn | raw | issue | part | trapAt => exact h

theorem readChecks_sound {s : State} (h : s.Inv) (i : Instr) (e : Engine) (x : Entry) (rs : List (Nat × Nat)) :
    CheckSound (readChecks i e x rs s) :=
  or_sound (accessFail_sound h ..) (or_sound (watchFail_sound h ..) (consumeError_sound h _ _))

theorem State.Inv.updCarried {s : State} (h : s.Inv) (f : Carried → Carried) : (s.updCarried f).Inv :=
  h.upd ((Core.Keeps.refl _).fields ..)

theorem State.Inv.readsIf {s : State} (h : s.Inv) (b : Bool) : (s.readsIf b).Inv := by
  unfold State.readsIf
  split
  · exact h.setIrrev
  · exact h

theorem State.Inv.readsTile {s : State} (h : s.Inv) (t : Fin 16) : (s.readsTile t).Inv := h.readsIf _

theorem State.Inv.wholeTile {s : State} (h : s.Inv) (t : Fin 16) : (s.wholeTile t).Inv := h.updCarried _

theorem State.Inv.readsAcc {s : State} (h : s.Inv) (a : Fin 4) : (s.readsAcc a).Inv := h.readsIf _

theorem State.Inv.wholeAcc {s : State} (h : s.Inv) (a : Fin 4) : (s.wholeAcc a).Inv := h.updCarried _

theorem State.Inv.pushVq {s : State} (h : s.Inv) (k : Fin 4) (x : LaneEntry) : (s.pushVq k x).Inv := h.updQ _

theorem State.Inv.popVq {s : State} (h : s.Inv) (k : Fin 4) : (s.popVq k).Inv := (h.readsIf _).updQ _

theorem execEngineRetire_sound {s : State} (h : s.Inv) (e : Engine) : Sound (execEngineRetire e s) := by
  unfold Machine.execEngineRetire
  dsimp only
  split
  · exact next_sound h.pass
  split
  · exact next_sound (h.upd ((((Core.Keeps.refl _).retireOne _ _).setEng _ _).fields ..)).pass
  · exact next_sound h.pass

/-- Rows written into a tile keep the tiles canonical. -/
theorem tileRows_wf {m : Mem} (h : m.wf = true) (t : Fin 16) (r : Nat) (rows : List (List Byte)) :
    (tileRows m t r rows).wf = true := by
  induction rows generalizing m r with
  | nil => exact h
  | cons row rows ih => exact ih (Mem.wf_write h _ _) _

/-! ### The invariant, operation by operation: load words -/

theorem State.Inv.fillTile {s : State} (h : s.Inv) (t : Fin 16) (clear : Bool) (rows : List (List Byte))
    (f : BitVec 4) (r e : Nat) : (s.fillTile t clear rows f r e).Inv := by
  unfold State.fillTile
  refine (h.upd ((Core.Keeps.refl _).matrixMems (fun ht => ?_) (fun ha => ha) ..)).wholeTile t
  refine tileRows_wf ?_ t 0 rows
  split
  · exact Mem.wf_write ht _ _
  · exact ht

theorem q4xTrap_sound {s : State} (h : s.Inv) (x : Entry) (info : DWord) : (q4xTrap x info s).Sound := h

theorem State.Inv.ldtFill {s : State} (h : s.Inv) (t : Fin 16) (st : StReg) (z tr : Bool) (rows : List (List Byte)) :
    (ldtFill t st z tr rows s).Inv :=
  h.fillTile ..

theorem execLdt_sound {s : State} (h : s.Inv) (tk : Tok) (d st : Fin 16) (z tr : Bool) :
    Sound (execLdt tk d st z tr s) := by
  unfold Machine.execLdt
  dsimp only
  refine engWord_sound h _ _ _ (fun x u hu => ?_)
  refine orElse_sound (illegalIf_sound hu ..) ?_
  refine orElse_sound (illegalIf_sound hu ..) ?_
  refine orElse_sound (readChecks_sound hu ..) ?_
  split
  · exact q4xTrap_sound hu _ _
  · exact hu.ldtFill ..

theorem rowAgain_sound {s : State} (h : s.Inv) (i : Instr) (e : Engine) (x : Entry) (rs : List (Nat × Nat)) :
    CheckSound (rowAgain i e x rs s) :=
  checkMap_sound (readChecks_sound h ..) (fun _ h1 => atProgress_sound h1 _)

theorem execLdq_sound {s : State} (h : s.Inv) (tk : Tok) (q : Fin 4) (st : Fin 16) : Sound (execLdq tk q st s) := by
  unfold Machine.execLdq
  dsimp only
  refine engWord_sound h _ _ _ (fun x u hu => ?_)
  split
  · exact trivial
  refine orElse_sound (illegalIf_sound hu ..) ?_
  refine orElse_sound ?_ ?_
  · split
    · exact rowAgain_sound hu ..
    · exact readChecks_sound hu ..
  · split <;> exact hu.pushVq _ _

theorem execLdsc_sound {s : State} (h : s.Inv) (tk : Tok) (target : Bool) (st : Fin 16) :
    Sound (execLdsc tk target st s) := by
  unfold Machine.execLdsc
  dsimp only
  refine engWord_sound h _ _ _ (fun x u hu => ?_)
  split
  · split
    · exact trivial
    · exact orElse_sound (illegalIf_sound hu ..)
        (orElse_sound (illegalIf_sound hu ..)
        (orElse_sound (readChecks_sound hu ..) (hu.upd ((Core.Keeps.refl _).matrixFields ..))))
  split
  · exact trivial
  · exact orElse_sound (illegalIf_sound hu ..)
      (orElse_sound (illegalIf_sound hu ..)
      (orElse_sound (readChecks_sound hu ..) (hu.upd ((Core.Keeps.refl _).matrixFields ..))))

theorem State.Inv.popRq {s : State} (h : s.Inv) (k : Fin 2) : (s.popRq k).Inv := by
  unfold State.popRq
  dsimp only
  exact (h.popCarried _).updQ _

theorem ldxTile_sound {s : State} (h : s.Inv) (t : Fin 16) (x : Entry) (r : StReg) (rows : List (Nat × List Byte)) :
    (ldxTile t x r rows s).Sound := by
  unfold Machine.ldxTile
  split
  · exact q4xTrap_sound h _ _
  · exact h.fillTile ..

theorem execLdx_sound {s : State} (h : s.Inv) (tk : Tok) (d : LDest) (st : Fin 16) (rq : Fin 2) (rows : BitVec 9) :
    Sound (execLdx tk d st rq rows s) := by
  unfold Machine.execLdx
  dsimp only
  refine engWord_sound h _ _ _ (fun x u hu => ?_)
  split
  · exact trivial
  split
  · exact trivial
  refine orElse_sound (illegalIf_sound hu ..) ?_
  refine orElse_sound ?_ ?_
  · split
    · exact checkMap_sound (readChecks_sound hu ..) (fun x1 h1 => atProgress_sound h1 _)
    · exact none_sound
  split
  · split
    · exact ldxTile_sound (hu.popRq _) ..
    · exact hu.popRq _
  · split <;> exact (hu.popRq _).pushVq _ _

theorem State.Inv.gathDone {s : State} (h : s.Inv) (d : LDest) (r : StReg) (ix : LaneEntry)
    (xs : List (Nat × List Byte)) : (gathDone d r ix xs s).Inv := by
  unfold Machine.gathDone
  dsimp only
  split
  · exact h.fillTile ..
  · exact h.pushVq _ _

theorem execLgath_sound {s : State} (h : s.Inv) (tk : Tok) (d : LDest) (st : Fin 16) (q : Fin 4) :
    Sound (execLgath tk d st q s) := by
  unfold Machine.execLgath
  dsimp only
  refine engWord_sound h _ _ _ (fun x u hu => ?_)
  split
  · exact trivial
  refine orElse_sound (illegalIf_sound hu ..) ?_
  refine orElse_sound (illegalIf_sound hu ..) ?_
  refine orElse_sound (checkMap_sound (readChecks_sound hu ..) (fun x1 h1 => atProgress_sound h1 _)) ?_
  split
  · split
    · exact hu
    · exact hu.popVq _
  split
  · split
    · exact trivial
    · exact hu.gathDone ..
  split
  · exact trivial
  · exact (hu.popVq _).gathDone ..

theorem State.Inv.of_llandReady {s : State} (h : s.Inv) {slot : Fin 64} {x : Entry} {r : ERes}
    (hr : llandReady slot x s = .error r) : r.Sound := by
  unfold Machine.llandReady at hr
  split at hr
  · cases hr; trivial
  · split at hr
    · split at hr
      · cases hr; trivial
      · cases hr; exact h.putHead ..
    · split at hr
      · cases hr; exact h.silentError _
      · cases hr

theorem execLland_sound {s : State} (h : s.Inv) (tk : Tok) (d : LDest) (slot : Fin 64) :
    Sound (execLland tk d slot s) := by
  unfold Machine.execLland
  dsimp only
  refine engWord_sound h _ _ _ (fun x u hu => ?_)
  split
  · exact trivial
  · split
    next x1 x2 e2 =>
      have hu1 := hu.of_llandReady e2
      exact hu1
    next x1 x2 x3 e3 =>
      split
      · split
        · exact q4xTrap_sound hu _ _
        · exact hu.fillTile ..
      · split
        · exact hu.pushVq _ _
        · exact hu.pushVq _ _

theorem execLadv_sound {s : State} (h : s.Inv) (tk : Tok) (st : Fin 16) (level : Fin 8) :
    Sound (execLadv tk st level s) := by
  unfold Machine.execLadv
  dsimp only
  exact engWord_sound h _ _ _ (fun x u h1 => orElse_sound (illegalIf_sound h1 ..) h1)

theorem execLnop_sound {s : State} (h : s.Inv) (tk : Tok) : Sound (execLnop tk s) :=
  engWord_sound h _ _ _ (fun _ _ h1 => h1)

/-! ### The invariant, operation by operation: matrix products -/

theorem Core.Keeps.racedTile {b c : Core} (h : b.Keeps c) (t : Fin 16) (n : Nat) : b.Keeps (c.racedTile t n) := by
  unfold Core.racedTile
  dsimp only
  split
  · exact h.matrixMems (fun h1 => h1) (fun h1 => h1) ..
  · exact h

theorem Core.Keeps.sees {b c : Core} (h : b.Keeps c) (m : MStep) (n : Nat) : b.Keeps (m.sees c n) := by
  unfold MStep.sees
  split
  · split
    · exact h.racedTile _ _
    · exact (h.racedTile _ _).racedTile _ _
  · exact h.racedTile _ _

theorem State.Inv.spend {s : State} (h : s.Inv) (m : MStep) : (m.spend s).Inv := by
  unfold MStep.spend
  split
  · exact h.setCore (.refl _) ..
  · exact h

/-- Spending free values leaves the core (log 8). -/
theorem MStep.spend_core (m : MStep) (s : State) : (m.spend s).core = s.core := by
  unfold MStep.spend
  split <;> rfl

/-- Taking scales and blocks pops FIFOs of the matrix path alone. -/
theorem Core.Keeps.take {c : Core} (m : MStep) (x : Entry) : c.Keeps (m.take x c).core :=
  (Core.Keeps.refl c).matrixFields ..

theorem State.Inv.popOne {s : State} (h : s.Inv) (x : Entry) : (MStep.popOne x s).1.Inv :=
  (h.upd (f := fun c => { c with
    mx := { c.mx with wfifo := c.mx.wfifo.drop 1, scf := c.mx.scf.drop 1 }
    phase := { c.phase with popped := c.phase.popped ++ c.mx.wfifo.take 1
                            poppedScf := c.phase.poppedScf ++ c.mx.scf.take 1 } })
    ((Core.Keeps.refl _).matrixFields ..)).readsIf _

theorem State.Inv.takeMarks {s : State} (h : s.Inv) (m : MStep) : (takeMarks m s).Inv := by
  unfold Machine.takeMarks
  dsimp only
  exact (h.readsIf _).updCarried _

theorem State.Inv.stepMarks {s : State} (h : s.Inv) (m : MStep) : (stepMarks m s).Inv := by
  unfold Machine.stepMarks
  dsimp only
  split
  · split
    · exact ((h.readsTile _).readsTile _).wholeAcc _
    · exact (h.readsTile _).wholeAcc _
  split
  · exact ((h.readsTile _).readsTile _).readsAcc _
  · exact (h.readsTile _).readsAcc _

theorem takeStep_sound {s : State} (h : s.Inv) (x : Entry) (m : MStep) : (takeStep x m s).Sound := by
  have hk : (m.spend s).core.Keeps (m.take x s.core).core := by
    rw [MStep.spend_core]
    exact .take m x
  have ht : (takeMarks m { m.spend s with core := (m.take x s.core).core }).Inv :=
    ((h.spend m).setCore hk ..).takeMarks m
  unfold Machine.takeStep
  dsimp only
  split
  · split <;> exact ht
  · exact ht.stepMarks m

/-- The state that a step leaves. -/
def StepOut.state : StepOut → State
  | .done s => s
  | .check _ s => s

/-- A computed step writes its accumulator (R172). -/
theorem runStep_inv {s : State} (h : s.Inv) (x : Entry) (m : MStep) (t : HeldStep) : (runStep x m t s).state.Inv := by
  have hfree : State.Inv { s with free := s.free + 65536 } := h.setCore (.refl _) _ _ _
  have hacc (bs : List Byte) (int : Bool) (fl : FlagBits) :
      (State.upd { s with free := s.free + 65536 } fun c => { c with mx := { c.mx with
        acc := c.mx.acc.write (m.o.a.val * tileSize) bs
        accI := c.mx.accI.set m.o.a.val int m.o.a.isLt
        mflags := c.mx.mflags.merge fl 0 } }).Inv :=
    hfree.upd ((Core.Keeps.refl _).matrixMems (fun ht => ht) (fun ha => Mem.wf_write ha _ _) ..)
  unfold runStep
  dsimp only
  split
  · exact hacc ..
  · split
    · dsimp only [StepOut.state]
      exact State.Inv.upd (hacc ..) ((Core.Keeps.refl _).fields ..)
    · dsimp only [StepOut.state]
      exact State.Inv.upd (hacc ..) ((Core.Keeps.refl _).matrixFields ..)

theorem stepAnswer_sound {o : StepOut} {go : State → ERes} (h : o.state.Inv) (x : Entry)
    (hg : ∀ u, (hu : u.Inv) → (go u).Sound) : (stepAnswer x go o).Sound := by
  cases o with
  | done u => exact hg u h
  | check r u => exact (State.Inv.putHead h .matrix _).silentError _

theorem headStep_sound {s : State} {chk : State → Option ERes} {go : State → ERes} (h : s.Inv) (i : Instr)
    (x : Entry) (m : MStep) (hc : CheckSound (chk s)) (hg : ∀ u, (hu : u.Inv) → (go u).Sound) :
    (headStep i x m chk go s).Sound := by
  unfold headStep
  split
  · trivial
  · split
    · exact stepAnswer_sound (runStep_inv h x m _) x hg
    · split
      · trivial
      · refine orElse_sound hc ?_
        split
        · exact atProgress_sound (r := .trap _ _) (h.spend m) x
        · split
          · exact takeStep_sound h x m
          · exact h.popOne x

end Sys2Proof.Machine

namespace Sys2Proof.Machine

theorem execMma_sound {s : State} (h : s.Inv) (tk : Tok) (o : MmaOps) (c : MmaCont) : Sound (execMma tk o c s) := by
  unfold Machine.execMma
  dsimp only
  exact engWord_sound h _ _ _ (fun x u h1 => headStep_sound h1 _ _ _ none_sound (fun u1 h2 => h2))

theorem mrunChecks_sound {s : State} (h : s.Inv) (i : Instr) (x : Entry) (k : Fin 2) (c : MmaCont) :
    CheckSound (mrunChecks i x k c s) :=
  or_sound (illegalIf_sound h ..) (map_sound _ (fun _ => h))

theorem execMrun_sound {s : State} (h : s.Inv) (tk : Tok) (k : Fin 2) (c : MmaCont) : Sound (execMrun tk k c s) := by
  unfold Machine.execMrun
  dsimp only
  refine engWord_sound h _ _ _ (fun x u hu => ?_)
  refine headStep_sound hu _ _ _ (mrunChecks_sound hu ..) fun u hu => ?_
  split <;> exact hu

/-! ### The invariant, operation by operation: accumulators and drains -/

theorem Core.Keeps.drainCore {b c : Core} (h : b.Keeps c) (x : Entry) (slot : Fin 8) :
    b.Keeps (c.drainCore x slot) := by
  unfold Core.drainCore
  dsimp only
  split
  · exact h
  · exact h.matrixFields ..

theorem State.Inv.drainMarks {s : State} (h : s.Inv) (a : Fin 4) (slot : Fin 8) (ops : List (BitVec 16)) :
    (drainMarks a slot ops s).Inv :=
  (h.readsAcc _).readsIf _

theorem State.Inv.pushDrain {s : State} (h : s.Inv) (x : LaneEntry) (d : DrainDest) : (s.pushDrain x d).Inv := by
  unfold State.pushDrain
  split
  · exact h.pushVq _ _
  · exact h.updQ _
  · exact h

theorem execMdrain_sound {s : State} (h : s.Inv) (tk : Tok) (a : Fin 4) (d : DrainDest) (slot : Fin 8) (ac : Bool) :
    Sound (execMdrain tk a d slot ac s) := by
  unfold Machine.execMdrain
  dsimp only
  refine engWord_sound h _ _ _ (fun x u hu => ?_)
  split
  · exact trivial
  · split <;> exact ((hu.drainMarks ..).upd ((Core.Keeps.refl _).matrixFields ..)).pushDrain _ _

theorem execAzero_sound {s : State} (h : s.Inv) (tk : Tok) (a : Fin 4) : Sound (execAzero tk a s) :=
  engWord_sound h _ _ _ fun _ _ hu => (hu.wholeAcc a).upd
    ((Core.Keeps.refl _).matrixMems (fun ht => ht) (fun ha => Mem.wf_write ha _ _) ..)

theorem execAread_sound {s : State} (h : s.Inv) (tk : Tok) (a : Fin 4) (row : Fin 64) (q : Fin 4) :
    Sound (execAread tk a row q s) := by
  unfold Machine.execAread
  dsimp only
  refine engWord_sound h _ _ _ (fun x u hu => ?_)
  split
  · exact trivial
  · exact (hu.readsAcc _).pushVq _ _

theorem execApatch_sound {s : State} (h : s.Inv) (tk : Tok) (a : Fin 4) (row : Fin 64) (mode : PatchMode) :
    Sound (execApatch tk a row mode s) := by
  unfold Machine.execApatch
  dsimp only
  refine engWord_sound h _ _ _ fun x u hu => ?_
  split
  · exact trivial
  next v t _ =>
    have hr := hu.readsIf v.carried
    refine State.Inv.upd (State.Inv.updQ ?_ _)
      ((Core.Keeps.refl _).matrixMems (fun ht => ht) (fun ha => Mem.wf_write ha _ _) ..)
    split
    · exact hr.readsAcc a
    · exact hr

theorem execEpset_sound {s : State} (h : s.Inv) (tk : Tok) (slot : Fin 8) (st : Fin 16) :
    Sound (execEpset tk slot st s) := by
  unfold Machine.execEpset
  dsimp only
  refine engWord_sound h _ _ _ (fun x u hu => ?_)
  refine orElse_sound (readChecks_sound hu ..) ?_
  split
  · exact hu
  · exact (hu.updCarried _).upd ((Core.Keeps.refl _).matrixFields ..)

theorem execEpcon_sound {s : State} (h : s.Inv) (tk : Tok) (bank : Fin 8) (st : Fin 16) :
    Sound (execEpcon tk bank st s) := by
  unfold Machine.execEpcon
  dsimp only
  exact engWord_sound h _ _ _
    (fun x u h1 => orElse_sound (readChecks_sound h1 ..)
    ((h1.updCarried _).upd ((Core.Keeps.refl _).matrixFields ..)))

theorem execHeapclr_sound {s : State} (h : s.Inv) (tk : Tok) (k : Fin 64) : Sound (execHeapclr tk k s) :=
  engWord_sound h _ _ _ (fun _ _ h1 => (h1.updCarried _).upd ((Core.Keeps.refl _).matrixFields ..))

theorem execHeaprd_sound {s : State} (h : s.Inv) (tk : Tok) (q : Fin 4) (part : Bool) :
    Sound (execHeaprd tk q part s) := by
  unfold Machine.execHeaprd
  refine engWord_sound h _ _ _ (fun x u hu => ?_)
  split
  · exact trivial
  · exact (hu.readsIf _).pushVq _ _

theorem execMchk_sound {s : State} (h : s.Inv) (tk : Tok) (q : Fin 4) : Sound (execMchk tk q s) := by
  unfold Machine.execMchk
  dsimp only
  refine engWord_sound h _ _ _ (fun x u hu => ?_)
  split
  · exact trivial
  · exact hu.pushVq _ _

theorem execMnop_sound {s : State} (h : s.Inv) (tk : Tok) : Sound (execMnop tk s) :=
  engWord_sound h _ _ _ (fun _ _ h1 => h1)

/-! ### The invariant, operation by operation: host queues and registers -/

theorem State.Inv.modQueue {s : State} (h : s.Inv) (tn : Fin 16) (q : Fin 8) (f : HostQueue → HostQueue) :
    (s.modQueue tn q f).Inv :=
  h.modTenant _ _

theorem State.Inv.stopRecord {s : State} (h : s.Inv) (tn : Fin 16) (q : Fin 8) (err : BitVec 4) (cause : BitVec 6)
    (seq : BitVec 32) (info : DWord) (tick : Nat) : (s.stopRecord tn q err cause seq info tick).Inv :=
  h.writeRecord ..

theorem State.Inv.queueError {s : State} (h : s.Inv) (tn : Fin 16) (q : Fin 8) (err : BitVec 4) :
    (s.queueError tn q err).Inv :=
  (h.modQueue ..).stopRecord ..

theorem State.Inv.windowWrite {s : State} (h : s.Inv) (off : Nat) (v : DWord) : (s.windowWrite off v).Inv := by
  unfold State.windowWrite
  split
  · exact h
  split
  · exact h
  · exact h.modDieSame _ _

theorem State.Inv.pageWrite {s : State} {f : State → State} (h : s.Inv) (tn : Fin 16) (off : Nat) (v : DWord)
    (hf : (f s).Inv) : (s.pageWrite tn off v f).Inv := by
  unfold State.pageWrite
  split
  · exact h.windowWrite ..
  · exact hf

theorem execKick_sound {s : State} (h : s.Inv) (tn : Fin 16) (q : Fin 8) (seq : BitVec 32) :
    Sound (execKick tn q seq s) :=
  next_sound (h.pageWrite _ _ _ (h.modQueue ..)).pass

theorem execEntryReread_sound {s : State} (h : s.Inv) (tn : Fin 16) (q : Fin 8) : Sound (execEntryReread tn q s) := by
  unfold Machine.execEntryReread
  dsimp only
  split
  · exact next_sound h.pass
  split
  · exact next_sound (h.modQueue ..).pass
  split
  · exact next_sound (h.queueError ..).pass
  · exact next_sound (h.modQueue ..).pass

theorem execAck_sound {s : State} (h : s.Inv) (tn : Fin 16) (q : Fin 8) : Sound (execAck tn q s) :=
  next_sound (h.pageWrite _ _ _ (h.modQueue ..)).pass

theorem execQcfgWrite_sound {s : State} (h : s.Inv) (tn : Fin 16) (q : Fin 8) (v : DWord) :
    Sound (execQcfgWrite tn q v s) :=
  next_sound (h.pageWrite _ _ _ (h.modQueue ..)).pass

theorem execErcfgWrite_sound {s : State} (h : s.Inv) (tn : Fin 16) (v : DWord) : Sound (execErcfgWrite tn v s) :=
  next_sound (h.pageWrite _ _ _ (h.modTenant _ _)).pass

theorem State.Inv.regWrite {s : State} (h : s.Inv) (tn : Fin 16) (o : Nat) (v : DWord) : (regWrite tn o v s).Inv := by
  unfold Machine.regWrite
  dsimp only
  split
  · split
    · exact h.modQueue ..
    split
    · exact h.modQueue ..
    · exact h
  split
  · exact h.modTenant _ _
  split
  · exact h.modTenant _ _
  · exact h

theorem execHostRegisterWrite_sound {s : State} (h : s.Inv) (tn : Fin 16) (off : BitVec 16) (v : DWord) :
    Sound (execHostRegisterWrite tn off v s) :=
  next_sound (h.pageWrite _ _ _ (h.regWrite ..)).pass

theorem State.Inv.ownedCore {s : State} (h : s.Inv) (tn : Fin 16) (c : Fin 128) (f : Queues → Queues) :
    (s.ownedCore tn c f).Inv := by
  unfold State.ownedCore
  split
  · exact h.modCoreKeeps _ (fun c1 => (Core.Keeps.refl _).fields ..)
  · exact h

theorem State.Inv.hostReads {s : State} (h : s.Inv) (v : DWord) : (s.hostReads v).Inv :=
  h.setSys ((Sys.Keeps.refl _).fields ..) ..

theorem State.Inv.readMbout {s : State} (h : s.Inv) (tn : Fin 16) (c : Fin 128) : (readMbout tn c s).Inv :=
  (h.ownedCore ..).hostReads _

theorem execMbout_sound {s : State} (h : s.Inv) (tn : Fin 16) (c : Fin 128) : Sound (execMbout tn c s) := by
  unfold Machine.execMbout
  split
  · exact next_sound (h.hostReads _).pass
  · exact next_sound (h.readMbout _ _).pass

theorem execMbin_sound {s : State} (h : s.Inv) (tn : Fin 16) (c : Fin 128) (v : DWord) :
    Sound (execMbin tn c v s) := by
  unfold Machine.execMbin
  refine next_sound (h.pageWrite _ _ _ ?_).pass
  exact h.ownedCore ..

theorem execDropClear_sound {s : State} (h : s.Inv) (tn : Fin 16) (c : Fin 128) : Sound (execDropClear tn c s) := by
  unfold Machine.execDropClear
  refine next_sound (h.pageWrite _ _ _ ?_).pass
  exact h.ownedCore ..

theorem State.Inv.pageRead {s : State} (h : s.Inv) (tn : Fin 16) (off : BitVec 16) : (pageRead tn off s).Inv := by
  unfold Machine.pageRead
  dsimp only
  split
  · exact h.hostReads _
  split
  · exact h.hostReads _
  split
  · exact h.hostReads _
  split
  · split
    · exact h.readMbout _ _
    · split <;> exact h.hostReads _
  · exact h.hostReads _

theorem execHostMemAccess_sound {s : State} (h : s.Inv) (write : Bool) (pa n : Nat) (data : List Byte) :
    Sound (execHostMemAccess write pa n data s) := by
  unfold Machine.execHostMemAccess
  dsimp only
  split
  · exact next_sound h.pass
  split
  · exact next_sound (h.writeAt ..).pass
  split
  · exact next_sound ((h.setSys ((Sys.Keeps.refl _).fields ..) ..).note _).pass
  · exact next_sound (h.setSys ((Sys.Keeps.refl _).fields ..) ..).pass

theorem execLinkRateChange_sound {s : State} (h : s.Inv) (rate lanes : Nat) :
    Sound (execLinkRateChange rate lanes s) := by
  unfold Machine.execLinkRateChange
  dsimp only
  split
  · exact next_sound h.pass
  · exact next_sound (h.setSys ((Sys.Keeps.refl _).fields ..) ..).pass

/-! ### The invariant, operation by operation: control memory words -/

theorem State.Inv.of_ctlWatch {s : State} (h : s.Inv) {i : Instr} {k : Acc} {a n : Nat} {r : Res}
    (hr : ctlWatch i k a n s = some r) : r.Sound := by
  unfold Machine.ctlWatch at hr
  dsimp only at hr
  split at hr
  · cases hr
  · split at hr
    · cases hr
    · cases hr
      exact (h.updRegs _).takeTrap _

theorem State.Inv.of_ctlAccess {s : State} (h : s.Inv) {i : Instr} {k : Acc} {ea : DWord} {n : Nat} {r : Res}
    (hr : ctlAccess i k ea n s = .error r) : r.Sound := by
  unfold Machine.ctlAccess at hr
  dsimp only at hr
  split at hr
  · cases hr; trivial
  split at hr
  · cases hr; trivial
  split at hr
  · cases hr; trivial
  · cases hr; trivial
  · split at hr
    · cases hr; exact h.of_ctlWatch ‹_›
    · split at hr
      · cases hr; exact h.silentError _
      · split at hr
        · cases hr; trivial
        · cases hr

theorem load_sound {s : State} (h : s.Inv) (i : Instr) (d a : Fin 32) (imm : BitVec 9) (n logn : Nat)
    (ext : Nat → DWord) : Sound (load i d a imm n logn ext s) := by
  unfold Machine.load
  dsimp only
  refine ctlWord_sound h _ ?_
  split
  next x1 x2 e2 =>
    have hu := (h.readG _).of_ctlAccess e2
    exact hu
  next x1 x2 x3 e3 =>
    split
    · split
      · exact ((h.readG _).recordStop _).writeG ..
      · exact (h.readG _).writeG ..
    · split
      · exact ((h.readG _).recordStop _).writeGLocked ..
      · exact (h.readG _).writeGLocked ..

theorem State.Inv.touch {s : State} (h : s.Inv) (sp : Space) : (s.touch sp).Inv := by
  unfold State.touch
  split
  · exact h
  · exact h.setIrrev

theorem store_sound {s : State} (h : s.Inv) (i : Instr) (d a : Fin 32) (imm : BitVec 9) (n : Nat) :
    Sound (store i d a imm n s) := by
  unfold Machine.store
  dsimp only
  refine ctlWord_sound h _ ?_
  split
  next x1 x2 e2 =>
    have hu := ((h.readG _).readG _).of_ctlAccess e2
    exact hu
  next x1 x2 x3 e3 =>
    exact (((h.readG _).readG _).writeAt ..).touch _

theorem execLdl_sound {s : State} (h : s.Inv) (d : Fin 32) (imm : BitVec 18) : Sound (execLdl d imm s) := by
  unfold Machine.execLdl
  dsimp only
  refine ctlWord_sound h _ ?_
  split
  · exact trivial
  split
  · exact h.storeError
  split
  · exact trivial
  · exact h.writeG ..

theorem execLpool_sound {s : State} (h : s.Inv) (_imm : BitVec 18) : Sound (execLpool _imm s) := ctlWord_sound h _ h

theorem atomic_sound {s : State} (h : s.Inv) (i : Instr) (n : Nat) (fn : AtomFn) (d a b : Fin 32) :
    Sound (atomic i n fn d a b s) := by
  unfold Machine.atomic
  dsimp only
  refine ctlWord_sound h _ ?_
  split
  next x1 x2 e2 =>
    have hu := (((h.readG _).readG _).readG _).of_ctlAccess e2
    exact hu
  next x1 x2 x3 e3 =>
    split
    · exact (((((h.readG _).readG _).readG _).writeAt ..).touch _).writeGLocked ..
    · exact ((((h.readG _).readG _).readG _).touch _).writeGLocked ..

theorem execFence_sound {s : State} (h : s.Inv) (_scope : Scope) (_kind : FenceKind) (_mask : BitVec 16) :
    Sound (execFence _scope _kind _mask s) :=
  ctlWord_sound h _ h

/-! ### The invariant, operation by operation: jigs -/

theorem State.Inv.modJig {s : State} (h : s.Inv) (j : Fin 4) (f : Jig → Jig) : (s.modJig j f).Inv :=
  h.upd ((Core.Keeps.refl _).fields ..)

theorem execJigRec_sound {s : State} (h : s.Inv) (j : Fin 4) : Sound (execJigRec j s) := by
  unfold Machine.execJigRec
  dsimp only
  refine ctlNoHook_sound h _ _ ?_
  split
  · exact trivial
  · exact (h.modJig _ _).upd ((Core.Keeps.refl _).fields ..)

theorem execJigEnd_sound {s : State} (h : s.Inv) (d : Fin 32) : Sound (execJigEnd d s) := by
  unfold Machine.execJigEnd
  dsimp only
  refine ctlNoHook_sound h _ _ ?_
  split
  · exact h.writeGLocked ..
  · exact ((h.modJig _ _).upd ((Core.Keeps.refl _).fields ..)).writeGLocked ..

theorem execJigDrop_sound {s : State} (h : s.Inv) (j : Fin 4) : Sound (execJigDrop j s) :=
  ctlNoHook_sound h _ _ ((h.modJig _ _).upd ((Core.Keeps.refl _).fields ..))

theorem execJigStop_sound {s : State} (h : s.Inv) (a b : Fin 32) : Sound (execJigStop a b s) := by
  unfold Machine.execJigStop
  dsimp only
  refine ctlNoHook_sound h _ _ ?_
  split
  · exact (h.readG _).readG _
  split
  · exact trivial
  · exact ((h.readG _).readG _).recordStop _

theorem execJigPlay_sound {s : State} (h : s.Inv) (d : Fin 32) (j : Fin 4) : Sound (execJigPlay d j s) := by
  unfold Machine.execJigPlay
  dsimp only
  refine ctlNoHook_sound h _ _ ?_
  split
  · exact trivial
  split
  · exact (h.upd ((Core.Keeps.refl _).fields ..)).upd ((Core.Keeps.refl _).tickOn)
  split
  · exact ((h.modJig _ _).logError ..).setIrrev.writeGLocked ..
  split
  · exact h.silentError _
  split
  · exact trivial
  split
  · exact (h.setIrrev.upd ((Core.Keeps.refl _).fields ..)).upd ((Core.Keeps.refl _).tickOn)
  · exact h.setIrrev.writeGLocked ..

theorem State.Inv.passEntry {s : State} (h : s.Inv) : (passEntry s).Inv :=
  (h.advance.upd ((Core.Keeps.refl _).tickOn.fields ..)).pass

theorem playSync_sound {s : State} (h : s.Inv) (w : Nat) : Sound (playSync w s) := by
  unfold Machine.playSync
  split
  · exact execBar_sound h _
  · exact execPlumb_sound h _
  · exact execSigev_sound h _
  · exact execWaitev_sound h _
  · exact execPhsw_sound h _
  · exact next_sound (h.takeTrap _).pass

theorem playEntry_sound {s : State} (h : s.Inv) (e : BitVec 128) : Sound (playEntry e s) := by
  unfold Machine.playEntry
  dsimp only
  split
  · split
    · exact next_sound ((h.takeTrap _).pass)
    · split
      next x1 e1 =>
        exact next_sound h.ticked
      next x1 x2 e2 =>
        have hu := h.of_push e2
        exact next_sound hu.passEntry
  · exact next_sound ((h.writeSR _ _).passEntry)
  · exact next_sound ((h.writeSR _ _).passEntry)
  · exact playSync_sound h _
  · split
    · exact next_sound h.ticked
    · exact next_sound ((h.pushXq _).passEntry)
  · exact next_sound h.passEntry
  · exact next_sound ((h.takeTrap _).pass)

theorem State.Inv.endPlay {s : State} (h : s.Inv) (p : Replay) (v : DWord) : (endPlay p v s).Inv :=
  ((h.upd ((Core.Keeps.refl _).fields ..)).writeGLocked ..).ctlDone

theorem State.Inv.entryBad {s : State} (h : s.Inv) (p : Replay) (first : Bool) : (entryBad p first s).Inv := by
  unfold Machine.entryBad
  split
  · exact ((h.modJig _ _).logError ..).endPlay _ _
  · exact ((h.logError ..).takeTrap _).pass

theorem execJigEntryIssue_sound {s : State} (h : s.Inv) : Sound (execJigEntryIssue s) := by
  unfold Machine.execJigEntryIssue
  dsimp only
  split
  · exact next_sound h.pass
  split
  · exact next_sound h.pass
  split
  · exact next_sound (h.endPlay _ _)
  split
  · exact next_sound ((h.upd ((Core.Keeps.refl _).fields ..)).ticked)
  split
  · exact next_sound ((h.upd ((Core.Keeps.refl _).fields ..)).entryBad _ _)
  · exact playEntry_sound (h.upd ((Core.Keeps.refl _).fields ..)) _

/-! ### The invariant, operation by operation: streams -/

theorem State.Inv.streamRead {s : State} (h : s.Inv) (l : Loc) (a n : Nat) : (streamRead s l a n).2.Inv := by
  unfold Machine.streamRead
  split
  · exact h.pick (256 ^ n)
  · exact h

/-- The state that the checks of SDOPEN leave meets the invariant. -/
def ChecksSound (r : List (Nat × Nat) × OpenEnd × State) : Prop := r.2.2.Inv

/-- SDOPEN's checks read the stream's header and table (R211). The functions that they ask are made variables, so
that no case evaluates them. -/
theorem openChecks_sound {s : State} (h : s.Inv) (l : Loc) (a : Nat) : ChecksSound (openChecks s l a) := by
  have unfolded : @Machine.openChecks = @Machine.openChecks := rfl
  conv at unfolded => rhs; delta Machine.openChecks
  rw [unfolded]
  clear unfolded
  obtain ⟨stage, hstage⟩ : ∃ f, stageFail = f := ⟨_, rfl⟩
  obtain ⟨gone, hgone⟩ : ∃ f, goneAt = f := ⟨_, rfl⟩
  obtain ⟨far, hfar⟩ : ∃ f, foreign = f := ⟨_, rfl⟩
  obtain ⟨read, hread⟩ : ∃ f, Machine.streamRead = f := ⟨_, rfl⟩
  have hkeep {u v : State} {l : Loc} {a n : Nat} {bs : List Byte} (hu : u.Inv) (hr : read u l a n = (bs, v)) :
    v.Inv := by
    have := hu.streamRead l a n
    rwa [hread, hr] at this
  rw [hstage, hgone, hfar, hread]
  beta_reduce
  extract_lets die r1
  split
  · exact h
  split
  · exact h
  split
  · exact h
  split
  next hdr u hq =>
  have hu := hkeep h hq
  split
  · exact hu
  extract_lets n r2 b0
  split
  · exact hu
  split
  · exact hu
  split
  · exact hu
  split
  next tab v hq =>
  have hv := hkeep hu hq
  extract_lets es r3 all
  split
  · exact hv
  split
  · exact hv
  split
  · exact hv
  split
  · exact hv
  split
  · exact hv
  split
  · exact hv
  · exact hv
theorem execSdopen_sound {s : State} (h : s.Inv) (st : Fin 16) : Sound (execSdopen st s) := by
  unfold Machine.execSdopen
  refine engWord_sound h _ _ _ fun x u hu => ?_
  obtain ⟨checks, hchecks⟩ : ∃ f, openChecks = f := ⟨_, rfl⟩
  have hkeep {l : Loc} {a : Nat} {rs : List (Nat × Nat)} {fin : OpenEnd} {v : State}
    (hr : checks u l a = (rs, fin, v)) :
      v.Inv := by
    have := openChecks_sound hu l a
    rw [hchecks, hr] at this
    exact this
  rw [hchecks]
  split
  · exact trivial
  · refine orElse_sound (hookTrap_sound hu _ _) (orElse_sound (illegalIf_sound hu ..) ?_)
    split
    · exact hu
    · split
      next hr =>
      have hv := hkeep hr
      split
      · exact hv
      · exact trivial
      · exact orElse_sound (watchFail_sound hv ..) hv
      · exact orElse_sound (watchFail_sound hv ..) hv

theorem execSdopenRetire_sound {s : State} (h : s.Inv) : Sound (execSdopenRetire s) := by
  unfold Machine.execSdopenRetire
  dsimp only
  split
  · split
    · exact next_sound (h.upd ((Core.Keeps.refl _).fields ..)).pass
    · exact next_sound h.pass
  · exact next_sound h.pass

theorem execSdrun_sound {s : State} (h : s.Inv) (n : BitVec 12) : Sound (execSdrun n s) := by
  unfold Machine.execSdrun
  dsimp only
  refine engWord_sound h _ _ _ (fun x u hu => ?_)
  refine orElse_sound (hookTrap_sound hu _ _) ?_
  split
  · exact hu
  refine orElse_sound (illegalIf_sound hu ..) ?_
  split
  · exact hu
  · exact hu.upd ((Core.Keeps.refl _).fields ..)

theorem execSdclose_sound {s : State} (h : s.Inv) : Sound (execSdclose s) := by
  unfold Machine.execSdclose
  refine engWord_sound h _ _ _ (fun x u hu => ?_)
  split
  · exact trivial
  · exact hu.upd ((Core.Keeps.refl _).fields ..)

theorem execSdstat_sound {s : State} (h : s.Inv) : Sound (execSdstat s) := by
  unfold Machine.execSdstat
  refine engWord_sound h _ _ _ (fun x u hu => ?_)
  split
  · exact trivial
  · exact hu.updQ _

theorem State.Inv.updSd {s : State} (h : s.Inv) (f : Stream → Stream) : (s.updSd f).Inv :=
  h.upd ((Core.Keeps.refl _).fields ..)

theorem beatLands_sound {s : State} (h : s.Inv) (d : Stream) : Sound (beatLands d s) := by
  unfold Machine.beatLands
  dsimp only
  split
  · exact next_sound (h.takeTrap _).pass
  · exact fault_sound _
  · exact next_sound ((h.streamRead ..).updSd _).pass

theorem execStreamBeat_sound {s : State} (h : s.Inv) : Sound (execStreamBeat s) := by
  unfold Machine.execStreamBeat
  dsimp only
  split
  · exact next_sound h.pass
  split
  · exact next_sound h.pass
  split
  · exact beatLands_sound h _
  split
  · exact next_sound (((h.pick _).updSd _).beginDelay _).pass
  · exact beatLands_sound (h.pick _) _

theorem State.Inv.blockRemoved {s : State} (h : s.Inv) (d : Stream) (i : Nat) (bs : List Byte) :
    (blockRemoved d i bs s).Inv := by
  unfold Machine.blockRemoved
  dsimp only
  split
  · exact h.updSd _
  · exact h.takeTrap _
  · exact (h.updSd _).beginDelay _

theorem State.Inv.underrun {s : State} (h : s.Inv) (d : Stream) (i : Nat) : (underrun d i s).Inv := by
  unfold Machine.underrun
  split
  · exact h.takeTrap _
  · exact h.beginDelay _

theorem execBlockRemoval_sound {s : State} (h : s.Inv) : Sound (execBlockRemoval s) := by
  unfold Machine.execBlockRemoval
  dsimp only
  split
  · exact next_sound h.pass
  split
  · exact next_sound h.pass
  split
  · exact next_sound (h.takeTrap _).pass
  split
  · exact next_sound (h.underrun _ _).pass
  split
  · exact next_sound (h.takeTrap _).pass
  · exact next_sound ((h.updSd _).blockRemoved ..).pass

theorem State.Inv.refetched {s : State} (h : s.Inv) (d : Stream) (i : Nat) (bs : List Byte) :
    (refetched d i bs s).Inv := by
  unfold Machine.refetched
  dsimp only
  split
  · exact ((h.updSd _).updSd _).logError ..
  · exact ((h.updSd _).logError ..).takeTrap _
  · exact (h.updSd _).takeTrap _

theorem execBlockRefetch_sound {s : State} (h : s.Inv) : Sound (execBlockRefetch s) := by
  unfold Machine.execBlockRefetch
  obtain ⟨gone, hgone⟩ : ∃ f, goneAt = f := ⟨_, rfl⟩
  obtain ⟨fail, hfail⟩ : ∃ f, refetchFail = f := ⟨_, rfl⟩
  obtain ⟨read, hread⟩ : ∃ f, Machine.streamRead = f := ⟨_, rfl⟩
  have hkeep {l : Loc} {a n : Nat} {bs : List Byte} {v : State} (hr : read s l a n = (bs, v)) : v.Inv := by
    have := h.streamRead l a n
    rwa [hread, hr] at this
  rw [hgone, hfail, hread]
  split
  · exact next_sound h.pass
  · split
    · exact next_sound h.pass
    · split
      · exact next_sound h.pass
      · extract_lets l n
        split
        · exact next_sound (h.takeTrap _).pass
        · exact fault_sound _
        · split
          next hr => exact next_sound ((hkeep hr).refetched ..).pass

theorem State.Inv.pushBlock {s : State} (h : s.Inv) (b : WBlock) (t : List (Nat × WBlock)) : (pushBlock b t s).Inv :=
  (h.updSd _).upd ((Core.Keeps.refl _).matrixFields ..)

theorem execBlockPush_sound {s : State} (h : s.Inv) : Sound (execBlockPush s) := by
  unfold Machine.execBlockPush
  split
  · exact next_sound h.pass
  split
  · exact next_sound h.pass
  split
  · exact next_sound (h.pushBlock _ _).pass
  · exact next_sound h.pass

/-! ### The invariant, operation by operation: command lists -/

theorem listEntry_sound {s : State} {f : HostQueue → State} (h : s.Inv) (tn : Fin 16) (q : Fin 8)
    (hf : ∀ x, (f x).Inv) : Sound (listEntry tn q s f) := by
  unfold listEntry
  dsimp only
  split
  · exact next_sound (hf _).pass
  · exact next_sound h.pass

theorem execListWait_sound {s : State} (h : s.Inv) (tn : Fin 16) (q : Fin 8) (_w : Bool) (ev : BitVec 16)
    (clr : Bool) : Sound (execListWait tn q _w ev clr s) := by
  unfold Machine.execListWait
  dsimp only
  refine listEntry_sound h _ _ fun x => ?_
  split
  · split
    · exact (h.modQueue ..).modTenant _ _
    · exact h.modQueue ..
  · exact h.modQueue ..

theorem State.Inv.signalIf {s : State} (h : s.Inv) (tn : Fin 16) (ev : BitVec 16) : (s.signalIf tn ev).Inv := by
  unfold State.signalIf
  split
  · exact h
  · exact h.signal _ _

theorem execListSignal_sound {s : State} (h : s.Inv) (tn : Fin 16) (q : Fin 8) (_w : Bool) (ev : BitVec 16)
    (addr addend : DWord) : Sound (execListSignal tn q _w ev addr addend s) := by
  unfold Machine.execListSignal
  dsimp only
  refine listEntry_sound h _ _ fun x => ?_
  split
  · exact (h.signalIf _ _).modQueue ..
  split
  · exact h.queueError ..
  · exact ((h.writeAt ..).signalIf _ _).modQueue ..

end Sys2Proof.Machine

namespace Sys2Proof.Machine

theorem execListSkipif_sound {s : State} (h : s.Inv) (tn : Fin 16) (q : Fin 8) (_w : Bool) (n : BitVec 16)
    (addr : DWord) : Sound (execListSkipif tn q _w n addr s) := by
  unfold Machine.execListSkipif
  dsimp only
  refine listEntry_sound h _ _ fun x => ?_
  split
  · exact h.queueError ..
  · exact h.modQueue ..

theorem execListJump_sound {s : State} (h : s.Inv) (tn : Fin 16) (q : Fin 8) (_w : Bool) (target : DWord) :
    Sound (execListJump tn q _w target s) := by
  unfold Machine.execListJump
  refine listEntry_sound h _ _ fun x => ?_
  split
  · exact h.queueError ..
  · exact h.modQueue ..

theorem execListCall_sound {s : State} (h : s.Inv) (tn : Fin 16) (q : Fin 8) (_w : Bool) (target : DWord) :
    Sound (execListCall tn q _w target s) := by
  unfold Machine.execListCall
  dsimp only
  refine listEntry_sound h _ _ fun x => ?_
  split
  · exact h.queueError ..
  · exact h.modQueue ..

theorem execListReturn_sound {s : State} (h : s.Inv) (tn : Fin 16) (q : Fin 8) (_w : Bool) :
    Sound (execListReturn tn q _w s) := by
  unfold Machine.execListReturn
  refine listEntry_sound h _ _ fun x => ?_
  split
  · exact h.queueError ..
  · exact h.modQueue ..

theorem execListFence_sound {s : State} (h : s.Inv) (tn : Fin 16) (q : Fin 8) (_w : Bool) :
    Sound (execListFence tn q _w s) := by
  unfold Machine.execListFence
  refine listEntry_sound h _ _ fun x => ?_
  split
  · exact h.modQueue ..
  · exact h

theorem execListEnd_sound {s : State} (h : s.Inv) (tn : Fin 16) (q : Fin 8) (_w : Bool) :
    Sound (execListEnd tn q _w s) :=
  listEntry_sound h _ _ (fun _ => h.modQueue ..)

theorem execLaunch_sound {s : State} (h : s.Inv) (tn : Fin 16) (q : Fin 8) (seq : BitVec 32) (w : Bool)
    (f : LaunchFields) :
    Sound (execLaunch tn q seq w f s) := by
  unfold Machine.execLaunch
  dsimp only
  refine listEntry_sound h _ _ fun x => ?_
  split
  · refine (h.modQueue ..).setSys ?_ ..
    refine .of_tasks (fun _ => rfl) rfl rfl fun m t ht => ?_
    rcases List.mem_append.mp ht with ht | ht
    · exact m.saved ht
    · rw [List.mem_singleton.mp ht]
      rfl
  · exact h.queueError ..

/-! ### The invariant, operation by operation: copy words -/

theorem State.Inv.touchRange {s : State} (h : s.Inv) (x : Entry) (l : Loc) (rs : List (Nat × Nat)) :
    (s.touchRange x l rs).Inv := by
  unfold State.touchRange
  split
  · exact h.setIrrev
  · exact h

theorem copyRowChecks_sound {s : State} (h : s.Inv) (i : Instr) (x : Entry) (src dst : List (Nat × Nat)) :
    CheckSound (copyRowChecks i x src dst s) :=
  or_sound (accessFail_sound h ..) (or_sound (watchFail_sound h ..) (consumeError_sound h _ _))

theorem State.Inv.holdCopy {s : State} (h : s.Inv) (p : Fin 8) (x : Entry) (rows : List (Nat × List Byte)) :
    (holdCopy p x rows s).Inv := by
  unfold Machine.holdCopy
  dsimp only
  exact (h.mendAll _ _).upd ((Core.Keeps.refl _).fields ..)

theorem holdRow_sound {s : State} (h : s.Inv) (p : Fin 8) (x : Entry) (n dst : Nat) (bs : List Byte) :
    (holdRow p x n dst bs s).Sound := by
  unfold Machine.holdRow
  dsimp only
  split
  · exact h
  · exact h.holdCopy ..

theorem execCopy_sound {s : State} (h : s.Inv) (tk : Tok) (d st : Fin 16) : Sound (execCopy tk d st s) := by
  unfold Machine.execCopy
  dsimp only
  refine engWord_sound h _ _ _ (fun x u hu => ?_)
  refine orElse_sound (illegalIf_sound hu ..) ?_
  refine orElse_sound (illegalIf_sound hu ..) ?_
  split
  · exact trivial
  refine orElse_sound (checkMap_sound (copyRowChecks_sound hu ..) (fun x1 h1 => atProgress_sound h1 _)) ?_
  split
  · exact holdRow_sound hu ..
  · split <;> exact (hu.touchRange ..).writeRange ..

theorem State.Inv.popRow {s : State} (h : s.Inv) (x : Entry) (e : LaneEntry) : (popRow x e s).Inv := by
  unfold Machine.popRow
  split
  · exact h
  · exact (h.readsIf _).updQ _

theorem rowKept_sound {r : ERes} (h : r.Sound) (x : Entry) (e : LaneEntry) : (rowKept x e r).Sound := by
  cases r with
  | trap t s =>
    show (if x.started then ERes.trapAt t (popRow x e s) { x with index := some e } else .trap t s).Sound
    split
    · exact State.Inv.popRow h x e
    · exact h
  | wait | fault => trivial
  | waitWith | trapIn | raw | issue | part | trapAt => exact h

theorem execSqst_sound {s : State} (h : s.Inv) (tk : Tok) (d : Fin 16) : Sound (execSqst tk d s) := by
  unfold Machine.execSqst
  dsimp only
  refine engWord_sound h _ _ _ (fun x u hu => ?_)
  split
  · exact trivial
  refine orElse_sound (illegalIf_sound hu ..) ?_
  refine orElse_sound (checkMap_sound (copyRowChecks_sound hu ..) (fun x1 h1 => rowKept_sound h1 _ _)) ?_
  split
  · split
    · exact ((((hu.touchRange ..).popRow _ _).foldl _ _ (fun u1 x1 => fun h1 h2 => h2.writeRange ..)).putHead _
        _).silentError _
    · exact ((((hu.touchRange ..).popRow _ _).foldl _ _ (fun u1 x1 => fun h1 h2 => h2.writeRange ..)).stayWord
        ..).silentError _
  · split <;> exact ((hu.touchRange ..).popRow _ _).foldl _ _ (fun u1 x1 => fun h1 h2 => h2.writeRange ..)

theorem State.Inv.launchFlight {s : State} (h : s.Inv) (peer : Nat) (back : Bool) (slot : Fin 64) (f : BitVec 4)
    (bs : List Byte) : (launchFlight peer back slot f bs s).Inv := by
  unfold Machine.launchFlight
  dsimp only
  exact ((h.pick _).modCoreKeeps _ (fun c => (Core.Keeps.refl _).fields ..)).setIrrev.upd
    ((Core.Keeps.refl _).fields ..)

theorem execXsend_sound {s : State} (h : s.Inv) (tk : Tok) (st : Fin 16) (nb : Bool) (slot : Fin 64)
    (off : BitVec 23) : Sound (execXsend tk st nb slot off s) := by
  unfold Machine.execXsend
  dsimp only
  refine engWord_sound h _ _ _ (fun x u hu => ?_)
  refine orElse_sound (hookTrap_sound hu _ _) ?_
  split
  · exact trivial
  refine orElse_sound (illegalIf_sound hu ..) ?_
  split
  · exact hu
  · exact orElse_sound (readChecks_sound hu ..) (hu.launchFlight ..)

theorem Core.Keeps.pushRecord {b c : Core} (h : b.Keeps c) (r : Record) : b.Keeps (c.pushRecord r) := h.fields ..

theorem Core.Keeps.endRemote {b c : Core} (h : b.Keeps c) (r : Remote) (status reason : Nat) :
    b.Keeps (c.endRemote r status reason) :=
  (h.fields ..).pushRecord _

theorem State.Inv.pickPort {s : State} (h : s.Inv) (p : BitVec 13) : (s.pickPort p).2.Inv := by
  unfold State.pickPort
  dsimp only
  split
  · dsimp only
    exact h
  dsimp only
  exact h.pick _

theorem State.Inv.postRemote {s : State} (h : s.Inv) (op : RemoteOp) (p : BitVec 13) (tag : BitVec 16) (len : Nat)
    (red : Reduce) (st : StReg) (v : Vis) : (postRemote op p tag len red st v s).Inv := by
  unfold Machine.postRemote
  dsimp only
  exact (h.pickPort _).setIrrev.upd ((Core.Keeps.refl _).fields ..)

theorem Core.Keeps.meet {b c : Core} (h : b.Keeps c) (r : Remote) (len : Nat) : b.Keeps (c.meet r len) := by
  unfold Core.meet
  dsimp only
  split
  · exact h.endRemote ..
  · exact h.fields ..

theorem Core.Keeps.meetArrived {b c : Core} (h : b.Keeps c) (p : BitVec 13) (tag : BitVec 16) :
    b.Keeps (c.meetArrived p tag) := by
  unfold Core.meetArrived
  dsimp only
  split
  · exact h
  split
  · exact h
  · exact (h.fields ..).meet _ _

theorem peerFail_sound {s : State} (h : s.Inv) (x : Entry) (p : BitVec 13) : CheckSound (peerFail s x p) := by
  unfold Machine.peerFail
  split
  · exact none_sound
  · exact some_sound h

theorem sendChecks_sound {s : State} (h : s.Inv) (i : Instr) (x : Entry) (rs : List (Nat × Nat)) :
    CheckSound (sendChecks i x rs s) :=
  or_sound (accessFail_sound h ..) (watchFail_sound h ..)

theorem execRsend_sound {s : State} (h : s.Inv) (tk : Tok) (st : Fin 16) (peer : BitVec 13) (tag : BitVec 16) :
    Sound (execRsend tk st peer tag s) := by
  unfold Machine.execRsend
  dsimp only
  exact engWord_sound h _ _ _
    (fun x u h1 => orElse_sound (hookTrap_sound h1 _ _)
    (orElse_sound (illegalIf_sound h1 ..)
    (orElse_sound (sendChecks_sound h1 ..) (orElse_sound (peerFail_sound h1 _ _) (h1.postRemote ..)))))

theorem execRrecv_sound {s : State} (h : s.Inv) (tk : Tok) (d : Fin 16) (red : Reduce) (peer : BitVec 13)
    (tag : BitVec 16) : Sound (execRrecv tk d red peer tag s) := by
  unfold Machine.execRrecv
  dsimp only
  exact engWord_sound h _ _ _
    (fun x u h1 => orElse_sound (hookTrap_sound h1 _ _)
    (orElse_sound (illegalIf_sound h1 ..)
    (orElse_sound (illegalIf_sound h1 ..)
    (orElse_sound (accessFail_sound h1 ..)
    (orElse_sound (watchFail_sound h1 ..)
    (orElse_sound (peerFail_sound h1 _ _) ((h1.postRemote ..).upd ((Core.Keeps.refl _).meetArrived _ _))))))))

theorem execRfence_sound {s : State} (h : s.Inv) (tk : Tok) : Sound (execRfence tk s) := by
  unfold Machine.execRfence
  refine engWord_sound h _ _ _ (fun x u hu => ?_)
  split
  · exact hu
  · exact trivial

theorem State.Inv.addScaled {s : State} (h : s.Inv) (l : Loc) (sc : BitVec 8) (v : Lanes) (ls : List (Nat × Nat)) :
    (addScaled l sc v ls s).Inv := by
  unfold Machine.addScaled
  dsimp only
  refine h.foldl _ _ ?_
  intro u x hx hx
  split
  · exact hx.writeAt ..
  · exact hx

theorem State.Inv.joinBatch {s : State} (h : s.Inv) (rs : List (Nat × AtomReq)) (fin : Bool) :
    (joinBatch rs fin s).Inv :=
  h.upd ((Core.Keeps.refl _).fields ..)

theorem State.Inv.takeBuffer {s : State} (h : s.Inv) (b : SortBuf) : (takeBuffer b s).Inv := by
  unfold Machine.takeBuffer
  dsimp only
  split
  · exact h
  · exact h.setSys ((Sys.Keeps.refl _).fields ..) ..

theorem State.Inv.takeBuffers {s : State} (h : s.Inv) (l : Loc) (as : List Nat) : (takeBuffers l as s).Inv :=
  h.foldl _ _ (fun _ _ => fun _ h2 => h2.takeBuffer _)

theorem execAtomv_sound {s : State} (h : s.Inv) (tk : Tok) (st : Fin 16) (iq : Fin 4) (fn : AtomV) (fin : Bool) :
    Sound (execAtomv tk st iq fn fin s) := by
  unfold Machine.execAtomv
  dsimp only
  refine engWord_sound h _ _ _ (fun x u hu => ?_)
  split
  · refine orElse_sound (hookTrap_sound hu _ _) ?_
    refine orElse_sound (illegalIf_sound hu ..) ?_
    refine orElse_sound (illegalIf_sound hu ..) ?_
    refine orElse_sound ?_ ?_
    · split
      · exact some_sound hu
      · exact none_sound
    refine orElse_sound (accessFail_sound hu ..) ?_
    refine orElse_sound (watchFail_sound hu ..) ?_
    refine orElse_sound ?_ ?_
    · split
      · exact none_sound
      · exact consumeError_sound hu _ _
    split
    · split
      · exact ((((hu.popVq _).readsIf _).setIrrev.updQ _).takeBuffers _ _).joinBatch _ _
      · exact (((hu.popVq _).readsIf _).setIrrev.updQ _).joinBatch _ _
    · exact (((hu.popVq _).readsIf _).setIrrev.updQ _).addScaled ..
  · exact trivial

theorem execSnop_sound {s : State} (h : s.Inv) (tk : Tok) : Sound (execSnop tk s) :=
  engWord_sound h _ _ _ (fun _ _ h1 => h1)

/-! ### The invariant, operation by operation: remote words, batches and ports -/

theorem execCqRecord_sound {s : State} (h : s.Inv) : Sound (execCqRecord s) := by
  unfold Machine.execCqRecord
  split
  · exact next_sound h.pass
  split
  · exact next_sound (h.updQ _).pass
  · exact next_sound h.pass

theorem execRemoteMatch_sound {s : State} (h : s.Inv) (peer : BitVec 13) (tag : BitVec 16) (len : Nat) :
    Sound (execRemoteMatch peer tag len s) := by
  unfold Machine.execRemoteMatch
  dsimp only
  refine next_sound (h.upd ?_).pass
  split
  · exact (Core.Keeps.refl _).fields ..
  · exact (Core.Keeps.refl _).meet _ _

theorem State.Inv.writeRows {s : State} (h : s.Inv) (l : Loc) (st : StReg) (bs : List Byte) :
    (writeRows s l st bs).Inv :=
  State.Inv.foldlPair (p := (s, bs)) h _ _ fun _ _ hq => hq.writeRange ..

theorem State.Inv.deliverRecv {s : State} (h : s.Inv) (r : Remote) (data : List Byte) : (deliverRecv r data s).Inv :=
  h.writeRows ..

theorem State.Inv.modPort {s : State} (h : s.Inv) (p : Fin 32) (f : Port → Port) : (s.modPort p f).Inv :=
  h.setSys ((Sys.Keeps.refl _).fields ..) ..

theorem State.Inv.partRecv {s : State} (h : s.Inv) (r : Remote) : (partRecv r s).Inv := by
  unfold Machine.partRecv
  dsimp only
  split
  · exact (h.pick _).writeRows ..
  · exact h

theorem State.Inv.dropRemote {s : State} (h : s.Inv) (r : Remote) (status reason : Nat) :
    (s.dropRemote r status reason).Inv :=
  (h.partRecv _).upd ((Core.Keeps.refl _).endRemote ..)

theorem State.Inv.dropFlits {s : State} (h : s.Inv) (r : Remote) : (dropFlits r s).Inv := by
  unfold Machine.dropFlits
  split
  · exact h.modPort _ _
  · exact h

theorem State.Inv.takeData {s : State} (h : s.Inv) (r : Remote) : (takeData r s).Inv := by
  unfold Machine.takeData
  split
  · exact h.modPort _ _
  · exact h

theorem State.Inv.endSend {s : State} (h : s.Inv) (r : Remote) (len : Nat) : (endSend r len s).Inv := by
  unfold Machine.endSend
  split
  · exact h.upd ((Core.Keeps.refl _).endRemote ..)
  split
  · exact h.upd ((Core.Keeps.refl _).endRemote ..)
  · exact h

theorem State.Inv.endRecv {s : State} (h : s.Inv) (r : Remote) (data : List Byte) : (endRecv r data s).Inv := by
  unfold Machine.endRecv
  split
  · exact h
  split
  · exact h.silentError _
  · exact ((h.takeData _).deliverRecv _ _).upd ((Core.Keeps.refl _).endRemote ..)

theorem execRemoteEnd_sound {s : State} (h : s.Inv) (op : RemoteOp) (peer : BitVec 13) (tag : BitVec 16) (len : Nat)
    (data : List Byte) : Sound (execRemoteEnd op peer tag len data s) := by
  unfold Machine.execRemoteEnd
  dsimp only
  split
  · split
    · exact next_sound ((h.takeData _).upd ((Core.Keeps.refl _).fields ..)).pass
    · exact next_sound (h.upd ((Core.Keeps.refl _).fields ..)).pass
  · exact next_sound h.pass
  split
  · exact next_sound (h.endSend _ _).pass
  split
  · exact next_sound (h.endRecv _ _).pass
  · exact next_sound h.pass

theorem State.Inv.leaveGone {s : State} (h : s.Inv) (r : Remote) : (leaveGone r s).Inv := by
  unfold Machine.leaveGone
  dsimp only
  split
  · split
    · split
      · exact (h.pick _).dropFlits _
      · exact h.pick _
    · exact (h.pick _).upd ((Core.Keeps.refl _).fields ..)
  · exact h

theorem State.Inv.withdraw {s : State} (h : s.Inv) (peer : BitVec 13) (tag : BitVec 16) (k : Nat) :
    (withdraw peer tag k s).Inv := by
  unfold Machine.withdraw
  dsimp only
  split
  · exact h.upd ((Core.Keeps.refl _).fields ..)
  · exact h

theorem execRemoteTimeout_sound {s : State} (h : s.Inv) : Sound (execRemoteTimeout s) := by
  unfold Machine.execRemoteTimeout
  split
  · exact next_sound h.pass
  · exact next_sound ((h.dropRemote ..).leaveGone _).pass

theorem State.Inv.dropWhere {s : State} (h : s.Inv) (test : Remote → Bool) (status reason : Nat) :
    (s.dropWhere test status reason).Inv := by
  unfold State.dropWhere
  dsimp only
  refine h.foldl _ _ ?_
  intro u x hx hx
  split
  · exact (hx.dropRemote ..).dropFlits _
  · exact hx.dropRemote ..

theorem execRoundAbandon_sound {s : State} (h : s.Inv) (peer : BitVec 13) (tag : BitVec 16) :
    Sound (execRoundAbandon peer tag s) := by
  unfold Machine.execRoundAbandon
  dsimp only
  split
  · refine next_sound (h.foldl _ _ ?_).pass
    intro u x hx hx
    refine hx.asCore _ _ ?_
    intro u hx
    split
    · exact hx.dropWhere ..
    · exact hx
  · exact next_sound h.pass

theorem State.Inv.applyElem {s : State} (h : s.Inv) (l : List Req) (e : Space × Nat) : (applyElem l s e).Inv :=
  h.writeAt ..

theorem Core.Keeps.endBatch {b c : Core} (h : b.Keeps c) (reason : Nat) : b.Keeps (c.endBatch reason) := by
  unfold Core.endBatch
  dsimp only
  split
  · exact h.fields ..
  · exact (h.fields ..).pushRecord _

theorem State.Inv.freeBuffers {s : State} (h : s.Inv) (g : BitVec 16) : (freeBuffers g s).Inv :=
  h.setSys ((Sys.Keeps.refl _).fields ..) ..

theorem State.Inv.endSaved {s : State} (h : s.Inv) (reason : Nat) : (endSaved reason s).Inv := by
  unfold Machine.endSaved
  split
  · exact h
  · refine h.modTask _ fun t _ ht => List.all_eq_true.mpr fun c hc => ?_
    obtain ⟨d, hd, rfl⟩ := List.mem_map.mp hc
    have hm := List.all_eq_true.mp ht d hd
    split
    · exact hm
    · exact ((Core.Keeps.refl d).endBatch reason).mem hm

theorem execBatchClose_sound {s : State} (h : s.Inv) : Sound (execBatchClose s) := by
  unfold Machine.execBatchClose
  dsimp only
  split
  · exact next_sound h.pass
  split
  · exact next_sound (h.asCore _ _ (fun u h1 => h1.silentError _)).pass
  split
  · split
    · exact next_sound ((((h.foldl _ _ (fun u x => fun h1 h2 => h2.applyElem _ _)).freeBuffers _).onGang _
        (fun u => ((Core.Keeps.refl _).endBatch _).upd_core) (fun u => rfl)).endSaved _).pass
    · exact next_sound (((h.freeBuffers _).onGang _ (fun u => ((Core.Keeps.refl _).endBatch _).upd_core)
        (fun u => rfl)).endSaved _).pass
  split
  · split
    · exact next_sound ((((h.foldl _ _ (fun u x => fun h1 h2 => h2.applyElem _ _)).freeBuffers _).onGang _
        (fun u => ((Core.Keeps.refl _).endBatch _).upd_core) (fun u => rfl)).endSaved _).pass
    · exact next_sound (((h.freeBuffers _).onGang _ (fun u => ((Core.Keeps.refl _).endBatch _).upd_core)
        (fun u => rfl)).endSaved _).pass
  split
  · exact next_sound ((((h.foldl _ _ (fun u x => fun h1 h2 => h2.applyElem _ _)).freeBuffers _).onGang _
      (fun u => ((Core.Keeps.refl _).endBatch _).upd_core) (fun u => rfl)).endSaved _).pass
  · exact next_sound (((h.freeBuffers _).onGang _ (fun u => ((Core.Keeps.refl _).endBatch _).upd_core)
      (fun u => rfl)).endSaved _).pass

theorem execDataFlit_sound {s : State} (h : s.Inv) (port : Fin 32) (b : List Byte) : Sound (execDataFlit port b s) :=
  next_sound (h.modPort _ _).pass

theorem execIdleFlit_sound {s : State} (h : s.Inv) (port : Fin 32) (b : List Byte) : Sound (execIdleFlit port b s) :=
  next_sound (h.modPort _ _).pass

theorem execRetryRequest_sound {s : State} (h : s.Inv) (port : Fin 32) (b : List Byte) :
    Sound (execRetryRequest port b s) :=
  next_sound (h.modPort _ _).pass

theorem State.Inv.sendFlit {s : State} (h : s.Inv) : (sendFlit s).Inv := by
  unfold Machine.sendFlit
  dsimp only
  split
  · exact h
  split
  · exact h
  split
  · exact h.silentError _
  · exact (h.modPort _ _).upd ((Core.Keeps.refl _).fields ..)

theorem State.Inv.portLost {s : State} (h : s.Inv) (port : Fin 32) : (s.portLost port).Inv := h.dropWhere ..

theorem execPortDown_sound {s : State} (h : s.Inv) (port : Fin 32) : Sound (execPortDown port s) := by
  unfold Machine.execPortDown
  dsimp only
  split
  · exact next_sound h.pass
  · exact next_sound (((h.modPort _ _).foldl _ _
      (fun u x => fun h1 h2 => h2.asCore _ _ (fun u1 h3 => h3.portLost _))).note _).pass

/-! ### The invariant, operation by operation: the save area -/

theorem State.Inv.saveRegion {s : State} (h : s.Inv) (a size : Nat) (bs : List Byte) : (s.saveRegion a size bs).Inv :=
  h.writeAt ..

theorem State.Inv.savePieces {s : State} (h : s.Inv) (a : Nat) (l : List (Nat × Nat)) (bs : List Byte) :
    (savePieces a l bs s).Inv := by
  induction l generalizing s bs with
  | nil => exact h
  | cons p l ih => exact ih (h.saveRegion ..) _

theorem State.Inv.saveHold {s : State} (h : s.Inv) (a : Nat) (c : Core) : (saveHold a c s).Inv :=
  h.foldl _ _ (fun _ _ => fun _ h2 => h2.savePieces ..)

theorem State.Inv.saveSlots {s : State} (h : s.Inv) (a : Nat) (c : Core) : (saveSlots a c s).Inv := by
  unfold Machine.saveSlots
  refine h.foldl _ _ ?_
  intro u x hx hx
  split
  · exact hx.saveRegion ..
  · exact hx

theorem State.Inv.writeSave {s : State} (h : s.Inv) (t : Task) : (writeSave t s).Inv :=
  ((((((((h.saveRegion ..).saveRegion ..).saveRegion ..).saveRegion ..).saveRegion ..).saveSlots _ _).saveHold _
    _).saveRegion ..).blitAt ..

/-! ### The invariant, operation by operation: traps and returns -/

theorem execTrap_sound {s : State} (h : s.Inv) (imm : BitVec 16) : Sound (execTrap imm s) := by
  unfold Machine.execTrap
  dsimp only
  refine ctlWord_sound h _ ?_
  split
  · exact trivial
  · exact h

theorem execBrk_sound {s : State} (h : s.Inv) : Sound (execBrk s) := ctlWord_sound h _ h

theorem execNop_sound {s : State} (h : s.Inv) (_x : BitVec 23) : Sound (execNop _x s) := ctlWord_sound h _ h

theorem Core.Keeps.exempt {b c : Core} (h : b.Keeps c) : b.Keeps c.exempt := by
  unfold Core.exempt
  dsimp only
  split
  · exact h
  split
  · exact (h.fields ..).setEng _ _
  · exact h.fields ..

theorem Core.Keeps.toBank0 {b c : Core} (h : b.Keeps c) : b.Keeps c.toBank0 := h.fields ..

theorem State.Inv.arriveRft {s : State} (h : s.Inv) : (arriveRft s).Inv := by
  unfold Machine.arriveRft
  split
  · exact h.doubleFault _ _
  · exact h.updCtl _

theorem Core.Keeps.releaseRft {b c : Core} (h : b.Keeps c) (v : Nat) (delayed : Bool) :
    b.Keeps (Core.releaseRft v delayed c) := by
  unfold Core.releaseRft
  dsimp only
  split
  · exact h.fields ..
  · exact h

theorem Core.Keeps.leaveRft {b c : Core} (h : b.Keeps c) (v : Nat) : b.Keeps (Core.leaveRft v c) :=
  (h.fields ..).exempt.toBank0.fields ..

theorem State.Inv.releaseRfts {s : State} (h : s.Inv) : (releaseRfts s).Inv := by
  unfold Machine.releaseRfts
  dsimp only
  exact h.onGang _ (fun u => ((Core.Keeps.refl _).releaseRft _ _).upd_core) (fun u => rfl)

theorem execRft_sound {s : State} (h : s.Inv) : Sound (execRft s) := by
  unfold Machine.execRft
  dsimp only
  split
  · exact next_sound (h.takeTrap _).pass
  split
  · exact next_sound (h.upd ((Core.Keeps.refl _).leaveRft _)).pass
  split
  · exact next_sound (h.doubleFault _ _).pass
  split
  · exact next_sound (h.upd ((Core.Keeps.refl _).toBank0.fields ..)).pass
  split
  · split
    · exact next_sound (h.releaseRfts.upd ((Core.Keeps.refl _).leaveRft _)).pass
    · exact next_sound h.ticked
  split
  · exact next_sound ((h.updCtl _).releaseRfts.upd ((Core.Keeps.refl _).leaveRft _)).pass
  · exact next_sound ((h.updCtl _).ticked)

theorem execValueLanded_sound {s : State} (h : s.Inv) : Sound (execValueLanded s) :=
  next_sound ((h.updCtl _).upd ((Core.Keeps.refl _).tickOn)).pass

theorem execTrapEntry_sound {s : State} (h : s.Inv) : Sound (execTrapEntry s) := by
  unfold Machine.execTrapEntry
  split
  · exact next_sound h.pass
  · exact next_sound ((h.updCtl _).takeTrap _).pass

theorem execCompanionStop_sound {s : State} (h : s.Inv) : Sound (execCompanionStop s) := by
  unfold Machine.execCompanionStop
  split
  · exact next_sound h.pass
  · exact next_sound ((h.updStall _).takeTrap _).pass

theorem execBreakRequest_sound {s : State} (h : s.Inv) : Sound (execBreakRequest s) :=
  next_sound ((h.updCtl _).takeTrap _).pass

end Sys2Proof.Machine

namespace Sys2Proof.Machine

theorem execIllegalWord_sound {s : State} (h : s.Inv) (e : Option Engine) (w : Word) (reason : BitVec 8) :
    Sound (execIllegalWord e w reason s) := by
  unfold Machine.execIllegalWord
  dsimp only
  split <;> exact next_sound (h.takeTrap _).pass

theorem execFetchFault_sound {s : State} (h : s.Inv) (addr : VAddr) : Sound (execFetchFault addr s) :=
  next_sound (h.takeTrap _).pass

/-! ### The invariant, operation by operation: retirement -/

theorem State.Inv.retireWork {s : State} (h : s.Inv) : (retireWork s).Inv := by
  have hr : ((List.finRange 8).foldl State.releaseHeld s).Inv := h.foldl _ _ fun _ p _ hu => hu.releaseHeld p
  unfold Machine.retireWork
  generalize (List.finRange 8).foldl State.releaseHeld s = u at hr
  dsimp only
  split
  · exact hr.upd ((Core.Keeps.refl _).fields ..)
  · exact ((hr.modJig ..).upd ((Core.Keeps.refl _).fields ..)).upd ((Core.Keeps.refl _).fields ..)

theorem State.Inv.leaveWork {s : State} (h : s.Inv) : (leaveWork s).Inv :=
  (h.upd ((Core.Keeps.refl _).tickOn)).updCtl _

theorem State.Inv.leaveGang {s : State} (h : s.Inv) : (leaveGang s).Inv := h.leaveWork.checkMismatch

theorem Core.Keeps.saveStream {b c : Core} (h : b.Keeps c) : b.Keeps c.saveStream := by
  unfold Core.saveStream
  dsimp only
  split
  · exact h
  · exact h.matrixFields ..

theorem Core.Keeps.saveForm {b c : Core} (h : b.Keeps c) : b.Keeps c.saveForm := by
  unfold Core.saveForm
  dsimp only
  split <;> exact (h.saveStream.foldl _ _ (fun d x => (Core.Keeps.refl _).setEng _ _)).fields ..

theorem State.Inv.saveCore {s : State} (h : s.Inv) : (saveCore s).Inv := by
  have hu : ((s.dropWhere (fun _ => true) 2 3).upd Core.saveForm).Inv := (h.dropWhere ..).upd
    (Core.Keeps.refl _).saveForm
  unfold Machine.saveCore
  extract_lets u v
  split
  · exact hu
  · refine (hu.writeSave _).modTask _ fun t _ ht => ?_
    simp only [List.all_append, ht, List.all_cons, List.all_nil, Bool.true_and, Bool.and_true]
    exact hu.mem_core

theorem execRetire_sound {s : State} (h : s.Inv) : Sound (execRetire s) := by
  unfold Machine.execRetire
  refine ctlWord_sound h _ ?_
  split
  · split
    · exact h
    split
    · exact h.leaveGang
    split
    · exact h.saveCore.leaveWork
    · exact h
  split
  · exact h
  split
  · exact h.silentError _
  · exact h.logRetried.retireWork.leaveGang

/-! ### The invariant, operation by operation: gang timing -/

theorem execGangStall_sound {s : State} (h : s.Inv) : Sound (execGangStall s) := by
  unfold Machine.execGangStall
  dsimp only
  split
  · exact next_sound (h.upd ((Core.Keeps.refl _).fields ..)).pass
  · exact next_sound h.pass

theorem Core.Keeps.leaveStall (u : State) (slip : BitVec 32) : u.core.Keeps (leaveStall slip u).core := by
  unfold Machine.leaveStall
  refine Core.Keeps.upd_core ?_
  dsimp only
  split
  · exact ((Core.Keeps.refl _).release _).fields ..
  · exact (Core.Keeps.refl _).fields ..

theorem State.Inv.leaveStall {s : State} (h : s.Inv) (slip : BitVec 32) : (leaveStall slip s).Inv :=
  h.setCore (.leaveStall s slip) ..

theorem execStallResume_sound {s : State} (h : s.Inv) : Sound (execStallResume s) := by
  unfold Machine.execStallResume
  split
  · exact next_sound (h.onGang _ (fun u => Core.Keeps.updStall_core _) (fun u => rfl)).pass
  split
  · split
    · refine next_sound (h.onGang _ ?_ (fun u => rfl)).pass
      intro u
      exact .leaveStall u _
    · exact next_sound h.pass
  · exact next_sound h.pass

theorem execSlipLimit_sound {s : State} (h : s.Inv) : Sound (execSlipLimit s) := by
  unfold Machine.execSlipLimit
  split
  · exact next_sound (h.takeTrap _).pass
  · exact next_sound h.pass

theorem execDeadStop_sound {s : State} (h : s.Inv) : Sound (execDeadStop s) := by
  unfold Machine.execDeadStop
  split
  · exact next_sound (h.takeTrap _).pass
  · exact next_sound h.pass

theorem State.Inv.landFlight {s : State} (h : s.Inv) (f : Flight) : (landFlight f s).Inv := by
  unfold Machine.landFlight
  dsimp only
  split
  · exact (h.upd ((Core.Keeps.refl _).fields ..)).upd ((Core.Keeps.refl _).fields ..)
  · exact (h.upd ((Core.Keeps.refl _).fields ..)).takeTrap _

theorem execSlotLanding_sound {s : State} (h : s.Inv) : Sound (execSlotLanding s) := by
  unfold Machine.execSlotLanding
  split
  · exact next_sound h.pass
  split
  · exact next_sound (h.landFlight _).pass
  · exact next_sound h.pass

theorem execLateLanding_sound {s : State} (h : s.Inv) : Sound (execLateLanding s) := by
  unfold Machine.execLateLanding
  split
  · exact next_sound h.pass
  split
  · exact next_sound (h.takeTrap _).pass
  · exact next_sound ((h.beginDelay _).updStall _).pass

theorem Core.Keeps.restoreSnap {b c : Core} (h : b.Keeps c) (x : PhSnap) : b.Keeps (Core.restoreSnap x c) :=
  h.matrixFields ..

theorem State.Inv.refetchHalf {s : State} (h : s.Inv) (r : Nat × Nat × Nat) : (refetchHalf s r).Inv := h.writeRange ..

theorem Core.Keeps.startRetry {b c : Core} (h : b.Keeps c) : b.Keeps c.startRetry := h.fields ..

theorem Core.Keeps.discard {b c : Core} (h : b.Keeps c) : b.Keeps c.discard := by
  have hr := h.foldl [Engine.load, .matrix, .vector, .copy, .stream] _ fun d e => (Core.Keeps.refl d).retireAll e
  unfold Core.discard
  generalize List.foldl Core.retireAll c _ = d at hr
  have hq := hr.foldl [Engine.load, .matrix, .vector, .copy, .stream]
    (fun c e => c.setEng e fun g => { g with queue := [], issued := [] }) fun d e => (Core.Keeps.refl d).setEng e _
  dsimp only
  generalize List.foldl (fun c e => Core.setEng c e _) d _ = e at hq
  exact hq.matrixFields ..

theorem execPhaseResume_sound {s : State} (h : s.Inv) : Sound (execPhaseResume s) := by
  unfold Machine.execPhaseResume
  dsimp only
  split
  · exact next_sound h.pass
  split
  · exact next_sound h.pass
  split
  · refine next_sound ((h.upd ?_).takeTrap _).pass
    exact ((Core.Keeps.refl _).discard.restoreSnap _).startRetry
  · exact fault_sound _
  split
  · refine next_sound ((h.upd ?_).silentError _).pass
    exact ((Core.Keeps.refl _).discard.restoreSnap _).startRetry
  refine next_sound ((h.upd ?_).foldl _ _ (fun u x => fun h1 h2 => h2.refetchHalf _)).pass
  exact ((Core.Keeps.refl _).discard.restoreSnap _).startRetry

theorem execGangStop_sound {s : State} (h : s.Inv) : Sound (execGangStop s) := by
  unfold Machine.execGangStop
  split
  · exact next_sound ((h.updStall _).takeTrap _).pass
  · exact next_sound h.pass

/-! ### The invariant, operation by operation: tasks and tenants -/

theorem Core.Keeps.cleared {b c : Core} (h : b.Keeps c) : b.Keeps c.cleared :=
  h.trans (.of_mems rfl (fun m => m) (fun m => m) (fun _ => rfl) fun _ => rfl)

theorem State.Inv.modCores {s : State} {f : Core → Core} (h : s.Inv) (t : Task) (hf : ∀ c : Core, c.Keeps (f c)) :
    (s.modCores t f).Inv :=
  h.foldl t.cores _ fun _ k _ hu => hu.modCoreKeeps k.val hf

theorem State.Inv.lockWindows {s : State} (h : s.Inv) (tn : Fin 16) (b : Bool) : (s.lockWindows tn b).Inv := by
  unfold State.lockWindows
  refine h.setSys (.mapDie (.refl _) fun d => ?_) ..
  rfl

theorem State.Inv.unlockWindows {s : State} (h : s.Inv) (tn : Fin 16) (id : Nat) : (s.unlockWindows tn id).Inv := by
  unfold State.unlockWindows
  split
  · exact h
  · exact h.lockWindows _ _

theorem State.Inv.judgeStart {s : State} (h : s.Inv) (t : Task) : (judgeStart t s).Inv := h.modTaskSame _

theorem startBench_wf {m : Mem} (h : m.wf = true) (img : SlotImage) (arg : List Byte) :
    (startBench img arg m).wf = true :=
  Mem.wf_write (Mem.wf_write h _ _) _ _

theorem Core.Keeps.startCore {b c : Core} (h : b.Keeps c) (t : Task) (img : SlotImage) (arg : List Byte)
    (gang : BitVec 16) (n rank : Nat) (late : Bool) : b.Keeps (startCore t img arg gang n rank late c) := by
  unfold Machine.startCore
  refine Core.Keeps.commit ?_ ..
  exact h.trans (.of_mems rfl (fun m => startBench_wf m ..) (fun m => m) (fun _ => rfl) fun _ => rfl)

theorem State.Inv.startCores {s : State} (h : s.Inv) (t : Task) (img : SlotImage) (arg : List Byte) (gang : BitVec 16)
    (n : Nat) (late : Bool) (r : Nat) (l : List (Fin 128)) : (startCores t img arg gang n late r l s).Inv := by
  induction l generalizing s r with
  | nil => exact h
  | cons k l ih => exact ih (h.modCoreKeeps _ fun c => (Core.Keeps.refl c).startCore ..) _

theorem State.Inv.dropMap {s : State} (h : s.Inv) (m : SlotMap) : (dropMap m s).Inv := by
  unfold Machine.dropMap
  dsimp only
  refine (h.foldl _ _ ?_).setSys ((Sys.Keeps.refl _).fields ..) ..
  intro u d _ hu
  exact hu.modDieSame _ _

theorem State.Inv.addMap {s : State} (h : s.Inv) (m : SlotMap) : (addMap m s).Inv := by
  unfold Machine.addMap
  dsimp only
  refine (h.foldl _ _ ?_).setSys ((Sys.Keeps.refl _).fields ..) ..
  intro u x hx hx
  split
  · exact hx.modDieSame _ _
  · exact hx

theorem State.Inv.mapSlot {s : State} (h : s.Inv) (tn : Fin 16) (img : SlotImage) : (mapSlot tn img s).Inv := by
  unfold Machine.mapSlot
  dsimp only
  split
  · split
    · exact h
    · exact ((h.dropMap _).addMap _).modTenant _ _
  · exact (h.addMap _).modTenant _ _

theorem execGangStart_sound {s : State} (h : s.Inv) (task : Nat) : Sound (execGangStart task s) := by
  unfold Machine.execGangStart
  dsimp only
  split
  · exact next_sound h.pass
  split
  · exact next_sound h.pass
  split
  · exact next_sound h.pass
  · exact next_sound (((((((h.mapSlot _ _).startCores ..).modTaskSame _).modQueue ..).modTenant _ _).lockWindows _
      _).setSys ((Sys.Keeps.refl _).fields ..) ..).pass

theorem State.Inv.dropLater {s : State} (h : s.Inv) (t : Task) : (dropLater t s).Inv :=
  h.foldl _ _ (fun u x => fun h1 h2 => (h2.modTaskSame _).modQueue ..)

theorem State.Inv.taskRecord {s : State} (h : s.Inv) (t : Task) (kind : Nat) (err : BitVec 4) (cause : BitVec 6)
    (info : DWord) : (taskRecord t kind err cause info s).Inv := by
  unfold Machine.taskRecord
  dsimp only
  split
  · exact ((h.writeRecord ..).modQueue ..).dropLater _
  · exact h.writeRecord ..

theorem State.Inv.dropBuffers {s : State} (h : s.Inv) (g : BitVec 16) : (dropBuffers g s).Inv :=
  h.setSys ((Sys.Keeps.refl _).fields ..) ..

theorem execTaskComplete_sound {s : State} (h : s.Inv) (task : Nat) : Sound (execTaskComplete task s) := by
  unfold Machine.execTaskComplete
  dsimp only
  split
  · exact next_sound h.pass
  split
  · exact next_sound h.pass
  split
  · exact next_sound (((h.modCores _ (fun c => (Core.Keeps.refl _).cleared)).unlockWindows _ _).modTaskSame _).pass
  · exact next_sound (((((((h.modCores _ (fun c => (Core.Keeps.refl _).cleared)).unlockWindows _ _).dropBuffers
      _).modTaskSame _).modQueue ..).taskRecord ..).signalIf _ _).pass

theorem State.Inv.stopForAbort {s : State} (h : s.Inv) (t : Task) (cause : BitVec 6) (info : DWord) :
    (stopForAbort t cause info s).Inv := by
  unfold Machine.stopForAbort
  dsimp only
  split
  · exact (h.modQueue ..).taskRecord ..
  · exact (((h.modQueue ..).dropLater _).taskRecord ..).stopRecord ..

theorem State.Inv.abortTask {s : State} (h : s.Inv) (t : Task) (cause : BitVec 6) (info : DWord) (addr : VAddr) :
    (abortTask t cause info addr s).Inv :=
  (((((((h.modCores _ (fun _ => (Core.Keeps.refl _).cleared)).unlockWindows _ _).dropBuffers _).modTask _
    (fun _ _ _ => rfl)).modTenant _ _).modQueue ..).stopForAbort ..).signalIf _ _

theorem execTaskAbort_sound {s : State} (h : s.Inv) (task : Nat) : Sound (execTaskAbort task s) := by
  unfold Machine.execTaskAbort
  split
  · exact next_sound h.pass
  split
  · split
    · exact next_sound (h.abortTask ..).pass
    · exact next_sound h.pass
  · exact next_sound h.pass

theorem State.Inv.raiseStop {s : State} (h : s.Inv) (t : Task) : (raiseStop t s).Inv := by
  unfold Machine.raiseStop
  dsimp only
  refine (h.modCores _ ?_).modTaskSame _
  intro c
  split
  · exact (Core.Keeps.refl _).fields ..
  · exact .refl _

theorem State.Inv.preemptTask {s : State} (h : s.Inv) (t : Task) : (preemptTask t s).Inv := by
  unfold Machine.preemptTask
  split
  · exact h.raiseStop _
  · exact h

theorem execPreemptRequest_sound {s : State} (h : s.Inv) (task : Nat) : Sound (execPreemptRequest task s) := by
  unfold Machine.execPreemptRequest
  split
  · exact next_sound h.pass
  split
  · exact next_sound (h.preemptTask _).pass
  · exact next_sound (h.modQueue ..).pass

theorem Core.Keeps.restoreRetired {b c : Core} (h : b.Keeps c) (t : Task) : b.Keeps (restoreRetired t c) :=
  h.cleared.fields ..

theorem State.Inv.replumb {s : State} (h : s.Inv) (t : Task) : (replumb t s).Inv := by
  unfold Machine.replumb
  dsimp only
  split
  · exact h.foldl _ _ (fun u x => fun h1 h2 => h2.asCore _ _ (fun u1 h3 => h3.doubleFault _ _))
  refine h.modCores _ ?_
  intro c
  split
  · exact (Core.Keeps.refl _).releaseRft _ _
  · exact .refl _

theorem State.task_mem {s : State} {id : Nat} {t : Task} (h : s.task id = some t) : t ∈ s.sys.tasks :=
  List.mem_of_find?_eq_some h

/-- A core restored from the one that its task saved. -/
theorem Core.Keeps.restoreCore {r c : Core} (hid : r.id = c.id) (hr : r.memWf = true) :
    c.Keeps (restoreCore r c) := by
  obtain ⟨hb, -, ht, ha⟩ := (Core.memWf_iff r).mp hr
  exact .of_mems hid (fun _ => hb) (fun m => m) (fun _ => ht) fun _ => ha

theorem execTaskResume_sound {s : State} (h : s.Inv) (task : Nat) : Sound (execTaskResume task s) := by
  unfold Machine.execTaskResume
  split
  · exact next_sound h.pass
  next t ht =>
  have hsaved := List.all_eq_true.mp (h.mem_sys.saved (State.task_mem ht))
  split
  · exact next_sound h.pass
  extract_lets rec? s1 s2
  have h1 : s1.Inv := h.modCores t fun c => by
    split
    next r hr =>
      have hid := List.find?_some (p := fun r : Core => decide (r.id = c.id)) hr
      exact .restoreCore (of_decide_eq_true hid) (hsaved r (List.mem_of_find?_eq_some hr))
    · exact (Core.Keeps.refl c).restoreRetired t
  have h2 : s2.Inv := (h1.modTaskNone task).lockWindows t.tn true
  split
  · exact next_sound (h2.abortTask ..).pass
  · exact next_sound (h2.replumb t).pass

theorem State.Inv.reportDebug {s : State} (h : s.Inv) (id : Nat) : (reportDebug id s).Inv := by
  unfold Machine.reportDebug
  dsimp only
  split
  · exact h
  split
  · exact h
  split
  · exact h
  · exact (h.modTaskSame _).modTenant _ _

theorem execTaskDiscard_sound {s : State} (h : s.Inv) (task : Nat) : Sound (execTaskDiscard task s) := by
  unfold Machine.execTaskDiscard
  dsimp only
  split
  · exact next_sound h.pass
  split
  · split
    · exact next_sound (((h.dropBuffers _).modTask _ (fun t h1 h2 => rfl)).modQueue ..).pass
    · exact next_sound (((((h.modCores _ (fun c => (Core.Keeps.refl _).cleared)).unlockWindows _ _).dropBuffers
        _).modTask _ (fun t h1 h2 => rfl)).modQueue ..).pass
  · exact next_sound h.pass

theorem execDebugResume_sound {s : State} (h : s.Inv) (task : Nat) : Sound (execDebugResume task s) := by
  unfold Machine.execDebugResume
  dsimp only
  split
  · exact next_sound h.pass
  split
  · split
    · refine next_sound (h.foldl _ _ ?_).pass
      intro u x hx hx
      refine hx.asCore _ _ ?_
      intro u hx
      split
      · exact hx.arriveRft
      · exact hx
    refine next_sound ((h.foldl _ _ ?_).replumb _).pass
    intro u x hx hx
    refine hx.asCore _ _ ?_
    intro u hx
    split
    · exact hx.arriveRft
    · exact hx
  · exact next_sound h.pass

theorem execDebugInterfaceWrite_sound {s : State} (h : s.Inv) (c : Fin 128) (r : DbgReg) (v : DWord) :
    Sound (execDebugInterfaceWrite c r v s) := by
  unfold Machine.execDebugInterfaceWrite
  dsimp only
  refine next_sound (h.modCoreKeeps _ ?_).pass
  intro c
  split
  · exact .refl _
  split
  · exact (Core.Keeps.refl _).fields ..
  split
  · exact (Core.Keeps.refl _).fields ..
  · exact .refl _

theorem State.Inv.debugRead {s : State} (h : s.Inv) (c : Fin 128) (r : DbgReg) : (debugRead c r s).Inv := by
  unfold Machine.debugRead
  split
  · exact h
  · exact h.hostReads _

theorem execSlotLoad_sound {s : State} (h : s.Inv) (img : SlotImage) : Sound (execSlotLoad img s) := by
  unfold Machine.execSlotLoad
  dsimp only
  split
  · exact next_sound h.pass
  split
  · split
    · split
      · exact next_sound (h.setSys ((Sys.Keeps.refl _).fields ..) ..).pass
      · exact next_sound ((h.foldl _ _ (fun u x => fun h1 h2 => h2.writeAt ..)).setSys ((Sys.Keeps.refl _).fields ..)
          ..).pass
    split
    · exact next_sound ((h.writeAt ..).setSys ((Sys.Keeps.refl _).fields ..) ..).pass
    · exact next_sound (((h.foldl _ _ (fun u x => fun h1 h2 => h2.writeAt ..)).writeAt ..).setSys
        ((Sys.Keeps.refl _).fields ..) ..).pass
  split
  · split
    · exact next_sound ((h.writeAt ..).setSys ((Sys.Keeps.refl _).fields ..) ..).pass
    · exact next_sound (((h.foldl _ _ (fun u x => fun h1 h2 => h2.writeAt ..)).writeAt ..).setSys
        ((Sys.Keeps.refl _).fields ..) ..).pass
  split
  · exact next_sound (((h.writeAt ..).writeAt ..).setSys ((Sys.Keeps.refl _).fields ..) ..).pass
  · exact next_sound ((((h.foldl _ _ (fun u x => fun h1 h2 => h2.writeAt ..)).writeAt ..).writeAt ..).setSys
      ((Sys.Keeps.refl _).fields ..) ..).pass

theorem State.Inv.giveWindows {s : State} (h : s.Inv) (tn : Fin 16) (l : List (Fin 4 × Fin 3072 × BitVec 128)) :
    (giveWindows tn l s).Inv :=
  h.foldl _ _ (fun u x => fun h1 h2 => h2.modDieSame _ _)

theorem execTenantCreate_sound {s : State} (h : s.Inv) (tn : Fin 16) (grant : TenantGrant) :
    Sound (execTenantCreate tn grant s) := by
  unfold Machine.execTenantCreate
  dsimp only
  split
  · exact next_sound h.pass
  refine next_sound ((((h.modTenant _ _).giveWindows _ _).setSys ?_ ..).foldl _ _
    (fun u x => fun h1 h2 => h2.modCoreKeeps _ (fun c => (Core.Keeps.refl _).fields ..))).pass
  exact (Sys.Keeps.refl _).fields ..

/-- A destroyed tenant's tasks save no core. -/
theorem Task.saved_dropFor {t : Task} (h : t.saved.all Core.memWf = true) (tn : Fin 16) :
    (t.dropFor tn).saved.all Core.memWf = true := by
  unfold Task.dropFor
  split
  · rfl
  · exact h

theorem execTenantDestroy_sound {s : State} (h : s.Inv) (tn : Fin 16) : Sound (execTenantDestroy tn s) := by
  unfold Machine.execTenantDestroy
  split
  · exact next_sound h.pass
  · refine next_sound (State.Inv.pass ((h.modTenant tn _).setSys ?_ ..))
    refine .of_tasks (fun d => by simp [Sys.setPeers]) rfl rfl fun m t ht => ?_
    obtain ⟨u, hu, rfl⟩ := List.mem_map.mp ht
    exact Task.saved_dropFor (m.saved hu) tn

theorem execWindowMigrated_sound {s : State} (h : s.Inv) (die : Fin 4) (idx : Fin 3072) (pbase : BitVec 31) :
    Sound (execWindowMigrated die idx pbase s) := by
  unfold Machine.execWindowMigrated
  dsimp only
  split
  · exact next_sound h.pass
  split
  · exact next_sound h.pass
  refine next_sound ((((h.blitAt ..).modDieSame _ _).modTenant _ _).foldl _ _ ?_).pass
  intro u x hx hx
  refine hx.asCore _ _ ?_
  intro u hx
  split
  · exact hx.arriveRft
  · exact hx

theorem State.Inv.migrationFailed {s : State} (h : s.Inv) (die : Fin 4) (idx : Fin 3072) :
    (migrationFailed die idx s).Inv := by
  unfold Machine.migrationFailed
  dsimp only
  split
  · exact h
  refine h.foldl _ _ ?_
  intro u x hx hx
  split
  · exact hx
  split
  · exact (hx.logErrorOf ..).abortTask ..
  · exact hx.logErrorOf ..

theorem execPlacementRemoval_sound {s : State} (h : s.Inv) (c : Fin 128) : Sound (execPlacementRemoval c s) :=
  next_sound (h.setSys ((Sys.Keeps.refl _).fields ..) ..).pass

/-! ### The invariant, operation by operation: boot, power and clocks -/

theorem execPowerUp_sound {s : State} (h : s.Inv) : Sound (execPowerUp s) := by
  have hr : State.reset.Inv := ⟨State.memWf_reset, List.Perm.of_eq State.coreNums_reset⟩
  refine next_sound (State.Inv.pass (hr.setSys ⟨fun m => ?_⟩ ..))
  obtain ⟨hdie, hhbm, -, hsaved⟩ := m
  obtain ⟨-, -, hhost, -⟩ := h.mem_sys
  exact ⟨hdie, hhbm, hhost, hsaved⟩

theorem execFirmwareDownload_sound {s : State} (h : s.Inv) (die : Fin 4) (image key signature : List Byte) :
    Sound (execFirmwareDownload die image key signature s) := by
  unfold Machine.execFirmwareDownload
  dsimp only
  split
  · exact next_sound h.pass
  split
  · exact next_sound ((h.modDieSame _ _).modDieSame _ _).pass
  · split <;> exact next_sound (((h.modDieSame _ _).pick _).modDieSame _ _).pass

/-- The store of a die's cores is written whole (R42). -/
theorem Core.Keeps.putStore (c : Core) (die : Fin 4) (m : List Byte) :
    c.Keeps (if c.id.die = die then { c with store := Mem.listed 0 m } else c) := by
  split
  · exact .of_mems rfl (fun m => m) (fun _ => Mem.wf_listed ..) (fun m => m) fun m => m
  · exact .refl c

theorem execTrimRecord_sound {s : State} (h : s.Inv) (die : Fin 4) (record signature : List Byte) :
    Sound (execTrimRecord die record signature s) := by
  unfold Machine.execTrimRecord
  extract_lets d m s1 put
  have h1 : s1.Inv := h.modDieSame ..
  have hput (c : Core) : c.Keeps (put c) := .putStore c die m
  split
  · exact next_sound h.pass
  split
  · exact next_sound (h1.mapCores hput).pass
  · exact next_sound (h.modDieSame ..).pass

theorem execAttestationReport_sound {s : State} (h : s.Inv) (die : Fin 4) (nonce : List Byte) :
    Sound (execAttestationReport die nonce s) := by
  unfold Machine.execAttestationReport
  dsimp only
  split
  · exact next_sound h.pass
  · exact next_sound (h.setSys ((Sys.Keeps.refl _).fields ..) ..).pass

theorem execWarningTemperature_sound {s : State} (h : s.Inv) : Sound (execWarningTemperature s) :=
  next_sound (h.setSys ((Sys.Keeps.refl _).fields ..) ..).pass

theorem State.Inv.cooled {s : State} (h : s.Inv) : (cooled s).Inv := h.setSys ((Sys.Keeps.refl _).fields ..) ..

theorem State.Inv.meetCritical {s : State} (h : s.Inv) (t : Task) : (meetCritical s t).Inv := by
  unfold Machine.meetCritical
  split
  · exact h
  split
  · exact h.abortTask ..
  · exact h.raiseStop _

theorem State.Inv.criticalRecord {s : State} (h : s.Inv) (tn : Fin 16) : (criticalRecord s tn).Inv := by
  unfold Machine.criticalRecord
  split
  · exact h.writeRecord ..
  · exact h

theorem execCriticalTemperature_sound {s : State} (h : s.Inv) : Sound (execCriticalTemperature s) := by
  have hu : State.Inv { s with sys := { s.sys with thermal := .critical } } := h.setSys ((Sys.Keeps.refl _).fields ..)
    ..
  unfold Machine.execCriticalTemperature
  generalize ({ s with sys := { s.sys with thermal := .critical } } : State) = u at hu
  have hv := hu.foldl (List.finRange 16) criticalRecord fun _ tn _ hw => hw.criticalRecord tn
  dsimp only
  generalize (List.finRange 16).foldl criticalRecord u = v at hv
  split
  · exact next_sound hu.pass
  split
  · exact next_sound (hu.foldl _ _ fun _ t _ hw => hw.meetCritical t).pass
  · refine next_sound (hv.setSys ?_ ..).pass
    exact .mapDie (.refl _) fun _ => rfl

theorem State.Inv.clockFault {s : State} (h : s.Inv) (die : Fin 4) (x : BitVec 32) : (clockFault die x s).Inv := by
  unfold Machine.clockFault
  dsimp only
  split
  · exact h.note _
  · exact h

theorem execDriftExchange_sound {s : State} (h : s.Inv) (die : Fin 4) (fwd back : BitVec 32) :
    Sound (execDriftExchange die fwd back s) := by
  unfold Machine.execDriftExchange
  dsimp only
  split
  · exact next_sound (h.modDieSame _ _).pass
  · exact next_sound ((((h.modDieSame _ _).modDieSame _ _).clockFault _ _).clockFault _ _).pass

/-! ### The invariant, operation by operation: branches -/

theorem State.Inv.setTarget {s : State} (h : s.Inv) (r : Fin 16) (a : VAddr) (taint : Bool) :
    (s.setTarget r a taint).Inv :=
  (h.setSteer _ _).setTaintT _ _

theorem execPrep_sound {s : State} (h : s.Inv) (sd : Fin 16) (off : BitVec 19) : Sound (execPrep sd off s) :=
  ctlWord_sound h _ (h.setTarget ..)

theorem execPrepr_sound {s : State} (h : s.Inv) (sd : Fin 16) (a : Fin 32) : Sound (execPrepr sd a s) := by
  unfold Machine.execPrepr
  dsimp only
  refine ctlWord_sound h _ ?_
  split
  · exact trivial
  · exact (h.readG _).setTarget ..

theorem branch_sound {s : State} (h : s.Inv) (i : Instr) (r : Fin 16) (null : NullMode)
    (taken readsCond link : Bool) : Sound (branch i r null taken readsCond link s) := by
  unfold Machine.branch
  dsimp only
  refine ctlWord_sound h _ ?_
  split
  · exact h
  split
  · exact trivial
  split
  · exact (h.setSteer _ _).takeTrap _
  split
  · exact (h.unreplayableIf _).writeG ..
  · exact h.unreplayableIf _

end Sys2Proof.Machine

namespace Sys2Proof.Machine

/-! ### The invariant, operation by operation: vector words -/

theorem State.Inv.readV {s : State} (h : s.Inv) (k : Fin 24) : (s.readV k).2.Inv := by
  unfold State.readV
  dsimp only
  split
  · exact h
  · exact h.setCore (.refl _) ..

theorem State.Inv.readP {s : State} (h : s.Inv) (k : Fin 16) : (s.readP k).2.Inv := by
  unfold State.readP
  dsimp only
  split
  · exact h
  split
  · exact h
  · exact h.setCore (.refl _) ..

theorem State.Inv.writeV {s : State} (h : s.Inv) (k : Fin 24) (v : Lanes) (bound : Nat) : (s.writeV k v bound).Inv :=
  h.upd ((Core.Keeps.refl _).fields ..)

theorem State.Inv.writeP {s : State} (h : s.Inv) (k : Fin 16) (v : BitVec 64) (bound : Nat) :
    (s.writeP k v bound).Inv := by
  unfold State.writeP
  dsimp only
  split
  · exact h
  · exact h.upd ((Core.Keeps.refl _).fields ..)

theorem State.Inv.readSrc {s : State} (h : s.Inv) (a : VSrc) : (s.readSrc a).2.Inv := by
  unfold State.readSrc
  split
  · exact h.readV _
  · exact h
  · exact h
  · exact h

theorem State.Inv.vReads {s : State} (h : s.Inv) (vs : List (Fin 24)) (ps : List (Fin 16)) : (vReads vs ps s).Inv :=
  h.readsIf _

theorem State.Inv.wholeV {s : State} (h : s.Inv) (k : Fin 24) : (s.wholeV k).Inv := h.updCarried _

theorem State.Inv.wholeP {s : State} (h : s.Inv) (k : Fin 16) : (s.wholeP k).Inv := h.updCarried _

theorem State.Inv.deliver {s : State} (h : s.Inv) (d : VDst) (mask : BitVec 64) (v : Lanes) (bound : Nat) :
    (s.deliver d mask v bound).Inv := by
  unfold State.deliver
  dsimp only
  split
  · split
    · exact (h.wholeV _).writeV ..
    · exact (h.readsIf _).writeV ..
  · exact h.updQ _
  · exact h.updQ _
  · exact h

theorem State.Inv.vflag {s : State} (h : s.Inv) (f : FlagBits) (nans : Nat) : (s.vflag f nans).Inv :=
  h.upd ((Core.Keeps.refl _).fields ..)

/-- A vector word keeps the invariant when its body does (R218). -/
theorem vWord_sound {s : State} {body : State → State} (h : s.Inv) (tk : Tok) (i : Instr) (srcs : List VSrc)
    (ps : List (Fin 16)) (vs : List (Fin 24)) (d : VDst) (check : State → Option TrapRec)
    (hb : ∀ u, (hu : u.Inv) → (body u).Inv) : Sound (vWord tk i srcs ps vs d s check body) := by
  unfold vWord
  refine engWord_sound h _ _ _ fun x u hu => ?_
  dsimp only
  split
  · trivial
  split
  · exact hu
  split
  · exact hu
  · exact (hb _ (hu.vReads _ _)).foldl _ _ fun _ q _ hv => hv.popVq q

theorem vLane2_sound {s : State} (h : s.Inv) (f : Word → Word → Word × FlagBits) (fp : Bool) (bound : Nat) (tk : Tok)
    (i : Instr) (d : VDst) (a b : VSrc) (p : Fin 16) : Sound (vLane2 f fp bound tk i d a b p s) :=
  vWord_sound h _ _ _ _ _ _ _ (fun _ h1 => ((((h1.readSrc _).readSrc _).readP _).deliver ..).vflag _ _)

theorem vLane1_sound {s : State} (h : s.Inv) (f : Word → Word × FlagBits) (fp : Bool) (bound : Nat) (tk : Tok)
    (i : Instr) (d : VDst) (a : VSrc) (p : Fin 16) : Sound (vLane1 f fp bound tk i d a p s) :=
  vWord_sound h _ _ _ _ _ _ _ (fun _ h1 => (((h1.readSrc _).readP _).deliver ..).vflag _ _)

theorem execVfma_sound {s : State} (h : s.Inv) (t : Tok) (d : VDst) (a b : VSrc) (p : Fin 16) :
    Sound (execVfma t d a b p s) := by
  unfold Machine.execVfma
  dsimp only
  refine vWord_sound h _ _ _ _ _ _ _ fun u hu => ?_
  split
  · exact (((((hu.readSrc _).readSrc _).readV _).readP _).deliver ..).vflag _ _
  · exact ((((hu.readSrc _).readSrc _).readP _).deliver ..).vflag _ _

theorem execVcmp_sound {s : State} (h : s.Inv) (t : Tok) (cc : VCc) (ty : VTy) (pd : Fin 16) (a b : VSrc) :
    Sound (execVcmp t cc ty pd a b s) :=
  vWord_sound h _ _ _ _ _ _ _ (fun _ h1 => ((((h1.readSrc _).readSrc _).wholeP _).writeP ..).vflag _ _)

theorem execPlog_sound {s : State} (h : s.Inv) (t : Tok) (fn : PFn) (pd pa pb : Fin 16) :
    Sound (execPlog t fn pd pa pb s) :=
  vWord_sound h _ _ _ _ _ _ _ (fun _ h1 => (((h1.readP _).readP _).wholeP _).writeP ..)

theorem execVsel_sound {s : State} (h : s.Inv) (t : Tok) (d : VDst) (a b : VSrc) (p : Fin 16) :
    Sound (execVsel t d a b p s) :=
  vWord_sound h _ _ _ _ _ _ _ (fun _ h1 => (((h1.readSrc _).readSrc _).readP _).deliver ..)

theorem State.Inv.useDraws {s : State} (h : s.Inv) : s.useDraws.Inv :=
  (h.readsIf _).upd ((Core.Keeps.refl _).fields ..)

theorem execVcvt_sound {s : State} (h : s.Inv) (t : Tok) (d : VDst) (a : VSrc) (conv : Conv) (rnd : Rnd)
    (sat : Bool) : Sound (execVcvt t d a conv rnd sat s) := by
  unfold Machine.execVcvt
  dsimp only
  refine vWord_sound h _ _ _ _ _ _ _ fun u hu => ?_
  split
  · exact (((hu.readSrc _).deliver ..).vflag _ _).useDraws
  · exact ((hu.readSrc _).deliver ..).vflag _ _

theorem execVpack_sound {s : State} (h : s.Inv) (t : Tok) (d : VDst) (a b : VSrc) (w : PackW) :
    Sound (execVpack t d a b w s) :=
  vWord_sound h _ _ _ _ _ _ _ (fun _ h1 => ((h1.readSrc _).readSrc _).deliver ..)

theorem execVunpk_sound {s : State} (h : s.Inv) (t : Tok) (d : VDst) (a b : VSrc) (w : PackW) :
    Sound (execVunpk t d a b w s) :=
  vWord_sound h _ _ _ _ _ _ _ (fun _ h1 => ((h1.readSrc _).readSrc _).deliver ..)

theorem execVquant_sound {s : State} (h : s.Inv) (t : Tok) (d : VDst) (a : VSrc) (f : QFmt) :
    Sound (execVquant t d a f s) :=
  vWord_sound h _ _ _ _ _ _ _ (fun _ h1 => ((h1.readSrc _).deliver ..).vflag _ _)

theorem execVdeq_sound {s : State} (h : s.Inv) (t : Tok) (d : VDst) (a : VSrc) (f : QFmt) :
    Sound (execVdeq t d a f s) :=
  vWord_sound h _ _ _ _ _ _ _ (fun _ h1 => ((h1.readSrc _).deliver ..).vflag _ _)

/-! ### The invariant, operation by operation: vector moves -/

theorem reduction_sound {s : State} (h : s.Inv) (op : RNode → RNode → RNode × FlagBits) (absent : Word)
    (sum nn : Bool) (t : Tok) (i : Instr) (d : VDst) (a : VSrc) (p : Fin 16) :
    Sound (reduction op absent sum nn t i d a p s) :=
  vWord_sound h _ _ _ _ _ _ _ (fun _ h1 => (((h1.readSrc _).readP _).deliver ..).vflag _ _)

theorem execVperm_sound {s : State} (h : s.Inv) (t : Tok) (d : VDst) (a b : VSrc) (p : Fin 16) :
    Sound (execVperm t d a b p s) :=
  vWord_sound h _ _ _ _ _ _ _ (fun _ h1 => (((h1.readSrc _).readSrc _).readP _).deliver ..)

theorem execVbcst_sound {s : State} (h : s.Inv) (t : Tok) (d : VDst) (a : VSrc) (lane : Fin 64) :
    Sound (execVbcst t d a lane s) :=
  vWord_sound h _ _ _ _ _ _ _ (fun _ h1 => (h1.readSrc _).deliver ..)

theorem execVsplt_sound {s : State} (h : s.Inv) (t : Tok) (d : VDst) (imm : BitVec 14) :
    Sound (execVsplt t d imm s) :=
  vWord_sound h _ _ _ _ _ _ _ (fun _ h1 => h1.deliver ..)

theorem execVsplf_sound {s : State} (h : s.Inv) (t : Tok) (d : VDst) (imm : BitVec 14) :
    Sound (execVsplf t d imm s) :=
  vWord_sound h _ _ _ _ _ _ _ (fun _ h1 => h1.deliver ..)

theorem State.Inv.popXq {s : State} (h : s.Inv) : s.popXq.Inv := ((h.readsIf _).updCarried _).updQ _

theorem execVsplx_sound {s : State} (h : s.Inv) (t : Tok) (d : VDst) (p : Fin 16) : Sound (execVsplx t d p s) := by
  unfold Machine.execVsplx
  dsimp only
  split
  · exact engWord_sound h _ _ _ (fun x u h1 => trivial)
  split
  · exact engWord_sound h _ _ _ (fun x u h1 => trivial)
  split
  · exact engWord_sound h _ _ _ (fun x u h1 => h1.silentError _)
  · exact vWord_sound h _ _ _ _ _ _ _ (fun u h1 => ((h1.readP _).deliver ..).popXq)

theorem execVrand_sound {s : State} (h : s.Inv) (t : Tok) (d : VDst) (p : Fin 16) : Sound (execVrand t d p s) :=
  vWord_sound h _ _ _ _ _ _ _ (fun _ h1 => ((h1.readP _).deliver ..).useDraws)

theorem execVrset_sound {s : State} (h : s.Inv) (t : Tok) (a : VSrc) : Sound (execVrset t a s) :=
  vWord_sound h _ _ _ _ _ _ _ (fun _ h1 => ((h1.readSrc _).updCarried _).upd ((Core.Keeps.refl _).fields ..))

theorem execVrskip_sound {s : State} (h : s.Inv) (t : Tok) (a : VSrc) : Sound (execVrskip t a s) :=
  vWord_sound h _ _ _ _ _ _ _ (fun _ h1 => ((h1.readSrc _).readsIf _).upd ((Core.Keeps.refl _).fields ..))

theorem execVrget_sound {s : State} (h : s.Inv) (t : Tok) (d : VDst) : Sound (execVrget t d s) :=
  vWord_sound h _ _ _ _ _ _ _ (fun _ h1 => (h1.readsIf _).deliver ..)

theorem execVdefer_sound {s : State} (h : s.Inv) (t : Tok) (a b : VSrc) (p : Fin 16) : Sound (execVdefer t a b p s) :=
  vWord_sound h _ _ _ _ _ _ _ (fun _ h1 => ((((h1.readSrc _).readSrc _).readP _).readsIf _).updQ _)

theorem State.Inv.drainBatch {s : State} (h : s.Inv) (d : Fin 32) (p : Fin 16) (m : Nat) : (drainBatch d p m s).Inv :=
  (((((h.updQ _).deliver ..).deliver ..).deliver ..).wholeP _).writeP ..

theorem execVdrain_sound {s : State} (h : s.Inv) (t : Tok) (d : Fin 32) (fl : Bool) (p : Fin 16) :
    Sound (execVdrain t d fl p s) := by
  unfold Machine.execVdrain
  dsimp only
  refine vWord_sound h _ _ _ _ _ _ _ fun u hu => ?_
  split
  · exact (hu.readsIf _).drainBatch ..
  split
  · exact (hu.readsIf _).drainBatch ..
  · exact ((hu.readsIf _).wholeP _).writeP ..

theorem execVdqn_sound {s : State} (h : s.Inv) (t : Tok) (d : VDst) : Sound (execVdqn t d s) :=
  vWord_sound h _ _ _ _ _ _ _ (fun _ h1 => (h1.readsIf _).deliver ..)

theorem execVloop_sound {s : State} (h : s.Inv) (t : Tok) : Sound (execVloop t s) :=
  vWord_sound h _ _ _ _ _ _ _ (fun _ h1 => h1.upd ((Core.Keeps.refl _).fields ..))

theorem State.Inv.pushRq {s : State} (h : s.Inv) (k : Fin 2) (w : Word) : (s.pushRq k w).Inv := h.updQ _

theorem execVrply_sound {s : State} (h : s.Inv) (t : Tok) (a : VSrc) (rq : Fin 2) (lane : Fin 64) :
    Sound (execVrply t a rq lane s) := by
  unfold Machine.execVrply
  dsimp only
  split
  · exact engWord_sound h _ _ _ (fun x u h1 => trivial)
  · exact vWord_sound h _ _ _ _ _ _ _ (fun u h1 => (h1.readSrc _).pushRq _ _)

theorem execVflag_sound {s : State} (h : s.Inv) (t : Tok) (d : VDst) (clr : Bool) : Sound (execVflag t d clr s) := by
  unfold Machine.execVflag
  dsimp only
  refine vWord_sound h _ _ _ _ _ _ _ fun u hu => ?_
  split
  · exact (hu.deliver ..).upd ((Core.Keeps.refl _).fields ..)
  · exact hu.deliver ..

theorem execVnop_sound {s : State} (h : s.Inv) (t : Tok) : Sound (execVnop t s) := by
  unfold Machine.execVnop
  refine vWord_sound h _ _ _ _ _ _ _ fun u hu => ?_
  exact hu

/-! ### The invariant, operation by operation: dispatch -/

theorem exec_sound {s : State} (h : s.Inv) (i : Instr) : Sound (exec i s) := by
  unfold Machine.exec
  cases i with
  | add | sub | and | or | xor | andn | sll | srl | sra | rotl | mul | mulh | mulhu | div | divu | rem | remu |
    min | max | minu | maxu =>
    exact alu3_sound h ..
  | clz | ctz | popc | addi | andi | ori | xori | slli | srli | srai => exact alu2_sound h ..
  | lui | adrp => exact aluConst_sound h ..
  | ceq | cne | clt | cge | cltu | cgeu | cbs | cbc => exact cmp3_sound h ..
  | ceqi | cnei | clti | cgei | cltui => exact cmpI_sound h ..
  | sand | sor | sxor => exact steer3_sound h ..
  | snot => exact execSnot_sound h _ _
  | smov => exact execSmov_sound h _ _
  | sset => exact execSset_sound h _
  | sclr => exact execSclr_sound h _
  | prep => exact execPrep_sound h _ _
  | prepr => exact execPrepr_sound h _ _
  | bt | bf | ba | bl => exact branch_sound h ..
  | ldb | ldbu | ldh | ldhu | ldw | ldwu | ldd => exact load_sound h ..
  | stb | sth | stw | std => exact store_sound h ..
  | ldl => exact execLdl_sound h _ _
  | lpool => exact execLpool_sound h _
  | amow | amod => exact atomic_sound h ..
  | fence => exact execFence_sound h ..
  | mfs => exact execMfs_sound h _ _
  | mts => exact execMts_sound h _ _
  | mtsi => exact execMtsi_sound h _ _
  | mtsr => exact execMtsr_sound h ..
  | qpush => exact execQpush_sound h _ _
  | qpop => exact execQpop_sound h _ _
  | qcnt => exact execQcnt_sound h _ _
  | bar => exact execBar_sound h _
  | plumb => exact execPlumb_sound h _
  | twait => exact execTwait_sound h _
  | sigev => exact execSigev_sound h _
  | waitev => exact execWaitev_sound h _
  | phsw => exact execPhsw_sound h _
  | jigRec => exact execJigRec_sound h _
  | jigEnd => exact execJigEnd_sound h _
  | jigPlay => exact execJigPlay_sound h _ _
  | jigStop => exact execJigStop_sound h _ _
  | jigDrop => exact execJigDrop_sound h _
  | pqpush => exact execPqpush_sound h _ _
  | pqpop => exact execPqpop_sound h _ _
  | pqtop => exact execPqtop_sound h _ _
  | pqclr => exact execPqclr_sound h
  | pqcnt => exact execPqcnt_sound h _
  | ngo => exact execNgo_sound h _ _
  | nbrk => exact execNbrk_sound h _ _
  | waitq => exact execWaitq_sound h _
  | trap => exact execTrap_sound h _
  | rft => exact execRft_sound h
  | retire => exact execRetire_sound h
  | nop => exact execNop_sound h _
  | brk => exact execBrk_sound h
  | ldt => exact execLdt_sound h ..
  | ldq => exact execLdq_sound h ..
  | ldsc => exact execLdsc_sound h ..
  | ldx => exact execLdx_sound h ..
  | lgath => exact execLgath_sound h ..
  | lland => exact execLland_sound h ..
  | ladv => exact execLadv_sound h ..
  | lnop => exact execLnop_sound h _
  | mma => exact execMma_sound h ..
  | mrun => exact execMrun_sound h ..
  | mdrain => exact execMdrain_sound h ..
  | azero => exact execAzero_sound h _ _
  | aread => exact execAread_sound h ..
  | apatch => exact execApatch_sound h ..
  | epset => exact execEpset_sound h ..
  | epcon => exact execEpcon_sound h ..
  | heaprd => exact execHeaprd_sound h ..
  | heapclr => exact execHeapclr_sound h _ _
  | mchk => exact execMchk_sound h _ _
  | mnop => exact execMnop_sound h _
  | sdopen => exact execSdopen_sound h _
  | sdrun => exact execSdrun_sound h _
  | sdclose => exact execSdclose_sound h
  | sdstat => exact execSdstat_sound h
  | vadd | vsub | vmul | vmin | vmax | viadd | visub | vimul | vimin | vimax | viminu | vimaxu | vand | vor |
    vxor | vshl | vshr | vsra =>
    exact vLane2_sound h ..
  | vfma => exact execVfma_sound h ..
  | vabs | vneg | vrcp | vrsq | vexp2 | vlog2 | vmov => exact vLane1_sound h ..
  | vcmp => exact execVcmp_sound h ..
  | vsel => exact execVsel_sound h ..
  | plog => exact execPlog_sound h ..
  | vcvt => exact execVcvt_sound h ..
  | vpack => exact execVpack_sound h ..
  | vunpk => exact execVunpk_sound h ..
  | vquant => exact execVquant_sound h ..
  | vdeq => exact execVdeq_sound h ..
  | vrsum | vrmax | vrmin => exact reduction_sound h ..
  | vperm => exact execVperm_sound h ..
  | vbcst => exact execVbcst_sound h ..
  | vsplt => exact execVsplt_sound h ..
  | vsplf => exact execVsplf_sound h ..
  | vsplx => exact execVsplx_sound h ..
  | vrand => exact execVrand_sound h ..
  | vrset => exact execVrset_sound h _ _
  | vrskip => exact execVrskip_sound h _ _
  | vrget => exact execVrget_sound h _ _
  | vdefer => exact execVdefer_sound h ..
  | vdrain => exact execVdrain_sound h ..
  | vdqn => exact execVdqn_sound h _ _
  | vloop => exact execVloop_sound h _
  | vrply => exact execVrply_sound h ..
  | vflag => exact execVflag_sound h ..
  | vnop => exact execVnop_sound h _
  | copy => exact execCopy_sound h ..
  | sqst => exact execSqst_sound h _ _
  | xsend => exact execXsend_sound h ..
  | rsend => exact execRsend_sound h ..
  | rrecv => exact execRrecv_sound h ..
  | rfence => exact execRfence_sound h _
  | atomv => exact execAtomv_sound h ..
  | snop => exact execSnop_sound h _
  | engineRetire => exact execEngineRetire_sound h _
  | barrierRelease => exact execBarrierRelease_sound h _
  | plumbRelease => exact execPlumbRelease_sound h _
  | remoteMatch => exact execRemoteMatch_sound h ..
  | remoteEnd => exact execRemoteEnd_sound h ..
  | roundAbandon => exact execRoundAbandon_sound h _ _
  | dataFlit => exact execDataFlit_sound h _ _
  | idleFlit => exact execIdleFlit_sound h _ _
  | retryRequest => exact execRetryRequest_sound h _ _
  | portDown => exact execPortDown_sound h _
  | windowMigrated => exact execWindowMigrated_sound h ..
  | driftExchange => exact execDriftExchange_sound h ..
  | eventWake => exact execEventWake_sound h _ _
  | kick => exact execKick_sound h ..
  | entryReread => exact execEntryReread_sound h _ _
  | ack => exact execAck_sound h _ _
  | qcfgWrite => exact execQcfgWrite_sound h ..
  | ercfgWrite => exact execErcfgWrite_sound h _ _
  | hostRegisterWrite => exact execHostRegisterWrite_sound h ..
  | mbout => exact execMbout_sound h _ _
  | mbin => exact execMbin_sound h ..
  | dropClear => exact execDropClear_sound h _ _
  | launch => exact execLaunch_sound h ..
  | listWait => exact execListWait_sound h ..
  | listSignal => exact execListSignal_sound h ..
  | listSkipif => exact execListSkipif_sound h ..
  | listJump => exact execListJump_sound h ..
  | listCall => exact execListCall_sound h ..
  | listReturn => exact execListReturn_sound h ..
  | listFence => exact execListFence_sound h ..
  | listEnd => exact execListEnd_sound h ..
  | gangStart => exact execGangStart_sound h _
  | taskComplete => exact execTaskComplete_sound h _
  | preemptRequest => exact execPreemptRequest_sound h _
  | taskResume => exact execTaskResume_sound h _
  | taskDiscard => exact execTaskDiscard_sound h _
  | hostMemAccess => exact execHostMemAccess_sound h ..
  | linkRateChange => exact execLinkRateChange_sound h _ _
  | firmwareDownload => exact execFirmwareDownload_sound h ..
  | trimRecord => exact execTrimRecord_sound h ..
  | attestationReport => exact execAttestationReport_sound h _ _
  | illegalWord => exact execIllegalWord_sound h ..
  | fetchFault => exact execFetchFault_sound h _
  | debugResume => exact execDebugResume_sound h _
  | debugInterfaceWrite => exact execDebugInterfaceWrite_sound h ..
  | taskAbort => exact execTaskAbort_sound h _
  | slotLoad => exact execSlotLoad_sound h _
  | tenantCreate => exact execTenantCreate_sound h _ _
  | tenantDestroy => exact execTenantDestroy_sound h _
  | placementRemoval => exact execPlacementRemoval_sound h _
  | phaseResume => exact execPhaseResume_sound h
  | gangStall => exact execGangStall_sound h
  | stallResume => exact execStallResume_sound h
  | slipLimit => exact execSlipLimit_sound h
  | deadStop => exact execDeadStop_sound h
  | plumbOverdue => exact execPlumbOverdue_sound h
  | slotLanding => exact execSlotLanding_sound h
  | lateLanding => exact execLateLanding_sound h
  | sdopenRetire => exact execSdopenRetire_sound h
  | streamBeat => exact execStreamBeat_sound h
  | blockRemoval => exact execBlockRemoval_sound h
  | blockRefetch => exact execBlockRefetch_sound h
  | blockPush => exact execBlockPush_sound h
  | remoteTimeout => exact execRemoteTimeout_sound h
  | cqRecord => exact execCqRecord_sound h
  | batchClose => exact execBatchClose_sound h
  | trapEntry => exact execTrapEntry_sound h
  | companionStop => exact execCompanionStop_sound h
  | breakRequest => exact execBreakRequest_sound h
  | jigEntryIssue => exact execJigEntryIssue_sound h
  | gangStop => exact execGangStop_sound h
  | powerUp => exact execPowerUp_sound h
  | warningTemperature => exact execWarningTemperature_sound h
  | criticalTemperature => exact execCriticalTemperature_sound h
  | valueLanded => exact execValueLanded_sound h

/-- The state that an act goes on with, or runs an instruction in, meets the invariant. -/
@[simp] def Act.Sound : Act → Prop
  | .run _ s => s.Inv
  | .issue _ _ s => s.Inv
  | .own o => Machine.Sound o
  | .guard _ o => Machine.Sound o

/-! ### The invariant, operation by operation: the next act -/

theorem ctlAct_sound {s : State} (h : s.Inv) (i : Instr) : (ctlAct i s).Sound := h

theorem eventTurn_sound {s : State} (h : s.Inv) (i : Instr) : (eventTurn i s).Sound := h

theorem routeWord_sound {s : State} (h : s.Inv) (e : Engine) (w : Word) (cont : Option Word) :
    Sound (routeWord e w cont s) := by
  unfold Machine.routeWord
  split
  next x1 e1 =>
    exact next_sound h.noteReach.ticked
  next x1 x2 e2 =>
    have hu := h.of_push e2
    exact next_sound ((hu.recordEngine _ _).clearReach.ctlDone)

theorem wordAct_sound {s : State} (h : s.Inv) (w : Word) : (wordAct w s).Sound := by
  unfold Machine.wordAct
  split
  · split <;> exact ctlAct_sound h _
  split
  · split
    · exact next_sound h.storeError.pass
    split
    · split
      · exact routeWord_sound h ..
      · exact ctlAct_sound h _
    · exact ctlAct_sound h _
  · exact routeWord_sound h ..

theorem State.Inv.nullified {s : State} (h : s.Inv) : (nullified s).Inv :=
  ((h.updCtl _).upd ((Core.Keeps.refl _).tickOn.fields ..)).pass

theorem headAct_sound {s : State} (h : s.Inv) : (headAct s).Sound := by
  unfold Machine.headAct
  dsimp only
  split
  · exact next_sound h.nullified
  split
  · exact next_sound h.storeError.pass
  split
  · exact wordAct_sound h _
  · exact ctlAct_sound h _

theorem nestAct_sound {s : State} (h : s.Inv) (r : NestRun) : (nestAct r s).Sound := by
  unfold Machine.nestAct
  generalize s.core.nestItem r = item
  generalize itemBad r s item = bad
  cases bad with
  | true => exact next_sound h.storeError.pass
  | false =>
    cases item with
    | word w => exact wordAct_sound h w
    | bad | push | move | outside | full => exact ctlAct_sound h _

theorem streamAct_sound {s : State} (h : s.Inv) : (streamAct s).Sound := by
  unfold Machine.streamAct
  split
  · exact nestAct_sound h _
  · exact headAct_sound h

theorem Core.Keeps.standTick {b c : Core} (h : b.Keeps c) : b.Keeps c.standTick := h.waitTick.fields ..

theorem controlAct_sound {s : State} (h : s.Inv) : (controlAct s).Sound := by
  unfold Machine.controlAct
  dsimp only
  split
  · exact next_sound h.pass
  split
  · exact next_sound h.ticked
  split
  · exact h
  split
  · exact next_sound (h.upd ((Core.Keeps.refl _).standTick)).pass
  split
  · exact h
  split
  · exact ctlAct_sound h _
  · exact streamAct_sound h

theorem engineAct_sound {s : State} (h : s.Inv) (e : Engine) : (engineAct e s).Sound := by
  unfold Machine.engineAct
  dsimp only
  split
  · exact next_sound h.pass
  split
  · exact next_sound h.pass
  split
  · exact h
  split
  · exact next_sound h.pass
  split
  · exact next_sound (h.silentError _).pass
  split
  · exact next_sound h.pass
  · exact h.upd ((Core.Keeps.refl _).flushRegs _)

theorem State.Inv.lateBeat {s : State} (h : s.Inv) (e : Engine) : (lateBeat e s).Inv := by
  unfold Machine.lateBeat
  split
  · exact (h.upd ((Core.Keeps.refl _).setEng _ _)).beginDelay _
  · exact h

theorem State.Inv.slowBeat {s : State} (h : s.Inv) : (slowBeat s).Inv := h.updSd _

theorem State.Inv.beatCame {s : State} (h : s.Inv) (e : Engine) : (beatCame e s).Inv :=
  h.upd ((Core.Keeps.refl _).setEng _ _)

theorem State.Inv.logCorrected {s : State} (h : s.Inv) (sp : Space) (a : Nat) : (logCorrected sp a s).Inv := by
  unfold Machine.logCorrected
  dsimp only
  split
  · exact h.logErrorOf ..
  · exact h.note _

theorem State.Inv.withhold {s : State} (h : s.Inv) (b : Bool) : (withhold b s).Inv := by
  unfold Machine.withhold
  dsimp only
  split
  · exact h
  · exact h.setSys ((Sys.Keeps.refl _).fields ..) ..

theorem State.Inv.outsideAct {s : State} (h : s.Inv) (x : Outside) : (outsideAct x s).Inv := by
  unfold Machine.outsideAct
  dsimp only
  split
  · exact h.setSys ((Sys.Keeps.refl _).fields ..) ..
  · exact h.logCorrected _ _
  · exact h.logErrorOf ..
  · exact h.modCoreKeeps _ (fun c => (Core.Keeps.refl _).setEng _ _)
  · exact h.modCoreKeeps _ (fun c => (Core.Keeps.refl _).fields ..)
  · exact h.modCoreKeeps _ (fun c => (Core.Keeps.refl _).fields ..)
  · exact h.modCoreKeeps _ (fun c => (Core.Keeps.refl _).fields ..)
  · refine h.modCoreKeeps _ ?_
    intro c
    refine (Core.Keeps.refl _).matrixMems ?_ (fun h1 => h1) ..
    intro hx
    split
    · exact Mem.wf_write hx _ _
    · exact hx
  · exact h.asCore _ _ (fun u h1 => h1.lateBeat _)
  · exact h.asCore _ _ (fun u h1 => h1.slowBeat)
  · exact h.asCore _ _ (fun u h1 => h1.beatCame _)
  · exact h.asCore _ _ (fun u h1 => h1.withdraw ..)
  · exact h.writeAt ..
  · exact h.pageRead _ _
  · exact h.debugRead _ _
  · exact h.msixWrite _ _
  · exact h.migrationFailed _ _
  · exact h.withhold _
  · exact h.cooled

theorem inputAct_sound {s : State} (h : s.Inv) : (inputAct s).Sound := by
  unfold Machine.inputAct
  dsimp only
  split
  · exact next_sound h.pass
  · exact next_sound ((h.setCore (.refl _) ..).outsideAct _).pass
  split
  · exact next_sound (h.setCore (.refl _) ..).pass
  split
  · exact next_sound ((h.setCore (.refl _) ..).updCtl _).pass
  · split <;> exact h.setCore (.refl _) ..

theorem handle_sound {s : State} (h : s.Inv) (tn : Fin 16) (q : Fin 8) (e : QEvent) : (handle tn q e s).Sound := by
  unfold Machine.handle
  split
  · exact h
  · exact h
  · exact next_sound (h.reportDebug _).pass
  · exact next_sound (h.modQueue ..).pass
  · split
    · exact next_sound (h.preemptTask _).pass
    · exact next_sound h.pass
  · exact next_sound (h.modQueue ..).pass

theorem listAct_sound {s : State} (h : s.Inv) (tn : Fin 16) (q : Fin 8) : (listAct tn q s).Sound := by
  unfold Machine.listAct
  dsimp only
  split
  · exact next_sound h.pass
  split
  · exact handle_sound (h.modQueue ..) ..
  split
  · exact h
  split
  · split
    · exact h
    · split <;> exact h
  · exact next_sound h.pass

theorem State.Inv.linkAct {s : State} (h : s.Inv) : (linkAct s).Inv := by
  unfold Machine.linkAct
  dsimp only
  split
  · exact (h.pick _).modPort _ _
  · exact (h.pick _).sendFlit

theorem timedAct_sound {s : State} (h : s.Inv) : (timedAct s).Sound := by
  unfold Machine.timedAct
  dsimp only
  split
  · exact next_sound (h.pick _).linkAct.pass
  split
  · exact eventTurn_sound (h.pick _) _
  · exact next_sound (h.pick _).pass

theorem turnAct_sound {s : State} (h : s.Inv) : (turnAct s).Sound := by
  unfold Machine.turnAct
  split
  · exact controlAct_sound h
  · exact engineAct_sound h _
  · exact h
  · exact inputAct_sound h
  · exact listAct_sound h _ _
  · exact next_sound (h.swapTo _).pass
  · exact timedAct_sound h

theorem State.Inv.of_noticeEvent {s t : State} (h : s.Inv) (ht : noticeEvent s = some t) : t.Inv := by
  obtain ⟨x, -, hx⟩ := List.exists_of_findSome?_eq_some ht
  obtain ⟨e, -, rfl⟩ := Option.map_eq_some_iff.mp hx
  exact h.modQueue ..

theorem State.Inv.of_debugOver {s t : State} (h : s.Inv) (ht : debugOver s = some t) : t.Inv := by
  obtain ⟨x, -, rfl⟩ := Option.map_eq_some_iff.mp ht
  exact h.modTaskSame _

theorem State.Inv.of_entryDiffers {s t : State} (h : s.Inv) (ht : entryDiffers s = some t) : t.Inv := by
  obtain ⟨e, -, rfl⟩ := Option.map_eq_some_iff.mp ht
  exact (h.upd ((Core.Keeps.refl _).fields ..)).silentError _

/-- What firmware notices changes tasks and their queues, and a replay's difference is a trap. -/
theorem State.Inv.of_noticed {s t : State} (h : s.Inv) (ht : noticed s = some t) : t.Inv := by
  rcases Option.or_eq_some_iff.mp ht with ht | ⟨-, ht⟩
  · obtain ⟨x, -, rfl⟩ := Option.map_eq_some_iff.mp ht
    exact h.judgeStart x
  rcases Option.or_eq_some_iff.mp ht with ht | ⟨-, ht⟩
  · exact h.of_noticeEvent ht
  rcases Option.or_eq_some_iff.mp ht with ht | ⟨-, ht⟩
  · exact h.of_debugOver ht
  · exact h.of_entryDiffers ht

theorem nextAct_sound {s : State} (h : s.Inv) : (nextAct s).Sound := by
  unfold Machine.nextAct
  split
  next ht => exact next_sound (h.of_noticed ht)
  · split
    · exact eventTurn_sound h _
    · exact turnAct_sound h

theorem headOut_sound {s : State} (h : s.Inv) {e : Engine} {o : Out} (ho : headOut exec e s = some o) : Sound o := by
  have ha := engineAct_sound h e
  unfold Machine.headOut at ho
  generalize engineAct e s = a at ha ho
  cases a with
  | run i t => cases ho
  | issue l i t =>
    cases ho
    exact exec_sound ha i
  | own o | guard l o =>
    cases ho
    exact ha

/-- A fault that comes before a word's trap is one that an engine's head gives (R360). -/
theorem outrank_sound {s : State} (h : s.Inv) {o : Out} (ho : Sound o) (l : List Engine) :
    Sound (outrank exec l s o) := by
  unfold Machine.outrank
  split
  · cases hf : headFault exec l s with
    | none => exact ho
    | some f =>
      obtain ⟨e, -, he⟩ := List.exists_of_findSome?_eq_some hf
      exact headOut_sound h (Option.filter_eq_some_iff.mp he).1
  · exact ho

/-! ### The invariant, operation by operation: the step -/

theorem step_sound {s : State} (h : s.Inv) : Sound (step s) := by
  have ha := nextAct_sound h
  unfold Machine.step
  generalize nextAct s = a at ha
  cases a with
  | run i t => exact exec_sound ha i
  | issue l i t => exact outrank_sound h (exec_sound ha i) l
  | own o => exact ha
  | guard l o => exact outrank_sound h ha l

/-- Settles O60: each function of the model that makes a next state keeps the invariant, `exec` from case to case. -/
theorem stepKeepsInvariant : Obligations.StepKeepsInvariant := fun _ t h ht => (step_sound h).inv t ht

end Sys2Proof.Machine

namespace Sys2Proof.Machine

/-! ### Memories of states whose cores keep their numbers and benches -/

/-- Every byte reads as before when each core keeps its number and its bench, and what the package shares stands. -/
theorem MemSame.of_map {s t : State} (f : Core → Core) (hid : t.core.id = s.core.id)
    (hbench : t.core.bench = s.core.bench) (hothers : t.others = s.others.map f) (hsys : t.sys = s.sys)
    (hf : ∀ c, (f c).id = c.id ∧ (f c).bench = c.bench) : MemSame s t := by
  have hbenches : ∀ k, (t.coreAt k).map (·.bench) = (s.coreAt k).map (·.bench) := fun k => by
    have hcomp : ((fun c : Core => c.id.num == k) ∘ f) = fun c => c.id.num == k := funext fun c => by simp [(hf c).1]
    unfold State.coreAt
    rw [hid, hothers, List.find?_map, hcomp]
    split
    · simp [hbench]
    · cases s.others.find? fun c => c.id.num == k <;> simp [(hf _).2]
  intro sp a
  cases sp with
  | bench k =>
    have hk := hbenches k
    simp only [State.mem]
    cases hs : s.coreAt k <;> cases ht : t.coreAt k <;> simp_all
  | _ => simp [State.mem, hsys]

theorem MemSame.trans {s t u : State} (h : MemSame s t) (k : MemSame t u) : MemSame s u :=
  fun sp a => (k sp a).trans (h sp a)

/-! ### What settling leaves (R14, R144) -/

/-- The core's number, tick, control state and bench stand. -/
structure Core.SameControl (b c : Core) : Prop where
  id : c.id = b.id
  tick : c.tick = b.tick
  ctl : c.ctl = b.ctl
  bench : c.bench = b.bench

theorem Core.SameControl.refl (c : Core) : c.SameControl c := ⟨rfl, rfl, rfl, rfl⟩

theorem Core.SameControl.trans {b c d : Core} (h : b.SameControl c) (k : c.SameControl d) : b.SameControl d :=
  ⟨k.id.trans h.id, k.tick.trans h.tick, k.ctl.trans h.ctl, k.bench.trans h.bench⟩

theorem Core.SameControl.setEng (c : Core) (e : Engine) (f : Eng → Eng) : c.SameControl (c.setEng e f) := by
  constructor <;> simp

theorem Core.SameControl.retireOne (c : Core) (e : Engine) (w : Issued) : c.SameControl (c.retireOne e w) := by
  unfold Core.retireOne
  cases w.frees <;> exact ⟨rfl, rfl, rfl, rfl⟩

/-- A retirement changes tokens and landing slots alone, no engine. -/
theorem Core.eng_retireOne (c : Core) (e e' : Engine) (w : Issued) : (c.retireOne e w).eng e' = c.eng e' := by
  unfold Core.retireOne
  cases w.frees <;> cases e' <;> rfl

/-- Retirements of one engine, one after the other. -/
theorem Core.foldl_retireOne (e : Engine) (l : List Issued) (c : Core) :
    let d := l.foldl (fun c w => c.retireOne e w) c
    c.SameControl d ∧ ∀ e', d.eng e' = c.eng e' := by
  dsimp only
  induction l generalizing c with
  | nil => exact ⟨.refl c, fun _ => rfl⟩
  | cons w l ih =>
    obtain ⟨hsame, heng⟩ := ih (c.retireOne e w)
    exact ⟨(Core.SameControl.retireOne c e w).trans hsame, fun e' => (heng e').trans (c.eng_retireOne e e' w)⟩

theorem Core.SameControl.retireAll (c : Core) (e : Engine) : c.SameControl (c.retireAll e) := by
  unfold Core.retireAll
  exact (c.foldl_retireOne e _).1.trans (.setEng _ e _)

/-- The issued words of one engine retire in order, up to the first that waits or is early (R144, R293). -/
theorem Core.issued_retireAll (c : Core) (e e' : Engine) : ((c.retireAll e).eng e').issued =
    if e' = e then (c.eng e).issued.dropWhile (fun w => !w.waits && !w.early c.tick) else (c.eng e').issued := by
  unfold Core.retireAll
  dsimp only
  rw [Core.eng_setEng, (c.foldl_retireOne e _).2, (c.foldl_retireOne e _).2]
  split <;> rfl

theorem Core.SameControl.retireEach (l : List Engine) (c : Core) : c.SameControl (l.foldl Core.retireAll c) := by
  induction l generalizing c with
  | nil => exact .refl c
  | cons e l ih => exact (Core.SameControl.retireAll c e).trans (ih _)

theorem Core.SameControl.settle (c : Core) : c.SameControl c.settle := by
  have h := Core.SameControl.retireEach [.load, .matrix, .vector, .copy] c
  unfold Core.settle
  generalize [Engine.load, .matrix, .vector, .copy].foldl Core.retireAll c = d at h ⊢
  exact ⟨h.id, h.tick, h.ctl, h.bench⟩

/-- Settling retires the words of every engine but the stream engine. -/
theorem Core.issued_settle (c : Core) {e : Engine} (he : e ≠ .stream) : (c.settle.eng e).issued =
    (c.eng e).issued.dropWhile fun w => !w.waits && !w.early c.tick := by
  have retired : (([Engine.load, .matrix, .vector, .copy].foldl Core.retireAll c).eng e).issued =
      (c.eng e).issued.dropWhile fun w => !w.waits && !w.early c.tick := by
    simp only [List.foldl_cons, List.foldl_nil, Core.issued_retireAll, (Core.SameControl.retireAll _ _).tick]
    cases e <;> simp at he ⊢
  rw [← retired]
  unfold Core.settle
  generalize [Engine.load, .matrix, .vector, .copy].foldl Core.retireAll c = d
  cases e with
  | stream => exact absurd rfl he
  | _ => rfl

end Sys2Proof.Machine

namespace Sys2Proof.Machine

/-! ### Entering the handler (R14, R15, R35, R362) -/

/-- The bits of the ENUL that three flags make (R15). -/
theorem enul_bits (a b c : Bool) :
    let n (x : Bool) : Nat := if x then 1 else 0
    let e := BitVec.ofNat 3 (n a + 2 * n b + 4 * n c)
    e.getLsbD 0 = a ∧ e.getLsbD 1 = b ∧ e.getLsbD 2 = c := by
  revert a b c
  decide

/-- What a handler's entry leaves of the core, outside a nest. -/
structure Enters (t : TrapRec) (c d : Core) : Prop where
  id : d.id = c.id
  bench : d.bench = c.bench
  issued : ∀ e, e ≠ .stream → (d.eng e).issued = (c.eng e).issued.dropWhile fun w => !w.waits && !w.early c.tick
  companion : d.stall.companion = none
  ctl : ∃ settling wpskip prog, d.ctl = { c.ctl with
    bank1 := true, settling, pend := [], awaiting := false, arrival := none, posted := none
    pcq := d.queueAt (BitVec.ofNat 48 (4 * c.ctl.regs.tvec.toNat))
    regs := { c.ctl.regs with
      ecause := t.cause, einfo := t.info, eaddr := t.addr, origin := t.origin, wpskip, prog
      epc0 := c.ctl.pcq.q0.addr, epc1 := c.ctl.pcq.q1.addr, epc2 := c.ctl.pcq.q2.addr
      enul := d.ctl.regs.enul } }
  enul0 : d.ctl.regs.enul.getLsbD 0 = c.ctl.pcq.q0.nul
  enul1 : d.ctl.regs.enul.getLsbD 1 = c.ctl.pcq.q1.nul
  enul2 : d.ctl.regs.enul.getLsbD 2 = c.ctl.pcq.q2.nul

theorem Core.saveNest_none {c : Core} (h : c.ctl.nest = none) : c.saveNest = c := by
  rw [Core.saveNest, h]

theorem Eng.issued_stopGath (q : Queues) (g : Eng) : (g.stopGath q).issued = g.issued := by
  unfold Eng.stopGath
  split <;> rfl

theorem enterHandler_enters (t : TrapRec) {s : State} (hn : s.core.ctl.nest = none) :
    Enters t s.core (enterHandler t s).core := by
  have hs := Core.SameControl.settle s.core
  have hi := fun e => s.core.issued_settle (e := e)
  unfold enterHandler
  rw [State.upd_core, Core.saveNest_none hn]
  generalize s.core.settle = c at hs hi
  obtain ⟨hid, -, hctl, hbench⟩ := hs
  obtain ⟨b0, b1, b2⟩ := enul_bits c.ctl.pcq.q0.nul c.ctl.pcq.q1.nul c.ctl.pcq.q2.nul
  refine ⟨hid, hbench, fun e he => ?_, rfl, ?_, hctl ▸ b0, hctl ▸ b1, hctl ▸ b2⟩
  · rw [← hi e he]
    cases e with
    | load => exact Eng.issued_stopGath ..
    | _ => rfl
  · rw [← hctl]
    exact ⟨_, _, _, rfl⟩

/-! ### The gang of a core that takes a cause (R149, R362) -/

/-- The stop that a trap asks of another core of its gang. -/
def Core.askStop (c d : Core) : Core :=
  if sameGang c d && decide (d.ctl.run = .running) && d.stall.companion.isNone && (!d.ctl.bank1 || d.released) then
    { d with stall := { d.stall with
      companion := some (BitVec.ofNat 16 c.ctl.regs.grank.toNat, c.gtick + 8) } }
  else d

theorem State.stopGang_eq (s : State) : s.stopGang = { s with others := s.others.map s.core.askStop } := rfl

@[simp] theorem State.stopGang_core (s : State) : s.stopGang.core = s.core := rfl

theorem Core.askStop_same (c d : Core) : (c.askStop d).id = d.id ∧ (c.askStop d).bench = d.bench := by
  unfold Core.askStop
  split <;> exact ⟨rfl, rfl⟩

/-- A running core of the gang in bank 0 that no stop awaits is asked to stop. -/
theorem Core.askStop_running {c d : Core} (hg : sameGang c d = true) (hr : d.ctl.run = .running)
    (hc : d.stall.companion = none) (hb : d.ctl.bank1 = false) :
    (c.askStop d).stall.companion = some (BitVec.ofNat 16 c.ctl.regs.grank.toNat, c.gtick + 8) := by
  simp [Core.askStop, hg, hr, hc, hb]

theorem MemSame.stopGang (s : State) : MemSame s s.stopGang :=
  .of_map s.core.askStop rfl rfl rfl rfl s.core.askStop_same

/-! ### A cause taken in bank 0, outside a hook and a nest -/

theorem inUser_iff {s : State} : inUser s = true ↔ s.core.ctl.bank1 = false ∧ s.core.ctl.regs.hook = false := by
  simp [inUser]

/-- In bank 0 outside a hook a cause enters the handler, and all but 0x16 stop the gang. -/
theorem takeTrap_inUser (t : TrapRec) {s : State} (hu : inUser s = true) :
    takeTrap t s = if t.cause = 0x16 then enterHandler t s else (enterHandler t s).stopGang := by
  obtain ⟨hb, hh⟩ := inUser_iff.mp hu
  simp [takeTrap, hb, hh]

theorem takeTrap_core (t : TrapRec) {s : State} (hu : inUser s = true) :
    (takeTrap t s).core = (enterHandler t s).core := by
  rw [takeTrap_inUser t hu]
  split
  · rfl
  · exact State.stopGang_core _

theorem takeTrap_enters (t : TrapRec) {s : State} (hu : inUser s = true) (hn : s.core.ctl.nest = none) :
    Enters t s.core (takeTrap t s).core := takeTrap_core t hu ▸ enterHandler_enters t hn

theorem MemSame.pass {s t : State} (h : MemSame s t) : MemSame s t.pass := fun sp a => by
  rw [State.pass_mem, h sp a]

theorem takeTrap_memSame (t : TrapRec) {s : State} (hu : inUser s = true) (hn : s.core.ctl.nest = none) :
    MemSame s (takeTrap t s) := by
  have h := enterHandler_enters t hn
  have entered : MemSame s (enterHandler t s) := .of_eq h.id h.bench rfl rfl
  rw [takeTrap_inUser t hu]
  split
  · exact entered
  · exact entered.trans (.stopGang _)

/-- The cause, the place of the stream and the handler's start stand in the core that has entered it. -/
theorem takeTrap_handles (t : TrapRec) {s : State} (hu : inUser s = true) (hn : s.core.ctl.nest = none) :
    Handles t s.core.ctl.pcq s (takeTrap t s).pass := by
  obtain ⟨-, -, hissued, -, ⟨settling, wpskip, prog, hctl⟩, he0, he1, he2⟩ := takeTrap_enters t hu hn
  have hq : (takeTrap t s).core.ctl.pcq =
      (takeTrap t s).core.queueAt (BitVec.ofNat 48 (4 * s.core.ctl.regs.tvec.toNat)) := by rw [hctl]
  constructor
  case bank | regs0 | regs1 | cause | info | addr | origin | epc0 | epc1 | epc2 | arrival =>
    rw [State.pass_core, hctl]
  case enul0 => exact he0
  case enul1 => exact he1
  case enul2 => exact he2
  case pc => rw [State.pass_core, hq]; rfl
  case pc1 => rw [State.pass_core, hq]; exact ⟨rfl, rfl⟩
  case done =>
    intro e he w hw
    rw [State.pass_core, hissued e he] at hw
    have := List.head?_dropWhile_not (fun w : Issued => !w.waits && !w.early s.core.tick) (s.core.eng e).issued
    rw [hw] at this
    exact (Bool.eq_false_or_eq_true w.waits).imp_right (by simpa using this)
  case mem => exact (takeTrap_memSame t hu hn).pass
  case gang =>
    intro hcause d hd hgang hrun hfree hbank
    have hother : (takeTrap t s).others = s.others.map (takeTrap t s).core.askStop := by
      rw [takeTrap_inUser t hu, if_neg hcause, State.stopGang_eq]
      rfl
    have hsame : sameGang (takeTrap t s).core d = true := by rw [← hgang]; unfold sameGang; rw [hctl]
    refine ⟨_, by rw [State.pass_others, hother]; exact List.mem_map_of_mem hd, (Core.askStop_same _ d).1, ?_⟩
    rw [Core.askStop_running hsame hrun hfree hbank, State.pass_core, hctl]

end Sys2Proof.Machine

namespace Sys2Proof.Machine

/-! ### Causes taken at a word boundary (R13, R55, R56, R362, R392) -/

/-- What a trap leaves does not depend on the control state before it, but for the banks and the special registers. -/
theorem Handles.of_ctl {c : TrapRec} {q : PcQueue} {s u : State} (f : Ctl → Ctl) (h : Handles c q (s.updCtl f) u)
    (h0 : (f s.core.ctl).b0 = s.core.ctl.b0) (h1 : (f s.core.ctl).b1 = s.core.ctl.b1)
    (hr : (f s.core.ctl).regs = s.core.ctl.regs) : Handles c q s u where
  __ := h
  regs0 := h.regs0.trans h0
  regs1 := h.regs1.trans h1
  pc := by rw [h.pc, State.updCtl_core_ctl, hr]
  mem := MemSame.trans (t := s.updCtl f) (.of_eq rfl rfl rfl rfl) h.mem
  gang hc d hd hg hrun hfree hb := by
    have := h.gang hc d hd (by rw [← hg]; unfold sameGang; rw [State.updCtl_core_ctl, hr]) hrun hfree hb
    rwa [State.updCtl_core_ctl, hr] at this

/-- Nor does it depend on the stall state. -/
theorem Handles.of_stall {c : TrapRec} {q : PcQueue} {s u : State} {f : Stall → Stall}
    (h : Handles c q (s.updStall f) u) : Handles c q s u :=
  { h with mem := MemSame.trans (t := s.updStall f) (.of_eq rfl rfl rfl rfl) h.mem }

/-- The fields of a bad word's EINFO do not overflow (R56). -/
theorem badWordInfo_toNat (w : Word) (r : BitVec 8) :
    (badWordInfo w r).toNat = r.toNat + w.toNat / 2 ^ 29 * 2 ^ 8 + w.toNat * 2 ^ 32 := by
  unfold badWordInfo
  rw [BitVec.toNat_ofNat, Nat.mod_eq_of_lt]
  omega

theorem engNum_toNat (e : Engine) : (BitVec.ofNat 3 (engNum e)).toNat = engNum e := by
  cases e <;> rfl

theorem exec_illegalWord_control (w : Word) (r : BitVec 8) (s : State) : exec (.illegalWord none w r) s =
    .next (takeTrap { cause := 0x01, info := badWordInfo w r, addr := s.core.nowAddr } s).pass := rfl

theorem exec_illegalWord_engine {e : Engine} {x : Entry} {rest : List QItem} {s : State} (w : Word) (r : BitVec 8)
    (hq : (s.core.eng e).queue = .word x :: rest) : exec (.illegalWord (some e) w r) s =
    .next (takeTrap { cause := 0x01, info := badWordInfo w r, addr := x.addr
                      origin := BitVec.ofNat 3 (engNum e) } s).pass := by
  change execIllegalWord (some e) w r s = _
  rw [execIllegalWord, hq]

theorem exec_fetchFault (a : VAddr) (s : State) : exec (.fetchFault a) s =
    .next (takeTrap { cause := 0x04, info := 3, addr := a } s).pass := rfl

theorem exec_breakRequest (s : State) : exec .breakRequest s =
    .next (takeTrap { cause := 0x17, info := 0 } (s.updCtl fun c => { c with breakReq := false })).pass := rfl

theorem exec_trapEntry {s : State} {c : TrapRec} (hc : s.core.ctl.posted = some c) : exec .trapEntry s =
    .next (takeTrap c (s.updCtl fun c => { c with posted := none })).pass := by
  change execTrapEntry s = _
  rw [execTrapEntry, hc]

theorem exec_companionStop {s : State} {rank : BitVec 16} {t : Nat} (hc : s.core.stall.companion = some (rank, t)) :
    exec .companionStop s =
      .next (takeTrap { cause := 0x16, info := BitVec.ofNat 64 (rank.toNat + 2 ^ 32), origin := 7 }
        (s.updStall fun x => { x with companion := none })).pass := by
  change execCompanionStop s = _
  rw [execCompanionStop, hc]

/-- Settles O27: each boundary event is a cause taken in bank 0, which `takeTrap_handles` describes. -/
theorem boundaryTrapsEnterHandler : Obligations.BoundaryTrapsEnterHandler := by
  intro s hu _ hn
  have taken := fun c => takeTrap_handles c hu hn
  refine ⟨fun w r => ?_, fun e x rest r hq => ?_, fun a => ?_, ?_, fun c hc => ?_, fun rank t ht => ?_⟩
  · refine ⟨_, exec_illegalWord_control w r s, _, taken _, rfl, ?_, rfl, badWordInfo_toNat w r⟩
    simp [Core.nowAddr, hn]
  · exact ⟨_, exec_illegalWord_engine x.word r hq, _, taken _, rfl, rfl, engNum_toNat e, badWordInfo_toNat x.word r⟩
  · exact ⟨_, exec_fetchFault a s, taken _⟩
  · have hv : inUser (s.updCtl fun c => { c with breakReq := false }) = true := hu
    obtain ⟨-, -, -, -, ⟨_, _, _, hctl⟩, -⟩ := takeTrap_enters { cause := 0x17, info := 0 } hv hn
    exact ⟨_, exec_breakRequest s, by rw [State.pass_core, hctl]; rfl, 0,
      .of_ctl _ (takeTrap_handles _ hv hn) rfl rfl rfl⟩
  · have hv : inUser (s.updCtl fun c => { c with posted := none }) = true := hu
    obtain ⟨-, -, -, -, ⟨_, _, _, hctl⟩, -⟩ := takeTrap_enters c hv hn
    exact ⟨_, exec_trapEntry hc, .of_ctl _ (takeTrap_handles c hv hn) rfl rfl rfl, by rw [State.pass_core, hctl]⟩
  · have hv : inUser (s.updStall fun x => { x with companion := none }) = true := hu
    exact ⟨_, exec_companionStop ht, (takeTrap_enters _ hv hn).companion, .of_stall (takeTrap_handles _ hv hn)⟩

end Sys2Proof.Machine

namespace Sys2Proof.Machine

/-! ### A core that stands for a tick (R150) -/

/-- A waiting tick is a tick; of the stall state it moves at most the dead-stop count. -/
theorem Core.waitTick_eq (c : Core) : ∃ stall : Stall, stall.stopped = c.stall.stopped ∧
    c.waitTick = { c.tickOn with stall } := by
  unfold Core.waitTick
  dsimp only
  split
  · exact ⟨{ c.tickOn.stall with progress := c.tickOn.tick }, c.tickOn_stopped, rfl⟩
  · exact ⟨c.tickOn.stall, c.tickOn_stopped, rfl⟩

theorem CtlFrame.ticked (s : State) : CtlFrame [] [] s s.ticked := by
  obtain ⟨stall, hstop, hcore⟩ := s.core.waitTick_eq
  have hcore : s.ticked.core = { s.core.tickOn with stall } := hcore
  have hsd : s.core.stoodStill = false → s.ticked.core.sd = s.core.sd := fun h => by
    rw [hcore]
    exact Core.tickOn_sd _ (Core.slips_of_stoodStill h)
  exact {
    reg := ⟨fun r _ => by rw [hcore]; rfl, fun r _ => by rw [hcore]; rfl, by rw [hcore]; rfl,
      by rw [hcore]; split <;> rfl⟩
    unit := ⟨fun e => by rw [hcore]; cases e <;> rfl, by rw [hcore]; rfl, by rw [hcore]; rfl, by rw [hcore]; rfl,
      by rw [hcore]; rfl, by rw [hcore]; rfl, hsd, by rw [hcore]; exact hstop⟩
    regs := by rw [hcore]; rfl
    vis := by rw [hcore]; rfl
    q := by rw [hcore]; rfl
    jig := fun e => by rw [hcore]; exact ⟨e, rfl⟩
    others := rfl
    sys := rfl
    mem := .of_eq (by rw [hcore]; rfl) (by rw [hcore]; rfl) rfl rfl }

/-- Arriving somewhere is no effect of its own. -/
theorem CtlFrame.arrives (s : State) (a : Option Arrival) :
    CtlFrame [] [] s (s.updCtl fun c => { c with arrival := a }) where
  reg := ⟨fun _ _ => rfl, fun _ _ => rfl, rfl, by split <;> rfl⟩
  unit := ⟨fun e => by cases e <;> rfl, rfl, rfl, rfl, rfl, rfl, fun _ => rfl, rfl⟩
  regs := rfl
  vis := rfl
  q := rfl
  jig := fun e => ⟨e, rfl⟩
  others := rfl
  sys := rfl
  mem := .of_eq rfl rfl rfl rfl

/-! ### Back to bank 0 (R16, R35) -/

/-- What a return reads of a core stands: its tick, the banks, EPC0 to EPC2 and ENUL, HOOK, the held causes. -/
structure Core.SameReturn (b c : Core) : Prop where
  id : c.id = b.id
  tick : c.tick = b.tick
  bench : c.bench = b.bench
  q : c.q = b.q
  b0 : c.ctl.b0 = b.ctl.b0
  b1 : c.ctl.b1 = b.ctl.b1
  epc : c.ctl.regs.epcQueue = b.ctl.regs.epcQueue
  hook : c.ctl.regs.hook = b.ctl.regs.hook
  held16 : c.ctl.held16 = b.ctl.held16
  held17 : c.ctl.held17 = b.ctl.held17

theorem Core.SameReturn.refl (c : Core) : c.SameReturn c := ⟨rfl, rfl, rfl, rfl, rfl, rfl, rfl, rfl, rfl, rfl⟩

theorem Core.SameReturn.trans {b c d : Core} (h : b.SameReturn c) (k : c.SameReturn d) : b.SameReturn d :=
  ⟨k.id.trans h.id, k.tick.trans h.tick, k.bench.trans h.bench, k.q.trans h.q, k.b0.trans h.b0, k.b1.trans h.b1,
    k.epc.trans h.epc, k.hook.trans h.hook, k.held16.trans h.held16, k.held17.trans h.held17⟩

/-- The exemption of R368 changes WPSKIP, its note and one word of a queue alone. -/
theorem Core.SameReturn.exempt (c : Core) : c.SameReturn c.exempt := by
  unfold Core.exempt
  split
  · exact .refl c
  · dsimp only
    split
    · constructor <;> simp [CtlRegs.epcQueue]
    · exact ⟨rfl, rfl, rfl, rfl, rfl, rfl, rfl, rfl, rfl, rfl⟩

theorem Core.gtick_exempt (c : Core) : c.exempt.gtick = c.gtick := by
  unfold Core.exempt
  split
  · rfl
  · dsimp only
    split <;> simp

theorem Core.SameReturn.releaseRft (c : Core) (v : Nat) (delayed : Bool) : c.SameReturn (c.releaseRft v delayed) := by
  unfold Core.releaseRft
  split <;> exact ⟨rfl, rfl, rfl, rfl, rfl, rfl, rfl, rfl, rfl, rfl⟩

/-- A core's return to bank 0 that takes a tick: its place is that of the trap-state registers, a held cause is
posted, 0x16 first unless a hook runs. -/
structure Core.Resumes (c d : Core) : Prop where
  bank1 : d.ctl.bank1 = false
  b0 : d.ctl.b0 = c.ctl.b0
  b1 : d.ctl.b1 = c.ctl.b1
  q : d.q = c.q
  pcq : d.ctl.pcq = c.ctl.regs.epcQueue
  posted : d.ctl.posted = if c.ctl.regs.hook then c.ctl.held17.head? else c.ctl.held16.or c.ctl.held17.head?
  held16 : d.ctl.held16 = if c.ctl.regs.hook then c.ctl.held16 else none
  held17 : d.ctl.held17 = if !c.ctl.regs.hook && c.ctl.held16.isSome then c.ctl.held17 else c.ctl.held17.tail
  arrival : d.ctl.arrival = none
  tick : d.tick = c.tick + 1
  id : d.id = c.id
  bench : d.bench = c.bench

theorem Core.SameReturn.resumes {b c : Core} (h : b.SameReturn c) {n : Nat} (hn : n = b.tick + 1) :
    b.Resumes { c.toBank0 with tick := n } where
  bank1 := rfl
  b0 := h.b0
  b1 := h.b1
  q := h.q
  pcq := h.epc
  posted := by rw [← h.hook, ← h.held16, ← h.held17]; rfl
  held16 := by rw [← h.hook, ← h.held16]; rfl
  held17 := by rw [← h.hook, ← h.held16, ← h.held17]; rfl
  arrival := rfl
  tick := hn
  id := h.id
  bench := h.bench

/-- A core that leaves its RFT resumes on the gang tick of the release (R112). -/
theorem Core.SameReturn.leaveRft {b c : Core} (h : b.SameReturn c) (v : Nat) :
    b.Resumes (c.leaveRft v) := by
  have hv : c.SameReturn { c with gtick := v } := ⟨rfl, rfl, rfl, rfl, rfl, rfl, rfl, rfl, rfl, rfl⟩
  exact ((h.trans hv).trans (.exempt _)).resumes (congrArg (· + 1) h.tick)

theorem Core.gtick_leaveRft (c : Core) (v : Nat) : (c.leaveRft v).gtick = v :=
  Core.gtick_exempt { c with gtick := v }

/-! ### RFT (R42, R112, R298) -/

/-- The gang tick that a core holds at its RFT: that of its arrival, or the present one. -/
def Core.returnTick (c : Core) : Nat := if c.atRft then c.heldTick else c.gtick

/-- The core stands at its RFT. -/
def State.atReturn (s : State) : State :=
  s.updCtl fun c => { c with arrival := some (.rft s.core.returnTick none) }

/-- A core that waits at RFT already stands there as it is. -/
theorem State.atReturn_of_atRft {s : State} (h : s.core.atRft = true) : s.atReturn = s := by
  obtain ⟨held, ha⟩ : ∃ held, s.core.ctl.arrival = some (.rft held none) := by
    unfold Core.atRft at h
    grind
  have ht : s.core.returnTick = held := by simp [Core.returnTick, h, Core.heldTick, ha]
  unfold State.atReturn
  rw [ht, ← ha]
  rfl

theorem State.atReturn_eq (s : State) : s.atReturn =
    if s.core.atRft then s else s.updCtl fun c => { c with arrival := some (.rft s.core.gtick none) } := by
  split
  next h => exact State.atReturn_of_atRft h
  next h => rw [State.atReturn, Core.returnTick, if_neg h]

theorem badEpc_iff (r : CtlRegs) : r.badEpc = true ↔
    r.epc0.toNat % 4 ≠ 0 ∨ r.epc1.toNat % 4 ≠ 0 ∨ r.epc2.toNat % 4 ≠ 0 := by
  simp [CtlRegs.badEpc, or_assoc]

theorem exec_rft_bank0 {s : State} (hb : s.core.ctl.bank1 = false) :
    exec .rft s = .next (takeTrap (access 0x02 .rft 0 0 0) s).pass := by
  change execRft s = _
  simp [execRft, hb]

theorem exec_rft_released {s : State} {h v : Nat} (hb : s.core.ctl.bank1 = true)
    (ha : s.core.ctl.arrival = some (.rft h (some v))) :
    exec .rft s = .next (s.upd (Core.leaveRft v)).pass := by
  change execRft s = _
  simp [execRft, hb, ha]

/-- An RFT that no release has reached: a double fault, a return within a hook, a re-plumb or a wait. -/
theorem exec_rft_arrives {s : State} (hb : s.core.ctl.bank1 = true)
    (ha : ∀ h v, s.core.ctl.arrival ≠ some (.rft h (some v))) : exec .rft s = .next (
      if s.core.ctl.regs.badEpc then (doubleFault 0x03 rftWord s).pass
      else if s.core.ctl.regs.hook then (s.upd fun c => { c.toBank0 with tick := c.tick + 1 }).pass
      else if rftReady s.atReturn then ((releaseRfts s.atReturn).upd (Core.leaveRft (releaseTick s.atReturn))).pass
      else s.atReturn.ticked) := by
  change execRft s = _
  unfold execRft
  rw [hb, Bool.not_true, if_neg Bool.false_ne_true, State.atReturn_eq]
  split
  next h v hrel => exact absurd hrel (ha h v)
  · simp only [apply_ite Host.Outcome.next]

/-- A double fault stops the core in its bank (R35). -/
theorem doubleFault_ctl (cause : Nat) (w : Word) (s : State) :
    (doubleFault cause w s).core.ctl = { s.core.ctl with run := .dead } := by
  unfold doubleFault
  dsimp only
  split <;> rfl

end Sys2Proof.Machine

namespace Sys2Proof.Machine

/-! ### The release of a re-plumb (R112) -/

/-- Arriving changes no gang. -/
theorem State.gangOthers_atReturn (s : State) : s.atReturn.gangOthers = s.gangOthers := rfl

theorem State.ends_atReturn (s : State) : s.atReturn.core.ends = s.core.ends := rfl

/-- A core alone in its gang that runs and does not end its task is released at once. -/
theorem rftReady_alone {s : State} (he : s.core.ends = false) (hg : s.gangOthers = [])
    (hr : s.core.ctl.run = .running) : rftReady s.atReturn = true := by
  have hat : s.atReturn.core.atRft = true := by
    simp [Core.atRft, State.atReturn, hr]
  simp [rftReady, hat, s.ends_atReturn, he, s.gangOthers_atReturn, hg]

/-- No re-plumb is released while a core of the gang that has not retired is elsewhere, or a cause ends the task. -/
theorem rftReady_blocked {s : State} (h : s.core.ends = true ∨ ∃ c ∈ s.gangOthers, c.ctl.run ≠ .retired ∧
    (c.preempted = false ∨ c.ctl.run ≠ .running) ∧ (c.atRft = false ∨ c.ends = true)) : rftReady s.atReturn = false := by
  rw [Bool.eq_false_iff]
  intro hready
  simp only [rftReady, s.ends_atReturn, s.gangOthers_atReturn, Bool.and_eq_true, Bool.or_eq_true, Bool.not_eq_true',
    List.all_eq_true, decide_eq_true_eq] at hready
  obtain ⟨⟨hends, -⟩, hall⟩ := hready
  rcases h with h | ⟨c, hc, hretired, hpre, hrft⟩
  · simp [h] at hends
  · rcases hall c hc with (⟨hat, hend⟩ | ⟨hp, hrun⟩) | hret
    · simp [hat, hend] at hrft
    · simp [hp, hrun] at hpre
    · exact hretired hret

/-- The acting core of a gang that is released. -/
theorem releaseRfts_core {s : State} (h : s.core.atRft = true) :
    ∃ delayed, (releaseRfts s).core = s.core.releaseRft (releaseTick s) delayed := by
  refine ⟨!s.core.delayOver || s.gangOthers.any fun c => !c.delayOver, ?_⟩
  simp [releaseRfts, State.onGang, h]

/-- The other cores of a gang that is released keep their numbers and benches. -/
theorem releaseRfts_rest (s : State) : (releaseRfts s).sys = s.sys ∧ ∃ f : Core → Core,
    (releaseRfts s).others = s.others.map f ∧ ∀ c, (f c).id = c.id ∧ (f c).bench = c.bench := by
  refine ⟨?_, _, rfl, fun c => ?_⟩
  · unfold releaseRfts State.onGang
    dsimp only
    split <;> rfl
  · split
    · exact ⟨(Core.SameReturn.releaseRft c ..).id, (Core.SameReturn.releaseRft c ..).bench⟩
    · exact ⟨rfl, rfl⟩

/-- A gang of one is released 64 gang ticks past the tick it holds. -/
theorem releaseTick_alone {s : State} (hg : s.gangOthers = []) :
    releaseTick s.atReturn = s.core.returnTick + 64 := by
  have hg : s.atReturn.gangOthers = [] := hg
  have ht : s.atReturn.core.heldTick = s.core.returnTick := rfl
  rw [releaseTick, hg, ht]
  rfl

theorem Core.SameReturn.atReturn (s : State) : s.core.SameReturn s.atReturn.core :=
  ⟨rfl, rfl, rfl, rfl, rfl, rfl, rfl, rfl, rfl, rfl⟩

/-! ### RFT, case by case -/

/-- The core resumes on a gang tick, and every byte stands. -/
def State.ResumesAt (v : Nat) (s u : State) : Prop := s.core.Resumes u.core ∧ MemSame s u ∧ u.core.gtick = v

/-- A change of the acting core alone that resumes it. -/
theorem Core.Resumes.upd {s : State} {f : Core → Core} (h : s.core.Resumes (f s.core)) :
    s.ResumesAt (f s.core).gtick (s.upd f).pass := by
  have hm : MemSame s (s.upd f) := .of_eq h.id h.bench rfl rfl
  exact ⟨h, hm.pass, rfl⟩

theorem rft_released {s : State} {h v : Nat} (hb : s.core.ctl.bank1 = true)
    (ha : s.core.ctl.arrival = some (.rft h (some v))) : ∃ u, exec .rft s = .next u ∧ s.ResumesAt v u := by
  have hu := ((Core.SameReturn.refl s.core).leaveRft v).upd
  rw [Core.gtick_leaveRft] at hu
  exact ⟨_, exec_rft_released hb ha, hu⟩

section
variable {s : State} (hb : s.core.ctl.bank1 = true) (ha : ∀ h v, s.core.ctl.arrival ≠ some (.rft h (some v)))
include hb ha

/-- With an EPC that is no word address RFT is a double fault (R42). -/
theorem rft_badEpc (hbad : s.core.ctl.regs.badEpc = true) :
    ∃ u, exec .rft s = .next u ∧ u.core.ctl = { s.core.ctl with run := .dead } :=
  ⟨_, exec_rft_arrives hb ha, by rw [if_pos hbad, State.pass_core, doubleFault_ctl]⟩

variable (hgood : s.core.ctl.regs.badEpc = false)
include hgood

/-- Within a hook RFT goes back without a re-plumb (R369). -/
theorem rft_hook (hh : s.core.ctl.regs.hook = true) : ∃ u, exec .rft s = .next u ∧ s.ResumesAt s.core.gtick u := by
  refine ⟨_, exec_rft_arrives hb ha, ?_⟩
  rw [hgood, if_neg Bool.false_ne_true, if_pos hh]
  exact ((Core.SameReturn.refl s.core).resumes rfl).upd

/-- A core alone in its gang is released at once (R112). -/
theorem rft_alone (hh : s.core.ctl.regs.hook = false) (he : s.core.ends = false) (hg : s.gangOthers = [])
    (hr : s.core.ctl.run = .running) : ∃ u, exec .rft s = .next u ∧ s.ResumesAt (s.core.returnTick + 64) u := by
  refine ⟨_, exec_rft_arrives hb ha, ?_⟩
  rw [hgood, hh, if_neg Bool.false_ne_true, if_neg Bool.false_ne_true, if_pos (rftReady_alone he hg hr),
    releaseTick_alone hg]
  obtain ⟨delayed, hcore⟩ := releaseRfts_core (s := s.atReturn) (by simp [Core.atRft, State.atReturn, hr])
  obtain ⟨hsys, f, hothers, hf⟩ := releaseRfts_rest s.atReturn
  have back : s.core.Resumes ((releaseRfts s.atReturn).core.leaveRft (s.core.returnTick + 64)) := by
    rw [hcore]
    exact ((Core.SameReturn.atReturn s).trans (.releaseRft ..)).leaveRft _
  have hm : MemSame s ((releaseRfts s.atReturn).upd (Core.leaveRft (s.core.returnTick + 64))) :=
    .of_map f back.id back.bench hothers hsys hf
  exact ⟨back, hm.pass, Core.gtick_leaveRft ..⟩

/-- While the re-plumb cannot be released the core stands at its RFT (R112, R298). -/
theorem rft_waits (hh : s.core.ctl.regs.hook = false) (hready : rftReady s.atReturn = false) :
    exec .rft s = .next s.atReturn.ticked := by
  rw [exec_rft_arrives hb ha, hgood, hh, hready]
  rfl

end

theorem State.ticked_ctl (s : State) : s.ticked.core.tick = s.core.tick + 1 ∧
    s.ticked.core.ctl.pcq = s.core.ctl.pcq ∧ s.ticked.core.ctl.arrival = s.core.ctl.arrival := by
  obtain ⟨stall, -, hcore⟩ := s.core.waitTick_eq
  have hcore : s.ticked.core = { s.core.tickOn with stall } := hcore
  rw [hcore]
  exact ⟨rfl, rfl, rfl⟩

/-- Settles O29: RFT by the cases of the bank, the release, EPC0 to EPC2, the hook and the gang; each return is a
`Core.Resumes`. -/
theorem returnFromTrap : Obligations.ReturnFromTrap := by
  intro s back
  have returns : ∀ v, (∃ u, exec .rft s = .next u ∧ s.ResumesAt v u) →
      ∃ u, exec .rft s = .next u ∧ back u ∧ u.core.gtick = v := by
    rintro v ⟨u, hexec, h, hmem, htick⟩
    refine ⟨u, hexec, ⟨h.bank1, h.b0, h.b1, hmem, h.q, ?_, ?_, ?_, ?_, h.arrival, h.tick⟩, htick⟩
    · rw [h.pcq]; rfl
    · rw [h.pcq]; rfl
    · rw [h.pcq]; rfl
    · rw [h.posted, h.held16, h.held17]
      cases s.core.ctl.regs.hook <;> cases s.core.ctl.held16 <;> simp
  refine ⟨exec_rft_bank0, fun h v hb ha => returns v (rft_released hb ha), fun hb ha =>
    ⟨fun hbad => ?_, fun h0 h1 h2 => ?_⟩⟩
  · obtain ⟨u, hexec, hctl⟩ := rft_badEpc hb ha ((badEpc_iff _).mpr hbad)
    exact ⟨u, hexec, by rw [hctl], by rw [hctl]; exact hb⟩
  have hgood : s.core.ctl.regs.badEpc = false := by simp [CtlRegs.badEpc, h0, h1, h2]
  refine ⟨fun hh => returns _ (rft_hook hb ha hgood hh), fun hh he hg hr => returns _ (rft_alone hb ha hgood hh he hg hr),
    fun hh hblock => ?_⟩
  obtain ⟨htick, hpcq, harrival⟩ := s.atReturn.ticked_ctl
  exact ⟨_, rft_waits hb ha hgood hh (rftReady_blocked hblock), (CtlFrame.arrives s _).trans (.ticked _), hpcq, htick,
    harrival⟩

end Sys2Proof.Machine

namespace Sys2Proof.Machine

/-! ### What issuing and waiting leave of a control word's frame (R41, R300, R368) -/

theorem CtlFrame.refl (s : State) : CtlFrame [] [] s s where
  reg := ⟨fun _ _ => rfl, fun _ _ => rfl, rfl, by split <;> rfl⟩
  unit := ⟨fun _ => rfl, rfl, rfl, rfl, rfl, rfl, fun _ => rfl, rfl⟩
  regs := rfl
  vis := rfl
  q := rfl
  jig := fun h => ⟨h, rfl⟩
  others := rfl
  sys := rfl
  mem := fun _ _ => rfl

theorem Stands.refl (s : State) : Stands s s := ⟨rfl, rfl, rfl, rfl, rfl, rfl, rfl, rfl⟩

/-- The jig store may change while a recording is on. -/
theorem CtlFrame.updJig (s : State) (j : JigStore) (hr : s.core.jig.recording ≠ none) :
    CtlFrame [] [] s (s.upd fun c => { c with jig := j }) where
  reg := ⟨fun _ _ => rfl, fun _ _ => rfl, rfl, by split <;> rfl⟩
  unit := ⟨fun e => by cases e <;> rfl, rfl, rfl, rfl, rfl, rfl, fun _ => rfl, rfl⟩
  regs := rfl
  vis := rfl
  q := rfl
  jig := fun h => absurd h hr
  others := rfl
  sys := rfl
  mem := .of_eq rfl rfl rfl rfl

theorem Stands.updJig (s : State) (j : JigStore) (hp : j.play = s.core.jig.play) :
    Stands s (s.upd fun c => { c with jig := j }) := ⟨rfl, rfl, hp, rfl, rfl, rfl, rfl, rfl⟩

/-- A waiting word's first tick is noted in a recording alone (R300). -/
theorem CtlFrame.noteReach (s : State) : CtlFrame [] [] s s.noteReach := by
  unfold State.noteReach
  split
  · exact .refl s
  next r hr =>
    split
    · exact .refl s
    · exact .updJig s _ (by simp [hr])

theorem CtlFrame.clearReach (s : State) : CtlFrame [] [] s s.clearReach := by
  unfold State.clearReach
  split
  · exact .refl s
  next r hr => exact .updJig s _ (by simp [hr])

theorem Stands.clearReach (s : State) : Stands s s.clearReach := by
  unfold State.clearReach
  split
  · exact .refl s
  · exact .updJig s _ rfl

theorem CtlFrame.endSkip (s : State) : CtlFrame [] [] s s.endSkip := by
  unfold State.endSkip
  split
  · exact ⟨⟨⟨fun _ _ => rfl, fun _ _ => rfl, rfl, by split <;> rfl⟩,
      ⟨fun e => by cases e <;> rfl, rfl, rfl, rfl, rfl, rfl, fun _ => rfl, rfl⟩, rfl, fun h => ⟨h, rfl⟩⟩,
      rfl, rfl, rfl, rfl, .of_eq rfl rfl rfl rfl⟩
  · exact .refl s

theorem Stands.endSkip (s : State) : Stands s s.endSkip := by constructor <;> simp

theorem State.recordingOn_some {s : State} {r : Recording} (h : s.recordingOn = some r) :
    s.core.jig.recording ≠ none := by
  intro hn
  simp [State.recordingOn, hn] at h

theorem CtlFrame.unreplayable (s : State) : CtlFrame [] [] s s.unreplayable := by
  unfold State.unreplayable
  split
  · exact .refl s
  next r hr => exact .updJig s _ (State.recordingOn_some hr)

theorem Stands.unreplayable (s : State) : Stands s s.unreplayable := by
  unfold State.unreplayable
  split
  · exact .refl s
  · exact .updJig s _ rfl

theorem CtlFrame.unreplayableIf (s : State) (b : Bool) : CtlFrame [] [] s (s.unreplayableIf b) := by
  cases b
  · exact .refl s
  · exact .unreplayable s

theorem Stands.unreplayableIf (s : State) (b : Bool) : Stands s (s.unreplayableIf b) := by
  cases b
  · exact .refl s
  · exact .unreplayable s

/-- A word that has issued: its tick passes, and `post` has changed the PC queue that moved (R41). -/
theorem ctlDoneWith_frame {gs : List (Fin 32)} {ss : List (Fin 16)} {s u : State} (post : PcQueue → PcQueue)
    (hn : noStep s = true) (hf : CtlFrame gs ss s u) (hs : Stands s u) :
    CtlFrame gs ss s (ctlDoneWith post u) ∧ (ctlDoneWith post u).core.tick = s.core.tick + 1 ∧
      (plainStream s = true → (ctlDoneWith post u).core.ctl.pcq = post s.core.rotate) := by
  have hu : noStep u = true := (noStep_eq hf.regs hf.reg.bank).trans hn
  have hr := ctlDoneWith_rest post hu
  exact ⟨by simpa using hf.trans hr.frame, hr.tick.trans (by rw [hs.tick]),
    fun hp => (ctlDoneWith_pcq post hu (hs.plain.trans hp)).trans (by rw [hs.rotate])⟩

/-- Waiting is a tick in which the stream stands (R41). -/
theorem wait_frame (s : State) : ∃ t, finish s (.wait s) = .next t ∧ CtlFrame [] [] s t ∧
    t.core.ctl.pcq = s.core.ctl.pcq ∧ t.core.tick = s.core.tick + 1 := by
  obtain ⟨htick, hpcq, -⟩ := s.noteReach.ticked_ctl
  have hcore : s.noteReach.core.tick = s.core.tick ∧ s.noteReach.core.ctl = s.core.ctl := by
    unfold State.noteReach
    split
    · exact ⟨rfl, rfl⟩
    · split <;> exact ⟨rfl, rfl⟩
  exact ⟨_, rfl, (CtlFrame.noteReach s).trans (.ticked _), by rw [hpcq, hcore.2], by rw [htick, hcore.1]⟩

theorem waits_of_wait {i : Instr} {s : State} (h : exec i s = finish s (.wait s)) : waits i s := by
  obtain ⟨t, ht, hframe⟩ := wait_frame s
  exact ⟨t, h.trans ht, hframe⟩

/-- A word whose body leaves everything as it stands only issues. -/
theorem onlyIssues_of_issue {i : Instr} {s : State} {rs : List (Fin 32)} (hg : ctlGoes s rs = true)
    (h : exec i s = finish s (.issue s)) : onlyIssues i s := by
  obtain ⟨t, ht, -, hf, hm⟩ := finish_frame (s0 := s) hg (.refl s) (.refl s)
  exact ⟨t, h.trans ht, hf, hm⟩

/-! ### Words that only let time pass -/

section
variable {s : State}

/-- TWAIT compares its register with the gang tick (R96). -/
theorem exec_twait {a : Fin 32} (hc : ctlCalm s [a] = true) (hh : noHook s = true) : exec (.twait a) s =
    finish s (if (s.core.g a).toNat ≤ s.core.gtick then .issue s else .wait s) := by
  have hook : ¬(s.core.ctl.regs.hook && !s.core.ctl.bank1) = true := by
    revert hh
    unfold noHook
    cases s.core.ctl.regs.hook <;> cases s.core.ctl.bank1 <;> simp
  change execTwait a s = _
  unfold execTwait ctlNoHook
  rw [if_neg hook, ctlWord_goes (ctlCalm_goes hc)]
  simp only [ctlCalm_readG hc (List.mem_singleton_self a)]

/-- WAITQ looks at the engines that it names (R109). -/
theorem exec_waitq {m : BitVec 5} (hg : ctlGoes s [] = true) : exec (.waitq m) s =
    finish s (if engines.all fun e => !m.getLsbD (engNum e - 1) || s.core.engIdle e then .issue s else .wait s) := by
  change execWaitq m s = _
  exact ctlWord_goes hg _

theorem mem_engines (e : Engine) : e ∈ engines := by cases e <;> decide

/-- QPOP waits at an empty queue (R92). -/
theorem exec_qpop_empty {d : Fin 32} {q : PopQ} (hg : ctlGoes s [] = true) (hq : s.core.q.entries q = []) :
    exec (.qpop d q) s = finish s (.wait s) := by
  change execQpop d q s = _
  unfold execQpop
  rw [ctlWord_goes hg, hq]

/-- QPUSH waits at a full queue (R92). -/
theorem exec_qpush_xq_full {a : Fin 32} (hg : ctlGoes s [a] = true) (hq : 16 ≤ s.core.q.xq.length) :
    exec (.qpush a .xq) s = finish s (.wait s) := by
  change pushXq a s = _
  unfold pushXq
  rw [ctlWord_goes hg]
  simp [hq]

theorem exec_qpush_mbox_full {a : Fin 32} (hg : ctlGoes s [a] = true) (hq : 16 ≤ s.core.q.mboxOut.length) :
    exec (.qpush a .mbox) s = finish s (.wait s) := by
  change pushMbox a s = _
  unfold pushMbox
  rw [ctlWord_goes hg]
  simp [hq]

end

/-- Settles O12: each word's body answers that it issues, or waits, with the state as it stands. -/
theorem wordsThatOnlyLetTimePass : Obligations.WordsThatOnlyLetTimePass := by
  refine ⟨fun s => ⟨fun x hg => ?nop, fun imm hg => ?lpool, fun sc k m hg => ?fence, fun a hc hh ht => ?twait,
    fun m hg hidle => ?waitq⟩, fun s => ⟨fun a hc hh ht => ?twaits, fun m e hg hm he => ?waitqs,
    fun d q hg hq => ?qpop, fun a hg hq => ?xq, fun a hg hq => ?mbox⟩⟩
  case nop => exact onlyIssues_of_issue hg (ctlWord_goes hg _)
  case lpool => exact onlyIssues_of_issue hg (ctlWord_goes hg _)
  case fence => exact onlyIssues_of_issue hg (ctlWord_goes hg _)
  case twait => exact onlyIssues_of_issue (ctlCalm_goes hc) (by rw [exec_twait hc hh, if_pos ht])
  case waitq =>
    refine onlyIssues_of_issue hg ?_
    rw [exec_waitq hg, if_pos]
    refine List.all_eq_true.mpr fun e _ => ?_
    cases hm : m.getLsbD (engNum e - 1)
    · rfl
    · exact hidle e hm
  case twaits => exact waits_of_wait (by rw [exec_twait hc hh, if_neg (Nat.not_le.mpr ht)])
  case waitqs =>
    refine waits_of_wait ?_
    rw [exec_waitq hg, if_neg]
    intro hall
    have := List.all_eq_true.mp hall e (mem_engines e)
    simp [hm, he] at this
  case qpop => exact waits_of_wait (exec_qpop_empty hg hq)
  case xq => exact waits_of_wait (exec_qpush_xq_full hg hq)
  case mbox => exact waits_of_wait (exec_qpush_mbox_full hg hq)

end Sys2Proof.Machine

namespace Sys2Proof.Machine

/-! ### PREP and PREPR (R39) -/

theorem Stands.setTarget (s : State) (r : Fin 16) (a : VAddr) (b : Bool) : Stands s (s.setTarget r a b) := by
  constructor <;> simp [State.setTarget]

theorem CtlFrame.setTarget (s : State) (r : Fin 16) (a : VAddr) (b : Bool) : CtlFrame [] [r] s (s.setTarget r a b) :=
  (CtlFrame.setSteer s r _).trans (.setTaintT _ r b)

/-- The target half that PREP writes (R39, R392). -/
theorem preparedAt_setTarget (s : State) {r : Fin 16} (a : VAddr) (b : Bool) (hr : r.val < 12) :
    preparedAt s a (s.core.steer r) ((s.setTarget r a b).core.steer r) := by
  have hsteer : (s.setTarget r a b).core.steer r = { s.core.steer r with
      valid := true, target := BitVec.ofNat 46 (a.toNat / 4)
      held := !s.core.ctl.bank1 && (s.core.fetch a).isNone, setAt := some s.core.tick } := by
    unfold State.setTarget Core.steer
    rw [State.setTaintT_bank]
    exact (s.setSteer_steer r r _ hr).trans (if_pos rfl)
  have htarget : (BitVec.ofNat 46 (a.toNat / 4)).toNat = a.toNat / 4 := by
    rw [BitVec.toNat_ofNat]
    omega
  rw [hsteer]
  exact ⟨rfl, rfl, htarget, rfl, rfl⟩

/-- A word whose body writes a target half. -/
theorem finish_setTarget {s u : State} {rs : List (Fin 32)} {sd : Fin 16} (a : VAddr) (b : Bool) (hsd : sd.val < 12)
    (hg : ctlGoes s rs = true) (hf : CtlFrame [] [] s u) (hs : Stands s u) (hcore : u.core = s.core) :
    ∃ t, finish s (.issue (u.setTarget sd a b)) = .next t ∧ CtlFrame [] [sd] s t ∧ Moves s t ∧
      preparedAt s a (s.core.steer sd) (t.core.steer sd) := by
  obtain ⟨t, ht, hrest, hframe, hmoves⟩ := finish_frame (s0 := s) (gs := []) (ss := [sd]) hg
    (hf.trans (.setTarget u sd a b)) (hs.trans (.setTarget u sd a b))
  have hprep := preparedAt_setTarget u a b hsd
  simp only [preparedAt, hcore] at hprep ⊢
  exact ⟨t, ht, hframe, hmoves, by rw [hrest.steer]; exact hprep⟩

theorem exec_prep {s : State} (sd : Fin 16) (off : BitVec 19) (hg : ctlGoes s [] = true) : exec (.prep sd off) s =
    finish s (.issue (s.setTarget sd (s.core.nowAddr + off.signExtend 48 * 4) false)) := by
  change execPrep sd off s = _
  exact ctlWord_goes hg _

theorem exec_prepr {s : State} (sd : Fin 16) (a : Fin 32) (hg : ctlGoes s [a] = true) : exec (.prepr sd a) s =
    finish s (if (s.readG a).1.toNat % 4 ≠ 0 then .trap (access 0x03 (.prepr sd a) 3 ((s.readG a).1.truncate 48) 0)
      else .issue ((s.readG a).2.setTarget sd ((s.readG a).1.truncate 48) (s.taint a))) := by
  change execPrepr sd a s = _
  exact ctlWord_goes hg _

/-- Settles O5: both words write one target half, whose rule is `preparedAt_setTarget`. -/
theorem prepareSetsTarget : Obligations.PrepareSetsTarget := by
  refine ⟨fun s sd off hsd hg => ?_,
    fun s sd a hsd hg => ⟨(s.readG a).1, s.readG_mem a, fun haligned => ?_, fun hodd => ?_⟩⟩
  · obtain ⟨t, ht, h⟩ := finish_setTarget (s.core.nowAddr + off.signExtend 48 * 4) false hsd hg (.refl s) (.refl s) rfl
    exact ⟨t, (exec_prep sd off hg).trans ht, h⟩
  · obtain ⟨t, ht, h⟩ := finish_setTarget ((s.readG a).1.truncate 48) (s.taint a) hsd hg (.readG s a) (.readG s a)
      (s.readG_core a)
    exact ⟨t, by rw [exec_prepr sd a hg, if_neg (not_not.mpr haligned), ht], h⟩
  · rw [exec_prepr sd a hg, if_pos hodd]
    rfl

/-! ### Branches (R40, R41) -/

/-- Each branch word is `branch` with what it tests. -/
theorem exec_branch {i : Instr} {r : Fin 16} {null : NullMode} {f : Bool → Bool} {link : Bool}
    (hi : branchForm i = some (r, null, f, link)) (s : State) :
    ∃ readsCond, exec i s = branch i r null (f (s.core.steer r).cond) readsCond link s := by
  unfold branchForm at hi
  split at hi
  case h_5 => cases hi
  case h_1 | h_2 => cases hi; exact ⟨true, rfl⟩
  case h_3 | h_4 => cases hi; exact ⟨false, rfl⟩

/-- What a branch leaves but for the PC queue: BL's link, and the taint of what decided it (R40, R304). -/
def State.branched (r : Fin 16) (taken readsCond link : Bool) (s : State) : State :=
  let noted := s.unreplayableIf ((readsCond && (s.taintS r).1) || (taken && (s.taintS r).2))
  if link then noted.writeG 31 ((s.core.nowAddr + 12).zeroExtend 64) 1 false else noted

section
variable {s : State} (hg : ctlGoes s [] = true) (i : Instr) {r : Fin 16} (null : NullMode) {taken : Bool}
  (readsCond link : Bool)
include hg

theorem branch_waits (hw : fetchWaits s.core (s.core.steer r) = true) :
    branch i r null taken readsCond link s = finish s (.wait s) := by
  refine (ctlWord_goes hg _).trans ?_
  simp only [hw, if_true]

theorem branch_invalid (hw : fetchWaits s.core (s.core.steer r) = false) (ht : taken = true)
    (hv : (s.core.steer r).valid = false) :
    branch i r null taken readsCond link s = finish s (.trap (illegal i 0x0B s.core.nowAddr 0)) := by
  refine (ctlWord_goes hg _).trans ?_
  simp [hw, ht, hv]

theorem branch_unfetched (hw : fetchWaits s.core (s.core.steer r) = false) (ht : taken = true)
    (hv : (s.core.steer r).valid = true)
    (hf : (s.core.steer r).held = true ∨ s.core.fetch (targetAddr (s.core.steer r).target) = none) :
    branch i r null taken readsCond link s = finish s (.raw (takeTrap
      (access 0x04 i 3 (targetAddr (s.core.steer r).target) 0) (s.setSteer r fun y => { y with held := false }))) := by
  refine (ctlWord_goes hg _).trans ?_
  have hbad : ((s.core.steer r).held || (s.core.fetch (targetAddr (s.core.steer r).target)).isNone) = true := by
    rcases hf with h | h <;> simp [h]
  simp [hw, ht, hv, hbad]

theorem branch_issues (hw : fetchWaits s.core (s.core.steer r) = false)
    (hok : taken = true → (s.core.steer r).valid = true ∧ (s.core.steer r).held = false ∧
      (s.core.fetch (targetAddr (s.core.steer r).target)).isSome) :
    branch i r null taken readsCond link s = finish s (.branch (s.branched r taken readsCond link)
      (redirect taken null (targetAddr (s.core.steer r).target))) := by
  refine (ctlWord_goes hg _).trans ?_
  cases taken with
  | false => simp [hw, State.branched]
  | true =>
    obtain ⟨hv, hh, hf⟩ := hok rfl
    simp [hw, hv, hh, Option.isSome_iff_ne_none.mp hf, State.branched]

end

/-- Settles O7: `branch` by its three checks. -/
theorem branchWaitsOrTraps : Obligations.BranchWaitsOrTraps := by
  intro s i r null f link hi hg x
  obtain ⟨readsCond, hexec⟩ := exec_branch hi s
  refine ⟨fun hw => waits_of_wait (hexec.trans (branch_waits hg i null readsCond link hw)), fun hw ht hv => ?_,
    fun hw ht hv hf => ?_⟩
  · rw [hexec, branch_invalid hg i null readsCond link hw ht hv]
    rfl
  · rw [hexec, branch_unfetched hg i null readsCond link hw ht hv hf]
    rfl

theorem CtlFrame.branched (r : Fin 16) (taken readsCond link : Bool) (s : State) :
    CtlFrame (if link then [31] else []) [] s (s.branched r taken readsCond link) := by
  unfold State.branched
  cases link
  · exact .unreplayableIf s _
  · exact (CtlFrame.unreplayableIf s _).trans (.writeG _ 31 _ 1 false)

theorem Stands.branched (r : Fin 16) (taken readsCond link : Bool) (s : State) :
    Stands s (s.branched r taken readsCond link) := by
  unfold State.branched
  cases link
  · exact .unreplayableIf s _
  · exact (Stands.unreplayableIf s _).trans (.writeG _ 31 _ 1 false)

/-- BL leaves the address past its delay slots in g31 (R40). -/
theorem State.branched_g31 (r : Fin 16) (taken readsCond : Bool) (s : State) :
    (s.branched r taken readsCond true).core.g 31 = (s.core.nowAddr + 12).zeroExtend 64 := by
  simp [State.branched, State.writeG_g]

/-- A taken branch replaces the third entry, and a null field that fires nullifies the other two (R41). -/
theorem redirect_eq (taken : Bool) (null : NullMode) (t : VAddr) (q : PcQueue) :
    let fires := decide ((null = .nt ∧ taken = false) ∨ (null = .tk ∧ taken = true))
    redirect taken null t q =
      { q0 := { q.q0 with nul := q.q0.nul || fires }
        q1 := { q.q1 with nul := q.q1.nul || fires }
        q2 := { q.q2 with addr := if taken then t else q.q2.addr } } := by
  cases taken <;> cases null <;> simp [redirect]

/-- Settles O6: the branch issues with `State.branched`, and `redirect_eq` says what it makes of the moved queue. -/
theorem branchRedirects : Obligations.BranchRedirects := by
  intro s i r null f link hi hg hplain hw x taken fires hok
  obtain ⟨readsCond, hexec⟩ := exec_branch hi s
  have hframe := (CtlFrame.branched r taken readsCond link s).trans ((CtlFrame.endSkip _).trans (.clearReach _))
  have hstands := (Stands.branched r taken readsCond link s).trans ((Stands.endSkip _).trans (.clearReach _))
  obtain ⟨hf, htick, hpcq⟩ :=
    ctlDoneWith_frame (redirect taken null (targetAddr x.target)) (ctlGoes_step hg) hframe hstands
  rw [redirect_eq] at hpcq
  have hq := hpcq hplain
  have hrest := ctlDoneWith_rest (redirect taken null (targetAddr x.target))
    ((noStep_eq hframe.regs hframe.reg.bank).trans (ctlGoes_step hg))
  refine ⟨_, hexec.trans (branch_issues hg i null readsCond link hw hok), by simpa using hf, htick, fun hl => ?_, ?_⟩
  · subst hl
    rw [hrest.g, ← State.branched_g31 r taken readsCond s]
    exact ((CtlFrame.endSkip _).trans (.clearReach _)).reg.g 31 (List.not_mem_nil)
  · rw [hq]
    exact ⟨rfl, rfl, rfl, rfl, rfl⟩

end Sys2Proof.Machine

namespace Sys2Proof.Machine

/-! ### Words that read and write special registers (R37, R87, R89) -/

theorem ctlGoes_nil {s : State} (hn : noStep s = true) : ctlGoes s [] = true := by
  simp [ctlGoes, hn]

theorem CtlFrame.writeGLocked (s : State) (r : Fin 32) (v : DWord) (b : Bool) :
    CtlFrame [r] [] s (s.writeGLocked r v b) :=
  (CtlFrame.writeG s r v 1 b).trans ⟨⟨⟨fun _ _ => rfl, fun _ _ => rfl, rfl, by split <;> rfl⟩,
    ⟨fun e => by cases e <;> rfl, rfl, rfl, rfl, rfl, rfl, fun _ => rfl, rfl⟩, rfl, fun h => ⟨h, rfl⟩⟩,
    rfl, rfl, rfl, rfl, .of_eq rfl rfl rfl rfl⟩

theorem Stands.writeGLocked (s : State) (r : Fin 32) (v : DWord) (b : Bool) : Stands s (s.writeGLocked r v b) :=
  (Stands.writeG s r v 1 b).trans ⟨rfl, rfl, rfl, rfl, rfl, rfl, rfl, rfl⟩

theorem State.writeGLocked_g (s : State) (r k : Fin 32) (v : DWord) (b : Bool) :
    (s.writeGLocked r v b).core.g k = if k = r then (if r = 0 then 0 else v) else s.core.g k :=
  s.writeG_g r k v 1 b

/-- What MFS answers: the rights, then the engines that the register waits for, then its value. -/
def mfsRes (d : Fin 32) (sr : BitVec 12) (s : State) : Res :=
  if !srAssigned sr.toNat then .trap (illegal (.mfs d sr) 0x0C s.core.nowAddr 0)
  else if !srMayRead s.core.ctl.bank1 sr.toNat then .trap (access 0x02 (.mfs d sr) 0 0 0)
  else if (srWaits sr.toNat).isEmpty then .issue (s.writeG d (s.readSR sr.toNat) 2 (decide (6 < sr.toNat)))
  else if (srWaits sr.toNat).all s.core.engIdle then
    .issue (s.writeGLocked d (s.readSR sr.toNat) (decide (6 < sr.toNat)))
  else .wait s

theorem exec_mfs {s : State} (d : Fin 32) (sr : BitVec 12) (hg : ctlGoes s [] = true) :
    exec (.mfs d sr) s = finish s (mfsRes d sr s) := by
  change execMfs d sr s = _
  exact ctlWord_goes hg _

/-- A write of a special register is `mtsBody`, whatever a recording notes of it (R87, R90). -/
theorem exec_mtsForm {s : State} {i : Instr} {sr : BitVec 12} {x : DWord} {rs : List (Fin 32)}
    (hi : mtsForm s i = some (sr, x, rs)) (hc : ctlCalm s rs = true) :
    ∃ note, exec i s = finish s (mtsBody i sr x s note) := by
  have hg := ctlCalm_goes hc
  unfold mtsForm at hi
  split at hi
  case h_4 => cases hi
  case h_1 a sr =>
    cases hi
    refine ⟨fun z => if engVisible sr then (z.unreplayableIf (s.taint a)).recordValue sr (s.core.g a) else z, ?_⟩
    change execMts a sr s = _
    unfold execMts
    rw [ctlWord_goes hg, ctlCalm_readG hc (List.mem_singleton_self a)]
  case h_2 sr imm =>
    cases hi
    refine ⟨fun z => if engVisible sr then z.recordValue sr (imm.signExtend 64) else z, ?_⟩
    change execMtsi sr imm s = _
    exact ctlWord_goes hg _
  case h_3 k a sr =>
    cases hi
    refine ⟨fun z => if engVisible sr then
      (z.unreplayableIf (s.taint a)).recordShim sr k (s.core.g a - s.core.ctl.regs.rel[k]) else z, ?_⟩
    change execMtsr k a sr s = _
    unfold execMtsr
    rw [ctlWord_goes hg, ctlCalm_readG hc (List.mem_singleton_self a)]

section
variable {s : State} {d : Fin 32} {sr : BitVec 12}

theorem mfsRes_unassigned (ha : srAssigned sr.toNat = false) :
    mfsRes d sr s = .trap (illegal (.mfs d sr) 0x0C s.core.nowAddr 0) := by
  simp [mfsRes, ha]

theorem mfsRes_forbidden (ha : srAssigned sr.toNat = true) (hr : srMayRead s.core.ctl.bank1 sr.toNat = false) :
    mfsRes d sr s = .trap (access 0x02 (.mfs d sr) 0 0 0) := by
  simp [mfsRes, ha, hr]

theorem mfsRes_waits (ha : srAssigned sr.toNat = true) (hr : srMayRead s.core.ctl.bank1 sr.toNat = true)
    (hw : ∃ e ∈ srWaits sr.toNat, s.core.engIdle e = false) : mfsRes d sr s = .wait s := by
  obtain ⟨e, he, hidle⟩ := hw
  have hall : (srWaits sr.toNat).all s.core.engIdle = false := List.all_eq_false.mpr ⟨e, he, by simp [hidle]⟩
  have hsome : (srWaits sr.toNat).isEmpty = false := by
    rw [List.isEmpty_eq_false_iff_exists_mem]
    exact ⟨e, he⟩
  simp [mfsRes, ha, hr, hsome, hall]

/-- MFS issues, with or without an interlock, and leaves the register's value in d (R87, R89). -/
theorem mfsRes_issues (ha : srAssigned sr.toNat = true) (hr : srMayRead s.core.ctl.bank1 sr.toNat = true)
    (hw : ∀ e ∈ srWaits sr.toNat, s.core.engIdle e = true) : ∃ u, mfsRes d sr s = .issue u ∧
      CtlFrame [d] [] s u ∧ Stands s u ∧ u.core.g d = if d = 0 then 0 else s.readSR sr.toNat := by
  cases hsome : (srWaits sr.toNat).isEmpty
  · have hall : (srWaits sr.toNat).all s.core.engIdle = true := List.all_eq_true.mpr hw
    exact ⟨s.writeGLocked d (s.readSR sr.toNat) (decide (6 < sr.toNat)), by simp [mfsRes, ha, hr, hsome, hall],
      .writeGLocked .., .writeGLocked ..,
      by rw [State.writeGLocked_g, if_pos rfl]⟩
  · exact ⟨s.writeG d (s.readSR sr.toNat) 2 (decide (6 < sr.toNat)), by simp [mfsRes, ha, hr, hsome],
      .writeG .., .writeG .., by rw [State.writeG_g, if_pos rfl]⟩

end

theorem mtsBody_unassigned {i : Instr} {sr : BitVec 12} {x : DWord} {s : State} {note : State → State}
    (ha : srAssigned sr.toNat = false) : mtsBody i sr x s note = .trap (illegal i 0x0C s.core.nowAddr 0) := by
  simp [mtsBody, ha]

theorem mtsBody_forbidden {i : Instr} {sr : BitVec 12} {x : DWord} {s : State} {note : State → State}
    (ha : srAssigned sr.toNat = true) (hw : srMayWrite s.core.ctl.bank1 sr.toNat = false) :
    mtsBody i sr x s note = .trap (access 0x02 i 1 0 0) := by
  simp [mtsBody, ha, hw]

/-- Settles O13: MFS and the writes by the rights of R37 and R38, MFS then by the engines it waits for. -/
theorem specialReadsAndRights : Obligations.SpecialReadsAndRights := by
  refine ⟨fun s d sr hg ha hr => ⟨fun hw => ?_, fun hw => ?_⟩, fun s d i sr x rs hi hc => ?_⟩
  · obtain ⟨u, hu, hf, hs, hd⟩ := mfsRes_issues (d := d) ha hr hw
    obtain ⟨t, ht, hrest, hframe, hmoves⟩ := finish_frame (s0 := s) hg hf hs
    exact ⟨t, by rw [exec_mfs d sr hg, hu, ht], hframe, hmoves, by rw [hrest.g, hd]⟩
  · exact waits_of_wait (by rw [exec_mfs d sr hg, mfsRes_waits ha hr hw])
  · have hg : ctlGoes s [] = true := ctlGoes_nil (ctlGoes_step (ctlCalm_goes hc))
    obtain ⟨note, hexec⟩ := exec_mtsForm hi hc
    refine ⟨fun ha => ⟨?_, ?_⟩, fun ha hb h20 h28 => ?_, fun ha hw => ?_⟩
    · rw [exec_mfs d sr hg, mfsRes_unassigned ha]
      rfl
    · rw [hexec, mtsBody_unassigned ha]
      rfl
    · have hr : srMayRead s.core.ctl.bank1 sr.toNat = false := by simp [srMayRead, srBank1Only, hb, h20, h28]
      rw [exec_mfs d sr hg, mfsRes_forbidden ha hr]
      rfl
    · rw [hexec, mtsBody_forbidden ha hw]
      rfl

end Sys2Proof.Machine

namespace Sys2Proof.Machine

/-! ### TRAP and BREAK (R110, R111) -/

/-- The state in which a word that has issued takes its cause: the stream has moved on and the tick has passed (R110). -/
def State.passed (s : State) : State := s.endSkip.clearReach.advance.upd Core.tickOn

theorem shadowTrap_nil (s : State) : shadowTrap s [] = none := by
  unfold shadowTrap
  split <;> rfl

theorem exec_trap {s : State} (imm : BitVec 16) (hb : s.core.ctl.bank1 = false) : exec (.trap imm) s = .next
    (takeTrap { cause := 0x15, info := imm.zeroExtend 64, addr := s.core.nowAddr } s.passed).pass := by
  change execTrap imm s = _
  unfold execTrap ctlWord
  rw [shadowTrap_nil]
  simp only [hb, Bool.false_eq_true, if_false]
  rfl

theorem exec_trap_bank1 {s : State} (imm : BitVec 16) (hb : s.core.ctl.bank1 = true) : exec (.trap imm) s = .next
    (takeTrap { cause := 0x15, info := imm.zeroExtend 64, addr := s.core.nowAddr } s).pass := by
  change execTrap imm s = _
  unfold execTrap ctlWord
  rw [shadowTrap_nil]
  simp only [hb, if_true]
  rfl

theorem exec_brk (s : State) : exec .brk s = .next
    (takeTrap { cause := 0x17, info := 2, addr := s.core.nowAddr } s.passed).pass := by
  change execBrk s = _
  unfold execBrk ctlWord
  rw [shadowTrap_nil]
  rfl

section
variable (s : State)

@[simp] theorem State.passed_id : s.passed.core.id = s.core.id := by simp [State.passed]
@[simp] theorem State.passed_tick : s.passed.core.tick = s.core.tick + 1 := by simp [State.passed]
@[simp] theorem State.passed_bank1 : s.passed.core.ctl.bank1 = s.core.ctl.bank1 := by simp [State.passed]
@[simp] theorem State.passed_b0 : s.passed.core.ctl.b0 = s.core.ctl.b0 := by simp [State.passed]
@[simp] theorem State.passed_b1 : s.passed.core.ctl.b1 = s.core.ctl.b1 := by simp [State.passed]
@[simp] theorem State.passed_regs : s.passed.core.ctl.regs = s.core.ctl.regs := by simp [State.passed]
@[simp] theorem State.passed_run : s.passed.core.ctl.run = s.core.ctl.run := by simp [State.passed]
@[simp] theorem State.passed_held16 : s.passed.core.ctl.held16 = s.core.ctl.held16 := by simp [State.passed]
@[simp] theorem State.passed_held17 : s.passed.core.ctl.held17 = s.core.ctl.held17 := by simp [State.passed]
@[simp] theorem State.passed_others : s.passed.others = s.others := by simp [State.passed]

theorem MemSame.passed : MemSame s s.passed :=
  .of_eq (by simp) (by simp [State.passed]) (by simp) (by simp [State.passed])

end

theorem plainStream_iff {s : State} : plainStream s = true ↔ s.core.livePlay = none ∧ s.core.ctl.nest = none := by
  simp [plainStream]

/-- Of a plain stream the PC queue moves one step (R41). -/
theorem State.advance_plain {s : State} (hp : plainStream s = true) :
    s.advance = s.updCtl fun c => { c with pcq := s.core.rotate } := by
  obtain ⟨hplay, hnest⟩ := plainStream_iff.mp hp
  rw [State.advance, hplay]
  dsimp only
  rw [hnest]

theorem State.passed_plain {s : State} (hp : plainStream s = true) :
    s.passed.core.ctl.pcq = s.core.rotate ∧ s.passed.core.ctl.nest = none := by
  have hs : Stands s s.endSkip.clearReach := (Stands.endSkip s).trans (.clearReach _)
  have hplain := hs.plain.trans hp
  unfold State.passed
  rw [State.advance_plain hplain, ← hs.rotate]
  exact ⟨rfl, (plainStream_iff.mp hplain).2⟩

/-- What a trap leaves, told of the state before the word that raised it was passed. -/
theorem Handles.of_passed {c : TrapRec} {q : PcQueue} {s u : State} (h : Handles c q s.passed u) : Handles c q s u where
  __ := h
  regs0 := h.regs0.trans s.passed_b0
  regs1 := h.regs1.trans s.passed_b1
  pc := by rw [h.pc, s.passed_regs]
  done e he w hw := (h.done e he w hw).imp_right fun hearly => by
    simp only [Issued.early, s.passed_tick] at hearly ⊢
    cases hf : w.frees with
    | none => simp [hf] at hearly
    | some x =>
      simp only [hf, Option.any_some, decide_eq_true_eq] at hearly ⊢
      omega
  mem := (MemSame.passed s).trans h.mem
  gang hc d hd hg hrun hfree hb := by
    have hsame : sameGang s.passed.core d = true := by rw [← hg]; unfold sameGang; rw [s.passed_regs]
    simpa using h.gang hc d (by simpa using hd) hsame hrun hfree hb

/-- A word of a plain stream outside a hook that takes its cause once it is passed (R110, R111). -/
theorem passed_handles (c : TrapRec) {s : State} (hu : inUser s = true) (hp : plainStream s = true) :
    Handles c s.core.rotate s (takeTrap c s.passed).pass := by
  obtain ⟨hpcq, hnest⟩ := State.passed_plain hp
  have hu' : inUser s.passed = true := by simpa [inUser] using hu
  exact .of_passed (hpcq ▸ takeTrap_handles c hu' hnest)

/-- Inside a hook 0x15 and 0x17 enter the handler as they are (R370). -/
theorem takeTrap_hook {t : TrapRec} {s : State} (hb : s.core.ctl.bank1 = false) (hh : s.core.ctl.regs.hook = true)
    (hc : t.cause = 0x15 ∨ t.cause = 0x17) : takeTrap t s = enterHandler t s := by
  have h16 : t.cause ≠ 0x16 := by rcases hc with h | h <;> rw [h] <;> decide
  rw [takeTrap, hb, hh, if_neg Bool.false_ne_true, if_pos rfl, if_neg h16, if_pos hc]

theorem passed_hook {c : TrapRec} {s : State} (hb : s.core.ctl.bank1 = false) (hh : s.core.ctl.regs.hook = true)
    (hp : plainStream s = true) (hc : c.cause = 0x15 ∨ c.cause = 0x17) :
    let u := (takeTrap c s.passed).pass
    u.core.ctl.bank1 = true ∧ u.core.ctl.regs.ecause = c.cause ∧ u.core.ctl.regs.einfo = c.info ∧
      u.core.ctl.regs.epc0 = s.core.rotate.q0.addr := by
  obtain ⟨hpcq, hnest⟩ := State.passed_plain hp
  obtain ⟨_, _, _, hctl⟩ := (enterHandler_enters c hnest).ctl
  dsimp only
  rw [State.pass_core, takeTrap_hook (by simpa using hb) (by simpa using hh) hc, hctl, ← hpcq]
  exact ⟨rfl, rfl, rfl, rfl⟩

/-! ### Causes in bank 1 (R35) -/

theorem MemSame.modTask (s : State) (id : Nat) (f : Task → Task) : MemSame s (s.modTask id f) :=
  fun sp _ => by cases sp <;> rfl

theorem MemSame.doubleFault (cause : Nat) (w : Word) (s : State) : MemSame s (doubleFault cause w s) := by
  have hdead : MemSame s (s.updCtl fun x => { x with run := .dead }) := .of_eq rfl rfl rfl rfl
  have hstop := hdead.trans (.stopGang _)
  unfold Machine.doubleFault
  dsimp only
  split
  · exact hstop
  · exact hstop.trans (.modTask _ _ _)

/-- In bank 1 a cause other than 0x16 and 0x17 is a double fault: the core stops in its bank (R35). -/
theorem takeTrap_bank1_dead {t : TrapRec} {s : State} (hb : s.core.ctl.bank1 = true) (h16 : t.cause ≠ 0x16)
    (h17 : t.cause ≠ 0x17) : let u := (takeTrap t s).pass
    u.core.ctl = { s.core.ctl with run := .dead } ∧ MemSame s u := by
  have ht : takeTrap t s = doubleFault t.cause.toNat ((s.core.fetch s.core.nowAddr).getD 0) s := by
    rw [takeTrap, if_pos hb, if_neg (not_or.mpr ⟨h16, h17⟩)]
  dsimp only
  rw [ht, State.pass_core, doubleFault_ctl]
  exact ⟨rfl, MemSame.pass (.doubleFault _ _ _)⟩

/-- In bank 1 a cause 0x17 is held behind those held already (R35). -/
theorem takeTrap_bank1_hold17 {t : TrapRec} {s : State} (hb : s.core.ctl.bank1 = true) (hc : t.cause = 0x17) :
    takeTrap t s = s.updCtl fun c => { c with held17 := c.held17 ++ [t] } := by
  have hhold : Ctl.hold t = fun c => { c with held17 := c.held17 ++ [t] } := funext fun c => by
    rw [Ctl.hold, if_neg (by rw [hc]; decide)]
  rw [takeTrap, if_pos hb, if_pos (.inr hc), hhold]

theorem RegSame.of_banks {s t : State} (hb : t.core.ctl.bank1 = s.core.ctl.bank1) (h0 : t.core.ctl.b0 = s.core.ctl.b0)
    (h1 : t.core.ctl.b1 = s.core.ctl.b1) : RegSame [] [] s t where
  g r _ := by unfold Core.g Ctl.bank; rw [hb, h0, h1]
  steer r _ := by unfold Core.steer Ctl.bank; rw [hb, h0, h1]
  bank := hb
  other := by split <;> assumption

/-- Settles O26: in bank 0 the word is passed and its cause taken; in bank 1 TRAP stops the core and BREAK is held. -/
theorem trapWordsEnterHandler : Obligations.TrapWordsEnterHandler := by
  refine fun s => ⟨fun hu hp => ⟨fun imm => ?_, ?_⟩, fun hb hh hp => ⟨fun imm => ?_, ?_⟩, fun hb => ⟨fun imm => ?_, ?_⟩⟩
  · exact ⟨_, exec_trap imm (inUser_iff.mp hu).1, passed_handles _ hu hp⟩
  · exact ⟨_, exec_brk s, passed_handles _ hu hp⟩
  · exact ⟨_, exec_trap imm hb, passed_hook hb hh hp (.inl rfl)⟩
  · exact ⟨_, exec_brk s, passed_hook hb hh hp (.inr rfl)⟩
  · obtain ⟨hctl, hmem⟩ := takeTrap_bank1_dead (s := s)
      (t := { cause := 0x15, info := imm.zeroExtend 64, addr := s.core.nowAddr }) hb
      (show (0x15 : BitVec 6) ≠ 0x16 by decide) (show (0x15 : BitVec 6) ≠ 0x17 by decide)
    exact ⟨_, exec_trap_bank1 imm hb, by rw [hctl], by rw [hctl], by rw [hctl], hmem⟩
  · refine ⟨_, exec_brk s, ?_⟩
    rw [takeTrap_bank1_hold17 (by simpa using hb) rfl]
    have hheld : MemSame s (s.passed.updCtl fun c => { c with held17 := c.held17 ++
        [{ cause := 0x17, info := 2, addr := s.core.nowAddr }] }) :=
      (MemSame.passed s).trans (.of_eq rfl rfl rfl rfl)
    exact ⟨.of_banks s.passed_bank1 s.passed_b0 s.passed_b1, hheld.pass, s.passed_run,
      fun hp => (State.passed_plain hp).1, s.passed_held16, _, congrArg (· ++ _) s.passed_held17, rfl, rfl⟩

end Sys2Proof.Machine

namespace Sys2Proof.Machine

/-! ### The control core's step at an engine word (R41, R45, R53, R88, R142) -/

/-- What a recording's entry leaves: the jig store's entries and the list of bad places may change, and a replay's
place stands (R299, R379). -/
structure Noted (s t : State) : Prop where
  core : ∃ j, t.core = { s.core with jig := j } ∧ j.play = s.core.jig.play
  others : t.others = s.others
  sys : ∃ bad, t.sys = { s.sys with bad := bad }

theorem Noted.refl (s : State) : Noted s s := ⟨⟨_, rfl, rfl⟩, rfl, _, rfl⟩

theorem State.mend_sys (s : State) (sp : Space) (off n : Nat) :
    ∃ bad, (s.mend sp off n).sys = { s.sys with bad := bad } := by
  rcases s.mend_eq sp off n with h | ⟨l, h⟩ <;> rw [h] <;> exact ⟨_, rfl⟩

theorem Noted.appendEntries (s : State) (r : Recording) (es : List (BitVec 128)) : Noted s (s.appendEntries r es) where
  core := by
    unfold State.appendEntries
    rw [State.upd_core, State.mend_core]
    dsimp only
    split
    · exact ⟨_, rfl, rfl⟩
    · split <;> exact ⟨_, rfl, rfl⟩
  others := State.mend_others ..
  sys := State.mend_sys ..

theorem Noted.recordEngine (s : State) (w : Word) (cont : Option Word) : Noted s (s.recordEngine w cont) := by
  have hrecord : ∀ bits, Noted s (s.record bits) := fun bits => by
    unfold State.record State.recordAt
    split
    · exact .refl s
    · exact .appendEntries ..
  unfold State.recordEngine
  cases cont <;> exact hrecord _

namespace Noted
variable {s t : State} (h : Noted s t)
include h

theorem ctl : t.core.ctl = s.core.ctl := by obtain ⟨j, hj, -⟩ := h.core; rw [hj]
theorem q : t.core.q = s.core.q := by obtain ⟨j, hj, -⟩ := h.core; rw [hj]
theorem eng (e : Engine) : t.core.eng e = s.core.eng e := by obtain ⟨j, hj, -⟩ := h.core; rw [hj]; cases e <;> rfl

theorem stands : Stands s t := by
  obtain ⟨j, hj, hplay⟩ := h.core
  constructor <;> rw [hj]
  exact hplay

theorem memSame : MemSame s t := by
  obtain ⟨j, hj, -⟩ := h.core
  obtain ⟨bad, hbad⟩ := h.sys
  have hcores : MemSame s { t with sys := s.sys } := .of_eq (by rw [hj]) (by rw [hj]) h.others rfl
  refine hcores.trans fun sp a => ?_
  cases sp <;> simp only [State.mem, hbad]
  rfl

end Noted

/-- The state with a word pushed at its engine's tail (R45, R142, R153). -/
def State.pushed (e : Engine) (w : Word) (cont : Option Word) (a : VAddr) (s : State) : State :=
  s.upd fun c =>
    let pushed := c.setEng e fun g => { g with queue := g.queue ++ [.word (c.entryOf w cont none a)] }
    { pushed with vis := pushLive w pushed.vis }

theorem State.push_eq {e : Engine} {s : State} (w : Word) (cont : Option Word) (a : VAddr)
    (h : (s.core.eng e).words < 64) : s.push e w cont none a = some (s.pushed e w cont a) := by
  rw [State.push, if_neg (Nat.not_le.mpr h)]
  rfl

theorem State.push_full {e : Engine} {s : State} (w : Word) (cont : Option Word) (a : VAddr)
    (h : 64 ≤ (s.core.eng e).words) : s.push e w cont none a = none := by
  rw [State.push, if_pos h]

section
variable (e : Engine) (w : Word) (cont : Option Word) (a : VAddr) (s : State)

theorem State.pushed_ctl : (s.pushed e w cont a).core.ctl = s.core.ctl := by simp [State.pushed]
theorem State.pushed_q : (s.pushed e w cont a).core.q = s.core.q := by simp [State.pushed]

theorem State.pushed_eng (e' : Engine) : (s.pushed e w cont a).core.eng e' = if e' = e then
    { s.core.eng e with queue := (s.core.eng e).queue ++ [.word (s.core.entryOf w cont none a)] }
    else s.core.eng e' := by
  have hvis : ∀ (c : Core) (v : Vis), ({ c with vis := v } : Core).eng e' = c.eng e' := fun c v => by cases e' <;> rfl
  unfold State.pushed
  rw [State.upd_core]
  exact (hvis _ _).trans (Core.eng_setEng ..)

theorem Stands.pushed : Stands s (s.pushed e w cont a) := by constructor <;> simp [State.pushed]

theorem MemSame.pushed : MemSame s (s.pushed e w cont a) :=
  .of_eq (by simp [State.pushed]) (by simp [State.pushed]) rfl rfl

end

/-- A routed word stands at its engine's tail and the stream moves on (R45, R142). -/
theorem routeWord_pushes {e : Engine} {w : Word} {cont : Option Word} {s : State} (hn : noStep s = true)
    (hp : plainStream s = true) (hw : (s.core.eng e).words < 64) :
    ∃ t, routeWord e w cont s = .next t ∧ RegSame [] [] s t ∧ MemSame s t ∧ t.core.q = s.core.q ∧
      t.core.ctl.pcq = s.core.rotate ∧ t.core.tick = s.core.tick + 1 ∧
      (t.core.eng e).queue = (s.core.eng e).queue ++ [.word (s.core.entryOf w cont none s.core.nowAddr)] ∧
      ∀ e', e' ≠ e → t.core.eng e' = s.core.eng e' := by
  have hnote := Noted.recordEngine (s.pushed e w cont s.core.nowAddr) w cont
  have hroute : routeWord e w cont s =
      .next (ctlDone ((s.pushed e w cont s.core.nowAddr).recordEngine w cont).clearReach) := by
    rw [routeWord, State.push_eq w cont _ hw]
  generalize ((s.pushed e w cont s.core.nowAddr).recordEngine w cont) = u at hnote hroute
  have hctl : u.core.ctl = s.core.ctl := hnote.ctl.trans (State.pushed_ctl ..)
  have heng := fun e' => (hnote.eng e').trans (State.pushed_eng e w cont _ s e')
  have hstands : Stands s u := (Stands.pushed ..).trans hnote.stands
  obtain ⟨hframe, htick, hpcq⟩ := ctlDoneWith_frame id ((noStep_eq (by rw [hctl]) (by rw [hctl])).trans hn)
    (CtlFrame.clearReach u) (Stands.clearReach u)
  have hrest : Issued.Rest u.clearReach (ctlDone u.clearReach) :=
    ctlDoneWith_rest id ((noStep_eq (by simp [hctl]) (by simp [hctl])).trans hn)
  refine ⟨_, hroute, .of_banks ?_ ?_ ?_, ?_, ?_, ?_, ?_, ?_, fun e' he => ?_⟩
  · rw [hrest.bank1]; simp [hctl]
  · rw [hrest.b0]; simp [hctl]
  · rw [hrest.b1]; simp [hctl]
  · exact ((MemSame.pushed e w cont _ s).trans hnote.memSame).trans hframe.mem
  · exact hframe.q.trans (hnote.q.trans (State.pushed_q ..))
  · exact (hpcq (hstands.plain.trans hp)).trans hstands.rotate
  · exact htick.trans (by rw [hstands.tick])
  · exact congrArg Eng.queue (((hframe.unit.eng e).trans (heng e)).trans (if_pos rfl))
  · exact ((hframe.unit.eng e').trans (heng e')).trans (if_neg he)

/-- A full queue makes the word wait (R45). -/
theorem routeWord_waits {e : Engine} {w : Word} {cont : Option Word} {s : State} (hw : 64 ≤ (s.core.eng e).words) :
    routeWord e w cont s = finish s (.wait s) := by
  rw [routeWord, State.push_full w cont _ hw]
  rfl

/-- The act of an engine word is its routing, with the continuation of a long form (R45, R53). -/
theorem wordAct_engine {s : State} {w : Word} {e : Engine} {cont : Option Word}
    (he : engineOf (w.toNat / 2 ^ 29) = some e)
    (hbad : isLong w.toNat = true → s.storeBad (s.core.nowAddr + 4) 4 = false)
    (hcont : if isLong w.toNat then cont = s.core.fetch (s.core.nowAddr + 4) ∧
      (cont.map fun x => isCont x.toNat) = some true else cont = none) :
    wordAct w s = .own (routeWord e w cont s) := by
  unfold wordAct
  rw [he]
  dsimp only
  cases hl : isLong w.toNat with
  | false =>
    rw [hl, if_neg Bool.false_ne_true] at hcont
    rw [hcont, if_neg Bool.false_ne_true]
  | true =>
    rw [hl, if_pos rfl] at hcont
    obtain ⟨hfetch, hiscont⟩ := hcont
    rw [if_pos rfl, hbad hl, if_neg Bool.false_ne_true, ← hfetch]
    cases cont with
    | none => cases hiscont
    | some x =>
      have hx : isCont x.toNat = true := by simpa using hiscont
      simp [hx]

/-- A move of the machine's own is the step's outcome. -/
theorem step_of_own {s : State} {o : Out} (h : nextAct s = .own o) : step s = o := by
  rw [step, h]

/-- Of a plain stream a nullified word is one that issues with no effect (R41). -/
theorem nullified_eq {s : State} (hn : noStep s = true) (hp : plainStream s = true) : nullified s = ctlDone s := by
  unfold ctlDone ctlDoneWith
  rw [State.advance_plain hp]
  exact (ctlTick_noStep (s := s.updCtl fun c => { c with pcq := s.core.rotate }) hn).symm

/-- Settles O32: the act at the head of the PC queue passes a nullified word and routes an engine word. -/
theorem stepRoutesEngineWord : Obligations.StepRoutesEngineWord := by
  intro s w e hs hp hn hfetch
  obtain ⟨-, hnest⟩ := plainStream_iff.mp hp
  have hnow : s.core.nowAddr = s.core.ctl.pcq.q0.addr := by simp [Core.nowAddr, hnest]
  refine ⟨fun hnul => ?_, fun cont hnul hbad he hcbad hcont => ?_⟩
  · have hact : streamAct s = .own (.next (nullified s)) := by simp [streamAct, headAct, hnest, hnul]
    obtain ⟨hframe, htick, hpcq⟩ := ctlDoneWith_frame id hn (.refl s) (.refl s)
    rw [nullified_eq hn hp] at hact
    exact ⟨_, step_of_own ((nextAct_of_stepsControl hs).trans hact), hframe, hpcq hp, htick⟩
  · rw [← hnow] at hcbad hcont
    have hstep : step s = routeWord e w cont s := step_of_own <| (nextAct_of_stepsControl hs).trans <|
      (streamAct_head hnest hnul hbad hfetch).trans (wordAct_engine he hcbad hcont)
    refine ⟨fun hw => ?_, fun hw => ?_⟩
    · obtain ⟨t, ht, hreg, hmem, hq, hpcq, htick, hqueue, hother⟩ := routeWord_pushes (cont := cont) hn hp hw
      exact ⟨t, _, hstep.trans ht, hreg, hmem, hq, hpcq, htick, hqueue, hother, rfl, rfl, hnow, rfl, rfl, rfl, rfl,
        by simp [Entry.agrees, Core.entryOf]⟩
    · obtain ⟨t, ht, hframe, hpcq, htick⟩ := wait_frame s
      exact ⟨t, (hstep.trans (routeWord_waits hw)).trans ht, hframe, hpcq, htick⟩

end Sys2Proof.Machine

namespace Sys2Proof.Machine

/-! ### An error of the system store, logged in host memory (R379, R380, R385)

`Obligations.TrapsInHandlerOrHook` has every byte of memory stand where a handler fetches from an uncorrectable error of
the system store. But the error is logged (`storeError`), and the record of a core that a tenant owns goes to the
tenant's event ring, which lies in host memory. So a state refutes it in which every die has booted and the ring is on. -/

/-- A handler of a core of tenant 0, whose event ring is on at host address 0, at a word of the system store that holds
an uncorrectable error. -/
def State.atBadStoreWord : State :=
  { State.reset with
    core := { Core.reset 0 with ctl := { bank1 := true, run := .running } }
    sys := { die := .replicate 4 { boot := .trimmed }, bad := [(.store 0, 0)]
             tenants := Vector.set (.replicate 16 {}) 0 { cores := [0], eren := true } } }

/-- The step writes the error record, of kind 3, into the ring. -/
theorem step_atBadStoreWord :
    ∃ u, step State.atBadStoreWord = .next u ∧ (u.mem .host).read 0 = 3 := ⟨_, rfl, rfl⟩

/-- Refutes O28: byte 0 of host memory, 0 before the double fault, is 3 after it. -/
theorem not_trapsInHandlerOrHook : ¬ Obligations.TrapsInHandlerOrHook := by
  intro h
  obtain ⟨-, -, hstore, -⟩ := h
  obtain ⟨u, hu, -, -, -, -, hmem⟩ := hstore State.atBadStoreWord (by decide) (.inl ⟨rfl, rfl, .inl (by decide)⟩)
  obtain ⟨v, hv, hbyte⟩ := step_atBadStoreWord
  obtain rfl : u = v := Host.Outcome.next.inj (hu.symm.trans hv)
  have hsame := hmem .host 0
  rw [hbyte] at hsame
  exact absurd hsame (by decide)

/-! ### A hook that ends into a live replay (R371, R301)

`Obligations.SpecialWrite` has the PC queue move as the write of ESTAT that clears HOOK issues, for every saved state.
Ending a hook puts the jig store back with its replay (`Core.leaveHook`), and the word that issues then moves a replay
that is live in place of the PC queue (`State.advance`). The statement asks nothing of the replay that the saved store
holds, so a state refutes it in which that replay is live, though a handler is entered with no live one
(`enterHandler`). -/

/-- A handler that has entered a hook while a replay was live. -/
def Core.hookOverReplay : Core :=
  Core.enterHook { Core.reset 0 with
    ctl := { bank1 := true }
    jig := { play := some { jig := 0, addr := 0, d := 0, next := 0, since := 0 } } }

/-- The same in the handler that ends the hook, no replay running. -/
def State.hookOverReplay : State := { State.reset with core := { Core.hookOverReplay with jig := {} } }

/-- The write that clears HOOK leaves the PC queue where it stood at reset (log 5). -/
theorem exec_mtsi_hookOverReplay : ∃ t, exec (.mtsi 0x028 0) State.hookOverReplay = .next t ∧
    t.core.ctl.pcq.q0.addr = 0 := ⟨_, rfl, rfl⟩

/-- Refutes O14: the PC queue stands as the hook ends, where the statement has it move from 0 to 4. -/
theorem not_specialWrite : ¬ Obligations.SpecialWrite := by
  intro h
  obtain ⟨-, -, hestat⟩ := h State.hookOverReplay (.mtsi 0x028 0) 0x028 0 [] rfl rfl rfl rfl rfl
  obtain ⟨-, -, hends⟩ := hestat rfl
  obtain ⟨-, hends⟩ := hends rfl rfl
  obtain ⟨saved, hsaved⟩ : ∃ saved, State.hookOverReplay.core.hook = some saved := ⟨_, rfl⟩
  obtain ⟨t, ht, hmoves, -⟩ := hends saved rfl hsaved
  obtain ⟨u, hu, hpcq⟩ := exec_mtsi_hookOverReplay
  obtain rfl : t = u := Host.Outcome.next.inj (ht.symm.trans hu)
  have hmoved : t.core.ctl.pcq.q0.addr = State.hookOverReplay.core.rotate.q0.addr := by rw [hmoves.pcq rfl]
  rw [hpcq] at hmoved
  exact absurd hmoved (by decide)

end Sys2Proof.Machine

namespace Sys2Proof.Laws

open Sys2Proof

/-! ### Every encoded instruction decodes to itself -/

/-- Decoding the words of an instruction gives it back: one lemma for each word, and an event has no words. -/
theorem roundTrip (i : Instr) : RoundTrip.Statement i := by
  cases i with
  | add d a b => exact RoundTrip.add d a b
  | sub d a b => exact RoundTrip.sub d a b
  | and d a b => exact RoundTrip.and d a b
  | or d a b => exact RoundTrip.or d a b
  | xor d a b => exact RoundTrip.xor d a b
  | andn d a b => exact RoundTrip.andn d a b
  | sll d a b => exact RoundTrip.sll d a b
  | srl d a b => exact RoundTrip.srl d a b
  | sra d a b => exact RoundTrip.sra d a b
  | rotl d a b => exact RoundTrip.rotl d a b
  | mul d a b => exact RoundTrip.mul d a b
  | mulh d a b => exact RoundTrip.mulh d a b
  | mulhu d a b => exact RoundTrip.mulhu d a b
  | div d a b => exact RoundTrip.div d a b
  | divu d a b => exact RoundTrip.divu d a b
  | rem d a b => exact RoundTrip.rem d a b
  | remu d a b => exact RoundTrip.remu d a b
  | min d a b => exact RoundTrip.min d a b
  | max d a b => exact RoundTrip.max d a b
  | minu d a b => exact RoundTrip.minu d a b
  | maxu d a b => exact RoundTrip.maxu d a b
  | clz d a => exact RoundTrip.clz d a
  | ctz d a => exact RoundTrip.ctz d a
  | popc d a => exact RoundTrip.popc d a
  | addi d a imm => exact RoundTrip.addi d a imm
  | andi d a imm => exact RoundTrip.andi d a imm
  | ori d a imm => exact RoundTrip.ori d a imm
  | xori d a imm => exact RoundTrip.xori d a imm
  | slli d a sh => exact RoundTrip.slli d a sh
  | srli d a sh => exact RoundTrip.srli d a sh
  | srai d a sh => exact RoundTrip.srai d a sh
  | lui d imm => exact RoundTrip.lui d imm
  | adrp d imm => exact RoundTrip.adrp d imm
  | ceq s a b => exact RoundTrip.ceq s a b
  | cne s a b => exact RoundTrip.cne s a b
  | clt s a b => exact RoundTrip.clt s a b
  | cge s a b => exact RoundTrip.cge s a b
  | cltu s a b => exact RoundTrip.cltu s a b
  | cgeu s a b => exact RoundTrip.cgeu s a b
  | cbs s a b => exact RoundTrip.cbs s a b
  | cbc s a b => exact RoundTrip.cbc s a b
  | ceqi s a imm => exact RoundTrip.ceqi s a imm
  | cnei s a imm => exact RoundTrip.cnei s a imm
  | clti s a imm => exact RoundTrip.clti s a imm
  | cgei s a imm => exact RoundTrip.cgei s a imm
  | cltui s a imm => exact RoundTrip.cltui s a imm
  | sand sd sa sb => exact RoundTrip.sand sd sa sb
  | sor sd sa sb => exact RoundTrip.sor sd sa sb
  | sxor sd sa sb => exact RoundTrip.sxor sd sa sb
  | snot sd sa => exact RoundTrip.snot sd sa
  | smov sd sa => exact RoundTrip.smov sd sa
  | sset sd => exact RoundTrip.sset sd
  | sclr sd => exact RoundTrip.sclr sd
  | prep s off => exact RoundTrip.prep s off
  | prepr s a => exact RoundTrip.prepr s a
  | bt s null => exact RoundTrip.bt s null
  | bf s null => exact RoundTrip.bf s null
  | ba s null => exact RoundTrip.ba s null
  | bl s null => exact RoundTrip.bl s null
  | ldb d a cls imm => exact RoundTrip.ldb d a cls imm
  | ldbu d a cls imm => exact RoundTrip.ldbu d a cls imm
  | ldh d a cls imm => exact RoundTrip.ldh d a cls imm
  | ldhu d a cls imm => exact RoundTrip.ldhu d a cls imm
  | ldw d a cls imm => exact RoundTrip.ldw d a cls imm
  | ldwu d a cls imm => exact RoundTrip.ldwu d a cls imm
  | ldd d a cls imm => exact RoundTrip.ldd d a cls imm
  | stb d a cls imm => exact RoundTrip.stb d a cls imm
  | sth d a cls imm => exact RoundTrip.sth d a cls imm
  | stw d a cls imm => exact RoundTrip.stw d a cls imm
  | std d a cls imm => exact RoundTrip.std d a cls imm
  | ldl d imm => exact RoundTrip.ldl d imm
  | lpool imm => exact RoundTrip.lpool imm
  | amow d a b fn ord scope => exact RoundTrip.amow d a b fn ord scope
  | amod d a b fn ord scope => exact RoundTrip.amod d a b fn ord scope
  | fence scope kind mask => exact RoundTrip.fence scope kind mask
  | mfs d sr => exact RoundTrip.mfs d sr
  | mts a sr => exact RoundTrip.mts a sr
  | mtsi sr imm => exact RoundTrip.mtsi sr imm
  | mtsr k a sr => exact RoundTrip.mtsr k a sr
  | qpush a q => exact RoundTrip.qpush a q
  | qpop d q => exact RoundTrip.qpop d q
  | qcnt d q => exact RoundTrip.qcnt d q
  | bar id => exact RoundTrip.bar id
  | plumb mark => exact RoundTrip.plumb mark
  | twait a => exact RoundTrip.twait a
  | sigev ev => exact RoundTrip.sigev ev
  | waitev ev => exact RoundTrip.waitev ev
  | phsw p => exact RoundTrip.phsw p
  | jigRec j => exact RoundTrip.jigRec j
  | jigEnd d => exact RoundTrip.jigEnd d
  | jigPlay d j => exact RoundTrip.jigPlay d j
  | jigStop a b => exact RoundTrip.jigStop a b
  | jigDrop j => exact RoundTrip.jigDrop j
  | pqpush a b => exact RoundTrip.pqpush a b
  | pqpop d b => exact RoundTrip.pqpop d b
  | pqtop d b => exact RoundTrip.pqtop d b
  | pqclr => exact RoundTrip.pqclr
  | pqcnt d => exact RoundTrip.pqcnt d
  | ngo k n => exact RoundTrip.ngo k n
  | nbrk s k => exact RoundTrip.nbrk s k
  | waitq mask => exact RoundTrip.waitq mask
  | trap imm => exact RoundTrip.trap imm
  | rft => exact RoundTrip.rft
  | retire => exact RoundTrip.retire
  | nop x => exact RoundTrip.nop x
  | brk => exact RoundTrip.brk
  | ldt t d st z tr => exact RoundTrip.ldt t d st z tr
  | ldq t q st => exact RoundTrip.ldq t q st
  | ldsc t target st => exact RoundTrip.ldsc t target st
  | ldx t d st rq rows => exact RoundTrip.ldx t d st rq rows
  | lgath t d st q => exact RoundTrip.lgath t d st q
  | lland t d slot => exact RoundTrip.lland t d slot
  | ladv t st level => exact RoundTrip.ladv t st level
  | lnop t => exact RoundTrip.lnop t
  | mma t o c => exact RoundTrip.mma t o c
  | mrun t k c => exact RoundTrip.mrun t k c
  | mdrain t a d slot ac => exact RoundTrip.mdrain t a d slot ac
  | azero t a => exact RoundTrip.azero t a
  | aread t a row q => exact RoundTrip.aread t a row q
  | apatch t a row mode => exact RoundTrip.apatch t a row mode
  | epset t slot st => exact RoundTrip.epset t slot st
  | epcon t bank st => exact RoundTrip.epcon t bank st
  | heaprd t q part => exact RoundTrip.heaprd t q part
  | heapclr t k => exact RoundTrip.heapclr t k
  | mchk t q => exact RoundTrip.mchk t q
  | mnop t => exact RoundTrip.mnop t
  | sdopen st => exact RoundTrip.sdopen st
  | sdrun n => exact RoundTrip.sdrun n
  | sdclose => exact RoundTrip.sdclose
  | sdstat => exact RoundTrip.sdstat
  | vadd t d a b p => exact RoundTrip.vadd t d a b p
  | vsub t d a b p => exact RoundTrip.vsub t d a b p
  | vmul t d a b p => exact RoundTrip.vmul t d a b p
  | vfma t d a b p => exact RoundTrip.vfma t d a b p
  | vmin t d a b p => exact RoundTrip.vmin t d a b p
  | vmax t d a b p => exact RoundTrip.vmax t d a b p
  | vabs t d a p => exact RoundTrip.vabs t d a p
  | vneg t d a p => exact RoundTrip.vneg t d a p
  | vrcp t d a p => exact RoundTrip.vrcp t d a p
  | vrsq t d a p => exact RoundTrip.vrsq t d a p
  | vexp2 t d a p => exact RoundTrip.vexp2 t d a p
  | vlog2 t d a p => exact RoundTrip.vlog2 t d a p
  | viadd t d a b p => exact RoundTrip.viadd t d a b p
  | visub t d a b p => exact RoundTrip.visub t d a b p
  | vimul t d a b p => exact RoundTrip.vimul t d a b p
  | vimin t d a b p => exact RoundTrip.vimin t d a b p
  | vimax t d a b p => exact RoundTrip.vimax t d a b p
  | viminu t d a b p => exact RoundTrip.viminu t d a b p
  | vimaxu t d a b p => exact RoundTrip.vimaxu t d a b p
  | vand t d a b p => exact RoundTrip.vand t d a b p
  | vor t d a b p => exact RoundTrip.vor t d a b p
  | vxor t d a b p => exact RoundTrip.vxor t d a b p
  | vshl t d a b p => exact RoundTrip.vshl t d a b p
  | vshr t d a b p => exact RoundTrip.vshr t d a b p
  | vsra t d a b p => exact RoundTrip.vsra t d a b p
  | vcmp t cc ty pd a b => exact RoundTrip.vcmp t cc ty pd a b
  | vsel t d a b p => exact RoundTrip.vsel t d a b p
  | plog t fn pd pa pb => exact RoundTrip.plog t fn pd pa pb
  | vcvt t d a conv rnd sat => exact RoundTrip.vcvt t d a conv rnd sat
  | vpack t d a b w => exact RoundTrip.vpack t d a b w
  | vunpk t d a b w => exact RoundTrip.vunpk t d a b w
  | vquant t d a f => exact RoundTrip.vquant t d a f
  | vdeq t d a f => exact RoundTrip.vdeq t d a f
  | vrsum t d a p => exact RoundTrip.vrsum t d a p
  | vrmax t d a nn p => exact RoundTrip.vrmax t d a nn p
  | vrmin t d a nn p => exact RoundTrip.vrmin t d a nn p
  | vperm t d a b p => exact RoundTrip.vperm t d a b p
  | vbcst t d a lane => exact RoundTrip.vbcst t d a lane
  | vmov t d a p => exact RoundTrip.vmov t d a p
  | vsplt t d imm => exact RoundTrip.vsplt t d imm
  | vsplf t d imm => exact RoundTrip.vsplf t d imm
  | vsplx t d p => exact RoundTrip.vsplx t d p
  | vrand t d p => exact RoundTrip.vrand t d p
  | vrset t a => exact RoundTrip.vrset t a
  | vrskip t a => exact RoundTrip.vrskip t a
  | vrget t d => exact RoundTrip.vrget t d
  | vdefer t a b p => exact RoundTrip.vdefer t a b p
  | vdrain t d fl p => exact RoundTrip.vdrain t d fl p
  | vdqn t d => exact RoundTrip.vdqn t d
  | vloop t => exact RoundTrip.vloop t
  | vrply t a rq lane => exact RoundTrip.vrply t a rq lane
  | vflag t d clr => exact RoundTrip.vflag t d clr
  | vnop t => exact RoundTrip.vnop t
  | copy t d s => exact RoundTrip.copy t d s
  | sqst t d => exact RoundTrip.sqst t d
  | xsend t s nb slot off => exact RoundTrip.xsend t s nb slot off
  | rsend t s peer tag => exact RoundTrip.rsend t s peer tag
  | rrecv t d red peer tag => exact RoundTrip.rrecv t d red peer tag
  | rfence t => exact RoundTrip.rfence t
  | atomv t st iq fn fin => exact RoundTrip.atomv t st iq fn fin
  | snop t => exact RoundTrip.snop t
  | _ => exact fun _ _ _ h => nomatch h

/-- Settles O57: every word of the table reads back. -/
theorem encodeDecode : Obligations.EncodeDecode := roundTrip

/-- Settles O56: each of the sixteen words is what the encoder gives its instruction, and that decodes to it. -/
theorem decodeWords : Obligations.DecodeWords := by
  unfold Obligations.DecodeWords
  and_intros
  all_goals exact encodeDecode _ _ _ rfl rfl

/-! ### Every decoded word is its instruction's encoding: what a decoder's answer says -/

/-- An answer of a decoder for the word `w` and its continuation `c` is sound: an instruction that it gives is
well-formed, and these are its words. -/
def Sound (w : Nat) (c : Option Nat) (r : Except Nat Instr) : Prop :=
  ∀ i, r = .ok i → wellFormed i = true ∧ encode i = some (w, c)

/-- No check of a list fails (R56). -/
def Passed (checks : List (Nat × Bool)) : Prop := ∀ x ∈ checks, x.2 = false

theorem sound_error {w : Nat} {c : Option Nat} {r : Nat} : Sound w c (.error r) := fun _ h => nomatch h

theorem sound_ok {w : Nat} {c : Option Nat} {i : Instr} (hwf : wellFormed i = true)
    (he : encode i = some (w, c)) : Sound w c (.ok i) := by
  rintro j ⟨⟩
  exact ⟨hwf, he⟩

theorem lowest_eq_none_iff (l : List (Nat × Bool)) : lowest l = none ↔ Passed l := by
  induction l with
  | nil => simp [lowest, Passed]
  | cons x l ih =>
    obtain ⟨r, f⟩ := x
    cases f
    · simpa [lowest, Passed] using ih
    · cases h : lowest l <;> simp [lowest, Passed, h]

theorem sound_accept {w : Nat} {c : Option Nat} {l : List (Nat × Bool)} {i : Instr}
    (h : Passed l → wellFormed i = true ∧ encode i = some (w, c)) : Sound w c (accept l i) := by
  intro j hj
  unfold accept at hj
  split at hj
  · cases hj
  next hl =>
    cases hj
    exact h ((lowest_eq_none_iff l).mp hl)

/-- The words of an instruction that has one word. -/
theorem oneWord {x w : Nat} (h : x = w) : some (x, (none : Option Nat)) = some (w, none) := by rw [h]

/-- The words of an instruction of the long form (R53). -/
theorem twoWords {x w y c : Nat} (h : x = w) (hc : y = c) : some (x, some y) = some (w, some c) := by rw [h, hc]

@[simp] theorem passed_nil : Passed [] := fun _ h => nomatch h
@[simp] theorem passed_cons (x : Nat × Bool) (l : List (Nat × Bool)) :
    Passed (x :: l) ↔ x.2 = false ∧ Passed l := List.forall_mem_cons
@[simp] theorem passed_append (l m : List (Nat × Bool)) : Passed (l ++ m) ↔ Passed l ∧ Passed m :=
  List.forall_mem_append

@[simp] theorem nz_passes (w lo n : Nat) : (nz w lo n).2 = false ↔ fld w lo n = 0 := by simp [nz, fld]
@[simp] theorem badS_passes (w lo : Nat) : (badS w lo).2 = false ↔ fld w lo 4 < 12 := by simp [badS, fld]
@[simp] theorem un31_passes (w lo : Nat) : (un31 w lo).2 = false ↔ fld w lo 5 = 31 := by simp [un31]

/-! ### Fields as numbers -/

@[simp] theorem fin32_val (w lo : Nat) : (fin32 w lo).val = fld w lo 5 := rfl
@[simp] theorem fin16_val (w lo : Nat) : (fin16 w lo).val = fld w lo 4 := rfl
@[simp] theorem fin8_val (w lo : Nat) : (fin8 w lo).val = fld w lo 3 := rfl
@[simp] theorem fin4_val (w lo : Nat) : (fin4 w lo).val = fld w lo 2 := rfl
@[simp] theorem fin2_val (w lo : Nat) : (fin2 w lo).val = fld w lo 1 := rfl
@[simp] theorem fin64_val (w lo : Nat) : (fin64 w lo).val = fld w lo 6 := rfl
@[simp] theorem immf_toNat (w lo n : Nat) : (immf w lo n).toNat = fld w lo n := BitVec.toNat_ofNat _ _
@[simp] theorem steerOk_fin16 (w lo : Nat) : steerOk (fin16 w lo) = decide (fld w lo 4 < 12) := rfl

theorem steerOk_of_passed {w lo : Nat} (h : (badS w lo).2 = false) : steerOk (fin16 w lo) = true :=
  decide_eq_true ((badS_passes w lo).mp h)

@[simp] theorem b2n_bit (w lo : Nat) : b2n (bit w lo) = fld w lo 1 := by
  rcases Nat.mod_two_eq_zero_or_one (w / 2 ^ lo) with h | h <;> simp [b2n, bit, fld, h]

theorem fld_lt (w lo n : Nat) : fld w lo n < 2 ^ n := Nat.mod_lt _ (Nat.two_pow_pos n)

/-- The fields of these widths that stand side by side from bit lo on, put together (R52). -/
def joined (w lo : Nat) : List Nat → Nat
  | [] => 0
  | n :: ns => fld w lo n + 2 ^ n * joined w (lo + n) ns

theorem fld_add (w lo m n : Nat) : fld w lo (m + n) = fld w lo m + 2 ^ m * fld w (lo + m) n := by
  simp only [fld, Nat.pow_add, Nat.mod_mul, Nat.div_div_eq_div_mul]

theorem joined_eq (w lo : Nat) (ns : List Nat) : joined w lo ns = fld w lo ns.sum := by
  induction ns generalizing lo with
  | nil => simp [joined, fld, Nat.mod_one]
  | cons n ns ih => rw [joined, ih, List.sum_cons, fld_add]

theorem word_joined {w n : Nat} (hw : w < 2 ^ n) (ns : List Nat) (hns : ns.sum = n) : joined w 0 ns = w := by
  rw [joined_eq, hns, fld, Nat.pow_zero, Nat.div_one, Nat.mod_eq_of_lt hw]

/-! ### Codes of operand sets -/

theorem atomFnNum_of {n : Nat} {f : AtomFn} (h : atomFnOf n = some f) : atomFnNum f = n := by
  unfold atomFnOf at h
  split at h <;> cases h <;> rfl
theorem popQNum_of {n : Nat} {q : PopQ} (h : popQOf n = some q) : popQNum q = n := by
  unfold popQOf at h
  split at h <;> cases h <;> rfl
theorem packNum_of {n : Nat} {k : PackW} (h : packWOf n = some k) : packNum k = n := by
  unfold packWOf at h
  split at h <;> cases h <;> rfl
theorem qfmtNum_of {n : Nat} {f : QFmt} (h : qfmtOf n = some f) : qfmtNum f = n := by
  unfold qfmtOf at h
  split at h <;> cases h <;> rfl
theorem rndNum_of {n : Nat} {r : Rnd} (h : rndOf n = some r) : rndNum r = n := by
  unfold rndOf at h
  split at h <;> cases h <;> rfl
theorem convNum_of {n : Nat} {c : Conv} (h : convOf n = some c) : convNum c = n := by
  unfold convOf at h
  split at h <;> cases h <;> rfl
theorem reduceNum_of {n : Nat} {r : Reduce} (h : reduceOf n = some r) : reduceNum r = n := by
  unfold reduceOf at h
  split at h <;> cases h <;> rfl
theorem atomvNum_of {n : Nat} {f : AtomV} (h : atomvOf n = some f) : atomvNum f = n := by
  unfold atomvOf at h
  split at h <;> cases h <;> rfl

@[simp] theorem ordNum_ordOf (w lo : Nat) : ordNum (ordOf (fld w lo 2)) = fld w lo 2 :=
  (by decide : ∀ n < 2 ^ 2, ordNum (ordOf n) = n) _ (fld_lt w lo 2)
@[simp] theorem scopeNum_scopeOf (w lo : Nat) : scopeNum (scopeOf (fld w lo 2)) = fld w lo 2 :=
  (by decide : ∀ n < 2 ^ 2, scopeNum (scopeOf n) = n) _ (fld_lt w lo 2)
@[simp] theorem vccNum_vccOf (w lo : Nat) : vccNum (vccOf (fld w lo 3)) = fld w lo 3 :=
  (by decide : ∀ n < 2 ^ 3, vccNum (vccOf n) = n) _ (fld_lt w lo 3)
@[simp] theorem pfnNum_pfnOf (w lo : Nat) : pfnNum (pfnOf (fld w lo 3)) = fld w lo 3 :=
  (by decide : ∀ n < 2 ^ 3, pfnNum (pfnOf n) = n) _ (fld_lt w lo 3)

/-! ### Control words

In each case of a decoder the checks that passed give the bits outside the operands' fields, and `omega` puts the word
together again from its fields. Where a decoder splits on a function or operation code, `h_(n + 1)` is the case of code
`n`; the last case is that of the codes without a meaning. -/

/-- The null field of a branch (R59). -/
def nullNum : NullMode → Nat
  | .none => 0 | .nt => 1 | .tk => 2

theorem encB_eq (kind : Nat) (s : Fin 16) (n : NullMode) :
    encB kind s n = 0x13 * 8388608 + s.val * 524288 + kind * 131072 + nullNum n * 32768 := by cases n <;> rfl

section
variable {w op fn : Nat} (hw : w < 2 ^ 29) (hop : fld w 23 6 = op)
include hw hop

/-- CR layout (R57). -/
theorem encR_fields {b : Fin 32} (h0 : op = 0x00) (hf : fld w 0 8 = fn) (hb : fld w 8 5 = b.val) :
    encR fn (fin32 w 18) (fin32 w 13) b = w := by
  simp only [encR, fin32_val, fld, Nat.reducePow] at *
  omega

/-- CI layout (R57). -/
theorem encI_fields {imm : Nat} (hi : fld w 0 13 = imm) : encI op (fin32 w 18) (fin32 w 13) imm = w := by
  simp only [encI, fin32_val, fld, Nat.reducePow] at *
  omega

/-- CU layout (R57). -/
theorem encU_fields {d : Fin 32} (hd : fld w 18 5 = d.val) : encU op d (immf w 0 18) = w := by
  simp only [encU, immf_toNat, fld, Nat.reducePow] at *
  omega

/-- CS layout (R57). -/
theorem encC_fields (h10 : op = 0x0A) (hf : fld w 0 8 = fn) (hz : fld w 18 1 = 0) :
    encC fn (fin16 w 19) (fin32 w 13) (fin32 w 8) = w := by
  simp only [encC, fin16_val, fin32_val, fld, Nat.reducePow] at *
  omega

/-- CSI layout (R57). -/
theorem encCI_fields : encCI op (fin16 w 19) (fin32 w 14) (immf w 0 14) = w := by
  simp only [encCI, fin16_val, fin32_val, immf_toNat, fld, Nat.reducePow] at *
  omega

/-- CL layout (R57). -/
theorem encL_fields {a b : Nat} (h16 : op = 0x10) (hf : fld w 8 3 = fn) (hz : fld w 0 8 = 0) (ha : fld w 15 4 = a)
    (hb : fld w 11 4 = b) : encL fn (fin16 w 19).val a b = w := by
  simp only [encL, fin16_val, fld, Nat.reducePow] at *
  omega

/-- CB layout (R57). -/
theorem encB_fields {n : NullMode} (h19 : op = 0x13) (hf : fld w 17 2 = fn) (hz : fld w 0 15 = 0)
    (hn : fld w 15 2 = nullNum n) : encB fn (fin16 w 19) n = w := by
  rw [encB_eq]
  simp only [fin16_val, fld, Nat.reducePow] at *
  omega

/-- CM layout (R57). -/
theorem encM_fields : encM op (fin32 w 18) (fin32 w 13) (fin16 w 9) (immf w 0 9) = w := by
  simp only [encM, fin16_val, fin32_val, immf_toNat, fld, Nat.reducePow] at *
  omega

end

theorem decodeAlu_sound {w : Nat} (hw : w < 2 ^ 29) (hop : fld w 23 6 = 0x00) : Sound w none (decodeAlu w) := by
  unfold decodeAlu
  split
  case h_22 | h_23 | h_24 =>
    refine sound_accept fun hz => ⟨rfl, oneWord (encR_fields hw hop rfl ‹_› ?_)⟩
    simpa using hz
  case h_25 => exact sound_error
  all_goals exact sound_ok rfl (oneWord (encR_fields hw hop rfl ‹_› rfl))

theorem decodeCmp_sound {w : Nat} (hw : w < 2 ^ 29) (hop : fld w 23 6 = 0x0A) : Sound w none (decodeCmp w) := by
  unfold decodeCmp
  split
  case h_9 => exact sound_error
  all_goals
    refine sound_accept fun hz => ?_
    simp only [passed_cons, nz_passes, badS_passes] at hz
    exact ⟨decide_eq_true hz.2.1, oneWord (encC_fields hw hop rfl ‹_› hz.1)⟩

theorem decodeSteer_sound {w : Nat} (hw : w < 2 ^ 29) (hop : fld w 23 6 = 0x10) : Sound w none (decodeSteer w) := by
  unfold decodeSteer
  split
  case h_8 => exact sound_error
  all_goals
    refine sound_accept fun hz => ?_
    simp at hz
    exact ⟨by simp [wellFormed, hz], oneWord (encL_fields hw hop rfl ‹_› hz.1 (by simp [hz]) (by simp [hz]))⟩

theorem decodeBranch_sound {w : Nat} (hw : w < 2 ^ 29) (hop : fld w 23 6 = 0x13) : Sound w none (decodeBranch w) := by
  have hlt := fld_lt w 17 2
  have hsound : ∀ {n : NullMode} {k : Nat} {i : Instr}, fld w 15 2 = nullNum n → fld w 17 2 = k →
      wellFormed i = steerOk (fin16 w 19) → encode i = some (encB k (fin16 w 19) n, none) →
      Sound w none (accept [nz w 0 15, badS w 19] i) := fun hn hk hi he => sound_accept fun hz => by
    simp only [passed_cons, nz_passes] at hz
    exact ⟨hi.trans (steerOk_of_passed hz.2.1), he.trans (oneWord (encB_fields hw hop rfl hk hz.1 hn))⟩
  unfold decodeBranch
  dsimp only
  split
  case h_4 => exact sound_error
  all_goals
    split
    case h_4 => exact hsound (k := 3) ‹_› (by simp only [imp_false] at *; omega) rfl rfl
    all_goals exact hsound ‹_› ‹_› rfl rfl

theorem decodeAtomic_sound {w : Nat} (wide : Bool) (hw : w < 2 ^ 29)
    (hop : fld w 23 6 = if wide then 0x22 else 0x21) : Sound w none (decodeAtomic wide w) := by
  unfold decodeAtomic
  split
  case h_1 => exact sound_error
  next f hf =>
    have hfn := atomFnNum_of hf
    cases wide
    all_goals
      refine sound_ok rfl (oneWord ?_)
      simp [encA, hfn]
      simp [fld] at *
      omega

theorem decodeFence_sound {w : Nat} (hw : w < 2 ^ 29) (hop : fld w 23 6 = 0x23) : Sound w none (decodeFence w) := by
  unfold decodeFence
  dsimp only
  split
  case h_4 => exact sound_error
  all_goals
    refine sound_accept fun hz => ⟨rfl, oneWord ?_⟩
    simp
    simp [fld] at *
    omega

theorem decodePush_sound {w : Nat} (hw : w < 2 ^ 29) (hop : fld w 23 6 = 0x27) : Sound w none (decodePush w) := by
  unfold decodePush
  dsimp only
  split
  case h_3 => split <;> exact sound_error
  all_goals
    refine sound_accept fun hz => ⟨rfl, oneWord ?_⟩
    simp [fld] at *
    omega

theorem decodePop_sound {w : Nat} (cnt : Bool) (hw : w < 2 ^ 29)
    (hop : fld w 23 6 = if cnt then 0x29 else 0x28) : Sound w none (decodePop cnt w) := by
  unfold decodePop
  split
  case h_1 => exact sound_error
  next q hq =>
    have hqn := popQNum_of hq
    cases cnt
    all_goals
      refine sound_accept fun hz => ⟨rfl, oneWord ?_⟩
      simp [fld, hqn] at *
      omega

theorem decodeEvent_sound {w : Nat} (sig : Bool) (hw : w < 2 ^ 29)
    (hop : fld w 23 6 = if sig then 0x2D else 0x2E) : Sound w none (decodeEvent sig w) := by
  unfold decodeEvent
  have hbit := b2n_bit w 16
  cases hR : bit w 16
  all_goals
    cases sig
    all_goals
      refine sound_accept fun hz => ⟨rfl, oneWord ?_⟩
      simp [fld, encE, b2n, hR] at *
      omega

theorem decodeJig_sound {w : Nat} (hw : w < 2 ^ 29) (hop : fld w 23 6 = 0x30) : Sound w none (decodeJig w) := by
  unfold decodeJig
  dsimp only
  split
  case h_6 => exact sound_error
  all_goals
    refine sound_accept fun hz => ⟨rfl, oneWord ?_⟩
    simp [fld, encJ] at *
    omega

theorem decodePq_sound {w : Nat} (hw : w < 2 ^ 29) (hop : fld w 23 6 = 0x32) : Sound w none (decodePq w) := by
  unfold decodePq
  dsimp only
  split
  case h_6 => exact sound_error
  all_goals
    refine sound_accept fun hz => ⟨rfl, oneWord ?_⟩
    simp [fld, encJ] at *
    omega

theorem decodeControl_sound {w : Nat} (hw : w < 2 ^ 29) : Sound w none (decodeControl w) := by
  unfold decodeControl
  dsimp only
  split
  case h_1 => exact decodeAlu_sound hw ‹_›
  case h_11 => exact decodeCmp_sound hw ‹_›
  case h_17 => exact decodeSteer_sound hw ‹_›
  case h_20 => exact decodeBranch_sound hw ‹_›
  case h_34 => exact decodeAtomic_sound false hw ‹_›
  case h_35 => exact decodeAtomic_sound true hw ‹_›
  case h_36 => exact decodeFence_sound hw ‹_›
  case h_40 => exact decodePush_sound hw ‹_›
  case h_41 => exact decodePop_sound false hw ‹_›
  case h_42 => exact decodePop_sound true hw ‹_›
  case h_46 => exact decodeEvent_sound true hw ‹_›
  case h_47 => exact decodeEvent_sound false hw ‹_›
  case h_49 => exact decodeJig_sound hw ‹_›
  case h_51 => exact decodePq_sound hw ‹_›
  case h_60 => exact sound_error
  case h_2 | h_3 | h_4 | h_5 => exact sound_ok rfl (oneWord (encI_fields hw ‹_› (immf_toNat ..).symm))
  case h_9 | h_10 | h_32 => exact sound_ok rfl (oneWord (encU_fields hw ‹_› rfl))
  case h_21 | h_22 | h_23 | h_24 | h_25 | h_26 | h_27 | h_28 | h_29 | h_30 | h_31 =>
    exact sound_ok rfl (oneWord (encM_fields hw ‹_›))
  case h_12 | h_13 | h_14 | h_15 | h_16 =>
    exact sound_accept fun hz => ⟨steerOk_of_passed (hz _ (by simp)), oneWord (encCI_fields hw ‹_›)⟩
  -- LPOOL
  case h_33 => exact sound_accept fun hz => ⟨rfl, oneWord (encU_fields hw ‹_› (by simpa using hz))⟩
  -- MTSI, NOP
  case h_39 | h_58 =>
    refine sound_ok rfl (oneWord ?_)
    simp only [fld, immf_toNat, Nat.reducePow] at *
    omega
  -- PREP, PREPR, NBRK
  case h_18 | h_19 | h_53 =>
    refine sound_accept fun hz => ⟨steerOk_of_passed (hz _ (by simp)), oneWord ?_⟩
    simp [fld] at *
    omega
  -- NGO
  case h_52 =>
    refine sound_accept fun hz => ⟨by simp at hz; simp [wellFormed]; omega, oneWord ?_⟩
    simp [fld] at *
    omega
  all_goals
    refine sound_accept fun hz => ⟨rfl, oneWord ?_⟩
    simp [fld, encI] at *
    omega

/-! ### Engine words -/

/-- The engine field, the token bits and the opcode of a word, with the rest of its bits. -/
theorem eword_tokOf {w e op : Nat} (hw : w < 2 ^ 32) (he : fld w 29 3 = e) (hop : fld w 19 6 = op) :
    eword e op (tokOf w) + fld w 0 19 = w := by
  simp only [eword, tokOf, b2n_bit, fld] at *
  omega

/-- The same with the fields of a format, whose widths make up the other 19 bits. -/
theorem engine_parts {w e op : Nat} (hw : w < 2 ^ 32) (he : fld w 29 3 = e) (hop : fld w 19 6 = op) (ns : List Nat)
    (hns : ns.sum = 19) : eword e op (tokOf w) + joined w 0 ns = w := by
  rw [joined_eq, hns]
  exact eword_tokOf hw he hop

theorem ldestNum_ldestOf {w : Nat} (h : (badDest w).2 = false) : ldestNum (ldestOf w) = fld w 14 5 := by
  simp only [badDest, decide_eq_false_iff_not] at h
  unfold ldestOf
  split
  all_goals
    simp only [ldestNum, fin16_val, fin4_val, fld, Nat.reducePow] at *
    omega

theorem drainNum_drainDestOf {w : Nat} (h : ¬ (fld w 12 5 < 24 ∨ fld w 12 5 = 29 ∨ fld w 12 5 = 30)) :
    drainNum (drainDestOf w) = fld w 12 5 := by
  unfold drainDestOf
  split
  all_goals
    simp only [drainNum, fin4_val, fld, Nat.reducePow, imp_false] at *
    omega

theorem vsrcNum_vsrcOf {w lo : Nat} (h : (badSrc w lo).2 = false) : vsrcNum (vsrcOf w lo) = fld w lo 5 := by
  have hlt := fld_lt w lo 5
  simp only [badSrc, decide_eq_false_iff_not] at h
  simp only [vsrcOf]
  split
  · rfl
  split
  · simp only [vsrcNum, fin4_val, fld, Nat.reducePow] at *
    omega
  split
  all_goals
    simp only [vsrcNum]
    omega

theorem vdstNum_vdstOf {w : Nat} (h : (badDst w).2 = false) : vdstNum (vdstOf w) = fld w 14 5 := by
  have hlt := fld_lt w 14 5
  simp only [badDst, decide_eq_false_iff_not] at h
  simp only [vdstOf]
  split
  · rfl
  split
  · simp only [vdstNum]
    omega
  split
  all_goals
    simp only [vdstNum]
    omega

theorem decodeLoad_sound {w : Nat} (hw : w < 2 ^ 32) (he : fld w 29 3 = 1) : Sound w none (decodeLoad w) := by
  unfold decodeLoad
  dsimp only
  split
  case h_9 => exact sound_error
  case h_1 =>
    have hparts := engine_parts hw he ‹_› [9, 1, 1, 4, 4] rfl
    refine sound_accept fun hz => ⟨rfl, oneWord ?_⟩
    simp [joined] at *
    omega
  case h_2 =>
    have hparts := engine_parts hw he ‹_› [11, 4, 2, 2] rfl
    refine sound_accept fun hz => ⟨rfl, oneWord ?_⟩
    simp [joined] at *
    omega
  case h_3 =>
    have hparts := engine_parts hw he ‹_› [11, 4, 3, 1] rfl
    refine sound_accept fun hz => ⟨rfl, oneWord ?_⟩
    simp [joined] at *
    omega
  case h_4 =>
    have hparts := engine_parts hw he ‹_› [9, 1, 4, 5] rfl
    refine sound_accept fun hz => ⟨by simp at hz; simp [wellFormed]; omega, oneWord ?_⟩
    have hd := ldestNum_ldestOf (w := w) (hz _ (by simp))
    simp [joined, hd] at *
    omega
  case h_5 =>
    have hparts := engine_parts hw he ‹_› [8, 2, 4, 5] rfl
    refine sound_accept fun hz => ⟨rfl, oneWord ?_⟩
    have hd := ldestNum_ldestOf (w := w) (hz _ (by simp))
    simp [joined, hd] at *
    omega
  case h_6 =>
    have hparts := engine_parts hw he ‹_› [4, 6, 4, 5] rfl
    refine sound_accept fun hz => ⟨rfl, oneWord ?_⟩
    have hd := ldestNum_ldestOf (w := w) (hz _ (by simp))
    simp [joined, hd] at *
    omega
  case h_7 =>
    have hparts := engine_parts hw he ‹_› [3, 8, 4, 4] rfl
    refine sound_accept fun hz => ⟨by simp at hz; simp [wellFormed, hz], oneWord ?_⟩
    simp [joined] at *
    omega
  case h_8 =>
    have hparts := engine_parts hw he ‹_› [19] rfl
    refine sound_accept fun hz => ⟨rfl, oneWord ?_⟩
    simp [joined] at *
    omega

theorem decodeStream_sound {w : Nat} (hw : w < 2 ^ 32) (he : fld w 29 3 = 5) : Sound w none (decodeStream w) := by
  unfold decodeStream
  dsimp only
  split
  case h_5 => exact sound_error
  case h_2 =>
    refine sound_accept fun hz => ?_
    simp at hz
    refine ⟨by simp [wellFormed]; omega, oneWord ?_⟩
    simp [fld] at *
    omega
  all_goals
    refine sound_accept fun hz => ⟨rfl, oneWord ?_⟩
    simp at hz
    simp [fld] at *
    omega

/-! ### Matrix-engine words -/

/-- The matrix-engine words of one word (R61, R62): all but the two products. -/
theorem decodeMatrix_sound {w : Nat} (hw : w < 2 ^ 32) (he : fld w 29 3 = 2) (hop : 2 ≤ fld w 19 6) :
    Sound w none (decodeMatrix w 0) := by
  unfold decodeMatrix
  dsimp only
  split
  case h_1 | h_2 => omega
  case h_13 => exact sound_error
  case h_3 =>
    have hparts := engine_parts hw he ‹_› [8, 1, 3, 5, 2] rfl
    refine sound_accept fun hz => ⟨rfl, oneWord ?_⟩
    have hd := drainNum_drainDestOf (w := w) (by simp at hz; simp [hz])
    simp [joined, hd] at *
    omega
  case h_4 | h_11 =>
    have hparts := engine_parts hw he ‹_› [17, 2] rfl
    refine sound_accept fun hz => ⟨rfl, oneWord ?_⟩
    simp [joined] at *
    omega
  case h_5 =>
    have hparts := engine_parts hw he ‹_› [9, 2, 6, 2] rfl
    refine sound_accept fun hz => ⟨rfl, oneWord ?_⟩
    simp [joined] at *
    omega
  case h_6 =>
    have hparts := engine_parts hw he ‹_› [9, 2, 6, 2] rfl
    split
    case h_4 => exact sound_error
    all_goals
      refine sound_accept fun hz => ⟨rfl, oneWord ?_⟩
      simp [joined] at *
      omega
  case h_7 | h_8 =>
    have hparts := engine_parts hw he ‹_› [11, 4, 1, 3] rfl
    refine sound_accept fun hz => ⟨rfl, oneWord ?_⟩
    simp [joined] at *
    omega
  case h_9 =>
    have hparts := engine_parts hw he ‹_› [16, 1, 2] rfl
    refine sound_accept fun hz => ⟨rfl, oneWord ?_⟩
    simp [joined] at *
    omega
  case h_10 =>
    have hparts := engine_parts hw he ‹_› [13, 6] rfl
    refine sound_accept fun hz => ⟨rfl, oneWord ?_⟩
    simp [joined] at *
    omega
  case h_12 =>
    have hparts := engine_parts hw he ‹_› [19] rfl
    refine sound_accept fun hz => ⟨rfl, oneWord ?_⟩
    simp [joined] at *
    omega

theorem encMmaCont_fields {c : Nat} (hc : c < 2 ^ 32) (h7 : fld c 29 3 = 7) (h : Passed (mmaContChecks c)) :
    mmaContOk (mmaContOf c) = true ∧ encMmaCont (mmaContOf c) = c := by
  have hparts := word_joined hc [11, 1, 9, 8, 3] rfl
  simp [mmaContChecks, mmaContOk, mmaContOf, encMmaCont, joined] at *
  omega

theorem bscaleNum_bscaleOf {w : Nat} (h : ¬ fld w 4 2 = 3) : bscaleNum (bscaleOf w) = fld w 4 2 := by
  have hlt := fld_lt w 4 2
  unfold bscaleOf
  interval_cases fld w 4 2
  · rfl
  · rfl
  · rfl
  · exact absurd rfl h

/-- A product's B source and B scale in their fields, the combinations of R61 among the checks. -/
theorem mmaOps_fields {w c : Nat} (h : Passed (mmaChecks w c)) :
    bsrcNum (bsrcOf w) = fld w 8 5 ∧ bscaleNum (bscaleOf w) = fld w 4 2 ∧
      mmaOpsOk (mmaOpsOf w) (mmaContOf c) = true := by
  simp only [mmaChecks, passed_cons, decide_eq_false_iff_not] at h
  obtain ⟨-, h17, -, h3, hb, hscf, htb, -⟩ := h
  have hs := bscaleNum_bscaleOf h3
  rcases Nat.lt_or_ge (fld w 8 5) 16 with h16 | h16
  · have hsrc : bsrcOf w = .tile (fin16 w 8) := if_pos h16
    have hne : bscaleOf w ≠ .scf := fun h => hscf ⟨h16, by rw [← hs, h]; rfl⟩
    refine ⟨?_, hs, ?_⟩
    · simp only [hsrc, bsrcNum, fin16_val, fld, Nat.reducePow] at *
      omega
    · cases h : bscaleOf w <;> simp_all [mmaOpsOk, mmaOpsOf]
  · have h16 : fld w 8 5 = 16 := by omega
    have hsrc : bsrcOf w = .wsf := if_neg (by omega)
    have hne : bscaleOf w ≠ .bf := fun h => hb ⟨h16, by rw [← hs, h]; rfl⟩
    have htb : bit c 11 = false := by simpa [bit, fld] using fun h => htb ⟨h16, h⟩
    refine ⟨by rw [hsrc, h16, bsrcNum], hs, ?_⟩
    cases h : bscaleOf w <;> simp_all [mmaOpsOk, mmaOpsOf, mmaContOf]

/-- The products, whose continuation is checked with the word (R61). -/
theorem decodeMatrix_sound_long {w c : Nat} (hw : w < 2 ^ 32) (hc : c < 2 ^ 32) (he : fld w 29 3 = 2)
    (hop : fld w 19 6 < 2) (h7 : fld c 29 3 = 7) : Sound w (some c) (decodeMatrix w c) := by
  unfold decodeMatrix
  dsimp only
  split
  case h_1 =>
    have hparts := engine_parts hw he ‹_› [2, 1, 1, 2, 1, 1, 5, 4, 2] rfl
    have hslot := fld_add w 6 1 1
    refine sound_accept fun hz => ?_
    obtain ⟨hops, hcont⟩ := (passed_append _ _).mp hz
    obtain ⟨hb, hs, hok⟩ := mmaOps_fields hops
    obtain ⟨hcok, hcw⟩ := encMmaCont_fields hc h7 hcont
    refine ⟨by simp [wellFormed, hcok, hok], twoWords ?_ hcw⟩
    simp [mmaChecks, mmaOpsOf, hb, hs, joined] at *
    omega
  case h_2 =>
    have hparts := engine_parts hw he ‹_› [18, 1] rfl
    refine sound_accept fun hz => ?_
    obtain ⟨hz, hcont⟩ := (passed_cons _ _).mp hz
    obtain ⟨hcok, hcw⟩ := encMmaCont_fields hc h7 hcont
    refine ⟨hcok, twoWords ?_ hcw⟩
    simp [joined] at *
    omega
  case h_13 => exact sound_error
  all_goals omega

/-! ### Vector-engine words -/

/-- A flag in a field of five bits. -/
theorem fld_one_of_le {w lo : Nat} (h : fld w lo 5 ≤ 1) : fld w lo 1 = fld w lo 5 := by
  simp only [fld] at *
  omega

theorem b2n_bit_of_le {w lo : Nat} (h : fld w lo 5 ≤ 1) : b2n (bit w lo) = fld w lo 5 :=
  (b2n_bit w lo).trans (fld_one_of_le h)

/-- The operands of a vector word in their fields (R64). -/
theorem encV_fields {w op d a b p : Nat} (hw : w < 2 ^ 32) (he : fld w 29 3 = 3) (hop : fld w 19 6 = op)
    (hd : d = fld w 14 5) (ha : a = fld w 9 5) (hb : b = fld w 4 5) (hp : p = fld w 0 4) :
    encV op (tokOf w) d a b p = w := by
  have hparts := engine_parts hw he hop [4, 5, 5, 5] rfl
  subst hd ha hb hp
  simp [encV, joined] at *
  omega

section
variable {w op : Nat} (hw : w < 2 ^ 32) (he : fld w 29 3 = 3) (hop : fld w 19 6 = op)
include hw he hop

theorem vr3_sound {f : Tok → VDst → VSrc → VSrc → Fin 16 → Instr}
    (hf : ∀ t d a b p, wellFormed (f t d a b p) = true ∧
      encode (f t d a b p) = some (encV op t (vdstNum d) (vsrcNum a) (vsrcNum b) p.val, none)) :
    Sound w none (vr3 w f) := by
  refine sound_accept fun hz => ⟨(hf ..).1, (hf ..).2.trans (oneWord ?_)⟩
  simp only [passed_cons] at hz
  obtain ⟨hd, ha, hb, -⟩ := hz
  exact encV_fields hw he hop (vdstNum_vdstOf hd) (vsrcNum_vsrcOf ha) (vsrcNum_vsrcOf hb) rfl

theorem vr2_sound {f : Tok → VDst → VSrc → Fin 16 → Instr}
    (hf : ∀ t d a p, wellFormed (f t d a p) = true ∧
      encode (f t d a p) = some (encV op t (vdstNum d) (vsrcNum a) 31 p.val, none)) :
    Sound w none (vr2 w f) := by
  refine sound_accept fun hz => ⟨(hf ..).1, (hf ..).2.trans (oneWord ?_)⟩
  simp only [passed_cons, un31_passes] at hz
  obtain ⟨hd, ha, hb, -⟩ := hz
  exact encV_fields hw he hop (vdstNum_vdstOf hd) (vsrcNum_vsrcOf ha) hb.symm rfl

theorem vr1_sound {f : Tok → VDst → Fin 16 → Instr}
    (hf : ∀ t d p, wellFormed (f t d p) = true ∧
      encode (f t d p) = some (encV op t (vdstNum d) 31 31 p.val, none)) :
    Sound w none (vr1 w f) := by
  refine sound_accept fun hz => ⟨(hf ..).1, (hf ..).2.trans (oneWord ?_)⟩
  simp only [passed_cons, un31_passes] at hz
  obtain ⟨hd, ha, hb, -⟩ := hz
  exact encV_fields hw he hop (vdstNum_vdstOf hd) ha.symm hb.symm rfl

theorem vrN_sound {f : Tok → VDst → VSrc → Bool → Fin 16 → Instr}
    (hf : ∀ t d a nn p, wellFormed (f t d a nn p) = true ∧
      encode (f t d a nn p) = some (encV op t (vdstNum d) (vsrcNum a) (b2n nn) p.val, none)) :
    Sound w none (vrN w f) := by
  refine sound_accept fun hz => ⟨(hf ..).1, (hf ..).2.trans (oneWord ?_)⟩
  simp only [passed_cons, decide_eq_false_iff_not, not_le] at hz
  obtain ⟨hd, ha, hb, -⟩ := hz
  exact encV_fields hw he hop (vdstNum_vdstOf hd) (vsrcNum_vsrcOf ha) (b2n_bit_of_le (Nat.le_of_lt_succ hb)) rfl

theorem decodePack_sound {f : Tok → VDst → VSrc → VSrc → PackW → Instr}
    (hf : ∀ t d a b k, wellFormed (f t d a b k) = true ∧
      encode (f t d a b k) = some (encV op t (vdstNum d) (vsrcNum a) (vsrcNum b) (packNum k), none)) :
    Sound w none (decodePack w f) := by
  unfold decodePack
  split
  case h_2 => exact sound_error
  next k hk =>
    refine sound_accept fun hz => ⟨(hf ..).1, (hf ..).2.trans (oneWord ?_)⟩
    simp only [passed_cons] at hz
    obtain ⟨hd, ha, hb, -⟩ := hz
    exact encV_fields hw he hop (vdstNum_vdstOf hd) (vsrcNum_vsrcOf ha) (vsrcNum_vsrcOf hb) (packNum_of hk)

theorem decodeQuant_sound {f : Tok → VDst → VSrc → QFmt → Instr}
    (hf : ∀ t d a k, wellFormed (f t d a k) = true ∧
      encode (f t d a k) = some (encV op t (vdstNum d) (vsrcNum a) 31 (qfmtNum k), none)) :
    Sound w none (decodeQuant w f) := by
  unfold decodeQuant
  split
  case h_2 => exact sound_error
  next k hk =>
    refine sound_accept fun hz => ⟨(hf ..).1, (hf ..).2.trans (oneWord ?_)⟩
    simp only [passed_cons, un31_passes] at hz
    obtain ⟨hd, ha, hb, -⟩ := hz
    exact encV_fields hw he hop (vdstNum_vdstOf hd) (vsrcNum_vsrcOf ha) hb.symm (qfmtNum_of hk)

end

theorem wellFormed_vcmp {w : Nat} {t : Tok} {ty : VTy} {pd : Fin 16} {a b : VSrc}
    (h : ¬ (ty ≠ .f ∧ 6 ≤ fld w 16 3)) : wellFormed (.vcmp t (vccOf (fld w 16 3)) ty pd a b) = true := by
  have hlt := fld_lt w 16 3
  cases ty
  · interval_cases fld w 16 3 <;> rfl
  all_goals
    have h6 : fld w 16 3 < 6 := by simpa using h
    interval_cases fld w 16 3 <;> rfl

theorem decodeVcmp_sound {w : Nat} (hw : w < 2 ^ 32) (he : fld w 29 3 = 3) (hop : fld w 19 6 = 0x19) :
    Sound w none (decodeVcmp w) := by
  have hparts := engine_parts hw he hop [2, 5, 5, 4, 3] rfl
  have hsound : ∀ ty : VTy, fld w 0 2 = vtyNum ty → Sound w none
      (accept [badSrc w 7, badSrc w 2, (0x02, decide (ty ≠ .f ∧ 6 ≤ fld w 16 3))]
        (.vcmp (tokOf w) (vccOf (fld w 16 3)) ty (fin16 w 12) (vsrcOf w 7) (vsrcOf w 2))) := by
    refine fun ty hty => sound_accept fun hz => ?_
    simp only [passed_cons, decide_eq_false_iff_not] at hz
    obtain ⟨ha, hb, hcc, -⟩ := hz
    refine ⟨wellFormed_vcmp hcc, oneWord ?_⟩
    rw [vccNum_vccOf, vsrcNum_vsrcOf ha, vsrcNum_vsrcOf hb, ← hty, fin16_val]
    simp [joined] at hparts
    omega
  unfold decodeVcmp
  dsimp only
  split
  · exact hsound .f ‹_›
  · exact hsound .i ‹_›
  · exact hsound .u ‹_›
  · exact sound_error

theorem wellFormed_plog {w : Nat} {t : Tok} {pd : Fin 16} (h4 : ¬ (4 ≤ fld w 4 3 ∧ fld w 7 4 ≠ 0))
    (h6 : ¬ (6 ≤ fld w 4 3 ∧ fld w 11 4 ≠ 0)) :
    wellFormed (.plog t (pfnOf (fld w 4 3)) pd (fin16 w 11) (fin16 w 7)) = true := by
  have hb : 4 ≤ fld w 4 3 → fin16 w 7 = 0 := fun h => Fin.ext (by simp; omega)
  have ha : 6 ≤ fld w 4 3 → fin16 w 11 = 0 := fun h => Fin.ext (by simp; omega)
  have hlt := fld_lt w 4 3
  interval_cases fld w 4 3 <;> simp_all [wellFormed, pfnOf]

theorem decodePlog_sound {w : Nat} (hw : w < 2 ^ 32) (he : fld w 29 3 = 3) (hop : fld w 19 6 = 0x1b) :
    Sound w none (decodePlog w) := by
  have hparts := engine_parts hw he hop [4, 3, 4, 4, 4] rfl
  refine sound_accept fun hz => ?_
  simp only [passed_cons, nz_passes, decide_eq_false_iff_not] at hz
  obtain ⟨h0, h4, h6, -⟩ := hz
  refine ⟨wellFormed_plog h4 h6, oneWord ?_⟩
  simp only [pfnNum_pfnOf, fin16_val]
  simp [joined] at hparts
  omega

theorem decodeVcvt_sound {w : Nat} (hw : w < 2 ^ 32) (he : fld w 29 3 = 3) (hop : fld w 19 6 = 0x1c) :
    Sound w none (decodeVcvt w) := by
  have hparts := engine_parts hw he hop [1, 1, 3, 4, 5, 5] rfl
  unfold decodeVcvt
  split
  next cv r hcv hr =>
    refine sound_accept fun hz => ⟨rfl, oneWord ?_⟩
    simp only [passed_cons, nz_passes] at hz
    obtain ⟨h0, hd, ha, -⟩ := hz
    simp only [vdstNum_vdstOf hd, vsrcNum_vsrcOf ha, convNum_of hcv, rndNum_of hr, b2n_bit]
    simp [joined] at hparts
    omega
  all_goals exact sound_error

theorem decodeVector_sound {w : Nat} (hw : w < 2 ^ 32) (he : fld w 29 3 = 3) : Sound w none (decodeVector w) := by
  unfold decodeVector
  dsimp only
  split
  case h_26 => exact decodeVcmp_sound hw he ‹_›
  case h_28 => exact decodePlog_sound hw he ‹_›
  case h_29 => exact decodeVcvt_sound hw he ‹_›
  case h_54 => exact sound_error
  case h_1 | h_2 | h_3 | h_4 | h_5 | h_6 | h_13 | h_14 | h_15 | h_16 | h_17 | h_18 | h_19 | h_20 | h_21 | h_22 | h_23
      | h_24 | h_25 | h_27 | h_37 =>
    exact vr3_sound hw he ‹_› fun _ _ _ _ _ => ⟨rfl, rfl⟩
  case h_7 | h_8 | h_9 | h_10 | h_11 | h_12 | h_34 | h_39 =>
    exact vr2_sound hw he ‹_› fun _ _ _ _ => ⟨rfl, rfl⟩
  case h_42 | h_43 => exact vr1_sound hw he ‹_› fun _ _ _ => ⟨rfl, rfl⟩
  case h_35 | h_36 => exact vrN_sound hw he ‹_› fun _ _ _ _ _ => ⟨rfl, rfl⟩
  case h_30 | h_31 => exact decodePack_sound hw he ‹_› fun _ _ _ _ _ => ⟨rfl, rfl⟩
  case h_32 | h_33 => exact decodeQuant_sound hw he ‹_› fun _ _ _ _ => ⟨rfl, rfl⟩
  -- VDRAIN
  case h_48 =>
    refine sound_accept fun hz => ?_
    simp at hz
    obtain ⟨ha, hd, hb⟩ := hz
    exact ⟨by simp [wellFormed, hd], oneWord (encV_fields hw he ‹_› rfl ha.symm (b2n_bit_of_le hb) rfl)⟩
  case h_38 =>
    have hparts := engine_parts hw he ‹_› [3, 6, 5, 5] rfl
    refine sound_accept fun hz => ⟨rfl, oneWord ?_⟩
    simp_all [vsrcNum_vsrcOf, vdstNum_vdstOf, joined]
    omega
  case h_40 | h_41 =>
    have hparts := engine_parts hw he ‹_› [14, 5] rfl
    refine sound_accept fun hz => ⟨rfl, oneWord ?_⟩
    simp_all [vdstNum_vdstOf, joined]
    omega
  case h_51 =>
    have hparts := engine_parts hw he ‹_› [3, 6, 1, 4, 5] rfl
    refine sound_accept fun hz => ⟨rfl, oneWord ?_⟩
    simp_all [vsrcNum_vsrcOf, joined]
    omega
  all_goals
    refine sound_accept fun hz => ⟨rfl, oneWord (encV_fields hw he ‹_› ?_ ?_ ?_ ?_)⟩
    all_goals simp_all [vsrcNum_vsrcOf, vdstNum_vdstOf, fld_one_of_le]

/-! ### Copy-engine words -/

theorem decodeCopy_sound {w : Nat} (hw : w < 2 ^ 32) (he : fld w 29 3 = 4) (hop : fld w 19 6 < 2 ∨ 5 ≤ fld w 19 6) :
    Sound w none (decodeCopy w 0) := by
  unfold decodeCopy
  dsimp only
  split
  case h_3 | h_4 | h_5 => omega
  case h_9 => exact sound_error
  case h_1 =>
    have hparts := engine_parts hw he ‹_› [11, 4, 4] rfl
    refine sound_accept fun hz => ⟨rfl, oneWord ?_⟩
    simp [joined] at *
    omega
  case h_2 =>
    have hparts := engine_parts hw he ‹_› [15, 4] rfl
    refine sound_accept fun hz => ⟨rfl, oneWord ?_⟩
    simp [joined] at *
    omega
  case h_6 | h_8 =>
    have hparts := engine_parts hw he ‹_› [19] rfl
    refine sound_accept fun hz => ⟨rfl, oneWord ?_⟩
    simp [joined] at *
    omega
  case h_7 =>
    have hparts := engine_parts hw he ‹_› [4, 1, 4, 2, 4, 4] rfl
    split
    case h_2 => exact sound_error
    next f hf =>
      have hn := atomvNum_of hf
      refine sound_accept fun hz => ⟨rfl, oneWord ?_⟩
      simp [joined, hn] at *
      omega

/-- XSEND, RSEND and RRECV, of the long form (R53, R67). -/
theorem decodeCopy_sound_long {w c : Nat} (hw : w < 2 ^ 32) (hc : c < 2 ^ 32) (he : fld w 29 3 = 4)
    (hop : 2 ≤ fld w 19 6 ∧ fld w 19 6 < 5) (h7 : fld c 29 3 = 7) : Sound w (some c) (decodeCopy w c) := by
  unfold decodeCopy
  dsimp only
  split
  case h_3 =>
    have hparts := engine_parts hw he ‹_› [10, 1, 4, 4] rfl
    have hcont := word_joined hc [23, 6, 3] rfl
    refine sound_accept fun hz => ⟨rfl, twoWords ?_ ?_⟩
    all_goals
      simp [joined] at *
      omega
  case h_4 =>
    have hparts := engine_parts hw he ‹_› [11, 4, 4] rfl
    have hcont := word_joined hc [16, 13, 3] rfl
    refine sound_accept fun hz => ⟨rfl, twoWords ?_ ?_⟩
    all_goals
      simp [joined] at *
      omega
  case h_5 =>
    have hparts := engine_parts hw he ‹_› [8, 3, 4, 4] rfl
    have hcont := word_joined hc [16, 13, 3] rfl
    split
    case h_2 => exact sound_error
    next r hr =>
      have hn := reduceNum_of hr
      refine sound_accept fun hz => ⟨rfl, twoWords ?_ ?_⟩
      all_goals
        simp [joined, hn] at *
        omega
  case h_9 => exact sound_error
  all_goals omega

/-! ### All words -/

theorem isLong_iff (w : Nat) : isLong w = true ↔
    (fld w 29 3 = 2 ∧ fld w 19 6 < 2) ∨ (fld w 29 3 = 4 ∧ 2 ≤ fld w 19 6 ∧ fld w 19 6 < 5) := by
  simp [isLong, and_assoc]

theorem decode_sound {w : Nat} {c : Option Nat} (hw : w < 2 ^ 32) (hc : ∀ k, c = some k → k < 2 ^ 32) :
    Sound w (if isLong w then c else none) (decode w c) := by
  unfold decode
  split
  next hl =>
    rw [isLong_iff] at hl
    split
    case h_2 => exact sound_error
    next k =>
    split
    case isFalse => exact sound_error
    next h7 =>
    have h7 : fld k 29 3 = 7 := by simpa [isCont] using h7
    split
    · exact decodeMatrix_sound_long hw (hc k rfl) ‹_› (by omega) h7
    · exact decodeCopy_sound_long hw (hc k rfl) (by omega) (by omega) h7
  next hl =>
    rw [isLong_iff] at hl
    split
    case h_1 he => exact decodeControl_sound (by simp only [fld, Nat.reducePow] at he; omega)
    case h_2 he => exact decodeLoad_sound hw he
    case h_3 he => exact decodeMatrix_sound hw he (by omega)
    case h_4 he => exact decodeVector_sound hw he
    case h_5 he => exact decodeCopy_sound hw he (by omega)
    case h_6 he => exact decodeStream_sound hw he
    case h_7 | h_8 => exact sound_error

/-- Settles O58: each decoder's answers are sound, field by field. -/
theorem decodedIsEncoded : Obligations.DecodedIsEncoded :=
  fun i _ _ hw hc h => decode_sound hw hc i h

end Sys2Proof.Laws

namespace Sys2Proof.Machine

/-! ### Matrix words that load a slot or a bank, or touch the heap (R120, R187, R207, R208) -/

theorem engGoes_of_ready {e : Engine} {tk : Tok} {x : Entry} {s : State} (h : engReady e tk x s = true) :
    engGoes e tk x s = true := by simp [engGoes, h]

/-- A change of the matrix path and of the marks of carried units (R376). -/
def State.carriedMx (s : State) (f : Carried → Carried) (g : Matrix → Matrix) : State :=
  (s.updCarried f).upd fun c => { c with mx := g c.mx }

theorem EngBody.carriedMx (s : State) (f : Carried → Carried) (g : Matrix → Matrix) :
    EngBody .matrix s (s.carriedMx f g) :=
  (EngBody.updCarried _ s f).trans (EngBody.mx _ _ fun c => g c.mx)

theorem RestSame.carriedMx (s : State) (f : Carried → Carried) (g : Matrix → Matrix) :
    RestSame s (s.carriedMx f g) :=
  RestSame.of_eq rfl rfl rfl rfl rfl rfl rfl

/-- The 16 words of an image stand in a slot in order. -/
theorem toList_ofFn_epiWords (bs : List Byte) :
    (Vector.ofFn fun k : Fin 16 => (epiWords bs).getD k.val 0).toList = epiWords bs := by
  refine List.ext_getElem (by simp [epiWords]) fun k hk hk' => ?_
  simp [hk']

/-- A row of HEAPRD (R120): the values of the heap's first k pairs, or their indices; past them what stands for none. -/
def heapLane (h : List (Word × Word)) (k : Nat) (part : Bool) (r : Fin 64) : Word :=
  ((h.take k)[r.val]?).elim (if part then 0xFFFFFFFF else 0xFF800000) fun p => if part then p.2 else p.1

theorem heapEntry_eq (h : List (Word × Word)) (k : Nat) (part : Bool) :
    heapEntry h k part = fullEntry (Vector.ofFn (heapLane h k part)) := by
  refine congrArg (fun f => fullEntry (Vector.ofFn f)) (funext fun r => ?_)
  rw [heapLane]
  cases (h.take k)[r.val]? <;> rfl

theorem orElse_none (k : ERes) : orElse none k = k := rfl

section
variable {s : State} {tk : Tok} {x : Entry} {rest : List QItem}
  (hhead : headWord .matrix s = some (x, rest)) (hready : engReady .matrix tk x s = true)
include hhead hready

/-- A matrix word that may leave, its body issuing with the matrix path changed. -/
theorem engWord_changesMx {i : Instr} {body : Entry → State → ERes} {f : Carried → Carried}
    {g : Matrix → Matrix} (hbody : body x s = .issue (s.carriedMx f g) {}) :
    ∃ t, engWord .matrix tk i s body = .next t ∧ EngIssues .matrix tk x rest s t ∧ RestSame s t ∧
      t.core.q = s.core.q ∧ t.core.vec = s.core.vec ∧ t.core.mx = g s.core.mx := by
  obtain ⟨hissues, hleaves, -⟩ := issueWord_spec (tk := tk) {} hhead (EngBody.carriedMx s f g)
  exact ⟨_, engWord_issue hhead (engGoes_of_ready hready) hbody, hissues,
    hleaves.restSame (RestSame.carriedMx s f g), hleaves.q, hleaves.vec, hleaves.mx⟩

/-- One that pushes a row into an operand queue. -/
theorem engWord_pushesRow {i : Instr} {body : Entry → State → ERes} {q : Fin 4} {b : Bool} {lane : Fin 64 → Word}
    (hbody : body x s = .issue ((s.readsIf b).pushVq q (fullEntry (Vector.ofFn lane))) {}) :
    ∃ t, engWord .matrix tk i s body = .next t ∧ EngIssues .matrix tk x rest s t ∧ RestSame s t ∧
      t.core.mx = s.core.mx ∧ t.core.vec = s.core.vec ∧ EntersVq q lane s t := by
  have hkeeps := (EngBody.readsIf .matrix s b).trans (EngBody.pushVq _ _ q (fullEntry (Vector.ofFn lane)))
  obtain ⟨hissues, hleaves, -⟩ := issueWord_spec (tk := tk) {} hhead hkeeps
  refine ⟨_, engWord_issue hhead (engGoes_of_ready hready) hbody, hissues,
    hleaves.restSame (RestSame.of_eq (by simp) (by simp) (by simp) (by simp) (by simp) (by simp) (by simp)),
    hleaves.mx.trans (by simp), hleaves.vec.trans (by simp), hleaves.q.trans ?_⟩
  simp [State.pushVq, State.updQ, Queues.setVq, fullEntry]

/-- EPSET of a program that passes its check (R207). -/
theorem execEpset_loads {slot : Fin 8} {st : Fin 16} {img : List (BitVec 16)}
    (himg : epiWords (readRange s (locOf s x.snap .matrix .read) (s.core.rowAddr x.snap.st[st] 0) 32) = img)
    (hchecks : readChecks (.epset tk slot st) .matrix x [(s.core.rowAddr x.snap.st[st] 0, 32)] s = none)
    (hok : epiFail img = none) :
    ∃ t, execEpset tk slot st s = .next t ∧ EngIssues .matrix tk x rest s t ∧ RestSame s t ∧
      t.core.q = s.core.q ∧ t.core.vec = s.core.vec ∧ t.core.mx = { s.core.mx with
        epi := s.core.mx.epi.set slot.val (Vector.ofFn fun k => img.getD k.val 0) slot.isLt } := by
  unfold execEpset
  refine engWord_changesMx (f := fun c => { c with epi := c.epi &&& ~~~(BitVec.ofNat 8 (2 ^ slot.val)) })
    (g := fun m => { m with epi := m.epi.set slot.val (Vector.ofFn fun k => img.getD k.val 0) slot.isLt })
    hhead hready ?_
  dsimp only
  rw [hchecks, orElse_none, himg, hok]
  rfl

/-- EPSET of a program that fails its check: its tokens have popped (log 34). -/
theorem execEpset_traps {slot : Fin 8} {st : Fin 16} {k : Nat} (hstarted : x.started = false)
    (hchecks : readChecks (.epset tk slot st) .matrix x [(s.core.rowAddr x.snap.st[st] 0, 32)] s = none)
    (hbad : epiFail (epiWords (readRange s (locOf s x.snap .matrix .read) (s.core.rowAddr x.snap.st[st] 0) 32))
      = some k) :
    execEpset tk slot st s = .next (takeTrap
      { cause := 0x1A, info := BitVec.ofNat 64 (k + slot.val * 16 + 2 ^ 16), addr := x.addr, origin := 2 }
      { s with core := { s.core with tok := s.core.popToks .matrix tk } }).pass := by
  unfold execEpset
  rw [engWord_goes _ hhead (engGoes_of_ready hready) (by simp [hstarted])]
  dsimp only
  rw [hchecks, orElse_none, hbad]
  simp only [engFinish, hstarted]
  rfl

/-- EPCON (R207). -/
theorem execEpcon_loads {bank : Fin 8} {st : Fin 16}
    (hchecks : readChecks (.epcon tk bank st) .matrix x [(s.core.rowAddr x.snap.st[st] 0, 256)] s = none) :
    ∃ t, execEpcon tk bank st s = .next t ∧ EngIssues .matrix tk x rest s t ∧ RestSame s t ∧
      t.core.q = s.core.q ∧ t.core.vec = s.core.vec ∧ t.core.mx = { s.core.mx with
        bank := s.core.mx.bank.set bank.val (Vector.ofFn (rowLane (readRange s (locOf s x.snap .matrix .read)
          (s.core.rowAddr x.snap.st[st] 0) 256))) bank.isLt } := by
  unfold execEpcon
  refine engWord_changesMx (f := fun c => { c with bank := c.bank &&& ~~~(BitVec.ofNat 8 (2 ^ bank.val)) })
    (g := fun m => { m with bank := m.bank.set bank.val (Vector.ofFn (rowLane (readRange s
      (locOf s x.snap .matrix .read) (s.core.rowAddr x.snap.st[st] 0) 256))) bank.isLt }) hhead hready ?_
  dsimp only
  rw [hchecks, orElse_none]
  rfl

/-- HEAPCLR (R208). -/
theorem execHeapclr_clears (k : Fin 64) :
    ∃ t, execHeapclr tk k s = .next t ∧ EngIssues .matrix tk x rest s t ∧ RestSame s t ∧
      t.core.q = s.core.q ∧ t.core.vec = s.core.vec ∧
      t.core.mx = { s.core.mx with heap := [], heapk := BitVec.ofNat 7 (if k = 0 then 64 else k.val) } :=
  engWord_changesMx (f := fun c => { c with heap := false })
    (g := fun m => { m with heap := [], heapk := BitVec.ofNat 7 (if k = 0 then 64 else k.val) }) hhead hready rfl

/-- HEAPRD (R120, R208). -/
theorem execHeaprd_pushes {q : Fin 4} {part : Bool} (hroom : s.core.vqRoom q = true) :
    ∃ t, execHeaprd tk q part s = .next t ∧ EngIssues .matrix tk x rest s t ∧ RestSame s t ∧
      t.core.mx = s.core.mx ∧ t.core.vec = s.core.vec ∧
      EntersVq q (heapLane s.core.mx.heap s.core.mx.heapk.toNat part) s t := by
  unfold execHeaprd
  refine engWord_pushesRow (b := s.core.phase.carried.heap) hhead hready ?_
  simp only [hroom, Bool.not_true, Bool.false_eq_true, if_false, heapEntry_eq]

/-- MCHK (R187). -/
theorem execMchk_pushes {q : Fin 4} (hroom : s.core.vqRoom q = true) :
    ∃ t, execMchk tk q s = .next t ∧ EngIssues .matrix tk x rest s t ∧ RestSame s t ∧
      t.core.mx = s.core.mx ∧ t.core.vec = s.core.vec ∧
      EntersVq q (fun r => (s.core.mx.ck.getD r.val 0).zeroExtend 32) s t := by
  unfold execMchk
  refine engWord_pushesRow (b := false) hhead hready ?_
  simp only [hroom, Bool.not_true, Bool.false_eq_true, if_false]
  rfl

end

/-- Settles O39: each word's body issues, or traps with its tokens popped; what it leaves of the matrix path and of the
queues is what its body wrote. -/
theorem epilogueAndHeapWords : Obligations.EpilogueAndHeapWords := by
  intro s tk x rest hhead hstarted hready
  refine ⟨?epset, ?epcon, fun k => ?heapclr,
    fun q part hroom => ⟨?heaprd, execMchk_pushes hhead hready (decide_eq_true hroom)⟩⟩
  case epset =>
    intro slot st a img i hchecks
    refine ⟨fun hok => ?_, fun k hbad => execEpset_traps hhead hready hstarted hchecks hbad⟩
    obtain ⟨t, ht, hissues, hrest, hq, hvec, hmx⟩ := execEpset_loads hhead hready rfl hchecks hok
    have hepi := congrArg Matrix.epi hmx
    refine ⟨t, ht, hissues, hrest, hq, hvec, hepi ▸ hmx, fun k hk => ?_, ?_⟩
    · rw [hepi]
      exact Vector.getElem_set_ne slot.isLt k.isLt fun h => hk (Fin.ext h.symm)
    · rw [hepi]
      exact (congrArg Vector.toList (Vector.getElem_set_self ..)).trans (toList_ofFn_epiWords _)
  case epcon =>
    intro bank st a hchecks
    exact execEpcon_loads hhead hready hchecks
  case heapclr =>
    obtain ⟨t, ht, hissues, hrest, hq, hvec, hmx⟩ := execHeapclr_clears hhead hready k
    refine ⟨t, ht, hissues, hrest, hq, hvec, hmx.trans ?_⟩
    split <;> rfl
  case heaprd =>
    obtain ⟨t, ht, hissues, hrest, hmx, hvec, henters⟩ :=
      execHeaprd_pushes (part := part) hhead hready (decide_eq_true hroom)
    refine ⟨t, ht, hissues, hrest, hmx, hvec, (congrArg (EntersVq q · s t) (funext fun r => ?_)).mp henters⟩
    rw [heapLane]
    cases (s.core.mx.heap.take s.core.mx.heapk.toNat)[r.val]? <;> rfl

end Sys2Proof.Machine

namespace Sys2Proof.Machine

/-! ### The sequencer of a nest (R104, R105, R156, R157) -/

theorem RegSame.trans {s t u : State} (h : RegSame [] [] s t) (k : RegSame [] [] t u) : RegSame [] [] s u where
  g r hr := (k.g r hr).trans (h.g r hr)
  steer r hr := (k.steer r hr).trans (h.steer r hr)
  bank := k.bank.trans h.bank
  other := by
    have ho := h.other
    have hk := k.other
    rw [h.bank] at hk
    split at ho <;> simp_all

theorem CtlFrame.pass (s : State) : CtlFrame [] [] s s.pass where
  reg := ⟨fun _ _ => rfl, fun _ _ => rfl, rfl, by split <;> rfl⟩
  unit := ⟨fun _ => rfl, rfl, rfl, rfl, rfl, rfl, fun _ => rfl, rfl⟩
  regs := rfl
  vis := rfl
  q := rfl
  jig := fun h => ⟨h, rfl⟩
  others := rfl
  sys := rfl
  mem := .of_eq rfl rfl rfl rfl

/-- The place of the stream is no part of a control word's frame. -/
theorem CtlFrame.updPlace (s : State) (q : PcQueue) (r : Option NestRun) :
    CtlFrame [] [] s (s.updCtl fun c => { c with pcq := q, nest := r }) where
  reg := ⟨fun _ _ => rfl, fun _ _ => rfl, rfl, by split <;> rfl⟩
  unit := ⟨fun e => by cases e <;> rfl, rfl, rfl, rfl, rfl, rfl, fun _ => rfl, rfl⟩
  regs := rfl
  vis := rfl
  q := rfl
  jig := fun h => ⟨h, rfl⟩
  others := rfl
  sys := rfl
  mem := .of_eq rfl rfl rfl rfl

theorem CtlFrame.putNest (s : State) (r : NestRun) : CtlFrame [] [] s (s.putNest r) :=
  .updPlace s s.core.ctl.pcq (some r)

/-- The tick of a word that no cause 0x17 follows: time passes, and the place of the stream stands (R41, R150). -/
theorem CtlFrame.ctlTick {s : State} (hn : noStep s = true) : CtlFrame [] [] s (ctlTick s) where
  reg := by
    rw [ctlTick_noStep hn]
    exact .of_banks (by simp) (by simp) (by simp)
  unit := by
    rw [ctlTick_noStep hn]
    exact ⟨fun e => by cases e <;> rfl, by simp, by simp, by simp, by simp, by simp,
      fun h => Core.tickOn_sd _ (Core.slips_of_stoodStill h), by simp⟩
  regs := by rw [ctlTick_noStep hn]; simp
  vis := by rw [ctlTick_noStep hn]; simp
  q := by rw [ctlTick_noStep hn]; simp
  jig := fun h => by rw [ctlTick_noStep hn]; simpa using h
  others := by rw [ctlTick_noStep hn]; simp
  sys := by rw [ctlTick_noStep hn]; simp
  mem := by
    rw [ctlTick_noStep hn]
    exact .of_eq (by simp) (by simp) (by simp) (by simp)

theorem ctlTick_place {s : State} (hn : noStep s = true) : (ctlTick s).core.tick = s.core.tick + 1 ∧
    (ctlTick s).core.ctl.pcq = s.core.ctl.pcq ∧ (ctlTick s).core.ctl.nest = s.core.ctl.nest := by
  rw [ctlTick_noStep hn]
  exact ⟨by simp, by simp, by simp⟩

/-- A change of the engine-visible registers, and then only of time and the stream's place: registers, units, memory and
queues stand. -/
theorem keeps_of_updVis {s t : State} {f : Vis → Vis} (h : CtlFrame [] [] (s.updVis f) t) :
    RegSame [] [] s t ∧ UnitSame s t ∧ MemSame s t ∧ t.core.q = s.core.q :=
  ⟨⟨h.reg.g, h.reg.steer, h.reg.bank, h.reg.other⟩,
    ⟨fun e => (h.unit.eng e).trans (by cases e <;> rfl), h.unit.tok, h.unit.mx, h.unit.vec, h.unit.land, h.unit.cp,
      h.unit.sd, h.unit.stopped⟩,
    MemSame.trans (t := s.updVis f) (.of_eq rfl rfl rfl rfl) h.mem, h.q⟩

/-- While its nest runs NGO is the sequencer's move. -/
theorem exec_ngo_running {s : State} {r : NestRun} (k : Fin 2) (n : BitVec 12) (h : s.core.ctl.nest = some r) :
    exec (.ngo k n) s = nestMove r s := by
  show execNgo k n s = _
  unfold execNgo
  rw [h]

/-! ### LIVE as the counters move -/

/-- What LIVE gains is the sum over the six levels (R157). -/
theorem liveStep_eq_sum (r : NestRun) (cur cur' : List Nat) (i : Fin 16) :
    liveStep r cur cur' i = ((List.finRange 6).map fun l : Fin 6 =>
      if r.snap.level[l].smask.getLsbD i.val then
        ((cur'.getD l.val 0 : Int) - (cur.getD l.val 0 : Int)) * (r.steps[i][l]).toInt else 0).sum := by
  have hfold : ∀ (l : List Nat) (p : Nat → Bool) (f : Nat → Int) (a : Int),
      l.foldl (fun a k => if p k then a + f k else a) a = a + (l.map fun k => if p k then f k else 0).sum := by
    intro l p f
    induction l with
    | nil => simp
    | cons k l ih =>
      intro a
      cases h : p k <;> simp [ih, h, Int.add_assoc]
  unfold liveStep
  rw [hfold, Int.zero_add, ← List.map_coe_finRange_eq_range, List.map_map]
  refine congrArg List.sum (List.map_congr_left fun l _ => ?_)
  simp [vget_fin]

theorem moveLive_live (f : Fin 16 → Int) (v : Vis) (i : Fin 16) :
    (moveLive f v).st[i].live = v.st[i].live + BitVec.ofInt 48 (f i) := by
  simp [moveLive]

/-- The counters' fields of a table are no stream registers. -/
theorem nestCur_st (k : Fin 2) (cur : List Nat) (v : Vis) : (nestCur k cur v).st = v.st := rfl

/-! ### Pushing a word of the body -/

/-- With room in its engine's queue a word is pushed at its tail (R45, R142). -/
theorem State.push_some {e : Engine} {s : State} (w : Word) (cont : Option Word) (tag : Option (Fin 2 × Nat))
    (a : VAddr) (h : (s.core.eng e).words < 64) :
    ∃ u, s.push e w cont tag a = some u ∧ u.core.ctl = s.core.ctl ∧ u.core.q = s.core.q ∧
      u.core.tick = s.core.tick ∧ MemSame s u ∧
      (u.core.eng e).queue = (s.core.eng e).queue ++ [.word (s.core.entryOf w cont tag a)] := by
  have hvis : ∀ (c : Core) (v : Vis), ({ c with vis := v } : Core).eng e = c.eng e := fun c v => by cases e <;> rfl
  refine ⟨_, if_neg (Nat.not_le.mpr h), by simp, by simp, by simp, .of_eq (by simp) (by simp) rfl rfl, ?_⟩
  rw [State.upd_core, hvis, Core.eng_setEng_self]

/-- The control words' place never holds a push. -/
theorem Core.placeItem_ne_push (c : Core) (r : NestRun) (p : NestPlace) (e : Engine) (w : Word) (x : Option Word) :
    c.placeItem r ≠ .push p e w x := by
  unfold Core.placeItem
  dsimp only
  repeat' split
  all_goals nofun

/-- The sequencer pushes into a queue with room alone (R105). -/
theorem Core.nestItem_push {c : Core} {r : NestRun} {p : NestPlace} {e : Engine} {w : Word} {x : Option Word}
    (h : c.nestItem r = .push p e w x) : (c.eng e).words < 64 := by
  unfold Core.nestItem at h
  split at h
  · split at h
    next hroom =>
      cases h
      exact hroom
    · exact absurd h (c.placeItem_ne_push r p e w x)
  · cases h
  · exact absurd h (c.placeItem_ne_push r p e w x)

/-- A push of the sequencer is noted in a recording, and its tick passes. -/
theorem pushTick {u : State} (w : Word) (x : Option Word) (r : NestRun) (hn : noStep u = true) :
    let t := ctlTick ((u.recordEngine w x).clearReach.putNest r)
    RegSame [] [] u t ∧ MemSame u t ∧ t.core.q = u.core.q ∧ t.core.ctl.pcq = u.core.ctl.pcq ∧
      t.core.tick = u.core.tick + 1 ∧ t.core.ctl.nest = some r ∧ ∀ e, t.core.eng e = u.core.eng e := by
  have hnote := Noted.recordEngine u w x
  generalize u.recordEngine w x = v at hnote
  have hput := (CtlFrame.clearReach v).trans (.putNest _ r)
  have hnv : noStep (v.clearReach.putNest r) = true :=
    (noStep_eq (hput.regs.trans (by rw [hnote.ctl])) (hput.reg.bank.trans (by rw [hnote.ctl]))).trans hn
  have hframe := hput.trans (.ctlTick hnv)
  obtain ⟨htick, hpcq, hnest⟩ := ctlTick_place hnv
  refine ⟨(RegSame.of_banks ?_ ?_ ?_).trans hframe.reg, hnote.memSame.trans hframe.mem, hframe.q.trans hnote.q,
    hpcq.trans ?_, htick.trans ?_, hnest, fun e => (hframe.unit.eng e).trans (hnote.eng e)⟩
  · rw [hnote.ctl]
  · rw [hnote.ctl]
  · rw [hnote.ctl]
  · exact (Stands.clearReach v).pcq.trans (by rw [hnote.ctl])
  · exact congrArg (· + 1) ((Stands.clearReach v).tick.trans hnote.stands.tick)

theorem nestPush_pushes {s : State} {r : NestRun} {p : NestPlace} {e : Engine} {w : Word} {x : Option Word}
    (hn : noStep s = true) (hroom : (s.core.eng e).words < 64) :
    ∃ t y, nestPush r p e w x s = .next t ∧ RegSame [] [] s t ∧ MemSame s t ∧ t.core.q = s.core.q ∧
      t.core.ctl.pcq = s.core.ctl.pcq ∧ t.core.tick = s.core.tick + 1 ∧
      t.core.ctl.nest = some { r with ahead := some { p with next := p.next + 1 } } ∧
      (t.core.eng e).queue = (s.core.eng e).queue ++ [.word y] ∧ y.word = w ∧ y.cont = x ∧
      y.tag = some (r.table, p.iter) ∧ ∀ i : Fin 16, y.snap.st[i].live
        = s.core.vis.st[i].live + BitVec.ofInt 48 (liveStep r r.pushPlace.cur p.cur i) := by
  have hlive := moveLive_live (liveStep r r.pushPlace.cur p.cur) s.core.vis
  unfold nestPush nestLive
  generalize hf : moveLive (liveStep r r.pushPlace.cur p.cur) = f at hlive ⊢
  have heng : (s.updVis f).core.eng e = s.core.eng e := by cases e <;> rfl
  generalize (if p.next < r.n then r.addr + 4 + 4 * BitVec.ofNat 48 p.next else r.addr) = a
  obtain ⟨u, hpush, hctl, hq, htick, hmem, hqueue⟩ :=
    (s.updVis f).push_some w x (some (r.table, p.iter)) a (by rw [heng]; exact hroom)
  have hreg : RegSame [] [] s u := .of_banks (by rw [hctl]; rfl) (by rw [hctl]; rfl) (by rw [hctl]; rfl)
  have hmem : MemSame s u := MemSame.trans (t := s.updVis f) (.of_eq rfl rfl rfl rfl) hmem
  have hnu : noStep u = true := (noStep_eq (by rw [hctl]; rfl) (by rw [hctl]; rfl)).trans hn
  obtain ⟨hreg', hmem', hq', hpcq', htick', hnest, heng'⟩ :=
    pushTick w x { r with ahead := some { p with next := p.next + 1 } } hnu
  dsimp only
  rw [hpush]
  refine ⟨_, (s.updVis f).core.entryOf w x (some (r.table, p.iter)) a, rfl, hreg.trans hreg', hmem.trans hmem',
    hq'.trans hq, hpcq'.trans (by rw [hctl]; rfl), htick'.trans (by rw [htick]; rfl), hnest, ?_, rfl, rfl, rfl, hlive⟩
  rw [heng', hqueue, heng]

/-! ### The end of an iteration -/

/-- The counters move on, and LIVE unless words were pushed ahead. -/
theorem nestNext_moves {s : State} {r : NestRun} {cur : List Nat} (hb : r.broken = false)
    (ho : odometer r.cur r.snap.trips = some cur) :
    ∃ t, nestNext r s = .next t ∧ (RegSame [] [] s t ∧ UnitSame s t ∧ MemSame s t ∧ t.core.q = s.core.q) ∧
      t.core.tick = s.core.tick ∧
      (∀ i : Fin 16, t.core.vis.st[i].live = if r.iter < r.pushPlace.iter then s.core.vis.st[i].live
        else s.core.vis.st[i].live + BitVec.ofInt 48 (liveStep r r.cur cur i)) ∧
      t.core.ctl.nest = some { r with cur := cur, iter := r.iter + 1, next := 0 } := by
  have hmove : nestNext r s = .next ((s.updVis fun v => nestCur r.table cur
      (if r.iter < r.pushPlace.iter then v else nestLive r r.cur cur v)).putNest
      { r with cur := cur, iter := r.iter + 1, next := 0 }).pass := by
    simp [nestNext, hb, ho]
  refine ⟨_, hmove, keeps_of_updVis ((CtlFrame.putNest _ _).trans (.pass _)), rfl, fun i => ?_, rfl⟩
  show (nestCur _ _ _).st[i].live = _
  rw [nestCur_st]
  split
  · rfl
  · exact moveLive_live _ _ i

/-- As its nest ends the NGO is passed, and the PC queue moves one step. -/
theorem ctlDone_endNest {s : State} (f : Vis → Vis) (hp : s.core.livePlay = none) :
    ctlDone ((s.updVis f).updCtl fun c => { c with nest := none }) =
      ctlTick ((s.updVis f).updCtl fun c => { c with pcq := s.core.rotate, nest := none }) := by
  have hplain : plainStream ((s.updVis f).updCtl fun c => { c with nest := none }) = true :=
    plainStream_iff.mpr ⟨hp, rfl⟩
  rw [ctlDone, ctlDoneWith, State.advance_plain hplain]
  rfl

/-- After the last iteration, or a break, the nest ends and the NGO is passed. -/
theorem nestNext_ends {s : State} {r : NestRun} (hn : noStep s = true) (hp : s.core.livePlay = none)
    (h : r.broken = true ∨ odometer r.cur r.snap.trips = none) :
    ∃ t, nestNext r s = .next t ∧ (RegSame [] [] s t ∧ UnitSame s t ∧ MemSame s t ∧ t.core.q = s.core.q) ∧
      t.core.tick = s.core.tick + 1 ∧ t.core.ctl.nest = none ∧ t.core.ctl.pcq = s.core.rotate ∧
      ∀ i : Fin 16, t.core.vis.st[i].live = s.core.vis.st[i].live + BitVec.ofInt 48
        (s.core.endStep r ((odometer r.cur r.snap.trips).getD (afterLast r.snap.trips)) i) := by
  generalize hcur : (odometer r.cur r.snap.trips).getD (afterLast r.snap.trips) = cur
  have hmove : nestNext r s = .next (ctlDone ((s.updVis fun v =>
      nestCur r.table cur (moveLive (s.core.endStep r cur) v)).updCtl fun c => { c with nest := none })) := by
    simp only [nestNext, hcur]
    exact if_pos (by simpa using h)
  rw [ctlDone_endNest _ hp] at hmove
  generalize hf : (fun v => nestCur r.table cur (moveLive (s.core.endStep r cur) v)) = f at hmove
  obtain ⟨htick, hpcq, hnest⟩ := ctlTick_place
    (s := (s.updVis f).updCtl fun c => { c with pcq := s.core.rotate, nest := none }) hn
  have hframe := (CtlFrame.updPlace (s.updVis f) s.core.rotate none).trans (.ctlTick hn)
  refine ⟨_, hmove, keeps_of_updVis hframe, htick, hnest, hpcq, fun i => ?_⟩
  rw [hframe.vis, State.updVis_core_vis, ← hf]
  exact moveLive_live _ _ i

/-- Settles O24: the sequencer's move by what stands at its places. -/
theorem nestAdvances : Obligations.NestAdvances := by
  intro s k n r hnest hn hp
  dsimp only
  rw [exec_ngo_running k n hnest]
  refine ⟨fun p e w x hitem => ?push, fun hitem => ?full, fun p w hitem => ?bad, fun hitem hnext => ?move,
    fun hitem hnext => ⟨fun cur hb ho => ?next, fun hend => ?ends⟩⟩
  case push =>
    simp only [nestMove, hitem]
    exact nestPush_pushes hn (Core.nestItem_push hitem)
  case full =>
    refine waits_of_wait ?_
    rw [exec_ngo_running k n hnest, nestMove, hitem]
    rfl
  case bad =>
    simp only [nestMove, hitem]
    rfl
  case move =>
    simp only [nestMove, hitem]
    rw [if_pos hnext]
    exact ⟨_, rfl, (CtlFrame.putNest s _).trans (.pass _), rfl, rfl⟩
  case next =>
    simp only [nestMove, hitem]
    rw [if_neg (by omega)]
    obtain ⟨t, ht, hkeeps, htick, hlive, hrun⟩ := nestNext_moves (s := s) hb ho
    refine ⟨t, ht, hkeeps, htick, fun i => ?_, hrun⟩
    rw [hlive i, ← liveStep_eq_sum]
    split <;> rfl
  case ends =>
    simp only [nestMove, hitem]
    rw [if_neg (by omega)]
    obtain ⟨t, ht, hkeeps, htick, hrun, hpcq, hlive⟩ := nestNext_ends hn hp hend
    refine ⟨t, ht, hkeeps, htick, hrun, hpcq, fun i => ?_⟩
    rw [hlive i, ← liveStep_eq_sum, Core.endStep]
    split <;> simp

end Sys2Proof.Machine

namespace Sys2Proof.Machine

/-! ### Register words of the control core (R74, R75, R76) -/

/-- A word of three registers that runs `alu3` writes any result that its function is related to (R74). -/
theorem writesG3_of_alu3 {mk : Fin 32 → Fin 32 → Fin 32 → Instr} {f : DWord → DWord → DWord} {n : Nat}
    {rel : DWord → DWord → DWord → Prop} (hexec : ∀ d a b s, exec (mk d a b) s = alu3 f n d a b s)
    (hrel : ∀ x y, rel x y (f x y)) : writesG3 mk rel := by
  intro s d a b hg
  obtain ⟨x, hx, y, hy, t, ht, hd, hf, hm⟩ := alu3_spec f n (d := d) hg
  exact ⟨x, hx, y, hy, f x y, hrel x y, t, (hexec d a b s).trans ht, hd, hf, hm⟩

/-- A word of two registers that runs `alu2` writes any result that its function is related to (R74, R76). -/
theorem writesG2_of_alu2 {mk : Fin 32 → Fin 32 → Instr} {f : DWord → DWord} {rel : DWord → DWord → Prop}
    (hexec : ∀ d a s, exec (mk d a) s = alu2 f d a s) (hrel : ∀ x, rel x (f x)) : writesG2 mk rel := by
  intro s d a hg
  obtain ⟨x, hx, t, ht, hd, hf, hm⟩ := alu2_spec f (d := d) hg
  exact ⟨x, hx, f x, hrel x, t, (hexec d a s).trans ht, hd, hf, hm⟩

/-- A left shift multiplies by a power of two, modulo 2^64. -/
theorem toNat_shiftLeft_eq_mul (x : DWord) (n : Nat) : (x <<< n).toNat = x.toNat * 2 ^ n % 2 ^ 64 := by
  rw [BitVec.toNat_shiftLeft, Nat.shiftLeft_eq]

/-- A logical right shift divides by a power of two. -/
theorem toNat_ushiftRight_eq_div (x : DWord) (n : Nat) : (x >>> n).toNat = x.toNat / 2 ^ n := by
  rw [BitVec.toNat_ushiftRight, Nat.shiftRight_eq_div_pow]

/-- An arithmetic right shift is the floor of the signed quotient by a power of two. -/
theorem toInt_sshiftRight_eq_div (x : DWord) (n : Nat) : (x.sshiftRight n).toInt = x.toInt / 2 ^ n := by
  rw [BitVec.toInt_sshiftRight, Int.shiftRight_eq_div_pow]
  norm_cast

/-- A rotation moves bit i up by the amount, around the end (R74). -/
theorem getLsbD_rotateLeft_shamt (x y : DWord) {i : Nat} (hi : i < 64) :
    (x.rotateLeft (shamt y)).getLsbD ((i + y.toNat) % 64) = x.getLsbD i := by
  have hmod : y.toNat % 64 % 64 = y.toNat % 64 := Nat.mod_mod _ _
  have hlt : y.toNat % 64 < 64 := Nat.mod_lt _ (by decide)
  have hsum : (i + y.toNat) % 64 = (i + y.toNat % 64) % 64 := by omega
  rw [BitVec.getLsbD_rotateLeft, shamt, hmod, hsum]
  generalize y.toNat % 64 = k at hlt
  rcases Nat.lt_or_ge (i + k) 64 with h | h
  · have hp : ¬ (i + k < k) := by omega
    simp [Nat.mod_eq_of_lt h, h, hp]
  · have hw : (i + k) % 64 = i + k - 64 := by omega
    have hp : i + k - 64 < k := by omega
    have hback : 64 - k + (i + k - 64) = i := by omega
    simp [hw, hp, hback]

theorem toInt_minS (x y : DWord) : (if x.sle y then x else y).toInt = min x.toInt y.toInt := by
  rw [min_def, BitVec.sle_eq_decide]
  simp only [decide_eq_true_eq]
  split <;> rfl

theorem toInt_maxS (x y : DWord) : (if x.sle y then y else x).toInt = max x.toInt y.toInt := by
  rw [max_def, BitVec.sle_eq_decide]
  simp only [decide_eq_true_eq]
  split <;> rfl

theorem toNat_minU (x y : DWord) : (if x ≤ y then x else y).toNat = min x.toNat y.toNat := by
  simp only [min_def, BitVec.le_def]
  split <;> rfl

theorem toNat_maxU (x y : DWord) : (if x ≤ y then y else x).toNat = max x.toNat y.toNat := by
  simp only [max_def, BitVec.le_def]
  split <;> rfl

/-- Settles O1: each word runs `alu3`, and its function is the sum, the logic, the shift or the minimum of R74. -/
theorem logicAndShiftResults : Obligations.LogicAndShiftResults := by
  refine ⟨?add, ?sub, ?and, ?or, ?xor, ?andn, ?sll, ?srl, ?sra, ?rotl, ?min, ?max, ?minu, ?maxu⟩
  case add => exact writesG3_of_alu3 (f := fun x y => x + y) (fun _ _ _ _ => rfl) fun _ _ => rfl
  case sub => exact writesG3_of_alu3 (f := fun x y => x - y) (fun _ _ _ _ => rfl) fun _ _ => rfl
  case and => exact writesG3_of_alu3 (f := fun x y => x &&& y) (fun _ _ _ _ => rfl) fun _ _ => rfl
  case or => exact writesG3_of_alu3 (f := fun x y => x ||| y) (fun _ _ _ _ => rfl) fun _ _ => rfl
  case xor => exact writesG3_of_alu3 (f := fun x y => x ^^^ y) (fun _ _ _ _ => rfl) fun _ _ => rfl
  case andn => exact writesG3_of_alu3 (f := fun x y => x &&& ~~~y) (fun _ _ _ _ => rfl) fun _ _ => rfl
  case sll => exact writesG3_of_alu3 (f := fun x y => x <<< shamt y) (fun _ _ _ _ => rfl) fun x y => toNat_shiftLeft_eq_mul x _
  case srl => exact writesG3_of_alu3 (f := fun x y => x >>> shamt y) (fun _ _ _ _ => rfl) fun x y => toNat_ushiftRight_eq_div x _
  case sra => exact writesG3_of_alu3 (f := fun x y => x.sshiftRight (shamt y)) (fun _ _ _ _ => rfl) fun x y => toInt_sshiftRight_eq_div x _
  case rotl => exact writesG3_of_alu3 (f := fun x y => x.rotateLeft (shamt y)) (fun _ _ _ _ => rfl) fun x y _ hi => getLsbD_rotateLeft_shamt x y hi
  case min => exact writesG3_of_alu3 (f := fun x y => if x.sle y then x else y) (fun _ _ _ _ => rfl) toInt_minS
  case max => exact writesG3_of_alu3 (f := fun x y => if x.sle y then y else x) (fun _ _ _ _ => rfl) toInt_maxS
  case minu => exact writesG3_of_alu3 (f := fun x y => if x ≤ y then x else y) (fun _ _ _ _ => rfl) toNat_minU
  case maxu => exact writesG3_of_alu3 (f := fun x y => if x ≤ y then y else x) (fun _ _ _ _ => rfl) toNat_maxU

/-! ### Products, quotients and bit counts -/

/-- The upper half of a signed product fits a doubleword, so it is the floor of the quotient by 2^64 (R74). -/
theorem toInt_mulHS (x y : DWord) : (mulHS x y).toInt = x.toInt * y.toInt / 2 ^ 64 := by
  have hx := BitVec.toInt_lt (x := x); have hx' := BitVec.le_toInt x
  have hy := BitVec.toInt_lt (x := y); have hy' := BitVec.le_toInt y
  have hbound : |x.toInt * y.toInt| ≤ 2 ^ 63 * 2 ^ 63 := by
    rw [abs_mul]
    exact mul_le_mul (abs_le.mpr ⟨hx', by omega⟩) (abs_le.mpr ⟨hy', by omega⟩) (abs_nonneg _) (by norm_num)
  obtain ⟨hlow, hhigh⟩ := abs_le.mp hbound
  rw [mulHS, BitVec.toInt_ofInt]
  generalize x.toInt * y.toInt = p at hlow hhigh
  apply Int.bmod_eq_of_le <;> omega

theorem toNat_mulHU (x y : DWord) : (mulHU x y).toNat = x.toNat * y.toNat / 2 ^ 64 := by
  have hlt : x.toNat * y.toNat < 2 ^ 64 * 2 ^ 64 := Nat.mul_lt_mul'' x.isLt y.isLt
  rw [mulHU, BitVec.toNat_ofNat, Nat.mod_eq_of_lt (by omega)]

theorem eq_intMin_of_toInt {x : DWord} (h : x.toInt = -2 ^ 63) : x = BitVec.intMin 64 :=
  BitVec.toInt_inj.mp (h.trans (by decide))

theorem eq_neg_one_of_toInt {y : DWord} (h : y.toInt = -1) : y = -1#64 :=
  BitVec.toInt_inj.mp (h.trans (by decide))

/-- DIV and its corners: division by 0, and the most negative number over −1 (R75). -/
theorem divS_results (x y : DWord) : (y = 0 → divS x y = BitVec.allOnes 64) ∧
    (x.toInt = -2 ^ 63 → y.toInt = -1 → divS x y = x) ∧
    (y ≠ 0 → ¬ (x.toInt = -2 ^ 63 ∧ y.toInt = -1) → (divS x y).toInt = x.toInt.tdiv y.toInt) := by
  refine ⟨fun h => if_pos h, fun hx hy => ?_, fun h hc => ?_⟩
  · rw [eq_intMin_of_toInt hx, eq_neg_one_of_toInt hy]
    exact (if_neg (by decide)).trans BitVec.intMin_sdiv_neg_one
  · rw [divS, if_neg h]
    refine BitVec.toInt_sdiv_of_ne_or_ne _ _ (not_and_or.mp fun ⟨hx, hy⟩ => hc ⟨?_, ?_⟩)
    · rw [hx]; decide
    · rw [hy]; decide

/-- REM and its corners (R75). -/
theorem remS_results (x y : DWord) : (y = 0 → remS x y = x) ∧
    (x.toInt = -2 ^ 63 → y.toInt = -1 → remS x y = 0) ∧
    (y ≠ 0 → (remS x y).toInt = x.toInt.tmod y.toInt) := by
  have hne (h : y ≠ 0) : (remS x y).toInt = x.toInt.tmod y.toInt := by
    rw [remS, if_neg h, BitVec.toInt_srem]
  refine ⟨fun h => if_pos h, fun hx hy => BitVec.toInt_inj.mp ?_, hne⟩
  rw [hne fun h => absurd hy (by rw [h]; decide), hx, hy]
  decide

theorem divU_results (x y : DWord) : (y = 0 → divU x y = BitVec.allOnes 64) ∧
    (y ≠ 0 → (divU x y).toNat = x.toNat / y.toNat) :=
  ⟨fun h => if_pos h, fun h => by rw [divU, if_neg h, BitVec.toNat_udiv]⟩

theorem remU_results (x y : DWord) : (y = 0 → remU x y = x) ∧
    (y ≠ 0 → (remU x y).toNat = x.toNat % y.toNat) :=
  ⟨fun h => if_pos h, fun h => by rw [remU, if_neg h, BitVec.toNat_umod]⟩

/-- As many numbers from 0 on precede the first that fails a test as that number says, or all of them. -/
theorem length_takeWhile_range (p : Nat → Bool) (n : Nat) :
    ((List.range n).takeWhile p).length = (List.range n).findIdx fun i => !p i := by
  rw [List.takeWhile_eq_take_findIdx_not, List.length_take]
  exact Nat.min_eq_left List.findIdx_le_length

/-- What a count of leading or trailing zeros says, for the bits in the order they are looked at (R74): 64 where
there is no 1, otherwise the place of the first. -/
theorem countZeros_results (bit : Nat → Bool) :
    let r := BitVec.ofNat 64 ((List.range 64).takeWhile fun i => !bit i).length
    ((∀ i, i < 64 → bit i = false) → r = 64) ∧
    ((∃ i, i < 64 ∧ bit i = true) → r.toNat < 64 ∧ bit r.toNat = true ∧ ∀ i, i < r.toNat → bit i = false) := by
  simp only [length_takeWhile_range, Bool.not_not]
  refine ⟨fun h => ?_, fun ⟨i, hi, hb⟩ => ?_⟩
  · rw [List.findIdx_eq_length_of_false fun i hi => h i (List.mem_range.mp hi), List.length_range]
    rfl
  · have hlt : (List.range 64).findIdx (fun i => bit i) < 64 :=
      (List.findIdx_lt_length_of_exists ⟨i, List.mem_range.mpr hi, hb⟩).trans_eq List.length_range
    rw [BitVec.toNat_ofNat, Nat.mod_eq_of_lt (by omega)]
    refine ⟨hlt, ?_, fun j hj => ?_⟩
    · simpa using List.findIdx_getElem (p := bit) (w := hlt.trans_eq List.length_range.symm)
    · simpa using List.not_of_lt_findIdx hj

theorem exists_bit_of_ne_zero {x : DWord} (h : x ≠ 0) : ∃ i, i < 64 ∧ x.getLsbD i = true := by
  by_contra hn
  push Not at hn
  exact h (BitVec.eq_of_getLsbD_eq fun i hi => by simpa using hn i hi)

theorem clz64_results (x : DWord) : (x = 0 → clz64 x = 64) ∧
    (x ≠ 0 → (clz64 x).toNat < 64 ∧ x.getLsbD (63 - (clz64 x).toNat) = true ∧
      ∀ i, 63 - (clz64 x).toNat < i → i < 64 → x.getLsbD i = false) := by
  obtain ⟨hzero, hone⟩ := countZeros_results fun i => x.getLsbD (63 - i)
  refine ⟨fun h => hzero fun i _ => by simp [h], fun h => ?_⟩
  obtain ⟨i, hi, hb⟩ := exists_bit_of_ne_zero h
  obtain ⟨hlt, hbit, hbelow⟩ := hone ⟨63 - i, by omega, by rwa [show 63 - (63 - i) = i by omega]⟩
  refine ⟨hlt, hbit, fun j hj hj' => ?_⟩
  have := hbelow (63 - j) (by simp only [clz64] at hj; omega)
  rwa [show 63 - (63 - j) = j by omega] at this

theorem ctz64_results (x : DWord) : (x = 0 → ctz64 x = 64) ∧
    (x ≠ 0 → (ctz64 x).toNat < 64 ∧ x.getLsbD (ctz64 x).toNat = true ∧
      ∀ i, i < (ctz64 x).toNat → x.getLsbD i = false) := by
  obtain ⟨hzero, hone⟩ := countZeros_results x.getLsbD
  exact ⟨fun h => hzero fun i _ => by simp [h], fun h => hone (exists_bit_of_ne_zero h)⟩

theorem toNat_popc64 (x : DWord) :
    (popc64 x).toNat = ((List.range 64).map fun i => if x.getLsbD i then 1 else 0).sum := by
  have hle : ((List.range 64).filter fun i => x.getLsbD i).length ≤ 64 := by
    simpa using List.length_filter_le (fun i => x.getLsbD i) (List.range 64)
  rw [popc64, BitVec.toNat_ofNat, Nat.mod_eq_of_lt (by omega)]
  simp [List.sum_map_ite]

/-- Settles O2: each word runs `alu3` or `alu2`, and its function gives the results of R74 and R75. -/
theorem multiplyDivideCountResults : Obligations.MultiplyDivideCountResults := by
  refine ⟨⟨?mul, ?mulh, ?mulhu, ?divu, ?remu, ?div, ?rem⟩, ?clz, ?ctz, ?popc⟩
  case mul => exact writesG3_of_alu3 (f := fun x y => x * y) (fun _ _ _ _ => rfl) BitVec.toNat_mul
  case mulh => exact writesG3_of_alu3 (fun _ _ _ _ => rfl) toInt_mulHS
  case mulhu => exact writesG3_of_alu3 (fun _ _ _ _ => rfl) toNat_mulHU
  case divu => exact writesG3_of_alu3 (fun _ _ _ _ => rfl) divU_results
  case remu => exact writesG3_of_alu3 (fun _ _ _ _ => rfl) remU_results
  case div => exact writesG3_of_alu3 (fun _ _ _ _ => rfl) divS_results
  case rem => exact writesG3_of_alu3 (fun _ _ _ _ => rfl) remS_results
  case clz => exact writesG2_of_alu2 (fun _ _ _ => rfl) clz64_results
  case ctz => exact writesG2_of_alu2 (fun _ _ _ => rfl) ctz64_results
  case popc => exact writesG2_of_alu2 (fun _ _ _ => rfl) toNat_popc64

end Sys2Proof.Machine

namespace Sys2Proof.Machine

/-! ### Immediate forms (R76) -/

/-- LUI's value: the immediate at bit 13, sign-extended. -/
theorem toInt_lui (imm : BitVec 18) : (imm.signExtend 64 <<< 13).toInt = imm.toInt * 2 ^ 13 := by
  have hlow := BitVec.le_toInt imm
  have hhigh := BitVec.toInt_lt (x := imm)
  have hmul : imm.signExtend 64 <<< 13 = imm.signExtend 64 * 8192#64 := by
    rw [BitVec.shiftLeft_eq_mul_twoPow]
    rfl
  rw [hmul, BitVec.toInt_mul, BitVec.toInt_signExtend_of_le (by decide), show (8192#64).toInt = 8192 by decide]
  simp only [show (18 : Nat) - 1 = 17 by decide] at hlow hhigh
  rw [show (2 : Int) ^ 13 = 8192 by decide]
  apply Int.bmod_eq_of_le <;> omega

/-- A displacement in words from an address, modulo 2^48 (R76). -/
theorem toNat_wordDisplacement (a : VAddr) (imm : BitVec 18) :
    ((a + imm.signExtend 48 * 4).toNat : Int) = (a.toNat + 4 * imm.toInt) % 2 ^ 48 := by
  have hofInt : a + imm.signExtend 48 * 4 = BitVec.ofInt 48 (a.toNat + 4 * imm.toInt) := by
    rw [BitVec.ofInt_add, BitVec.ofInt_mul, BitVec.mul_comm (BitVec.ofInt 48 4), BitVec.ofInt_natCast,
      BitVec.ofNat_toNat, BitVec.setWidth_eq]
    rfl
  rw [hofInt, BitVec.toNat_ofInt]
  omega

/-- Settles O3: each word runs `alu2` or writes a constant. -/
theorem immediateResults : Obligations.ImmediateResults := by
  refine ⟨fun imm => ?addi, fun imm => ?andi, fun imm => ?ori, fun imm => ?xori, fun n => ?slli, fun n => ?srli,
    fun n => ?srai, fun s d imm hg => ?lui, fun s d imm hg => ?adrp⟩
  case addi => exact writesG2_of_alu2 (f := fun x => x + imm.signExtend 64) (fun _ _ _ => rfl) fun _ => rfl
  case andi => exact writesG2_of_alu2 (f := fun x => x &&& imm.signExtend 64) (fun _ _ _ => rfl) fun _ => rfl
  case ori => exact writesG2_of_alu2 (f := fun x => x ||| imm.signExtend 64) (fun _ _ _ => rfl) fun _ => rfl
  case xori => exact writesG2_of_alu2 (f := fun x => x ^^^ imm.signExtend 64) (fun _ _ _ => rfl) fun _ => rfl
  case slli =>
    exact writesG2_of_alu2 (f := fun x => x <<< n.val) (fun _ _ _ => rfl) fun x => toNat_shiftLeft_eq_mul x n
  case srli =>
    exact writesG2_of_alu2 (f := fun x => x >>> n.val) (fun _ _ _ => rfl) fun x => toNat_ushiftRight_eq_div x n
  case srai =>
    exact writesG2_of_alu2 (f := fun x => x.sshiftRight n.val) (fun _ _ _ => rfl) fun x => toInt_sshiftRight_eq_div x n
  case lui =>
    obtain ⟨t, ht, hd, hf, hm⟩ := aluConst_spec (imm.signExtend 64 <<< 13) (d := d) hg
    refine ⟨t, ht, hf, hm, ?_⟩
    rw [hd, apply_ite BitVec.toInt, toInt_lui]
    rfl
  case adrp =>
    obtain ⟨t, ht, hd, hf, hm⟩ := aluConst_spec ((s.core.nowAddr + imm.signExtend 48 * 4).zeroExtend 64) (d := d) hg
    refine ⟨t, ht, hf, hm, ?_⟩
    rw [hd, ← toNat_wordDisplacement]
    split
    · rfl
    · rw [BitVec.toNat_setWidth, Nat.mod_eq_of_lt (by omega)]

/-! ### Compares and steer logic (R77, R78) -/

/-- A register compare sets the condition to what it says of two values that reads may return (R77). -/
theorem comparesG_of_cmp3 {mk : Fin 16 → Fin 32 → Fin 32 → Instr} {f h : DWord → DWord → Bool}
    (hexec : ∀ sd a b s, exec (mk sd a b) s = cmp3 f sd a b s) (heq : ∀ x y, f x y = h x y) : comparesG mk h := by
  intro s sd a b hsd hg
  obtain ⟨x, hx, y, hy, t, ht, hc, hf, hm⟩ := cmp3_spec f hsd hg
  exact ⟨x, hx, y, hy, t, (hexec sd a b s).trans ht, heq x y ▸ hc, hf, hm⟩

/-- An immediate compare sets the condition to what it says of a value that a read may return (R77). -/
theorem comparesI_of_cmpI {mk : Fin 16 → Fin 32 → BitVec 14 → Instr} {f h : DWord → DWord → Bool}
    (hexec : ∀ sd a imm s, exec (mk sd a imm) s = cmpI f sd a imm s) (heq : ∀ x y, f x y = h x y) :
    comparesI mk h := by
  intro s sd a imm hsd hg
  obtain ⟨x, hx, t, ht, hc, hf, hm⟩ := cmpI_spec f imm hsd hg
  exact ⟨x, hx, t, (hexec sd a imm s).trans ht, heq x _ ▸ hc, hf, hm⟩

/-- Steer logic on two conditions sets the condition of its destination alone (R78). -/
theorem setsCond_of_steer3 {i : Instr} {s : State} {sd sa sb : Fin 16} (f : Bool → Bool → Bool) (hsd : sd.val < 12)
    (hg : ctlGoes s [] = true) (hexec : exec i s = steer3 f sd sa sb s) :
    setsCond i sd (f (s.core.steer sa).cond (s.core.steer sb).cond) s := by
  obtain ⟨t, ht, hc, hf, hm⟩ := steer3_spec f (sa := sa) (sb := sb) hsd hg
  exact ⟨t, hexec.trans ht, hc, hf, hm⟩

/-- A word that writes a condition computed from the state sets it alone (R78). -/
theorem setsCond_of_issue {i : Instr} {s : State} {sd : Fin 16} (v b : State → Bool) (hsd : sd.val < 12)
    (hg : ctlGoes s [] = true) (hexec : exec i s = ctlWord [] s fun u => .issue (u.writeCond sd (v u) (b u))) :
    setsCond i sd (v s) s := by
  obtain ⟨t, ht, hrest, hf, hm⟩ :=
    finish_frame (s0 := s) hg (CtlFrame.writeCond s sd (v s) (b s)) (Stands.writeCond s sd (v s) (b s))
  refine ⟨t, hexec.trans ((ctlWord_goes hg _).trans ht), ?_, hf, hm⟩
  rw [hrest.steer, State.writeCond_steer _ _ _ _ hsd]

theorem bne_eq_decide_ne (x y : DWord) : (x != y) = decide (x ≠ y) := by simp [bne, beq_eq_decide]

theorem Stands.setTaintT (s : State) (r : Fin 16) (b : Bool) : Stands s (s.setTaintT r b) := by constructor <;> simp

theorem Stands.setTaintC (s : State) (r : Fin 16) (b : Bool) : Stands s (s.setTaintC r b) := by constructor <;> simp

theorem Stands.setSteer (s : State) (r : Fin 16) (f : Steer → Steer) : Stands s (s.setSteer r f) := by
  constructor <;> simp

theorem Core.steer_of_bank {c d : Core} (h : c.ctl.bank = d.ctl.bank) (r : Fin 16) : c.steer r = d.steer r := by
  unfold Core.steer
  rw [h]

/-- SMOV copies the whole register and counts as the last setting of its target (R40, R78). -/
theorem smov_spec {s : State} {sd : Fin 16} (sa : Fin 16) (hsd : sd.val < 12) (hg : ctlGoes s [] = true) :
    ∃ t, exec (.smov sd sa) s = .next t ∧ CtlFrame [] [sd] s t ∧ Moves s t ∧
      t.core.steer sd = { s.core.steer sa with setAt := some s.core.tick } := by
  have hexec := ctlWord_goes hg fun u => .issue (((u.setSteer sd fun _ =>
    { u.core.steer sa with setAt := some u.core.tick }).setTaintC sd (u.taintS sa).1).setTaintT sd (u.taintS sa).2)
  obtain ⟨t, ht, hrest, hf, hm⟩ := finish_frame (s0 := s) hg
    (((CtlFrame.setSteer s sd fun _ => { s.core.steer sa with setAt := some s.core.tick }).trans
      (.setTaintC _ sd (s.taintS sa).1)).trans (.setTaintT _ sd (s.taintS sa).2))
    (((Stands.setSteer s sd _).trans (.setTaintC _ sd _)).trans (.setTaintT _ sd _))
  refine ⟨t, hexec.trans ht, by simpa using hf, hm, ?_⟩
  rw [hrest.steer, Core.steer_of_bank (State.setTaintT_bank _ sd _), Core.steer_of_bank (State.setTaintC_bank _ sd _),
    State.setSteer_steer _ _ _ _ hsd, if_pos rfl]

/-- Settles O4: each compare runs `cmp3` or `cmpI`, each word of steer logic writes one condition. -/
theorem conditionResults : Obligations.ConditionResults := by
  refine ⟨?ceq, ?cne, ?clt, ?cge, ?cltu, ?cgeu, ?cbs, ?cbc, ?ceqi, ?cnei, ?clti, ?cgei, ?cltui,
    fun s sd sa sb hsd hg => ⟨?sand, ?sor, ?sxor, ?snot, ?sset, ?sclr, ?smov⟩⟩
  case ceq => exact comparesG_of_cmp3 (f := fun x y => x == y) (fun _ _ _ _ => rfl) fun _ _ => beq_eq_decide _ _
  case cne => exact comparesG_of_cmp3 (f := fun x y => x != y) (fun _ _ _ _ => rfl) fun _ _ => bne_eq_decide_ne _ _
  case clt => exact comparesG_of_cmp3 (f := fun x y => x.slt y) (fun _ _ _ _ => rfl) fun _ _ => BitVec.slt_eq_decide
  case cge => exact comparesG_of_cmp3 (f := fun x y => y.sle x) (fun _ _ _ _ => rfl) fun _ _ => BitVec.sle_eq_decide
  case cltu => exact comparesG_of_cmp3 (f := fun x y => x.ult y) (fun _ _ _ _ => rfl) fun _ _ => BitVec.ult_eq_decide
  case cgeu => exact comparesG_of_cmp3 (f := fun x y => y.ule x) (fun _ _ _ _ => rfl) fun _ _ => BitVec.ule_eq_decide
  case cbs => exact comparesG_of_cmp3 (f := fun x y => x.getLsbD (shamt y)) (fun _ _ _ _ => rfl) fun _ _ => rfl
  case cbc => exact comparesG_of_cmp3 (f := fun x y => !x.getLsbD (shamt y)) (fun _ _ _ _ => rfl) fun _ _ => rfl
  case ceqi => exact comparesI_of_cmpI (f := fun x y => x == y) (fun _ _ _ _ => rfl) fun _ _ => beq_eq_decide _ _
  case cnei => exact comparesI_of_cmpI (f := fun x y => x != y) (fun _ _ _ _ => rfl) fun _ _ => bne_eq_decide_ne _ _
  case clti => exact comparesI_of_cmpI (f := fun x y => x.slt y) (fun _ _ _ _ => rfl) fun _ _ => BitVec.slt_eq_decide
  case cgei => exact comparesI_of_cmpI (f := fun x y => y.sle x) (fun _ _ _ _ => rfl) fun _ _ => BitVec.sle_eq_decide
  case cltui => exact comparesI_of_cmpI (f := fun x y => x.ult y) (fun _ _ _ _ => rfl) fun _ _ => BitVec.ult_eq_decide
  case sand => exact setsCond_of_steer3 (fun x y => x && y) hsd hg rfl
  case sor => exact setsCond_of_steer3 (fun x y => x || y) hsd hg rfl
  case sxor => exact setsCond_of_steer3 (fun x y => x != y) hsd hg rfl
  case snot =>
    exact setsCond_of_issue (fun u => !(u.core.steer sa).cond) (fun u => (u.taintS sa).1) hsd hg rfl
  case sset => exact setsCond_of_issue (fun _ => true) (fun _ => false) hsd hg rfl
  case sclr => exact setsCond_of_issue (fun _ => false) (fun _ => false) hsd hg rfl
  case smov =>
    obtain ⟨t, ht, hf, hm, hs⟩ := smov_spec sa hsd hg
    refine ⟨t, ht, hf, hm, ?_⟩
    simp only [hs, and_self]

end Sys2Proof.Machine

namespace Sys2Proof.Machine

/-! ### A load that a recording notes (R302, R379)

`Obligations.LoadResults` has what the package shares stand in every load. A load from the argument block made while
recording adds an automatic stop to the jig (`State.recordStop`), and what is written into a location that holds an
uncorrectable error is correct again (`State.mend`). So a state refutes it in which the jig's first entry holds one. -/

/-- A core that records into jig 0, whose first entry holds an uncorrectable error, with the address of the argument
block in g1. -/
def State.recordingOverBadEntry : State :=
  { State.reset with
    core := { Core.reset 0 with
      ctl := { b0 := { g := Vector.set (.replicate 32 0) 1 0xFF0000000000 } }
      jig := { recording := some { jig := 0, since := 0 } } }
    sys := { bad := [(.jig 0, 0)] } }

/-- The load's automatic stop makes the entry correct again. -/
theorem exec_ldb_recordingOverBadEntry :
    ∃ t, exec (.ldb 2 1 0 0) State.recordingOverBadEntry = .next t ∧ t.sys.bad = [] := ⟨_, rfl, rfl⟩

/-- Refutes O8: the list of locations in error, which the package shares, has lost its one location. -/
theorem not_loadResults : ¬ Obligations.LoadResults := by
  intro h
  obtain ⟨t, ht, hframe, -⟩ := h.1 State.recordingOverBadEntry (.ldb 2 1 0 0) 2 1 0 1 true (.bench 0) 0
    rfl rfl rfl rfl
  obtain ⟨u, hu, hbad⟩ := exec_ldb_recordingOverBadEntry
  obtain rfl : t = u := Host.Outcome.next.inj (ht.symm.trans hu)
  rw [hframe.sys] at hbad
  exact absurd hbad (by decide)

/-! ### A mark passed in a gang stop (R94, R149, R326)

`Obligations.BarAndPlumb` has SLIP 0 after PLUMB wherever the tick of the word is no slip by the state before it. Whether
a tick is slip depends on GTICK, which must have reached the tick of a stop of firmware (`Core.stopReached`), and PLUMB
changes GTICK before its tick passes (`leavePlumb`). So a state refutes it in which the release value lies below that
tick: a stopped core whose stop of firmware has been reached, and is no longer once the mark is passed. -/

/-- A core that stands stopped for a stall at a released mark of value 0, with GTICK 10 past the stop of firmware at 5. -/
def State.releasedInStop : State :=
  { State.reset with
    core := { Core.reset 0 with
      gtick := 10
      ctl := { arrival := some (.plumb 0 0 (some 0)) }
      stall := { stopped := true, preempt := some (5, 100) } } }

/-- The tick of the PLUMB counts as slip, since GTICK 0 has not reached the stop. -/
theorem exec_plumb_releasedInStop :
    ∃ t, exec (.plumb 0) State.releasedInStop = .next t ∧ t.core.stall.slip = 1 := ⟨_, rfl, rfl⟩

/-- Refutes O18: SLIP is 1 after the mark, though the tick was no slip by the state before it. -/
theorem not_barAndPlumb : ¬ Obligations.BarAndPlumb := by
  intro h
  obtain ⟨-, -, hreleased, -⟩ := h State.releasedInStop 0 0 rfl rfl
  obtain ⟨t, ht, -, -, -, -, -, -, -, hclears, -⟩ := hreleased 0 0 0 rfl
  obtain ⟨u, hu, hslip⟩ := exec_plumb_releasedInStop
  obtain rfl : t = u := Host.Outcome.next.inj (ht.symm.trans hu)
  rw [hclears rfl] at hslip
  exact absurd hslip (by decide)

/-! ### A retried phase that retires (R113, R377, R380)

`Obligations.RetireLeavesGang` has every byte of memory stand as RETIRE takes the core out of its gang. RETIRE commits as
PHSW does, and a retried phase that reaches its commit logs the error that it was retried for (`State.logRetried`), whose
record goes to the tenant's event ring in host memory. -/

/-- A core of tenant 0, whose event ring is on at host address 0, in a retried phase. -/
def State.inRetriedPhase : State :=
  { State.reset with
    core := { Core.reset 0 with ctl := { run := .running, regs := { retried := true } } }
    sys := { die := .replicate 4 { boot := .trimmed }
             tenants := Vector.set (.replicate 16 {}) 0 { cores := [0], eren := true } } }

/-- RETIRE writes the error record, of kind 2, into the ring. -/
theorem exec_retire_inRetriedPhase :
    ∃ t, exec .retire State.inRetriedPhase = .next t ∧ (t.mem .host).read 0 = 2 := ⟨_, rfl, rfl⟩

/-- Refutes O30: byte 0 of host memory, 0 before the RETIRE, is 2 after it. -/
theorem not_retireLeavesGang : ¬ Obligations.RetireLeavesGang := by
  intro h
  obtain ⟨hbank0, -⟩ := h State.inRetriedPhase
  obtain ⟨-, hretires, -⟩ := hbank0 rfl
  obtain ⟨t, ht, -, -, -, -, -, -, -, -, -, -, -, -, hmem, -⟩ := hretires rfl rfl
  obtain ⟨u, hu, hbyte⟩ := exec_retire_inRetriedPhase
  obtain rfl : t = u := Host.Outcome.next.inj (ht.symm.trans hu)
  have hsame := hmem .host 0
  rw [hbyte] at hsame
  exact absurd hsame (by decide)

/-! ### A landing in a full slot whose LLAND has issued (R144, R293, R295)

`Obligations.GangTiming` has a slot keep its contents where a transfer lands in it while it is full. The receiver traps,
and issued words complete before the handler's first word (`Core.settle`): an LLAND of that slot that has issued and
not retired empties it then. So a state refutes it in which such a word stands issued. -/

/-- A transfer lands in slot 0, which is full, while an LLAND of the slot has issued and has still to retire. -/
def State.landsOverIssued : State :=
  { State.reset with
    core := { Core.reset 0 with
      load := { issued := [{ frees := some (0, 0) }] }
      land := { slot := Vector.set (.replicate 64 none) 0 (some (0, []))
                flights := [{ slot := 0, fmt := 0, data := [], due := 0, back := false }] } } }

/-- The trap of the landing lets the LLAND retire, and the slot is empty. -/
theorem exec_slotLanding_landsOverIssued :
    ∃ t, exec .slotLanding State.landsOverIssued = .next t ∧ t.core.land.slot[(0 : Fin 64)] = none := ⟨_, rfl, rfl⟩

/-- Refutes O54: the slot that was full is empty after the landing. -/
theorem not_gangTiming : ¬ Obligations.GangTiming := by
  intro h
  obtain ⟨-, -, -, -, -, -, -, -, hlands, -⟩ := h State.landsOverIssued
  obtain ⟨-, hfull⟩ := hlands { slot := 0, fmt := 0, data := [], due := 0, back := false } rfl rfl
  obtain ⟨t, ht, -, -, hslot⟩ := hfull rfl rfl
  obtain ⟨u, hu, hempty⟩ := exec_slotLanding_landsOverIssued
  obtain rfl : t = u := Host.Outcome.next.inj (ht.symm.trans hu)
  rw [hempty] at hslot
  exact absurd hslot (by decide)

end Sys2Proof.Machine

namespace Sys2Proof.Machine

/-! ### A jig whose entries hold an error (R306, R380)

`Obligations.JigWords` has every byte of memory stand where JIG.PLAY empties a jig whose entries hold an uncorrectable
error. The error is logged as a lasting one, and its record goes to the tenant's event ring in host memory. -/

theorem noHook_iff {s : State} : noHook s = true ↔ (s.core.ctl.regs.hook && !s.core.ctl.bank1) = false := by
  unfold noHook
  cases s.core.ctl.regs.hook <;> cases s.core.ctl.bank1 <;> simp

/-- A word that a user debug hook refuses runs its body outside a hook (R370). -/
theorem ctlNoHook_goes {i : Instr} {rs : List (Fin 32)} {s : State} (hh : noHook s = true) (hg : ctlGoes s rs = true)
    (body : State → Res) : ctlNoHook i rs s body = finish s (body s) := by
  rw [ctlNoHook, noHook_iff.mp hh, if_neg Bool.false_ne_true, ctlWord_goes hg]

/-- JIG.PLAY empties a jig of its own whose entries hold an uncorrectable error, logs it and writes 0 (R306, R380). -/
theorem exec_jigPlay_bad {s : State} {d : Fin 32} {j : Fin 4} (hg : ctlGoes s [] = true) (hh : noHook s = true)
    (hrec : s.isRecording = false) (hsaved : s.savedPlay s.core.ctl.pcq.q0.addr d j = none) (hown : jigOwn s j = true)
    (hbad : jigBad s j = true) : exec (.jigPlay d j) s = finish s (.issue
      ((((s.modJig j fun _ => {}).logError 3 0 0 0 0).setIrrev).writeGLocked d 0 false)) := by
  refine (ctlNoHook_goes hh hg _).trans (congrArg _ ?_)
  simp only [hrec, hsaved, hown, hbad, Bool.and_self, if_true, Bool.false_eq_true, if_false]

/-- A jig's key says nothing of the jigs (R305). -/
theorem jigKey_updJig (s : State) (f : JigStore → JigStore) :
    jigKey (s.upd fun c => { c with jig := f c.jig }) = jigKey s := rfl

/-- A core of tenant 0, whose event ring is on at host address 0; an entry of its jig 0 would hold an error. -/
def State.beforeBadJig : State :=
  { State.reset with
    sys := { die := .replicate 4 { boot := .trimmed }, bad := [(.jig 0, 0)]
             tenants := Vector.set (.replicate 16 {}) 0 { cores := [0], eren := true } } }

/-- The same with one entry in jig 0, which is valid and has a given key. -/
def State.overBadJig (key : DWord) : State := State.beforeBadJig.upd fun c => { c with jig := { c.jig with
  jig := c.jig.jig.set 0 { state := .valid, entries := [0], key := key } } }

theorem jigOwn_overBadJig : jigOwn (State.overBadJig (jigKey State.beforeBadJig)) 0 = true := by
  have hkey : jigKey (State.overBadJig (jigKey State.beforeBadJig)) = jigKey State.beforeBadJig :=
    jigKey_updJig State.beforeBadJig fun x => { x with
      jig := x.jig.set 0 { state := .valid, entries := [0], key := jigKey State.beforeBadJig } }
  unfold jigOwn
  rw [hkey]
  simp [State.overBadJig]

theorem State.raise_core (s : State) (tn : Fin 16) (v : Fin 4) : (s.raise tn v).core = s.core := by
  unfold State.raise
  dsimp only
  split <;> rfl

/-- A record of the host's ring changes nothing of the acting core. -/
theorem State.writeRecord_core (s : State) (tn : Fin 16) (q : Option (Fin 8)) (vec : Fin 4) (bs : List Byte) :
    (s.writeRecord tn q vec bs).core = s.core := by
  unfold State.writeRecord
  dsimp only
  split
  · rfl
  · split
    · rfl
    · rw [State.raise_core]
      exact State.mend_core ..

theorem State.note_core (s : State) (bs : List Byte) : (s.note bs).core = s.core := by
  unfold State.note
  split <;> rfl

theorem State.sendError_core (s : State) (k : Nat) (bs : List Byte) : (s.sendError k bs).core = s.core := by
  unfold State.sendError
  split
  · split
    · exact State.writeRecord_core ..
    · rfl
  · exact State.note_core ..

/-- An error's record changes nothing of the acting core (R380). -/
theorem State.logError_core (s : State) (kind cause wh pa : Nat) (info : DWord) :
    (s.logError kind cause wh pa info).core = s.core := State.sendError_core ..

theorem State.raise_congr {s t : State} (h : s.sys = t.sys) (tn : Fin 16) (v : Fin 4) :
    (s.raise tn v).sys = (t.raise tn v).sys := by
  obtain ⟨_, _, sys, _⟩ := s
  obtain rfl : sys = t.sys := h
  unfold State.raise
  dsimp only
  split <;> rfl

theorem State.modTenant_congr {s t : State} (h : s.sys = t.sys) (tn : Fin 16) (f : Tenant → Tenant) :
    (s.modTenant tn f).sys = (t.modTenant tn f).sys := by
  obtain ⟨_, _, sys, _⟩ := s
  obtain rfl : sys = t.sys := h
  rfl

theorem State.mend_congr {s t : State} (h : s.sys = t.sys) (sp : Space) (off n : Nat) :
    (s.mend sp off n).sys = (t.mend sp off n).sys := by
  obtain ⟨_, _, sys, _⟩ := s
  obtain rfl : sys = t.sys := h
  unfold State.mend
  dsimp only
  split <;> rfl

theorem State.writeAt_host_congr {s t : State} (h : s.sys = t.sys) (off : Nat) (bs : List Byte) :
    (s.writeAt .host off bs).sys = (t.writeAt .host off bs).sys := by
  obtain ⟨_, _, sys, _⟩ := s
  obtain rfl : sys = t.sys := h
  refine State.mend_congr ?_ ..
  rfl

/-- What a record leaves of what the package shares is decided by it. -/
theorem State.writeRecord_congr {s t : State} (h : s.sys = t.sys) (tn : Fin 16) (q : Option (Fin 8)) (vec : Fin 4)
    (bs : List Byte) : (s.writeRecord tn q vec bs).sys = (t.writeRecord tn q vec bs).sys := by
  unfold State.writeRecord
  dsimp only
  rw [h]
  split
  · exact h
  · split
    · exact State.modTenant_congr h ..
    · exact State.raise_congr (State.modTenant_congr (State.writeAt_host_congr h ..) ..) ..

theorem State.sendError_congr {s t : State} (h : s.sys = t.sys) (k : Nat) (bs : List Byte) :
    (s.sendError k bs).sys = (t.sendError k bs).sys := by
  have howner : s.owner k = t.owner k := by unfold State.owner; rw [h]
  have hbooted : s.booted = t.booted := by unfold State.booted; rw [h]
  unfold State.sendError State.note
  rw [howner, hbooted]
  split
  · split
    · exact State.writeRecord_congr h ..
    · exact h
  · split
    · exact congrArg (fun y : Sys => { y with mlog := y.mlog ++ [bs] }) h
    · exact h

theorem dieTick_updJig (s : State) (f : JigStore → JigStore) (d : Fin 4) :
    (s.upd fun c => { c with jig := f c.jig }).dieTick d = s.dieTick d := by
  unfold State.dieTick
  simp only [State.upd_core, State.upd_others, List.filter_cons]
  by_cases hd : s.core.id.die = d <;> simp [hd]

/-- Nor does what an error's record leaves of what the package shares depend on the jigs. -/
theorem sys_logError_updJig (s : State) (f : JigStore → JigStore) (kind cause wh pa : Nat) (info : DWord) :
    ((s.upd fun c => { c with jig := f c.jig }).logError kind cause wh pa info).sys
      = (s.logError kind cause wh pa info).sys := by
  unfold State.logError State.logErrorOf State.logErrorAt
  rw [dieTick_updJig]
  refine State.sendError_congr ?_ _ _
  rfl

/-- The error's record, of kind 3, is written at byte 0 of host memory. -/
theorem read_host_logError_beforeBadJig : ((State.beforeBadJig.logError 3 0 0 0 0).mem .host).read 0 = 3 := rfl

/-- The state in which the JIG.PLAY of that jig issues: the jig is empty and the error is logged. -/
def State.loggedBadJig (key : DWord) : State :=
  ((((State.overBadJig key).modJig 0 fun _ => {}).logError 3 0 0 0 0).setIrrev).writeGLocked 0 0 false

/-- The core is that of the state before but for its jigs. -/
theorem overBadJig_modJig (key : DWord) : ((State.overBadJig key).modJig 0 fun _ => {})
    = State.beforeBadJig.upd fun c => { c with jig := { c.jig with
        jig := (c.jig.jig.set 0 { state := .valid, entries := [0], key := key }).set 0 {} } } := rfl

theorem sys_loggedBadJig (key : DWord) :
    (State.loggedBadJig key).sys = (State.beforeBadJig.logError 3 0 0 0 0).sys := by
  have hset := State.setIrrev_sys (((State.overBadJig key).modJig 0 fun _ => {}).logError 3 0 0 0 0)
  refine Eq.trans hset ?_
  rw [overBadJig_modJig]
  exact sys_logError_updJig State.beforeBadJig (fun x => { x with
    jig := (x.jig.set 0 { state := .valid, entries := [0], key := key }).set 0 {} }) 3 0 0 0 0

theorem read_host_loggedBadJig (key : DWord) : ((State.loggedBadJig key).mem .host).read 0 = 3 :=
  (congrArg (fun y : Sys => y.host.read 0) (sys_loggedBadJig key)).trans read_host_logError_beforeBadJig

theorem noStep_loggedBadJig (key : DWord) : noStep (State.loggedBadJig key) = true := by
  refine (noStep_eq (s := (State.overBadJig key).modJig 0 fun _ => {}) ?_ ?_).trans rfl <;>
    simp [State.loggedBadJig, State.writeGLocked_core, State.logError_core]

/-- Refutes O21: byte 0 of host memory, 0 before the JIG.PLAY, is 3 after it. -/
theorem not_jigWords : ¬ Obligations.JigWords := by
  intro h
  generalize hkey : jigKey State.beforeBadJig = key at *
  have hown : jigOwn (State.overBadJig key) 0 = true := hkey ▸ jigOwn_overBadJig
  obtain ⟨-, -, -, -, hplay⟩ := h (State.overBadJig key) 0 0 rfl rfl
  obtain ⟨-, hempties, -⟩ := hplay rfl
  obtain ⟨t, ht, ⟨-, -, hmem, -⟩, -⟩ := hempties rfl hown rfl
  rw [exec_jigPlay_bad rfl rfl rfl rfl hown rfl] at ht
  obtain rfl := Host.Outcome.next.inj ht
  have hsame := ((issue_rest (noStep_loggedBadJig key)).memSame .host 0).symm.trans (hmem .host 0)
  exact absurd ((read_host_loggedBadJig key).symm.trans (hsame.trans rfl) : (3 : Byte) = 0) (by decide)

end Sys2Proof.Machine

namespace Sys2Proof.Machine

/-! ### Words that change the queues, the bench, the phase or the IRREV bits alone -/

/-- Every register, unit and jig stands where the core changes in its queues, its engine-visible registers, its bench and
its phase alone. -/
theorem CtlKeep.of_core {s u : State}
    (h : u.core = { s.core with q := u.core.q, vis := u.core.vis, bench := u.core.bench, phase := u.core.phase }) :
    CtlKeep [] [] s u := by
  have hctl : u.core.ctl = s.core.ctl := by rw [h]
  have hjig : u.core.jig = s.core.jig := by rw [h]
  exact {
    reg := RegSame.of_banks (by rw [hctl]) (by rw [hctl]) (by rw [hctl])
    unit := ⟨fun e => by rw [h]; cases e <;> rfl, by rw [h], by rw [h], by rw [h], by rw [h], by rw [h],
      fun _ => by rw [h], by rw [h]⟩
    regs := by rw [hctl]
    jig := fun hrec => by rw [hjig]; exact ⟨hrec, rfl⟩ }

/-- So does what the stream goes on by. -/
theorem Stands.of_core {s u : State}
    (h : u.core = { s.core with q := u.core.q, vis := u.core.vis, bench := u.core.bench, phase := u.core.phase }) :
    Stands s u := by
  constructor <;> rw [h]

theorem CtlKeep.trans {gs gs' : List (Fin 32)} {ss ss' : List (Fin 16)} {s t u : State} (h : CtlKeep gs ss s t)
    (k : CtlKeep gs' ss' t u) : CtlKeep (gs ++ gs') (ss ++ ss') s u where
  reg := {
    g := fun r hr => (k.reg.g r (by simp_all)).trans (h.reg.g r (by simp_all))
    steer := fun r hr => (k.reg.steer r (by simp_all)).trans (h.reg.steer r (by simp_all))
    bank := k.reg.bank.trans h.reg.bank
    other := by
      have ha := h.reg.other
      have hb := k.reg.other
      rw [h.reg.bank] at hb
      split at ha <;> simp_all }
  unit := {
    eng := fun e => (k.unit.eng e).trans (h.unit.eng e)
    tok := k.unit.tok.trans h.unit.tok
    mx := k.unit.mx.trans h.unit.mx
    vec := k.unit.vec.trans h.unit.vec
    land := k.unit.land.trans h.unit.land
    cp := k.unit.cp.trans h.unit.cp
    sd := fun hs => by
      have ht : t.core.stoodStill = false := by
        unfold Core.stoodStill at hs ⊢
        rwa [h.unit.stopped, h.reg.bank]
      exact (k.unit.sd ht).trans (h.unit.sd hs)
    stopped := k.unit.stopped.trans h.unit.stopped }
  regs := k.regs.trans h.regs
  jig := fun hrec => ⟨(k.jig (h.jig hrec).1).1, (k.jig (h.jig hrec).1).2.trans (h.jig hrec).2⟩

/-- A word that issues with a state in which the registers and units but those named stand (R41, R72). -/
theorem finish_keep {s s0 u : State} {gs : List (Fin 32)} {ss : List (Fin 16)} (hn : noStep s = true)
    (hk : CtlKeep gs ss s u) (hs : Stands s u) :
    ∃ t, finish s0 (.issue u) = .next t ∧ Issued.Rest u t ∧ CtlKeep gs ss s t ∧ Moves s t := by
  have hnu := (noStep_eq hk.regs hk.reg.bank).trans hn
  have hrest := issue_rest hnu
  exact ⟨_, rfl, hrest, by simpa using hk.trans hrest.frame.toCtlKeep, issue_moves hnu hs⟩

theorem ctlCalm_noStep {s : State} {rs : List (Fin 32)} (h : ctlCalm s rs = true) : noStep s = true :=
  ctlGoes_step (ctlCalm_goes h)

/-- A word that reads fewer registers goes too. -/
theorem ctlGoes_of_calm_subset {s : State} {rs rs' : List (Fin 32)} (h : ctlCalm s rs = true) (hsub : rs' ⊆ rs) :
    ctlGoes s rs' = true := by
  refine ctlCalm_goes ?_
  unfold ctlCalm
  rw [ctlCalm_noStep h, Bool.and_true, List.all_eq_true]
  exact fun r hr => ctlCalm_olds h (hsub hr)

/-! ### Homes that control accesses reach (R81, R85) -/

/-- An access that is allowed reaches the home that its address is translated to. -/
theorem ctlAccess_ok {i : Instr} {k : Acc} {ea : DWord} {n : Nat} {s : State} {p : Space × Nat}
    (h : ctlAccess i k ea n s = .ok p) : locate s .control k ea.toNat = .ok p := by
  unfold ctlAccess at h
  dsimp only at h
  split at h
  · cases h
  split at h
  · cases h
  split at h
  · cases h
  · cases h
  next sp off hloc =>
    rw [hloc]
    split at h
    · cases h
    split at h
    · cases h
    split at h
    · cases h
    · exact congrArg _ (Except.ok.inj h)

theorem translate_hasHome {s : State} {d : Fin 4} {t : Fin 16} {k : Acc} {v off : Nat} {sp : Space}
    (h : translate s d t k v = .ok (sp, off)) : s.hasHome sp = true := by
  unfold translate at h
  dsimp only at h
  split at h
  · cases h
  split at h
  · cases h
  split at h
  · cases h
  split at h
  · cases h; rfl
  split at h
  · cases h
  · cases h; rfl

/-- A control store reaches a home that the machine has: no bench but the core's own (R85, R267). -/
theorem locate_control_write_hasHome {s : State} {v off : Nat} {sp : Space}
    (h : locate s .control .write v = .ok (sp, off)) : s.hasHome sp = true := by
  unfold locate at h
  dsimp only at h
  split at h
  · exact translate_hasHome h
  split at h
  · simp [peerOk] at h
  split at h
  · cases (‹Agent.control = _› : Agent.control = .eng .stream)
  split at h
  · cases h; rfl
  split at h
  · have hown : s.coreAt s.core.id.num = some s.core := by simp [State.coreAt]
    unfold State.benchAt at h
    rw [hown] at h
    cases h
    exact congrArg Option.isSome hown
  · cases h

/-! ### What a write at a home leaves of the core -/

theorem State.writeAt_core_keep (s : State) (sp : Space) (off : Nat) (bs : List Byte) :
    (s.writeAt sp off bs).core = { s.core with bench := (s.writeAt sp off bs).core.bench } := by
  rw [State.writeAt_core]
  split <;> rfl

theorem State.setIrrev_core (s : State) : s.setIrrev.core = { s.core with vis := s.setIrrev.core.vis } := by
  unfold State.setIrrev
  split <;> rfl

theorem State.touch_core (s : State) (sp : Space) :
    (s.touch sp).core = { s.core with vis := (s.touch sp).core.vis } := by
  unfold State.touch
  split
  · rfl
  · exact s.setIrrev_core

theorem State.touch_plain (s : State) (sp : Space) : (s.touch sp).core.vis.plain = s.core.vis.plain := by
  unfold State.touch
  split
  · rfl
  · exact s.setIrrev_plain

theorem MemSame.setIrrev (s : State) : MemSame s s.setIrrev := .of_eq (by simp) (by simp) (by simp) (by simp)

theorem MemSame.touch (s : State) (sp : Space) : MemSame s (s.touch sp) := by
  unfold State.touch
  split
  · exact fun _ _ => rfl
  · exact .setIrrev s

theorem MemBut.trans_same {sp : Space} {off n : Nat} {s t u : State} (h : MemBut sp off n s t) (k : MemSame t u) :
    MemBut sp off n s u := fun sp' a ha => (k sp' a).trans (h sp' a ha)

/-- What a store leaves: memory and the IRREV bits apart, everything of the core stands. -/
theorem State.store_core (s : State) (sp : Space) (off : Nat) (bs : List Byte) :
    ((s.writeAt sp off bs).touch sp).core = { s.core with
      vis := ((s.writeAt sp off bs).touch sp).core.vis, bench := ((s.writeAt sp off bs).touch sp).core.bench } := by
  rw [State.touch_core, State.writeAt_core_keep]

/-! ### Stores (R80) -/

/-- The bytes of a register, the lowest first. -/
theorem leBytes_getD_extractLsb' (x : DWord) {n j : Nat} (hj : j < n) :
    (leBytes n x.toNat).getD j 0 = x.extractLsb' (8 * j) 8 := by
  rw [leBytes_getD n _ j hj]
  apply BitVec.eq_of_toNat_eq
  rw [BitVec.toNat_ofNat, BitVec.extractLsb'_toNat, Nat.shiftRight_eq_div_pow, Nat.pow_mul]

/-- A store whose access is allowed writes its bytes and nothing else (R80). -/
theorem store_spec {s : State} {i : Instr} {d a : Fin 32} {imm : BitVec 9} {n off : Nat} {sp : Space}
    (hc : ctlCalm s [a, d] = true) (hok : ctlAccess i .write (effAddr s a imm n) n s = .ok (sp, off)) :
    ∃ t, store i d a imm n s = .next t ∧ CtlKeep [] [] s t ∧ Moves s t ∧ t.core.q = s.core.q ∧
      t.core.vis.plain = s.core.vis.plain ∧ MemBut sp off n s t ∧
      ∀ j, j < n → (t.mem sp).read (off + j) = (s.core.g d).extractLsb' (8 * j) 8 := by
  have hbody : store i d a imm n s
      = finish s (.issue ((s.writeAt sp off (leBytes n (s.core.g d).toNat)).touch sp)) := by
    refine (ctlWord_goes (ctlCalm_goes hc) _).trans (congrArg _ ?_)
    simp only [ctlCalm_readG hc (r := a) (by simp), ctlCalm_readG hc (r := d) (by simp)]
    unfold effAddr at hok
    rw [hok]
  have hcore := s.store_core sp off (leBytes n (s.core.g d).toNat)
  obtain ⟨t, ht, hrest, hk, hm⟩ := finish_keep (s0 := s) (ctlCalm_noStep hc)
    (.of_core (by rw [hcore])) (.of_core (by rw [hcore]))
  have hmem := (MemSame.touch (s.writeAt sp off (leBytes n (s.core.g d).toNat)) sp).trans hrest.memSame
  refine ⟨t, hbody.trans ht, hk, hm, by rw [hrest.q, hcore], ?plain, ?but, fun j hj => ?bytes⟩
  case plain => rw [hrest.vis, State.touch_plain, State.writeAt_core_keep]
  case but => exact (leBytes_length n _ ▸ s.memBut_writeAt sp off (leBytes n _)).trans_same hmem
  case bytes =>
    have hhome := locate_control_write_hasHome (ctlAccess_ok hok)
    rw [hmem sp, s.read_writeAt sp off _ hhome j (by simpa using hj), leBytes_getD_extractLsb' _ hj]

/-- A store is one of four sizes (R80). -/
theorem exec_storeForm {i : Instr} {d a : Fin 32} {imm : BitVec 9} {n : Nat}
    (h : storeForm i = some (d, a, imm, n)) (s : State) : exec i s = store i d a imm n s := by
  unfold storeForm at h
  split at h <;> first | (cases h; rfl) | cases h

/-- Settles O9: the store writes at the home of its address, which the machine has. -/
theorem storeResults : Obligations.StoreResults := by
  intro s i d a imm n sp off hform hc hok
  rw [exec_storeForm hform]
  exact store_spec hc hok

end Sys2Proof.Machine

namespace Sys2Proof.Machine

/-! ### Atomics (R84, R86) -/

/-- The model's new value, the old one where a CAS does not match, is the element that R84 names. -/
theorem atomNew_getD {n : Nat} (fn : AtomFn) {old : Nat} (hold : old < 2 ^ (8 * n)) (v cmp : BitVec (8 * n)) :
    (atomNew n fn old v.toNat cmp.toNat).getD old = (atomResult fn (BitVec.ofNat (8 * n) old) v cmp).toNat := by
  have hof : (BitVec.ofNat (8 * n) old).toNat = old := by rw [BitVec.toNat_ofNat, Nat.mod_eq_of_lt hold]
  have heq : BitVec.ofNat (8 * n) old = cmp ↔ old = cmp.toNat := by rw [← BitVec.toNat_inj, hof]
  cases fn <;> simp only [atomNew, atomResult, Option.getD_some, BitVec.ofNat_toNat, BitVec.setWidth_eq]
  case add => rw [BitVec.toNat_add, hof]
  case cas => by_cases h : old = cmp.toNat <;> simp [h, heq, hof]
  case and => rw [BitVec.toNat_and, hof]
  case or => rw [BitVec.toNat_or, hof]
  case xor => rw [BitVec.toNat_xor, hof]
  case min => rw [apply_ite BitVec.toNat, hof]
  case max => rw [apply_ite BitVec.toNat, hof]
  case minu => rw [apply_ite BitVec.toNat, hof]
  case maxu => rw [apply_ite BitVec.toNat, hof]

/-- The state after the new element of an atomic is written, or none is where a CAS does not match. -/
def State.putAtom (s : State) (sp : Space) (off n : Nat) (new : Option Nat) : State :=
  match new with
  | some w => s.writeAt sp off (leBytes n w)
  | none => s

theorem State.putAtom_core (s : State) (sp : Space) (off n : Nat) (new : Option Nat) :
    (s.putAtom sp off n new).core = { s.core with bench := (s.putAtom sp off n new).core.bench } := by
  cases new with
  | none => rfl
  | some w => exact s.writeAt_core_keep sp off _

theorem State.memBut_putAtom (s : State) (sp : Space) (off n : Nat) (new : Option Nat) :
    MemBut sp off n s (s.putAtom sp off n new) := by
  cases new with
  | none => exact fun _ _ _ => rfl
  | some w =>
    have hbut := s.memBut_writeAt sp off (leBytes n w)
    rwa [leBytes_length] at hbut

/-- The element that stands after an atomic. -/
theorem State.leValue_putAtom (s : State) (sp : Space) (off n : Nat) (new : Option Nat) (h : s.hasHome sp = true)
    (hlt : new.getD (leValue (s.mem sp) off n) < 256 ^ n) :
    leValue ((s.putAtom sp off n new).mem sp) off n = new.getD (leValue (s.mem sp) off n) := by
  cases new with
  | none => rfl
  | some w => exact (s.leValue_writeAt sp off n w h).trans (Nat.mod_eq_of_lt hlt)

theorem leValue_congr {m m' : Mem} (h : ∀ a, m'.read a = m.read a) (off n : Nat) : leValue m' off n = leValue m off n := by
  induction n generalizing off with
  | zero => rfl
  | succ n ih => simp only [leValue, h, ih]

theorem MemSame.writeGLocked (s : State) (r : Fin 32) (v : DWord) (b : Bool) : MemSame s (s.writeGLocked r v b) :=
  (CtlFrame.writeGLocked s r v b).mem

/-- The state in which an atomic issues: the new element in place, the old one in its register. -/
def State.atomDone (s : State) (sp : Space) (off n : Nat) (new : Option Nat) (d : Fin 32) (old : Nat) : State :=
  ((s.putAtom sp off n new).touch sp).writeGLocked d (sext n old) true

section
variable (s : State) (sp : Space) (off n : Nat) (new : Option Nat) (d : Fin 32) (old : Nat)

theorem State.touch_putAtom_core : ((s.putAtom sp off n new).touch sp).core = { s.core with
    vis := ((s.putAtom sp off n new).touch sp).core.vis
    bench := ((s.putAtom sp off n new).touch sp).core.bench } := by
  rw [State.touch_core, State.putAtom_core]

theorem CtlKeep.atomDone : CtlKeep [d] [] s (s.atomDone sp off n new d old) :=
  (CtlKeep.of_core (by rw [State.touch_putAtom_core])).trans (CtlFrame.writeGLocked _ d _ _).toCtlKeep

theorem Stands.atomDone : Stands s (s.atomDone sp off n new d old) :=
  (Stands.of_core (by rw [State.touch_putAtom_core])).trans (Stands.writeGLocked _ d _ _)

theorem State.atomDone_q : (s.atomDone sp off n new d old).core.q = s.core.q := by
  have hwrite := (CtlFrame.writeGLocked ((s.putAtom sp off n new).touch sp) d (sext n old) true).q
  exact hwrite.trans (by rw [State.touch_putAtom_core])

theorem State.atomDone_plain : (s.atomDone sp off n new d old).core.vis.plain = s.core.vis.plain := by
  have hwrite := (CtlFrame.writeGLocked ((s.putAtom sp off n new).touch sp) d (sext n old) true).vis
  refine (congrArg Vis.plain hwrite).trans ?_
  rw [State.touch_plain, State.putAtom_core]

theorem State.atomDone_g : (s.atomDone sp off n new d old).core.g d = if d = 0 then 0 else sext n old := by
  unfold State.atomDone
  rw [State.writeGLocked_g, if_pos rfl]

/-- Memory is as the write of the new element leaves it. -/
theorem MemSame.atomDone : MemSame (s.putAtom sp off n new) (s.atomDone sp off n new d old) :=
  (MemSame.touch _ sp).trans (.writeGLocked _ d _ _)

end

/-- An atomic whose access is allowed writes the new element and its register (R84). -/
theorem atomic_issues {s : State} {i : Instr} {n : Nat} {fn : AtomFn} {d a b : Fin 32} {sp : Space} {off : Nat}
    (hc : ctlCalm s [a, b, d] = true) (hwf : (s.mem sp).wf = true)
    (hok : ctlAccess i .atomic (s.core.g a) n s = .ok (sp, off)) :
    atomic i n fn d a b s = finish s (.issue (s.atomDone sp off n (atomNew n fn (leValue (s.mem sp) off n)
      ((s.core.g b).toNat % 2 ^ (8 * n)) ((s.core.g d).toNat % 2 ^ (8 * n))) d (leValue (s.mem sp) off n))) := by
  refine (ctlWord_goes (ctlGoes_of_calm_subset hc ?_) _).trans (congrArg _ ?_)
  · split <;> simp
  · simp only [ctlCalm_readG hc (r := a) (by simp), ctlCalm_readG hc (r := b) (by simp),
      ctlCalm_readG hc (r := d) (by simp), hok, State.readAt, leNat_readN hwf]
    rfl

/-- It returns the old element and leaves the new one (R84, R86). -/
theorem atomic_spec {s : State} {i : Instr} {n : Nat} {fn : AtomFn} {d a b : Fin 32} {sp : Space} {off : Nat}
    (hc : ctlCalm s [a, b, d] = true) (hwf : (s.mem sp).wf = true) (hhome : s.hasHome sp = true)
    (hok : ctlAccess i .atomic (s.core.g a) n s = .ok (sp, off)) :
    ∃ t, atomic i n fn d a b s = .next t ∧ CtlKeep [d] [] s t ∧ Moves s t ∧ MemBut sp off n s t ∧
      t.core.vis.plain = s.core.vis.plain ∧ t.core.q = s.core.q ∧
      t.core.g d = (if d = 0 then 0 else sext n (leValue (s.mem sp) off n)) ∧
      leValue (t.mem sp) off n = (atomResult fn (BitVec.ofNat (8 * n) (leValue (s.mem sp) off n))
        ((s.core.g b).setWidth (8 * n)) ((s.core.g d).setWidth (8 * n))).toNat := by
  have hpow : (256 : Nat) ^ n = 2 ^ (8 * n) := by rw [Nat.pow_mul]
  have hnew := atomNew_getD fn (hpow ▸ leValue_lt (s.mem sp) off n) ((s.core.g b).setWidth (8 * n))
    ((s.core.g d).setWidth (8 * n))
  rw [BitVec.toNat_setWidth, BitVec.toNat_setWidth] at hnew
  have hbody := atomic_issues (fn := fn) hc hwf hok
  generalize atomNew n fn (leValue (s.mem sp) off n) _ _ = new at hbody hnew
  obtain ⟨t, ht, hrest, hk, hm⟩ := finish_keep (s0 := s) (ctlCalm_noStep hc)
    (.atomDone s sp off n new d (leValue (s.mem sp) off n)) (.atomDone ..)
  have hmem := (MemSame.atomDone s sp off n new d (leValue (s.mem sp) off n)).trans hrest.memSame
  refine ⟨t, hbody.trans ht, hk, hm, (s.memBut_putAtom sp off n new).trans_same hmem, ?plain, ?q, ?g, ?new⟩
  case plain => rw [hrest.vis, State.atomDone_plain]
  case q => rw [hrest.q, State.atomDone_q]
  case g => rw [hrest.g, State.atomDone_g]
  case new =>
    rw [leValue_congr (hmem sp), State.leValue_putAtom s sp off n new hhome, hnew]
    rw [hnew, hpow]
    exact BitVec.isLt _

/-- Settles O10: AMOW and AMOD are the atomic of 4 and of 8 bytes. -/
theorem atomicResults : Obligations.AtomicResults := by
  intro s d a b fn o sc sp off hc hwf hhome
  refine ⟨fun hok => ?amow, fun hok => ?amod⟩
  case amow => exact atomic_spec (fn := fn) hc hwf hhome hok
  case amod =>
    have hspec := atomic_spec (fn := fn) hc hwf hhome hok
    simp only [sext, Nat.reduceMul, BitVec.signExtend_eq, BitVec.setWidth_eq] at hspec
    exact hspec

/-! ### Control accesses that do not reach a home (R80, R85, R360) -/

section
variable {s : State} {i : Instr} {k : Acc} {ea : DWord} {n : Nat}

/-- What a control access answers instead of a home: the trap of its address, its space or its window, or the fault of
HBM that does not exist. -/
def accessTrap (i : Instr) (k : Acc) (ea : DWord) (c : Nat) : Except Res (Space × Nat) :=
  .error (.trap (access c i k.num (ea.truncate 48) 0))

theorem ctlAccess_high (h : 2 ^ 48 ≤ ea.toNat) : ctlAccess i k ea n s = accessTrap i k ea 0x04 := by
  unfold ctlAccess
  dsimp only
  rw [if_pos h]
  rfl

theorem ctlAccess_misaligned (h : ea.toNat < 2 ^ 48) (hn : ea.toNat % n ≠ 0) :
    ctlAccess i k ea n s = accessTrap i k ea 0x03 := by
  unfold ctlAccess
  dsimp only
  rw [if_neg (Nat.not_le.mpr h), if_pos hn]
  rfl

theorem ctlAccess_refused {c : Nat} (h : ea.toNat < 2 ^ 48) (hn : ea.toNat % n = 0)
    (hloc : locate s .control k ea.toNat = .error (.trap c)) : ctlAccess i k ea n s = accessTrap i k ea c := by
  unfold ctlAccess
  dsimp only
  rw [if_neg (Nat.not_le.mpr h), if_neg (not_not_intro hn), hloc]
  rfl

theorem ctlAccess_gone {pa : Nat} (h : ea.toNat < 2 ^ 48) (hn : ea.toNat % n = 0)
    (hloc : locate s .control k ea.toNat = .error (.gone pa)) :
    ctlAccess i k ea n s = .error (.fault (.noSuchHbm pa)) := by
  unfold ctlAccess
  dsimp only
  rw [if_neg (Nat.not_le.mpr h), if_neg (not_not_intro hn), hloc]

end

theorem load_error {s : State} {i : Instr} {d a : Fin 32} {imm : BitVec 9} {n logn : Nat} {ext : Nat → DWord} {r : Res}
    (hc : ctlCalm s [a] = true) (hr : ctlAccess i .read (effAddr s a imm n) n s = .error r) :
    load i d a imm n logn ext s = finish s r := by
  refine (ctlWord_goes (ctlCalm_goes hc) _).trans (congrArg _ ?_)
  simp only [ctlCalm_readG hc (r := a) (by simp)]
  unfold effAddr at hr
  rw [hr]

theorem store_error {s : State} {i : Instr} {d a : Fin 32} {imm : BitVec 9} {n : Nat} {r : Res}
    (hc : ctlCalm s [a, d] = true) (hr : ctlAccess i .write (effAddr s a imm n) n s = .error r) :
    store i d a imm n s = finish s r := by
  refine (ctlWord_goes (ctlCalm_goes hc) _).trans (congrArg _ ?_)
  simp only [ctlCalm_readG hc (r := a) (by simp), ctlCalm_readG hc (r := d) (by simp)]
  unfold effAddr at hr
  rw [hr]

theorem atomic_error {s : State} {i : Instr} {n : Nat} {fn : AtomFn} {d a b : Fin 32} {r : Res}
    (hc : ctlCalm s [a, b, d] = true) (hr : ctlAccess i .atomic (s.core.g a) n s = .error r) :
    atomic i n fn d a b s = finish s r := by
  refine (ctlWord_goes (ctlGoes_of_calm_subset hc ?_) _).trans (congrArg _ ?_)
  · split <;> simp
  · simp only [ctlCalm_readG hc (r := a) (by simp), ctlCalm_readG hc (r := b) (by simp),
      ctlCalm_readG hc (r := d) (by simp), hr]

/-- A load is one of four sizes, extended with its sign or with zeros (R80). -/
theorem exec_loadForm {i : Instr} {d a : Fin 32} {imm : BitVec 9} {n : Nat} {sg : Bool}
    (h : loadForm i = some (d, a, imm, n, sg)) : ∃ logn ext, ∀ s, exec i s = load i d a imm n logn ext s := by
  unfold loadForm at h
  split at h <;> first | (cases h; exact ⟨_, _, fun _ => rfl⟩) | cases h

/-- Each word that makes a control access ends as its access does, where that reaches no home. -/
theorem exec_accessForm {s : State} {i : Instr} {k : Acc} {ea : DWord} {n : Nat} {rs : List (Fin 32)} {r : Res}
    (hform : accessForm s i = some (k, ea, n, rs)) (hc : ctlCalm s rs = true) (hr : ctlAccess i k ea n s = .error r) :
    exec i s = finish s r := by
  unfold accessForm at hform
  split at hform
  case h_1 hload =>
    cases hform
    obtain ⟨logn, ext, hexec⟩ := exec_loadForm hload
    exact (hexec s).trans (load_error hc hr)
  case h_2 hstore _ =>
    cases hform
    exact (exec_storeForm hstore s).trans (store_error hc hr)
  case h_3 =>
    cases hform
    exact atomic_error hc hr
  case h_4 =>
    cases hform
    exact atomic_error hc hr
  case h_5 => cases hform

/-- Settles O11: the four checks of `ctlAccess` that come before the home is read. -/
theorem accessTraps : Obligations.AccessTraps := by
  intro s i k ea n rs hform hc
  exact ⟨fun h => exec_accessForm hform hc (ctlAccess_high h),
    fun h hn => exec_accessForm hform hc (ctlAccess_misaligned h hn),
    fun c h hn hloc => exec_accessForm hform hc (ctlAccess_refused h hn hloc),
    fun pa h hn hloc => exec_accessForm hform hc (ctlAccess_gone h hn hloc)⟩

end Sys2Proof.Machine

namespace Sys2Proof.Machine

/-! ### What the queues' words change beside the queues (R92, R115, R376) -/

theorem CtlKeep.updQ (s : State) (f : Queues → Queues) : CtlKeep [] [] s (s.updQ f) := .of_core rfl
theorem Stands.updQ (s : State) (f : Queues → Queues) : Stands s (s.updQ f) := .of_core rfl
theorem MemSame.updQ (s : State) (f : Queues → Queues) : MemSame s (s.updQ f) := .of_eq rfl rfl rfl rfl

theorem CtlKeep.setIrrev (s : State) : CtlKeep [] [] s s.setIrrev := .of_core (by rw [s.setIrrev_core])
theorem Stands.setIrrev (s : State) : Stands s s.setIrrev := .of_core (by rw [s.setIrrev_core])

/-- What a record of a jig leaves, where nothing is recorded, is the jigs as they were (R115). -/
theorem Noted.keep {s t : State} (h : Noted s t) (hjig : s.core.jig.recording = none →
    t.core.jig.recording = none ∧ t.core.jig.jig = s.core.jig.jig) : CtlKeep [] [] s t where
  reg := .of_banks (by rw [h.ctl]) (by rw [h.ctl]) (by rw [h.ctl])
  unit := by
    obtain ⟨j, hj, -⟩ := h.core
    exact ⟨h.eng, by rw [hj], by rw [hj], by rw [hj], by rw [hj], by rw [hj], fun _ => by rw [hj], by rw [hj]⟩
  regs := by rw [h.ctl]
  jig := hjig

theorem Noted.vis {s t : State} (h : Noted s t) : t.core.vis = s.core.vis := by
  obtain ⟨j, hj, -⟩ := h.core
  rw [hj]

theorem Noted.tick {s t : State} (h : Noted s t) : t.core.tick = s.core.tick := h.stands.tick

theorem State.recordingOn_none {s : State} (h : s.core.jig.recording = none) : s.recordingOn = none := by
  unfold State.recordingOn
  rw [h]

theorem State.recordAt_none {s : State} (h : s.core.jig.recording = none) (at_ : Recording → Nat) (bits : Nat) :
    s.recordAt at_ bits = s := by
  unfold State.recordAt
  rw [State.recordingOn_none h]

theorem Noted.recordAt (s : State) (at_ : Recording → Nat) (bits : Nat) : Noted s (s.recordAt at_ bits) := by
  unfold State.recordAt
  split
  · exact .refl s
  · exact .appendEntries ..

theorem Noted.record (s : State) (bits : Nat) : Noted s (s.record bits) := .recordAt ..

theorem CtlKeep.recordAt (s : State) (at_ : Recording → Nat) (bits : Nat) : CtlKeep [] [] s (s.recordAt at_ bits) :=
  (Noted.recordAt s at_ bits).keep fun h => by rw [State.recordAt_none h]; exact ⟨h, rfl⟩

/-! ### QPUSH (R92) -/

/-- The state in which QPUSH to xq issues, the value that it read given. -/
def State.xqPushed (s : State) (b : Bool) (x : DWord) : State := ((s.unreplayableIf b).recordXq x).pushXq x

section
variable (s : State) (b : Bool) (x : DWord)

theorem CtlKeep.xqPushed : CtlKeep [] [] s (s.xqPushed b x) :=
  ((CtlFrame.unreplayableIf s b).toCtlKeep.trans (.recordAt _ _ _)).trans (.of_core rfl)

theorem Stands.xqPushed : Stands s (s.xqPushed b x) :=
  ((Stands.unreplayableIf s b).trans (Noted.record _ _).stands).trans (.of_core rfl)

theorem MemSame.xqPushed : MemSame s (s.xqPushed b x) :=
  ((CtlFrame.unreplayableIf s b).mem.trans (Noted.record _ _).memSame).trans (.of_eq rfl rfl rfl rfl)

theorem State.xqPushed_vis : (s.xqPushed b x).core.vis = s.core.vis :=
  (Noted.record (s.unreplayableIf b) _).vis.trans (CtlFrame.unreplayableIf s b).vis

theorem State.xqPushed_q : (s.xqPushed b x).core.q
    = { s.core.q with xq := s.core.q.xq ++ [{ value := x, pushed := s.core.tick, copy := x, matched := false }] } := by
  have hq := (Noted.record (s.unreplayableIf b) (7 + x.toNat * 2 ^ 64)).q.trans (CtlFrame.unreplayableIf s b).q
  have htick := (Noted.record (s.unreplayableIf b) (7 + x.toNat * 2 ^ 64)).tick.trans (Stands.unreplayableIf s b).tick
  unfold State.xqPushed State.pushXq State.recordXq
  rw [State.upd_core, hq, htick]

theorem State.xqPushed_sys (h : s.core.jig.recording = none) : (s.xqPushed b x).sys = s.sys := by
  have hrec := ((CtlFrame.unreplayableIf s b).jig h).1
  unfold State.xqPushed State.recordXq State.record
  rw [State.recordAt_none hrec]
  exact (CtlFrame.unreplayableIf s b).sys

end

theorem exec_qpush_xq {s : State} {a : Fin 32} (hg : ctlGoes s [a] = true) (hq : s.core.q.xq.length < 16) :
    exec (.qpush a .xq) s = finish s (.issue ((s.readG a).2.xqPushed (s.taint a) (s.readG a).1)) := by
  change pushXq a s = _
  unfold pushXq
  rw [ctlWord_goes hg]
  dsimp only
  rw [(CtlFrame.readG s a).q, if_neg (Nat.not_le.mpr hq)]
  rfl

/-- QPUSH appends the value that its read returned to xq (R92, R145). -/
theorem qpush_xq_spec {s : State} {a : Fin 32} (hg : ctlGoes s [a] = true) (hq : s.core.q.xq.length < 16) :
    ∃ x ∈ s.core.mayRead a, ∃ t, exec (.qpush a .xq) s = .next t ∧
      CtlKeep [] [] s t ∧ Moves s t ∧ MemSame s t ∧ t.core.vis = s.core.vis ∧
      (s.core.jig.recording = none → t.sys = s.sys) ∧ t.core.q = { s.core.q with
        xq := s.core.q.xq ++ [{ value := x, pushed := s.core.tick, copy := x, matched := false }] } := by
  have hread := CtlFrame.readG s a
  have hstand := Stands.readG s a
  obtain ⟨t, ht, hrest, hk, hm⟩ := finish_keep (s0 := s) (ctlGoes_step hg)
    (hread.toCtlKeep.trans (.xqPushed _ (s.taint a) (s.readG a).1)) (hstand.trans (.xqPushed ..))
  refine ⟨_, s.readG_mem a, t, (exec_qpush_xq hg hq).trans ht, hk, hm, ?mem, ?vis, fun hrec => ?sys, ?q⟩
  case mem => exact (hread.mem.trans (.xqPushed _ _ _)).trans hrest.memSame
  case vis => rw [hrest.vis, State.xqPushed_vis, hread.vis]
  case sys => rw [hrest.sys, State.xqPushed_sys _ _ _ (hread.jig hrec).1, hread.sys]
  case q => rw [hrest.q, State.xqPushed_q, hread.q, hstand.tick]

theorem State.raise_others (s : State) (tn : Fin 16) (v : Fin 4) : (s.raise tn v).others = s.others := by
  unfold State.raise
  dsimp only
  split <;> rfl

theorem MemSame.raise (s : State) (tn : Fin 16) (v : Fin 4) : MemSame s (s.raise tn v) := by
  unfold State.raise
  dsimp only
  split <;> exact fun sp _ => by cases sp <;> rfl

/-- A vector that is not masked is sent (R382). -/
theorem State.raise_msix (s : State) (tn : Fin 16) (v : Fin 4) : (s.raise tn v).sys.tenants[tn].msix
    = s.sys.tenants[tn].msix
      ++ if !(vget s.sys.msix (4 * tn.val + v.val) {}).masked then [4 * tn.val + v.val] else [] := by
  unfold State.raise
  dsimp only
  cases (vget s.sys.msix (4 * tn.val + v.val) {}).masked <;> simp [State.modTenant]

/-- A masked one is pending (R382). -/
theorem State.raise_pba (s : State) (tn : Fin 16) (v : Fin 4) (k : Fin 64) : (s.raise tn v).sys.pba.getLsbD k.val
    = (s.sys.pba.getLsbD k.val || ((vget s.sys.msix (4 * tn.val + v.val) {}).masked
      && decide (k.val = 4 * tn.val + v.val))) := by
  unfold State.raise
  dsimp only
  cases (vget s.sys.msix (4 * tn.val + v.val) {}).masked with
  | false => simp [State.modTenant]
  | true =>
    simp only [if_true, BitVec.getLsbD_or, BitVec.getLsbD_ofNat, k.isLt, decide_true, Nat.testBit_two_pow, Bool.true_and,
      eq_comm]

section
variable (s : State)

theorem State.mboxVector_core : s.mboxVector.core = s.core := by
  unfold State.mboxVector
  split
  · exact s.raise_core _ _
  · rfl

theorem MemSame.mboxVector : MemSame s s.mboxVector := by
  unfold State.mboxVector
  split
  · exact .raise _ _ _
  · exact fun _ _ => rfl

/-- The state in which QPUSH to the mailbox issues, the value that it read given. -/
def State.mboxPushed (s : State) (x : DWord) : State :=
  s.unreplayable.setIrrev.mboxVector.updQ fun q => { q with mboxOut := q.mboxOut ++ [x] }

variable (x : DWord)

theorem CtlKeep.mboxPushed : CtlKeep [] [] s (s.mboxPushed x) :=
  (((CtlFrame.unreplayable s).toCtlKeep.trans (.setIrrev _)).trans
    (.of_core (by rw [State.mboxVector_core]))).trans (.updQ _ _)

theorem Stands.mboxPushed : Stands s (s.mboxPushed x) :=
  (((Stands.unreplayable s).trans (.setIrrev _)).trans (.of_core (by rw [State.mboxVector_core]))).trans (.updQ _ _)

theorem MemSame.mboxPushed : MemSame s (s.mboxPushed x) :=
  (((CtlFrame.unreplayable s).mem.trans (.setIrrev _)).trans (.mboxVector _)).trans (.updQ _ _)

theorem State.mboxPushed_plain : (s.mboxPushed x).core.vis.plain = s.core.vis.plain := by
  change s.unreplayable.setIrrev.mboxVector.core.vis.plain = _
  rw [State.mboxVector_core, State.setIrrev_plain, (CtlFrame.unreplayable s).vis]

theorem State.mboxPushed_q : (s.mboxPushed x).core.q = { s.core.q with mboxOut := s.core.q.mboxOut ++ [x] } := by
  unfold State.mboxPushed
  rw [State.updQ_core_q, State.mboxVector_core, State.setIrrev_q, (CtlFrame.unreplayable s).q]

/-- What raising the mailbox's vector leaves of what the package shares (R386). -/
theorem State.mboxPushed_sys : (s.mboxPushed x).sys
    = if s.core.q.mboxOut.isEmpty then (s.raise s.core.ctl.regs.tenant 3).sys else s.sys := by
  have hsys : s.unreplayable.setIrrev.sys = s.sys := by rw [State.setIrrev_sys, (CtlFrame.unreplayable s).sys]
  unfold State.mboxPushed State.mboxVector
  rw [State.setIrrev_q, (CtlFrame.unreplayable s).q, State.setIrrev_ctl, (CtlFrame.unreplayable s).regs]
  split
  · exact State.raise_congr hsys ..
  · exact hsys

end

/-- QPUSH appends the value that its read returned to the outbound mailbox, and the first entry raises the tenant's vector
(R92, R386). -/
theorem qpush_mbox_spec {s : State} {a : Fin 32} (hg : ctlGoes s [a] = true) (hq : s.core.q.mboxOut.length < 16) :
    ∃ x ∈ s.core.mayRead a, ∃ t, exec (.qpush a .mbox) s = .next t ∧
      CtlKeep [] [] s t ∧ Moves s t ∧ MemSame s t ∧ t.core.vis.plain = s.core.vis.plain ∧
      t.core.q = { s.core.q with mboxOut := s.core.q.mboxOut ++ [x] } ∧
      t.sys = if s.core.q.mboxOut.isEmpty then (s.raise s.core.ctl.regs.tenant 3).sys else s.sys := by
  have hread := CtlFrame.readG s a
  have hbody : exec (.qpush a .mbox) s = finish s (.issue ((s.readG a).2.mboxPushed (s.readG a).1)) := by
    change pushMbox a s = _
    unfold pushMbox
    rw [ctlWord_goes hg]
    dsimp only
    rw [hread.q, if_neg (Nat.not_le.mpr hq)]
    rfl
  obtain ⟨t, ht, hrest, hk, hm⟩ := finish_keep (s0 := s) (ctlGoes_step hg)
    (hread.toCtlKeep.trans (.mboxPushed _ (s.readG a).1)) ((Stands.readG s a).trans (.mboxPushed ..))
  refine ⟨_, s.readG_mem a, t, hbody.trans ht, hk, hm, ?mem, ?plain, ?q, ?sys⟩
  case mem => exact (hread.mem.trans (.mboxPushed _ _)).trans hrest.memSame
  case plain => rw [hrest.vis, State.mboxPushed_plain, hread.vis]
  case q => rw [hrest.q, State.mboxPushed_q, hread.q]
  case sys => rw [hrest.sys, State.mboxPushed_sys, hread.q, hread.regs, State.raise_congr hread.sys, hread.sys]

/-! ### QPOP and QCNT (R92) -/

/-- A pop takes the oldest entry of its queue alone. -/
theorem Queues.entries_drop (y : Queues) (q k : PopQ) :
    (y.drop q).entries k = if k = q then (y.entries q).tail else y.entries k := by
  cases q <;> cases k <;> simp [Queues.drop, Queues.entries]

/-- The pop of a carried entry sets IRREV or leaves it, and counts the carried entries anew (R376). -/
theorem State.popCarried_eq (s : State) (q : PopQ) : ∃ (u : State) (k : Carried), (u = s ∨ u = s.setIrrev) ∧
    s.popCarried q = u.upd fun c => { c with phase := { c.phase with carried := k } } := by
  refine ⟨_, _, ?_, rfl⟩
  exact (ite_eq_or_eq _ _ _).symm

/-- What a pop does to the phase before it takes its entry (R376). -/
def State.popMark (s : State) (q : PopQ) : State := if popIrrev q then s.setIrrev else s.popCarried q

/-- Marking a pop changes the IRREV bits and the carried entries alone. -/
theorem State.popMark_eq (s : State) (q : PopQ) : ∃ u : State, (u = s ∨ u = s.setIrrev) ∧
    (s.popMark q = u ∨ ∃ k, s.popMark q = u.upd fun c => { c with phase := { c.phase with carried := k } }) := by
  unfold State.popMark
  split
  · exact ⟨_, .inr rfl, .inl rfl⟩
  · obtain ⟨u, k, hu, hpop⟩ := s.popCarried_eq q
    exact ⟨u, hu, .inr ⟨k, hpop⟩⟩

section
variable (s : State) (q : PopQ)

theorem CtlKeep.popMark : CtlKeep [] [] s (s.popMark q) := by
  obtain ⟨u, rfl | rfl, hpop | ⟨k, hpop⟩⟩ := s.popMark_eq q <;> rw [hpop]
  · exact .of_core rfl
  · exact .of_core rfl
  · exact .setIrrev s
  · exact (CtlKeep.setIrrev s).trans (.of_core rfl)

theorem Stands.popMark : Stands s (s.popMark q) := by
  obtain ⟨u, rfl | rfl, hpop | ⟨k, hpop⟩⟩ := s.popMark_eq q <;> rw [hpop]
  · exact .of_core rfl
  · exact .of_core rfl
  · exact .setIrrev s
  · exact (Stands.setIrrev s).trans (.of_core rfl)

theorem State.popMark_plain : (s.popMark q).core.vis.plain = s.core.vis.plain := by
  obtain ⟨u, rfl | rfl, hpop | ⟨k, hpop⟩⟩ := s.popMark_eq q <;> rw [hpop] <;> simp

theorem State.popMark_q : (s.popMark q).core.q = s.core.q := by
  obtain ⟨u, rfl | rfl, hpop | ⟨k, hpop⟩⟩ := s.popMark_eq q <;> rw [hpop] <;> simp

theorem State.popMark_sys : (s.popMark q).sys = s.sys := by
  obtain ⟨u, rfl | rfl, hpop | ⟨k, hpop⟩⟩ := s.popMark_eq q <;> rw [hpop] <;> simp

theorem MemSame.popMark : MemSame s (s.popMark q) := by
  refine .of_eq ?_ ?_ ?_ (s.popMark_sys q) <;>
    obtain ⟨u, rfl | rfl, hpop | ⟨k, hpop⟩⟩ := s.popMark_eq q <;> rw [hpop] <;> simp

/-- The state in which QPOP issues with an entry. -/
def State.popped (d : Fin 32) (x : DWord) : State :=
  ((s.popMark q).unreplayable.updQ fun y => y.drop q).writeGLocked d x true

variable (d : Fin 32) (x : DWord)

theorem CtlKeep.popped : CtlKeep [d] [] s (s.popped q d x) :=
  (((CtlKeep.popMark s q).trans (CtlFrame.unreplayable _).toCtlKeep).trans (.updQ _ _)).trans
    (CtlFrame.writeGLocked _ d x true).toCtlKeep

theorem Stands.popped : Stands s (s.popped q d x) :=
  (((Stands.popMark s q).trans (.unreplayable _)).trans (.updQ _ _)).trans (.writeGLocked _ d x true)

theorem MemSame.popped : MemSame s (s.popped q d x) :=
  (((MemSame.popMark s q).trans (CtlFrame.unreplayable _).mem).trans (.updQ _ _)).trans (.writeGLocked _ d x true)

theorem State.popped_sys : (s.popped q d x).sys = s.sys :=
  (CtlFrame.writeGLocked _ d x true).sys.trans ((CtlFrame.unreplayable (s.popMark q)).sys.trans (s.popMark_sys q))

theorem State.popped_plain : (s.popped q d x).core.vis.plain = s.core.vis.plain :=
  (congrArg Vis.plain ((CtlFrame.writeGLocked _ d x true).vis.trans
    (CtlFrame.unreplayable (s.popMark q)).vis)).trans (s.popMark_plain q)

theorem State.popped_q : (s.popped q d x).core.q = s.core.q.drop q := by
  refine (CtlFrame.writeGLocked _ d x true).q.trans ?_
  rw [State.updQ_core_q, (CtlFrame.unreplayable _).q, State.popMark_q]

end

/-- QPOP takes the oldest entry (R92). -/
theorem qpop_spec {s : State} {d : Fin 32} {q : PopQ} {x : DWord} {rest : List DWord} (hg : ctlGoes s [] = true)
    (hq : s.core.q.entries q = x :: rest) : ∃ t, exec (.qpop d q) s = .next t ∧
      CtlKeep [d] [] s t ∧ Moves s t ∧ MemSame s t ∧ t.sys = s.sys ∧ t.core.vis.plain = s.core.vis.plain ∧
      t.core.g d = (if d = 0 then 0 else x) ∧ t.core.ctl.awaiting = true ∧
      t.core.q.entries q = rest ∧ ∀ q', q' ≠ q → t.core.q.entries q' = s.core.q.entries q' := by
  have hbody : exec (.qpop d q) s = finish s (.issue (s.popped q d x)) := by
    change execQpop d q s = _
    unfold execQpop
    rw [ctlWord_goes hg, hq]
    rfl
  obtain ⟨t, ht, hrest, hk, hm⟩ := finish_keep (s0 := s) (ctlGoes_step hg) (.popped s q d x) (.popped ..)
  refine ⟨t, hbody.trans ht, hk, hm, ?mem, ?sys, ?plain, ?g, ?awaiting, ?popped, fun k hk => ?others⟩
  case mem => exact (MemSame.popped s q d x).trans hrest.memSame
  case sys => rw [hrest.sys, State.popped_sys]
  case plain => rw [hrest.vis, State.popped_plain]
  case g =>
    rw [hrest.g]
    exact (State.writeGLocked_g ..).trans (if_pos rfl)
  case awaiting => exact hrest.awaiting
  case popped => rw [hrest.q, State.popped_q, Queues.entries_drop, if_pos rfl, hq, List.tail_cons]
  case others => rw [hrest.q, State.popped_q, Queues.entries_drop, if_neg hk]

/-- A word that writes a value of the state into a register and makes a recording unreplayable (R92, R102, R304). -/
theorem writesLocked_spec {s : State} {i : Instr} {d : Fin 32} {v : DWord} (hg : ctlGoes s [] = true)
    (hexec : exec i s = ctlWord [] s fun _ => .issue (s.unreplayable.writeGLocked d v true)) :
    ∃ t, exec i s = .next t ∧ CtlFrame [d] [] s t ∧ Moves s t ∧ t.core.ctl.awaiting = true ∧
      t.core.g d = if d = 0 then 0 else v := by
  obtain ⟨t, ht, hrest, hf, hm⟩ := finish_frame (s0 := s) hg
    ((CtlFrame.unreplayable s).trans (.writeGLocked _ d v true)) ((Stands.unreplayable s).trans (.writeGLocked _ d v true))
  refine ⟨t, hexec.trans ((ctlWord_goes hg _).trans ht), hf, hm, hrest.awaiting, ?_⟩
  rw [hrest.g, State.writeGLocked_g, if_pos rfl]

/-- Settles O16: the mailbox's first entry raises the vector, the pops and counts read the queue they name. -/
theorem queueWords : Obligations.QueueWords := by
  refine ⟨fun s a hg => ⟨fun hq => qpush_xq_spec hg hq, fun hq => ?mbox⟩,
    fun s d q hg => ⟨fun x rest hq => qpop_spec hg hq, writesLocked_spec hg rfl⟩⟩
  case mbox =>
    obtain ⟨x, hx, t, ht, hk, hm, hmem, hplain, htq, hsys⟩ := qpush_mbox_spec hg hq
    refine ⟨x, hx, t, ht, hk, hm, hmem, hplain, htq, ?msix, fun k => ?pba⟩
    case msix =>
      rw [hsys]
      cases s.core.q.mboxOut.isEmpty
      · simp
      · exact s.raise_msix s.core.ctl.regs.tenant 3
    case pba =>
      rw [hsys]
      cases s.core.q.mboxOut.isEmpty
      · simp
      · exact s.raise_pba s.core.ctl.regs.tenant 3 k

end Sys2Proof.Machine

namespace Sys2Proof.Machine

/-- A control word that goes, and whose body issues, ends as issuing does (R72). -/
theorem exec_of_issue {i : Instr} {s u t : State} {rs : List (Fin 32)} (hg : ctlGoes s rs = true)
    (ht : finish s (.issue u) = .next t) (hexec : exec i s = ctlWord rs s fun _ => .issue u) : exec i s = .next t :=
  hexec.trans ((ctlWord_goes hg _).trans ht)

/-! ### The priority queue (R102, R103) -/

/-- The larger key goes first, and of equal keys the smaller payload. -/
theorem pqBefore_iff {x y : DWord × DWord} : pqBefore x y = true ↔
    y.1.toInt < x.1.toInt ∨ (x.1 = y.1 ∧ x.2.toNat ≤ y.2.toNat) := by
  simp [pqBefore, BitVec.slt_eq_decide, BitVec.le_def]

theorem pqBefore_total (x y : DWord × DWord) : pqBefore x y = true ∨ pqBefore y x = true := by
  simp only [pqBefore_iff, ← BitVec.toInt_inj]
  omega

theorem pqBefore_trans {x y z : DWord × DWord} (hxy : pqBefore x y = true) (hyz : pqBefore y z = true) :
    pqBefore x z = true := by
  simp only [pqBefore_iff, ← BitVec.toInt_inj] at *
  omega

/-- PQPUSH inserts its pair where the order puts it. -/
theorem pqInsert_eq_orderedInsert (x : DWord × DWord) (l : List (DWord × DWord)) :
    pqInsert x l = l.orderedInsert (fun a b => pqBefore a b = true) x := by
  induction l with
  | nil => rfl
  | cons y t ih => rw [pqInsert, List.orderedInsert_cons, ih]

theorem pqInsert_pairwise (x : DWord × DWord) {l : List (DWord × DWord)}
    (h : l.Pairwise fun a b => pqBefore a b = true) : (pqInsert x l).Pairwise fun a b => pqBefore a b = true := by
  have htotal : Std.Total fun a b : DWord × DWord => pqBefore a b = true := ⟨pqBefore_total⟩
  have htrans : IsTrans (DWord × DWord) fun a b => pqBefore a b = true := ⟨fun _ _ _ => pqBefore_trans⟩
  rw [pqInsert_eq_orderedInsert]
  exact h.orderedInsert x l

theorem pqInsert_perm (x : DWord × DWord) (l : List (DWord × DWord)) : (pqInsert x l).Perm (x :: l) := by
  rw [pqInsert_eq_orderedInsert]
  exact List.perm_orderedInsert ..

/-- An empty queue gives the least key and all ones (R102). -/
theorem pqTop_eq_headD (l : List (DWord × DWord)) : pqTop l = l.headD (0x8000000000000000, 0xFFFFFFFFFFFFFFFF) := by
  cases l <;> rfl

/-- PQPUSH with 256 entries held traps, and otherwise inserts its pair (R102). -/
theorem exec_pqpush {s : State} {a b : Fin 32} (hc : ctlCalm s [a, b] = true) : exec (.pqpush a b) s = finish s
    (if 256 ≤ s.core.q.pq.length then .trap { cause := 0x19, addr := s.core.nowAddr }
      else .issue (s.updQ fun q => { q with pq := pqInsert (s.core.g a, s.core.g b) q.pq })) := by
  change execPqpush a b s = _
  unfold execPqpush
  rw [ctlWord_goes (ctlCalm_goes hc)]
  simp only [ctlCalm_readG hc (r := a) (by simp), ctlCalm_readG hc (r := b) (by simp)]

/-- A word that changes the queues alone (R102). -/
theorem updQ_spec {s s0 : State} (hn : noStep s = true) (f : Queues → Queues) :
    ∃ t, finish s0 (.issue (s.updQ f)) = .next t ∧ CtlKeep [] [] s t ∧ Moves s t ∧ MemSame s t ∧
      t.core.q = f s.core.q := by
  obtain ⟨t, ht, hrest, hk, hm⟩ := finish_keep (s0 := s0) hn (.updQ s f) (.updQ s f)
  exact ⟨t, ht, hk, hm, (MemSame.updQ s f).trans hrest.memSame, hrest.q⟩

/-- A key in d and then a payload in b, which wins where both are one register (R102). -/
def State.writePair (s : State) (d b : Fin 32) (x : DWord × DWord) : State :=
  (s.writeGLocked d x.1 true).writeGLocked b x.2 true

theorem CtlFrame.writePair (s : State) (d b : Fin 32) (x : DWord × DWord) : CtlFrame [d, b] [] s (s.writePair d b x) :=
  (CtlFrame.writeGLocked s d x.1 true).trans (.writeGLocked _ b x.2 true)

theorem Stands.writePair (s : State) (d b : Fin 32) (x : DWord × DWord) : Stands s (s.writePair d b x) :=
  (Stands.writeGLocked s d x.1 true).trans (.writeGLocked _ b x.2 true)

theorem State.writePair_g (s : State) (d b : Fin 32) (x : DWord × DWord) :
    (s.writePair d b x).core.g b = (if b = 0 then 0 else x.2) ∧
      (d ≠ b → (s.writePair d b x).core.g d = if d = 0 then 0 else x.1) := by
  unfold State.writePair
  refine ⟨by rw [State.writeGLocked_g, if_pos rfl], fun hdb => ?_⟩
  rw [State.writeGLocked_g, if_neg hdb, State.writeGLocked_g, if_pos rfl]

/-- PQPOP takes the first pair (R102). -/
theorem pqpop_spec {s : State} {d b : Fin 32} (hg : ctlGoes s [] = true) :
    ∃ t, exec (.pqpop d b) s = .next t ∧ CtlKeep [d, b] [] s t ∧ Moves s t ∧ MemSame s t ∧
      t.core.q = { s.core.q with pq := s.core.q.pq.tail } ∧
      t.core.g b = (if b = 0 then 0 else (pqTop s.core.q.pq).2) ∧
      (d ≠ b → t.core.g d = if d = 0 then 0 else (pqTop s.core.q.pq).1) := by
  have hunrep := CtlFrame.unreplayable s
  have hframe := CtlFrame.writePair (s.unreplayable.updQ fun q => { q with pq := q.pq.tail }) d b (pqTop s.core.q.pq)
  have hg2 := State.writePair_g (s.unreplayable.updQ fun q => { q with pq := q.pq.tail }) d b (pqTop s.core.q.pq)
  obtain ⟨t, ht, hrest, hk, hm⟩ := finish_keep (s0 := s) (ctlGoes_step hg)
    ((hunrep.toCtlKeep.trans (.updQ _ _)).trans hframe.toCtlKeep)
    (((Stands.unreplayable s).trans (.updQ _ _)).trans (.writePair _ d b _))
  refine ⟨t, exec_of_issue hg ht rfl, hk, hm, ?mem, ?q, ?b, fun hdb => ?d⟩
  case mem => exact ((hunrep.mem.trans (.updQ _ _)).trans hframe.mem).trans hrest.memSame
  case q => rw [hrest.q, hframe.q, State.updQ_core_q, hunrep.q]
  case b => rw [hrest.g, hg2.1]
  case d => rw [hrest.g, hg2.2 hdb]

/-- PQTOP leaves it (R102). -/
theorem pqtop_spec {s : State} {d b : Fin 32} (hg : ctlGoes s [] = true) :
    ∃ t, exec (.pqtop d b) s = .next t ∧ CtlFrame [d, b] [] s t ∧ Moves s t ∧
      t.core.g b = (if b = 0 then 0 else (pqTop s.core.q.pq).2) ∧
      (d ≠ b → t.core.g d = if d = 0 then 0 else (pqTop s.core.q.pq).1) := by
  have hg2 := State.writePair_g s.unreplayable d b (pqTop s.core.q.pq)
  obtain ⟨t, ht, hrest, hf, hm⟩ := finish_frame (s0 := s) hg
    ((CtlFrame.unreplayable s).trans (.writePair _ d b (pqTop s.core.q.pq)))
    ((Stands.unreplayable s).trans (.writePair _ d b _))
  refine ⟨t, exec_of_issue hg ht rfl, hf, hm, ?b, fun hdb => ?d⟩
  case b => rw [hrest.g, hg2.1]
  case d => rw [hrest.g, hg2.2 hdb]

/-- Settles O17: the order is total and transitive, and PQPUSH inserts by it. -/
theorem priorityQueue : Obligations.PriorityQueue := by
  intro s d a b hsorted hc
  have hg : ctlGoes s [] = true := ctlGoes_nil (ctlCalm_noStep hc)
  rw [← pqTop_eq_headD]
  refine ⟨fun hlen => ?push, fun hlen => ?full, ⟨pqpop_spec hg, pqtop_spec hg⟩, ?clr, ?cnt⟩
  case push =>
    obtain ⟨t, ht, hk, hm, hmem, hq⟩ := updQ_spec (s0 := s) (ctlCalm_noStep hc)
      fun q => { q with pq := pqInsert (s.core.g a, s.core.g b) q.pq }
    refine ⟨t, ?_, hk, hm, hmem, by rw [hq]; exact pqInsert_pairwise _ hsorted, by rw [hq]; exact pqInsert_perm ..⟩
    rw [exec_pqpush hc, if_neg (Nat.not_le.mpr hlen), ht]
  case full =>
    rw [exec_pqpush hc, if_pos hlen]
    rfl
  case clr =>
    obtain ⟨t, ht, hspec⟩ := updQ_spec (s0 := s) (ctlCalm_noStep hc) fun q => { q with pq := [] }
    exact ⟨t, exec_of_issue hg ht rfl, hspec⟩
  case cnt =>
    obtain ⟨t, ht, hf, hm, -, hd⟩ := writesLocked_spec (i := .pqcnt d) hg rfl
    exact ⟨t, ht, hf, hm, hd⟩

end Sys2Proof.Machine

namespace Sys2Proof.Machine

/-! ### Events (R97, R343, R344) -/

/-- Outside a shadow an event operand names its event. -/
theorem evOf_calm {s : State} {e : EvOp} (hc : ctlCalm s (evReads e) = true) : evOf s e = (eventOf s e, s) := by
  cases e with
  | imm v => rfl
  | reg a =>
    unfold evOf
    dsimp only
    rw [ctlCalm_readG hc (List.mem_singleton_self a)]
    rfl

/-- Waking a core changes its arrival alone (R344). -/
theorem Core.wake_eq (c : Core) (tn : Fin 16) (ev : Nat) :
    c.wake tn ev = { c with ctl := { c.ctl with arrival := (c.wake tn ev).ctl.arrival } } := by
  unfold Core.wake
  split <;> rfl

section
variable (s : State) (tn : Fin 16) (ev : Nat)

theorem State.signal_core : (s.signal tn ev).core = s.core.wake tn ev := rfl

theorem CtlKeep.signal : CtlKeep [] [] s (s.signal tn ev) := by
  have harrives := (CtlFrame.arrives s (s.core.wake tn ev).ctl.arrival).toCtlKeep
  have hcore : (s.signal tn ev).core = (s.updCtl fun c => { c with arrival := (s.core.wake tn ev).ctl.arrival }).core := by
    rw [State.signal_core, Core.wake_eq]
    rfl
  exact harrives.trans (.of_core (by rw [hcore]))

theorem Stands.signal : Stands s (s.signal tn ev) := by
  constructor <;> rw [State.signal_core, Core.wake_eq]

theorem MemSame.modTenant (f : Tenant → Tenant) : MemSame s (s.modTenant tn f) := fun sp _ => by cases sp <;> rfl

theorem MemSame.signal : MemSame s (s.signal tn ev) := by
  refine (MemSame.modTenant s tn _).trans (.of_map (fun c => c.wake tn ev) ?_ ?_ rfl rfl fun c => ?_) <;>
    first | rw [State.signal_core, Core.wake_eq] | rw [Core.wake_eq]
  · rfl
  · rfl
  · exact ⟨rfl, rfl⟩

/-- The event is signalled, and no other is (R97). -/
theorem State.signal_signalled (k : Nat) : (s.signal tn ev).sys.tenants[tn].signalled k
    = (s.sys.tenants[tn].signalled k || decide (k = ev)) := by
  have hevents : (s.signal tn ev).sys.tenants[tn].events = if s.sys.tenants[tn].events.contains ev
      then s.sys.tenants[tn].events else ev :: s.sys.tenants[tn].events := by
    simp [State.signal, State.modTenant]
  unfold Tenant.signalled
  rw [hevents]
  split
  next hmem =>
    by_cases hk : k = ev
    · rw [hk, hmem, Bool.true_or]
    · rw [decide_eq_false hk, Bool.or_false]
  · rw [List.contains_cons, Bool.or_comm, beq_eq_decide]

theorem State.signal_tenants {m : Fin 16} (hm : m ≠ tn) : (s.signal tn ev).sys.tenants[m] = s.sys.tenants[m] := by
  have hval : tn.val ≠ m.val := fun h => hm (Fin.ext h.symm)
  simp [State.signal, State.modTenant, hval]

theorem Noted.recordSync (op word : Nat) : Noted s (s.recordSync op word) := .recordAt ..

/-- What the words of events do before their effect: the phase is irreversible, and a recording notes the word. -/
def State.noteSync (op word : Nat) : State := s.setIrrev.recordSync op word

variable (op word : Nat)

theorem Noted.noteSync : Noted s.setIrrev (s.noteSync op word) := .recordSync ..

theorem CtlKeep.noteSync : CtlKeep [] [] s (s.noteSync op word) := (CtlKeep.setIrrev s).trans (.recordAt ..)

theorem Stands.noteSync : Stands s (s.noteSync op word) :=
  (Stands.setIrrev s).trans (Noted.noteSync s op word).stands

theorem MemSame.noteSync : MemSame s (s.noteSync op word) :=
  (MemSame.setIrrev s).trans (Noted.noteSync s op word).memSame

theorem State.noteSync_q : (s.noteSync op word).core.q = s.core.q := (Noted.noteSync s op word).q.trans (by simp)

theorem State.noteSync_plain : (s.noteSync op word).core.vis.plain = s.core.vis.plain := by
  rw [(Noted.noteSync s op word).vis, State.setIrrev_plain]

theorem State.noteSync_tenants : (s.noteSync op word).sys.tenants = s.sys.tenants := by
  obtain ⟨bad, hbad⟩ := (Noted.noteSync s op word).sys
  rw [hbad, State.setIrrev_sys]

theorem State.noteSync_ctl : (s.noteSync op word).core.ctl = s.core.ctl :=
  (Noted.noteSync s op word).ctl.trans (by simp)

end

/-- SIGEV signals its event and no other (R97). -/
theorem sigev_spec {s : State} {e : EvOp} (hc : ctlCalm s (evReads e) = true) :
    ∃ t, exec (.sigev e) s = .next t ∧ CtlKeep [] [] s t ∧ Moves s t ∧ MemSame s t ∧
      t.core.q = s.core.q ∧ t.core.vis.plain = s.core.vis.plain ∧
      (∀ k, t.sys.tenants[s.core.ctl.regs.tenant].signalled k
        = (s.sys.tenants[s.core.ctl.regs.tenant].signalled k || decide (k = eventOf s e))) ∧
      ∀ m : Fin 16, m ≠ s.core.ctl.regs.tenant → t.sys.tenants[m] = s.sys.tenants[m] := by
  have hbody : exec (.sigev e) s = finish s (.issue
      ((s.noteSync 2 (encWord (.sigev (.imm (BitVec.ofNat 16 (eventOf s e)))))).signal s.core.ctl.regs.tenant
        (eventOf s e))) := by
    change execSigev e s = _
    unfold execSigev
    rw [ctlWord_goes (ctlCalm_goes hc), evOf_calm hc]
    rfl
  generalize encWord _ = word at hbody
  obtain ⟨t, ht, hrest, hk, hm⟩ := finish_keep (s0 := s) (ctlCalm_noStep hc)
    ((CtlKeep.noteSync s 2 word).trans (.signal _ s.core.ctl.regs.tenant (eventOf s e)))
    ((Stands.noteSync s 2 word).trans (.signal ..))
  refine ⟨t, hbody.trans ht, hk, hm, ?mem, ?q, ?plain, fun k => ?signalled, fun m hne => ?others⟩
  case mem => exact ((MemSame.noteSync s 2 word).trans (.signal _ _ _)).trans hrest.memSame
  case q => rw [hrest.q, State.signal_core, Core.wake_eq, State.noteSync_q]
  case plain => rw [hrest.vis, State.signal_core, Core.wake_eq, State.noteSync_plain]
  case signalled => rw [hrest.sys, State.signal_signalled, State.noteSync_tenants]
  case others => rw [hrest.sys, State.signal_tenants _ _ _ hne, State.noteSync_tenants]

/-- WAITEV goes on where its event is signalled or its wait has been met (R97, R344). -/
def State.waitMet (s : State) (ev : Nat) : Bool :=
  s.sys.tenants[s.core.ctl.regs.tenant].signalled ev || decide (s.core.ctl.arrival = some (.waitev ev true))

theorem exec_waitev {s : State} {e : EvOp} (hc : ctlCalm s (evReads e) = true) : exec (.waitev e) s
    = finish s (if s.waitMet (eventOf s e) then
        .issue ((s.noteSync 3 (encWord (.waitev (.imm (BitVec.ofNat 16 (eventOf s e)))))).updCtl
          fun c => { c with arrival := none })
      else .wait (s.updCtl fun c => { c with arrival := some (.waitev (eventOf s e) false) })) := by
  change execWaitev e s = _
  unfold execWaitev
  rw [ctlWord_goes (ctlCalm_goes hc), evOf_calm hc]
  rfl

theorem waitev_met_spec {s : State} {e : EvOp} (hc : ctlCalm s (evReads e) = true)
    (hmet : s.waitMet (eventOf s e) = true) :
    ∃ t, exec (.waitev e) s = .next t ∧ CtlKeep [] [] s t ∧ Moves s t ∧ MemSame s t ∧ t.core.q = s.core.q ∧
      t.core.vis.plain = s.core.vis.plain ∧ t.sys.tenants = s.sys.tenants ∧ t.core.ctl.arrival = none := by
  have hbody := exec_waitev hc
  rw [if_pos hmet] at hbody
  generalize encWord _ = word at hbody
  have harrives := CtlFrame.arrives (s.noteSync 3 word) none
  obtain ⟨t, ht, hrest, hk, hm⟩ := finish_keep (s0 := s) (ctlCalm_noStep hc)
    ((CtlKeep.noteSync s 3 word).trans harrives.toCtlKeep)
    ((Stands.noteSync s 3 word).trans ⟨rfl, rfl, rfl, rfl, rfl, rfl, rfl, rfl⟩)
  refine ⟨t, hbody.trans ht, hk, hm, ?mem, ?q, ?plain, ?tenants, hrest.arrival⟩
  case mem => exact ((MemSame.noteSync s 3 word).trans harrives.mem).trans hrest.memSame
  case q => rw [hrest.q, harrives.q, State.noteSync_q]
  case plain => rw [hrest.vis, harrives.vis, State.noteSync_plain]
  case tenants => rw [hrest.sys, harrives.sys, State.noteSync_tenants]

theorem State.noteReach_ctl (s : State) : s.noteReach.core.ctl = s.core.ctl := by
  unfold State.noteReach
  split
  · rfl
  · split <;> rfl

theorem waitev_waits_spec {s : State} {e : EvOp} (hc : ctlCalm s (evReads e) = true)
    (hmet : s.waitMet (eventOf s e) = false) :
    ∃ t, exec (.waitev e) s = .next t ∧ CtlFrame [] [] s t ∧ t.core.ctl.pcq = s.core.ctl.pcq ∧
      t.core.ctl.arrival = some (.waitev (eventOf s e) false) ∧ t.core.tick = s.core.tick + 1 := by
  have hbody := exec_waitev hc
  rw [hmet, if_neg Bool.false_ne_true] at hbody
  have harrives := CtlFrame.arrives s (some (.waitev (eventOf s e) false))
  generalize hu : (s.updCtl fun c => { c with arrival := some (.waitev (eventOf s e) false) }) = u at hbody harrives
  obtain ⟨t, ht, hframe, hpcq, htick⟩ := wait_frame u
  obtain ⟨-, -, harrival⟩ := u.noteReach.ticked_ctl
  refine ⟨t, hbody.trans ht, harrives.trans hframe, ?pcq, ?arrival, ?tick⟩
  case pcq => rw [hpcq, ← hu, State.updCtl_core_ctl]
  case arrival =>
    obtain rfl := Host.Outcome.next.inj ht
    rw [harrival, State.noteReach_ctl, ← hu, State.updCtl_core_ctl]
  case tick => rw [htick, ← hu, State.updCtl_core_tick]

/-- Settles O19: signalling wakes by changing arrivals alone. -/
theorem eventWords : Obligations.EventWords := by
  intro s e hc
  refine ⟨sigev_spec hc, fun hmet => waitev_met_spec hc ?_, fun hnot hwait => waitev_waits_spec hc ?_⟩
  · simpa [State.waitMet] using hmet
  · simpa [State.waitMet] using ⟨hnot, hwait⟩

end Sys2Proof.Machine

namespace Sys2Proof.Machine

/-! ### PHSW (R98, R374, R375) -/

/-- Steps of a fold that change nothing leave its value. -/
theorem foldl_eq_self {α β : Type} {f : β → α → β} {l : List α} (h : ∀ x ∈ l, ∀ o, f o x = o) (o : β) :
    l.foldl f o = o := by
  induction l generalizing o with
  | nil => rfl
  | cons x t ih =>
    rw [List.foldl_cons, h x (by simp), ih fun y hy => h y (by simp [hy])]

/-- A fold in which one step alone may change the value is that step. -/
theorem foldl_eq_step {α β : Type} {f : β → α → β} {l : List α} {i : Nat} (hi : i < l.length)
    (h : ∀ j (hj : j < l.length), j ≠ i → ∀ o, f o l[j] = o) (o : β) : l.foldl f o = f o l[i] := by
  induction l generalizing i o with
  | nil => cases hi
  | cons x t ih =>
    cases i with
    | zero =>
      rw [List.foldl_cons]
      refine foldl_eq_self (fun y hy => ?_) _
      obtain ⟨j, hj, rfl⟩ := List.getElem_of_mem hy
      exact h (j + 1) (by simpa using hj) (by omega)
    | succ i =>
      rw [List.foldl_cons, show f o x = o from h 0 (by simp) (by omega) o]
      exact ih (by simpa using hi) (fun j hj hne => h (j + 1) (by simpa using hj) (by omega)) o

/-- Where one phase pair alone has halves, an offset of its lower half is reached in the half that CUR names (R374). -/
theorem phaseMap_lower {v : Vis} {p : Fin 8} (hothers : ∀ k, k ≠ p → v.ph[k].len = 0) {off : Nat}
    (hlow : v.ph[p].base.toNat * 64 ≤ off) (hhigh : off < v.ph[p].base.toNat * 64 + v.ph[p].len.toNat * 64) :
    phaseMap v off = if v.ph[p].cur then off + v.ph[p].len.toNat * 64 else off := by
  unfold phaseMap
  rw [foldl_eq_step (i := p.val) (by simp)]
  · simp only [Vector.getElem_toList]
    rw [show v.ph[p.val] = v.ph[p] from rfl]
    generalize v.ph[p] = x at hlow hhigh ⊢
    cases x.cur
    · simp
    · have hin : off < x.base.toNat * 64 + 2 * (x.len.toNat * 64) := by omega
      simp [hlow, hhigh, hin]
  · intro j hj hne o
    have hj : j < 8 := by simpa using hj
    have hlen : v.ph[j].len = 0 := hothers ⟨j, hj⟩ fun h => hne (congrArg Fin.val h)
    simp only [Vector.getElem_toList, hlen]
    simp

/-- With nothing held, releasing a pair's copies changes marks of issued copies alone (R312). -/
theorem State.releaseHeld_of_nil {s : State} (h : s.core.cp.hold = []) (p : Fin 8) : ∃ cp copy,
    s.releaseHeld p = s.upd fun c => { c with cp := cp, copy := copy } := by
  unfold State.releaseHeld
  rw [h]
  exact ⟨_, _, rfl⟩

theorem holdError_of_nil {s : State} (h : s.core.cp.hold = []) (p : Fin 8) : holdError s [p] = none := by
  simp [holdError, badResidue, badHold, h]

theorem State.logRetried_of_not {s : State} (h : s.core.ctl.regs.retried = false) : s.logRetried = s := by
  unfold State.logRetried
  rw [h, if_neg Bool.false_ne_true]

/-- What the PHSW of a pair does to a core: the halves are exchanged, and a snapshot is taken (R98, R375). -/
def Core.switched (c : Core) (p : Fin 8) : Core :=
  let d := { c with vis := { c.vis with ph := c.vis.ph.set p.val { c.vis.ph[p] with cur := !c.vis.ph[p].cur } p.isLt } }
  d.commit d.pcqAfter d.playAfter

section
variable (c : Core) (p : Fin 8)

theorem Core.switched_cur : (c.switched p).vis.ph[p].cur = !c.vis.ph[p].cur := by
  simp [Core.switched, Core.commit]

theorem Core.switched_irrev : (c.switched p).vis.ph[p].irrev = false := by
  simp [Core.switched, Core.commit]

theorem Core.switched_others {k : Fin 8} (hk : k ≠ p) :
    (c.switched p).vis.ph[k].cur = c.vis.ph[k].cur ∧ (c.switched p).vis.ph[k].len = c.vis.ph[k].len := by
  have hval : p.val ≠ k.val := fun h => hk (Fin.ext h.symm)
  simp [Core.switched, Core.commit, hval]

theorem Core.switched_vis_congr {c d : Core} (h : c.vis = d.vis) : (c.switched p).vis = (d.switched p).vis := by
  simp [Core.switched, Core.commit, h]

theorem Core.switched_base : (c.switched p).vis.ph[p].base = c.vis.ph[p].base ∧
    (c.switched p).vis.ph[p].len = c.vis.ph[p].len := by
  simp [Core.switched, Core.commit]

end

/-- The state before the halves are exchanged: the pair's copies are released and a recording has noted the word. -/
def State.released (s : State) (p : Fin 8) : State := (s.releaseHeld p).recordSync 4 (encWord (.phsw p))

/-- The state in which PHSW issues. -/
def State.switched (s : State) (p : Fin 8) : State := (s.released p).upd fun c => c.switched p

theorem RegSame.upd_switched (s : State) (p : Fin 8) : RegSame [] [] s (s.upd fun c => c.switched p) :=
  .of_banks rfl rfl rfl

theorem Stands.upd_switched (s : State) (p : Fin 8) : Stands s (s.upd fun c => c.switched p) := by
  constructor <;> rfl

theorem MemSame.upd_switched (s : State) (p : Fin 8) : MemSame s (s.upd fun c => c.switched p) :=
  .of_eq rfl rfl rfl rfl

section
variable {s : State} (h : s.core.cp.hold = []) (p : Fin 8)
include h

theorem Stands.released : Stands s (s.released p) := by
  obtain ⟨cp, copy, hrel⟩ := State.releaseHeld_of_nil h p
  unfold State.released
  rw [hrel]
  exact .trans (by constructor <;> rfl) (Noted.recordSync ..).stands

theorem MemSame.released : MemSame s (s.released p) := by
  obtain ⟨cp, copy, hrel⟩ := State.releaseHeld_of_nil h p
  unfold State.released
  rw [hrel]
  refine MemSame.trans ?_ (Noted.recordSync _ 4 _).memSame
  exact .of_eq rfl rfl rfl rfl

theorem State.released_ctl : (s.released p).core.ctl = s.core.ctl := by
  obtain ⟨cp, copy, hrel⟩ := State.releaseHeld_of_nil h p
  unfold State.released
  rw [hrel]
  exact (Noted.recordSync ..).ctl

theorem State.released_vis : (s.released p).core.vis = s.core.vis := by
  obtain ⟨cp, copy, hrel⟩ := State.releaseHeld_of_nil h p
  unfold State.released
  rw [hrel]
  exact (Noted.recordSync ..).vis

theorem RegSame.switched : RegSame [] [] s (s.switched p) :=
  (RegSame.of_banks (by rw [State.released_ctl h]) (by rw [State.released_ctl h]) (by rw [State.released_ctl h])).trans
    (.upd_switched ..)

theorem State.switched_noStep : noStep (s.switched p) = noStep s := by
  have hsame : noStep (s.switched p) = noStep (s.released p) := rfl
  rw [hsame]
  exact noStep_eq (by rw [State.released_ctl h]) (by rw [State.released_ctl h])

end

/-- PHSW of a pair of length 0 traps (R98, R374). -/
theorem exec_phsw_empty {s : State} {p : Fin 8} (hg : ctlGoes s [] = true) (h : s.core.vis.ph[p].len = 0) :
    exec (.phsw p) s = .next (takeTrap (illegal (.phsw p) 0x03 s.core.nowAddr 0) s).pass := by
  change execPhsw p s = _
  unfold execPhsw
  rw [ctlWord_goes hg]
  dsimp only
  rw [if_pos (.inl h)]
  rfl

/-- PHSW of a pair with halves in the bench, the engines done and nothing held, switches it (R98). -/
theorem exec_phsw_switches {s : State} {p : Fin 8} (hg : ctlGoes s [] = true) (hlen : s.core.vis.ph[p].len ≠ 0)
    (hbench : s.core.vis.ph[p].base.toNat * 64 + 128 * s.core.vis.ph[p].len.toNat ≤ benchSize)
    (hready : s.core.commitReady = true) (hhold : s.core.cp.hold = []) (hretried : s.core.ctl.regs.retried = false) :
    exec (.phsw p) s = finish s (.issue (s.switched p)) := by
  have hnot : ¬ (s.core.vis.ph[p].len = 0 ∨
      benchSize < s.core.vis.ph[p].base.toNat * 64 + 128 * s.core.vis.ph[p].len.toNat) := by
    rintro (h | h)
    · exact hlen h
    · omega
  have hlog : ((s.releaseHeld p).recordSync 4 (encWord (.phsw p))).logRetried = s.released p :=
    State.logRetried_of_not (by rw [← hretried, ← State.released_ctl hhold p]; rfl)
  change execPhsw p s = _
  unfold execPhsw
  rw [ctlWord_goes hg]
  dsimp only
  rw [if_neg hnot, hready, holdError_of_nil hhold, hlog]
  have hvis := State.released_vis hhold p
  unfold State.switched Core.switched
  rw [← hvis]
  rfl

/-- Settles O20: with nothing held, PHSW exchanges the halves and commits. -/
theorem phaseSwitch : Obligations.PhaseSwitch := by
  intro s p hg
  refine ⟨exec_phsw_empty hg, fun hlen hbench hready hhold hretried => ?_⟩
  have hn : noStep (s.switched p) = true := (State.switched_noStep hhold p).trans (ctlGoes_step hg)
  have hrest := issue_rest hn
  have hvis : (ctlDone (s.switched p).endSkip.clearReach).core.vis = (s.core.switched p).vis :=
    hrest.vis.trans (Core.switched_vis_congr p (State.released_vis hhold p))
  refine ⟨_, exec_phsw_switches hg hlen hbench hready hhold hretried,
    (RegSame.switched hhold p).trans hrest.frame.reg, issue_moves hn ((Stands.released hhold p).trans (.upd_switched ..)),
    ((MemSame.released hhold p).trans (.upd_switched _ p)).trans hrest.memSame, ?cur, ?irrev, fun k hk => ?others,
    ?snap, ?popped, fun hlens off hlow hhigh => ?map⟩
  case cur => rw [hvis, Core.switched_cur]
  case irrev => rw [hvis, Core.switched_irrev]
  case others => rw [hvis, (Core.switched_others _ p hk).1]
  case snap => rw [hrest.phase]; rfl
  case popped => rw [hrest.phase]; rfl
  case map =>
    rw [hvis]
    obtain ⟨hbase, hlen'⟩ := Core.switched_base s.core p
    rw [phaseMap_lower (p := p) (fun k hk => by rw [(Core.switched_others _ p hk).2, hlens k hk])
      (by rwa [hbase]) (by rwa [hbase, hlen']), Core.switched_cur, hlen']
    cases s.core.vis.ph[p].cur <;> rfl

end Sys2Proof.Machine

namespace Sys2Proof.Machine

/-! ### What a recording notes (R299, R300, R302, R304) -/

theorem toNat_append_eq {m n : Nat} (x : BitVec m) (y : BitVec n) : (x ++ y).toNat = x.toNat * 2 ^ n + y.toNat := by
  rw [BitVec.toNat_append, ← Nat.shiftLeft_add_eq_or_of_lt y.isLt, Nat.shiftLeft_eq]

/-- A stop's entry: its value, its address and its kind (R300). -/
theorem stopEntry_eq (x y : DWord) : BitVec.ofNat 128 (4 + x.toNat % 2 ^ 48 * 2 ^ 16 + y.toNat * 2 ^ 64)
    = y ++ (x.truncate 48 : BitVec 48) ++ (4 : BitVec 16) := by
  have hy := y.isLt
  apply BitVec.eq_of_toNat_eq
  simp only [toNat_append_eq, BitVec.ofNat_eq_ofNat, BitVec.toNat_ofNat, BitVec.truncate_eq_setWidth, BitVec.toNat_setWidth]
  omega

/-- An XQ entry: its value, its DELTA and its kind (R300). -/
theorem xqEntry_eq (v : DWord) {delta : Nat} (h : delta < 65536) : BitVec.ofNat 128 (7 + v.toNat * 2 ^ 64 + delta * 16)
    = v ++ (0 : BitVec 44) ++ BitVec.ofNat 16 delta ++ (7 : BitVec 4) := by
  have hv := v.isLt
  apply BitVec.eq_of_toNat_eq
  simp only [toNat_append_eq, BitVec.ofNat_eq_ofNat, BitVec.toNat_ofNat]
  omega

/-- A gap that DELTA holds makes no WAIT entry (R300). -/
theorem waitEntries_short {gap : Nat} (h : gap < 65536) : waitEntries gap = [] ∧ restDelta gap = gap := by
  have hnone : gap / 65535 - (if gap % 65535 = 0 ∧ 0 < gap then 1 else 0) = 0 := by split <;> omega
  simp [waitEntries, restDelta, hnone]

/-- A recording in progress is not full, and no handler runs (R101, R304). -/
theorem State.recordingOn_eq_some {s : State} {r : Recording} : s.recordingOn = some r ↔
    s.core.jig.recording = some r ∧ r.full = false ∧ s.core.ctl.bank1 = false := by
  unfold State.recordingOn
  cases s.core.jig.recording with
  | none => simp
  | some x =>
    simp only [Option.some.injEq, Option.ite_none_left_eq_some, Bool.or_eq_true, not_or, Bool.not_eq_true]
    constructor
    · rintro ⟨⟨hfull, hbank⟩, rfl⟩
      exact ⟨rfl, hfull, hbank⟩
    · rintro ⟨rfl, hfull, hbank⟩
      exact ⟨⟨hfull, hbank⟩, rfl⟩

theorem State.isRecording_of_on {s : State} {r : Recording} (h : s.recordingOn = some r) : s.isRecording = true := by
  obtain ⟨hrec, hfull, -⟩ := State.recordingOn_eq_some.mp h
  simp [State.isRecording, hrec, hfull]

/-- With room in the store, entries are added to the jig that is recording, and to no other (R299). -/
theorem State.appendEntries_jig {s : State} {r : Recording} {es : List (BitVec 128)} (hdiffers : r.differs = false)
    (hroom : s.core.jig.used + es.length ≤ 16384) : (s.appendEntries r es).core.jig = { s.core.jig with
      jig := s.core.jig.jig.set r.jig.val
        { s.core.jig.jig[r.jig] with entries := s.core.jig.jig[r.jig].entries ++ es } r.jig.isLt
      recording := some { r with since := s.core.gtick } } := by
  unfold State.appendEntries
  rw [State.upd_core, State.mend_core]
  simp only [hdiffers, Bool.false_eq_true, if_false, if_neg (Nat.not_lt.mpr hroom)]

/-- The jig store after some entries are added to one jig. -/
def JigStore.added (j : JigStore) (k : Fin 4) (es : List (BitVec 128)) : Vector Jig 4 :=
  j.jig.set k.val { j.jig[k] with entries := j.jig[k].entries ++ es } k.isLt

theorem JigStore.added_same (j : JigStore) (k : Fin 4) (es : List (BitVec 128)) :
    (j.added k es)[k].entries = j.jig[k].entries ++ es := by
  simp [JigStore.added]

theorem JigStore.added_ne (j : JigStore) {k i : Fin 4} (es : List (BitVec 128)) (h : i ≠ k) :
    (j.added k es)[i] = j.jig[i] := by
  have hval : k.val ≠ i.val := fun e => h (Fin.ext e.symm)
  simp [JigStore.added, hval]

/-- What `clearReach` and the end of a word leave of the recording: when its word reached issue is forgotten (R300). -/
theorem issue_recording {s : State} (h : noStep s = true) : (ctlDone s.endSkip.clearReach).core.jig.recording
    = s.core.jig.recording.map fun r => { r with reach := none } := by
  have hclear : s.endSkip.clearReach.core.jig.recording
      = s.core.jig.recording.map fun r => { r with reach := none } := by
    unfold State.clearReach
    split <;> simp_all
  unfold ctlDone ctlDoneWith
  rw [ctlTick_noStep ((noStep_eq (by simp) (by simp)).trans h), ← hclear]
  simp [Core.tickOn]

/-- A stop adds its entry, which has no DELTA (R302). -/
theorem State.recordStop_jig {s : State} {r : Recording} (hon : s.recordingOn = some r) (hdiffers : r.differs = false)
    (hroom : s.core.jig.used < 16384) (bits : Nat) :
    (s.recordStop bits).core.jig.jig = s.core.jig.added r.jig [BitVec.ofNat 128 bits] := by
  have happ := State.appendEntries_jig (s := s) (es := [BitVec.ofNat 128 bits]) hdiffers hroom
  unfold State.recordStop
  rw [hon]
  dsimp only
  rw [happ]
  exact congrArg JigStore.jig happ

theorem Noted.recordStop (s : State) (bits : Nat) : Noted s (s.recordStop bits) := by
  unfold State.recordStop
  split
  · exact .refl s
  next r hr =>
    have happ := Noted.appendEntries s r [BitVec.ofNat 128 bits]
    dsimp only
    split
    · exact happ
    next r' hr' =>
      obtain ⟨j, hj, hplay⟩ := happ.core
      refine ⟨⟨{ j with recording := some { r' with since := r.since } }, ?_, hplay⟩, happ.others, happ.sys⟩
      simp only [State.upd_core, hj]

/-- JIG.STOP outside a hook and outside every shadow (R302). -/
theorem exec_jigStop {s : State} {a b : Fin 32} (hc : ctlCalm s [a, b] = true) (hh : noHook s = true) :
    exec (.jigStop a b) s = finish s (if !s.isRecording then .issue s
      else if (s.core.g a).toNat % 8 ≠ 0 then .trap (access 0x03 (.jigStop a b) 0 ((s.core.g a).truncate 48) 0)
      else .issue (s.recordStop (4 + (s.core.g a).toNat % 2 ^ 48 * 2 ^ 16 + (s.core.g b).toNat * 2 ^ 64))) := by
  refine (ctlNoHook_goes hh (ctlCalm_goes hc) _).trans (congrArg _ ?_)
  simp only [ctlCalm_readG hc (r := a) (by simp), ctlCalm_readG hc (r := b) (by simp)]

theorem State.recordStop_none {s : State} (h : s.recordingOn = none) (bits : Nat) : s.recordStop bits = s := by
  unfold State.recordStop
  rw [h]

/-- JIG.STOP adds a stop of the address and the value in its registers (R302). -/
theorem jigStop_adds {s : State} {a b : Fin 32} {r : Recording} (hc : ctlCalm s [a, b] = true) (hh : noHook s = true)
    (hon : s.recordingOn = some r) (hdiffers : r.differs = false) (ha : (s.core.g a).toNat % 8 = 0)
    (hroom : s.core.jig.used < 16384) :
    ∃ t, exec (.jigStop a b) s = .next t ∧ RegSame [] [] s t ∧ Moves s t ∧ MemSame s t ∧ t.core.q = s.core.q ∧
      t.core.jig.jig[r.jig].entries = s.core.jig.jig[r.jig].entries
        ++ [s.core.g b ++ ((s.core.g a).truncate 48 : BitVec 48) ++ (4 : BitVec 16)] ∧
      ∀ k, k ≠ r.jig → t.core.jig.jig[k] = s.core.jig.jig[k] := by
  have hbody := exec_jigStop hc hh
  rw [State.isRecording_of_on hon, if_neg (by simp), if_neg (not_not_intro ha)] at hbody
  have hadd := State.recordStop_jig hon hdiffers hroom
    (4 + (s.core.g a).toNat % 2 ^ 48 * 2 ^ 16 + (s.core.g b).toNat * 2 ^ 64)
  rw [stopEntry_eq] at hadd
  have hnote := Noted.recordStop s (4 + (s.core.g a).toNat % 2 ^ 48 * 2 ^ 16 + (s.core.g b).toNat * 2 ^ 64)
  generalize s.recordStop _ = u at hbody hadd hnote
  have hnu : noStep u = true := (noStep_eq (by rw [hnote.ctl]) (by rw [hnote.ctl])).trans (ctlCalm_noStep hc)
  have hrest := issue_rest hnu
  have hreg : RegSame [] [] s u := .of_banks (by rw [hnote.ctl]) (by rw [hnote.ctl]) (by rw [hnote.ctl])
  refine ⟨_, hbody, hreg.trans hrest.frame.reg, issue_moves hnu hnote.stands, hnote.memSame.trans hrest.memSame,
    hrest.q.trans hnote.q, ?_, fun k hk => ?_⟩
  · rw [hrest.jig, hadd, JigStore.added_same]
  · rw [hrest.jig, hadd, JigStore.added_ne _ _ hk]

/-- A tainted value makes the recording unreplayable, and an untainted one leaves it (R304). -/
theorem State.unreplayableIf_jig {s : State} {r : Recording} (hon : s.recordingOn = some r) (b : Bool) :
    (s.unreplayableIf b).core.jig = { s.core.jig with recording := some { r with unrep := r.unrep || b } } := by
  obtain ⟨hrec, -, -⟩ := State.recordingOn_eq_some.mp hon
  cases b with
  | false =>
    rw [Bool.or_false, ← hrec]
    rfl
  | true =>
    rw [Bool.or_true]
    unfold State.unreplayableIf State.unreplayable
    rw [if_pos rfl, hon]
    rfl

theorem State.unreplayableIf_gtick (s : State) (b : Bool) : (s.unreplayableIf b).core.gtick = s.core.gtick := by
  unfold State.unreplayableIf State.unreplayable
  split
  · split <;> rfl
  · rfl

/-- QPUSH to xq adds an entry of kind 7 with the value and its DELTA (R115, R300). -/
theorem State.xqPushed_jig {s : State} {r : Recording} (hon : s.recordingOn = some r) (hdiffers : r.differs = false)
    (hroom : s.core.jig.used < 16384) (hgap : s.core.gtick - r.since < 65536) (b : Bool) (x : DWord) :
    (s.xqPushed b x).core.jig = { s.core.jig with
      jig := s.core.jig.added r.jig [x ++ (0 : BitVec 44) ++ BitVec.ofNat 16 (s.core.gtick - r.since) ++ (7 : BitVec 4)]
      recording := some { r with unrep := r.unrep || b, since := s.core.gtick } } := by
  obtain ⟨hrec, hfull, hbank⟩ := State.recordingOn_eq_some.mp hon
  have hjig := State.unreplayableIf_jig hon b
  have hon' : (s.unreplayableIf b).recordingOn = some { r with unrep := r.unrep || b } := by
    refine State.recordingOn_eq_some.mpr ⟨by rw [hjig], hfull, ?_⟩
    rw [(CtlFrame.unreplayableIf s b).reg.bank, hbank]
  have hgtick := s.unreplayableIf_gtick b
  obtain ⟨hwait, hdelta⟩ := waitEntries_short hgap
  have happ := State.appendEntries_jig (s := s.unreplayableIf b) (r := { r with unrep := r.unrep || b })
    (es := [x ++ (0 : BitVec 44) ++ BitVec.ofNat 16 (s.core.gtick - r.since) ++ (7 : BitVec 4)]) hdiffers
    (by rw [hjig]; exact hroom)
  change ((s.unreplayableIf b).recordXq x).core.jig = _
  unfold State.recordXq State.record State.recordAt
  rw [hon']
  dsimp only
  rw [hgtick, hwait, hdelta, List.nil_append, xqEntry_eq x hgap, happ, hjig, hgtick]
  rfl

/-- A push of an untainted register notes its value, one of a tainted register makes the recording unreplayable (R304). -/
theorem qpush_xq_records {s : State} {a : Fin 32} {r : Recording} (hc : ctlCalm s [a] = true)
    (hon : s.recordingOn = some r) (hdiffers : r.differs = false) (hxq : s.core.q.xq.length < 16)
    (hroom : s.core.jig.used < 16384) (hgap : s.core.gtick - r.since < 65536) :
    ∃ t, exec (.qpush a .xq) s = .next t ∧
      t.core.jig.jig[r.jig].entries = s.core.jig.jig[r.jig].entries ++ [s.core.g a ++ (0 : BitVec 44)
        ++ BitVec.ofNat 16 (s.core.gtick - r.since) ++ (7 : BitVec 4)] ∧
      (t.core.jig.recording.map (·.unrep)) = some (r.unrep || s.taint a) := by
  have hbody := exec_qpush_xq (ctlCalm_goes hc) hxq
  rw [ctlCalm_readG hc (List.mem_singleton_self a)] at hbody
  have hjig := State.xqPushed_jig hon hdiffers hroom hgap (s.taint a) (s.core.g a)
  have hn : noStep (s.xqPushed (s.taint a) (s.core.g a)) = true := by
    have hk := CtlKeep.xqPushed s (s.taint a) (s.core.g a)
    exact (noStep_eq hk.regs hk.reg.bank).trans (ctlCalm_noStep hc)
  refine ⟨_, hbody, ?_, ?_⟩
  · rw [(issue_rest hn).jig, hjig, JigStore.added_same]
  · rw [issue_recording hn, hjig]
    rfl

/-- Settles O22: each entry's fields are bits of its number, and a gap below 2^16 makes no WAIT entry. -/
theorem recordingNotes : Obligations.RecordingNotes := by
  refine ⟨fun s a b hc hh => ⟨fun hoff haligned => ?none, fun hrec hmis => ?misaligned,
    fun r hon hdiffers ha hroom => jigStop_adds hc hh hon hdiffers ha hroom⟩,
    fun s a r hc hon hdiffers hxq hroom _ hgap => qpush_xq_records hc hon hdiffers hxq hroom hgap⟩
  case none =>
    refine onlyIssues_of_issue (ctlCalm_goes hc) ((exec_jigStop hc hh).trans (congrArg _ ?_))
    cases hrec : s.isRecording
    · rfl
    · rw [if_neg (by simp), if_neg (not_not_intro (haligned hrec)), State.recordStop_none hoff]
  case misaligned =>
    rw [exec_jigStop hc hh, hrec, if_neg (by simp), if_pos hmis]
    rfl

end Sys2Proof.Machine

namespace Sys2Proof.Machine

/-! ### What a write of a special register leaves (R37, R87) -/

/-- A write of a special register changes special registers, engine-visible registers, and registers and queues of the
matrix and vector paths alone; SSTEP is changed by a write of 0x380 alone. -/
structure WritesSR (n : Nat) (c d : Core) : Prop where
  core : ∃ regs vis mx vec q, d = { c with ctl := { c.ctl with regs := regs }, vis := vis, mx := mx, vec := vec, q := q }
  sstep : n ≠ 0x380 → d.ctl.regs.sstep = c.ctl.regs.sstep

theorem writeTrapReg_sstep (r : CtlRegs) (n : Nat) (v : DWord) : (writeTrapReg r n v).sstep = r.sstep := by
  unfold writeTrapReg
  split <;> rfl

theorem WritesSR.writeHigh (c : Core) (n : Nat) (v : DWord) : WritesSR n c (c.writeHigh n v) := by
  unfold Core.writeHigh
  split
  case h_17 => exact ⟨⟨_, _, _, _, _, rfl⟩, fun h => absurd rfl h⟩
  case h_18 => split <;> exact ⟨⟨_, _, _, _, _, rfl⟩, fun _ => rfl⟩
  all_goals exact ⟨⟨_, _, _, _, _, rfl⟩, fun _ => rfl⟩

theorem WritesSR.writeSR (c : Core) (bank1 : Bool) (n : Nat) (v : DWord) : WritesSR n c (c.writeSR bank1 n v) := by
  unfold Core.writeSR
  dsimp only
  by_cases h1 : n < 0x020
  · rw [if_pos h1]
    exact ⟨⟨_, _, _, _, _, rfl⟩, fun _ => rfl⟩
  by_cases h2 : n < 0x040
  · rw [if_neg h1, if_pos h2]
    exact ⟨⟨_, _, _, _, _, rfl⟩, fun _ => writeTrapReg_sstep ..⟩
  by_cases h3 : n < 0x060
  · rw [if_neg h1, if_neg h2, if_pos h3]
    exact ⟨⟨_, _, _, _, _, rfl⟩, fun _ => rfl⟩
  rw [if_neg h1, if_neg h2, if_neg h3]
  by_cases h4 : n < 0x300
  · iterate 6
      split
      · exact ⟨⟨_, _, _, _, _, rfl⟩, fun _ => rfl⟩
    exact ⟨⟨_, _, _, _, _, rfl⟩, fun _ => rfl⟩
  · iterate 7 rw [if_neg (by omega)]
    exact .writeHigh ..

/-- A write that takes effect now, and what is noted of a write of LIVE. -/
def State.putSR (s : State) (n : Nat) (v : DWord) : State :=
  (s.upd fun c => c.writeSR s.core.ctl.bank1 n v).updCtl (Ctl.noteLive n)

theorem Ctl.noteLive_eq (n : Nat) (c : Ctl) : ∃ live, c.noteLive n = { c with liveSet := live } := by
  unfold Ctl.noteLive
  split
  · exact ⟨_, rfl⟩
  · exact ⟨c.liveSet, rfl⟩

/-- The acting core after it. -/
theorem State.putSR_core (s : State) (n : Nat) (v : DWord) : ∃ regs live vis mx vec q, (s.putSR n v).core =
    { s.core with
      ctl := { s.core.ctl with regs := regs, liveSet := live }, vis := vis, mx := mx, vec := vec, q := q } ∧
    (n ≠ 0x380 → regs.sstep = s.core.ctl.regs.sstep) := by
  obtain ⟨⟨regs, vis, mx, vec, q, hcore⟩, hsstep⟩ := WritesSR.writeSR s.core s.core.ctl.bank1 n v
  obtain ⟨live, hlive⟩ := Ctl.noteLive_eq n (s.core.writeSR s.core.ctl.bank1 n v).ctl
  rw [hcore] at hsstep hlive
  refine ⟨regs, live, vis, mx, vec, q, ?_, hsstep⟩
  change { s.core.writeSR s.core.ctl.bank1 n v with
    ctl := Ctl.noteLive n (s.core.writeSR s.core.ctl.bank1 n v).ctl } = _
  rw [hcore, hlive]

section
variable (s : State) (n : Nat) (v : DWord)

theorem Stands.putSR : Stands s (s.putSR n v) := by
  obtain ⟨regs, live, vis, mx, vec, q, hcore, -⟩ := s.putSR_core n v
  constructor <;> rw [hcore]

theorem MemSame.putSR : MemSame s (s.putSR n v) := by
  obtain ⟨regs, live, vis, mx, vec, q, hcore, -⟩ := s.putSR_core n v
  exact .of_eq (by rw [hcore]) (by rw [hcore]) rfl rfl

theorem RegSame.putSR : RegSame [] [] s (s.putSR n v) := by
  obtain ⟨regs, live, vis, mx, vec, q, hcore, -⟩ := s.putSR_core n v
  exact .of_banks (by rw [hcore]) (by rw [hcore]) (by rw [hcore])

/-- SSTEP is a bank-1 register (R372), so no write that is allowed has a bank-0 word trap. -/
theorem noStep_putSR {s : State} {n : Nat} (hn : noStep s = true) (hw : srMayWrite s.core.ctl.bank1 n = true) :
    noStep (s.putSR n v) = true := by
  obtain ⟨regs, live, vis, mx, vec, q, hcore, hsstep⟩ := s.putSR_core n v
  have hbank : (s.putSR n v).core.ctl.bank1 = s.core.ctl.bank1 := by rw [hcore]
  by_cases h : n = 0x380
  · subst h
    have hone : s.core.ctl.bank1 = true := by
      by_contra hzero
      simp [Bool.eq_false_iff.mpr hzero, srMayWrite, srReadOnly0] at hw
    simp [noStep, hbank, hone]
  · unfold noStep at hn ⊢
    rw [hbank, hcore]
    simpa only [hsstep h] using hn

end

/-! ### MTS, MTSI and MTSR (R87, R90) -/

theorem Noted.unreplayableIf (s : State) (b : Bool) : Noted s (s.unreplayableIf b) := by
  cases b with
  | false => exact .refl s
  | true =>
    unfold State.unreplayableIf State.unreplayable
    rw [if_pos rfl]
    split
    · exact .refl s
    · exact ⟨⟨_, rfl, rfl⟩, rfl, _, rfl⟩

theorem Noted.trans {s t u : State} (h : Noted s t) (k : Noted t u) : Noted s u := by
  obtain ⟨j, hj, hjplay⟩ := h.core
  obtain ⟨i, hi, hiplay⟩ := k.core
  obtain ⟨bad, hbad⟩ := h.sys
  obtain ⟨bad', hbad'⟩ := k.sys
  exact ⟨⟨i, by rw [hi, hj], by rw [hiplay, hj, hjplay]⟩, k.others.trans h.others, bad', by rw [hbad', hbad]⟩

/-- What a recording notes of a write is an entry, and whether its value is tainted (R90, R115). -/
theorem exec_mtsForm_noted {s : State} {i : Instr} {sr : BitVec 12} {x : DWord} {rs : List (Fin 32)}
    (hi : mtsForm s i = some (sr, x, rs)) (hc : ctlCalm s rs = true) :
    ∃ note : State → State, Noted s (note s) ∧ exec i s = finish s (mtsBody i sr x s note) := by
  have hg := ctlCalm_goes hc
  unfold mtsForm at hi
  split at hi
  case h_4 => cases hi
  case h_1 a sr =>
    cases hi
    refine ⟨fun z => if engVisible sr then (z.unreplayableIf (s.taint a)).recordValue sr (s.core.g a) else z, ?_, ?_⟩
    · dsimp only
      split
      · exact (Noted.unreplayableIf s _).trans (.record ..)
      · exact .refl s
    · change execMts a sr s = _
      unfold execMts
      rw [ctlWord_goes hg, ctlCalm_readG hc (List.mem_singleton_self a)]
  case h_2 sr imm =>
    cases hi
    refine ⟨fun z => if engVisible sr then z.recordValue sr (imm.signExtend 64) else z, ?_, ?_⟩
    · dsimp only
      split
      · exact .record ..
      · exact .refl s
    · change execMtsi sr imm s = _
      exact ctlWord_goes hg _
  case h_3 k a sr =>
    cases hi
    refine ⟨fun z => if engVisible sr then
      (z.unreplayableIf (s.taint a)).recordShim sr k (s.core.g a - s.core.ctl.regs.rel[k]) else z, ?_, ?_⟩
    · dsimp only
      split
      · exact (Noted.unreplayableIf s _).trans (.record ..)
      · exact .refl s
    · change execMtsr k a sr s = _
      unfold execMtsr
      rw [ctlWord_goes hg, ctlCalm_readG hc (List.mem_singleton_self a)]

/-- A write that the bank may make, of another register than ESTAT, issues (R37, R87). -/
theorem mtsBody_writes {i : Instr} {sr : BitVec 12} {x : DWord} {s : State} {note : State → State}
    (ha : srAssigned sr.toNat = true) (hw : srMayWrite s.core.ctl.bank1 sr.toNat = true) (hne : sr ≠ 0x028) :
    mtsBody i sr x s note = .issue ((note s).writeSR sr.toNat x) := by
  have hval : sr.toNat ≠ 0x028 := fun h => hne (BitVec.eq_of_toNat_eq h)
  simp [mtsBody, ha, hw, hval]

theorem State.writeSR_of_none {s : State} {n : Nat} (hq : srQueue n = none) (v : DWord) : s.writeSR n v = s.putSR n v := by
  unfold State.writeSR
  rw [hq]
  rfl

/-- A write of a register that no engine keeps in its queue's order completes (R87, R90). -/
theorem mtsForm_completes {s : State} {i : Instr} {sr : BitVec 12} {x : DWord} {rs : List (Fin 32)}
    (hi : mtsForm s i = some (sr, x, rs)) (hc : ctlCalm s rs = true) (ha : srAssigned sr.toNat = true)
    (hq : srQueue sr.toNat = none) (hne : sr ≠ 0x028) (hw : srMayWrite s.core.ctl.bank1 sr.toNat = true) :
    ∃ t, exec i s = .next t ∧ Moves s t ∧ MemSame s t ∧ RegSame [] [] s t := by
  obtain ⟨note, hnote, hexec⟩ := exec_mtsForm_noted hi hc
  rw [mtsBody_writes ha hw hne, State.writeSR_of_none hq] at hexec
  generalize note s = w at hnote hexec
  have hnw : noStep w = true := (noStep_eq (by rw [hnote.ctl]) (by rw [hnote.ctl])).trans (ctlCalm_noStep hc)
  have hnu : noStep (w.putSR sr.toNat x) = true := noStep_putSR x hnw (by rw [hnote.ctl]; exact hw)
  have hrest := issue_rest hnu
  have hreg : RegSame [] [] s w := .of_banks (by rw [hnote.ctl]) (by rw [hnote.ctl]) (by rw [hnote.ctl])
  exact ⟨_, hexec, issue_moves hnu (hnote.stands.trans (.putSR ..)),
    (hnote.memSame.trans (.putSR _ _ _)).trans hrest.memSame, (hreg.trans (.putSR ..)).trans hrest.frame.reg⟩

/-! ### Writes that wait in an engine's queue (R88, R117) -/

/-- The state in which a write of a register that an engine keeps in order waits behind the engine's words. -/
def State.queueSR (s : State) (e : Engine) (sr : BitVec 12) (v : DWord) : State :=
  s.upd fun c => c.setEng e fun x => { x with queue := x.queue ++ [.reg sr v] }

theorem State.writeSR_of_queued {s : State} {sr : BitVec 12} {e : Engine} (hq : srQueue sr.toNat = some e)
    (hne : (s.core.eng e).queue ≠ []) (v : DWord) : s.writeSR sr.toNat v = s.queueSR e sr v := by
  have hfull : (s.core.eng e).queue.isEmpty = false := by simpa using hne
  unfold State.writeSR
  rw [hq]
  dsimp only
  rw [hfull, if_neg Bool.false_ne_true, BitVec.ofNat_toNat, BitVec.setWidth_eq]
  rfl

section
variable (s : State) (e : Engine) (sr : BitVec 12) (v : DWord)

theorem Stands.queueSR : Stands s (s.queueSR e sr v) := by constructor <;> simp [State.queueSR]

theorem RegSame.queueSR : RegSame [] [] s (s.queueSR e sr v) := by
  refine .of_banks ?_ ?_ ?_ <;> simp [State.queueSR]

theorem MemSame.queueSR : MemSame s (s.queueSR e sr v) := .of_eq (by simp [State.queueSR]) (by simp [State.queueSR]) rfl rfl

end

/-- What a special register's value depends on (R37, R38), but for the counts of ticks. -/
structure SRSame (s t : State) : Prop where
  id : t.core.id = s.core.id
  regs : t.core.ctl.regs = s.core.ctl.regs
  vis : t.core.vis = s.core.vis
  mx : t.core.mx = s.core.mx
  vec : t.core.vec = s.core.vec
  q : t.core.q = s.core.q
  slip : t.core.stall.slip = s.core.stall.slip
  die : t.sys.die = s.sys.die

theorem SRSame.readSR {s t : State} (h : SRSame s t) {k : Nat} (h8 : k ≠ 0x008) (h9 : k ≠ 0x009) :
    t.readSR k = s.readSR k := by
  unfold State.readSR Core.readHigh
  simp only [h.id, h.regs, h.vis, h.mx, h.vec, h.q, h.slip, h.die]
  by_cases hlow : k < 0x020
  · rw [if_pos hlow, if_pos hlow]
    split <;> first | rfl | contradiction
  · rw [if_neg hlow, if_neg hlow]

end Sys2Proof.Machine

namespace Sys2Proof.Machine

theorem SRSame.trans {s t u : State} (h : SRSame s t) (k : SRSame t u) : SRSame s u where
  id := k.id.trans h.id
  regs := k.regs.trans h.regs
  vis := k.vis.trans h.vis
  mx := k.mx.trans h.mx
  vec := k.vec.trans h.vec
  q := k.q.trans h.q
  slip := k.slip.trans h.slip
  die := k.die.trans h.die

theorem Noted.srSame {s t : State} (h : Noted s t) : SRSame s t := by
  obtain ⟨j, hj, -⟩ := h.core
  obtain ⟨bad, hbad⟩ := h.sys
  constructor <;> first | rw [hj] | rw [hbad]

theorem SRSame.queueSR (s : State) (e : Engine) (sr : BitVec 12) (v : DWord) : SRSame s (s.queueSR e sr v) := by
  constructor <;> simp [State.queueSR]

/-- Whether a core slips depends on its stall, its control core and its ticks (R149). -/
theorem Core.slips_congr {c d : Core} (hstall : c.stall = d.stall) (hctl : c.ctl = d.ctl) (htick : c.tick = d.tick)
    (hgtick : c.gtick = d.gtick) : c.slips = d.slips := by
  unfold Core.slips Core.stopReached Core.gheld
  rw [hstall, hctl, htick, hgtick]

theorem Noted.slips {s t : State} (h : Noted s t) : t.core.slips = s.core.slips := by
  obtain ⟨j, hj, -⟩ := h.core
  exact Core.slips_congr (by rw [hj]) (by rw [hj]) (by rw [hj]) (by rw [hj])

/-- SLIP counts no tick of a word that issues while the core does not stand stopped (R149). -/
theorem issue_slip {s : State} (h : noStep s = true) (hs : s.core.slips = false) :
    (ctlDone s.endSkip.clearReach).core.stall.slip = s.core.stall.slip := by
  unfold ctlDone ctlDoneWith
  rw [ctlTick_noStep ((noStep_eq (by simp) (by simp)).trans h)]
  have hslips : ((s.endSkip.clearReach.advance).updCtl fun c => { c with pcq := id c.pcq }).core.slips = false := by
    rw [← hs]
    unfold Core.slips Core.stopReached Core.gheld
    simp
  rw [State.pass_core, State.upd_core]
  simp only [Core.tickOn, hslips, Bool.false_eq_true, if_false]
  simp

theorem issue_srSame {s : State} (h : noStep s = true) (hs : s.core.slips = false) :
    SRSame s (ctlDone s.endSkip.clearReach) := by
  have hrest := issue_rest h
  exact ⟨hrest.id, hrest.regs, hrest.vis, hrest.mx, hrest.vec, hrest.q, issue_slip h hs, by rw [hrest.sys]⟩

/-- Each register of R89's queues has a number that is assigned, and none is ESTAT. -/
theorem srAssigned_of_queue {sr : BitVec 12} {e : Engine} (hq : srQueue sr.toNat = some e) :
    srAssigned sr.toNat = true ∧ sr ≠ 0x028 := by
  constructor
  · unfold srQueue at hq
    split at hq <;> first | (rename_i hn; rw [hn]; rfl) | cases hq
  · rintro rfl
    cases hq

/-- A write behind words of its engine stands in the queue, and no read sees it (R88, R117). -/
theorem mtsForm_queues {s : State} {i : Instr} {sr : BitVec 12} {x : DWord} {rs : List (Fin 32)} {e : Engine}
    (hi : mtsForm s i = some (sr, x, rs)) (hc : ctlCalm s rs = true) (hq : srQueue sr.toNat = some e)
    (hne : (s.core.eng e).queue ≠ []) (hslips : s.core.slips = false)
    (hw : srMayWrite s.core.ctl.bank1 sr.toNat = true) :
    ∃ t, exec i s = .next t ∧ RegSame [] [] s t ∧ Moves s t ∧ MemSame s t ∧ t.core.q = s.core.q ∧
      (t.core.eng e).queue = (s.core.eng e).queue ++ [.reg sr x] ∧
      ∀ k, k ≠ 0x008 → k ≠ 0x009 → t.readSR k = s.readSR k := by
  obtain ⟨note, hnote, hexec⟩ := exec_mtsForm_noted hi hc
  obtain ⟨ha, hestat⟩ := srAssigned_of_queue hq
  rw [mtsBody_writes ha hw hestat, State.writeSR_of_queued hq (by rwa [hnote.eng])] at hexec
  generalize note s = w at hnote hexec
  have hnu : noStep (w.queueSR e sr x) = true :=
    (noStep_eq (by simp [State.queueSR, hnote.ctl]) (by simp [State.queueSR, hnote.ctl])).trans (ctlCalm_noStep hc)
  have hsu : (w.queueSR e sr x).core.slips = false := by
    rw [← hslips, ← hnote.slips]
    exact Core.slips_congr (by simp [State.queueSR]) (by simp [State.queueSR]) (by simp [State.queueSR])
      (by simp [State.queueSR])
  have hrest := issue_rest hnu
  have hreg : RegSame [] [] s w := .of_banks (by rw [hnote.ctl]) (by rw [hnote.ctl]) (by rw [hnote.ctl])
  have hsame := (hnote.srSame.trans (.queueSR w e sr x)).trans (issue_srSame hnu hsu)
  refine ⟨_, hexec, (hreg.trans (.queueSR ..)).trans hrest.frame.reg,
    issue_moves hnu (hnote.stands.trans (.queueSR ..)), (hnote.memSame.trans (.queueSR _ _ _ _)).trans hrest.memSame,
    hsame.q, ?_, fun k h8 h9 => hsame.readSR h8 h9⟩
  rw [hrest.eng, ← hnote.eng]
  simp [State.queueSR]

/-! ### A write takes effect as the word before it issues (R88) -/

/-- A word that may leave runs its body, whatever stands behind it (R143). -/
theorem engWord_ready {e : Engine} {tk : Tok} {i : Instr} {s : State} {x : Entry} {rest : List QItem}
    (body : Entry → State → ERes) (hq : (s.core.eng e).queue = .word x :: rest) (hr : engReady e tk x s = true) :
    engWord e tk i s body = engFinish e tk x s (body x s) := by
  have hflush : s.core.flushRegs e = s.core := Core.flushRegs_none fun sr v t h => by rw [hq] at h; cases h
  have hhead : s.core.headOf e i = x := by unfold Core.headOf; rw [hq]
  unfold engReady at hr
  simp only [Bool.and_eq_true, Bool.not_eq_true', Option.isNone_iff_eq_none, decide_eq_false_iff_not] at hr
  obtain ⟨⟨⟨⟨⟨⟨⟨⟨hlate, hstarted⟩, hrollback⟩, hlast⟩, hlag⟩, hagrees⟩, hbreak⟩, hover⟩, hready⟩ := hr
  unfold engWord
  simp only [State.upd_self (f := fun c => c.flushRegs e) hflush, hhead]
  simp [hlate, hstarted, hrollback, hlast, hlag, hagrees, hbreak, hover, hready]

/-- Whether an item of an engine's queue is a register write. -/
def QItem.isReg : QItem → Bool
  | .reg _ _ => true
  | .word _ => false

/-- A register write of an engine's own registers is made (R88, R89). -/
def Core.makeReg (e : Engine) (c : Core) : QItem → Core
  | .reg sr v => if srQueue sr.toNat = some e then c.writeSR true sr.toNat v else c
  | .word _ => c

/-- The register writes that stand first in a queue are made, and leave it (R88). -/
theorem Core.flushRegs_eq (c : Core) (e : Engine) : c.flushRegs e
    = (((c.eng e).queue.takeWhile QItem.isReg).foldl (Core.makeReg e) c).setEng e
        fun x => { x with queue := x.queue.dropWhile QItem.isReg } := rfl

/-- The one write that stands in an engine's queue takes effect (R88). -/
theorem Core.flushRegs_reg {c : Core} {e : Engine} {sr : BitVec 12} {v : DWord} (hq : (c.eng e).queue = [.reg sr v])
    (hsr : srQueue sr.toNat = some e) : c.flushRegs e
      = (c.writeSR true sr.toNat v).setEng e fun x => { x with queue := x.queue.dropWhile QItem.isReg } := by
  rw [Core.flushRegs_eq, hq, List.takeWhile_cons_of_pos rfl, List.takeWhile_nil, List.foldl_cons, List.foldl_nil,
    Core.makeReg, if_pos hsr]

theorem WritesSR.eng {n : Nat} {c d : Core} (h : WritesSR n c d) (e : Engine) : d.eng e = c.eng e := by
  obtain ⟨regs, vis, mx, vec, q, hd⟩ := h.core
  rw [hd]
  cases e <;> rfl

/-- As a word issues before the one write in its queue, the write is made, and the queue is empty (R88). -/
theorem issueWord_flush {e : Engine} {tk : Tok} {x : Entry} {w : Issued} {s : State} {sr : BitVec 12} {v : DWord}
    (hq : (s.core.eng e).queue = [.word x, .reg sr v]) (hsr : srQueue sr.toNat = some e) :
    ∃ (c : Core) (f : Eng → Eng), (issueWord e tk x w s).core = (c.writeSR true sr.toNat v).setEng e f ∧
      ((issueWord e tk x w s).core.eng e).queue = [] := by
  have heng : ∀ (c : Core) (tok : Vector Nat 8) (stall : Stall), ({ c with tok := tok, stall := stall } : Core).eng e = c.eng e :=
    fun c _ _ => by cases e <;> rfl
  unfold issueWord
  dsimp only
  rw [State.upd_core]
  generalize hc : ({ s.core.setEng e _ with tok := _, stall := _ } : Core) = c
  have hcq : (c.eng e).queue = [.reg sr v] := by
    rw [← hc, heng, Core.eng_setEng_self]
    simp [Eng.dropHead, hq]
  rw [Core.flushRegs_reg hcq hsr]
  refine ⟨c, _, rfl, ?_⟩
  rw [Core.eng_setEng_self, (WritesSR.writeSR ..).eng, hcq]
  rfl

/-- The low bits of a value. -/
theorem truncate_eq_and (v : DWord) : (v.truncate 32).zeroExtend 64 = v &&& srMask true 0x300 := by
  apply BitVec.eq_of_toNat_eq
  have hmask : (srMask true 0x300).toNat = 2 ^ 32 - 1 := by decide
  rw [BitVec.toNat_and, hmask, Nat.and_two_pow_sub_one_eq_mod]
  simp
  omega

/-- The bits of a value under a shifted mask. -/
theorem and_shiftLeft_eq (x m k : Nat) : x &&& (m <<< k) = ((x >>> k) &&& m) <<< k := by
  apply Nat.eq_of_testBit_eq
  intro i
  by_cases h : k ≤ i <;> simp [Nat.testBit_shiftLeft, Nat.testBit_shiftRight, h]

/-- A flag register's image, its five flags and its count of NaN results, keeps the bits of its mask (R136). -/
theorem flagReg_image_ofImage (v : DWord) : (FlagReg.ofImage v).image = v &&& 0xFFFFFFFF001F := by
  have hfields : v.toNat &&& 0xFFFFFFFF001F = v.toNat % 2 ^ 5 + v.toNat / 2 ^ 16 % 2 ^ 32 * 2 ^ 16 := by
    have hcount := and_shiftLeft_eq v.toNat (2 ^ 32 - 1) 16
    rw [Nat.and_two_pow_sub_one_eq_mod, Nat.shiftRight_eq_div_pow] at hcount
    have hflags : v.toNat % 2 ^ 5 < 2 ^ 16 := by omega
    rw [show 0xFFFFFFFF001F = (2 ^ 5 - 1) ||| ((2 ^ 32 - 1) <<< 16) by decide, Nat.and_or_distrib_left, hcount,
      Nat.and_two_pow_sub_one_eq_mod, Nat.or_comm, ← Nat.shiftLeft_add_eq_or_of_lt hflags, Nat.shiftLeft_eq]
    omega
  apply BitVec.eq_of_toNat_eq
  rw [BitVec.toNat_and, show (0xFFFFFFFF001F : DWord).toNat = 0xFFFFFFFF001F by decide, hfields]
  simp only [FlagReg.image, FlagReg.ofImage, bitsOf, BitVec.toNat_ofNat]
  omega

/-- Settles O15: a write behind words joins the queue, and leaves it as the word before it issues. -/
theorem queuedRegisterWrite : Obligations.QueuedRegisterWrite := by
  refine ⟨fun s a sr e hc hq hne hslips hw => ⟨?mts, fun imm => ?mtsi, fun k => ?mtsr⟩,
    fun s a sr imm k hc ha hq hne hw => ⟨?mtsiDone, ?mtsrDone⟩, fun s tk x sr v hsr hq hr => ?mnop,
    fun s tk x v hq hr => ?vnop⟩
  case mts => exact mtsForm_queues rfl hc hq hne hslips hw
  case mtsi =>
    have hc0 : ctlCalm s [] = true := by simp [ctlCalm, ctlCalm_noStep hc]
    exact mtsForm_queues rfl hc0 hq hne hslips hw
  case mtsr => exact mtsForm_queues rfl hc hq hne hslips hw
  case mtsiDone =>
    have hc0 : ctlCalm s [] = true := by simp [ctlCalm, ctlCalm_noStep hc]
    exact mtsForm_completes rfl hc0 ha hq hne hw
  case mtsrDone => exact mtsForm_completes rfl hc ha hq hne hw
  case mnop =>
    have hexec : exec (.mnop tk) s = .next (issueWord .matrix tk x {} s).pass :=
      engWord_ready (e := .matrix) (i := .mnop tk) (fun _ u => .issue u {}) hq hr
    rcases hsr with rfl | rfl
    · obtain ⟨c, f, hcore, hempty⟩ := issueWord_flush (e := .matrix) (tk := tk) (w := {}) hq rfl
      refine ⟨_, hexec, hempty, ?_⟩
      change (issueWord .matrix tk x {} s).core.mx.epcolbase.zeroExtend 64 = _
      rw [hcore, Core.setEng_mx]
      exact truncate_eq_and v
    · obtain ⟨c, f, hcore, hempty⟩ := issueWord_flush (e := .matrix) (tk := tk) (w := {}) hq rfl
      refine ⟨_, hexec, hempty, ?_⟩
      change (issueWord .matrix tk x {} s).core.mx.mflags.image = _
      rw [hcore, Core.setEng_mx]
      exact flagReg_image_ofImage v
  case vnop =>
    have hexec : exec (.vnop tk) s = .next (issueWord .vector tk x {} s).pass := by
      change execVnop tk s = _
      unfold execVnop vWord
      rw [engWord_ready (e := .vector) _ hq hr]
      have hshadow : vShadow s.core [] [] = none := by
        unfold vShadow
        split <;> rfl
      simp [srcQueues, srcRegs, Core.dstRoom, hshadow, noCheck, vReads, State.readsIf, engFinish]
    obtain ⟨c, f, hcore, hempty⟩ := issueWord_flush (e := .vector) (tk := tk) (w := {}) hq rfl
    refine ⟨_, hexec, hempty, ?_⟩
    change (issueWord .vector tk x {} s).core.vec.vflags.image = _
    rw [hcore, Core.setEng_vec]
    exact flagReg_image_ofImage v

end Sys2Proof.Machine

namespace Sys2Proof.Machine

/-! ### NGO starts a nest, or goes on with a saved one (R104, R108, R155) -/

/-- A tick of the core leaves everything but what counts ticks (R286). -/
theorem CtlFrame.tickOn (s : State) : CtlFrame [] [] s (s.upd Core.tickOn) where
  reg := .of_banks rfl rfl rfl
  unit := ⟨fun e => by cases e <;> rfl, rfl, rfl, rfl, rfl, rfl,
    fun h => Core.tickOn_sd _ (Core.slips_of_stoodStill h), by simp⟩
  regs := rfl
  vis := rfl
  q := rfl
  jig := fun h => ⟨h, rfl⟩
  others := rfl
  sys := rfl
  mem := .of_eq rfl rfl rfl rfl

/-- A nest runs, and the saved positions and the notes of LIVE are others. -/
def State.putRun (s : State) (r : NestRun) (saved : Vector (Option NestRun) 2)
    (live : Vector (Vector (Option NestPlace) 16) 2) : State :=
  s.updCtl fun c => { c with nest := some r, nestSaved := saved, liveSet := live }

theorem CtlFrame.putRun (s : State) (r : NestRun) (saved : Vector (Option NestRun) 2)
    (live : Vector (Vector (Option NestPlace) 16) 2) : CtlFrame [] [] s (s.putRun r saved live) where
  reg := .of_banks rfl rfl rfl
  unit := ⟨fun e => by cases e <;> rfl, rfl, rfl, rfl, rfl, rfl, fun _ => rfl, rfl⟩
  regs := rfl
  vis := rfl
  q := rfl
  jig := fun h => ⟨h, rfl⟩
  others := rfl
  sys := rfl
  mem := .of_eq rfl rfl rfl rfl

/-- The state after an NGO with which its nest begins. -/
def State.begun (s : State) (f : Vis → Vis) (r : NestRun) (saved : Vector (Option NestRun) 2)
    (live : Vector (Vector (Option NestPlace) 16) 2) : State :=
  (((s.updVis f).putRun r saved live).upd Core.tickOn).pass

theorem State.begun_keeps (s : State) (f : Vis → Vis) (r : NestRun) (saved : Vector (Option NestRun) 2)
    (live : Vector (Vector (Option NestPlace) 16) 2) : RegSame [] [] s (s.begun f r saved live) ∧
      UnitSame s (s.begun f r saved live) ∧ MemSame s (s.begun f r saved live) ∧
      (s.begun f r saved live).core.q = s.core.q :=
  keeps_of_updVis (f := f) (((CtlFrame.putRun _ r saved live).trans (.tickOn _)).trans (.pass _))

/-- NGO with no nest running (R104). -/
theorem exec_ngo_idle {s : State} (k : Fin 2) (n : BitVec 12) (hg : ctlGoes s [] = true) (hnest : s.core.ctl.nest = none) :
    exec (.ngo k n) s = finish s (match s.core.savedAt k s.core.ctl.pcq.q0.addr with
      | some r => .raw ((nestResume r s).upd Core.tickOn)
      | none => if s.storeBad (s.core.ctl.pcq.q0.addr + 4) (4 * n.toNat) then .raw (storeError s)
        else match nestInvalid s.core k s.core.ctl.pcq.q0.addr n.toNat with
        | some e => .trap { cause := 0x1A, info := BitVec.ofNat 64 e, addr := s.core.ctl.pcq.q0.addr }
        | none => .raw ((nestStart k n.toNat s.core.ctl.pcq.q0.addr s).upd Core.tickOn)) := by
  change execNgo k n s = _
  unfold execNgo
  rw [hnest]
  exact ctlWord_goes hg _

section
variable {s : State} {k : Fin 2} {n : BitVec 12} (hg : ctlGoes s [] = true) (hnest : s.core.ctl.nest = none)
include hg hnest

theorem ngo_refused {e : Nat} (hsaved : s.core.savedAt k s.core.ctl.pcq.q0.addr = none)
    (hbad : s.storeBad (s.core.ctl.pcq.q0.addr + 4) (4 * n.toNat) = false)
    (hinvalid : nestInvalid s.core k s.core.ctl.pcq.q0.addr n.toNat = some e) : exec (.ngo k n) s
      = .next (takeTrap { cause := 0x1A, info := BitVec.ofNat 64 e, addr := s.core.ctl.pcq.q0.addr } s).pass := by
  rw [exec_ngo_idle k n hg hnest, hsaved]
  dsimp only
  rw [if_neg (by rw [hbad]; exact Bool.false_ne_true), hinvalid]
  rfl

theorem ngo_starts (hsaved : s.core.savedAt k s.core.ctl.pcq.q0.addr = none)
    (hbad : s.storeBad (s.core.ctl.pcq.q0.addr + 4) (4 * n.toNat) = false)
    (hvalid : nestInvalid s.core k s.core.ctl.pcq.q0.addr n.toNat = none) : exec (.ngo k n) s
      = .next (s.begun (nestCur k (List.replicate 6 0))
        { table := k, addr := s.core.ctl.pcq.q0.addr, n := n.toNat, iter := 0, cur := List.replicate 6 0, next := 0
          snap := s.core.vis.nest[k], steps := s.core.vis.st.map (·.step) }
        (s.core.ctl.nestSaved.set k.val none k.isLt) (s.core.ctl.liveSet.set k.val (.replicate 16 none) k.isLt)) := by
  rw [exec_ngo_idle k n hg hnest, hsaved]
  dsimp only
  rw [if_neg (by rw [hbad]; exact Bool.false_ne_true), hvalid]
  rfl

end

/-- The table's SAVED bit is taken back as its nest goes on (R108). -/
def unsave (k : Fin 2) (v : Vis) : Vis :=
  { v with nest := v.nest.set k.val { v.nest[k] with saved := false } k.isLt }

theorem unsave_saved (k : Fin 2) (v : Vis) : (unsave k v).nest[k].saved = false := by simp [unsave]

/-- A nest goes on from the position that its table holds (R108, R154). -/
theorem ngo_resumes {s : State} {k : Fin 2} {n : BitVec 12} {r : NestRun} (hg : ctlGoes s [] = true)
    (hnest : s.core.ctl.nest = none) (hsaved : s.core.savedAt k s.core.ctl.pcq.q0.addr = some r) (hk : r.table = k) :
    ∃ live, exec (.ngo k n) s = .next (s.begun (unsave k) (r.resumed s.core.vis.nest[k])
      (s.core.ctl.nestSaved.set k.val none k.isLt) live) := by
  subst hk
  rw [exec_ngo_idle _ n hg hnest, hsaved]
  exact ⟨_, rfl⟩

theorem getD_replicate_zero (l : Fin 6) (d : Nat) : (List.replicate 6 0).getD l.val d = 0 := by
  rw [List.getD_eq_getElem _ _ (by simp), List.getElem_replicate]

theorem nestCur_zero (k : Fin 2) (v : Vis) (l : Fin 6) :
    (nestCur k (List.replicate 6 0) v).nest[k].level[l].cur = 0 := by
  simp [nestCur, -List.reduceReplicate]

theorem NestTab.cur_getD (t : NestTab) (l : Fin 6) :
    (t.level.toList.map (·.cur.toNat)).getD l.val 0 = t.level[l].cur.toNat := by
  simp

/-- A nest that NGO starts is at iteration 0, with the table as it stands (R104, R155). -/
theorem ngo_starts_spec {s : State} {k : Fin 2} {n : BitVec 12} (hg : ctlGoes s [] = true)
    (hnest : s.core.ctl.nest = none) (hsaved : s.core.savedAt k s.core.ctl.pcq.q0.addr = none)
    (hbad : s.storeBad (s.core.ctl.pcq.q0.addr + 4) (4 * n.toNat) = false)
    (hvalid : nestInvalid s.core k s.core.ctl.pcq.q0.addr n.toNat = none) :
    ∃ t r, exec (.ngo k n) s = .next t ∧ RegSame [] [] s t ∧ UnitSame s t ∧ MemSame s t ∧ t.core.q = s.core.q ∧
      t.core.vis.st = s.core.vis.st ∧ t.core.ctl.pcq = s.core.ctl.pcq ∧ t.core.tick = s.core.tick + 1 ∧
      t.core.ctl.nest = some r ∧ t.core.ctl.nestSaved[k] = none ∧ r.table = k ∧ r.addr = s.core.ctl.pcq.q0.addr ∧
      r.n = n.toNat ∧ r.iter = 0 ∧ r.next = 0 ∧ (∀ l : Fin 6, r.cur.getD l.val 1 = 0) ∧
      r.snap = s.core.vis.nest[k] ∧ ∀ l : Fin 6, t.core.vis.nest[k].level[l].cur = 0 := by
  obtain ⟨hreg, hunit, hmem, hq⟩ := s.begun_keeps (nestCur k (List.replicate 6 0)) _ _ _
  exact ⟨_, _, ngo_starts hg hnest hsaved hbad hvalid, hreg, hunit, hmem, hq, rfl, rfl, rfl, rfl,
    by simp [State.begun, State.putRun], rfl, rfl, rfl, rfl, rfl, fun l => getD_replicate_zero l 1, rfl,
    nestCur_zero k s.core.vis⟩

/-- A nest that NGO goes on with is at the position that its table holds (R108, R154). -/
theorem ngo_resumes_spec {s : State} {k : Fin 2} {n : BitVec 12} {r0 : NestRun} (hg : ctlGoes s [] = true)
    (hnest : s.core.ctl.nest = none) (hsaved : s.core.savedAt k s.core.ctl.pcq.q0.addr = some r0) (hk : r0.table = k) :
    ∃ t r, exec (.ngo k n) s = .next t ∧ RegSame [] [] s t ∧ UnitSame s t ∧ MemSame s t ∧ t.core.q = s.core.q ∧
      t.core.vis.st = s.core.vis.st ∧ t.core.ctl.pcq = s.core.ctl.pcq ∧ t.core.tick = s.core.tick + 1 ∧
      t.core.ctl.nest = some r ∧ t.core.ctl.nestSaved[k] = none ∧ r.table = k ∧ r.addr = s.core.ctl.pcq.q0.addr ∧
      r.snap = r0.snap ∧ (∀ l : Fin 6, r.cur.getD l.val 0 = s.core.vis.nest[k].level[l].cur.toNat) ∧
      (s.core.vis.nest[k].next ≠ BitVec.ofNat 6 r0.next → r.next = s.core.vis.nest[k].next.toNat) ∧
      r.iter = tagOf r.cur r.snap.trips ∧ t.core.vis.nest[k].saved = false := by
  obtain ⟨live, hexec⟩ := ngo_resumes (n := n) hg hnest hsaved hk
  obtain ⟨hreg, hunit, hmem, hq⟩ := s.begun_keeps (unsave k) (r0.resumed s.core.vis.nest[k])
    (s.core.ctl.nestSaved.set k.val none k.isLt) live
  have haddr : r0.addr = s.core.ctl.pcq.q0.addr := by
    obtain ⟨-, h⟩ := Option.filter_eq_some_iff.mp hsaved
    simp only [Bool.and_eq_true, decide_eq_true_eq] at h
    exact h.1
  exact ⟨_, _, hexec, hreg, hunit, hmem, hq, rfl, rfl, rfl, rfl, by simp [State.begun, State.putRun], hk, haddr, rfl,
    fun l => NestTab.cur_getD _ l, fun hmoved => if_neg hmoved, rfl, unsave_saved k s.core.vis⟩

end Sys2Proof.Machine

namespace Sys2Proof.Machine

/-! ### NBRK takes the words of later iterations back (R88, R106) -/

/-- A word of an engine's queue that a break of iteration b of table k removes (R106). -/
theorem afterBreak_iff {k : Fin 2} {b : Nat} {q : QItem} :
    afterBreak k b q = true ↔ ∃ x j, q = .word x ∧ x.tag = some (k, j) ∧ b < j := by
  unfold afterBreak
  cases q with
  | reg sr v => simp
  | word x =>
    cases htag : x.tag with
    | none => simp [htag]
    | some p =>
      obtain ⟨t, j⟩ := p
      simp [htag]

theorem mem_word_dropWhile {l : List QItem} {y : Entry} : .word y ∈ l.dropWhile QItem.isReg ↔ .word y ∈ l := by
  induction l with
  | nil => rfl
  | cons x t ih =>
    cases x with
    | reg sr v => rw [List.dropWhile_cons_of_pos rfl, ih]; simp
    | word z => rw [List.dropWhile_cons_of_neg (by simp [QItem.isReg])]

theorem dropWhile_ne_reg (l : List QItem) (sr : BitVec 12) (v : DWord) (q : List QItem) :
    l.dropWhile QItem.isReg ≠ .reg sr v :: q := by
  induction l with
  | nil => simp
  | cons x t ih =>
    cases x with
    | reg sr v => rwa [List.dropWhile_cons_of_pos rfl]
    | word z => rw [List.dropWhile_cons_of_neg (by simp [QItem.isReg])]; simp

/-- The registers that an engine keeps in order are the matrix and vector paths' own, and the count of dq (R89). -/
structure MakesRegs (e : Engine) (c d : Core) : Prop where
  core : ∃ mx vec dq, d = { c with mx := mx, vec := vec, q := { c.q with dq := dq } }
  dq : e ≠ .vector → d.q.dq = c.q.dq

theorem MakesRegs.refl (e : Engine) (c : Core) : MakesRegs e c c := ⟨⟨_, _, _, rfl⟩, fun _ => rfl⟩

theorem MakesRegs.trans {e : Engine} {b c d : Core} (h : MakesRegs e b c) (k : MakesRegs e c d) : MakesRegs e b d := by
  obtain ⟨mx, vec, dq, hc⟩ := h.core
  obtain ⟨mx', vec', dq', hd⟩ := k.core
  refine ⟨⟨mx', vec', dq', by rw [hd, hc]⟩, fun he => (k.dq he).trans (h.dq he)⟩

theorem MakesRegs.writeSR {e : Engine} {n : Nat} (c : Core) (h : srQueue n = some e) (v : DWord) :
    MakesRegs e c (c.writeSR true n v) := by
  unfold srQueue at h
  split at h
  case h_6 => exact ⟨⟨_, _, _, rfl⟩, fun he => absurd (Option.some.inj h).symm he⟩
  case h_7 => cases h
  all_goals exact ⟨⟨_, _, _, rfl⟩, fun _ => rfl⟩

theorem MakesRegs.makeReg (e : Engine) (c : Core) (i : QItem) : MakesRegs e c (c.makeReg e i) := by
  cases i with
  | word x => exact .refl e c
  | reg sr v =>
    unfold Core.makeReg
    dsimp only
    split
    next h => exact .writeSR c h v
    · exact .refl e c

theorem MakesRegs.foldl (e : Engine) (l : List QItem) (c : Core) : MakesRegs e c (l.foldl (Core.makeReg e) c) := by
  induction l generalizing c with
  | nil => exact .refl e c
  | cons i t ih => exact (MakesRegs.makeReg e c i).trans (ih _)

theorem MakesRegs.eng {e : Engine} {c d : Core} (h : MakesRegs e c d) (e' : Engine) : d.eng e' = c.eng e' := by
  obtain ⟨mx, vec, dq, hd⟩ := h.core
  rw [hd]
  cases e' <;> rfl

/-- One entry that a break removes gives its advance of LIVE back (R106, R153). -/
def Core.unAdvStep (c : Core) (r : NestRun) (v : Vis) : QItem → Vis
  | .word e => (match decode e.word.toNat none with
    | .ok (.ladv _ st l) =>
      if c.writtenSince r e st then v else
      { v with st := v.st.set st.val { v.st[st] with
          live := v.st[st].live - (e.snap.st[st].step.toList.getD l.val 0).signExtend 48 } st.isLt }
    | _ => v)
  | .reg _ _ => v

theorem Core.unAdv_eq_foldl (c : Core) (r : NestRun) (q : List QItem) (v : Vis) :
    c.unAdv r q v = q.foldl (c.unAdvStep r) v := rfl

theorem Core.unAdvStep_eq (c : Core) (r : NestRun) (v : Vis) (i : QItem) : ∃ st, c.unAdvStep r v i = { v with st := st } := by
  unfold Core.unAdvStep
  split
  · split
    · split
      · exact ⟨v.st, rfl⟩
      · exact ⟨_, rfl⟩
    · exact ⟨v.st, rfl⟩
  · exact ⟨v.st, rfl⟩

/-- Giving advances back changes LIVE alone. -/
theorem Core.unAdv_eq (c : Core) (r : NestRun) (q : List QItem) (v : Vis) : ∃ st, c.unAdv r q v = { v with st := st } := by
  rw [Core.unAdv_eq_foldl]
  induction q generalizing v with
  | nil => exact ⟨v.st, rfl⟩
  | cons i t ih =>
    obtain ⟨st, hst⟩ := c.unAdvStep_eq r v i
    obtain ⟨st', hst'⟩ := ih (c.unAdvStep r v i)
    exact ⟨st', by rw [List.foldl_cons, hst', hst]⟩

/-- Words that are no LADV give nothing back. -/
theorem Core.unAdv_self (c : Core) (r : NestRun) {q : List QItem} (v : Vis)
    (h : ∀ y, .word y ∈ q → ∀ tk st l, decode y.word.toNat none ≠ .ok (.ladv tk st l)) : c.unAdv r q v = v := by
  rw [Core.unAdv_eq_foldl]
  refine foldl_eq_self (fun i hi v => ?_) v
  cases i with
  | reg sr x => rfl
  | word y =>
    unfold Core.unAdvStep
    dsimp only
    split
    next tk st l hdec => exact absurd hdec (h y hi tk st l)
    · rfl

/-- A break changes the engines and their queues, LIVE, and what the writes that then stand first reach (R88, R106). -/
structure TakesBack (c d : Core) : Prop where
  core : ∃ load matrix vector copy stream st mx vec dq, d = { c with
    load := load, matrix := matrix, vector := vector, copy := copy, stream := stream
    vis := { c.vis with st := st }, mx := mx, vec := vec, q := { c.q with dq := dq } }

namespace TakesBack
variable {b c d : Core}

theorem refl (c : Core) : TakesBack c c := ⟨⟨_, _, _, _, _, _, _, _, _, rfl⟩⟩

theorem trans (h : TakesBack b c) (k : TakesBack c d) : TakesBack b d := by
  obtain ⟨_, _, _, _, _, _, _, _, _, hc⟩ := h.core
  obtain ⟨_, _, _, _, _, _, _, _, _, hd⟩ := k.core
  exact ⟨⟨_, _, _, _, _, _, _, _, _, by rw [hd, hc]⟩⟩

theorem setEng (c : Core) (e : Engine) (f : Eng → Eng) : TakesBack c (c.setEng e f) := by
  cases e <;> exact ⟨⟨_, _, _, _, _, _, _, _, _, rfl⟩⟩

theorem of_makesRegs {e : Engine} (h : MakesRegs e c d) : TakesBack c d := by
  obtain ⟨_, _, _, hd⟩ := h.core
  rw [hd]
  exact ⟨⟨_, _, _, _, _, _, _, _, _, rfl⟩⟩

theorem of_vis (c : Core) {v : Vis} (h : ∃ st, v = { c.vis with st := st }) : TakesBack c { c with vis := v } := by
  obtain ⟨_, rfl⟩ := h
  exact ⟨⟨_, _, _, _, _, _, _, _, _, rfl⟩⟩

end TakesBack

/-- A queue without the words of later iterations, and without the writes that then stand first. -/
def keptQueue (r : NestRun) (q : List QItem) : List QItem :=
  (q.filter fun i => !afterBreak r.table r.iter i).dropWhile QItem.isReg

/-- LIVE without the advances of the words that leave one queue, and that queue without them. -/
def Core.filtered (r : NestRun) (e : Engine) (c : Core) : Core :=
  ({ c with vis := c.unAdv r ((c.eng e).queue.filter (afterBreak r.table r.iter)) c.vis } : Core).setEng e fun x =>
    { x with queue := x.queue.filter fun q => !afterBreak r.table r.iter q }

theorem breakQueue_eq (r : NestRun) (s : State) (e : Engine) :
    breakQueue r s e = s.upd fun c => (c.filtered r e).flushRegs e := rfl

section
variable (r : NestRun) (c : Core) (e : Engine)

theorem TakesBack.filtered : TakesBack c (c.filtered r e) :=
  (TakesBack.of_vis c (c.unAdv_eq ..)).trans (.setEng ..)

theorem Core.filtered_eng (e' : Engine) : (c.filtered r e).eng e'
    = if e' = e then { c.eng e with queue := (c.eng e).queue.filter fun q => !afterBreak r.table r.iter q }
      else c.eng e' := by
  have hvis : ∀ e' v, ({ c with vis := v } : Core).eng e' = c.eng e' := fun e' _ => by cases e' <;> rfl
  unfold Core.filtered
  simp only [Core.eng_setEng, hvis]

theorem TakesBack.flushRegs : TakesBack c (c.flushRegs e) := by
  rw [Core.flushRegs_eq]
  exact (TakesBack.of_makesRegs (.foldl ..)).trans (.setEng ..)

theorem Core.flushRegs_queue (e' : Engine) : ((c.flushRegs e).eng e').queue
    = if e' = e then (c.eng e).queue.dropWhile QItem.isReg else (c.eng e').queue := by
  rw [Core.flushRegs_eq, Core.eng_setEng]
  split
  · exact congrArg (fun g : Eng => g.queue.dropWhile QItem.isReg) ((MakesRegs.foldl ..).eng e)
  · rw [(MakesRegs.foldl ..).eng]

theorem Core.flushRegs_st : (c.flushRegs e).vis.st = c.vis.st := by
  obtain ⟨mx, vec, dq, h⟩ := (MakesRegs.foldl e ((c.eng e).queue.takeWhile QItem.isReg) c).core
  rw [Core.flushRegs_eq, Core.setEng_vis, h]

/-- The count of dq is a register of the vector engine (R89). -/
theorem Core.flushRegs_dq (h : e = .vector → ∀ sr v, .reg sr v ∉ (c.eng e).queue) : (c.flushRegs e).q.dq = c.q.dq := by
  rw [Core.flushRegs_eq, Core.setEng_q]
  by_cases he : e = .vector
  · have hnone : (c.eng e).queue.takeWhile QItem.isReg = [] := by
      cases hq : (c.eng e).queue with
      | nil => rfl
      | cons i t =>
        cases i with
        | word x => rfl
        | reg sr v => exact absurd (hq ▸ List.mem_cons_self) (h he sr v)
    rw [hnone]
    rfl
  · exact (MakesRegs.foldl ..).dq he

theorem TakesBack.broken : TakesBack c ((c.filtered r e).flushRegs e) :=
  (TakesBack.filtered r c e).trans (.flushRegs ..)

theorem Core.broken_queue (e' : Engine) : (((c.filtered r e).flushRegs e).eng e').queue
    = if e' = e then keptQueue r (c.eng e).queue else (c.eng e').queue := by
  rw [Core.flushRegs_queue, Core.filtered_eng, Core.filtered_eng]
  split
  · rw [if_pos rfl]
    rfl
  · rfl

theorem Core.broken_dq (h : e = .vector → ∀ sr v, .reg sr v ∉ (c.eng e).queue) :
    ((c.filtered r e).flushRegs e).q.dq = c.q.dq := by
  rw [Core.flushRegs_dq]
  · exact congrArg Queues.dq (Core.setEng_q ..)
  · intro he sr v hmem
    rw [Core.filtered_eng, if_pos rfl] at hmem
    exact h he sr v (List.mem_of_mem_filter hmem)

theorem Core.broken_st (h : ∀ y, .word y ∈ (c.eng e).queue → afterBreak r.table r.iter (.word y) = true →
    ∀ tk st l, decode y.word.toNat none ≠ .ok (.ladv tk st l)) :
    ((c.filtered r e).flushRegs e).vis.st = c.vis.st := by
  rw [Core.flushRegs_st]
  refine (congrArg Vis.st (Core.setEng_vis ..)).trans (congrArg Vis.st (c.unAdv_self r c.vis fun y hy => ?_))
  obtain ⟨hmem, hgone⟩ := List.mem_filter.mp hy
  exact h y hmem hgone

end

/-- NBRK breaks the queues of some engines, each once. -/
def Core.breakAll (r : NestRun) (es : List Engine) (c : Core) : Core :=
  es.foldl (fun c e => (c.filtered r e).flushRegs e) c

theorem foldl_breakQueue (r : NestRun) (es : List Engine) (s : State) :
    es.foldl (breakQueue r) s = s.upd (Core.breakAll r es) := by
  induction es generalizing s with
  | nil => rfl
  | cons e es ih => rw [List.foldl_cons, ih, breakQueue_eq]; rfl

section
variable (r : NestRun) (es : List Engine) (c : Core)

theorem TakesBack.breakAll : TakesBack c (c.breakAll r es) := by
  induction es generalizing c with
  | nil => exact .refl c
  | cons e es ih => exact (TakesBack.broken r c e).trans (ih _)

theorem Core.breakAll_queue (hes : es.Nodup) (e : Engine) : ((c.breakAll r es).eng e).queue
    = if e ∈ es then keptQueue r (c.eng e).queue else (c.eng e).queue := by
  induction es generalizing c with
  | nil => rfl
  | cons e' es ih =>
    obtain ⟨hnot, hes⟩ := List.nodup_cons.mp hes
    rw [show c.breakAll r (e' :: es) = ((c.filtered r e').flushRegs e').breakAll r es from rfl, ih _ hes,
      Core.broken_queue]
    by_cases he : e = e'
    · subst he
      simp [hnot]
    · simp [he]

theorem Core.breakAll_dq (h : ∀ sr v, .reg sr v ∉ c.vector.queue) (hes : es.Nodup) : (c.breakAll r es).q.dq = c.q.dq := by
  induction es generalizing c with
  | nil => rfl
  | cons e es ih =>
    obtain ⟨hnot, hes⟩ := List.nodup_cons.mp hes
    have hfirst : ((c.filtered r e).flushRegs e).q.dq = c.q.dq := Core.broken_dq r c e fun he => he ▸ h
    refine (ih _ (fun sr v hmem => ?_) hes).trans hfirst
    change QItem.reg sr v ∈ (((c.filtered r e).flushRegs e).eng .vector).queue at hmem
    rw [Core.broken_queue] at hmem
    split at hmem
    next he =>
      rw [← he] at hmem
      exact h sr v (List.mem_of_mem_filter (List.IsSuffix.mem hmem (List.dropWhile_suffix _)))
    · exact h sr v hmem

/-- Where no word that leaves is an LADV, the break leaves LIVE. -/
theorem Core.breakAll_st (hes : es.Nodup) (h : ∀ e ∈ es, ∀ y, .word y ∈ (c.eng e).queue →
    afterBreak r.table r.iter (.word y) = true → ∀ tk st l, decode y.word.toNat none ≠ .ok (.ladv tk st l)) :
    (c.breakAll r es).vis.st = c.vis.st := by
  induction es generalizing c with
  | nil => rfl
  | cons e es ih =>
    obtain ⟨hnot, hes⟩ := List.nodup_cons.mp hes
    refine (ih _ hes fun e' he' => ?_).trans (Core.broken_st r c e (h e List.mem_cons_self))
    rw [Core.broken_queue, if_neg (show e' ≠ e from fun hee => hnot (hee ▸ he'))]
    exact h e' (List.mem_cons_of_mem _ he')

end

/-- The five engines. -/
def allEngines : List Engine := [.load, .matrix, .vector, .copy, .stream]

theorem mem_allEngines (e : Engine) : e ∈ allEngines := by cases e <;> decide

/-- A word stays in its queue where no break removes it. -/
theorem mem_keptQueue {r : NestRun} {q : List QItem} {y : Entry} :
    .word y ∈ keptQueue r q ↔ .word y ∈ q ∧ ¬ afterBreak r.table r.iter (.word y) = true := by
  unfold keptQueue
  rw [mem_word_dropWhile, List.mem_filter, Bool.not_eq_true', Bool.not_eq_true]

/-- What a break does to a core once the words of later iterations are taken back (R106). -/
def Core.endBreak (r : NestRun) (c : Core) : Core :=
  { c with vis := moveLive (c.breakStep r) c.vis, ctl := { c.ctl with nest := some { r with broken := true, ahead := none } } }

theorem updVis_putNest_eq (r : NestRun) (s : State) :
    (s.updVis (moveLive (s.core.breakStep r))).putNest { r with broken := true, ahead := none }
      = s.upd (Core.endBreak r) := rfl

/-- What NBRK does in a running nest of its table, its condition set (R106). -/
def State.nestBroken (s : State) (r : NestRun) : State := (s.upd (Core.breakAll r allEngines)).upd (Core.endBreak r)

theorem State.foldl_breakQueue_eq (s : State) (r : NestRun) :
    (let u := [Engine.load, .matrix, .vector, .copy, .stream].foldl (breakQueue r) s
     (u.updVis (moveLive (u.core.breakStep r))).putNest { r with broken := true, ahead := none }) = s.nestBroken r := by
  dsimp only
  rw [show [Engine.load, .matrix, .vector, .copy, .stream] = allEngines from rfl, foldl_breakQueue, updVis_putNest_eq,
    State.nestBroken]

/-- NBRK in a running nest of its table with its condition set, and otherwise (R106). -/
theorem exec_nbrk {s : State} (sd : Fin 16) (k : Fin 2) (hg : ctlGoes s [] = true) : exec (.nbrk sd k) s = finish s
    (match s.core.ctl.nest with
      | some r => if r.table = k ∧ (s.core.steer sd).cond = true then
          .issue ((s.unreplayableIf (s.taintS sd).1).nestBroken r) else .issue (s.unreplayableIf (s.taintS sd).1)
      | none => .issue (s.unreplayableIf (s.taintS sd).1)) := by
  have hframe := CtlFrame.unreplayableIf s (s.taintS sd).1
  change execNbrk sd k s = _
  unfold execNbrk
  rw [ctlWord_goes hg]
  dsimp only
  rw [(Stands.unreplayableIf s _).nest]
  cases s.core.ctl.nest with
  | none => rfl
  | some r =>
    dsimp only
    rw [hframe.reg.steer sd List.not_mem_nil, ← State.foldl_breakQueue_eq]

end Sys2Proof.Machine

namespace Sys2Proof.Machine

/-! ### What NBRK leaves of the state (R106) -/

/-- Words of the body that issue move their nest one position on (R104). -/
theorem issue_nest {s : State} {r : NestRun} (h : noStep s = true) (hplay : s.core.livePlay = none)
    (hnest : s.core.ctl.nest = some r) : (ctlDone s.endSkip.clearReach).core.ctl.nest = some (r.bump 1) := by
  have hstands : Stands s s.endSkip.clearReach := (Stands.endSkip s).trans (.clearReach _)
  have hplay' : s.endSkip.clearReach.core.livePlay = none := by
    unfold Core.livePlay at hplay ⊢
    rw [hstands.play, hplay]
  have hadvance : s.endSkip.clearReach.advance.core.ctl.nest = some (r.bump 1) := by
    unfold State.advance
    rw [hplay', hstands.nest, hnest]
    rfl
  unfold ctlDone ctlDoneWith
  rw [ctlTick_noStep ((noStep_eq (by simp) (by simp)).trans h), ← hadvance]
  simp

section
variable (s : State) (r : NestRun)

/-- A core with words taken back keeps its registers, its tables and its other queues. -/
theorem TakesBack.endBreak_keeps {s u : State} {d : Core} (h : TakesBack s.core d)
    (hu : u = { s with core := d.endBreak r }) :
    RegSame [] [] s u ∧ MemSame s u ∧ noStep u = noStep s ∧ u.core.tick = s.core.tick ∧
      u.core.livePlay = s.core.livePlay ∧ u.core.vis.nest = s.core.vis.nest ∧
      u.core.q = { s.core.q with dq := u.core.q.dq } ∧
      u.core.ctl.nest = some { r with broken := true, ahead := none } := by
  obtain ⟨_, _, _, _, _, _, _, _, _, rfl⟩ := h.core
  subst hu
  exact ⟨.of_banks rfl rfl rfl, .of_eq rfl rfl rfl rfl, noStep_eq rfl rfl, rfl, rfl, rfl, rfl, rfl⟩

theorem State.upd_upd_eq (f g : Core → Core) : (s.upd f).upd g = { s with core := g (f s.core) } := rfl

/-- Once the words of later iterations are taken back, the break ends as `Core.endBreak` says. -/
theorem State.nestBroken_eq : s.nestBroken r = { s with core := (s.core.breakAll r allEngines).endBreak r } :=
  s.upd_upd_eq (Core.breakAll r allEngines) (Core.endBreak r)

theorem State.nestBroken_core : (s.nestBroken r).core = (s.core.breakAll r allEngines).endBreak r := by
  rw [State.nestBroken_eq]

/-- NBRK touches its own core alone, and there no register, no table and no other queue. -/
theorem State.nestBroken_keeps : RegSame [] [] s (s.nestBroken r) ∧ MemSame s (s.nestBroken r) ∧
    noStep (s.nestBroken r) = noStep s ∧ (s.nestBroken r).core.tick = s.core.tick ∧
    (s.nestBroken r).core.livePlay = s.core.livePlay ∧ (s.nestBroken r).core.vis.nest = s.core.vis.nest ∧
    (s.nestBroken r).core.q = { s.core.q with dq := (s.nestBroken r).core.q.dq } ∧
    (s.nestBroken r).core.ctl.nest = some { r with broken := true, ahead := none } :=
  (TakesBack.breakAll r allEngines s.core).endBreak_keeps r (s.nestBroken_eq r)

theorem State.nestBroken_eng (e : Engine) : ((s.nestBroken r).core.eng e).queue = keptQueue r (s.core.eng e).queue := by
  have hend : ∀ d : Core, (d.endBreak r).eng e = d.eng e := fun d => by cases e <;> rfl
  rw [State.nestBroken_core, hend, Core.breakAll_queue r _ _ (by decide), if_pos (mem_allEngines e)]

theorem State.nestBroken_dq (h : ∀ sr v, .reg sr v ∉ s.core.vector.queue) :
    (s.nestBroken r).core.q.dq = s.core.q.dq := by
  have hend : ∀ d : Core, (d.endBreak r).q = d.q := fun _ => rfl
  rw [State.nestBroken_core, hend]
  exact Core.breakAll_dq r allEngines s.core h (by decide)

/-- Which value of LIVE stays as it was written does not turn on the queues (log 97). -/
theorem TakesBack.breakStep {c d : Core} (h : TakesBack c d) (i : Fin 16) : d.breakStep r i
    = liveStep r r.pushPlace.cur ((c.keptLive r i).elim r.cur (·.cur)) i := by
  have hkept : d.keptLive r i = c.keptLive r i := by
    obtain ⟨_, _, _, _, _, _, _, _, _, hd⟩ := h.core
    rw [hd]
    rfl
  unfold Core.breakStep
  rw [hkept]
  cases c.keptLive r i <;> rfl

/-- Where no word that leaves is an LADV, LIVE is that of the broken iteration (R106, R157). -/
theorem State.nestBroken_live (h : ∀ e y, .word y ∈ (s.core.eng e).queue → afterBreak r.table r.iter (.word y) = true →
    ∀ tk st l, decode y.word.toNat none ≠ .ok (.ladv tk st l)) (i : Fin 16) :
    (s.nestBroken r).core.vis.st[i].live = s.core.vis.st[i].live
      + BitVec.ofInt 48 (liveStep r r.pushPlace.cur ((s.core.keptLive r i).elim r.cur (·.cur)) i) := by
  have hst := Core.breakAll_st r allEngines s.core (by decide) fun e _ => h e
  have hback := TakesBack.breakAll r allEngines s.core
  rw [State.nestBroken_core]
  generalize s.core.breakAll r allEngines = d at hst hback
  change (moveLive (d.breakStep r) d.vis).st[i].live = _
  rw [moveLive_live, hst, hback.breakStep r i]

end

theorem keptQueue_ne_reg (r : NestRun) (l : List QItem) (sr : BitVec 12) (v : DWord) (q : List QItem) :
    keptQueue r l ≠ .reg sr v :: q := dropWhile_ne_reg _ sr v q

/-- NBRK with its condition set breaks the running nest of its table (R106). -/
theorem nbrk_breaks {s : State} {sd : Fin 16} {r : NestRun} (hg : ctlGoes s [] = true)
    (hnest : s.core.ctl.nest = some r) (hcond : (s.core.steer sd).cond = true) (hplay : s.core.livePlay = none) :
    ∃ w t, Noted s w ∧ CtlFrame [] [] s w ∧ Issued.Rest (w.nestBroken r) t ∧ exec (.nbrk sd r.table) s = .next t ∧
      t.core.ctl.nest = some { r with broken := true, ahead := none, next := r.next + 1 } := by
  have hnoted := Noted.unreplayableIf s (s.taintS sd).1
  have hframe := CtlFrame.unreplayableIf s (s.taintS sd).1
  have hexec := exec_nbrk sd r.table hg
  rw [hnest] at hexec
  dsimp only at hexec
  rw [if_pos ⟨rfl, hcond⟩] at hexec
  generalize s.unreplayableIf (s.taintS sd).1 = w at hnoted hframe hexec
  obtain ⟨-, -, hnoStep, -, hlive, -, -, hrun⟩ := w.nestBroken_keeps r
  have hn : noStep (w.nestBroken r) = true :=
    hnoStep.trans ((noStep_eq hframe.regs hframe.reg.bank).trans (ctlGoes_step hg))
  have hplay' : w.core.livePlay = none := by
    unfold Core.livePlay at hplay ⊢
    rw [hnoted.stands.play, hplay]
  exact ⟨w, _, hnoted, hframe, issue_rest hn, hexec, issue_nest hn (hlive.trans hplay') hrun⟩

/-- NBRK in no nest of its table, or with its condition clear, only issues (R106). -/
theorem nbrk_onlyIssues {s : State} {sd : Fin 16} {k : Fin 2} (hg : ctlGoes s [] = true)
    (hnot : ∀ r, s.core.ctl.nest = some r → ¬ (r.table = k ∧ (s.core.steer sd).cond = true)) :
    onlyIssues (.nbrk sd k) s := by
  have hexec : exec (.nbrk sd k) s = finish s (.issue (s.unreplayableIf (s.taintS sd).1)) := by
    rw [exec_nbrk sd k hg]
    cases hnest : s.core.ctl.nest with
    | none => rfl
    | some r => exact congrArg (finish s) (if_neg (hnot r hnest))
  obtain ⟨t, hfinish, -, hframe, hmoves⟩ := finish_frame (s0 := s) hg (CtlFrame.unreplayableIf s (s.taintS sd).1)
    (Stands.unreplayableIf s _)
  exact ⟨t, hexec.trans hfinish, hframe, hmoves⟩

/-- Settles O23: NGO puts its nest in place or refuses it, and NBRK filters each engine's queue by the iteration of its
words, a filter under which the register writes that then stand first are made and LIVE moves once. -/
theorem nestStartsAndBreaks : Obligations.NestStartsAndBreaks := by
  unfold Obligations.NestStartsAndBreaks
  refine ⟨fun s k n hg hnest => ⟨ngo_starts_spec hg hnest, fun r0 => ngo_resumes_spec hg hnest,
    fun e => ngo_refused hg hnest⟩, fun s sd k hg => ⟨fun r hnest hk hcond hplay => ?_, nbrk_onlyIssues hg⟩⟩
  subst hk
  obtain ⟨w, t, hnoted, hframe, hrest, hexec, hrun⟩ := nbrk_breaks (sd := sd) hg hnest hcond hplay
  obtain ⟨hreg, hmem, -, htick, -, htables, hq, -⟩ := w.nestBroken_keeps r
  have hqueue (e : Engine) : (t.core.eng e).queue = keptQueue r (s.core.eng e).queue := by
    rw [hrest.eng, State.nestBroken_eng, hframe.unit.eng]
  have hkept (i : Fin 16) : w.core.keptLive r i = s.core.keptLive r i := by
    unfold Core.keptLive
    rw [hnoted.ctl]
  refine ⟨t, hexec, (hframe.reg.trans hreg).trans hrest.frame.reg, (hframe.mem.trans hmem).trans hrest.memSame, ?_, ?_, ?_,
    hrun, fun e y => ?_, fun e sr v q => ?_, fun hnone => ?_, fun hladv i => ?_⟩
  · rw [hrest.q, hq, hframe.q]
  · rw [hrest.vis, htables, hframe.vis]
  · rw [hrest.tick, htick, hnoted.stands.tick]
  · rw [hqueue, mem_keptQueue, afterBreak_iff]
  · rw [hqueue]
    exact keptQueue_ne_reg r _ sr v q
  · have hvector : w.core.vector = s.core.vector := hframe.unit.eng .vector
    rw [hrest.q, w.nestBroken_dq r (by rwa [hvector]), hframe.q]
  · rw [hrest.vis, w.nestBroken_live r, hframe.vis, hkept]
    intro e y hy hgone
    rw [hframe.unit.eng] at hy
    exact hladv e y hy (afterBreak_iff.mp hgone)

end Sys2Proof.Machine

namespace Sys2Proof.Machine

/-! ### The heap's order (R119, R120) -/

/-- The heap's order as a relation. -/
abbrev HeapOrder (x y : Word × Word) : Prop := heapBefore x y = true

theorem heapOrder_iff (x y : Word × Word) :
    HeapOrder x y ↔ fKey y.1 < fKey x.1 ∨ (fKey x.1 = fKey y.1 ∧ x.2.toNat ≤ y.2.toNat) := by
  simp [HeapOrder, heapBefore]

/-- Of two pairs one comes before the other. -/
theorem heapOrder_total : Std.Total HeapOrder :=
  ⟨fun x y => by rw [heapOrder_iff, heapOrder_iff]; omega⟩

theorem heapOrder_trans : IsTrans (Word × Word) HeapOrder :=
  ⟨fun x y z => by rw [heapOrder_iff, heapOrder_iff, heapOrder_iff]; omega⟩

/-- The model's insertion is the library's insertion into an ordered list. -/
theorem heapPut_eq_orderedInsert (x : Word × Word) (h : List (Word × Word)) :
    heapPut x h = h.orderedInsert HeapOrder x := by
  induction h with
  | nil => rfl
  | cons y t ih => rw [heapPut, List.orderedInsert_cons, ih]

theorem heapPut_perm (x : Word × Word) (h : List (Word × Word)) : (heapPut x h).Perm (x :: h) :=
  heapPut_eq_orderedInsert x h ▸ List.perm_orderedInsert _ x h

theorem heapPut_ordered {h : List (Word × Word)} (hh : h.Pairwise HeapOrder) (x : Word × Word) :
    (heapPut x h).Pairwise HeapOrder := by
  have := heapOrder_total
  have := heapOrder_trans
  rw [heapPut_eq_orderedInsert]
  exact hh.orderedInsert x h

/-- In an ordered list what the first k leave out comes after each of them. -/
theorem mem_take_or_all_before {α : Type} {r : α → α → Prop} {l : List α} (hl : l.Pairwise r) (k : Nat) {y : α}
    (hy : y ∈ l) : y ∈ l.take k ∨ ∀ z ∈ l.take k, r z y := by
  rw [← List.take_append_drop k l] at hl hy
  obtain ⟨-, -, hbefore⟩ := List.pairwise_append.mp hl
  exact (List.mem_append.mp hy).imp_right fun hdropped z hz => hbefore z hz y hdropped

/-- Settles O38: the list that the insertion cuts to K pairs is ordered and holds the pairs there were and the new
one. -/
theorem heapKeepsLargest : Obligations.HeapKeepsLargest := by
  intro k h x hh
  have hordered := heapPut_ordered hh x
  have hperm := heapPut_perm x h
  refine ⟨hordered.take, ?_, ⟨heapPut x h, hperm, hordered, rfl⟩,
    fun y hy => mem_take_or_all_before hordered k (hperm.mem_iff.mpr hy)⟩
  rw [heapInsert, List.length_take, hperm.length_eq, List.length_cons]

end Sys2Proof.Machine

namespace Sys2Proof.Machine

/-! ### An accumulator's words in its bytes (R167) -/

/-- A part of the bytes read from a canonical memory is the bytes read from there. -/
theorem Mem.take_drop_readN {m : Mem} (h : m.wf = true) (a : Nat) {n i j : Nat} (hij : i + j ≤ n) :
    ((m.readN a n).drop i).take j = m.readN (a + i) j := by
  refine List.ext_getElem (by simp; omega) fun k hk hk' => ?_
  simp [Mem.readN_eq h, Nat.add_assoc]

/-- The value of bytes that read as a list. -/
theorem leValue_eq_leNat {m : Mem} {a : Nat} {bs : List Byte}
    (h : ∀ j, j < bs.length → m.read (a + j) = bs.getD j 0) : leValue m a bs.length = leNat bs := by
  induction bs generalizing a with
  | nil => rfl
  | cons b bs ih =>
    have hhead := h 0 (by simp)
    rw [List.length_cons, leValue, leNat, ih fun j hj => ?_]
    · simpa using congrArg (fun v : Byte => v.toNat + 256 * leNat bs) hhead
    · simpa [Nat.add_assoc, Nat.add_comm 1 j] using h (j + 1) (by simpa using hj)

/-- The four bytes of element (r, k) give its value, lowest first. -/
theorem accWord_eq {c : Core} (h : c.mx.acc.wf = true) (a : Fin 4) (r : Nat) {k : Nat} (hk : k < 64) :
    accWord c a r k = BitVec.ofNat 32 (leValue c.mx.acc (a.val * 16384 + 256 * r + 4 * k) 4) := by
  simp only [accWord, accRow, lanesOf, tileSize, Vector.toList_ofFn, List.getD_eq_getElem?_getD]
  rw [List.getElem?_ofFn, dif_pos hk, Option.getD_some, Mem.take_drop_readN h _ (by omega), leNat_readN h]

/-- An element whose four bytes are those of a word is that word. -/
theorem accWord_of_bytes {c : Core} (h : c.mx.acc.wf = true) (a : Fin 4) (r : Nat) {k : Nat} (hk : k < 64) {w : Word}
    (hbytes : ∀ j, j < 4 →
      c.mx.acc.read (a.val * 16384 + 256 * r + 4 * k + j) = (leBytes 4 w.toNat).getD j 0) :
    accWord c a r k = w := by
  have hvalue := leValue_eq_leNat (bs := leBytes 4 w.toNat) fun j hj => hbytes j (by simpa using hj)
  rw [leBytes_length, leNat_leBytes, Nat.mod_eq_of_lt (b := 256 ^ 4) w.isLt] at hvalue
  rw [accWord_eq h a r hk, hvalue, BitVec.ofNat_toNat, BitVec.setWidth_eq]

@[simp] theorem wordBytes_length (l : List Word) : (wordBytes l).length = 4 * l.length := by
  simp [wordBytes, List.length_flatMap, Nat.mul_comm]

/-- The bytes of word k of a row stand from 4 k on. -/
theorem wordBytes_getD {l : List Word} {k j : Nat} (hk : k < l.length) (hj : j < 4) :
    (wordBytes l).getD (4 * k + j) 0 = (leBytes 4 (l.getD k 0).toNat).getD j 0 := by
  induction l generalizing k with
  | nil => simp at hk
  | cons w l ih =>
    have hcons : wordBytes (w :: l) = leBytes 4 w.toNat ++ wordBytes l := rfl
    rw [hcons]
    cases k with
    | zero => rw [List.getD_append _ _ _ _ (by simpa using hj)]; simp
    | succ k =>
      rw [List.getD_append_right _ _ _ _ (by simp; omega), leBytes_length,
        show 4 * (k + 1) + j - 4 = 4 * k + j by omega, ih (by simpa using hk), List.getD_cons_succ]

/-- A row of 64 words written into an accumulator stands there, and every other byte as it was. -/
theorem accRowIs_of_write {s t : State} {a : Fin 4} {r : Nat} {l : List Word} {f : Nat → Word}
    (hwf : s.core.mx.acc.wf = true) (hlen : l.length = 64) (hf : ∀ k, k < 64 → l.getD k 0 = f k)
    (hacc : t.core.mx.acc = s.core.mx.acc.write (a.val * tileSize + 256 * r) (wordBytes l)) :
    AccRowIs a r f s t := by
  rw [tileSize] at hacc
  refine ⟨fun k hk => accWord_of_bytes (hacc ▸ Mem.wf_write hwf _ _) a r hk fun j hj => ?_, fun b hb => ?_⟩
  · rw [hacc, Mem.read_write, if_pos (by simp; omega), ← hf k hk, ← wordBytes_getD (by omega) hj]
    congr 1
    omega
  · rw [hacc, Mem.read_write, if_neg (by simpa [hlen] using hb)]

/-- An accumulator written with zeros holds 0 in every element. -/
theorem accWord_of_zeros {s t : State} {a : Fin 4} (hwf : s.core.mx.acc.wf = true)
    (hacc : t.core.mx.acc = s.core.mx.acc.write (a.val * tileSize) (List.replicate tileSize 0))
    {r k : Nat} (hr : r < 64) (hk : k < 64) : accWord t.core a r k = 0 := by
  rw [tileSize] at hacc
  refine accWord_of_bytes (hacc ▸ Mem.wf_write hwf _ _) a r hk fun j hj => ?_
  rw [hacc, Mem.read_write, if_pos (by rw [List.length_replicate]; omega),
    List.getD_replicate _ (by omega), leBytes_getD 4 _ j hj]
  simp

/-! ### Flags of a word that raises none (R138) -/

theorem FlagReg.merge_zero (r : FlagReg) : r.merge 0 0 = r := by
  have hn : min r.nanc.toNat 0xFFFFFFFF = r.nanc.toNat := Nat.min_eq_left (by have := r.nanc.isLt; omega)
  simp [FlagReg.merge, addNanc, hn]

theorem foldl_flags_zero {α : Type} {l : List α} {g : α → FlagBits} (h : ∀ x ∈ l, g x = 0) (f : FlagBits) :
    l.foldl (fun f x => f ||| g x) f = f := by
  induction l with
  | nil => rfl
  | cons x l ih =>
    obtain ⟨hx, hl⟩ := List.forall_mem_cons.mp h
    simp [hx, ih hl]

end Sys2Proof.Machine

namespace Sys2Proof.Machine

/-! ### An act of a word on an accumulator (R143, R376) -/

/-- What such an act leaves: the marks of the carried units it read, its change of the queues and of the matrix
path. -/
def State.matrixAct (s : State) (b b' : Bool) (f : Queues → Queues) (g : Matrix → Matrix) : State :=
  (((s.readsIf b).readsIf b').updQ f).upd fun c => { c with mx := g c.mx }

section
variable (s : State) (b b' : Bool) (f : Queues → Queues) (g : Matrix → Matrix)

@[simp] theorem State.matrixAct_q : (s.matrixAct b b' f g).core.q = f s.core.q := by
  simp [State.matrixAct, State.updQ, State.upd]

@[simp] theorem State.matrixAct_mx : (s.matrixAct b b' f g).core.mx = g s.core.mx := by
  simp [State.matrixAct, State.updQ, State.upd]

@[simp] theorem State.matrixAct_vec : (s.matrixAct b b' f g).core.vec = s.core.vec := by
  simp [State.matrixAct, State.updQ, State.upd]

theorem EngBody.matrixAct : EngBody .matrix s (s.matrixAct b b' f g) :=
  (((EngBody.readsIf _ s b).trans (EngBody.readsIf _ _ b')).trans (EngBody.updQ _ _ f)).trans
    (EngBody.mx _ _ fun c => g c.mx)

theorem RestSame.matrixAct : RestSame s (s.matrixAct b b' f g) := by
  refine RestSame.of_eq ?_ ?_ ?_ ?_ ?_ ?_ ?_ <;> simp [State.matrixAct, State.updQ, State.upd]

end

theorem engReady_of_goes {e : Engine} {tk : Tok} {x : Entry} {s : State} (h : engGoes e tk x s = true)
    (hstarted : x.started = false) : engReady e tk x s = true := by
  simpa [engGoes, hstarted] using h

section
variable {s : State} {tk : Tok} {x : Entry} {rest : List QItem}
  (hhead : headWord .matrix s = some (x, rest)) (hgoes : engGoes .matrix tk x s = true)
include hhead hgoes

/-- A matrix word whose act is its last issues, one whose act is not stays with one more part done (R143). -/
theorem engWord_acts {i : Instr} {body : Entry → State → ERes} {last b b' : Bool} {f : Queues → Queues}
    {g : Matrix → Matrix} {d : Option (Vector (BitVec 16) 16 × Word)}
    (hbody : body x s = if last then .issue (s.matrixAct b b' f g) {}
      else .part (s.matrixAct b b' f g) { x with prog := x.prog + 1, drain := d }) :
    ∃ t, engWord .matrix tk i s body = .next t ∧ EngStep last .matrix tk x rest s t ∧ RestSame s t ∧
      t.core.vec = s.core.vec ∧ t.core.q = f s.core.q ∧ t.core.mx = g s.core.mx := by
  have hkeeps := EngBody.matrixAct s b b' f g
  have hrest := RestSame.matrixAct s b b' f g
  cases last with
  | true =>
    obtain ⟨hissues, hleaves, -⟩ := issueWord_spec (tk := tk) {} hhead hkeeps
    exact ⟨_, engWord_issue hhead hgoes hbody, hissues, hleaves.restSame hrest,
      hleaves.vec.trans (by simp), hleaves.q.trans (by simp), hleaves.mx.trans (by simp)⟩
  | false =>
    obtain ⟨hstays, hleaves, -⟩ := stayWord_spec (tk := tk) hhead hkeeps
      (y := { x with prog := x.prog + 1, drain := d }) rfl rfl rfl
    exact ⟨_, engWord_part hhead hgoes hbody, hstays, hleaves.restSame hrest,
      hleaves.vec.trans (by simp), hleaves.q.trans (by simp), hleaves.mx.trans (by simp)⟩

end

/-! ### AZERO and AREAD (R206) -/

/-- The lanes of a row read as words are the accumulator's elements. -/
theorem lanesOf_accRow (c : Core) (a : Fin 4) (r : Nat) :
    lanesOf (c.mx.acc.readN (a.val * tileSize + 256 * r) 256) = Vector.ofFn fun k => accWord c a r k.val := by
  ext k hk
  simp [accWord, accRow]

section
variable {s : State} {tk : Tok} {x : Entry} {rest : List QItem}
  (hhead : headWord .matrix s = some (x, rest)) (hready : engReady .matrix tk x s = true)
include hhead hready

theorem execAzero_clears (a : Fin 4) :
    ∃ t, execAzero tk a s = .next t ∧ EngIssues .matrix tk x rest s t ∧ RestSame s t ∧
      t.core.q = s.core.q ∧ t.core.vec = s.core.vec ∧ t.core.mx = { s.core.mx with
        acc := s.core.mx.acc.write (a.val * tileSize) (List.replicate tileSize 0)
        accI := s.core.mx.accI.set a.val false a.isLt } :=
  engWord_changesMx (f := fun c => { c with acc := c.acc &&& ~~~(BitVec.ofNat 4 (2 ^ a.val)) })
    (g := fun m => { m with
      acc := m.acc.write (a.val * tileSize) (List.replicate tileSize 0)
      accI := m.accI.set a.val false a.isLt }) hhead hready rfl

theorem execAread_pushes {a : Fin 4} {row : Fin 64} {q : Fin 4} (hroom : s.core.vqRoom q = true) :
    ∃ t, execAread tk a row q s = .next t ∧ EngIssues .matrix tk x rest s t ∧ RestSame s t ∧
      t.core.mx = s.core.mx ∧ t.core.vec = s.core.vec ∧
      EntersVq q (fun k => accWord s.core a row.val k.val) s t := by
  unfold execAread
  refine engWord_pushesRow (b := s.core.phase.carried.acc.getLsbD a.val) hhead hready ?_
  simp only [hroom, Bool.not_true, Bool.false_eq_true, if_false]
  rw [lanesOf_accRow]
  rfl

end

/-! ### APATCH (R188, R206) -/

/-- The row that APATCH makes of its row and an entry, each element with its flags. -/
def patchedRow (c : Core) (a : Fin 4) (r : Nat) (mode : PatchMode) (v : LaneEntry) : List (Word × FlagBits) :=
  (List.range 64).map fun k =>
    patchLane mode c.mx.accI[a] (accWord c a r k) (vget v.lanes k 0) (v.mask.getLsbD k)

/-- The matrix path with that row in place of the old. -/
def Matrix.patched (m : Matrix) (a : Fin 4) (r : Nat) (row : List (Word × FlagBits)) : Matrix :=
  { m with acc := m.acc.write (a.val * tileSize + 256 * r) (wordBytes (row.map (·.1)))
           mflags := m.mflags.merge (row.foldl (fun f e => f ||| e.2) 0) 0 }

theorem patchedRow_getD (c : Core) (a : Fin 4) (r : Nat) (mode : PatchMode) (v : LaneEntry) {k : Nat} (hk : k < 64) :
    ((patchedRow c a r mode v).map (·.1)).getD k 0
      = (patchLane mode c.mx.accI[a] (accWord c a r k) (vget v.lanes k 0) (v.mask.getLsbD k)).1 := by
  simp [patchedRow, hk]

/-- Only a sum of F32 raises flags. -/
theorem patchLane_flags {mode : PatchMode} {int : Bool} (h : mode ≠ .add ∨ int = true) (o n : Word) (m : Bool) :
    (patchLane mode int o n m).2 = 0 := by
  cases mode <;> simp_all [patchLane]

theorem patchedRow_flags {c : Core} {a : Fin 4} {mode : PatchMode} (h : mode ≠ .add ∨ c.mx.accI[a] = true) (r : Nat)
    (v : LaneEntry) : (patchedRow c a r mode v).foldl (fun f e => f ||| e.2) (0 : FlagBits) = 0 := by
  refine foldl_flags_zero (g := Prod.snd) (fun e he => ?_) 0
  obtain ⟨k, -, rfl⟩ := List.mem_map.mp he
  exact patchLane_flags h _ _ _

theorem execApatch_patches {s : State} {tk : Tok} {x : Entry} {rest : List QItem}
    (hhead : headWord .matrix s = some (x, rest)) (hgoes : engGoes .matrix tk x s = true) (a : Fin 4) (row : Fin 64)
    (mode : PatchMode) {v : LaneEntry} {vs : List LaneEntry} (hmq : s.core.q.mq = v :: vs) :
    ∃ t, execApatch tk a row mode s = .next t ∧ EngIssues .matrix tk x rest s t ∧ RestSame s t ∧
      t.core.vec = s.core.vec ∧ t.core.q = { s.core.q with mq := vs } ∧
      t.core.mx = s.core.mx.patched a row.val (patchedRow s.core a row.val mode v) := by
  unfold execApatch
  refine engWord_acts (last := true) (b := v.carried) (f := fun q => { q with mq := vs })
    (g := fun m => m.patched a row.val (patchedRow s.core a row.val mode v)) (d := none)
    (b' := decide (mode = .add) && (s.readsIf v.carried).core.phase.carried.acc.getLsbD a.val) hhead hgoes ?_
  dsimp only
  rw [hmq]
  cases mode <;> rfl

/-! ### MDRAIN (R181, R182, R204) -/

/-- The matrix path after a row of a drain: its flags, its pairs in the heap, EPCOLBASE advanced or not (R117). -/
def Matrix.drained (m : Matrix) (row : List Micro) (advances : Bool) : Matrix :=
  { m with mflags := m.mflags.merge (row.foldl (fun f u => f ||| u.fl) 0) (row.map (·.nans)).sum
           heap := (row.flatMap (·.ins)).foldl (heapInsert m.heapk.toNat) m.heap
           epcolbase := if advances then m.epcolbase + 64 else m.epcolbase }

/-- The operand queues after a row's entry has gone to its destination (R160). -/
def Queues.pushDrain (q : Queues) (e : LaneEntry) : DrainDest → Queues
  | .vq k => { q with vq := q.vq.set k.val (q.vq[k] ++ [e]) k.isLt }
  | .wq => { q with wq := q.wq ++ [e] }
  | .heap => q

/-- A drain reads its accumulator and, where they are carried, its slot, banks and heap (R376). -/
theorem drainMarks_eq (a : Fin 4) (slot : Fin 8) (ops : List (BitVec 16)) (s : State) :
    ∃ b, drainMarks a slot ops s = (s.readsAcc a).readsIf b := ⟨_, rfl⟩

theorem execMdrain_row {s : State} {tk : Tok} {x : Entry} {rest : List QItem}
    (hhead : headWord .matrix s = some (x, rest)) (hgoes : engGoes .matrix tk x s = true) (a : Fin 4) {d : DrainDest}
    (slot : Fin 8) (ac : Bool) (hroom : s.core.drainRoom d = true) {row : List Micro} {last : Bool}
    (hrow : drainRow (s.core.drainCore x slot) a slot x.prog = row) (hlast : decide (63 ≤ x.prog) = last) :
    ∃ t, execMdrain tk a d slot ac s = .next t ∧ EngStep last .matrix tk x rest s t ∧ RestSame s t ∧
      t.core.vec = s.core.vec ∧
      t.core.q = s.core.q.pushDrain (drainEntry (s.core.drainCore x slot) slot row) d ∧
      t.core.mx = s.core.mx.drained row (ac && last) := by
  let dc := s.core.drainCore x slot
  subst hrow hlast
  obtain ⟨b', hmarks⟩ := drainMarks_eq a slot (program dc.mx.epi[slot]) s
  unfold execMdrain
  refine engWord_acts (f := fun q => q.pushDrain (drainEntry dc slot (drainRow dc a slot x.prog)) d)
    (g := fun m => m.drained (drainRow dc a slot x.prog) (ac && decide (63 ≤ x.prog)))
    (d := some (dc.mx.epi[slot], dc.mx.epcolbase)) (b := s.core.phase.carried.acc.getLsbD a.val) (b' := b')
    hhead hgoes ?_
  dsimp only
  rw [hroom, hmarks]
  cases d <;> rfl

/-! ### The obligation -/

/-- Settles O37: each word's act leaves its queues and the matrix path as it wrote them, AZERO's zeros and APATCH's row
read back from the bytes of the accumulator. -/
theorem accumulatorWords : Obligations.AccumulatorWords := by
  intro s tk a x rest hhead hgoes hwf
  refine ⟨fun hstarted => ?azero, fun row q hstarted hroom => ?aread, fun row mode v vs _ hmq => ?apatch,
    fun d slot ac hroom => ?mdrain⟩
  case azero =>
    obtain ⟨t, ht, hissues, hrest, hq, hvec, hmx⟩ := execAzero_clears hhead (engReady_of_goes hgoes hstarted) a
    have hacc := congrArg Matrix.acc hmx
    refine ⟨t, ht, hissues, hrest, hq, hvec, fun r k => accWord_of_zeros hwf hacc, fun b hb => ?_, hacc ▸ hmx⟩
    rw [hacc, Mem.read_write, if_neg (by rw [tileSize, List.length_replicate]; omega)]
  case aread =>
    exact execAread_pushes hhead (engReady_of_goes hgoes hstarted) (decide_eq_true hroom)
  case apatch =>
    obtain ⟨t, ht, hissues, hrest, hvec, hq, hmx⟩ := execApatch_patches hhead hgoes a row mode hmq
    have hacc := congrArg Matrix.acc hmx
    have hflags := congrArg Matrix.mflags hmx
    refine ⟨t, ht, hissues, hrest, hq, hvec,
      accRowIs_of_write hwf (by simp [patchedRow]) (fun k hk => ?_) hacc, hflags ▸ hacc ▸ hmx, fun hexact => ?_⟩
    · rw [patchedRow_getD _ _ _ _ _ hk]
      cases mode with
      | set => rfl
      | add => exact apply_ite Prod.fst ..
      | mset => rfl
    · rw [hflags, Matrix.patched, patchedRow_flags hexact, FlagReg.merge_zero]
  case mdrain =>
    intro dc row entry last
    obtain ⟨t, ht, hstep, hrest, hvec, hq, hmx⟩ := execMdrain_row hhead hgoes a slot ac hroom (row := row) rfl rfl
    refine ⟨t, ht, hstep, hrest, hvec, ?_, ?_⟩
    · cases d <;> exact hq
    · rw [hmx]
      exact ⟨rfl, rfl, rfl, rfl, rfl⟩

end Sys2Proof.Machine

namespace Sys2Proof.Machine

/-! ### The odometer counts the tag up (R156) -/

/-- Every counter of an odometer is below its trip count. -/
def WithinTrips (cur trips : List Nat) : Prop := ∀ p ∈ cur.zip trips, p.1 < p.2

theorem withinTrips_cons {c t : Nat} {cs ts : List Nat} :
    WithinTrips (c :: cs) (t :: ts) ↔ c < t ∧ WithinTrips cs ts := by simp [WithinTrips]

theorem withinTrips_zero_cons {c t : Nat} {cs ts ns : List Nat} (h : WithinTrips (c :: cs) (t :: ts))
    (hns : WithinTrips ns ts) : WithinTrips (0 :: ns) (t :: ts) :=
  withinTrips_cons.mpr ⟨Nat.zero_lt_of_lt (withinTrips_cons.mp h).1, hns⟩

/-- A level below its last iteration counts; one at its last starts again, and the level above counts. -/
theorem odometer_next {cur trips next : List Nat} (hlen : cur.length = trips.length) (hin : WithinTrips cur trips)
    (hnext : odometer cur trips = some next) :
    next.length = trips.length ∧ WithinTrips next trips ∧ tagOf next trips = tagOf cur trips + 1 := by
  induction cur generalizing trips next with
  | nil => simp [odometer] at hnext
  | cons c cs ih =>
    cases trips with
    | nil => simp at hlen
    | cons t ts =>
      obtain ⟨hc, hcs⟩ := withinTrips_cons.mp hin
      by_cases hcount : c + 1 < t
      · obtain rfl : (c + 1) :: cs = next := by simpa [odometer, hcount] using hnext
        refine ⟨hlen, withinTrips_cons.mpr ⟨hcount, hcs⟩, ?_⟩
        simp only [tagOf]
        omega
      · obtain ⟨ns, hns, rfl⟩ : ∃ ns, odometer cs ts = some ns ∧ 0 :: ns = next := by
          simpa [odometer, hcount] using hnext
        obtain ⟨hlen', hin', htag⟩ := ih (Nat.succ.inj hlen) hcs hns
        refine ⟨congrArg (· + 1) hlen', withinTrips_zero_cons hin hin', ?_⟩
        obtain rfl : t = c + 1 := by omega
        simp only [tagOf, htag, Nat.mul_add]
        omega

theorem odometer_cons_eq_none {c t : Nat} {cs ts : List Nat} :
    odometer (c :: cs) (t :: ts) = none ↔ ¬ c + 1 < t ∧ odometer cs ts = none := by
  by_cases h : c + 1 < t <;> simp [odometer, h]

/-- Where no level counts, every level is at its last iteration. -/
theorem odometer_last {cur trips : List Nat} (hlen : cur.length = trips.length) (hin : WithinTrips cur trips)
    (hlast : odometer cur trips = none) : tagOf cur trips + 1 = trips.prod := by
  induction cur generalizing trips with
  | nil =>
    obtain rfl := List.length_eq_zero_iff.mp hlen.symm
    rfl
  | cons c cs ih =>
    cases trips with
    | nil => simp at hlen
    | cons t ts =>
      obtain ⟨hc, hcs⟩ := withinTrips_cons.mp hin
      obtain ⟨hcount, hrest⟩ := odometer_cons_eq_none.mp hlast
      have htag := ih (Nat.succ.inj hlen) hcs hrest
      obtain rfl : t = c + 1 := by omega
      rw [List.prod_cons, ← htag, tagOf, Nat.mul_add]
      omega

/-- Settles O25, by induction over the levels. -/
theorem odometerCounts : Obligations.OdometerCounts := by
  intro cur trips hlen hin
  refine ⟨fun next hnext => odometer_next hlen hin hnext, fun hlast => ?_⟩
  rw [← List.prod_eq_foldl]
  exact odometer_last hlen hin hlast

end Sys2Proof.Machine

namespace Sys2Proof.Machine

/-! ### What the body of a matrix word keeps beside its engine's frame (R143, R376) -/

/-- The engine frame, every unit but the matrix path, and memory. -/
structure MatrixBody (s u : State) : Prop extends EngBody .matrix s u where
  rest : RestSame s u
  q : u.core.q = s.core.q
  vec : u.core.vec = s.core.vec

theorem MatrixBody.trans {s t u : State} (h : MatrixBody s t) (k : MatrixBody t u) : MatrixBody s u :=
  ⟨h.toEngBody.trans k.toEngBody, h.rest.trans k.rest, k.q.trans h.q, k.vec.trans h.vec⟩

/-- The state with another matrix path and phase, and free values spent. -/
def State.setMatrix (s : State) (n : Nat) (mx : Matrix) (ph : Phase) : State :=
  { s with free := n, core := { s.core with mx := mx, phase := ph } }

theorem MatrixBody.setMatrix (s : State) (n : Nat) (mx : Matrix) (ph : Phase) :
    MatrixBody s (s.setMatrix n mx ph) where
  others := fun e _ => by cases e <;> rfl
  ctl := rfl
  tick := rfl
  gtick := rfl
  jig := rfl
  vis := rfl
  hook := rfl
  eng := rfl
  tok := rfl
  rest := RestSame.of_eq rfl rfl rfl rfl rfl rfl rfl
  q := rfl
  vec := rfl

/-- The marks of R376 change and the matrix path stands. -/
structure Marks (s u : State) : Prop extends MatrixBody s u where
  mx : u.core.mx = s.core.mx

theorem Marks.trans {s t u : State} (h : Marks s t) (k : Marks t u) : Marks s u :=
  ⟨h.toMatrixBody.trans k.toMatrixBody, k.mx.trans h.mx⟩

theorem Marks.readsIf (s : State) (b : Bool) : Marks s (s.readsIf b) :=
  have hrest : RestSame s (s.readsIf b) := by apply RestSame.of_eq <;> simp
  ⟨⟨EngBody.readsIf _ s b, hrest, by simp, by simp⟩, by simp⟩

theorem Marks.updCarried (s : State) (f : Carried → Carried) : Marks s (s.updCarried f) :=
  ⟨⟨EngBody.updCarried _ s f, RestSame.of_eq rfl rfl rfl rfl rfl rfl rfl, rfl, rfl⟩, rfl⟩

theorem Marks.readsTile (s : State) (t : Fin 16) : Marks s (s.readsTile t) := .readsIf s _

/-- An accumulator is written whole, or read. -/
theorem Marks.touchesAcc (s : State) (whole : Bool) (a : Fin 4) :
    Marks s (if whole then s.wholeAcc a else s.readsAcc a) := by
  split
  · exact .updCarried s _
  · exact .readsIf s _

theorem Marks.takeMarks (m : MStep) (s : State) : Marks s (takeMarks m s) := by
  unfold Machine.takeMarks
  exact (Marks.readsIf s _).trans (.updCarried _ _)

theorem Marks.stepMarks (m : MStep) (s : State) : Marks s (stepMarks m s) := by
  unfold Machine.stepMarks
  cases m.o.b with
  | tile b => exact ((Marks.readsTile s _).trans (.readsTile _ b)).trans (.touchesAcc _ _ _)
  | wsf => exact (Marks.readsTile s _).trans (.touchesAcc _ _ _)

section
variable {s u : State} {tk : Tok} {x : Entry} {rest : List QItem} {i : Instr} {body : Entry → State → ERes}
  (hhead : headWord .matrix s = some (x, rest)) (hgoes : engGoes .matrix tk x s = true)
include hhead hgoes

/-- A matrix word whose body stands at a progress point. -/
theorem engWord_stays {y : Entry} (hbody : body x s = .part u y) (hkeeps : MatrixBody s u) (hword : y.word = x.word)
    (hsnap : y.snap = x.snap) (haddr : y.addr = x.addr) :
    ∃ t z, engWord .matrix tk i s body = .next t ∧ EngStays .matrix tk x rest y.prog s t ∧ RestSame s t ∧
      t.core.q = s.core.q ∧ t.core.vec = s.core.vec ∧ t.core.mx = u.core.mx ∧
      (t.core.eng .matrix).queue = .word z :: rest ∧ z.blocks = y.blocks ∧ z.batches = y.batches ∧
      z.held = y.held := by
  obtain ⟨hstays, hleaves, hqueue⟩ := stayWord_spec (tk := tk) hhead hkeeps.toEngBody hword hsnap haddr
  exact ⟨_, _, engWord_part hhead hgoes hbody, hstays, hleaves.restSame hkeeps.rest, hleaves.q.trans hkeeps.q,
    hleaves.vec.trans hkeeps.vec, hleaves.mx, hqueue, rfl, rfl, rfl⟩

/-- A matrix word whose body issues. -/
theorem engWord_issues {w : Issued} (hbody : body x s = .issue u w) (hkeeps : MatrixBody s u) :
    ∃ t, engWord .matrix tk i s body = .next t ∧ EngIssues .matrix tk x rest s t ∧ RestSame s t ∧
      t.core.q = s.core.q ∧ t.core.vec = s.core.vec ∧ t.core.mx = u.core.mx := by
  obtain ⟨hissues, hleaves, -⟩ := issueWord_spec (tk := tk) w hhead hkeeps.toEngBody
  exact ⟨_, engWord_issue hhead hgoes hbody, hissues, hleaves.restSame hkeeps.rest, hleaves.q.trans hkeeps.q,
    hleaves.vec.trans hkeeps.vec, hleaves.mx⟩

end

/-! ### What a step takes (R175, R177) -/

/-- The FIFO that is left holds the scales after the first n. -/
theorem takeScales_left (n : Nat) (l : List (List Byte)) : (takeScales n l).2.1.flatten = l.flatten.drop n := by
  induction l generalizing n with
  | nil => simp [takeScales]
  | cons b l ih =>
    rw [takeScales, List.flatten_cons, List.drop_append]
    split
    next hlt => simp [Nat.sub_eq_zero_of_le (Nat.le_of_lt hlt)]
    next hge =>
      split
      next heq => simp [heq]
      next hne => simp [ih, List.drop_eq_nil_of_le (Nat.le_of_not_lt hge)]

theorem MStep.need_tile {m : MStep} {b : Fin 16} (h : m.o.b = .tile b) (x : Entry) : m.need x = 0 := by
  rw [MStep.need, h]

/-- Only a step on the weight FIFO pops it. -/
theorem MStep.drop_need {α : Type} (m : MStep) (x : Entry) (l : List α) :
    l.drop (m.need x) = if m.o.b = .wsf then l.drop (m.need x) else l := by
  cases hb : m.o.b with
  | wsf => rw [if_pos rfl]
  | tile b => simp [MStep.need_tile hb]

/-- The state with a step's scales and blocks taken. -/
def MStep.taken (m : MStep) (x : Entry) (s : State) : State := { m.spend s with core := (m.take x s.core).core }

theorem MatrixBody.taken (m : MStep) (x : Entry) (s : State) : MatrixBody s (m.taken x s) := by
  unfold MStep.taken MStep.spend
  split
  · exact MatrixBody.setMatrix s _ _ _
  · exact MatrixBody.setMatrix s s.free _ _

theorem MStep.filled_fields (m : MStep) (x : Entry) (c : Core) :
    (m.filled x c).word = x.word ∧ (m.filled x c).snap = x.snap ∧ (m.filled x c).addr = x.addr ∧
      (m.filled x c).prog = x.prog := by
  unfold MStep.filled
  cases m.o.b <;> exact ⟨rfl, rfl, rfl, rfl⟩

theorem MStep.filled_blocks (m : MStep) (x : Entry) (c : Core) :
    (m.filled x c).blocks = if m.o.b = .wsf then (x.blocks ++ c.mx.wfifo).take m.blocks else x.blocks := by
  unfold MStep.filled
  cases m.o.b <;> rfl

theorem MStep.filled_batches (m : MStep) (x : Entry) (c : Core) :
    (m.filled x c).batches = if m.o.b = .wsf then (x.batches ++ c.mx.scf).take m.blocks else x.batches := by
  unfold MStep.filled
  cases m.o.b <;> rfl

/-- A state whose matrix path is that of a step that has taken its scales and blocks, its word at the queue's head. -/
theorem stepTakes_of_mx {x y : Entry} {m : MStep} {s t : State} {rest : List QItem}
    (hqueue : (t.core.eng .matrix).queue = .word y :: rest) (hheld : y.held = some (m.hold x s))
    (hblocks : y.blocks = (m.filled x s.core).blocks) (hbatches : y.batches = (m.filled x s.core).batches)
    (hmx : t.core.mx = (m.take x s.core).core.mx) : StepTakes x m s t where
  word := ⟨y, rest, hqueue, hheld, hblocks.trans (m.filled_blocks x s.core),
    hbatches.trans (m.filled_batches x s.core)⟩
  ascale := by
    rw [hmx, ← takeScales_left]
    exact apply_ite List.flatten ..
  bscale := by
    rw [hmx, ← takeScales_left]
    exact (apply_ite List.flatten ..).trans (by simp)
  wfifo := hmx ▸ m.drop_need x s.core.mx.wfifo
  scf := hmx ▸ m.drop_need x s.core.mx.scf
  other := by rw [hmx]; rfl

/-! ### A step that computes (R169, R172) -/

/-- The elements of a step's result with their flags, row by row. -/
def stepRows (x : Entry) (m : MStep) (h : HeldStep) (s : State) : List (List (Word × FlagBits)) :=
  (List.range 64).map fun r => (List.range 64).map fun k => stepWord x m h s.core s.free r k

/-- The words of a step's result, row after row. -/
def stepWords (x : Entry) (m : MStep) (h : HeldStep) (s : State) : List Word :=
  ((stepRows x m h s).map fun row => row.map (·.1)).flatten

/-- The matrix path that a step leaves. -/
def stepMatrix (x : Entry) (m : MStep) (h : HeldStep) (s : State) (ck : List (BitVec 3)) : Matrix :=
  { s.core.mx with
    acc := s.core.mx.acc.write (m.o.a.val * tileSize) (wordBytes (stepWords x m h s))
    accI := s.core.mx.accI.set m.o.a.val (prof m.c.profile).int m.o.a.isLt
    mflags := s.core.mx.mflags.merge
      ((stepRows x m h s).foldl (fun f row => row.foldl (fun f e => f ||| e.2) f) 0) 0
    ck := ck }

/-- The rows that `runStep` makes, each from its row of A and its old row, are those of the elements. -/
theorem stepRows_eq (x : Entry) (m : MStep) (h : HeldStep) (s : State) :
    let zero := List.replicate 64 (0 : Word)
    let old := (List.range 64).map fun r => if m.o.z then zero else accRow s.core.mx.acc m.o.a r
    stepRows x m h s = (List.range 64).map fun r =>
      rowResult m (prof m.c.profile) h (m.bCols x h s.core (s.free + 32768)) r
        ((m.aRows h s.core s.free).getD r []) (old.getD r zero) := by
  unfold stepRows rowResult
  refine List.map_congr_left fun r hr => List.map_congr_left fun k _ => ?_
  have hr' : r < 64 := List.mem_range.mp hr
  cases hz : m.o.z <;> simp [stepWord, hz, hr', accWord]

/-- Where a step computes, its accumulator, the type bit and the flags are written; a comparison changes the phase, and
the status that MCHK reads. -/
theorem runStep_cases (x : Entry) (m : MStep) (h : HeldStep) (s : State) :
    ∃ ck ph, (m.o.ck = false → ck = s.core.mx.ck) ∧
      let u := s.setMatrix (s.free + 65536) (stepMatrix x m h s ck) ph
      runStep x m h s = .done u ∨ m.o.ck = true ∧ ∃ row, runStep x m h s = .check row u := by
  unfold runStep
  simp only [← stepRows_eq]
  cases hck : m.o.ck with
  | false => exact ⟨s.core.mx.ck, s.core.phase, fun _ => rfl, .inl rfl⟩
  | true =>
    simp only [Bool.not_true, Bool.false_eq_true, if_false, true_and]
    split
    · exact ⟨s.core.mx.ck, _, nofun, .inr ⟨_, rfl⟩⟩
    · exact ⟨_, _, nofun, .inl rfl⟩

/-- Rows of one length, one after the other: element k of row r. -/
theorem getD_flatten {α : Type} {w r k : Nat} {d : α} (hk : k < w) {rows : List (List α)}
    (hrow : ∀ row ∈ rows, row.length = w) :
    rows.flatten.getD (w * r + k) d = (rows.getD r []).getD k d := by
  induction rows generalizing r with
  | nil => simp
  | cons row rows ih =>
    obtain ⟨hlen, hrows⟩ := List.forall_mem_cons.mp hrow
    rw [List.flatten_cons]
    cases r with
    | zero => rw [List.getD_append _ _ _ _ (by omega)]; simp
    | succ r =>
      rw [List.getD_append_right _ _ _ _ (by rw [hlen, Nat.mul_succ]; omega), hlen,
        show w * (r + 1) + k - w = w * r + k by rw [Nat.mul_succ]; omega, ih hrows, List.getD_cons_succ]

theorem stepWords_getD (x : Entry) (m : MStep) (h : HeldStep) (s : State) {r k : Nat} (hr : r < 64) (hk : k < 64) :
    (stepWords x m h s).getD (64 * r + k) 0 = (stepWord x m h s.core s.free r k).1 := by
  rw [stepWords, getD_flatten hk (by simp [stepRows])]
  simp [stepRows, hr, hk]

theorem stepWords_length (x : Entry) (m : MStep) (h : HeldStep) (s : State) : (stepWords x m h s).length = 4096 := by
  simp [stepWords, stepRows, List.length_flatten, Function.comp_def]

/-- A state whose matrix path is that of a computed step. -/
theorem stepDone_of_mx {x : Entry} {m : MStep} {h : HeldStep} {s t : State} {ck : List (BitVec 3)}
    (hwf : s.core.mx.acc.wf = true) (hmx : t.core.mx = stepMatrix x m h s ck) : StepDone x m h s t where
  elem r k hr hk := by
    have hacc : t.core.mx.acc = s.core.mx.acc.write (m.o.a.val * 16384) (wordBytes (stepWords x m h s)) := by
      rw [hmx]; rfl
    refine accWord_of_bytes (hacc ▸ Mem.wf_write hwf _ _) _ _ hk fun j hj => ?_
    rw [hacc, Mem.read_write, wordBytes_length, stepWords_length, if_pos (by omega), ← stepWords_getD x m h s hr hk,
      ← wordBytes_getD (by rw [stepWords_length]; omega) hj]
    congr 1
    omega
  acc a ha := by
    rw [hmx, stepMatrix, Mem.read_write, wordBytes_length, stepWords_length, tileSize, if_neg (by omega)]
  accI a := by
    rw [hmx]
    simp [stepMatrix, Vector.getElem_set, Fin.ext_iff, eq_comm]
  flags := by
    rw [hmx]
    simp [stepMatrix, stepRows, FlagReg.merge, List.foldl_map]
  nanc := by
    rw [hmx]
    exact (congrArg FlagReg.nanc (FlagReg.merge_zero s.core.mx.mflags) :)
  fifos := by rw [hmx]; exact ⟨rfl, rfl, rfl, rfl⟩
  other := by rw [hmx]; exact ⟨rfl, rfl, rfl, rfl, rfl, rfl, rfl, rfl⟩

/-! ### A step under profile 6 (R171, R172) -/

/-- The integer of a sum of words is that of their integers modulo 2^32. -/
theorem toInt_add_ofInt_emod (w : Word) (n : Int) : ((w + BitVec.ofInt 32 n).toInt - (w.toInt + n)) % 2 ^ 32 = 0 := by
  rw [BitVec.toInt_add, BitVec.toInt_ofInt, Int.add_bmod_bmod]
  exact Int.emod_eq_emod_iff_emod_sub_eq_zero.mp Int.bmod_emod

/-- The exact sum of integer products, no flag raised. -/
theorem stepWord_integer {m : MStep} (hprofile : m.c.profile = 6) (x : Entry) (h : HeldStep) (c : Core) (n r k : Nat) :
    stepWord x m h c n r k = ((if m.o.z then 0 else accWord c m.o.a r k) + BitVec.ofInt 32
      ((((m.aRows h c n).getD r []).zipWith (fun x y => x.int * y.int)
        ((m.bCols x h c (n + 32768)).getD k [])).sum), 0) := by
  rw [stepWord, hprofile, List.sum_eq_foldl]
  rfl

/-! ### A step at the matrix queue's head (R143, R202) -/

section
variable {i : Instr} {x : Entry} {m : MStep} {chk : State → Option ERes} {go : State → ERes} {s : State}
  (hroll : s.core.phase.rollback = false)
include hroll

theorem headStep_held {h : HeldStep} (hheld : x.held = some h) :
    headStep i x m chk go s = stepAnswer x go (runStep x m h s) := by
  simp [headStep, hroll, hheld]

variable (hheld : x.held = none)
include hheld

theorem headStep_short (hready : m.ready x s.core = false) (hmore : m.more x s.core = false) :
    headStep i x m chk go s = .wait := by
  simp [headStep, hroll, hheld, hready, hmore]

/-- The word's own checks come first, once its waits are met (log 35). -/
theorem headStep_checked {r : ERes} (hfifos : m.ready x s.core = true ∨ m.more x s.core = true)
    (hchk : chk s = some r) : headStep i x m chk go s = r := by
  obtain h | h := hfifos <;> simp [headStep, hroll, hheld, h, hchk, orElse]

variable (hchk : chk s = none)
include hchk

theorem headStep_refused {r : Nat} (hfifos : m.ready x s.core = true ∨ m.more x s.core = true)
    (hrefused : m.refused x (m.sees s.core s.free) = some r) :
    headStep i x m chk go s = atProgress x (.trap (illegal i r x.addr 2) (m.spend s)) := by
  obtain h | h := hfifos <;> simp [headStep, hroll, hheld, h, hchk, orElse, hrefused]

variable (hrefused : m.refused x (m.sees s.core s.free) = none)
include hrefused

theorem headStep_ready (hready : m.ready x s.core = true) : headStep i x m chk go s = takeStep x m s := by
  simp [headStep, hroll, hheld, hready, hchk, orElse, hrefused]

theorem headStep_more (hready : m.ready x s.core = false) (hmore : m.more x s.core = true) :
    headStep i x m chk go s = .part (MStep.popOne x s).1 (MStep.popOne x s).2 := by
  simp [headStep, hroll, hheld, hready, hmore, hchk, orElse, hrefused]

end

theorem takeStep_part {x : Entry} {m : MStep} {s : State} (hfail : (m.take x s.core).fail = none) :
    takeStep x m s = .part (stepMarks m (takeMarks m (m.taken x s)))
      { m.filled x s.core with held := some (m.hold x s) } := by
  simp [takeStep, hfail, MStep.taken]

theorem takeStep_trap {x : Entry} {m : MStep} {s : State} {info : DWord} (hfail : (m.take x s.core).fail = some info) :
    takeStep x m s =
      if x.started then .trapAt { cause := 0x0A, info := info, addr := x.addr } (takeMarks m (m.taken x s)) x
      else .trapIn { cause := 0x0A, info := info, addr := x.addr } (takeMarks m (m.taken x s)) := by
  simp [takeStep, hfail, MStep.taken]

/-- The word between two steps of an MRUN (R203). -/
def Entry.stepOn (x : Entry) : Entry := { x with prog := x.prog + 1, blocks := [], batches := [], held := none }

/-- How a word goes on from a computed step: it issues after its last. -/
def stepEnds (last : Bool) (x : Entry) (s : State) : ERes := if last then .issue s {} else .part s x.stepOn

theorem stepEnds_le (n : Nat) (x : Entry) (s : State) :
    stepEnds (decide (n ≤ x.prog + 1)) x s = if x.prog + 1 < n then .part s x.stepOn else .issue s {} := by
  by_cases h : x.prog + 1 < n
  · simp [stepEnds, h]
  · simp [stepEnds, h, Nat.le_of_not_lt h]

theorem mrunChecks_none {i : Instr} {x : Entry} {k : Fin 2} {c : MmaCont} (hfields : mrBad x.snap.mrctl c.tb = false)
    (htrips : tripsBad x.snap.nest[k] = none) (s : State) : mrunChecks i x k c s = none := by
  simp only [mrunChecks, illegalIf, hfields, htrips]
  rfl

/-- The body of an MRUN. -/
def mrunBody (tk : Tok) (k : Fin 2) (c : MmaCont) (x : Entry) : State → ERes :=
  headStep (.mrun tk k c) x (mrStep x.snap.mrctl x.snap.nest[k] c x.prog) (mrunChecks (.mrun tk k c) x k c) fun u =>
    if x.prog + 1 < x.snap.nest[k].trips.foldl (· * ·) 1 then .part u x.stepOn else .issue u {}

theorem exec_mrun (tk : Tok) (k : Fin 2) (c : MmaCont) (s : State) :
    exec (.mrun tk k c) s = engWord .matrix tk (.mrun tk k c) s (mrunBody tk k c) := rfl

/-- An MMA or an MRUN whose fields and trip counts hold does the step that stands at the queue's head. -/
theorem exec_of_stepForm {i : Instr} {tk : Tok} {m : MStep} {last : Bool} {x : Entry}
    (hform : stepForm x i = some (tk, m, last)) (s : State) : ∃ body chk, chk s = none ∧
      exec i s = engWord .matrix tk i s body ∧ body x s = headStep i x m chk (stepEnds last x) s := by
  unfold stepForm at hform
  split at hform
  next t o c =>
    cases hform
    exact ⟨fun x u => headStep (.mma tk o c) x ⟨o, c, 0⟩ (fun _ => none) (fun u => .issue u {}) u, fun _ => none,
      rfl, rfl, rfl⟩
  next t k c =>
    dsimp only at hform
    split at hform
    · cases hform
    next hok =>
      obtain ⟨hfields, htrips⟩ : mrBad x.snap.mrctl c.tb = false ∧ tripsBad x.snap.nest[k] = none := by
        simpa using hok
      cases hform
      exact ⟨mrunBody tk k c, mrunChecks (.mrun tk k c) x k c, mrunChecks_none hfields htrips s, exec_mrun ..,
        congrArg (headStep _ x _ _ · s) (funext fun u => (stepEnds_le _ x u).symm)⟩
  next => cases hform

/-! ### What a product step leaves (R143, R202) -/

/-- In bank 0 a word that goes does what its body answers. -/
theorem engWord_bank0 {e : Engine} {tk : Tok} {i : Instr} {s : State} {x : Entry} {rest : List QItem}
    {body : Entry → State → ERes} (hhead : headWord e s = some (x, rest)) (hgoes : engGoes e tk x s = true)
    (hbank : s.core.ctl.bank1 = false) : engWord e tk i s body = engFinish e tk x s (body x s) :=
  engWord_goes body hhead hgoes (by simp [Core.settlesNow, hbank])

/-- A word that may leave its engine's head has not issued, and no rollback is under way. -/
theorem fresh_of_engReady {e : Engine} {tk : Tok} {x : Entry} {s : State} (h : engReady e tk x s = true) :
    x.started = false ∧ s.core.phase.rollback = false := by
  simp_all [engReady]

theorem engWaits_of_pass {i : Instr} {e : Engine} {s : State} (h : exec i s = .next s.pass) : EngWaits i e s :=
  ⟨s.pass, h,
    { others := fun _ _ => rfl, ctl := rfl, tick := rfl, gtick := rfl, jig := rfl, vis := rfl, hook := rfl },
    rfl, rfl, rfl, rfl, rfl, MemSame.of_eq rfl rfl rfl rfl⟩

/-- The trap-state registers of a cause taken in bank 0 outside a hook (R14, R15). -/
theorem takeTrap_registers (t : TrapRec) {s : State} (huser : inUser s = true) :
    (takeTrap t s).core.ctl.bank1 = true ∧ (takeTrap t s).core.ctl.regs.ecause = t.cause ∧
      (takeTrap t s).core.ctl.regs.einfo = t.info ∧ (takeTrap t s).core.ctl.regs.eaddr = t.addr := by
  rw [takeTrap_core t huser]
  exact ⟨rfl, rfl, rfl, rfl⟩

theorem inUser_congr {s u : State} (h : u.core.ctl = s.core.ctl) : inUser u = inUser s := by rw [inUser, inUser, h]

/-- A silent error in a phase that can be retried asks for its rollback and leaves the engines (R377). -/
theorem silentError_retries (t : TrapRec) {s : State} (h : s.core.canRetry = true) :
    (silentError t s).core.phase.rollback = true ∧ ∀ e, (silentError t s).core.eng e = s.core.eng e := by
  unfold silentError State.beginDelay
  simp only [h, if_true, State.upd_core]
  split <;> exact ⟨rfl, fun e => by cases e <;> rfl⟩

theorem bank1_of_canRetry {c : Core} (h : c.canRetry = true) : c.ctl.bank1 = false := by
  simp_all [Core.canRetry]

theorem putHead_queue {e : Engine} {s u : State} {x y : Entry} {rest : List QItem}
    (hhead : headWord e s = some (x, rest)) (heng : u.core.eng e = s.core.eng e) :
    ((putHead e y u).core.eng e).queue = .word y :: rest := by
  simp [putHead, heng, headWord_queue hhead]

theorem putHead_canRetry (e : Engine) (y : Entry) (s : State) : (putHead e y s).core.canRetry = s.core.canRetry := by
  cases e <;> rfl

theorem MatrixBody.popOne (x : Entry) (s : State) : MatrixBody s (MStep.popOne x s).1 :=
  (MatrixBody.setMatrix s s.free _ _).trans (Marks.readsIf _ _).toMatrixBody

theorem MStep.popOne_mx (x : Entry) (s : State) : (MStep.popOne x s).1.core.mx =
    { s.core.mx with wfifo := s.core.mx.wfifo.drop 1, scf := s.core.mx.scf.drop 1 } :=
  (Marks.readsIf _ _).mx

section
variable {s : State} {i : Instr} {tk : Tok} {m : MStep} {last : Bool} {x : Entry} {rest : List QItem}
  (hform : stepForm x i = some (tk, m, last)) (hhead : headWord .matrix s = some (x, rest))
  (hgoes : engGoes .matrix tk x s = true) (hroll : s.core.phase.rollback = false)
include hform hhead hgoes hroll

/-- A step whose FIFOs are short waits (R175, R177). -/
theorem productStep_waits (hheld : x.held = none) (hbank : s.core.ctl.bank1 = false) (hready : m.ready x s.core = false)
    (hmore : m.more x s.core = false) : EngWaits i .matrix s := by
  obtain ⟨body, chk, -, hexec, hbody⟩ := exec_of_stepForm hform s
  refine engWaits_of_pass ?_
  rw [hexec, engWord_bank0 hhead hgoes hbank, hbody, headStep_short hroll hheld hready hmore]
  rfl

/-- One whose operands do not fit traps (R170). -/
theorem productStep_refused {r : Nat} (hheld : x.held = none) (hbank : s.core.ctl.bank1 = false)
    (hfifos : m.ready x s.core = true ∨ m.more x s.core = true)
    (hrefused : m.refused x (m.sees s.core s.free) = some r) :
    exec i s = .next (engTrap .matrix (illegal i r x.addr 2) x (m.spend s)) := by
  obtain ⟨body, chk, hchk, hexec, hbody⟩ := exec_of_stepForm hform s
  rw [hexec, engWord_bank0 hhead hgoes hbank, hbody, headStep_refused hroll hheld hchk hfifos hrefused]
  cases hstarted : x.started <;> simp [atProgress, engFinish, engTrap, illegal, hstarted]

/-- One that takes more blocks than the weight FIFO holds pops one (R177, log 74). -/
theorem productStep_pops (hheld : x.held = none) (hready : m.ready x s.core = false) (hmore : m.more x s.core = true)
    (hrefused : m.refused x (m.sees s.core s.free) = none) :
    ∃ t y, exec i s = .next t ∧ EngStays .matrix tk x rest x.prog s t ∧ RestSame s t ∧
      t.core.q = s.core.q ∧ t.core.vec = s.core.vec ∧ (t.core.eng .matrix).queue = .word y :: rest ∧
      y.blocks = x.blocks ++ s.core.mx.wfifo.take 1 ∧ y.batches = x.batches ++ s.core.mx.scf.take 1 ∧
      t.core.mx = { s.core.mx with wfifo := s.core.mx.wfifo.drop 1, scf := s.core.mx.scf.drop 1 } := by
  obtain ⟨body, chk, hchk, hexec, hbody⟩ := exec_of_stepForm hform s
  obtain ⟨t, y, ht, hstays, hrest, hq, hvec, hmx, hqueue, hblocks, hbatches, -⟩ := engWord_stays hhead hgoes
    (hbody.trans (headStep_more hroll hheld hchk hrefused hready hmore)) (MatrixBody.popOne x s) rfl rfl rfl
  exact ⟨t, y, hexec.trans ht, hstays, hrest, hq, hvec, hqueue, hblocks, hbatches, hmx.trans (MStep.popOne_mx x s)⟩

/-- One whose scales do not end with a batch traps with 0x0A (R176). -/
theorem productStep_batchTrap {info : DWord} (hheld : x.held = none) (huser : inUser s = true)
    (hready : m.ready x s.core = true) (hrefused : m.refused x (m.sees s.core s.free) = none)
    (hfail : (m.take x s.core).fail = some info) :
    ∃ t, exec i s = .next t ∧ t.core.ctl.bank1 = true ∧ t.core.ctl.regs.ecause = 0x0A ∧
      t.core.ctl.regs.einfo = info ∧ t.core.ctl.regs.eaddr = x.addr := by
  obtain ⟨body, chk, hchk, hexec, hbody⟩ := exec_of_stepForm hform s
  have hctl := ((MatrixBody.taken m x s).trans (Marks.takeMarks m _).toMatrixBody).ctl
  rw [hexec, engWord_bank0 hhead hgoes (inUser_iff.mp huser).1, hbody,
    headStep_ready hroll hheld hchk hrefused hready, takeStep_trap hfail]
  cases hstarted : x.started with
  | true =>
    refine ⟨_, rfl, takeTrap_registers _ ((inUser_congr ?_).trans huser)⟩
    simp only [hstarted, if_true]
    exact (Core.setEng_ctl ..).trans hctl
  | false => exact ⟨_, rfl, takeTrap_registers _ ((inUser_congr hctl).trans huser)⟩

/-- A step issues, its scales and blocks taken (R175, R177, R202). -/
theorem productStep_takes (hheld : x.held = none) (hready : m.ready x s.core = true)
    (hrefused : m.refused x (m.sees s.core s.free) = none) (hfail : (m.take x s.core).fail = none) :
    ∃ t, exec i s = .next t ∧ EngStays .matrix tk x rest x.prog s t ∧ RestSame s t ∧
      t.core.q = s.core.q ∧ t.core.vec = s.core.vec ∧ StepTakes x m s t := by
  obtain ⟨body, chk, hchk, hexec, hbody⟩ := exec_of_stepForm hform s
  obtain ⟨hword, hsnap, haddr, hprog⟩ := m.filled_fields x s.core
  have hmarks := (Marks.takeMarks m (m.taken x s)).trans (.stepMarks m _)
  obtain ⟨t, y, ht, hstays, hrest, hq, hvec, hmx, hqueue, hblocks, hbatches, hholds⟩ := engWord_stays hhead hgoes
    (hbody.trans ((headStep_ready hroll hheld hchk hrefused hready).trans (takeStep_part hfail)))
    ((MatrixBody.taken m x s).trans hmarks.toMatrixBody) hword hsnap haddr
  exact ⟨t, hexec.trans ht, hprog ▸ hstays, hrest, hq, hvec,
    stepTakes_of_mx hqueue hholds hblocks hbatches (hmx.trans hmarks.mx)⟩

/-- A compared row that fails rolls the phase back (R184, R377). -/
theorem productStep_rollsBack {h : HeldStep} {row : Nat} {u : State} (hheld : x.held = some h)
    (hbank : s.core.ctl.bank1 = false) (hrun : runStep x m h s = .check row u) (hretry : u.core.canRetry = true) :
    ∃ t, exec i s = .next t ∧ t.core.phase.rollback = true ∧
      (t.core.eng .matrix).queue = .word { x with held := none } :: rest := by
  obtain ⟨body, chk, -, hexec, hbody⟩ := exec_of_stepForm hform s
  obtain ⟨ck, ph, -, hcases⟩ := runStep_cases x m h s
  have hu : u.core.eng .matrix = s.core.eng .matrix := by
    obtain hdone | ⟨-, r, hcheck⟩ := hcases
    · rw [hrun] at hdone
      cases hdone
    · obtain ⟨-, rfl⟩ := StepOut.check.inj (hrun.symm.trans hcheck)
      exact (MatrixBody.setMatrix s _ _ ph).eng
  rw [hexec, engWord_bank0 hhead hgoes hbank, hbody, headStep_held hroll hheld, hrun]
  obtain ⟨hrollback, hengs⟩ := silentError_retries
    { cause := 0x12, info := BitVec.ofNat 64 (2 * 2 ^ 8 + row * 2 ^ 16), origin := 2 }
    ((putHead_canRetry .matrix { x with held := none } u).trans hretry)
  exact ⟨_, rfl, hrollback, (congrArg Eng.queue (hengs .matrix)).trans (putHead_queue hhead hu)⟩

/-- A step that has issued computes, and the word goes on or issues (R169, R172, R202, R203). -/
theorem productStep_computes {h : HeldStep} (hwf : s.core.mx.acc.wf = true) (hheld : x.held = some h)
    (hpasses : m.o.ck = true → ∃ u, runStep x m h s = .done u) :
    ∃ t, exec i s = .next t ∧ EngStep last .matrix tk x rest s t ∧ RestSame s t ∧
      t.core.q = s.core.q ∧ t.core.vec = s.core.vec ∧ StepDone x m h s t ∧
      (m.o.ck = false → t.core.mx.ck = s.core.mx.ck) := by
  obtain ⟨body, chk, -, hexec, hbody⟩ := exec_of_stepForm hform s
  obtain ⟨ck, ph, hck, hcases⟩ := runStep_cases x m h s
  have hrun : runStep x m h s = .done (s.setMatrix (s.free + 65536) (stepMatrix x m h s ck) ph) := by
    obtain hdone | ⟨hchecks, row, hcheck⟩ := hcases
    · exact hdone
    · obtain ⟨u, hu⟩ := hpasses hchecks
      cases hu.symm.trans hcheck
  have hkeeps := MatrixBody.setMatrix s (s.free + 65536) (stepMatrix x m h s ck) ph
  rw [headStep_held hroll hheld, hrun] at hbody
  cases last with
  | true =>
    obtain ⟨t, ht, hissues, hrest, hq, hvec, hmx⟩ := engWord_issues hhead hgoes hbody hkeeps
    exact ⟨t, hexec.trans ht, hissues, hrest, hq, hvec, stepDone_of_mx hwf hmx, fun h => by rw [hmx]; exact hck h⟩
  | false =>
    obtain ⟨t, -, ht, hstays, hrest, hq, hvec, hmx, -⟩ := engWord_stays hhead hgoes hbody hkeeps rfl rfl rfl
    exact ⟨t, hexec.trans ht, hstays, hrest, hq, hvec, stepDone_of_mx hwf hmx, fun h => by rw [hmx]; exact hck h⟩

end

/-! ### An MRUN whose MRCTL or trip counts are refused (R178, R179) -/

section
variable {s : State} {tk : Tok} {x : Entry} {rest : List QItem} {k : Fin 2} {c : MmaCont}
  (hhead : headWord .matrix s = some (x, rest)) (hready : engReady .matrix tk x s = true) (hheld : x.held = none)
  (hfifos : (mrStep x.snap.mrctl x.snap.nest[k] c x.prog).ready x s.core = true ∨
    (mrStep x.snap.mrctl x.snap.nest[k] c x.prog).more x s.core = true)
include hhead hready hheld hfifos

/-- A check that an MRUN fails traps before it issues. -/
theorem exec_mrun_checked {r : TrapRec} (hchk : mrunChecks (.mrun tk k c) x k c s = some (.trap r s)) :
    exec (.mrun tk k c) s = .next (takeTrap { r with origin := 2 } s).pass := by
  obtain ⟨hstarted, hroll⟩ := fresh_of_engReady hready
  rw [exec_mrun, engWord_goes _ hhead (engGoes_of_ready hready) (by simp [hstarted]), mrunBody,
    headStep_checked hroll hheld hfifos hchk]
  rfl

theorem exec_mrun_badFields (hbad : mrBad x.snap.mrctl c.tb = true) :
    exec (.mrun tk k c) s = .next (takeTrap (illegal (.mrun tk k c) 0x03 x.addr 2) s).pass :=
  exec_mrun_checked hhead hready hheld hfifos (r := illegal (.mrun tk k c) 0x03 x.addr 2) (by
    rw [mrunChecks, illegalIf, if_pos hbad]
    rfl)

theorem exec_mrun_badTrips {o : Nat} (hfields : mrBad x.snap.mrctl c.tb = false)
    (hbad : tripsBad x.snap.nest[k] = some o) :
    exec (.mrun tk k c) s = .next (takeTrap
      { cause := 0x1A, info := BitVec.ofNat 64 (nestBase k + o), addr := x.addr, origin := 2 } s).pass :=
  exec_mrun_checked hhead hready hheld hfifos
    (r := { cause := 0x1A, info := BitVec.ofNat 64 (nestBase k + o), addr := x.addr }) (by
    simp only [mrunChecks, illegalIf, hfields, hbad]
    rfl)

end

/-! ### The obligation -/

/-- Settles O36: a step's act is that of its word's body at the head of the matrix queue, case by case, and what it
takes and leaves is read off the matrix path; its elements stand in the bytes that it writes. -/
theorem productSteps : Obligations.ProductSteps := by
  refine ⟨?step, ?refused, ?integer⟩
  case step =>
    intro s i tk m last x rest hform hhead hgoes hwf hroll seen
    exact ⟨productStep_waits hform hhead hgoes hroll,
      fun _ => productStep_refused hform hhead hgoes hroll,
      productStep_pops hform hhead hgoes hroll,
      fun _ => productStep_batchTrap hform hhead hgoes hroll,
      productStep_takes hform hhead hgoes hroll,
      fun _ _ _ hheld hretry => productStep_rollsBack hform hhead hgoes hroll hheld (bank1_of_canRetry hretry),
      fun _ => productStep_computes hform hhead hgoes hroll hwf⟩
  case refused =>
    intro s tk k c x rest hhead hready hheld m i hfifos
    exact ⟨exec_mrun_badFields hhead hready hheld hfifos, fun _ => exec_mrun_badTrips hhead hready hheld hfifos⟩
  case integer =>
    intro x m h c n r k hprofile old row col
    rw [stepWord_integer hprofile]
    exact ⟨toInt_add_ofInt_emod _ _, rfl⟩

end Sys2Proof.Machine

namespace Sys2Proof.Machine

/-! ### What a word at its engine's head answers (R143) -/

/-- The body of a word answers r at the head of its engine's queue. -/
def HeadAnswers (i : Instr) (e : Engine) (tk : Tok) (x : Entry) (s : State) (r : ERes) : Prop :=
  ∃ body, exec i s = engWord e tk i s body ∧ body x s = r

namespace HeadAnswers

section
variable {i : Instr} {e : Engine} {tk : Tok} {x : Entry} {s : State} {r : ERes} {rest : List QItem}
  (hhead : headWord e s = some (x, rest))
include hhead

/-- A word that may leave does what its body answers. -/
theorem finish (h : HeadAnswers i e tk x s r) (hready : engReady e tk x s = true) :
    exec i s = engFinish e tk x s r := by
  obtain ⟨body, hexec, rfl⟩ := h
  rw [hexec, engWord_ready body (headWord_queue hhead) hready]

variable (hgoes : engGoes e tk x s = true)
include hgoes

/-- A word whose body waits changes nothing, where its engine does not settle before a handler. -/
theorem waits (h : HeadAnswers i e tk x s .wait) (hsettled : (x.started && s.core.settlesNow e) = false) :
    EngWaits i e s := by
  obtain ⟨body, hexec, hbody⟩ := h
  refine engWaits_of_pass ?_
  rw [hexec, engWord_goes body hhead hgoes hsettled, hbody]
  rfl

variable {u : State} (hkeeps : EngBody e s u)
include hkeeps

/-- A word whose body issues waits for its retirement with what the body named. -/
theorem issues {w : Issued} (h : HeadAnswers i e tk x s (.issue u w)) :
    ∃ t, exec i s = .next t ∧ EngIssues e tk x rest s t ∧ EngLeaves u t ∧
      ∃ v ∈ (t.core.eng e).issued, v.fills = w.fills ∧ v.frees = w.frees ∧ v.upto = w.upto := by
  obtain ⟨body, hexec, hbody⟩ := h
  obtain ⟨hissues, hleaves, hissued⟩ := issueWord_spec (tk := tk) w hhead hkeeps
  refine ⟨_, hexec.trans (engWord_issue hhead hgoes hbody), hissues, hleaves, ?_⟩
  rw [hissued]
  exact ⟨_, List.mem_concat_self, rfl, rfl, rfl⟩

/-- A word whose body stands at a progress point stays with what the body put into its entry. -/
theorem stays {y : Entry} (h : HeadAnswers i e tk x s (.part u y)) (hword : y.word = x.word)
    (hsnap : y.snap = x.snap) (haddr : y.addr = x.addr) :
    ∃ t z, exec i s = .next t ∧ EngStays e tk x rest y.prog s t ∧ EngLeaves u t ∧
      (t.core.eng e).queue = .word z :: rest ∧ z.started = true ∧ z.word = y.word ∧ z.rows = y.rows ∧
      z.index = y.index ∧ z.due = y.due := by
  obtain ⟨body, hexec, hbody⟩ := h
  obtain ⟨hstays, hleaves, hqueue⟩ := stayWord_spec (tk := tk) hhead hkeeps hword hsnap haddr
  exact ⟨_, _, hexec.trans (engWord_part hhead hgoes hbody), hstays, hleaves, hqueue, rfl, rfl, rfl, rfl, rfl⟩

/-- A word that works in parts stays with one more done, or issues as the last is. -/
theorem step {last : Bool} {w : Issued} {y : Entry}
    (h : HeadAnswers i e tk x s (if last then .issue u w else .part u y)) (hprog : y.prog = x.prog + 1)
    (hword : y.word = x.word) (hsnap : y.snap = x.snap) (haddr : y.addr = x.addr) :
    ∃ t, exec i s = .next t ∧ EngStep last e tk x rest s t ∧ EngLeaves u t := by
  cases last with
  | true =>
    obtain ⟨t, ht, hissues, hleaves, -⟩ := h.issues hhead hgoes hkeeps
    exact ⟨t, ht, hissues, hleaves⟩
  | false =>
    obtain ⟨t, -, ht, hstays, hleaves, -⟩ := h.stays hhead hgoes hkeeps hword hsnap haddr
    rw [hprog] at hstays
    exact ⟨t, ht, hstays, hleaves⟩

end

end HeadAnswers

/-! ### What the body of a load word keeps (R189, R376) -/

/-- The engine frame, every unit but the matrix path and the queues, and memory. -/
structure LoadBody (s u : State) : Prop extends EngBody .load s u where
  rest : RestSame s u
  vec : u.core.vec = s.core.vec

theorem LoadBody.refl (s : State) : LoadBody s s := ⟨EngBody.refl _ s, RestSame.refl s, rfl⟩

theorem LoadBody.trans {s t u : State} (h : LoadBody s t) (k : LoadBody t u) : LoadBody s u :=
  ⟨h.toEngBody.trans k.toEngBody, h.rest.trans k.rest, k.vec.trans h.vec⟩

theorem LoadBody.updMx (s : State) (f : Core → Matrix) : LoadBody s (s.upd fun c => { c with mx := f c }) :=
  ⟨EngBody.mx _ s f, RestSame.of_eq rfl rfl rfl rfl rfl rfl rfl, rfl⟩

theorem LoadBody.updQ (s : State) (f : Queues → Queues) : LoadBody s (s.updQ f) :=
  ⟨EngBody.updQ _ s f, RestSame.of_eq rfl rfl rfl rfl rfl rfl rfl, rfl⟩

theorem LoadBody.updCarried (s : State) (f : Carried → Carried) : LoadBody s (s.updCarried f) :=
  ⟨EngBody.updCarried _ s f, RestSame.of_eq rfl rfl rfl rfl rfl rfl rfl, rfl⟩

theorem LoadBody.setIrrev (s : State) : LoadBody s s.setIrrev :=
  have hrest : RestSame s s.setIrrev := by apply RestSame.of_eq <;> simp
  ⟨EngBody.setIrrev _ s, hrest, by simp⟩

theorem LoadBody.readsIf (s : State) (b : Bool) : LoadBody s (s.readsIf b) := by
  unfold State.readsIf
  split
  · exact .setIrrev s
  · exact .refl s

theorem LoadBody.pushVq (s : State) (k : Fin 4) (x : LaneEntry) : LoadBody s (s.pushVq k x) := .updQ s _

theorem LoadBody.popVq (s : State) (k : Fin 4) : LoadBody s (s.popVq k) := (LoadBody.readsIf s _).trans (.updQ _ _)

theorem LoadBody.popCarried (s : State) (q : PopQ) : LoadBody s (s.popCarried q) := by
  obtain ⟨u, k, hu, hpop⟩ := s.popCarried_eq q
  rw [hpop]
  obtain rfl | rfl := hu
  · exact .updCarried _ fun _ => k
  · exact (LoadBody.setIrrev s).trans (.updCarried _ fun _ => k)

theorem LoadBody.popRq (s : State) (k : Fin 2) : LoadBody s (s.popRq k) := by
  unfold State.popRq
  exact (LoadBody.popCarried s _).trans (.updQ _ _)

theorem LoadBody.fillTile (s : State) (d : Fin 16) (clear : Bool) (rows : List (List Byte)) (f : BitVec 4)
    (r e : Nat) : LoadBody s (s.fillTile d clear rows f r e) := by
  unfold State.fillTile
  exact (LoadBody.updMx s _).trans (.updCarried _ _)

/-! ### The index queues (R197, R376) -/

/-- The queue that an index queue's number names. -/
def rqName (k : Fin 2) : PopQ := if k = 0 then .rq0 else .rq1

theorem State.popCarried_q (s : State) (q : PopQ) : (s.popCarried q).core.q = s.core.q := by
  obtain ⟨u, k, rfl | rfl, hpop⟩ := s.popCarried_eq q <;> simp [hpop, State.upd]

theorem State.popCarried_mx (s : State) (q : PopQ) : (s.popCarried q).core.mx = s.core.mx := by
  obtain ⟨u, k, rfl | rfl, hpop⟩ := s.popCarried_eq q <;> simp [hpop, State.upd]

theorem State.popRq_q (s : State) (k : Fin 2) : (s.popRq k).core.q = s.core.q.drop (rqName k) :=
  congrArg (Queues.drop · (rqName k)) (s.popCarried_q (rqName k))

theorem State.popRq_mx (s : State) (k : Fin 2) : (s.popRq k).core.mx = s.core.mx := s.popCarried_mx (rqName k)

theorem Queues.rq_drop (q : Queues) (k : Fin 2) : (q.drop (rqName k)).rq k = (q.rq k).tail := by
  by_cases hk : k = 0 <;> simp [rqName, Queues.rq, Queues.drop, hk]

theorem Queues.vq_drop (q : Queues) (p : PopQ) : (q.drop p).vq = q.vq := by cases p <;> rfl

theorem State.popRq_rq {s : State} {k : Fin 2} {u : Word} {us : List Word} (h : s.core.q.rq k = u :: us) :
    (s.popRq k).core.q.rq k = us := by
  rw [State.popRq_q, Queues.rq_drop, h, List.tail_cons]

theorem State.popRq_vq (s : State) (k : Fin 2) : (s.popRq k).core.q.vq = s.core.q.vq := by
  rw [State.popRq_q, Queues.vq_drop]

end Sys2Proof.Machine

namespace Sys2Proof.Machine

/-! ### The bytes of a filled tile (R167, R192) -/

/-- Rows written into a tile leave what lies below their first row. -/
theorem tileRows_read_below {m : Mem} {t : Fin 16} {k a : Nat} (rows : List (List Byte))
    (ha : a < t.val * tileSize + 256 * k) : (tileRows m t k rows).read a = m.read a := by
  induction rows generalizing m k with
  | nil => rfl
  | cons row rows ih =>
    rw [tileRows, ih (by omega), Mem.read_write, if_neg (by omega)]

/-- They leave what lies above their last row. -/
theorem tileRows_read_above {m : Mem} {t : Fin 16} {k a : Nat} {rows : List (List Byte)}
    (hfit : ∀ row ∈ rows, row.length ≤ 256) (ha : t.val * tileSize + 256 * (k + rows.length) ≤ a) :
    (tileRows m t k rows).read a = m.read a := by
  induction rows generalizing m k with
  | nil => rfl
  | cons row rows ih =>
    obtain ⟨hrow, hrows⟩ := List.forall_mem_cons.mp hfit
    rw [List.length_cons] at ha
    rw [tileRows, ih hrows (by omega), Mem.read_write, if_neg (by omega)]

/-- Row r holds the bytes of the row written there, and past its end what it held. -/
theorem tileRows_read_row {m : Mem} {t : Fin 16} {k r j : Nat} {rows : List (List Byte)}
    (hfit : ∀ row ∈ rows, row.length ≤ 256) (hj : j < 256) :
    (tileRows m t k rows).read (t.val * tileSize + 256 * (k + r) + j)
      = if j < (rows.getD r []).length then (rows.getD r []).getD j 0
        else m.read (t.val * tileSize + 256 * (k + r) + j) := by
  induction rows generalizing m k r with
  | nil => simp [tileRows]
  | cons row rows ih =>
    obtain ⟨hrow, hrows⟩ := List.forall_mem_cons.mp hfit
    cases r with
    | zero =>
      rw [tileRows, tileRows_read_below rows (by omega), Mem.read_write, List.getD_cons_zero]
      refine if_congr (by omega) ?_ rfl
      congr 1
      omega
    | succ r =>
      have hkept : (m.write (t.val * tileSize + 256 * k) row).read (t.val * tileSize + 256 * (k + 1 + r) + j)
          = m.read (t.val * tileSize + 256 * (k + 1 + r) + j) := by rw [Mem.read_write, if_neg (by omega)]
      rw [tileRows, ← Nat.add_assoc k r 1, Nat.add_right_comm k r 1, ih hrows, List.getD_cons_succ, hkept]

/-- The tiles before a tile is filled: with `.Z` its bytes are 0. -/
def clearedTile (m : Mem) (t : Fin 16) (clear : Bool) : Mem :=
  if clear then m.write (t.val * tileSize) (List.replicate tileSize 0) else m

theorem clearedTile_wf {m : Mem} (h : m.wf = true) (t : Fin 16) (clear : Bool) : (clearedTile m t clear).wf = true := by
  unfold clearedTile
  split
  · exact Mem.wf_write h _ _
  · exact h

theorem clearedTile_read_inside {m : Mem} {t : Fin 16} {clear : Bool} {a : Nat}
    (ha : t.val * tileSize ≤ a ∧ a < t.val * tileSize + tileSize) :
    (clearedTile m t clear).read a = if clear then 0 else m.read a := by
  cases clear with
  | false => rfl
  | true =>
    rw [clearedTile, if_pos rfl, Mem.read_write, if_pos (by rwa [List.length_replicate]),
      List.getD_replicate _ (by omega), if_pos rfl]

theorem clearedTile_read_outside {m : Mem} {t : Fin 16} {clear : Bool} {a : Nat}
    (ha : ¬ (t.val * tileSize ≤ a ∧ a < t.val * tileSize + tileSize)) :
    (clearedTile m t clear).read a = m.read a := by
  cases clear with
  | false => rfl
  | true => rw [clearedTile, if_pos rfl, Mem.read_write, if_neg (by rwa [List.length_replicate])]

/-- The matrix path after a tile is filled. -/
theorem State.fillTile_mx (s : State) (t : Fin 16) (clear : Bool) (rows : List (List Byte)) (f : BitVec 4) (r e : Nat) :
    (s.fillTile t clear rows f r e).core.mx = { s.core.mx with
      tiles := tileRows (clearedTile s.core.mx.tiles t clear) t 0 rows
      shape := s.core.mx.shape.set t.val { fmt := f, rows := BitVec.ofNat 7 r, elems := BitVec.ofNat 10 e } t.isLt
      sums := s.core.mx.sums.set t.val
        (tileSums (tileRows (clearedTile s.core.mx.tiles t clear) t 0 rows) t f r e) t.isLt } := rfl

theorem tileRow_getD {c : Core} (h : c.mx.tiles.wf = true) (t : Fin 16) (r : Nat) {j : Nat} (hj : j < 256) :
    (tileRow c t r).getD j 0 = c.mx.tiles.read (t.val * tileSize + 256 * r + j) :=
  Mem.readN_getD h _ _ _ hj

/-- Elements that lie in the first bytes of a row are those of these bytes. -/
theorem elemOf_of_prefix {l m : List Byte} (h : l <+: m) {b n : Nat} (hn : b * (n + 1) ≤ 8 * l.length) :
    elemOf b m n = elemOf b l n := by
  obtain ⟨k, rfl⟩ := h
  have hbytes : 8 * (b / 8) * (n + 1) ≤ 8 * l.length :=
    (Nat.mul_le_mul_right _ (Nat.mul_div_le b 8)).trans hn
  have hend : b / 8 * n + b / 8 ≤ l.length := by
    rw [Nat.mul_assoc, Nat.mul_add_one] at hbytes
    omega
  unfold elemOf
  split
  next hb =>
    subst hb
    rw [List.getD_append _ _ _ _ (by omega)]
  next =>
    rw [List.drop_append_of_le_length (by omega), List.take_append_of_le_length (by rw [List.length_drop]; omega)]

/-- What a tile holds once rows have been written into it (R167, R192). -/
theorem tileHolds_fillTile {s u : State} {t : Fin 16} {clear : Bool} {rows : List (List Byte)} {b n : Nat}
    (hwf : s.core.mx.tiles.wf = true) (hcount : rows.length ≤ 64)
    (hrows : ∀ row ∈ rows, row.length ≤ 256 ∧ b * n ≤ 8 * row.length)
    (htiles : u.core.mx.tiles = tileRows (clearedTile s.core.mx.tiles t clear) t 0 rows) :
    TileHolds t b n rows clear s u := by
  have hfit : ∀ row ∈ rows, row.length ≤ 256 := fun row h => (hrows row h).1
  have huwf : u.core.mx.tiles.wf = true := htiles ▸ tileRows_wf (clearedTile_wf hwf t clear) t 0 rows
  have hsize : tileSize = 16384 := rfl
  have hread {r j : Nat} (hj : j < 256) : (tileRow u.core t r).getD j 0
      = if j < (rows.getD r []).length then (rows.getD r []).getD j 0
        else (clearedTile s.core.mx.tiles t clear).read (t.val * tileSize + 256 * r + j) := by
    have h := tileRows_read_row (m := clearedTile s.core.mx.tiles t clear) (t := t) (k := 0) (r := r) hfit hj
    rwa [Nat.zero_add, ← htiles, ← tileRow_getD huwf t r hj] at h
  refine ⟨fun r j hr hj => ?elem, fun r j hr hlen hj => ?past, fun a ha => ?other⟩
  case elem =>
    obtain ⟨hlen, helems⟩ := hrows _ (List.getElem_mem hr)
    have hrow : rows.getD r [] = rows[r] := List.getD_eq_getElem _ _ hr
    refine elemOf_of_prefix (List.prefix_iff_getElem.mpr ⟨?_, fun k hk => ?_⟩) ?_
    · rw [hrow, tileRow, Mem.readN_length]
      exact hlen
    · have h := hread (r := r) (j := k) (by rw [hrow] at hk; omega)
      rw [if_pos hk, List.getD_eq_getElem _ _ hk, List.getD_eq_getElem] at h
      exact h.symm
    · rw [hrow]
      exact (Nat.mul_le_mul_left b hj).trans helems
  case past =>
    rw [hread hj, if_neg (by omega), clearedTile_read_inside (by omega), tileRow_getD hwf t r hj]
  case other =>
    rw [htiles]
    obtain hlow | hhigh : a < t.val * tileSize + 256 * 0 ∨ t.val * tileSize + 256 * (0 + rows.length) ≤ a := by
      rw [hsize]
      omega
    · rw [tileRows_read_below rows hlow, clearedTile_read_outside (by rw [hsize]; omega)]
    · rw [tileRows_read_above hfit hhigh, clearedTile_read_outside (by rw [hsize]; omega)]

/-- The shapes and sums once a tile has been filled (R168, R194). -/
theorem shapeIs_fillTile {s u v : State} {t : Fin 16} {clear : Bool} {rows : List (List Byte)} {f : BitVec 4} {r e : Nat}
    (hv : v.core.mx = s.core.mx) (hmx : u.core.mx = (v.fillTile t clear rows f r e).core.mx) :
    ShapeIs t f r e s u := by
  rw [State.fillTile_mx, hv] at hmx
  have hslot (k : Fin 16) : t.val = k.val ↔ k = t := by rw [eq_comm, Fin.ext_iff]
  refine ⟨fun k => ?_, fun k => ?_⟩
  · rw [hmx]
    exact (Vector.getElem_set t.isLt k.isLt).trans (if_congr (hslot k) rfl rfl)
  · rw [hmx]
    exact (Vector.getElem_set t.isLt k.isLt).trans (if_congr (hslot k) rfl rfl)

end Sys2Proof.Machine

namespace Sys2Proof.Machine

/-! ### How the load words answer (R192 to R200) -/

/-- A word that works in parts, its two answers the other way round. -/
theorem ite_lt_eq_ite_le {α : Type} (a b : Nat) (p q : α) :
    (if a < b then p else q) = if decide (b ≤ a) then q else p := by
  simp only [decide_eq_true_eq, ← Nat.not_lt, ite_not]

/-- A batch of scales has the geometry and the format that LDSC asks for (R196). -/
theorem scaleBatch_geometry {r : StReg} (hpos : 0 < r.rows.toNat) (hfmt : r.fmt = 6) (hbytes : r.rbytes = 64) :
    r.emptyGeo = false ∧ r.badFmt = false := by
  have hrows : r.rows ≠ 0 := fun h => by simp [h] at hpos
  exact ⟨by simpa [StReg.emptyGeo, hbytes] using hrows, by simp [StReg.badFmt, hfmt, fmtBits, quantised]⟩

/-- A count and a geometry that LDX takes (R197). -/
theorem ldx_geometry {r : StReg} {n : BitVec 9} (hpos : 0 < n.toNat) (hmax : n.toNat ≤ 64) (hgeo : r.emptyGeo = false)
    (hbytes : r.rbytes.toNat ≤ 256) :
    (decide (n = 0) || decide (64 < n.toNat) || r.emptyGeo || decide (256 < r.rbytes.toNat)) = false := by
  have hn : n ≠ 0 := fun h => by simp [h] at hpos
  simpa [Nat.not_lt.mpr hmax, hgeo, Nat.not_lt.mpr hbytes] using hn

/-- An index past the last row reads nothing, and one of a row whose checks pass goes on (R197). -/
theorem ite_map_none {p : Prop} [Decidable p] {r : Option ERes} (h : p → r = none) (f : ERes → ERes) :
    (if p then r.map f else none) = none := by
  split
  next hp => rw [h hp, Option.map_none]
  next => rfl

section
variable {s : State} {tk : Tok} {x : Entry} {st : Fin 16}

theorem ldt_answers_badGeo {d : Fin 16} {z tr : Bool} (hbad : ldtBadGeo x.snap.st[st] tr = true) :
    HeadAnswers (.ldt tk d st z tr) .load tk x s
      (.trap (illegal (.ldt tk d st z tr) 0x03 x.addr 1) s) := by
  change ∃ body, execLdt tk d st z tr s = _ ∧ _
  unfold execLdt
  refine ⟨_, rfl, ?_⟩
  simp only [illegalIf, hbad]
  rfl

theorem ldt_answers_badFmt {d : Fin 16} {z : Bool} (hgeo : ldtBadGeo x.snap.st[st] true = false)
    (hquant : quantised x.snap.st[st].fmt = true) :
    HeadAnswers (.ldt tk d st z true) .load tk x s
      (.trap (illegal (.ldt tk d st z true) 0x0D x.addr 1) s) := by
  change ∃ body, execLdt tk d st z true s = _ ∧ _
  unfold execLdt
  refine ⟨_, rfl, ?_⟩
  simp only [illegalIf, hgeo, hquant]
  rfl

theorem ldt_answers {d : Fin 16} {z tr : Bool} {rows : List (List Byte)}
    (hgeo : ldtBadGeo x.snap.st[st] tr = false) (hfmt : tr = true → quantised x.snap.st[st].fmt = false)
    (hchecks : readChecks (.ldt tk d st z tr) .load x
      (s.core.rowRanges x.snap.st[st] 0 x.snap.st[st].rows.toNat) s = none)
    (hrows : readRows s (locOf s x.snap .load .read) x.snap.st[st] 0 x.snap.st[st].rows.toNat = rows)
    (hpairs : q4xFault x.snap.st[st].fmt ((List.range rows.length).zip rows) = none) :
    HeadAnswers (.ldt tk d st z tr) .load tk x s
      (.issue (ldtFill d x.snap.st[st] z tr rows s) (fillsOf s d)) := by
  have hturns : (tr && quantised x.snap.st[st].fmt) = false := by cases tr <;> simp_all
  change ∃ body, execLdt tk d st z tr s = _ ∧ _
  unfold execLdt
  refine ⟨_, rfl, ?_⟩
  simp only [illegalIf, hgeo, hturns, hchecks, hrows, hpairs]
  rfl

theorem ldq_answers {q : Fin 4} (hroom : s.core.vqRoom q = true)
    (hgeo : x.snap.st[st].emptyGeo = false) (hbytes : x.snap.st[st].rbytes.toNat ≤ 256)
    (hchecks : (if x.started then rowAgain (.ldq tk q st) .load x (s.core.rowRanges x.snap.st[st] x.prog 1) s
      else readChecks (.ldq tk q st) .load x
        (s.core.rowRanges x.snap.st[st] 0 x.snap.st[st].rows.toNat) s) = none) :
    let u := s.pushVq q (fullEntry (lanesOf (readRange s (locOf s x.snap .load .read)
      (s.core.rowAddr x.snap.st[st] x.prog) x.snap.st[st].rbytes.toNat)))
    HeadAnswers (.ldq tk q st) .load tk x s
      (if decide (x.snap.st[st].rows.toNat ≤ x.prog + 1) then .issue u {}
        else .part u { x with prog := x.prog + 1, wpskip := false }) := by
  change ∃ body, execLdq tk q st s = _ ∧ _
  unfold execLdq
  refine ⟨_, rfl, ?_⟩
  simp only [illegalIf, hroom, hgeo, Nat.not_lt.mpr hbytes, hchecks, ← ite_lt_eq_ite_le]
  rfl

theorem ldsc_answers {target : Bool} {fifo : List (List Byte)}
    (hfifo : (if target then s.core.mx.bscale else s.core.mx.ascale) = fifo)
    (hroom : scalesHeld fifo + 64 * x.snap.st[st].rows.toNat ≤ 2048)
    (hpos : 0 < x.snap.st[st].rows.toNat) (hmax : x.snap.st[st].rows.toNat ≤ 32)
    (hfmt : x.snap.st[st].fmt = 6) (hbytes : x.snap.st[st].rbytes = 64)
    (hchecks : readChecks (.ldsc tk target st) .load x
      (s.core.rowRanges x.snap.st[st] 0 x.snap.st[st].rows.toNat) s = none) :
    let batch := (readRows s (locOf s x.snap .load .read) x.snap.st[st] 0 x.snap.st[st].rows.toNat).flatten
    HeadAnswers (.ldsc tk target st) .load tk x s
      (.issue (s.upd fun c => { c with mx :=
        if target then { c.mx with bscale := c.mx.bscale ++ [batch] }
        else { c.mx with ascale := c.mx.ascale ++ [batch] } }) {}) := by
  obtain ⟨hgeo, hgood⟩ := scaleBatch_geometry hpos hfmt hbytes
  change ∃ body, execLdsc tk target st s = _ ∧ _
  unfold execLdsc
  refine ⟨_, rfl, ?_⟩
  simp only [illegalIf, hfifo, hgeo, hgood, hfmt, hbytes, hchecks, Nat.not_lt.mpr hroom, Nat.not_lt.mpr hmax, and_false]
  rfl

section
variable {rq : Fin 2} {n : BitVec 9} {u : Word} {us : List Word} (hrq : s.core.q.rq rq = u :: us)
  (hpos : 0 < n.toNat) (hmax : n.toNat ≤ 64) (hgeo : x.snap.st[st].emptyGeo = false)
  (hbytes : x.snap.st[st].rbytes.toNat ≤ 256)
include hrq hpos hmax hgeo hbytes

theorem ldx_answers_tile {d : Fin 16} {rows : List (Nat × List Byte)}
    (hfmt : x.snap.st[st].badFmt = false)
    (hchecks : u.toNat < x.snap.st[st].rows.toNat → readChecks (.ldx tk (.tile d) st rq n) .load x
      (s.core.rowRanges x.snap.st[st] u.toNat 1) s = none)
    (hlast : n.toNat ≤ x.prog + 1) (hlen : rows.length = n.toNat)
    (hrows : x.rows ++ [(u.toNat, ldxRow s x x.snap.st[st] u.toNat)] = rows)
    (hpairs : q4xFault x.snap.st[st].fmt rows = none) :
    HeadAnswers (.ldx tk (.tile d) st rq n) .load tk x s
      (.issue ((s.popRq rq).fillTile d false (rows.map (·.2)) x.snap.st[st].fmt n.toNat
        (8 * x.snap.st[st].rbytes.toNat / bitsOr8 x.snap.st[st].fmt)) (fillsOf (s.popRq rq) d)) := by
  have hread := ite_map_none hchecks (atProgress x)
  change ∃ body, execLdx tk (.tile d) st rq n s = _ ∧ _
  unfold execLdx
  refine ⟨_, rfl, ?_⟩
  simp only [illegalIf, hrq, ldx_geometry hpos hmax hgeo hbytes, hfmt, hread, hlast, hrows, ldxTile, hpairs, hlen,
    decide_true]
  rfl

theorem ldx_answers_vq {q : Fin 4} (hroom : s.core.vqRoom q = true)
    (hchecks : u.toNat < x.snap.st[st].rows.toNat → readChecks (.ldx tk (.vq q) st rq n) .load x
      (s.core.rowRanges x.snap.st[st] u.toNat 1) s = none) :
    let v := (s.popRq rq).pushVq q (fullEntry (lanesOf (ldxRow s x x.snap.st[st] u.toNat)))
    HeadAnswers (.ldx tk (.vq q) st rq n) .load tk x s
      (if decide (n.toNat ≤ x.prog + 1) then .issue v {}
        else .part v { x with prog := x.prog + 1, wpskip := false }) := by
  have hread := ite_map_none hchecks (atProgress x)
  change ∃ body, execLdx tk (.vq q) st rq n s = _ ∧ _
  unfold execLdx
  refine ⟨_, rfl, ?_⟩
  simp only [illegalIf, hrq, Core.destRoom, hroom, ldx_geometry hpos hmax hgeo hbytes, hread]
  rfl

end

/-- The bytes of a lane that LGATH gathers (R198). -/
def gathBytes (s : State) (x : Entry) (r : StReg) (ix : LaneEntry) (lane : Nat) : List Byte :=
  match gathRange s.core r ix lane with
  | some a => readRange s (locOf s x.snap .load .read) a.1 a.2
  | none => []

/-- What LGATH waits for its retirement with: the tile that it fills, or nothing. -/
def gathIssued : LDest → State → Issued
  | .tile t, s => fillsOf s t
  | .vq _, _ => {}

section
variable {d : LDest} {q : Fin 4} {ix : LaneEntry} (hindex : x.index.or s.core.q.vq[q].head? = some ix)
  (hgeo : x.snap.st[st].emptyGeo = false) (hfmt : x.snap.st[st].badFmt = false)
  (hgath : gathFmt x.snap.st[st].fmt = true)
  (hchecks : readChecks (.lgath tk d st q) .load x (gathRange s.core x.snap.st[st] ix x.prog).toList s = none)
include hindex hgeo hfmt hgath hchecks

theorem lgath_answers :
    let u := if x.started then s else s.popVq q
    let all := x.rows ++ [(x.prog, gathBytes s x x.snap.st[st] ix x.prog)]
    HeadAnswers (.lgath tk d st q) .load tk x s
      (if x.prog < 63 then
          .part u { x with prog := x.prog + 1, wpskip := false, rows := all, index := some ix }
        else if !u.core.destRoom d then .wait
        else .issue (gathDone d x.snap.st[st] ix all u) (gathIssued d u)) := by
  intro u all
  change ∃ body, execLgath tk d st q s = _ ∧ _
  unfold execLgath
  refine ⟨_, rfl, ?_⟩
  simp only [illegalIf, hindex, hgeo, hfmt, hgath, hchecks]
  cases d <;> rfl

end

/-- Before its last lane LGATH goes on (R198). -/
theorem lgath_answers_lane {d : LDest} {q : Fin 4} {ix : LaneEntry}
    (hindex : x.index.or s.core.q.vq[q].head? = some ix) (hlane : x.prog < 63)
    (hgeo : x.snap.st[st].emptyGeo = false) (hfmt : x.snap.st[st].badFmt = false)
    (hgath : gathFmt x.snap.st[st].fmt = true)
    (hchecks : readChecks (.lgath tk d st q) .load x (gathRange s.core x.snap.st[st] ix x.prog).toList s = none) :
    HeadAnswers (.lgath tk d st q) .load tk x s (.part (if x.started then s else s.popVq q) { x with
      prog := x.prog + 1, wpskip := false, index := some ix
      rows := x.rows ++ [(x.prog, gathBytes s x x.snap.st[st] ix x.prog)] }) := by
  have h := lgath_answers hindex hgeo hfmt hgath hchecks
  simp only [hlane, if_true] at h
  exact h

/-- At its last lane LGATH leaves what it gathered, once there is room (R198). -/
theorem lgath_answers_last {d : LDest} {q : Fin 4} {ix : LaneEntry} (hstarted : x.started = true)
    (hlane : x.prog = 63) (hindex : x.index = some ix) (hgeo : x.snap.st[st].emptyGeo = false)
    (hfmt : x.snap.st[st].badFmt = false) (hgath : gathFmt x.snap.st[st].fmt = true)
    (hchecks : readChecks (.lgath tk d st q) .load x (gathRange s.core x.snap.st[st] ix 63).toList s = none) :
    HeadAnswers (.lgath tk d st q) .load tk x s (if !s.core.destRoom d then .wait
      else .issue (gathDone d x.snap.st[st] ix (x.rows ++ [(63, gathBytes s x x.snap.st[st] ix 63)]) s)
        (gathIssued d s)) := by
  have h := lgath_answers (tk := tk) (d := d) (q := q) (s := s) (ix := ix) (by rw [hindex]; rfl) hgeo hfmt hgath
    (by rwa [hlane])
  simp only [hlane, hstarted, Nat.lt_irrefl, if_true, if_false] at h
  exact h

theorem llandReady_ok {slot : Fin 64} {f : BitVec 4} {bs : List Byte} (hslot : s.core.land.slot[slot] = some (f, bs))
    (hfree : ∀ w ∈ s.core.load.issued, w.frees.map (·.1) ≠ some slot)
    (hgood : s.badAt (.slot s.core.id.num) (slot.val * 4096) 4096 = false) :
    llandReady slot x s = .ok (f, bs) := by
  have hno : (s.core.load.issued.any fun w => w.frees.any fun g => decide (g.1 = slot)) = false := by
    refine List.any_eq_false.mpr fun w hw h => hfree w hw ?_
    obtain ⟨g, hg, heq⟩ := (Option.any_eq_true _ _).mp h
    rw [hg, Option.map_some, of_decide_eq_true heq]
  simp only [llandReady, hno, hslot, hgood]
  rfl

theorem lland_answers_tile {d : Fin 16} {slot : Fin 64} {f : BitVec 4} {bs : List Byte} (hstarted : x.started = false)
    (hslot : llandReady slot x s = .ok (f, bs))
    (hpairs : q4xFault f ((List.range 16).zip (rows256 16 bs)) = none) :
    HeadAnswers (.lland tk (.tile d) slot) .load tk x s
      (.issue (s.fillTile d false (rows256 16 bs) f 16 (2048 / bitsOr8 f))
        { fillsOf s d with frees := some (slot, s.core.tick + 16) }) := by
  change ∃ body, execLland tk (.tile d) slot s = _ ∧ _
  unfold execLland
  refine ⟨_, rfl, ?_⟩
  simp only [hslot, hpairs, hstarted]
  rfl

theorem lland_answers_vq {q : Fin 4} {slot : Fin 64} {f : BitVec 4} {bs : List Byte} (hroom : s.core.vqRoom q = true)
    (hslot : llandReady slot x s = .ok (f, bs)) :
    let u := s.pushVq q (fullEntry (lanesOf ((rows256 16 bs).getD x.prog [])))
    HeadAnswers (.lland tk (.vq q) slot) .load tk x s
      (if decide (15 ≤ x.prog) then .issue u { frees := some (slot, (if x.started then x.first else s.core.tick) + 16) }
        else .part u { x with prog := x.prog + 1 }) := by
  change ∃ body, execLland tk (.vq q) slot s = _ ∧ _
  unfold execLland
  refine ⟨_, rfl, ?_⟩
  simp only [Core.destRoom, hroom, hslot, ← ite_lt_eq_ite_le]
  rfl

end

end Sys2Proof.Machine

namespace Sys2Proof.Machine

/-! ### Bytes of a range (R152, R374) -/

/-- The parts of a range up to a multiple of g add up to what lies below it. -/
theorem sum_pieces_below (g a n k : Nat) :
    ((List.range k).map fun i => min (a + n) ((a / g + i + 1) * g) - max a ((a / g + i) * g)).sum
      = min (a + n) (max a ((a / g + k) * g)) - a := by
  induction k with
  | zero =>
    have := Nat.div_mul_le_self a g
    simp only [List.range_zero, List.map_nil, List.sum_nil, Nat.add_zero]
    omega
  | succ k ih =>
    have hnext : (a / g + k + 1) * g = (a / g + k) * g + g := Nat.succ_mul _ _
    rw [List.range_succ, List.map_append, List.sum_append, ih, ← Nat.add_assoc, List.map_singleton, List.sum_singleton,
      hnext]
    omega

theorem sum_pieces {g : Nat} (hg : 0 < g) (a n : Nat) : ((pieces g a n).map (·.2)).sum = n := by
  have hsplit := Nat.div_add_mod a g
  have hcount := Nat.div_add_mod (a % g + n + (g - 1)) g
  have hrest := Nat.mod_lt (a % g + n + (g - 1)) hg
  have hend : a + n ≤ (a / g + (a % g + n + (g - 1)) / g) * g := by
    rw [Nat.add_mul, Nat.mul_comm _ g, Nat.mul_comm _ g]
    omega
  rw [pieces, List.map_map]
  refine (sum_pieces_below g a n _).trans ?_
  omega

@[simp] theorem readRange_length (s : State) (l : Loc) (a n : Nat) : (readRange s l a n).length = n := by
  unfold readRange
  rw [List.length_flatMap]
  refine (congrArg List.sum (List.map_congr_left fun p _ => ?_)).trans (sum_pieces (by omega) a n)
  split
  · exact Mem.readN_length _ _ _
  · exact List.length_replicate

theorem length_of_mem_readRows {s : State} {l : Loc} {st : StReg} {r n : Nat} {row : List Byte}
    (h : row ∈ readRows s l st r n) : row.length = st.rbytes.toNat := by
  obtain ⟨j, -, rfl⟩ := List.mem_map.mp h
  exact readRange_length ..

@[simp] theorem readRows_length (s : State) (l : Loc) (st : StReg) (r n : Nat) : (readRows s l st r n).length = n := by
  simp [readRows]

theorem leNat_replicate_zero (n : Nat) : leNat (List.replicate n 0) = 0 := by
  induction n with
  | zero => rfl
  | succ n ih => simpa [List.replicate_succ, leNat] using ih

/-- A row of zeros gives the lanes of no bytes (R195, R197). -/
theorem rowLane_replicate_zero (n : Nat) : rowLane (List.replicate n 0) = rowLane [] := by
  funext k
  simp only [rowLane, List.drop_replicate, List.take_replicate, leNat_replicate_zero, List.drop_nil, List.take_nil]
  rfl

/-! ### Packed elements (R129, R192, R198) -/

/-- The bytes of value k among values of w bytes each. -/
theorem take_drop_flatMap_leBytes {w k : Nat} {l : List Nat} (hk : k < l.length) :
    ((l.flatMap (leBytes w)).drop (w * k)).take w = leBytes w (l.getD k 0) := by
  induction l generalizing k with
  | nil => simp at hk
  | cons v l ih =>
    rw [List.flatMap_cons]
    cases k with
    | zero => exact List.take_left' (leBytes_length w v)
    | succ k =>
      rw [Nat.mul_add_one, Nat.add_comm, ← List.drop_drop, List.drop_left' (leBytes_length w v),
        ih (by simpa using hk), List.getD_cons_succ]

/-- Element k of values of w bytes each. -/
theorem elemOf_flatMap_leBytes {w k : Nat} {l : List Nat} (hk : k < l.length) :
    elemOf (8 * w) (l.flatMap (leBytes w)) k = l.getD k 0 % 256 ^ w := by
  rw [elemOf, if_neg (by omega), Nat.mul_div_cancel_left w (by omega), take_drop_flatMap_leBytes hk, leNat_leBytes]

theorem length_flatMap_leBytes (w : Nat) (l : List Nat) : (l.flatMap (leBytes w)).length = w * l.length := by
  simp [List.length_flatMap, Nat.mul_comm]

theorem packElems_bytes (w : Nat) (l : List Nat) : packElems (8 * w) l = l.flatMap (leBytes w) := by
  have hb : 8 * w ≠ 4 := by omega
  have hw : 8 * w / 8 = w := Nat.mul_div_cancel_left w (by omega)
  induction l with
  | nil => rfl
  | cons v l ih => cases l <;> simp [packElems, hb, hw, ih]

theorem elemOf_lt (w : Nat) (bs : List Byte) (k : Nat) : elemOf (8 * w) bs k < 256 ^ w := by
  rw [elemOf, if_neg (by omega), Nat.mul_div_cancel_left w (by omega)]
  exact (leNat_lt _).trans_le (Nat.pow_le_pow_right (by omega) (List.length_take_le ..))

/-- An element of a format that is not quantised takes whole bytes (R121). -/
theorem bitsOr8_of_not_quantised : ∀ f : BitVec 4, quantised f = false → bitsOr8 f = 8 * (bitsOr8 f / 8) := by decide

/-- The elements that LGATH gathers take one, two or four bytes (R198). -/
theorem bitsOr8_of_gathFmt :
    ∀ f : BitVec 4, gathFmt f = true → bitsOr8 f = 8 * (bitsOr8 f / 8) ∧ bitsOr8 f / 8 ≤ 4 := by decide

/-- The bytes that LGATH puts into a tile's row are those of its elements' values in order (R198). -/
theorem flatMap_gathered (w : Nat) (xs : List (Nat × List Byte)) (y : Nat × List Byte) :
    (xs ++ [y]).flatMap (fun v => leBytes w (leNat v.2))
      = ((xs.map (·.2) ++ [y.2]).map leNat).flatMap (leBytes w) := by
  simp [List.flatMap_append, List.flatMap_map]

theorem getD_transposeRows {b e k : Nat} (rows : List (List Byte)) (hk : k < e) :
    (transposeRows b e rows).getD k [] = packElems b (rows.map fun row => elemOf b row k) := by
  simp [transposeRows, hk]

section
variable {b w e : Nat} {rows : List (List Byte)} (hb : b = 8 * w)
include hb

/-- Row k of the rows turned on their side holds element k of each of them (R192). -/
theorem elemOf_transposeRows {k j : Nat} (hk : k < e) (hj : j < rows.length) :
    elemOf b ((transposeRows b e rows).getD k []) j = elemOf b (rows.getD j []) k := by
  subst hb
  rw [getD_transposeRows rows hk, packElems_bytes, elemOf_flatMap_leBytes (by simpa using hj)]
  simpa [hj] using Nat.mod_eq_of_lt (elemOf_lt w rows[j] k)

theorem length_of_mem_transposeRows {row : List Byte} (h : row ∈ transposeRows b e rows) :
    row.length = w * rows.length := by
  subst hb
  obtain ⟨k, -, rfl⟩ := List.mem_map.mp h
  rw [packElems_bytes, length_flatMap_leBytes, List.length_map]

end

end Sys2Proof.Machine

namespace Sys2Proof.Machine

/-! ### What the load engine leaves in a tile (R168, R191, R192, R194) -/

/-- A load word whose act fills a tile: what it leaves in the tile, its shape and its sums, and beside it what its
body did first. -/
theorem HeadAnswers.fillsTile {i : Instr} {tk : Tok} {x : Entry} {s v : State} {rest : List QItem} {d : Fin 16}
    {clear : Bool} {rows : List (List Byte)} {f : BitVec 4} {r e b n : Nat} {frees : Option (Fin 64 × Nat)}
    {eff : State → Prop}
    (h : HeadAnswers i .load tk x s
      (.issue (v.fillTile d clear rows f r e) { fillsOf v d with frees := frees }))
    (hhead : headWord .load s = some (x, rest)) (hgoes : engGoes .load tk x s = true)
    (hwf : s.core.mx.tiles.wf = true) (hkeeps : LoadBody s v) (hmx : v.core.mx = s.core.mx)
    (hcount : rows.length ≤ 64) (hrows : ∀ row ∈ rows, row.length ≤ 256 ∧ b * n ≤ 8 * row.length)
    (heff : ∀ t : State, t.core.q = v.core.q → TileHolds d b n rows clear s t →
      (∃ w ∈ (t.core.eng .load).issued, w.frees = frees) → eff t) :
    ∃ t, exec i s = .next t ∧ EngIssues .load tk x rest s t ∧ RestSame s t ∧ t.core.vec = s.core.vec ∧
      MxButTiles s t ∧ TileHolds d b n rows clear s t ∧ ShapeIs d f r e s t ∧
      (∃ w ∈ (t.core.eng .load).issued, w.fills.map (·.1) = some d) ∧ eff t := by
  have hbody := hkeeps.trans (LoadBody.fillTile v d clear rows f r e)
  obtain ⟨t, ht, hissues, hleaves, w, hw, hfills, hfrees, -⟩ := h.issues hhead hgoes hbody.toEngBody
  have hpath := hleaves.mx.trans (v.fillTile_mx d clear rows f r e)
  rw [hmx] at hpath
  have hholds : TileHolds d b n rows clear s t :=
    tileHolds_fillTile hwf hcount hrows (congrArg Matrix.tiles hpath)
  refine ⟨t, ht, hissues, hleaves.restSame hbody.rest, hleaves.vec.trans hbody.vec, ?_, hholds,
    shapeIs_fillTile hmx hleaves.mx, ⟨w, hw, by rw [hfills]; rfl⟩, heff t hleaves.q hholds ⟨w, hw, hfrees⟩⟩
  unfold MxButTiles
  rw [hpath]

theorem ldtBadGeo_straight {r : StReg} (h : ldtBadGeo r false = false) : r.rows.toNat ≤ 64 ∧ r.rbytes.toNat ≤ 256 := by
  simp only [ldtBadGeo, Bool.or_eq_false_iff, Bool.false_eq_true, if_false, decide_eq_false_iff_not, Nat.not_lt] at h
  exact h.2

theorem ldtBadGeo_turned {r : StReg} (h : ldtBadGeo r true = false) :
    8 * r.rbytes.toNat / bitsOr8 r.fmt ≤ 64 ∧ r.rows.toNat * bitsOr8 r.fmt ≤ 2048 := by
  simp only [ldtBadGeo, Bool.or_eq_false_iff, if_true, decide_eq_false_iff_not, Nat.not_lt] at h
  exact h.2

theorem length_of_mem_rows256 {n : Nat} {bs row : List Byte} (hbs : bs.length = 256 * n) (h : row ∈ rows256 n bs) :
    row.length = 256 := by
  obtain ⟨j, hj, rfl⟩ := List.mem_map.mp h
  have := List.mem_range.mp hj
  rw [List.length_take, List.length_drop]
  omega

/-- Settles O34: each word's act fills the tile with its rows; what the tile holds, its shape and its sums are read off
the bytes written, whose rows lie 256 bytes apart. -/
theorem tilesLoaded : Obligations.TilesLoaded := by
  intro s tk d x rest hhead hgoes hwf fills
  refine ⟨?ldt, ?ldx, ?lgath, ?lland⟩
  case ldt =>
    intro st z tr hstarted r b e rows i
    have hready := engReady_of_goes hgoes hstarted
    refine ⟨fun hbad => (ldt_answers_badGeo hbad).finish hhead hready, fun hgeo htr hquant => ?badFmt,
      fun hgeo hfmt hchecks hpairs => ?loads⟩
    case badFmt =>
      subst htr
      exact (ldt_answers_badFmt hgeo hquant).finish hhead hready
    case loads =>
      have hans := ldt_answers hgeo hfmt hchecks rfl hpairs
      have hlen : rows.length = r.rows.toNat := readRows_length ..
      refine ⟨fun htr => ?straight, fun htr => ?turned⟩
      case straight =>
        subst htr
        obtain ⟨hrows, hbytes⟩ := ldtBadGeo_straight hgeo
        refine hans.fillsTile hhead hgoes hwf (.refl s) rfl (show rows.length ≤ 64 from hlen.trans_le hrows)
          (fun row hrow => ?_) fun t hq _ _ => hq
        rw [length_of_mem_readRows hrow]
        exact ⟨hbytes, Nat.mul_div_le ..⟩
      case turned =>
        subst htr
        obtain ⟨helems, hbits⟩ := ldtBadGeo_turned hgeo
        have hb := bitsOr8_of_not_quantised r.fmt (hfmt rfl)
        have hlenT : (transposeRows b e rows).length = e := by simp [transposeRows]
        refine hans.fillsTile hhead hgoes hwf (.refl s) rfl (hlenT.trans_le helems) (fun row hrow => ?_)
          fun t hq hholds _ => ⟨hq, fun k j hk hj => ?_⟩
        · rw [length_of_mem_transposeRows hb hrow, hlen, ← Nat.mul_assoc, ← hb]
          refine ⟨?_, le_rfl⟩
          rw [hb, Nat.mul_comm, Nat.mul_assoc] at hbits
          omega
        · exact (hholds.1 k j (hlenT.symm ▸ hk) hj).trans (elemOf_transposeRows hb hk (hlen.symm ▸ hj))
  case ldx =>
    intro st rq n u us r rows hrq hpos hmax hgeo hfmt hbytes hlast hlen hrows hchecks hpairs
    have hans := ldx_answers_tile hrq hpos hmax hgeo hbytes hfmt hchecks hlast hlen rfl hpairs
    refine hans.fillsTile hhead hgoes hwf (.popRq s rq) (s.popRq_mx rq)
      ((List.length_map _).trans_le (hlen.trans_le hmax))
      (fun row hrow => ?_) fun t hq _ _ => ⟨hq ▸ State.popRq_rq hrq, hq ▸ s.popRq_vq rq⟩
    obtain ⟨y, hy, rfl⟩ := List.mem_map.mp hrow
    rw [hrows y hy]
    exact ⟨hbytes, Nat.mul_div_le ..⟩
  case lgath =>
    intro st q ix r w got row hstarted hprog hindex hlen hgeo hfmt hgath hchecks
    obtain ⟨hbits, hsize⟩ := bitsOr8_of_gathFmt r.fmt hgath
    let values := (x.rows.map (·.2) ++ [got]).map leNat
    have hvalues : values.length = 64 := by simp [values, hlen]
    have hrow : row = values.flatMap (leBytes w) := (List.flatMap_map ..).symm
    have hans := lgath_answers_last (d := .tile d) hstarted hprog hindex hgeo hfmt hgath hchecks
    simp only [Core.destRoom, Bool.not_true, Bool.false_eq_true, if_false, gathDone, flatMap_gathered] at hans
    refine HeadAnswers.fillsTile (rows := [row]) (hrow ▸ hans) hhead hgoes hwf (.refl s) rfl (by simp)
      (fun y hy => ?_) fun t hq hholds _ => ⟨hq, fun k => ?_⟩
    · rw [List.mem_singleton.mp hy, hrow, length_flatMap_leBytes, hvalues]
      omega
    · have hk : k.val < values.length := hvalues.symm ▸ k.isLt
      calc elemOf (8 * w) (tileRow t.core d 0) k.val
        _ = elemOf (8 * w) (values.flatMap (leBytes w)) k.val := hrow ▸ hholds.1 0 k.val Nat.zero_lt_one k.isLt
        _ = values.getD k.val 0 % 256 ^ w := elemOf_flatMap_leBytes hk
        _ = leNat ((x.rows.map (·.2) ++ [got]).getD k.val []) % 2 ^ (8 * w) := by
          rw [Nat.pow_mul]
          exact congrArg (· % 256 ^ w) (List.getD_map _ [] leNat)
  case lland =>
    intro slot f bs hstarted hslot hbs hfree hgood rows hpairs
    refine (lland_answers_tile hstarted (llandReady_ok hslot hfree hgood) hpairs).fillsTile hhead hgoes hwf
      (.refl s) rfl (by simp [rows256]) (fun row hrow => ?_) fun t hq _ hw => ⟨hq, hw⟩
    rw [length_of_mem_rows256 hbs hrow]
    exact ⟨le_rfl, Nat.mul_div_le ..⟩

end Sys2Proof.Machine

namespace Sys2Proof.Machine

/-! ### What the load engine puts into queues (R195 to R200) -/

/-- A row's entry that a word leaves in an operand queue. -/
theorem entersVq_of_pushVq {s t : State} {q : Fin 4} {bs : List Byte}
    (h : t.core.q = (s.pushVq q (fullEntry (lanesOf bs))).core.q) : EntersVq q (rowLane bs) s t := h

theorem pushVq_popRq (s : State) (rq : Fin 2) (q : Fin 4) (y : LaneEntry) :
    ((s.popRq rq).pushVq q y).core.q.rq rq = (s.popRq rq).core.q.rq rq ∧
      ((s.popRq rq).pushVq q y).core.q.vq[q] = s.core.q.vq[q] ++ [y] := by
  refine ⟨rfl, ?_⟩
  rw [← s.popRq_vq rq]
  exact Vector.getElem_set_self q.isLt

/-- The lanes of LDX's row, zeros where the index names none (R197). -/
theorem rowLane_ldxRow (s : State) (x : Entry) (r : StReg) (u : Nat) : rowLane (ldxRow s x r u) =
    rowLane (if u < r.rows.toNat then readRange s (locOf s x.snap .load .read) (s.core.rowAddr r u) r.rbytes.toNat
      else []) := by
  unfold ldxRow
  split
  · rfl
  · exact rowLane_replicate_zero _

/-- Row j of 16 rows of 256 bytes (R200). -/
theorem getD_rows256 (bs : List Byte) {j : Nat} (h : j < 16) :
    (rows256 16 bs).getD j [] = (bs.drop (256 * j)).take 256 := by
  simp [rows256, h]

/-- The entry of the elements that LGATH gathered, under the mask of its indices (R198). -/
def gathEntry (ix : LaneEntry) (elems : List (List Byte)) : LaneEntry :=
  { mask := ix.mask, lanes := Vector.ofFn fun j : Fin 64 => BitVec.ofNat 32 (leNat (elems.getD j.val [])) }

theorem gathDone_vq (q : Fin 4) (r : StReg) (ix : LaneEntry) (xs : List (Nat × List Byte)) (y : Nat × List Byte)
    (s : State) : gathDone (.vq q) r ix (xs ++ [y]) s = s.pushVq q (gathEntry ix (xs.map (·.2) ++ [y.2])) := by
  have helem (j : Nat) : ((xs ++ [y]).getD j (0, [])).2 = (xs.map (·.2) ++ [y.2]).getD j [] := by
    rw [show xs.map (·.2) ++ [y.2] = (xs ++ [y]).map (·.2) by simp]
    exact (List.getD_map (xs ++ [y]) (0, []) (·.2)).symm
  simp only [gathDone, gathEntry, helem]

theorem State.popVq_vq_self (s : State) (q : Fin 4) : (s.popVq q).core.q.vq[q] = s.core.q.vq[q].tail := by
  simp [State.popVq_q]

/-- Settles O35: each word's act pushes one entry, or one batch, and goes on where it was not the last. -/
theorem operandsLoaded : Obligations.OperandsLoaded := by
  intro s tk q x rest hhead hgoes
  refine ⟨?ldq, ?ldsc, ?ldx, ?lane, ?gathered, ?lland⟩
  case ldq =>
    intro st r i hroom hgeo hbytes hchecks
    have hbody := LoadBody.pushVq s q (fullEntry (lanesOf (readRange s (locOf s x.snap .load .read)
      (s.core.rowAddr r x.prog) r.rbytes.toNat)))
    obtain ⟨t, ht, hstep, hleaves⟩ := (ldq_answers (decide_eq_true hroom) hgeo hbytes hchecks).step hhead hgoes
      hbody.toEngBody rfl rfl rfl rfl
    exact ⟨t, ht, hstep, hleaves.restSame hbody.rest, hleaves.mx, hleaves.vec, entersVq_of_pushVq hleaves.q⟩
  case ldsc =>
    intro target st hstarted r n fifo batch hpos hmax hfmt hbytes hroom hchecks
    have hbody := LoadBody.updMx s fun c => if target then { c.mx with bscale := c.mx.bscale ++ [batch] }
      else { c.mx with ascale := c.mx.ascale ++ [batch] }
    obtain ⟨t, ht, hissues, hleaves, -⟩ := (ldsc_answers rfl hroom hpos hmax hfmt hbytes hchecks).issues hhead hgoes
      hbody.toEngBody
    refine ⟨t, ht, hissues, hleaves.restSame hbody.rest, hleaves.q, hleaves.vec, hleaves.mx.trans ?_⟩
    cases target <;> rfl
  case ldx =>
    intro st rq n u us r i hrq hroom hpos hmax hgeo hbytes hchecks
    have hbody := (LoadBody.popRq s rq).trans (.pushVq _ q (fullEntry (lanesOf (ldxRow s x r u.toNat))))
    obtain ⟨t, ht, hstep, hleaves⟩ := (ldx_answers_vq hrq hpos hmax hgeo hbytes (decide_eq_true hroom) hchecks).step
      hhead hgoes hbody.toEngBody rfl rfl rfl rfl
    obtain ⟨hindices, hentries⟩ := pushVq_popRq s rq q (fullEntry (lanesOf (ldxRow s x r u.toNat)))
    refine ⟨t, ht, hstep, hleaves.restSame hbody.rest, hleaves.mx.trans (s.popRq_mx rq), ?_, ?_⟩
    · rw [hleaves.q, hindices, State.popRq_rq hrq]
    · rw [hleaves.q, hentries, ← rowLane_ldxRow]
      rfl
  case lane =>
    intro d st ix r i hindex hlane hfresh hgeo hfmt hgath hchecks
    have hbody : LoadBody s (if x.started then s else s.popVq q) := by
      split
      · exact .refl s
      · exact .popVq s q
    obtain ⟨t, z, ht, hstays, hleaves, hqueue, -, -, hrows, hix, -⟩ :=
      (lgath_answers_lane hindex hlane hgeo hfmt hgath hchecks).stays hhead hgoes hbody.toEngBody rfl rfl rfl
    refine ⟨t, z, ht, hstays, hleaves.restSame hbody.rest, ?_, hqueue, hix, hrows, ?_⟩
    · rw [hleaves.mx]
      split
      · rfl
      · exact s.popVq_mx q
    · rw [hleaves.q]
      split
      · rfl
      · exact s.popVq_vq_self q
  case gathered =>
    intro k st ix r i got hstarted hprog hindex hlen hgeo hfmt hgath hchecks
    have hans := lgath_answers_last hstarted hprog hindex hgeo hfmt hgath hchecks
    refine ⟨fun hroom => ?room, fun hfull hbank => ?full⟩
    case room =>
      rw [Core.destRoom, Core.vqRoom, decide_eq_true hroom, Bool.not_true, if_neg Bool.false_ne_true] at hans
      rw [gathDone_vq] at hans
      have hbody := LoadBody.pushVq s k (gathEntry ix (x.rows.map (·.2) ++ [got]))
      obtain ⟨t, ht, hissues, hleaves, -⟩ := hans.issues hhead hgoes hbody.toEngBody
      exact ⟨t, ht, hissues, hleaves.restSame hbody.rest, hleaves.mx, hleaves.vec, hleaves.q⟩
    case full =>
      rw [Core.destRoom, Core.vqRoom, decide_eq_false (Nat.not_lt.mpr hfull), Bool.not_false, if_pos rfl] at hans
      exact hans.waits hhead hgoes (by simp [Core.settlesNow, hbank])
  case lland =>
    intro slot f bs i hslot hroom hpart hfree hgood
    have hbody := LoadBody.pushVq s q (fullEntry (lanesOf ((rows256 16 bs).getD x.prog [])))
    obtain ⟨t, ht, hstep, hleaves⟩ :=
      (lland_answers_vq (decide_eq_true hroom) (llandReady_ok hslot hfree hgood)).step hhead hgoes hbody.toEngBody
        rfl rfl rfl rfl
    exact ⟨t, ht, hstep, hleaves.restSame hbody.rest, hleaves.mx,
      entersVq_of_pushVq (getD_rows256 bs hpart ▸ hleaves.q)⟩

end Sys2Proof.Machine

namespace Sys2Proof.Machine

/-! ### The checks of SDOPEN (R251) -/

/-- The state with free values spent. -/
def SpendsFree (s u : State) : Prop := ∃ n, u = { s with free := n }

theorem SpendsFree.refl (s : State) : SpendsFree s s := ⟨s.free, rfl⟩

theorem SpendsFree.trans {s t u : State} (h : SpendsFree s t) (k : SpendsFree t u) : SpendsFree s u := by
  obtain ⟨m, rfl⟩ := h
  obtain ⟨n, rfl⟩ := k
  exact ⟨n, rfl⟩

theorem SpendsFree.streamRead (s : State) (l : Loc) (a n : Nat) : SpendsFree s (streamRead s l a n).2 := by
  unfold Machine.streamRead
  split
  · exact ⟨s.free + 1, rfl⟩
  · exact .refl s

/-- What SDOPEN's checks answer stands with a state that has spent free values at most. -/
def ChecksSpend (s : State) (r : List (Nat × Nat) × OpenEnd × State) : Prop := SpendsFree s r.2.2

/-- The checks of SDOPEN spend free values at most: for the bytes of a header or a table that hold an error (R379).
The functions that they ask are made variables, so that no case evaluates them. -/
theorem openChecks_spend (s : State) (l : Loc) (h : Nat) : ChecksSpend s (openChecks s l h) := by
  have hbody : @Machine.openChecks = @Machine.openChecks := rfl
  conv at hbody => rhs; delta Machine.openChecks
  rw [hbody]
  clear hbody
  have hspends := SpendsFree.streamRead
  obtain ⟨read, hread⟩ : ∃ f, Machine.streamRead = f := ⟨_, rfl⟩
  obtain ⟨stage, hstage⟩ : ∃ f, stageFail = f := ⟨_, rfl⟩
  obtain ⟨gone, hgone⟩ : ∃ f, goneAt = f := ⟨_, rfl⟩
  obtain ⟨far, hfar⟩ : ∃ f, foreign = f := ⟨_, rfl⟩
  rw [hread] at hspends
  rw [hread, hstage, hgone, hfar]
  beta_reduce
  extract_lets die r1
  iterate 3
    split
    · exact .refl s
  split
  next hdr u hhdr =>
  have hu : SpendsFree s u := by simpa only [hhdr] using hspends s l h 64
  extract_lets n r2 b0
  iterate 4
    split
    · exact hu
  split
  next tab v htab =>
  have hv : SpendsFree s v := hu.trans (by simpa only [htab] using hspends u l (h + 64) (8 * n))
  extract_lets es r3 all
  iterate 6
    split
    · exact hv
  exact hv

end Sys2Proof.Machine

namespace Sys2Proof.Machine

/-! ### How the stream words answer (R210 to R214)

SDOPEN's checks are made a variable where its body is run, so that nothing evaluates them. -/

section
variable {s : State} {x : Entry}

section
variable {st : Fin 16} {h : Nat} {rs : List (Nat × Nat)} {u : State} (hstarted : x.started = false)
  (hhook : s.core.ctl.regs.hook = false) (hsd : s.core.sd = none)
  (hrow : s.core.rowAddr x.snap.st[st] 0 = h) (halign : h % 64 = 0)
  (hquiet : watchFail (.sdopen st) .stream x (wpRange x.snap 0 (wpBit .stream) rs) u = none)
include hstarted hhook hsd hrow halign hquiet

theorem sdopen_answers_good {hdr tab : List Byte}
    (hchecks : openChecks s (locOf s x.snap .stream .read) h = (rs, .good hdr tab, u)) :
    HeadAnswers (.sdopen st) .stream noTok x s (.part u { x with
      wpskip := false, due := u.core.gtick + 64 + hdrBlocks hdr, rows := [(h, hdr), (h + 64, tab)] }) := by
  change ∃ body, execSdopen st s = _ ∧ _
  unfold execSdopen
  obtain ⟨checks, hopen⟩ : ∃ f, openChecks = f := ⟨_, rfl⟩
  rw [hopen] at hchecks ⊢
  refine ⟨_, rfl, ?_⟩
  simp only [hstarted, hookTrap, hhook, illegalIf, hsd, hrow, halign, hchecks, hquiet]
  rfl

theorem sdopen_answers_reject {r : Nat × Nat × Nat}
    (hchecks : openChecks s (locOf s x.snap .stream .read) h = (rs, .reject r, u)) :
    HeadAnswers (.sdopen st) .stream noTok x s
      (.trap { cause := 0x0D, info := contractInfo r, addr := BitVec.ofNat 48 h } u) := by
  change ∃ body, execSdopen st s = _ ∧ _
  unfold execSdopen
  obtain ⟨checks, hopen⟩ : ∃ f, openChecks = f := ⟨_, rfl⟩
  rw [hopen] at hchecks ⊢
  refine ⟨_, rfl, ?_⟩
  simp only [hstarted, hookTrap, hhook, illegalIf, hsd, hrow, halign, hchecks, hquiet]
  rfl

end

section
variable {n : BitVec 12} {d : Stream} (hhook : s.core.ctl.regs.hook = false) (hsd : s.core.sd = some d)
  (htable : d.granted + n.toNat ≤ d.table.length)
include hhook hsd htable

theorem sdrun_answers (htime : s.core.gtick ≤ d.g0 + d.tick d.granted) :
    HeadAnswers (.sdrun n) .stream noTok x s
      (.issue (s.upd fun c => { c with sd := some { d with granted := d.granted + n.toNat } })
        { upto := some (d.granted + n.toNat) }) := by
  change ∃ body, execSdrun n s = _ ∧ _
  unfold execSdrun
  refine ⟨_, rfl, ?_⟩
  simp only [hookTrap, hhook, hsd, illegalIf, Nat.not_lt.mpr htable, Nat.not_lt.mpr htime]
  rfl

theorem sdrun_answers_late (hlate : d.g0 + d.tick d.granted < s.core.gtick) :
    HeadAnswers (.sdrun n) .stream noTok x s
      (.trap { cause := 0x0E, info := slipInfo d.granted 15, addr := x.addr } s) := by
  change ∃ body, execSdrun n s = _ ∧ _
  unfold execSdrun
  refine ⟨_, rfl, ?_⟩
  simp only [hookTrap, hhook, hsd, illegalIf, Nat.not_lt.mpr htable, hlate]
  rfl

end

theorem sdclose_answers : HeadAnswers .sdclose .stream noTok x s
    (if s.core.stream.issued.any (·.upto.isSome) then .wait
      else .issue (s.upd fun c => { c with sd := none }) {}) := by
  change ∃ body, execSdclose s = _ ∧ _
  unfold execSdclose
  exact ⟨_, rfl, rfl⟩

theorem sdstat_answers (hroom : s.core.q.wsq.length < 16) : HeadAnswers .sdstat .stream noTok x s
    (.issue (s.updQ fun q => { q with wsq := q.wsq ++ [sdRecord s.core.sd] }) {}) := by
  change ∃ body, execSdstat s = _ ∧ _
  unfold execSdstat
  refine ⟨_, rfl, ?_⟩
  simp only [Nat.not_le.mpr hroom, if_false]

end

/-- A word that first stands at a progress point leaves the control core alone. -/
theorem EngStays.frame {e : Engine} {tk : Tok} {x : Entry} {rest : List QItem} {n : Nat} {s t : State}
    (h : EngStays e tk x rest n s t) (hstarted : x.started = false) : EngFrame e s t := by
  obtain ⟨y, -, -, -, -, -, -, hctl⟩ := h.queue
  rw [hstarted, Bool.false_and, Bool.false_and, if_neg Bool.false_ne_true] at hctl
  exact { others := h.others, ctl := hctl, tick := h.tick, gtick := h.gtick, jig := h.jig, vis := h.vis, hook := h.hook }

theorem EngBody.sd (e : Engine) (s : State) (o : Option Stream) :
    EngBody e s (s.upd fun c => { c with sd := o }) := by
  have heng (e' : Engine) : ({ s.core with sd := o } : Core).eng e' = s.core.eng e' := by cases e' <;> rfl
  exact .upd (f := fun c => { c with sd := o }) rfl rfl rfl rfl rfl rfl heng rfl

theorem openChecks_state {s u : State} {l : Loc} {h : Nat} {rs : List (Nat × Nat)} {fin : OpenEnd}
    (hchecks : openChecks s l h = (rs, fin, u)) : SpendsFree s u := by
  have hspend := openChecks_spend s l h
  rwa [hchecks] at hspend

theorem EngBody.spendsFree {e : Engine} {s u : State} (h : SpendsFree s u) : EngBody e s u := by
  obtain ⟨n, rfl⟩ := h
  exact { others := fun _ _ => rfl, ctl := rfl, tick := rfl, gtick := rfl, jig := rfl, vis := rfl, hook := rfl
          eng := rfl, tok := rfl }

theorem RestSame.spendsFree {s u : State} (h : SpendsFree s u) : RestSame s u := by
  obtain ⟨n, rfl⟩ := h
  exact .of_eq rfl rfl rfl rfl rfl rfl rfl

/-- SDOPEN's retirement at its tick (R211): the stream that its header and its table describe opens. -/
theorem execSdopenRetire_opens {s : State} {x : Entry} {rest : List QItem} (hq : s.core.stream.queue = .word x :: rest)
    (hstarted : x.started = true) (hdue : x.due ≤ s.core.gtick) (hbank : s.core.ctl.bank1 = false)
    (hlate : s.core.stream.late = false) :
    execSdopenRetire s = .next (s.upd fun c => { c with
      sd := (streamOf x).or c.sd
      stream := { c.stream with queue := rest }
      stall := { c.stall with progress := c.tick } }).pass := by
  have hopen : s.core.openDue = true := by simp [Core.openDue, hq, hstarted, hdue, hbank, hlate]
  simp only [execSdopenRetire, hopen, hq, if_true]

/-- Settles O40: each word does what its body answers at the head of the stream queue; SDOPEN's checks change nothing
that a word sees, and its retirement opens the stream of the header and the table that stand with it. -/
theorem streamWords : Obligations.StreamWords := by
  intro s x rest hhead
  refine ⟨?sdopen, ?retire, ?sdrun, ?others⟩
  case sdopen =>
    intro st rs u h i quiet hstarted hready hhook hsd halign
    refine ⟨fun hdr tab hchecks hquiet => ?good, fun r hchecks hquiet =>
      (sdopen_answers_reject hstarted hhook hsd rfl halign hquiet hchecks).finish hhead hready⟩
    case good =>
      have hspends := openChecks_state hchecks
      obtain ⟨t, z, ht, hstays, hleaves, hqueue, hzstarted, hzword, hzrows, -, hzdue⟩ :=
        (sdopen_answers_good hstarted hhook hsd rfl halign hquiet hchecks).stays hhead (engGoes_of_ready hready)
          (EngBody.spendsFree hspends) rfl rfl rfl
      have hrest := hleaves.restSame (RestSame.spendsFree hspends)
      obtain ⟨n, rfl⟩ := hspends
      exact ⟨t, z, ht, hstays.frame hstarted, hrest, hleaves.q, hleaves.mx, hleaves.vec, hqueue, hzstarted, hzword,
        hzdue, hzrows⟩
  case retire =>
    intro h hdr tab a hstarted hdue hbank hlate hrows
    have hstream : streamOf x = some { header := BitVec.ofNat 48 h, fmt := hdrFmt hdr, rate := hdrRate hdr
                                       bufB := hdrBuf hdr, delay := hdrDelay hdr
                                       table := rmEntries (hdrBlocks hdr) tab, g0 := x.due } := by
      simp only [streamOf, hrows]
    refine ⟨_, execSdopenRetire_opens (headWord_queue hhead) hstarted hdue hbank hlate,
      { others := fun e he => ?_, ctl := rfl, tick := rfl, gtick := rfl, jig := rfl, vis := rfl, hook := rfl },
      MemSame.of_eq rfl rfl rfl rfl, rfl, rfl, rfl, _, congrArg (Option.or · s.core.sd) hstream,
      rfl, rfl, rfl, rfl, rfl, rfl, rfl, rfl, rfl, rfl, rfl⟩
    cases e with
    | stream => exact absurd rfl he
    | _ => rfl
  case sdrun =>
    intro n d hstarted hready hhook hsd htable
    refine ⟨fun htime => ?grants, fun hlate =>
      (sdrun_answers_late hhook hsd htable hlate).finish hhead hready⟩
    case grants =>
      obtain ⟨t, ht, hissues, hleaves, w, hw, -, -, hupto⟩ := (sdrun_answers hhook hsd htable htime).issues hhead
        (engGoes_of_ready hready) (EngBody.sd _ s _)
      exact ⟨t, ht, hissues, hleaves.memSame (MemSame.of_eq rfl rfl rfl rfl), hleaves.q, hleaves.mx, hleaves.vec,
        hleaves.sd, w, hw, hupto⟩
  case others =>
    intro hstarted hready
    have hgoes := engGoes_of_ready hready
    refine ⟨fun hnone => ?closes, fun hsome => ?waits, fun hroom => ?stat⟩
    case closes =>
      have hans := sdclose_answers (s := s) (x := x)
      rw [if_neg (by simpa using hnone)] at hans
      obtain ⟨t, ht, hissues, hleaves, -⟩ := hans.issues hhead hgoes (EngBody.sd _ s none)
      exact ⟨t, ht, hissues, hleaves.memSame (MemSame.of_eq rfl rfl rfl rfl), hleaves.q, hleaves.mx, hleaves.vec,
        hleaves.sd⟩
    case waits =>
      have hans := sdclose_answers (s := s) (x := x)
      rw [if_pos (List.any_eq_true.mpr hsome)] at hans
      exact hans.waits hhead hgoes (by rw [hstarted, Bool.false_and])
    case stat =>
      obtain ⟨t, ht, hissues, hleaves, -⟩ := (sdstat_answers hroom).issues hhead hgoes (EngBody.updQ _ s _)
      exact ⟨t, ht, hissues, hleaves.restSame (RestSame.of_eq rfl rfl rfl rfl rfl rfl rfl), hleaves.mx, hleaves.vec,
        hleaves.q⟩

end Sys2Proof.Machine
